-- ==== Sys2Proof/Word.lean ====
section
/-!
DEFINITION. Word.lean: the word types and their plainest arithmetic.
-/

namespace Sys2Proof

/-- A byte. -/
abbrev Byte := BitVec 8

/-- A 64-bit scalar value. -/
abbrev Word := BitVec 64

/-- A scalar register number s0 to s63 (R73). -/
abbrev Reg := BitVec 6

end Sys2Proof
end

