-- ==== Sys2Proof/Syntax.lean ====
section
/-!
DEFINITION. Syntax.lean: the commands the block takes, one constructor per row of spec/opcode_table.json, and the data
they carry.
-/

namespace Sys2Proof

/-- A vector instruction as fetched for a thread group at a program counter (R115). VOP is the constructor. -/
structure VInstr where
  /-- logical core -/
  core : Nat
  /-- group slot, 0 to 7 -/
  group : Nat
  /-- program counter at which the group's ready threads execute it -/
  pc : Nat
  /-- DST -/
  dst : BitVec 8
  /-- SA -/
  sa : BitVec 8
  /-- SB -/
  sb : BitVec 8
  /-- SC -/
  sc : BitVec 8
  /-- PEN -/
  pen : Bool
  /-- PIDX -/
  pidx : BitVec 3
  /-- IMM20 -/
  imm : BitVec 20
  deriving DecidableEq, Repr

/-- The header of a message on the Abius link, without its opcode (R401). -/
structure AbHdr where
  /-- ORD marker (R402) -/
  ord : BitVec 2
  /-- POISON -/
  poison : Bool
  /-- TAG -/
  tag : BitVec 16
  /-- process identifier -/
  pasid : BitVec 20
  /-- address -/
  addr : BitVec 64
  deriving DecidableEq, Repr

/-- A Span frame (R347), with the port it arrived at. -/
structure SpanFrame where
  /-- port S0 to S3 -/
  port : Nat
  /-- TYPE -/
  typ : Nat
  /-- DST -/
  dst : Nat
  /-- SRC -/
  src : Nat
  /-- SEQ -/
  seq : Nat
  /-- TAG -/
  tag : Nat
  /-- OFFSET -/
  offset : Nat
  /-- payload -/
  payload : List Byte
  deriving DecidableEq, Repr

/-- A path of the object dictionary: the CAN FD port or the mailbox on the Abius link (R565). -/
inductive Path where
  | can | mailbox
  deriving DecidableEq, Repr

/-- A piece of background work (R518), with what the piece finds. -/
inductive BgWork where
  /-- invalidation of last-pour lines (R191) -/
  | lastPour
  /-- a lane of a lane group of an edge is replaced by a spare (R241) -/
  | laneSpare (edge group : Nat)
  /-- a lane group of an edge fails retraining (R241) -/
  | laneRetrain (edge group : Nat) (ok : Bool)
  /-- the first listed row is repaired; `spareLeft` says whether its bank has a spare row (R268) -/
  | rowRepair (spareLeft : Bool)
  /-- slots of the newest channel spare are copied (R270) -/
  | spareCopy (slots : Nat)
  /-- the latched telemetry samples are transferred (R591) -/
  | telemetry
  /-- a cellar line is scrubbed (R187) -/
  | scrubCellar (pos set : Nat)
  /-- an HBM block, by storage address, is scrubbed (R265) -/
  | scrubHbm (addr : Nat)
  /-- refresh management of a stack (R272) -/
  | refresh (stack : Nat)
  /-- a retired Span lane group is retrained (R344) -/
  | spanRetrain (port group : Nat) (clean : Bool)
  /-- an SAU runs its self-check (R300) -/
  | sauCheck (stack : Nat) (ok : Bool)
  /-- the slack of a compute die is measured, ps (R513) -/
  | ageing (die : Nat) (slack : Int)
  /-- the weakest core of a die is named for R515 -/
  | marginLimit (die core : Nat)
  /-- a failed collector instance restarts from flash (R475) -/
  | collectorRestart
  /-- a removed collector core is resynchronised (R474) -/
  | collectorResync (core : Nat)
  /-- carve-outs of a partition under reset are zeroed (R444) -/
  | carveZero (part bytes : Nat)
  /-- the armed injection is applied (R478) -/
  | inject
  deriving DecidableEq, Repr

/-- What bring-up observes as a row of R527 completes. Only the fields that the row uses matter. -/
structure BringObs where
  /-- ms since the assertion of `PWR_EN` -/
  ms : Nat := 0
  /-- image copies that failed verification (R546) -/
  badImages : Nat := 0
  /-- SVN and version of the image chosen; none when no copy verifies (R546) -/
  image : Option (Nat × Nat) := some (0, 0)
  /-- the PUF reconstructed (R550) -/
  pufOk : Bool := true
  /-- readable flash devices (R530) -/
  flash : List Nat := [0, 1]
  /-- sequence numbers of the factory and in-service sections of the newest valid record; none when no valid one (R530) -/
  record : Option (Nat × Nat) := some (0, 0)
  /-- a copy of the record was rewritten from the other (R530) -/
  rewritten : Bool := false
  /-- defects found: (die, 16 × plot index + core) of cores (R529) -/
  badCores : List (Nat × Nat) := []
  /-- which of them the record did not list (R531) -/
  newCores : List (Nat × Nat) := []
  /-- cask positions found bad (R529) -/
  badCasks : List Nat := []
  /-- routers found dead (R529) -/
  badRouters : List (Nat × Nat) := []
  /-- spare lanes taken, by (edge, group) (R533) -/
  badLanes : List (Nat × Nat × Nat) := []
  /-- compute dies whose controller failed, or none of whose edges trained, or whose firmware copy failed (R532, R535) -/
  badDies : List Nat := []
  /-- an I/O die failed (R532) -/
  badIo : Bool := false
  /-- the firmware image verified from one of the devices (R535) -/
  firmwareOk : Bool := true
  /-- stacks lost at bring-up (R538) -/
  badStacks : List Nat := []
  /-- channels that failed training or loopback, stack × 32 + channel (R275) -/
  badChannels : List Nat := []
  /-- stacks whose SAU failed its self-check (R300) -/
  badSaus : List Nat := []
  /-- the standby instance came up (R536) -/
  standbyOk : Bool := true
  /-- Span ports that trained (R345) -/
  ports : List Nat := []
  /-- lanes of the Abius link that trained: 0, 8 or 16 (R397) -/
  lanes : Nat := 0
  /-- modules sharing the companion (R225) -/
  modules : Nat := 1
  /-- `REFCLK_CORE` is present (R527) -/
  refclk : Bool := true
  /-- estimated fixed power P_FIX, W (R510) -/
  pfix : Nat := 0
  deriving DecidableEq, Repr

/-- An access through the debug port (R560). -/
inductive DebugReq where
  /-- the port's ID register -/
  | idRegister
  /-- the nonce -/
  | nonce
  /-- a read of a dictionary entry -/
  | readEntry (idx sub : Nat)
  /-- a read of the trace buffers -/
  | trace
  /-- halt a core -/
  | halt (core : Nat)
  /-- let a halted core run on -/
  | resume (core : Nat)
  /-- let a halted core execute one instruction -/
  | single (core : Nat)
  /-- read HBM bytes by device physical address -/
  | readMem (addr size : Nat)
  /-- write HBM bytes by device physical address -/
  | writeMem (addr : Nat) (data : List Byte)
  /-- read a byte of core-local memory -/
  | readLocal (core addr size : Nat)
  /-- write core-local memory -/
  | writeLocal (core addr : Nat) (data : List Byte)
  /-- read a scalar register -/
  | readReg (core : Nat) (r : Reg)
  /-- write a scalar register -/
  | writeReg (core : Nat) (r : Reg) (value : Word)
  deriving DecidableEq, Repr
/-- The commands of the block: one constructor per row of spec/opcode_table.json, with the row's operands. -/
inductive Instr where
  /-- REGISTER_WRITE (R6). A write to a register or dictionary entry that has no row of its own sets an RW field, ignores RO fields, and drops non-zero reserved bits. -/
  | registerWrite (idx : Nat) (sub : Nat) (value : Nat)
  /-- STICKY_CLEAR (R480). A write of 1 to a W1C sticky bit clears it, unless the condition it names still holds. -/
  | stickyClear (idx : Nat) (sub : Nat) (mask : Nat)
  /-- PLAN_LOAD (R421). A driver command reads and checks a plan image, places the weight area, lays the weight slice into HBM and the reserve, and activates the plan. -/
  | planLoad (q : Nat) (image : List Byte)
  /-- PLAN_UNLOAD (R11). A driver command unloads the active plan, and is accepted only with an empty sequence table. -/
  | planUnload (q : Nat)
  /-- ADD (R79). The control core writes the sum of two registers. -/
  | add (c : Nat) (rd : Reg) (rs1 : Reg) (rs2 : Reg)
  /-- SUB (R79). The control core writes the difference of two registers. -/
  | sub (c : Nat) (rd : Reg) (rs1 : Reg) (rs2 : Reg)
  /-- AND (R79). The control core writes the bitwise AND of two registers. -/
  | andr (c : Nat) (rd : Reg) (rs1 : Reg) (rs2 : Reg)
  /-- OR (R79). The control core writes the bitwise OR of two registers. -/
  | orr (c : Nat) (rd : Reg) (rs1 : Reg) (rs2 : Reg)
  /-- XOR (R79). The control core writes the bitwise XOR of two registers. -/
  | xorr (c : Nat) (rd : Reg) (rs1 : Reg) (rs2 : Reg)
  /-- SHL (R79). The control core shifts a register left by the low 6 bits of another. -/
  | shl (c : Nat) (rd : Reg) (rs1 : Reg) (rs2 : Reg)
  /-- SHR (R79). The control core shifts a register right logically. -/
  | shr (c : Nat) (rd : Reg) (rs1 : Reg) (rs2 : Reg)
  /-- SAR (R79). The control core shifts a register right arithmetically. -/
  | sar (c : Nat) (rd : Reg) (rs1 : Reg) (rs2 : Reg)
  /-- SLT (R79). The control core writes 1 if the first register is less than the second, signed. -/
  | slt (c : Nat) (rd : Reg) (rs1 : Reg) (rs2 : Reg)
  /-- SLTU (R79). The control core writes 1 if the first register is less than the second, unsigned. -/
  | sltu (c : Nat) (rd : Reg) (rs1 : Reg) (rs2 : Reg)
  /-- SEQ (R79). The control core writes 1 if two registers are equal. -/
  | seq (c : Nat) (rd : Reg) (rs1 : Reg) (rs2 : Reg)
  /-- MIN (R79). The control core writes the signed minimum of two registers. -/
  | minS (c : Nat) (rd : Reg) (rs1 : Reg) (rs2 : Reg)
  /-- MAX (R79). The control core writes the signed maximum of two registers. -/
  | maxS (c : Nat) (rd : Reg) (rs1 : Reg) (rs2 : Reg)
  /-- MINU (R79). The control core writes the unsigned minimum of two registers. -/
  | minu (c : Nat) (rd : Reg) (rs1 : Reg) (rs2 : Reg)
  /-- MAXU (R79). The control core writes the unsigned maximum of two registers. -/
  | maxu (c : Nat) (rd : Reg) (rs1 : Reg) (rs2 : Reg)
  /-- SEL (R79). The control core selects one of two registers by whether RD is non-zero. -/
  | sel (c : Nat) (rd : Reg) (rs1 : Reg) (rs2 : Reg)
  /-- MUL (R79). The control core writes the low 64 bits of a product. -/
  | mul (c : Nat) (rd : Reg) (rs1 : Reg) (rs2 : Reg)
  /-- MULH (R79). The control core writes the high 64 bits of a signed product. -/
  | mulh (c : Nat) (rd : Reg) (rs1 : Reg) (rs2 : Reg)
  /-- MULHU (R79). The control core writes the high 64 bits of an unsigned product. -/
  | mulhu (c : Nat) (rd : Reg) (rs1 : Reg) (rs2 : Reg)
  /-- DIV (R79). The control core writes a signed quotient, with the division-by-zero rule of R74. -/
  | div (c : Nat) (rd : Reg) (rs1 : Reg) (rs2 : Reg)
  /-- DIVU (R79). The control core writes an unsigned quotient. -/
  | divu (c : Nat) (rd : Reg) (rs1 : Reg) (rs2 : Reg)
  /-- REM (R79). The control core writes a signed remainder that takes the sign of the dividend. -/
  | rem (c : Nat) (rd : Reg) (rs1 : Reg) (rs2 : Reg)
  /-- REMU (R79). The control core writes an unsigned remainder. -/
  | remu (c : Nat) (rd : Reg) (rs1 : Reg) (rs2 : Reg)
  /-- SEXT8 (R79). The control core sign-extends a register from bit 7. -/
  | sext8 (c : Nat) (rd : Reg) (rs1 : Reg)
  /-- SEXT16 (R79). The control core sign-extends a register from bit 15. -/
  | sext16 (c : Nat) (rd : Reg) (rs1 : Reg)
  /-- SEXT32 (R79). The control core sign-extends a register from bit 31. -/
  | sext32 (c : Nat) (rd : Reg) (rs1 : Reg)
  /-- ZEXT32 (R79). The control core zero-extends a register from bit 31. -/
  | zext32 (c : Nat) (rd : Reg) (rs1 : Reg)
  /-- ADDI (R79). The control core adds a sign-extended 13-bit immediate. -/
  | addi (c : Nat) (rd : Reg) (rs1 : Reg) (imm : BitVec 13)
  /-- ANDI (R79). The control core ANDs a sign-extended immediate. -/
  | andi (c : Nat) (rd : Reg) (rs1 : Reg) (imm : BitVec 13)
  /-- ORI (R79). The control core ORs a sign-extended immediate. -/
  | ori (c : Nat) (rd : Reg) (rs1 : Reg) (imm : BitVec 13)
  /-- XORI (R79). The control core XORs a sign-extended immediate. -/
  | xori (c : Nat) (rd : Reg) (rs1 : Reg) (imm : BitVec 13)
  /-- SHLI (R79). The control core shifts left by an immediate amount. -/
  | shli (c : Nat) (rd : Reg) (rs1 : Reg) (imm : BitVec 13)
  /-- SHRI (R79). The control core shifts right logically by an immediate amount. -/
  | shri (c : Nat) (rd : Reg) (rs1 : Reg) (imm : BitVec 13)
  /-- SARI (R79). The control core shifts right arithmetically by an immediate amount. -/
  | sari (c : Nat) (rd : Reg) (rs1 : Reg) (imm : BitVec 13)
  /-- SLTI (R79). The control core compares a register with an immediate, signed. -/
  | slti (c : Nat) (rd : Reg) (rs1 : Reg) (imm : BitVec 13)
  /-- SLTIU (R79). The control core compares a register with a sign-extended immediate, unsigned. -/
  | sltiu (c : Nat) (rd : Reg) (rs1 : Reg) (imm : BitVec 13)
  /-- SEQI (R79). The control core writes 1 if a register equals an immediate. -/
  | seqi (c : Nat) (rd : Reg) (rs1 : Reg) (imm : BitVec 13)
  /-- LI (R80). The control core loads a sign-extended 32-bit immediate. -/
  | li (c : Nat) (rd : Reg) (imm : BitVec 32)
  /-- LIU (R80). The control core loads a zero-extended 32-bit immediate. -/
  | liu (c : Nat) (rd : Reg) (imm : BitVec 32)
  /-- LIH (R80). The control core replaces the high 32 bits of a register with an immediate. -/
  | lih (c : Nat) (rd : Reg) (imm : BitVec 32)
  /-- ADDLI (R80). The control core adds a sign-extended 32-bit immediate. -/
  | addli (c : Nat) (rd : Reg) (imm : BitVec 32)
  /-- JAL (R80). The control core links PC + 8 and jumps by a 32-bit instruction offset. -/
  | jal (c : Nat) (rd : Reg) (imm : BitVec 32)
  /-- BEQ (R80). The control core branches if two registers are equal. -/
  | beq (c : Nat) (rs1 : Reg) (rs2 : Reg) (off : BitVec 13)
  /-- BNE (R80). The control core branches if two registers differ. -/
  | bne (c : Nat) (rs1 : Reg) (rs2 : Reg) (off : BitVec 13)
  /-- BLT (R80). The control core branches if the first register is less than the second, signed. -/
  | blt (c : Nat) (rs1 : Reg) (rs2 : Reg) (off : BitVec 13)
  /-- BGE (R80). The control core branches if the first register is at least the second, signed. -/
  | bge (c : Nat) (rs1 : Reg) (rs2 : Reg) (off : BitVec 13)
  /-- BLTU (R80). The control core branches if the first register is less than the second, unsigned. -/
  | bltu (c : Nat) (rs1 : Reg) (rs2 : Reg) (off : BitVec 13)
  /-- BGEU (R80). The control core branches if the first register is at least the second, unsigned. -/
  | bgeu (c : Nat) (rs1 : Reg) (rs2 : Reg) (off : BitVec 13)
  /-- JR (R80). The control core links PC + 4 and jumps to a register plus an offset. -/
  | jr (c : Nat) (rd : Reg) (rs1 : Reg) (imm : BitVec 13)
  /-- LDL8 (R81). The control core loads 8 bits from core-local space. -/
  | ldl8 (c : Nat) (rd : Reg) (rs1 : Reg) (imm : BitVec 13)
  /-- LDL16 (R81). The control core loads 16 bits from core-local space. -/
  | ldl16 (c : Nat) (rd : Reg) (rs1 : Reg) (imm : BitVec 13)
  /-- LDL32 (R81). The control core loads 32 bits from core-local space. -/
  | ldl32 (c : Nat) (rd : Reg) (rs1 : Reg) (imm : BitVec 13)
  /-- LDL64 (R81). The control core loads 64 bits from core-local space or a core register. -/
  | ldl64 (c : Nat) (rd : Reg) (rs1 : Reg) (imm : BitVec 13)
  /-- STL8 (R81). The control core stores 8 bits to core-local space. -/
  | stl8 (c : Nat) (rs2 : Reg) (rs1 : Reg) (imm : BitVec 13)
  /-- STL16 (R81). The control core stores 16 bits to core-local space. -/
  | stl16 (c : Nat) (rs2 : Reg) (rs1 : Reg) (imm : BitVec 13)
  /-- STL32 (R81). The control core stores 32 bits to core-local space. -/
  | stl32 (c : Nat) (rs2 : Reg) (rs1 : Reg) (imm : BitVec 13)
  /-- STL64 (R81). The control core stores 64 bits to core-local space or a core register. -/
  | stl64 (c : Nat) (rs2 : Reg) (rs1 : Reg) (imm : BitVec 13)
  /-- LDG (R90). The control core issues a global load that may hit or allocate in the read cache. -/
  | ldg (c : Nat) (rd : Reg) (rs1 : Reg) (imm : BitVec 13)
  /-- LDGU (R81). The control core issues a global load that bypasses the read cache. -/
  | ldgu (c : Nat) (rd : Reg) (rs1 : Reg) (imm : BitVec 13)
  /-- STG (R90). The control core issues a global store with the GCLASS class, written through to the cellar. -/
  | stg (c : Nat) (rs2 : Reg) (rs1 : Reg) (imm : BitVec 13)
  /-- GLOBAL_LOAD_RESULT (R90). The data or old value of a control-core global load or atomic returns, fills the read cache for ldg, and lands in its register. -/
  | globalLoadResult (tag : Nat)
  /-- ICACHE_FILL (R102). An instruction-cache miss completes its class c3 cellar read and the fetch resumes. -/
  | icacheFill (c : Nat)
  /-- TIS (R52). The control core issues a 256-bit tile command to the press, stalling while four commands wait. -/
  | tis (c : Nat) (rs1 : Reg)
  /-- PRESS_COMMAND_START (R65). The press starts the next waiting command, applying INIT and checking the bank state. -/
  | pressCommandStart (c : Nat)
  /-- PRESS_READ_DONE (R69). A command's last operand byte is read and the read-done count increments. -/
  | pressReadDone (c : Nat)
  /-- PRESS_LAST_PRODUCT (R56). A command's last product is accumulated and, with FINISH, its bank becomes draining. -/
  | pressLastProduct (c : Nat)
  /-- PRESS_DRAIN_COMPLETE (R60). A drain takes a free queue slot, its entry becomes visible and its bank becomes invalid. -/
  | pressDrainComplete (c : Nat)
  /-- CPY (R93). The control core issues an asynchronous copy on a channel and raises its counter's issued count. -/
  | cpy (c : Nat) (rd : Reg) (rs1 : Reg)
  /-- DMA_REQUEST (R92). A DMA channel generates one request of at most 128 bytes into the trellis interface when limits allow. -/
  | dmaRequest (c : Nat) (ch : Nat)
  /-- DMA_RESPONSE (R96). A copy request returns, writing local bytes or confirming acceptance at the point of coherence, or raising a DMA fault. -/
  | dmaResponse (tag : Nat)
  /-- AWAIT (R98). The control core waits until an arrival counter reaches a target, or raises CC_NEVER. -/
  | awaitArr (c : Nat) (k : Nat) (rs1 : Reg) (imm : BitVec 13)
  /-- AWAIT_RETURN (R98). A waiting await returns once the arrived count reaches its target. -/
  | awaitReturn (c : Nat)
  /-- PWAIT (R99). The control core waits until the read-done count reaches a target, or raises CC_NEVER. -/
  | pwait (c : Nat) (rs1 : Reg) (imm : BitVec 13)
  /-- PWAIT_RETURN (R99). A waiting pwait returns once the read-done count reaches its target. -/
  | pwaitReturn (c : Nat)
  /-- RCINV (R91). The control core invalidates the whole read cache. -/
  | rcinv (c : Nat)
  /-- KEND (R104). The control core ends the kernel and stalls until copies, press and groups are done. -/
  | kend (c : Nat)
  /-- KEND_DONE (R104). The end-of-kernel conditions hold: DONE is set and the completion record is posted after package visibility. -/
  | kendDone (c : Nat)
  /-- KERNEL_START (R103). A work-list entry reaches a core, which resets its kernel state and starts the entry point. -/
  | kernelStart (c : Nat)
  /-- CC_WATCHDOG (R105). A kernel's watchdog limit expires before DONE and the kernel faults. -/
  | ccWatchdog (c : Nat)
  /-- VGO (R114). The control core launches thread groups into free slots. -/
  | vgo (c : Nat) (rd : Reg) (rs1 : Reg) (rs2 : Reg)
  /-- VJOIN (R112). The control core waits until the named group slots have exited. -/
  | vjoin (c : Nat) (rs1 : Reg)
  /-- VJOIN_RETURN (R135). A waiting vjoin returns once its groups have exited, with their stores visible. -/
  | vjoinReturn (c : Nat)
  /-- VBC (R127). The control core writes a broadcast entry. -/
  | vbc (c : Nat) (k : Nat) (rs1 : Reg)
  /-- SRD (R134). The control core reads and empties a summary slot, waiting while it is empty. -/
  | srd (c : Nat) (rd : Reg) (k : Nat)
  /-- SRD_RETURN (R135). A waiting srd returns once its summary slot fills. -/
  | srdReturn (c : Nat)
  /-- SSTAT (R112). The control core reads the summary full flags and occupied slots without waiting. -/
  | sstat (c : Nat) (rd : Reg)
  /-- FADD (R124). The vector engine adds FP32 operands per thread. -/
  | fadd (v : VInstr)
  /-- FSUB (R124). The vector engine subtracts FP32 operands per thread. -/
  | fsub (v : VInstr)
  /-- FMUL (R124). The vector engine multiplies FP32 operands per thread. -/
  | fmul (v : VInstr)
  /-- FFMA (R124). The vector engine computes a fused multiply-add rounded once. -/
  | ffma (v : VInstr)
  /-- FMIN (R121). The vector engine takes the FP32 minimum under the NaN rules. -/
  | fmin (v : VInstr)
  /-- FMAX (R121). The vector engine takes the FP32 maximum under the NaN rules. -/
  | fmax (v : VInstr)
  /-- FCMP (R121). The vector engine writes an FP32 comparison to a predicate. -/
  | fcmp (v : VInstr)
  /-- VEC_SEL (R124). The vector engine selects one of two operands by a predicate. -/
  | vecSel (v : VInstr)
  /-- FEXP2 (R122). The vector engine computes base-2 exponential within 1 ulp. -/
  | fexp2 (v : VInstr)
  /-- FRCP (R122). The vector engine computes a reciprocal within 1 ulp. -/
  | frcp (v : VInstr)
  /-- FRSQRT (R122). The vector engine computes a reciprocal square root within 1 ulp. -/
  | frsqrt (v : VInstr)
  /-- IADD (R124). The vector engine adds 32-bit integers. -/
  | iadd (v : VInstr)
  /-- ISUB (R124). The vector engine subtracts 32-bit integers. -/
  | isub (v : VInstr)
  /-- IMUL (R124). The vector engine multiplies 32-bit integers, keeping the low half. -/
  | imul (v : VInstr)
  /-- VEC_AND (R124). The vector engine computes a bitwise AND. -/
  | vecAnd (v : VInstr)
  /-- VEC_OR (R124). The vector engine computes a bitwise OR. -/
  | vecOr (v : VInstr)
  /-- VEC_XOR (R124). The vector engine computes a bitwise XOR. -/
  | vecXor (v : VInstr)
  /-- VEC_SHL (R124). The vector engine shifts left by b[4:0]. -/
  | vecShl (v : VInstr)
  /-- VEC_SHR (R124). The vector engine shifts right logically by b[4:0]. -/
  | vecShr (v : VInstr)
  /-- VEC_SAR (R124). The vector engine shifts right arithmetically by b[4:0]. -/
  | vecSar (v : VInstr)
  /-- IMIN (R124). The vector engine takes a signed integer minimum. -/
  | imin (v : VInstr)
  /-- IMAX (R124). The vector engine takes a signed integer maximum. -/
  | imax (v : VInstr)
  /-- ICMP (R124). The vector engine writes an integer comparison to a predicate. -/
  | icmp (v : VInstr)
  /-- CVT_F32_I32 (R123). The vector engine converts a 32-bit integer to FP32. -/
  | cvtF32I32 (v : VInstr)
  /-- CVT_I32_F32 (R123). The vector engine converts FP32 to a saturated 32-bit integer. -/
  | cvtI32F32 (v : VInstr)
  /-- CVT_BF16_F32 (R123). The vector engine converts FP32 to BF16. -/
  | cvtBf16F32 (v : VInstr)
  /-- CVT_F32_BF16 (R123). The vector engine converts BF16 to FP32 exactly. -/
  | cvtF32Bf16 (v : VInstr)
  /-- MXCVT (R126). The vector engine converts 32 FP32 values into one MX block and scale in local memory. -/
  | mxcvt (v : VInstr)
  /-- MXLD (R126). The vector engine loads an MX block and gives each thread its element as FP32. -/
  | mxld (v : VInstr)
  /-- SADD (R125). The vector engine quantises an FP32 term and adds it to a solera word. -/
  | sadd (v : VInstr)
  /-- SADDW (R124). The vector engine adds one solera word to another. -/
  | saddw (v : VInstr)
  /-- SCVT (R124). The vector engine converts a solera word to FP32 or BF16. -/
  | scvt (v : VInstr)
  /-- SCLR (R124). The vector engine clears a solera word and its flags. -/
  | sclr (v : VInstr)
  /-- VLD (R129). A thread loads 4 bytes from core-local memory. -/
  | vld (v : VInstr)
  /-- VST (R129). A thread stores 4 bytes to core-local memory. -/
  | vst (v : VInstr)
  /-- VGLD (R130). A thread issues a 4-byte global load, through or around the read cache. -/
  | vgld (v : VInstr)
  /-- VGLD_RETURN (R130). The data of a vector global load returns to its thread. -/
  | vgldReturn (tag : Nat)
  /-- VGST (R130). A thread issues a 4-byte global store with the launch class. -/
  | vgst (v : VInstr)
  /-- VECTOR_STORE_RESPONSE (R111). A vector store or atomic is answered, and a group whose threads have exited frees its slot. -/
  | vectorStoreResponse (tag : Nat)
  /-- VATOM (R140). Threads issue a global atomic, combined per address and sent to its home. -/
  | vatom (v : VInstr)
  /-- VATOM_RETURN (R141). The old values of a combined atomic return to their threads. -/
  | vatomReturn (tag : Nat)
  /-- VLATOM (R168). Threads perform a local atomic at the scratchpad port. -/
  | vlatom (v : VInstr)
  /-- VTLD (R132). Threads read values of the head finished-tile entry, waiting while the queue is empty. -/
  | vtld (v : VInstr)
  /-- VTHDR (R132). Threads read the header of the head finished-tile entry. -/
  | vthdr (v : VInstr)
  /-- VTREL (R132). An issue with an executing thread releases the head finished-tile entry. -/
  | vtrel (v : VInstr)
  /-- VBR (R117). Threads branch by IMM20 instructions, unconditionally or by predicate. -/
  | vbr (v : VInstr)
  /-- VBAR (R136). A thread waits at a barrier of its group. -/
  | vbar (v : VInstr)
  /-- VE_BARRIER (R138). A barrier instance not completed within the barrier watchdog limit kills the context. -/
  | veBarrier (c : Nat) (g : Nat) (bar : Nat)
  /-- VEXIT (R111). A thread exits and never runs again. -/
  | vexit (v : VInstr)
  /-- VSUM (R133). Threads combine a value and write it to a summary slot, waiting while the slot is full. -/
  | vsum (v : VInstr)
  /-- VAWAIT (R131). A thread waits until an arrival counter reaches its value, or raises VE_NEVER. -/
  | vawait (v : VInstr)
  /-- VAWAIT_RETURN (R131). A waiting vawait returns once the arrived count reaches its target. -/
  | vawaitReturn (c : Nat) (g : Nat)
  /-- VFENCE (R155). A thread executes a scoped fence. -/
  | vfence (v : VInstr)
  /-- FENCE (R154). The control core executes an acquire, release or full fence at a scope. -/
  | fence (c : Nat) (kind : Nat) (sc : Nat)
  /-- LDACQ (R157). The control core performs a load-acquire of 4 or 8 bytes. -/
  | ldacq (c : Nat) (rd : Reg) (rs1 : Reg) (w : Bool) (sc : Nat)
  /-- STREL (R156). The control core performs a store-release of 4 or 8 bytes. -/
  | strel (c : Nat) (rs2 : Reg) (rs1 : Reg) (w : Bool) (sc : Nat)
  /-- AADD_W (R165). The control core performs a 32-bit atomic add at the home. -/
  | aaddW (c : Nat) (rd : Reg) (rs1 : Reg) (rs2 : Reg) (sc : Nat) (ord : Nat)
  /-- AADD_D (R165). The control core performs a 64-bit atomic add. -/
  | aaddD (c : Nat) (rd : Reg) (rs1 : Reg) (rs2 : Reg) (sc : Nat) (ord : Nat)
  /-- AFADD_W (R165). The control core performs an FP32 atomic add. -/
  | afaddW (c : Nat) (rd : Reg) (rs1 : Reg) (rs2 : Reg) (sc : Nat) (ord : Nat)
  /-- AAND_D (R165). The control core performs a 64-bit atomic AND. -/
  | aandD (c : Nat) (rd : Reg) (rs1 : Reg) (rs2 : Reg) (sc : Nat) (ord : Nat)
  /-- AOR_D (R165). The control core performs a 64-bit atomic OR. -/
  | aorD (c : Nat) (rd : Reg) (rs1 : Reg) (rs2 : Reg) (sc : Nat) (ord : Nat)
  /-- AXOR_D (R165). The control core performs a 64-bit atomic XOR. -/
  | axorD (c : Nat) (rd : Reg) (rs1 : Reg) (rs2 : Reg) (sc : Nat) (ord : Nat)
  /-- ASMIN_D (R165). The control core performs an atomic signed minimum. -/
  | asminD (c : Nat) (rd : Reg) (rs1 : Reg) (rs2 : Reg) (sc : Nat) (ord : Nat)
  /-- ASMAX_D (R165). The control core performs an atomic signed maximum. -/
  | asmaxD (c : Nat) (rd : Reg) (rs1 : Reg) (rs2 : Reg) (sc : Nat) (ord : Nat)
  /-- AUMIN_D (R165). The control core performs an atomic unsigned minimum. -/
  | auminD (c : Nat) (rd : Reg) (rs1 : Reg) (rs2 : Reg) (sc : Nat) (ord : Nat)
  /-- AUMAX_D (R165). The control core performs an atomic unsigned maximum. -/
  | aumaxD (c : Nat) (rd : Reg) (rs1 : Reg) (rs2 : Reg) (sc : Nat) (ord : Nat)
  /-- AXCHG_W (R165). The control core performs a 32-bit atomic exchange. -/
  | axchgW (c : Nat) (rd : Reg) (rs1 : Reg) (rs2 : Reg) (sc : Nat) (ord : Nat)
  /-- AXCHG_D (R165). The control core performs a 64-bit atomic exchange. -/
  | axchgD (c : Nat) (rd : Reg) (rs1 : Reg) (rs2 : Reg) (sc : Nat) (ord : Nat)
  /-- ACAS_W (R165). The control core performs a 32-bit compare-and-swap. -/
  | acasW (c : Nat) (rd : Reg) (rs1 : Reg) (rs2 : Reg) (sc : Nat) (ord : Nat)
  /-- ACAS_D (R165). The control core performs a 64-bit compare-and-swap. -/
  | acasD (c : Nat) (rd : Reg) (rs1 : Reg) (rs2 : Reg) (sc : Nat) (ord : Nat)
  /-- CASK_READ (R194). A read reaches its home cask and is served on a hit, or leaves for the backing store on a miss. -/
  | caskRead (tag : Nat)
  /-- CASK_WRITE (R183). A write is performed at its home cask and forwarded, held tentative, or sent to the companion home by class. -/
  | caskWrite (tag : Nat)
  /-- CASK_ATOMIC (R167). An atomic is performed at its home in the location order and its old values return. -/
  | caskAtomic (tag : Nat)
  /-- BACKING_FILL (R184). Data for a cask miss returns from HBM or the companion and is allocated or passed through. -/
  | backingFill (tag : Nat)
  /-- BACKING_WRITE_ACK (R183). The backing store acknowledges a write and the cask responds to the sender. -/
  | backingWriteAck (tag : Nat)
  /-- COMMIT_LIST (R189). A cask receives the commit list and writes kept tentative lines through and marks the rest last-pour. -/
  | commitList (pos : Nat)
  /-- CASK_COMMIT_COMPLETE (R189). Once HBM has acknowledged every kept and non-draft write, the cask reports commit complete. -/
  | caskCommitComplete (pos : Nat)
  /-- RED_CONTRIBUTION_HOME (R192). A reduction contribution reaches its home, allocates or adds into a held line, and completes and delivers at LEAVES. -/
  | redContributionHome (tag : Nat)
  /-- THRASH_WINDOW (R196). A thrash window ends, its miss rate is computed, and CELLAR_THRASH is set after THRASH_RUN windows above threshold. -/
  | thrashWindow
  /-- RESERVE_RELAID (R198). The reserve has been re-laid from HBM with the new number of live casks. -/
  | reserveRelaid
  /-- UNFOLD (R201). At a step boundary the bring-up home table is restored, moved lines written back, the companion flushed and the reserve re-laid. -/
  | unfold
  /-- RD_SHARED (R214). A companion read for shared state is served by its module home. -/
  | rdShared (h : AbHdr)
  /-- RD_OWN (R214). A companion read for ownership is granted E after snooping if DS. -/
  | rdOwn (h : AbHdr)
  /-- RD_OWN_NO_DATA (R214). A companion upgrade of an S copy is granted E, with data if the line is DI. -/
  | rdOwnNoData (h : AbHdr)
  /-- RD_CUR (R214). A companion read without caching is answered CmpI with data. -/
  | rdCur (h : AbHdr)
  /-- WR_LINE (R214). A companion full-line write is performed at the module home. -/
  | wrLine (h : AbHdr) (data : List Byte)
  /-- WR_STASH (R226). A companion full-line write with a stash hint is performed as WrLine. -/
  | wrStash (h : AbHdr) (target : Nat) (data : List Byte)
  /-- WR_PART (R214). A companion partial write is performed at the module home. -/
  | wrPart (h : AbHdr) (mask : Nat) (data : List Byte)
  /-- ATOMIC (R214). A companion atomic is performed at the module home and Cmp returns the old value. -/
  | atomicReq (h : AbHdr) (op : Nat) (size : Nat) (operand : BitVec 64) (compare : BitVec 64)
  /-- EVICT_DIRTY (R214). The companion gives up an M copy with its data, and the home writes it and sends EvictAck. -/
  | evictDirty (h : AbHdr) (data : List Byte)
  /-- EVICT_CLEAN (R214). The companion gives up a clean copy and the home sends EvictAck. -/
  | evictClean (h : AbHdr)
  /-- SNP_RSP_I (R215). A snoop response without data arrives and the home completes or resumes the transaction. -/
  | snpRspI (h : AbHdr)
  /-- SNP_RSP_S (R214). A snoop response keeping S arrives and the home marks the line DS. -/
  | snpRspS (h : AbHdr)
  /-- SNP_RSP_I_DATA (R214). A snoop response with dirty data arrives and the home writes it into the line. -/
  | snpRspIData (h : AbHdr) (data : List Byte)
  /-- SNP_RSP_S_DATA (R214). A snoop response downgrading to S with data arrives and the home writes it. -/
  | snpRspSData (h : AbHdr) (data : List Byte)
  /-- SNP_RSP_I_WB_PEND (R216). The home learns an EvictDirty is on its way and keeps the transaction open for it. -/
  | snpRspIWbPend (h : AbHdr)
  /-- SNP_FLUSH_DONE (R223). The companion reports its flush done and the held requests for marked lines are released. -/
  | snpFlushDone (h : AbHdr)
  /-- CMP_ACK (R213). The companion acknowledges a grant and the home closes the transaction. -/
  | cmpAck (h : AbHdr)
  /-- SNOOP (R215). The companion home snoops the module's copy of a companion line and the module answers. -/
  | snoop (h : AbHdr) (shr : Bool)
  /-- CMP_S (R211). A grant in S for a module read of a companion line arrives and the cask sends CmpAck. -/
  | cmpS (h : AbHdr) (data : List Byte)
  /-- CMP_E (R211). A grant in E for a module request arrives. -/
  | cmpE (h : AbHdr) (data : List Byte)
  /-- CMP_I (R211). An uncached grant for a module read of a companion line arrives. -/
  | cmpI (h : AbHdr) (data : List Byte)
  /-- CMP (R205). The companion home performs a module write or atomic and the module responds to its sender. -/
  | cmp (h : AbHdr) (old : BitVec 64)
  /-- CMP_ERR (R211). The companion home refuses a module request. -/
  | cmpErr (h : AbHdr) (reason : Nat)
  /-- HOME_TIMEOUT (R219). A module home transaction waiting on the companion expires, the line is poisoned and the companion declared dead. -/
  | homeTimeout (line : Nat)
  /-- COH_HOME_TIMEOUT (R218). A module request to the companion home expires and the companion is declared dead. -/
  | cohHomeTimeout (tag : Nat)
  /-- COH_FLUSH_TIMEOUT (R224). SnpFlushDone does not arrive in time, marked lines are treated as DO and the companion is declared dead. -/
  | cohFlushTimeout
  /-- TRELLIS_PACKET (R236). A router receives a packet and routes it by its route table and phase. -/
  | trellisPacket (gx : Nat) (gy : Nat) (hdr : Nat)
  /-- RSEND (R243). The control core sends one leaf contribution per named line. -/
  | rsend (c : Nat) (rs1 : Reg)
  /-- RRECV (R243). The control core subscribes to result lines and raises its counter's issued count. -/
  | rrecv (c : Nat) (rd : Reg) (rs1 : Reg)
  /-- RSTAT (R243). The control core reads its rsend lines not yet accepted. -/
  | rstat (c : Nat) (rd : Reg)
  /-- RSEND_LINE_ACCEPT (R244). The plot router accepts one rsend line while it has RED credit, reading its local bytes. -/
  | rsendLineAccept (c : Nat)
  /-- RED_COMBINE (R246). A RED contribution at a plot or combining router is added into a line buffer and forwarded when the count is reached. -/
  | redCombine (tag : Nat)
  /-- RED_FLUSH (R246). A line buffer's flush limit expires and it is forwarded as one contribution. -/
  | redFlush (gx : Nat) (gy : Nat) (rid : Nat) (line : Nat)
  /-- RED_SUBSCRIPTION (R247). A subscription reaches the home and is served from a completed result or waits. -/
  | redSubscription (tag : Nat)
  /-- RED_RESULT_ARRIVAL (R244). A subscribed result line is written at the core's LADDR and the arrival counter rises. -/
  | redResultArrival (tag : Nat)
  /-- TREE_HEADER_READ (R247). The tree-header read at a home returns and the waiting completion and delivery proceed. -/
  | treeHeaderRead (rid : Nat) (line : Nat)
  /-- RED_WRITEBACK (R362). The Span engine writes the ring result to its held home line, which then serves its subscriptions. -/
  | redWriteback (rid : Nat) (line : Nat)
  /-- ROUTE_CHANGE (R237). New route tables are installed, ROUTE_EPOCH increments and end-to-end re-sends are scheduled. -/
  | routeChange
  /-- E2E_RESEND (R251). At 10, 20 or 30 µs after a route change an interface re-sends its unanswered packets. -/
  | e2eResend
  /-- TR_LOST (R251). A packet still unanswered 10 µs after its third re-send raises a fault. -/
  | trLost (tag : Nat)
  /-- TR_ROUTER_DEAD (R249). A router failing its checks is declared dead, routed around, and its cores and cask retired. -/
  | trRouterDead (gx : Nat) (gy : Nat)
  /-- D2D_CRC_FAIL (R241). A die-to-die frame fails its CRC and is replayed; repeated lane errors mark a lane for sparing. -/
  | d2dCrcFail (edge : Nat) (group : Nat) (bad : Bool)
  /-- DCLK_LOSS (R250). A compute die's forwarded clock is lost: edges fenced, flits discarded, requests held, the die taken out of service. -/
  | dclkLoss (die : Nat)
  /-- HBM_READ (R264). A read arrives at a channel port and is served, corrected, rebuilt or poisoned. -/
  | hbmRead (tag : Nat)
  /-- HBM_WRITE (R264). A write arrives at a channel port, is performed in DRAM, and its report leaves. -/
  | hbmWrite (tag : Nat)
  /-- PARITY_UPDATE (R262). A parity controller adds a scaled difference into its half-slot. -/
  | parityUpdate (tag : Nat)
  /-- HBM_FORCED (R272). A bank reaches its refresh postponement limit and the deferred work is issued inside the step. -/
  | hbmForced (stack : Nat)
  /-- HCLK_LOSS (R273). A stack detects loss of its host clock, precharges all banks and enters self-refresh. -/
  | hclkLoss (stack : Nat)
  /-- STACK_RESUME (R273). On the die controller's request a stack leaves self-refresh, retrains, passes loopback and returns to service. -/
  | stackResume (stack : Nat) (pass : Bool)
  /-- THERMAL_REPORT (R274). A stack reports its hottest die and its thermal level is entered or left. -/
  | thermalReport (stack : Nat) (temp : Int) (thresh : Int)
  /-- STACK_HOLD_EXPIRY (R274). An out-of-service stack not back within STACK_HOLD is lost and held accesses complete with poison. -/
  | stackHoldExpiry (stack : Nat)
  /-- LOOPBACK (R275). A service write runs a loopback mode on a stack taken out of service. -/
  | loopback (path : Path) (tid : Nat) (value : Nat) (fails : Nat)
  /-- ASEND (R283). The control core issues a stack attention request and raises its counter's issued count. -/
  | asend (c : Nat) (rd : Reg) (rs1 : Reg)
  /-- ASTAT (R282). The control core reads its SAU requests not yet arrived. -/
  | astat (c : Nat) (rd : Reg)
  /-- SAU_REQUEST (R287). A request arrives at an SAU port, is queued and starts in order. -/
  | sauRequest (tag : Nat)
  /-- SAU_BOUNDS_DONE (R293). Bounds of every entry are computed and the selected barrels are scanned. -/
  | sauBoundsDone (tag : Nat)
  /-- SAU_BARREL_FINISH (R300). A quad finishes a barrel's partial and its records leave the port. -/
  | sauBarrelFinish (tag : Nat) (j : Nat)
  /-- SAU_RESPONSE_ARRIVAL (R301). A request's last record is written and its arrival counter rises. -/
  | sauResponseArrival (tag : Nat)
  /-- COMMAND_FETCH (R420). The engine fetches the next command of a queue that has reserved completion room. -/
  | commandFetch (q : Nat) (entry : Nat)
  /-- SUBMIT (R307). A SUBMIT command requests admission of a new sequence in PREFILL. -/
  | submit (q : Nat)
  /-- ADMISSION (R309). A waiting SUBMIT is admitted once a slot and the partition limits and rack grant allow. -/
  | admission (q : Nat)
  /-- APPEND (R307). Input tokens are added to a DECODE or PARKED sequence, which becomes PREFILL. -/
  | append (q : Nat)
  /-- DRAFT (R322). A draft tree is supplied for a DECODE sequence at position P. -/
  | draft (q : Nat) (nodes : List Byte)
  /-- PARK (R307). A sequence becomes PARKED at the next commit point. -/
  | park (q : Nat)
  /-- SPILL (R337). A parked sequence's directory rows and barrels are copied to companion memory. -/
  | spill (q : Nat)
  /-- SPILL_DONE (R337). A spill copy completes, frames are freed and the sequence becomes SPILLED. -/
  | spillDone (slot : Nat)
  /-- RESUME (R307). A PARKED sequence returns to PREFILL or DECODE; a SPILLED one is copied in first. -/
  | resume (q : Nat)
  /-- RESUME_DONE (R337). A resume copy completes, the directory is rewritten and the state changes. -/
  | resumeDone (slot : Nat) (data : List Byte)
  /-- CANCEL (R307). A sequence leaves at the next commit point. -/
  | cancel (q : Nat)
  /-- EXPORT (R379). A sequence is copied to a new buddy, sealed and racked there. -/
  | exportSeq (q : Nat)
  /-- IMPORT (R380). A spare fetches a racked sequence from its buddy into a FREE slot. -/
  | importSeq (q : Nat)
  /-- GATHER (R315). The engine grants tokens to ready sequences in three passes and allocates barrel rows. -/
  | gather
  /-- BROADCAST (R328). After commit, finalisation and the quiet slot, the work list is multicast to every core and the step period is measured. -/
  | broadcast
  /-- COMPLETION_RECORD (R325). A kernel completion record reaches the engine, and the last of a step starts the commit. -/
  | completionRecord (c : Nat)
  /-- COMMIT_COMPLETE (R325). Every cask has reported; the engine updates entries and sends the table update to the replica. -/
  | commitComplete
  /-- COMMIT_POINT (R304). The replica acknowledges; seals are issued, records posted, leaving sequences freed and the next step finalised. -/
  | commitPoint (tokens : List (Nat × List Byte))
  /-- SEQ_TAKEOVER (R304). The replica on X1 takes over a stopped engine and retries the step in flight. -/
  | seqTakeover
  /-- BARREL_MOVE (R313). Barrels in spared quads or unreachable stacks are read, rebuilt, written to new frames, or imported from the buddy. -/
  | barrelMove (slot : Nat) (row : Nat) (k : Nat)
  /-- HELLO (R346). A HELLO frame is received and checked against the expected neighbour. -/
  | helloFrame (f : SpanFrame)
  /-- LINK (R349). A LINK frame delivers replay requests, group retirement and credits. -/
  | linkFrame (f : SpanFrame)
  /-- SPAN_CRC_FAIL (R349). A frame with a wrong CRC is discarded and replay requested. -/
  | spanCrcFail (port : Nat)
  /-- WRITE (R357). A remote write frame is performed at its homes in SEQ order, or refused outside the Span window. -/
  | spanWrite (f : SpanFrame)
  /-- SEAL (R358). A seal frame is performed after every earlier stream frame, acting as a release, or stores a rack record. -/
  | sealFrame (f : SpanFrame)
  /-- ACK (R350). An ACK covers stream frames, releasing them and acknowledging seals. -/
  | ackFrame (f : SpanFrame)
  /-- RED (R361). A RED frame of ring lines is held, added and forwarded, or discarded for a foreign step. -/
  | redFrame (f : SpanFrame)
  /-- RING_LINE (R361). A home passes a completed DELIVER 10 line to the Span engine, which enters it into the ring. -/
  | ringLine (rid : Nat) (line : Nat)
  /-- RACK (R375). A buddy stores mirrored KV bytes in its rack frames. -/
  | rackFrame (f : SpanFrame)
  /-- OPEN (R374). A buddy receives a rack open and grants, defers or refuses it. -/
  | rackOpen (f : SpanFrame)
  /-- GRANT (R374). An origin receives a rack grant result. -/
  | rackGrant (f : SpanFrame)
  /-- MAP (R374). A buddy receives the origin frames of a racked row. -/
  | rackMap (f : SpanFrame)
  /-- CLOSE (R377). A buddy frees a rack's frames and reservation. -/
  | rackClose (f : SpanFrame)
  /-- FETCH (R380). A buddy adopts a rack for a spare and streams its rows and record. -/
  | rackFetch (f : SpanFrame)
  /-- XFER (R380). Export or import data is written into frames, directory or entry. -/
  | xferFrame (f : SpanFrame)
  /-- FREQ (R369). A flooded FREQ frame updates a member's request or marks a throttled step void. -/
  | freqFrame (f : SpanFrame)
  /-- TIME (R370). A TIME frame yields offset and delay and the time base is slewed toward the grandmaster. -/
  | timeFrame (f : SpanFrame)
  /-- JOIN_DIGEST (R12). A neighbour's plan digest is compared with the module's own. -/
  | joinDigest (f : SpanFrame)
  /-- MEMBER_LOST (R365). A MEMBER_LOST frame is forwarded and the member enters the job hold. -/
  | memberLost (f : SpanFrame)
  /-- MEMBER_JOINED (R348). A MEMBER_JOINED frame is forwarded and acted on. -/
  | memberJoined (f : SpanFrame)
  /-- STEP (R367). Committed positions of racked sequences are received after a rejoin and POS lowered where higher. -/
  | stepFrame (f : SpanFrame)
  /-- HELLO_TIMER (R346). A port sends its periodic HELLO frame. -/
  | helloTimer (port : Nat)
  /-- LINK_IDLE_TIMER (R346). A port that has sent nothing for 10 µs sends a LINK frame. -/
  | linkIdleTimer (port : Nat)
  /-- PORT_SILENCE (R346). A port with no valid frame for 1 ms goes down. -/
  | portSilence (port : Nat)
  /-- STREAM_RESEND (R350). Every 100 µs a source re-sends stream frames not yet acknowledged. -/
  | streamResend (dst : Nat)
  /-- ACK_TIMER (R350). A destination sends an ACK after 16 frames or 2 µs. -/
  | ackTimer (src : Nat)
  /-- LANE_LOCK_LOSS (R344). A lane loses lock and its group is retired through LINK frames. -/
  | laneLockLoss (port : Nat) (group : Nat)
  /-- FEC_WINDOW (R344). A 1 s error window closes and a group above the error limits is retired. -/
  | fecWindow (port : Nat) (group : Nat) (symErr : Nat) (uncor : Nat)
  /-- PORT_ENABLE (R345). Bring-up enables a port, which trains, locks FEC and exchanges HELLO. -/
  | portEnable (port : Nat) (trained : Bool)
  /-- PORT_RETRY (R345). A port not in service by 340 ms retries every 1 s. -/
  | portRetry (port : Nat) (trained : Bool)
  /-- SPAN_REQUEST_SUBMIT (R355). A strel to word 3 of a Span request page submits a remote or seal write. -/
  | spanRequestSubmit (lc : Nat) (word3 : BitVec 64)
  /-- HELLO_TIMEOUT (R365). A job member's HELLO frames stop for 1 ms and it is declared lost. -/
  | helloTimeout (member : Nat)
  /-- JOB_HOLD_END (R367). With the job table committed and imports done, members end non-racked sequences and retry the step. -/
  | jobHoldEnd
  /-- TIME_TIMER (R370). Each port sends a TIME frame every 1 ms. -/
  | timeTimer (port : Nat)
  /-- TSYNC_EDGE (R372). A rising TSYNC edge latches the time base. -/
  | tsyncEdge
  /-- RACK_TIMEOUT (R378). A seal or open unanswered within RACK_TIMEOUT un-racks sequences or completes SUBMIT with SEQ_NO_BUDDY. -/
  | rackTimeout (buddy : Nat)
  /-- BOUND_NS (R393). Writing the bound clears the period, quad-load, tentative maxima and the counts. -/
  | boundNs (path : Path) (tid : Nat) (value : Nat)
  /-- FLIT (R398). An Abius flit arrives, credits and acknowledgements are taken, and a bad CRC requests replay. -/
  | flit (fseq : Nat) (ack : Bool) (nak : Bool) (ackseq : Nat) (credits : Nat) (crcOk : Bool)
  /-- FLIT_SILENCE (R403). No valid flit for 10 µs starts retraining. -/
  | flitSilence
  /-- LINK_UP (R403). Retraining completes on 16 or 8 lanes. -/
  | linkUp (lanes : Nat) (modules : Nat)
  /-- ABIUS_DOWN (R403). A link not up within 100 ms is down and the companion is declared dead. -/
  | abiusDown
  /-- REG_RD (R406). The companion reads a register-window location, answered with RegData or RegErr. -/
  | regRd (h : AbHdr)
  /-- REG_WR (R406). The companion writes a register-window location without a row of its own. -/
  | regWr (h : AbHdr) (value : BitVec 64)
  /-- CMD_TAIL (R416). A doorbell tail write makes new commands fetchable, or stops the queue on overrun. -/
  | cmdTail (h : AbHdr) (value : BitVec 64)
  /-- CPL_HEAD (R416). A completion head write frees consumed completion entries. -/
  | cplHead (h : AbHdr) (value : BitVec 64)
  /-- NOTICE_POST (R612). A pending notice is posted on queue 0 once its ring has a free entry. -/
  | noticePost
  /-- TABLE_READ_RETURN (R409). A page-table read returns and the walk continues, faults or completes. -/
  | tableReadReturn (tag : Nat)
  /-- FENCE_SIGNAL (R426). A signal raises a fence value, or is refused or ignored. -/
  | fenceSignal (q : Nat)
  /-- FENCE_WAIT (R427). A wait holds its queue until the fence reaches its target. -/
  | fenceWait (q : Nat)
  /-- CTX_CREATE (R413). A context is created and its slice-table entry written. -/
  | ctxCreate (q : Nat)
  /-- CTX_DESTROY (R414). A context is destroyed, or refused while busy. -/
  | ctxDestroy (q : Nat)
  /-- PROCESS_GONE (R430). A dead process's context is torn down, its fences abandoned and its objects released. -/
  | processGone (q : Nat)
  /-- QUEUE_CREATE (R415). A queue is created with its rings. -/
  | queueCreate (q : Nat)
  /-- QUEUE_DESTROY (R435). A queue is destroyed and never read again. -/
  | queueDestroy (q : Nat)
  /-- FENCE_CREATE (R425). A fence is created at value 0 with its owner as first holder. -/
  | fenceCreate (q : Nat)
  /-- FENCE_SHARE_GRANT (R425). A context is added as a fence holder. -/
  | fenceShareGrant (q : Nat)
  /-- FENCE_SHARE_RELEASE (R425). A context is removed as a fence holder, freeing the fence when unused. -/
  | fenceShareRelease (q : Nat)
  /-- MEM_REGISTER (R423). A memory object is registered with host count 1. -/
  | memRegister (q : Nat)
  /-- MEM_HOLD (R423). A memory object's host count rises by 1. -/
  | memHold (q : Nat)
  /-- MEM_RELEASE (R423). A memory object's host count falls by 1. -/
  | memRelease (q : Nat)
  /-- MEM_BIND (R423). A context is bound to a memory object. -/
  | memBind (q : Nat)
  /-- MEM_UNBIND (R423). A context's translations are invalidated and its binding removed. -/
  | memUnbind (q : Nat)
  /-- INVALIDATE (R412). Cached translations of a context range are removed and prior accesses performed. -/
  | invalidate (q : Nat)
  /-- QUERY_CAPABILITIES (R432). The capability table is written to companion memory. -/
  | queryCapabilities (q : Nat)
  /-- QUERY_UTILISATION (R432). A context's utilisation record is written to companion memory. -/
  | queryUtilisation (q : Nat)
  /-- QUERY_HANDLE (R432). A sequence entry is written to companion memory. -/
  | queryHandle (q : Nat)
  /-- QUERY_MODULE (R432). The driver's module figures are written to companion memory. -/
  | queryModule (q : Nat)
  /-- QUEUE0_CREATE (R436). Writing 1 creates queue 0 from its descriptor, or is aborted. -/
  | queue0Create (path : Path) (tid : Nat)
  /-- PART_CREATE (R439). Writing 1 to PART_COMMIT creates or changes the selected partition if its attributes agree. -/
  | partCreate (path : Path) (tid : Nat)
  /-- PART_DESTROY (R439). Writing 2 to PART_COMMIT destroys a partition holding no context. -/
  | partDestroy (path : Path) (tid : Nat)
  /-- PART_RESET (R444). A partition's contexts are torn down, its carve-out objects freed and its carve-outs zeroed. -/
  | partReset (path : Path) (tid : Nat) (part : Nat)
  /-- LOG (R446). Dirty logging of the partition's granules starts. -/
  | migLog (path : Path) (tid : Nat)
  /-- PASS (R449). A save pass writes chunk records for dirty granules. -/
  | migPass (path : Path) (tid : Nat)
  /-- FREEZE (R447). The partition is frozen at the next commit point. -/
  | migFreeze (path : Path) (tid : Nat)
  /-- FINAL (R449). The final pass writes remaining chunks and metadata records. -/
  | migFinal (path : Path) (tid : Nat)
  /-- MIG_PASS_END (R449). A pass finishes or stops full, writing its END record and result. -/
  | migPassEnd
  /-- THAW (R446). The freeze is lifted and logging stopped. -/
  | migThaw (path : Path) (tid : Nat)
  /-- RESTORE (R452). Migration records are applied to an empty target partition. -/
  | migRestore (path : Path) (tid : Nat) (records : List Byte) (binding : List Byte)
  /-- ABORT (R446). Logging stops, or a partial restore is discarded and the target reset. -/
  | migAbort (path : Path) (tid : Nat)
  /-- FAULT_REPORT (R462). The collector receives a fault report, records, merges or counts it, notifies and acts. -/
  | faultReport
  /-- REPORT_RESEND (R462). An unacknowledged report is re-sent after 1 ms. -/
  | reportResend
  /-- ESCALATION_TIMEOUT (R464). An unacknowledged record's timer expires, sets UNH and may escalate to the safe state. -/
  | escalationTimeout (num : Nat)
  /-- FAULT_ACK (R464). Writing a record number acknowledges it and stops its timer. -/
  | faultAck (path : Path) (tid : Nat) (num : Nat)
  /-- SAFE_ENTER (R468). Writing 1 enters the safe state as SAFE_REQUESTED. -/
  | safeEnter (path : Path) (tid : Nat)
  /-- SAFE_EXIT (R470). Writing 1 clears SAFE_REQUESTED as a cause. -/
  | safeExit (path : Path) (tid : Nat)
  /-- SAFE_STATE_EXIT (R470). With every cause cleared and the quiet period passed, the module leaves the safe state or latches. -/
  | safeStateExit
  /-- ADMIT_RESUME (R472). A dead companion is re-admitted with its queues restarted. -/
  | admitResume (path : Path) (tid : Nat)
  /-- ADMIT_FRESH (R472). A dead companion is re-admitted with tenant contexts torn down. -/
  | admitFresh (path : Path) (tid : Nat)
  /-- CLEAR_RECOVERY_COUNTER (R471). SERVICE_CLEAR bit 0 resets the recovery counter. -/
  | clearRecoveryCounter (path : Path) (tid : Nat)
  /-- CLEAR_REPLACEMENT_FLAG (R465). SERVICE_CLEAR bit 1 clears the replacement flag. -/
  | clearReplacementFlag (path : Path) (tid : Nat)
  /-- CLEAR_LATCHED (R471). SERVICE_CLEAR bit 2 ends the latched state and allows a service exit. -/
  | clearLatched (path : Path) (tid : Nat)
  /-- FC_VOTE (R474). A collector core is outvoted, removed on a second dissent, or control passes to the standby. -/
  | fcVote (core : Nat)
  /-- FC_LATCH (R476). No collector heartbeat for 1 ms latches FAULT_N low and stops the engine. -/
  | fcLatch
  /-- INJ_EXPIRY (R478). An injection not applied within 10 s expires. -/
  | injExpiry
  /-- WEIGHT_RELOAD (R488). The reread plan image is checked and the weight area and reserve rewritten. -/
  | weightReload (image : List Byte)
  /-- DIE_LOCKSTEP (R490). A die controller's lockstep pair disagrees and the die is taken out of service. -/
  | dieLockstep (die : Nat)
  /-- DIE_HUNG (R490). A die controller silent for 100 µs is taken out of service and reset. -/
  | dieHung (die : Nat)
  /-- DIE_READY (R490). A reset die is ready and rejoins by an unfold at the next boundary. -/
  | dieReady (die : Nat)
  /-- DIE_LOST (R490). A die not ready by DIE_RETURN is lost and the seven-die plan kept. -/
  | dieLost (die : Nat)
  /-- IO_DIE_LOST (R491). X0 or X1 is reset or lost and the module enters the safe state. -/
  | ioDieLost (die : Nat)
  /-- FEED_REVERSED (R494). A reversed feed keeps its ideal diode off. -/
  | feedReversed (feed : Nat)
  /-- FEED_LOST (R494). An open, low or supply-shorted feed is disconnected and the other carries the load. -/
  | feedLost (feed : Nat)
  /-- REGULATORS_OFF (R495). 3 ms after a power loss or PWR_EN deassertion the regulators switch off. -/
  | regulatorsOff
  /-- FEED_LOW (R494). A feed between 36 and 38 V is counted and the peak is not guaranteed. -/
  | feedLow (feed : Nat)
  /-- FEED_OVERVOLT (R494). A feed above 62 V for 5 µs opens its input switch. -/
  | feedOvervolt (feed : Nat)
  /-- FEED_RETURN (R494). A feed in range for 100 ms is reconnected or its switch recloses. -/
  | feedReturn (feed : Nat)
  /-- FEED_TRIPPED (R494). A module-side overcurrent trips a feed's fuse. -/
  | feedTripped (feed : Nat)
  /-- FUSE_RECLOSE (R494). A tripped fuse recloses once after 100 ms. -/
  | fuseReclose (feed : Nat)
  /-- REG_PHASE_LOST (R497). An intermediate-bus phase fails and is disconnected, with power limits by phases left. -/
  | regPhaseLost (bank : Nat) (phase : Nat)
  /-- TILE_PHASE_LOST (R497). A tile rail phase fails and the die may be throttled. -/
  | tilePhaseLost (die : Nat) (short : Bool)
  /-- REFCLK_HOLDOVER (R500). A PLL detects loss of REFCLK_CORE and holds frequency. -/
  | refclkHoldover
  /-- REFCLK_LOST (R500). A reference absent for 10 ms enters the safe state. -/
  | refclkLost
  /-- REFCLK_RETURN (R500). The reference returns and the PLLs relock. -/
  | refclkReturn
  /-- DROOP_STRETCH (R501). A droop detector trips and the die's clock is stretched. -/
  | droopStretch (die : Nat) (depth : Nat)
  /-- STRETCH_THROTTLE (R503). Sustained stretching throttles the die at level 1. -/
  | stretchThrottle (die : Nat)
  /-- CURRENT_THROTTLE (R503). Peak current or average power above its limit throttles all compute dies. -/
  | currentThrottle (peak : Bool)
  /-- TEMP_THROTTLE (R503). A die at DIE_T_THROTTLE is throttled. -/
  | tempThrottle (die : Nat) (temp : Int)
  /-- DIE_OVERTEMP (R503). A die at 110 °C enters the safe state. -/
  | dieOvertemp (die : Nat) (temp : Int)
  /-- THROTTLE_DECAY (R502). A throttle whose cause is absent falls one level per 100 µs. -/
  | throttleDecay (die : Nat)
  /-- THROTTLE_LONG (R506). A throttle held 20 ms lowers the member's request. -/
  | throttleLong (die : Nat)
  /-- POWER_CAP (R511). A new power cap is written and waits for a boundary or 2 ms. -/
  | powerCap (path : Path) (tid : Nat) (watts : Nat)
  /-- CAP_TAKEN (R511). The cap is taken, the request recomputed and flooded, and a lag throttle applied. -/
  | capTaken
  /-- QUIET_SLOT_END (R517). The quiet slot after a commit point ends. -/
  | quietSlotEnd
  /-- BACKGROUND_PIECE (R518). A piece of background work of at most 2 µs runs in a quiet slot. -/
  | backgroundPiece (work : BgWork)
  /-- TELEMETRY_TICK (R591). Each 1 ms tick latches a telemetry sample for transfer. -/
  | telemetryTick
  /-- BG_BEHIND (R519). Quiet time over an hour falls short of BG_NEED. -/
  | bgBehind
  /-- PWR_EN_ASSERT (R526). PWR_EN asserted with a feed in range latches ADDR and starts bring-up. -/
  | pwrEnAssert (straps : Nat)
  /-- PWR_EN_DEASSERT (R526). PWR_EN deasserted stops arithmetic clocks and switches off the regulators. -/
  | pwrEnDeassert
  /-- BRING_UP_ROW (R527). A bring-up row completes and the next row begins. -/
  | bringUpRow (obs : BringObs)
  /-- BRING_TIMEOUT (R527). A bring-up row exceeds its maximum. -/
  | bringTimeout
  /-- DIE_TEST (R538). A service write takes a die out of service for the stand-alone die test. -/
  | dieTest (path : Path) (tid : Nat) (die : Nat)
  /-- SVN_COMMIT (R547). MIN_SVN is set to the running SVN. -/
  | svnCommit (path : Path) (tid : Nat)
  /-- FW_IMAGE (R548). A new image is stored in the inactive slot of both devices. -/
  | fwImage (path : Path) (tid : Nat) (image : List Byte)
  /-- FW_UPDATE (R548). The stored image is verified and the standby restarts from it. -/
  | fwUpdate (path : Path) (tid : Nat)
  /-- FW_HANDOVER (R548). At the next step boundary the active instance hands over to the updated standby. -/
  | fwHandover (ok : Bool)
  /-- EPOCH_ADVANCE (R551). The key epoch advances with new helper data, keys and re-signed record. -/
  | epochAdvance (path : Path) (tid : Nat)
  /-- CERT_INSTALL (R552). A certificate chain for the current DIK is installed in slot 0. -/
  | certInstall (path : Path) (tid : Nat) (chain : List Byte)
  /-- GET_VERSION (R555). The responder answers VERSION and resets its path's connection state. -/
  | getVersion (path : Path) (req : List Byte)
  /-- GET_CAPABILITIES (R555). The responder answers CAPABILITIES. -/
  | getCapabilities (path : Path) (req : List Byte)
  /-- NEGOTIATE_ALGORITHMS (R555). The responder selects SM2 and SM3 or answers InvalidRequest. -/
  | negotiateAlgorithms (path : Path) (req : List Byte)
  /-- GET_DIGESTS (R555). The responder returns slot 0 digests. -/
  | getDigests (path : Path) (req : List Byte)
  /-- GET_CERTIFICATE (R555). The responder returns a portion of the slot 0 chain. -/
  | getCertificate (path : Path) (req : List Byte)
  /-- CHALLENGE (R555). The responder returns CHALLENGE_AUTH signed with DIK. -/
  | challenge (path : Path) (req : List Byte)
  /-- GET_MEASUREMENTS (R555). The responder returns measurement blocks, signed when asked. -/
  | getMeasurements (path : Path) (req : List Byte)
  /-- SPDM_UNSUPPORTED (R555). An unsupported SPDM request is answered UnsupportedRequest. -/
  | spdmUnsupported (path : Path) (req : List Byte)
  /-- TAMPER (R557). TAMPER_N low for 100 µs activates the tamper alarm source. -/
  | tamper
  /-- VOLTAGE_GLITCH (R557). A rail out of range for 50 ns activates an alarm source. -/
  | voltageGlitch
  /-- CLOCK_GLITCH (R557). A short clock period activates an alarm source. -/
  | clockGlitch
  /-- COLD (R557). A die below −20 °C activates an alarm source. -/
  | cold
  /-- ALARM_CLEAR (R559). With no source active, the alarm's safe-state cause clears. -/
  | alarmClear (path : Path) (tid : Nat)
  /-- DEBUG_TOKEN (R561). A debug token is verified and opens a debug level, zeroing for level 2, or is rejected. -/
  | debugToken (path : Path) (tid : Nat) (token : List Byte)
  /-- DTP_READ (R573). A DTP read returns the value expedited or starts an upload. -/
  | dtpRead (path : Path) (tid : Nat) (idx : Nat) (sub : Nat)
  /-- DTP_WRITE (R574). A DTP expedited write is checked and takes effect, or is staged for a group member. -/
  | dtpWrite (path : Path) (tid : Nat) (idx : Nat) (sub : Nat) (data : List Byte)
  /-- GROUP_COMMIT (R583). Writing 1 to a commit entry commits the group if it agrees, or aborts AB_DISAGREE. -/
  | groupCommit (path : Path) (tid : Nat) (idx : Nat) (sub : Nat)
  /-- GROUP_DISCARD (R583). Writing 0 to a commit entry discards staged values and ends the claim. -/
  | groupDiscard (path : Path) (tid : Nat) (idx : Nat) (sub : Nat)
  /-- STAGING_TIMEOUT (R583). A group untouched for 60 s loses its staged values and claim. -/
  | stagingTimeout (idx : Nat) (sub : Nat)
  /-- DTP_WRITE_INIT (R573). A segmented write begins and READY is returned. -/
  | dtpWriteInit (path : Path) (tid : Nat) (idx : Nat) (sub : Nat) (total : Nat)
  /-- DTP_READ_COMMITTED (R583). The committed value of an entry is returned. -/
  | dtpReadCommitted (path : Path) (tid : Nat) (idx : Nat) (sub : Nat)
  /-- DTP_INFO (R572). The type, access, levels and size of an entry are returned. -/
  | dtpInfo (path : Path) (tid : Nat) (idx : Nat) (sub : Nat)
  /-- DTP_SEGMENT (R573). A client write segment is received, acknowledged or completes the write. -/
  | dtpSegment (path : Path) (seq : Nat) (data : List Byte)
  /-- DTP_ACK (R573). A client acknowledgement releases further upload segments. -/
  | dtpAck (path : Path) (seq : Nat)
  /-- DTP_ABORT (R573). A client abort ends the open transfer. -/
  | dtpAbort (path : Path) (tid : Nat) (code : Nat)
  /-- DTP_TRANSFER_TIMEOUT (R573). A transfer idle for 1 s is aborted. -/
  | dtpTransferTimeout (path : Path)
  /-- DTP_LEVEL (R567). A path drops to a lower access level. -/
  | dtpLevel (path : Path) (tid : Nat) (level : Nat)
  /-- LEVEL_GRANT (R568). A grant token raises a path to the manager or service level. -/
  | levelGrant (path : Path) (tid : Nat) (token : List Byte)
  /-- PATH_IDLE_TIMEOUT (R567). A path idle for 600 s falls to its opening level. -/
  | pathIdleTimeout (path : Path)
  /-- HEARTBEAT (R577). The module sends its CAN FD heartbeat. -/
  | heartbeat
  /-- DTP_BUS_OFF (R578). Bus-off or its recovery resets the CAN FD path. -/
  | dtpBusOff (recovered : Bool)
  /-- DTP_ADDR_CLASH (R578). A frame with this module's identifiers from another node silences the CAN FD path. -/
  | dtpAddrClash
  /-- EVICT_ACK (R213). The companion home's EvictAck for an eviction sent by the module as caching agent of a companion line arrives, and the module may request that line again. -/
  | evictAck (h : AbHdr)
  /-- CC_ILLEGAL (R76). The control core meets an instruction whose OP or FN names no defined instruction and raises a context fault. -/
  | ccIllegal (c : Nat)
  /-- VE_ILLEGAL (R124). The vector engine meets a VOP that is not listed and raises a context fault. -/
  | veIllegal (v : VInstr)
  /-- FRAME_FORWARD (R354). A routed Span frame whose destination is another module is forwarded to the next port within 150 ns, or discarded after too many visits. -/
  | frameForward (f : SpanFrame) (visits : Nat)
  /-- RESERVED_FRAME_TYPE (R348). A Span frame with a reserved TYPE code is discarded and counted as refused. -/
  | reservedFrameType (f : SpanFrame)
  /-- AB_CMD (R572). A DTP message with an unknown CMD, or a non-zero byte 5, is aborted with AB_CMD. -/
  | abCmd (path : Path) (tid : Nat) (cmd : Nat) (byte5 : Nat)
  /-- DEBUG_ACCESS (R560). An access through the debug port is served or refused according to the debug level open. -/
  | debugAccess (acc : DebugReq)
  /-- ALARM_SOURCE_INACTIVE (R557). The condition of alarm source 0 to 3 ceases, and the source stops being active. -/
  | alarmSourceInactive (source : Nat)
  /-- CAN_ERROR_FRAME (R593). A CAN FD error frame is seen on the bus, counted as DTP_CAN_ERROR and reflected in the error-passive state. -/
  | canErrorFrame (passive : Bool)
  /-- FLASH_WRITE_COMPLETE (R570). A write of an entry or group kept in flash completes in both devices, and its DONE or abort is sent. -/
  | flashWriteComplete (okA : Bool) (okB : Bool)
  /-- REQUEST_RETURN (R506). The throttle's cause has been absent for 1 s, and the member's request returns to its other terms. -/
  | requestReturn
  deriving DecidableEq, Repr

end Sys2Proof
end

