-- ==== Sys2Proof/Decode.lean ====
section
/-!
DEFINITION. Decode.lean: the instruction words of the control core (R75 to R81, R112, R154, R165, R243, R282) and of the vector
engine (R115, R124), and the words of the table: no row of spec/opcode_table.json gives bits, so no table word spells a command.
The decoders are marked noncomputable only because Lean's compiler builds no value of a type with as many constructors as
`Instr`; the kernel evaluates them.
-/

namespace Sys2Proof

/-- The command that a word spells by the table's bits: no row gives bits. -/
def decodeTableWord (_nbits _w : Nat) : Option Instr := none

/-! ### The control core (R75 to R81) -/

/-- OP, bits [31:25]. -/
def wordOp (w : BitVec 32) : Nat := (w.extractLsb' 25 7).toNat
/-- Bits [24:19]: RD of the R, I and L formats, RS2 of S, RS1 of B. -/
def wordA (w : BitVec 32) : Reg := w.extractLsb' 19 6
/-- Bits [18:13]: RS1 of the R, I and S formats, RS2 of B, FN of L. -/
def wordB (w : BitVec 32) : Reg := w.extractLsb' 13 6
/-- Bits [12:7]: RS2 of the R format. -/
def wordC (w : BitVec 32) : Reg := w.extractLsb' 7 6
/-- Bits [6:0]: FN of the R format. -/
def wordFn (w : BitVec 32) : Nat := (w.extractLsb' 0 7).toNat
/-- Bits [12:0]: IMM13 or OFF13. -/
def wordImm (w : BitVec 32) : BitVec 13 := w.extractLsb' 0 13

/-- Bytes of the instruction that begins with a word: 8 in the L format, else 4 (R75, R76). -/
def scalarBytes (w : BitVec 32) : Nat := if 0x10 ≤ wordOp w ∧ wordOp w ≤ 0x17 then 8 else 4

/-- The instructions of OP 0x00 by FN (R79). -/
noncomputable def decodeArith (c : Nat) (w : BitVec 32) : Instr :=
  let rd := wordA w
  let a := wordB w
  let b := wordC w
  match wordFn w with
  | 0x00 => .add c rd a b
  | 0x01 => .sub c rd a b
  | 0x02 => .andr c rd a b
  | 0x03 => .orr c rd a b
  | 0x04 => .xorr c rd a b
  | 0x05 => .shl c rd a b
  | 0x06 => .shr c rd a b
  | 0x07 => .sar c rd a b
  | 0x08 => .slt c rd a b
  | 0x09 => .sltu c rd a b
  | 0x0A => .seq c rd a b
  | 0x0B => .minS c rd a b
  | 0x0C => .maxS c rd a b
  | 0x0D => .minu c rd a b
  | 0x0E => .maxu c rd a b
  | 0x0F => .sel c rd a b
  | 0x10 => .mul c rd a b
  | 0x11 => .mulh c rd a b
  | 0x12 => .mulhu c rd a b
  | 0x14 => .div c rd a b
  | 0x15 => .divu c rd a b
  | 0x16 => .rem c rd a b
  | 0x17 => .remu c rd a b
  | 0x18 => .sext8 c rd a
  | 0x19 => .sext16 c rd a
  | 0x1A => .sext32 c rd a
  | 0x1B => .zext32 c rd a
  | _ => .ccIllegal c

/-- The L format of OP 0x10 by FN, which is bits [18:13]; `x` is the second word (R80). -/
noncomputable def decodeLong (c : Nat) (w x : BitVec 32) : Instr :=
  match (wordB w).toNat with
  | 0 => .li c (wordA w) x
  | 1 => .liu c (wordA w) x
  | 2 => .lih c (wordA w) x
  | 3 => .addli c (wordA w) x
  | _ => .ccIllegal c

/-- The atomics of class 0x30–0x37: FN[6:4] is the scope, FN[3:2] the ordering, FN[1:0] the operation (R165). -/
noncomputable def decodeAtomic (c : Nat) (w : BitVec 32) : Instr :=
  let rd := wordA w
  let a := wordB w
  let b := wordC w
  let sc := wordFn w / 16
  let ord := wordFn w / 4 % 4
  match wordOp w, wordFn w % 4 with
  | 0x30, 0 => .aaddW c rd a b sc ord
  | 0x30, 1 => .aaddD c rd a b sc ord
  | 0x30, 2 => .afaddW c rd a b sc ord
  | 0x31, 0 => .aandD c rd a b sc ord
  | 0x31, 1 => .aorD c rd a b sc ord
  | 0x31, 2 => .axorD c rd a b sc ord
  | 0x32, 0 => .asminD c rd a b sc ord
  | 0x32, 1 => .asmaxD c rd a b sc ord
  | 0x32, 2 => .auminD c rd a b sc ord
  | 0x32, 3 => .aumaxD c rd a b sc ord
  | 0x33, 0 => .axchgW c rd a b sc ord
  | 0x33, 1 => .axchgD c rd a b sc ord
  | 0x33, 2 => .acasW c rd a b sc ord
  | 0x33, 3 => .acasD c rd a b sc ord
  | _, _ => .ccIllegal c

/-- The instruction of the control core of core `c` that a word spells, with the word that follows it; a word whose OP and FN
name no instruction raises `CC_ILLEGAL`. Reserved fields are ignored (R5, R75 to R81, R112, R154, R165, R243, R282). -/
noncomputable def decodeScalar (c : Nat) (w x : BitVec 32) : Instr :=
  let rd := wordA w
  let a := wordB w
  let imm := wordImm w
  match wordOp w with
  | 0x00 => decodeArith c w
  | 0x02 => .addi c rd a imm
  | 0x03 => .andi c rd a imm
  | 0x04 => .ori c rd a imm
  | 0x05 => .xori c rd a imm
  | 0x06 => .shli c rd a imm
  | 0x07 => .shri c rd a imm
  | 0x08 => .sari c rd a imm
  | 0x09 => .slti c rd a imm
  | 0x0A => .sltiu c rd a imm
  | 0x0B => .seqi c rd a imm
  | 0x10 => decodeLong c w x
  | 0x11 => if wordB w = 0 then .jal c rd x else .ccIllegal c
  | 0x18 => .beq c rd a imm
  | 0x19 => .bne c rd a imm
  | 0x1A => .blt c rd a imm
  | 0x1B => .bge c rd a imm
  | 0x1C => .bltu c rd a imm
  | 0x1D => .bgeu c rd a imm
  | 0x1E => .jr c rd a imm
  | 0x20 => .ldl8 c rd a imm
  | 0x21 => .ldl16 c rd a imm
  | 0x22 => .ldl32 c rd a imm
  | 0x23 => .ldl64 c rd a imm
  | 0x24 => .stl8 c rd a imm
  | 0x25 => .stl16 c rd a imm
  | 0x26 => .stl32 c rd a imm
  | 0x27 => .stl64 c rd a imm
  | 0x28 => .ldg c rd a imm
  | 0x29 => .ldgu c rd a imm
  | 0x2A => .stg c rd a imm
  | 0x30 => decodeAtomic c w
  | 0x31 => decodeAtomic c w
  | 0x32 => decodeAtomic c w
  | 0x33 => decodeAtomic c w
  | 0x38 => .fence c (imm.toNat / 8 % 4) (imm.toNat % 8)
  | 0x39 => .ldacq c rd a (imm.getLsbD 3) (imm.toNat % 8)
  | 0x3A => .strel c rd a (imm.getLsbD 3) (imm.toNat % 8)
  | 0x40 => .vgo c rd a (wordC w)
  | 0x41 => .vjoin c a
  | 0x42 => .vbc c (rd.toNat % 32) a
  | 0x43 => .srd c rd (imm.toNat % 16)
  | 0x44 => .sstat c rd
  | 0x50 => .rsend c a
  | 0x51 => .rrecv c rd a
  | 0x52 => .rstat c rd
  | 0x60 => .asend c rd a
  | 0x61 => .astat c rd
  | 0x70 => .tis c a
  | 0x71 => .cpy c rd a
  | 0x72 => .awaitArr c (rd.toNat % 16) a imm
  | 0x73 => .pwait c a imm
  | 0x74 => .rcinv c
  | 0x75 => .kend c
  | _ => .ccIllegal c

/-! ### The vector engine (R115, R124) -/

/-- The fields of a vector instruction word that the ready threads of a group at a program counter execute (R115). -/
def vectorFields (core group pc : Nat) (w : BitVec 64) : VInstr :=
  { core := core, group := group, pc := pc, dst := w.extractLsb' 48 8, sa := w.extractLsb' 40 8, sb := w.extractLsb' 32 8
    sc := w.extractLsb' 24 8, pen := w.getLsbD 23, pidx := w.extractLsb' 20 3, imm := w.extractLsb' 0 20 }

/-- The vector instruction that a word spells; a VOP that names none raises `VE_ILLEGAL` (R124). -/
noncomputable def decodeVector (core group pc : Nat) (w : BitVec 64) : Instr :=
  let v := vectorFields core group pc w
  match (w.extractLsb' 56 8).toNat with
  | 0x01 => .fadd v
  | 0x02 => .fsub v
  | 0x03 => .fmul v
  | 0x04 => .ffma v
  | 0x05 => .fmin v
  | 0x06 => .fmax v
  | 0x07 => .fcmp v
  | 0x08 => .vecSel v
  | 0x09 => .fexp2 v
  | 0x0A => .frcp v
  | 0x0B => .frsqrt v
  | 0x10 => .iadd v
  | 0x11 => .isub v
  | 0x12 => .imul v
  | 0x13 => .vecAnd v
  | 0x14 => .vecOr v
  | 0x15 => .vecXor v
  | 0x16 => .vecShl v
  | 0x17 => .vecShr v
  | 0x18 => .vecSar v
  | 0x19 => .imin v
  | 0x1A => .imax v
  | 0x1B => .icmp v
  | 0x20 => .cvtF32I32 v
  | 0x21 => .cvtI32F32 v
  | 0x22 => .cvtBf16F32 v
  | 0x23 => .cvtF32Bf16 v
  | 0x24 => .mxcvt v
  | 0x25 => .mxld v
  | 0x28 => .sadd v
  | 0x29 => .saddw v
  | 0x2A => .scvt v
  | 0x2B => .sclr v
  | 0x30 => .vld v
  | 0x31 => .vst v
  | 0x32 => .vgld v
  | 0x33 => .vgst v
  | 0x34 => .vatom v
  | 0x35 => .vlatom v
  | 0x38 => .vtld v
  | 0x39 => .vthdr v
  | 0x3A => .vtrel v
  | 0x40 => .vbr v
  | 0x41 => .vbar v
  | 0x42 => .vexit v
  | 0x43 => .vsum v
  | 0x44 => .vawait v
  | 0x45 => .vfence v
  | _ => .veIllegal v

end Sys2Proof
end

