-- ==== Sys2Proof/Machine/Maps.lean ====
section
/-!
DEFINITION. Machine/Maps.lean: sparse maps keyed by numbers, bytes and words in little-endian order (R4), and memory as
a list of cells in one canonical form.
-/

namespace Sys2Proof.Machine

/-- The entry of key `k`, if the map lists one. -/
def find? {α : Type} : List (Nat × α) → Nat → Option α
  | [], _ => none
  | (a, v) :: r, k => if a = k then some v else find? r k

/-- The entry of key `k`, or `d`. -/
def get {α : Type} (m : List (Nat × α)) (k : Nat) (d : α) : α := (find? m k).getD d

/-- Enter `v` under `k`, keeping rising keys. -/
def put {α : Type} : List (Nat × α) → Nat → α → List (Nat × α)
  | [], k, v => [(k, v)]
  | (a, w) :: r, k, v =>
    if k < a then (k, v) :: (a, w) :: r
    else if k = a then (k, v) :: r
    else (a, w) :: put r k v

/-- Remove every entry of `k`. -/
def drop {α : Type} (m : List (Nat × α)) (k : Nat) : List (Nat × α) := m.filter fun x => x.1 != k

/-- Put `f` of the entry of `k`, which is `d` when unlisted, in its place. -/
def upd {α : Type} (m : List (Nat × α)) (k : Nat) (d : α) (f : α → α) : List (Nat × α) := put m k (f (get m k d))

/-- The list with element `i` replaced. -/
def setAt {α : Type} (l : List α) (i : Nat) (v : α) : List α := l.set i v

/-- The entry of key `k` in a map to numbers, 0 when unlisted. -/
def cnt (m : List (Nat × Nat)) (k : Nat) : Nat := get m k 0

/-- One byte of a memory; an unlisted address reads 0 (assumption 4). -/
def Mem.read (m : List (Nat × BitVec 8)) (a : Nat) : BitVec 8 := get m a 0

/-- Write one byte; a zero byte is not listed. -/
def Mem.write (m : List (Nat × BitVec 8)) (a : Nat) (b : BitVec 8) : List (Nat × BitVec 8) :=
  if b = 0 then drop m a else put m a b

/-- `n` bytes from address `a` on. -/
def Mem.readN (m : List (Nat × BitVec 8)) (a : Nat) : Nat → List (BitVec 8)
  | 0 => []
  | n + 1 => Mem.read m a :: Mem.readN m (a + 1) n

/-- Write bytes from address `a` on, the first at the lowest address. -/
def Mem.writeN (m : List (Nat × BitVec 8)) (a : Nat) : List (BitVec 8) → List (Nat × BitVec 8)
  | [] => m
  | b :: r => Mem.writeN (Mem.write m a b) (a + 1) r

/-- The canonical form: addresses strictly rising, no zero byte listed. -/
abbrev Mem.wf (m : List (Nat × BitVec 8)) : Prop := m.Pairwise (fun x y => x.1 < y.1) ∧ ∀ x ∈ m, x.2 ≠ 0

/-- The number a little-endian byte string holds (R4). -/
def leNat : List (BitVec 8) → Nat
  | [] => 0
  | b :: r => b.toNat + 256 * leNat r

/-- The `n`-byte little-endian string of a number (R4). -/
def leBytes (v : Nat) : Nat → List (BitVec 8)
  | 0 => []
  | n + 1 => BitVec.ofNat 8 v :: leBytes (v / 256) n

/-- Bits [hi:lo] of a number. -/
def bits (v hi lo : Nat) : Nat := v / 2 ^ lo % 2 ^ (hi + 1 - lo)

/-- Bit `i` of a number. -/
def bit (v i : Nat) : Bool := v.testBit i

/-- 1 or 0. -/
def b2n (b : Bool) : Nat := if b then 1 else 0

/-- `n` bytes of a byte string from offset `o`, short strings read as zero. -/
def slice (d : List (BitVec 8)) (o n : Nat) : List (BitVec 8) :=
  let r := (d.drop o).take n
  r ++ List.replicate (n - r.length) 0

/-- The little-endian number in `n` bytes of a byte string from offset `o`. -/
def num8 (d : List (BitVec 8)) (o n : Nat) : Nat := leNat (slice d o n)

/-- A byte string with the bytes `p` laid over it from offset `o`. -/
def patch (d : List (BitVec 8)) (o : Nat) (p : List (BitVec 8)) : List (BitVec 8) :=
  d.take o ++ p ++ d.drop (o + p.length)

/-- Bytes of `new` where the mask has a 1, of `old` elsewhere; `i` numbers the first byte. -/
def maskBytes (mask : Nat) : Nat → List (BitVec 8) → List (BitVec 8) → List (BitVec 8)
  | i, o :: os, n :: ns => (if mask.testBit i then n else o) :: maskBytes mask (i + 1) os ns
  | _, os, _ => os

/-- A value sign-extended from `n` bits. -/
def sextN (v n : Nat) : Int := if v.testBit (n - 1) then (v % 2 ^ n : Nat) - (2 ^ n : Nat) else ((v % 2 ^ n : Nat) : Int)

/-- The sum of a list. -/
def sumN (l : List Nat) : Nat := l.foldl (· + ·) 0

/-- A list without repeats, first occurrences kept. -/
def dedup (l : List Nat) : List Nat := l.foldl (fun r x => if r.contains x then r else r ++ [x]) []

/-- A set kept as a list: `x` added if absent. -/
def addTo (l : List Nat) (x : Nat) : List Nat := if l.contains x then l else l ++ [x]

end Sys2Proof.Machine
end

