-- ==== Sys2Proof/Machine/Digest.lean ====
section
/-!
DEFINITION. Machine/Digest.lean: the SM3 digest, of which the spec uses the result only (GB/T 32905; assumption 20).
-/

namespace Sys2Proof.Machine

/-- The permutation P0. -/
def sm3P0 (x : BitVec 32) : BitVec 32 := x ^^^ x.rotateLeft 9 ^^^ x.rotateLeft 17
/-- The permutation P1. -/
def sm3P1 (x : BitVec 32) : BitVec 32 := x ^^^ x.rotateLeft 15 ^^^ x.rotateLeft 23

/-- The next word of the message expansion from the earlier ones, newest first. -/
def sm3Next (w : List (BitVec 32)) : BitVec 32 :=
  sm3P1 (w.getD 15 0 ^^^ w.getD 8 0 ^^^ (w.getD 2 0).rotateLeft 15) ^^^ (w.getD 12 0).rotateLeft 7 ^^^ w.getD 5 0

/-- `n` more words of the expansion. -/
def sm3Expand : Nat → List (BitVec 32) → List (BitVec 32)
  | 0, w => w
  | n + 1, w => sm3Expand n (sm3Next w :: w)

/-- The eight working registers. -/
structure Sm3Regs where
  a : BitVec 32
  b : BitVec 32
  c : BitVec 32
  d : BitVec 32
  e : BitVec 32
  f : BitVec 32
  g : BitVec 32
  h : BitVec 32
  deriving DecidableEq, Repr

/-- One round with number `j`, word `w` and derived word `w'`. -/
def sm3Round (r : Sm3Regs) (j : Nat) (w w' : BitVec 32) : Sm3Regs :=
  let t : BitVec 32 := if j < 16 then 0x79CC4519 else 0x7A879D8A
  let ff := if j < 16 then r.a ^^^ r.b ^^^ r.c else (r.a &&& r.b) ||| (r.a &&& r.c) ||| (r.b &&& r.c)
  let gg := if j < 16 then r.e ^^^ r.f ^^^ r.g else (r.e &&& r.f) ||| (~~~r.e &&& r.g)
  let ss1 := (r.a.rotateLeft 12 + r.e + t.rotateLeft (j % 32)).rotateLeft 7
  let ss2 := ss1 ^^^ r.a.rotateLeft 12
  let tt1 := ff + r.d + ss2 + w'
  let tt2 := gg + r.h + ss1 + w
  { a := tt1, b := r.a, c := r.b.rotateLeft 9, d := r.c, e := sm3P0 tt2, f := r.e, g := r.f.rotateLeft 19, h := r.g }

/-- The rounds over a list of expanded words: the word and the one four places on give each round. -/
def sm3Rounds (r : Sm3Regs) (j : Nat) : List (BitVec 32) → Sm3Regs
  | w :: v :: x :: y :: z :: t => sm3Rounds (sm3Round r j w (w ^^^ z)) (j + 1) (v :: x :: y :: z :: t)
  | _ => r

/-- Four bytes as a big-endian word. -/
def be32 (b : List (BitVec 8)) : BitVec 32 := BitVec.ofNat 32 (leNat b.reverse)

/-- `n` words from the front of a block. -/
def sm3Words : Nat → List (BitVec 8) → List (BitVec 32)
  | 0, _ => []
  | n + 1, b => be32 (b.take 4) :: sm3Words n (b.drop 4)

/-- The compression of one 64-byte block. -/
def sm3Block (v : Sm3Regs) (b : List (BitVec 8)) : Sm3Regs :=
  let r := sm3Rounds v 0 (sm3Expand 52 (sm3Words 16 b).reverse).reverse
  { a := v.a ^^^ r.a, b := v.b ^^^ r.b, c := v.c ^^^ r.c, d := v.d ^^^ r.d, e := v.e ^^^ r.e, f := v.f ^^^ r.f
    g := v.g ^^^ r.g, h := v.h ^^^ r.h }

/-- The initial value. -/
def sm3Init : Sm3Regs :=
  { a := 0x7380166F, b := 0x4914B2B9, c := 0x172442D7, d := 0xDA8A0600, e := 0xA96F30BC, f := 0x163138AA, g := 0xE38DEE4D
    h := 0xB0FB0E4E }

/-- The blocks of a padded message, `n` of them. -/
def sm3Blocks : Nat → Sm3Regs → List (BitVec 8) → Sm3Regs
  | 0, v, _ => v
  | n + 1, v, b => sm3Blocks n (sm3Block v (b.take 64)) (b.drop 64)

/-- A message with its padding: a one bit, zeros, and the length in bits in 8 big-endian bytes. -/
def sm3Pad (m : List (BitVec 8)) : List (BitVec 8) :=
  m ++ [0x80] ++ List.replicate ((119 - m.length % 64) % 64) 0 ++ (leBytes (8 * m.length) 8).reverse

/-- The SM3 digest of a byte string, 32 bytes. -/
def sm3 (m : List (BitVec 8)) : List (BitVec 8) :=
  let p := sm3Pad m
  let r := sm3Blocks (p.length / 64) sm3Init p
  [r.a, r.b, r.c, r.d, r.e, r.f, r.g, r.h].flatMap fun w => (leBytes w.toNat 4).reverse

end Sys2Proof.Machine
end

