-- ==== Sys2Proof/Config.lean ====
section
/-!
DEFINITION. Config.lean: what the spec leaves open. Every constant is opaque: it has no body, so no statement can rest
on a value of it. A constant that is applied to the draw counter of State (`freeCtr`) gives a fresh value at each draw.
-/

namespace Sys2Proof.Config

/-- A value that the spec leaves open, one per draw (assumption 2). -/
opaque free : Nat → BitVec 64

/-- An open string of bytes, one per draw: a signature, a nonce, helper data or trace bytes (assumption 2). -/
opaque freeBytes : Nat → List (BitVec 8)

/-- Which of the values of a byte an access sees or leaves where writes race with it: draw, byte; 0 is the byte as it stands
(R69, R101; assumption 2). -/
opaque pick : Nat → Nat → Nat

/-- Flits beyond one packet of five that a link's credits for a class and a virtual channel cover (R233; assumption 96). -/
opaque linkCredits : Nat

/-- Contributions beyond the first that a plot router's RED credit covers (R244; assumption 96). -/
opaque redCredits : Nat

/-- 64-byte units, beyond those of one longest frame, that a Span port's credits for a class cover as it enters service (R351;
assumption 104). -/
opaque spanCredits : Nat → Nat

/-- 16-byte units of message space, beyond those of one longest message, that the Abius credits of a class cover as the link
comes up (R210, R399; assumption 105). -/
opaque abCredits : Nat → Nat

/-- Whether the rack record of a sequence in PREFILL tells that its LASTTOK is yet to be fed: the spec names no field for it
(R307, R376; assumption 106). -/
opaque feedsLast : List (BitVec 8) → Bool

/-- The PORT number, less 17, of each engine of the I/O dies at its router (R232; assumption 100). -/
opaque enginePort : Nat → Nat

/-- The corrections that a stack's own on-die code reports, one number per report (R265; assumption 103). -/
opaque onDie : Nat → Nat

/-- The ns by which the time base has advanced at the n-th reading of it (assumption 3). -/
opaque elapsed : Nat → Nat

/-- The fixed functions of R122 on the operand's bits; only a result within 1 ulp is used (assumption 12). -/
opaque exp2 : BitVec 32 → BitVec 32

/-- As `exp2`, for the reciprocal (R122). -/
opaque rcp : BitVec 32 → BitVec 32

/-- As `exp2`, for the reciprocal square root (R122). -/
opaque rsqrt : BitVec 32 → BitVec 32

/-- Whether an SM2 signature (third) by a public key (first) over a message (second) verifies (R546, GB/T 32918). -/
opaque sm2Verify : List (BitVec 8) → List (BitVec 8) → List (BitVec 8) → Bool

/-- The fields of an image, whose layout the spec leaves open: the header's SM3 digest, SVN, version, signer's public key, the
bytes that the signature covers, the signature, and the bytes that the digest covers (R546). -/
opaque imageFields : List (BitVec 8) → List (BitVec 8) × Nat × Nat × List (BitVec 8) × List (BitVec 8) × List (BitVec 8) × List (BitVec 8)

/-- The public key of the device identity of a key epoch (R550). -/
opaque identityKey : Nat → List (BitVec 8)

/-- A signature made with the identity key of a key epoch over a message (R550, R555). -/
opaque identitySign : Nat → List (BitVec 8) → List (BitVec 8)

/-- The public key of the leaf certificate of a chain (R552). -/
opaque leafKey : List (BitVec 8) → List (BitVec 8)

/-- The manufacturer's root digest in the boot ROM (R546). -/
opaque rootDigest : List (BitVec 8)

/-- The manufacturer's debug digest in the boot ROM (R546). -/
opaque debugDigest : List (BitVec 8)

/-- What a byte of a stack holds after an array march test: draw, storage address (R275; assumption 18). -/
opaque march : Nat → Nat → BitVec 8

/-- The mode ceiling in open mode as the measured slacks allow it, MHz (R508). -/
opaque openCeiling : List (Nat × Int) → Nat

/-- The measured slack of a physical core, ps: draw, die, core (R513). -/
opaque coreSlack : Nat → Nat → Nat → Int

/-- The module serial of the factory section of the vintage record (R561, R588). -/
opaque serial : List (BitVec 8)

/-- SM3 of the PUF fingerprint F (R550, R588). -/
opaque fingerprint : List (BitVec 8)

/-- The maximum length of a DOMAIN entry for which the spec states none, by its key (R569). -/
opaque domainMax : Nat → Nat

end Sys2Proof.Config
end

