-- ==== Sys2Proof/Machine/Numbers.lean ====
section
/-!
DEFINITION. Machine/Numbers.lean: the number formats, conversions and the solera word of chapter 02. Every value is
handled exactly, as a signed magnitude times a power of two, and rounded once.
-/

namespace Sys2Proof.Machine

/-- A number as the formats of R24 hold it: NaN, an infinity, or a signed magnitude m × 2^e (m = 0 is a signed zero). -/
inductive FV where
  | nan
  | inf (neg : Bool)
  | fin (neg : Bool) (m : Nat) (e : Int)
  deriving DecidableEq, Repr

/-- A binary format: mantissa bits, exponent of its smallest subnormal, largest finite code and total bits without the
sign (R25, R30). -/
structure Fmt where
  mbits : Nat
  emin : Int
  maxCode : Nat
  width : Nat
  deriving DecidableEq, Repr

/-- FP32 (R30). -/
def Fmt.f32 : Fmt := ⟨23, -149, 0x7F7FFFFF, 31⟩
/-- BF16 (R30). -/
def Fmt.bf16 : Fmt := ⟨7, -133, 0x7F7F, 15⟩
/-- E4M3 (R25). -/
def Fmt.e4m3 : Fmt := ⟨3, -9, 0x7E, 7⟩
/-- E5M2 (R25). -/
def Fmt.e5m2 : Fmt := ⟨2, -16, 0x7B, 7⟩
/-- E3M2 (R25). -/
def Fmt.e3m2 : Fmt := ⟨2, -4, 0x1F, 5⟩
/-- E2M3 (R25). -/
def Fmt.e2m3 : Fmt := ⟨3, -3, 0x1F, 5⟩
/-- E2M1 (R25). -/
def Fmt.e2m1 : Fmt := ⟨1, -1, 0x7, 3⟩

/-- v / 2^k to the nearest integer, ties to even (R30). -/
def rneShift (v k : Nat) : Nat :=
  let q := v / 2 ^ k
  let r := v % 2 ^ k
  if k = 0 then v
  else if 2 ^ (k - 1) < r then q + 1
  else if r = 2 ^ (k - 1) then q + q % 2
  else q

/-- The exponent of the last place of m × 2^e in a format: its precision, but not below the smallest subnormal. -/
def Fmt.lsb (f : Fmt) (m : Nat) (e : Int) : Int := max (e + (Nat.log2 m : Int) - (f.mbits : Int)) f.emin

/-- The code, without sign, of m × 2^e rounded once with ties to even; a code above `maxCode` is an overflow. -/
def Fmt.round (f : Fmt) (m : Nat) (e : Int) : Nat :=
  if m = 0 then 0
  else
    let q := f.lsb m e
    let mant := if q ≤ e then m * 2 ^ (e - q).toNat else rneShift m (q - e).toNat
    (q - f.emin).toNat * 2 ^ f.mbits + mant

/-- Whether m × 2^e lies between two codes: non-zero bits stand below the last place. -/
def Fmt.between (f : Fmt) (m : Nat) (e : Int) : Bool :=
  m != 0 && decide (e < f.lsb m e) && m % 2 ^ (f.lsb m e - e).toNat != 0

/-- Whether rounding m × 2^e is inexact: it discards a non-zero amount, or overflows (R30, R61). -/
def Fmt.inexact (f : Fmt) (m : Nat) (e : Int) : Bool := f.between m e || decide (f.maxCode < f.round m e)

/-- The largest code, without sign, whose value is not above m × 2^e. -/
def Fmt.down (f : Fmt) (m : Nat) (e : Int) : Nat :=
  if m = 0 then 0
  else
    let q := f.lsb m e
    (q - f.emin).toNat * 2 ^ f.mbits + (if q ≤ e then m * 2 ^ (e - q).toNat else m / 2 ^ (q - e).toNat)

/-- The magnitude of a finite code without sign: mantissa and exponent (R25). -/
def Fmt.mag (f : Fmt) (code : Nat) : Nat × Int :=
  let ex := code / 2 ^ f.mbits
  let mt := code % 2 ^ f.mbits
  if ex = 0 then (mt, f.emin) else (2 ^ f.mbits + mt, f.emin + (ex : Int) - 1)

/-- An IEEE value (FP32 or BF16) from its code (R30): the code after `maxCode` is infinity, later ones NaN. -/
def Fmt.decode (f : Fmt) (v : Nat) : FV :=
  let neg := v.testBit f.width
  let c := v % 2 ^ f.width
  if c ≤ f.maxCode then .fin neg (f.mag c).1 (f.mag c).2
  else if c = f.maxCode + 1 then .inf neg
  else .nan

/-- The code of a value in an IEEE format, rounded once, NaN canonical (R30, R31). -/
def Fmt.encode (f : Fmt) (v : FV) : Nat :=
  match v with
  | .nan => f.maxCode + 1 + 2 ^ (f.mbits - 1)
  | .inf neg => b2n neg * 2 ^ f.width + f.maxCode + 1
  | .fin neg m e => b2n neg * 2 ^ f.width + min (f.round m e) (f.maxCode + 1)

/-- An FP32 value. -/
def FV.of32 (b : BitVec 32) : FV := Fmt.f32.decode b.toNat
/-- A BF16 value. -/
def FV.of16 (b : BitVec 16) : FV := Fmt.bf16.decode b.toNat
/-- Rounded to FP32 (R30, R31). -/
def FV.to32 (v : FV) : BitVec 32 := BitVec.ofNat 32 (Fmt.f32.encode v)
/-- Rounded to BF16 (R42). -/
def FV.to16 (v : FV) : BitVec 16 := BitVec.ofNat 16 (Fmt.bf16.encode v)

/-- A signed magnitude as an integer. -/
def sgn (neg : Bool) (m : Nat) : Int := if neg then -(m : Int) else m

/-- The value of an integer times a power of two; zero takes the sign given. -/
def FV.ofInt (zneg : Bool) (i : Int) (e : Int) : FV :=
  if i = 0 then .fin zneg 0 0 else .fin (decide (i < 0)) i.natAbs e

/-- The negation of a value. -/
def FV.neg : FV → FV
  | .nan => .nan
  | .inf n => .inf !n
  | .fin n m e => .fin (!n) m e

/-- The exact sum (R30): infinities of both signs give NaN, an exact zero of unlike signs is +0. -/
def FV.add : FV → FV → FV
  | .nan, _ => .nan
  | _, .nan => .nan
  | .inf a, .inf b => if a = b then .inf a else .nan
  | .inf a, _ => .inf a
  | _, .inf b => .inf b
  | .fin na ma ea, .fin nb mb eb =>
    let e := min ea eb
    FV.ofInt (na && nb) (sgn na ma * 2 ^ (ea - e).toNat + sgn nb mb * 2 ^ (eb - e).toNat) e

/-- The exact product (R30). -/
def FV.mul : FV → FV → FV
  | .nan, _ => .nan
  | _, .nan => .nan
  | .inf a, .inf b => .inf (a != b)
  | .inf a, .fin b m _ => if m = 0 then .nan else .inf (a != b)
  | .fin a m _, .inf b => if m = 0 then .nan else .inf (a != b)
  | .fin na ma ea, .fin nb mb eb => .fin (na != nb) (ma * mb) (ea + eb)

/-- FP32 addition, rounded once (R30). -/
def f32add (a b : BitVec 32) : BitVec 32 := ((FV.of32 a).add (FV.of32 b)).to32
/-- FP32 subtraction (R30). -/
def f32sub (a b : BitVec 32) : BitVec 32 := ((FV.of32 a).add (FV.of32 b).neg).to32
/-- FP32 multiplication (R30). -/
def f32mul (a b : BitVec 32) : BitVec 32 := ((FV.of32 a).mul (FV.of32 b)).to32
/-- FP32 a × b + c, rounded once (R124). -/
def f32fma (a b c : BitVec 32) : BitVec 32 := (((FV.of32 a).mul (FV.of32 b)).add (FV.of32 c)).to32

/-- Whether an FP32 code is a NaN. -/
def isNaN32 (a : BitVec 32) : Bool := decide (0x7F800000 < a.toNat % 2 ^ 31)
/-- The FP32 order with −0 below +0 (R121). -/
def ordKey (a : BitVec 32) : Int := if a.msb then -((a.toNat % 2 ^ 31 : Nat) : Int) - 1 else (a.toNat : Int)
/-- The FP32 order with −0 equal to +0 (R121). -/
def cmpKey (a : BitVec 32) : Int := sgn a.msb (a.toNat % 2 ^ 31)

/-- `fmin` (R121). -/
def f32min (a b : BitVec 32) : BitVec 32 :=
  if isNaN32 a && isNaN32 b then 0x7FC00000 else if isNaN32 a then b else if isNaN32 b then a
  else if ordKey b < ordKey a then b else a
/-- `fmax` (R121). -/
def f32max (a b : BitVec 32) : BitVec 32 :=
  if isNaN32 a && isNaN32 b then 0x7FC00000 else if isNaN32 a then b else if isNaN32 b then a
  else if ordKey a < ordKey b then b else a

/-- m / d × 2^e as a magnitude with a sticky last bit, precise to more than 32 bits. -/
def ratio (n d : Nat) (e : Int) : Nat × Int :=
  let k := Nat.log2 d + 34
  (2 * (n * 2 ^ k / d) + b2n (n * 2 ^ k % d != 0), e - k - 1)

/-- 1/x for a finite non-zero magnitude. -/
def rcpOf (m : Nat) (e : Int) : Nat × Int := ratio 1 m (-e)

/-- 1/√x for a finite positive x, with a sticky last bit. -/
def rsqrtOf (m : Nat) (e : Int) : Nat × Int :=
  let odd := e % 2 = 1
  let m2 := if odd then 2 * m else m
  let e2 := if odd then e - 1 else e
  let k := Nat.log2 m2 + 34
  let s := Nat.sqrt (2 ^ (2 * k) / m2)
  (2 * s + b2n (s * s * m2 != 2 ^ (2 * k)), -e2 / 2 - k - 1)

/-- The product of 2^(2^−i) over the set bits of an `n`-bit fraction, scaled by 2^80; `c` is the current factor. -/
def exp2Frac : Nat → Nat → Nat → Nat → Nat
  | 0, _, _, p => p
  | n + 1, f, c, p =>
    let c' := Nat.sqrt (c * 2 ^ 80)
    exp2Frac n f c' (if f.testBit n then p * c' / 2 ^ 80 else p)

/-- 2^x for a finite x, to more than 60 bits; beyond ±512 a value of the same code. -/
def exp2Of (neg : Bool) (m : Nat) (e : Int) : Nat × Int :=
  if m = 0 then (1, 0)
  else if decide (9 ≤ e + (Nat.log2 m : Int)) then (1, if neg then -512 else 512)
  else
    let v : Int := if 0 ≤ e then sgn neg m * 2 ^ (e.toNat + 64) else
      (if 64 ≤ -e then sgn neg m / 2 ^ (-e - 64).toNat else sgn neg m * 2 ^ (64 + e).toNat)
    (exp2Frac 64 (v % 2 ^ 64).toNat (2 ^ 81) (2 ^ 80), v / 2 ^ 64 - 80)

/-- Whether an FP32 code lies within 1 ulp of the exact value ±x: it is one of the two codes around it, or, where the
value is itself a code, that code or a neighbour of it (R122). -/
def nearUlp (neg : Bool) (x : Nat × Int) (cand : BitVec 32) : Bool :=
  let lo := min (Fmt.f32.down x.1 x.2) (Fmt.f32.maxCode + 1)
  let c := cand.toNat % 2 ^ 31
  cand.msb == neg && decide (c ≤ lo + 1 ∧ c ≤ Fmt.f32.maxCode + 1)
    && decide (lo ≤ c + b2n (!Fmt.f32.between x.1 x.2 && decide (lo ≤ Fmt.f32.maxCode)))

/-- The result of a fixed function whose exact value is ±x: the open value where it lies within 1 ulp, else the nearest
code (R122; assumption 12). -/
def fixedFn (neg : Bool) (x : Nat × Int) (cand : BitVec 32) : BitVec 32 :=
  if nearUlp neg x cand then cand else (FV.fin neg x.1 x.2).to32

/-- `fexp2` (R122). -/
def f32exp2 (a : BitVec 32) : BitVec 32 :=
  match FV.of32 a with
  | .nan => 0x7FC00000
  | .inf neg => if neg then 0 else 0x7F800000
  | .fin neg m e => fixedFn false (exp2Of neg m e) (Config.exp2 a)

/-- `frcp` (R122). -/
def f32rcp (a : BitVec 32) : BitVec 32 :=
  match FV.of32 a with
  | .nan => 0x7FC00000
  | .inf neg => if neg then 0x80000000 else 0
  | .fin neg m e => if m = 0 then (if neg then 0xFF800000 else 0x7F800000) else fixedFn neg (rcpOf m e) (Config.rcp a)

/-- `frsqrt` (R122); +infinity gives +0, the exact value. -/
def f32rsqrt (a : BitVec 32) : BitVec 32 :=
  match FV.of32 a with
  | .nan => 0x7FC00000
  | .inf neg => if neg then 0x7FC00000 else 0
  | .fin neg m e =>
    if m = 0 then (if neg then 0xFF800000 else 0x7F800000)
    else if neg then 0x7FC00000 else fixedFn false (rsqrtOf m e) (Config.rsqrt a)

/-- The integer nearest to a finite value, ties to even. -/
def nearestInt (neg : Bool) (m : Nat) (e : Int) : Int :=
  if 0 ≤ e then sgn neg m * 2 ^ e.toNat else sgn neg (rneShift m (-e).toNat)

/-- The integer part of a finite value. -/
def truncInt (neg : Bool) (m : Nat) (e : Int) : Int :=
  if 0 ≤ e then sgn neg m * 2 ^ e.toNat else sgn neg (m / 2 ^ (-e).toNat)

/-- `cvt.i32.f32`, saturating, NaN to 0 (R123). -/
def f32toInt (trunc : Bool) (a : BitVec 32) : BitVec 32 :=
  match FV.of32 a with
  | .nan => 0
  | .inf neg => if neg then 0x80000000 else 0x7FFFFFFF
  | .fin neg m e =>
    let i := if trunc then truncInt neg m e else nearestInt neg m e
    BitVec.ofInt 32 (max (-2147483648) (min 2147483647 i))

/-- `cvt.f32.i32` (R123). -/
def intToF32 (a : BitVec 32) : BitVec 32 := (FV.ofInt false a.toInt 0).to32

/-! ### The solera word (R32 to R39) -/

/-- A solera word (R32). -/
abbrev Solera := BitVec 192

/-- The word of a VALUE and its flags; the reserved field is zero. -/
def Solera.mk (n v x : Bool) (value : Int) : Solera :=
  BitVec.ofNat 192 (b2n n * 2 ^ 191 + b2n v * 2 ^ 190 + b2n x * 2 ^ 189) ||| (BitVec.ofInt 184 value).setWidth 192

/-- N, not a number. -/
def Solera.n (w : Solera) : Bool := w.getLsbD 191
/-- V, overflow. -/
def Solera.v (w : Solera) : Bool := w.getLsbD 190
/-- X, inexact. -/
def Solera.x (w : Solera) : Bool := w.getLsbD 189
/-- VALUE, two's complement. -/
def Solera.value (w : Solera) : Int := (w.setWidth 184).toInt

/-- The base exponent a 10-bit field holds (R33). -/
def ebase (f : BitVec 10) : Int := f.toInt

/-- The limit of the term range (R36). -/
def termMax : Int := 2 ^ 159 - 1

/-- One term quantised to a multiple of 2^E_base, as a word that holds only it (R35 to R37). -/
def Solera.term (eb : Int) : FV → Solera
  | .nan => Solera.mk true false false 0
  | .inf _ => Solera.mk true false false 0
  | .fin neg m e =>
    let i := nearestInt neg m (e - eb)
    let x := decide (e < eb) && m % 2 ^ (eb - e).toNat != 0
    let c := max (-termMax) (min termMax i)
    Solera.mk false (c != i) x c

/-- The sum of two words: VALUE modulo 2^184, flags ORed, reserved field zero (R38). -/
def Solera.add (a b : Solera) : Solera :=
  Solera.mk (a.n || b.n) (a.v || b.v) (a.x || b.x) (a.value + b.value)

/-- The exact value of a word (R40). -/
def Solera.toFV (eb : Int) (w : Solera) : FV := if w.n then .nan else FV.ofInt false w.value eb

/-- A word from its 32-byte slot (R32). -/
def Solera.ofBytes (d : List (BitVec 8)) : Solera := BitVec.ofNat 192 (num8 d 0 24)
/-- The 32-byte slot of a word (R32). -/
def Solera.bytes (w : Solera) : List (BitVec 8) := leBytes w.toNat 32

/-- The four words of a line of 128 bytes, as one 768-bit value. -/
def fourWords (d : List (BitVec 8)) : BitVec 768 :=
  BitVec.ofNat 768 (num8 d 0 24 + num8 d 32 24 * 2 ^ 192 + num8 d 64 24 * 2 ^ 384 + num8 d 96 24 * 2 ^ 576)
/-- Word `i` of four. -/
def word4 (w : BitVec 768) (i : Nat) : Solera := (w >>> (192 * i)).setWidth 192
/-- Four words as one value. -/
def pack4 (a b c d : Solera) : BitVec 768 :=
  a.setWidth 768 ||| b.setWidth 768 <<< 192 ||| c.setWidth 768 <<< 384 ||| d.setWidth 768 <<< 576
/-- Word-wise sum of two lines (R38). -/
def add4 (a b : BitVec 768) : BitVec 768 :=
  pack4 ((word4 a 0).add (word4 b 0)) ((word4 a 1).add (word4 b 1)) ((word4 a 2).add (word4 b 2)) ((word4 a 3).add (word4 b 3))
/-- The 128 bytes of four words. -/
def bytes4 (w : BitVec 768) : List (BitVec 8) :=
  (word4 w 0).bytes ++ (word4 w 1).bytes ++ (word4 w 2).bytes ++ (word4 w 3).bytes

/-! ### MX elements and blocks (R25 to R29, R41, R42) -/

/-- The element format of a code of R50, for the floating-point elements. -/
def mxFmt : Nat → Fmt
  | 0 => .e4m3
  | 1 => .e5m2
  | 2 => .e3m2
  | 3 => .e2m3
  | _ => .e2m1

/-- Bits of one element of a format code of R50. -/
def elemBits : Nat → Nat
  | 2 => 6
  | 3 => 6
  | 4 => 4
  | 6 => 16
  | _ => 8

/-- Block data bytes of a format code (R50). -/
def blockBytes (f : Nat) : Nat := 4 * elemBits f

/-- An element's own value (R25, R26, R30). -/
def elemVal (f raw : Nat) : FV :=
  if f = 5 then FV.ofInt false (sextN raw 8) (-6)
  else if f = 6 then Fmt.bf16.decode raw
  else
    let g := mxFmt f
    let c := raw % 2 ^ g.width
    if c ≤ g.maxCode then .fin (raw.testBit g.width) (g.mag c).1 (g.mag c).2
    else if f = 1 ∧ c = g.maxCode + 1 then .inf (raw.testBit g.width)
    else .nan

/-- A value multiplied by an E8M0 scale (R27). -/
def scaled (scale : Nat) (v : FV) : FV :=
  if scale = 255 then .nan
  else match v with
    | .fin n m e => .fin n m (e + (scale : Int) - 127)
    | w => w

/-- Raw element `i` of a block (R29). -/
def elemRaw (f : Nat) (blk : List (BitVec 8)) (i : Nat) : Nat :=
  bits (leNat blk) (elemBits f * i + elemBits f - 1) (elemBits f * i)

/-- The value of element `i` of a block with its scale; BF16 has no scale (R47). -/
def blockElem (f scale : Nat) (blk : List (BitVec 8)) (i : Nat) : FV :=
  if f = 6 then elemVal 6 (elemRaw 6 blk i) else scaled scale (elemVal f (elemRaw f blk i))

/-- emax of R41. -/
def mxEmax : Nat → Int
  | 0 => 8
  | 1 => 15
  | 2 => 4
  | 3 => 2
  | 4 => 2
  | _ => 0

/-- ⌊log2⌋ of the magnitude of a finite non-zero value. -/
def FV.log2 : FV → Option Int
  | .fin _ m e => if m = 0 then none else some (e + (Nat.log2 m : Int))
  | _ => none

/-- The shared exponent of a block (R41): from the largest finite magnitude, clamped; 0 when there is none. -/
def mxShared (f : Nat) (vs : List FV) : Int :=
  match vs.foldl (fun (a : Option Int) v => match a, v.log2 with
      | some x, some y => some (max x y)
      | none, y => y
      | x, none => x) none with
  | none => 0
  | some l => max (-127) (min 127 (l - mxEmax f))

/-- The element nearest to v / 2^X, saturated, with the non-finite cases of R41's second table. -/
def mxElem (f : Nat) (x : Int) : FV → Nat
  | .nan => if f = 0 then 0x7F else 0x7E
  | .inf neg => if f = 0 then 0x7F else b2n neg * 0x80 + 0x7C
  | .fin neg m e =>
    if f = 5 then
      let i := nearestInt neg m (e - x + 6)
      (BitVec.ofInt 8 (max (-127) (min 127 i))).toNat
    else
      let g := mxFmt f
      b2n neg * 2 ^ g.width + min (g.round m (e - x)) g.maxCode

/-- Whether a value is finite. -/
def FV.finite : FV → Bool
  | .fin _ _ _ => true
  | _ => false

/-- Thirty-two values converted to one MX block: the scale code and the raw elements (R41). -/
def mxConvert (f : Nat) (vs : List FV) : Nat × List Nat :=
  if vs.any (fun v => !v.finite) && f != 0 && f != 1 then (0xFF, vs.map fun _ => 0)
  else
    let x := mxShared f vs
    ((x + 127).toNat, vs.map (mxElem f x))

/-- The element data of a block (R29). -/
def mxPack (f : Nat) (es : List Nat) : List (BitVec 8) :=
  leBytes (es.foldr (fun e acc => e + acc * 2 ^ elemBits f) 0) (blockBytes f)

/-- Exact sum of a list, left to right; any NaN or opposed infinities give NaN (R49, R288). A sum whose terms are all −0
is −0 (R40): −0 is where the sum starts, since it changes no other. -/
def sumFV (l : List FV) : FV := l.foldl FV.add (.fin true 0 0)

end Sys2Proof.Machine
end

