-- ==== Sys2Proof/Machine/State.lean ====
section
/-!
DEFINITION. Machine/State.lean: everything the spec gives the module, as plain data. Each field names the rule of
spec/ that gives it; its default is its value right after power-up (the Reset columns of the spec, and where the
spec states none a value that a row of notes/assumptions names).
-/

namespace Sys2Proof.Machine

/-- One byte of memory at an address. -/
abbrev Cell := Host.Cell

/-- Who sent a request and what waits for its answer (R146). -/
inductive Agent where
  /-- nobody waits: a write-back of the cellar or a write of an engine -/
  | engine
  /-- a control core load or atomic: core, register that receives the value, and whether it fills the read cache -/
  | ctlLoad (core rd : Nat) (fill : Bool)
  /-- a control core store -/
  | ctlStore (core : Nat)
  /-- a vector load: core, group, thread, destination code and whether it fills the read cache -/
  | vecLoad (core group thread dst : Nat) (fill : Bool)
  /-- a vector store: core, group, thread -/
  | vecStore (core group thread : Nat)
  /-- a vector atomic: core, group, destination code (the old values stand in the request) -/
  | vecAtom (core group dst : Nat)
  /-- a copy's read: core, arrival item, local address -/
  | dmaRead (core item laddr : Nat)
  /-- a copy's write: core, arrival item -/
  | dmaWrite (core item : Nat)
  /-- an instruction fetch: core, code line, and whether the vector engine asked for it -/
  | fetch (core line : Nat) (vec : Bool)
  /-- a home's read of the tree header of a line it holds: reduction ID, line index -/
  | header (rid line : Nat)
  /-- a request of the companion: opcode, TAG and process identifier -/
  | comp (op tag pasid : Nat)
  deriving DecidableEq, Repr

/-- An agent as the scope ladder of R147 sees it. -/
inductive Party where
  /-- a part of logical core `c`: a thread of group slot `unit` (0 to 7), the control core (8), or another part (9) -/
  | part (c unit : Nat)
  /-- an agent of the module outside the cores -/
  | engine
  /-- the companion -/
  | companion
  /-- another module -/
  | remote
  deriving DecidableEq, Repr

/-- What a request asks of its home. -/
inductive ReqKind where
  | read | write | atomic
  deriving DecidableEq, Repr

/-- One operand of a combined atomic: the thread, its operand and its compare value (R140). -/
structure AtomOp where
  thread : Nat
  operand : BitVec 64
  compare : BitVec 64
  deriving DecidableEq, Repr

/-- Where a request stands between its sender, its home and the backing store. -/
inductive Stage where
  /-- a page-table walk waits for the read of a table of this level at this physical address (R409) -/
  | walk (level table : Nat)
  /-- on its way to, or waiting at, its home cask (R194) -/
  | home
  /-- a miss on its way to a channel port (R255) -/
  | hbm
  /-- read from HBM, on its way back to the cask -/
  | filled
  /-- a write on its way to a channel port -/
  | hbmW
  /-- a write whose parity updates are not all done (R262) -/
  | parity
  /-- a write performed in HBM, its report on its way back (R183) -/
  | hbmAck
  /-- sent to the companion home (R204) -/
  | comp
  /-- answered; the result is on its way to the sender -/
  | done
  deriving DecidableEq, Repr

/-- The state of an accumulator bank (R56). -/
inductive BankSt where
  | invalid | valid | draining
  deriving DecidableEq, Repr

/-- What an arrival item counts (R97, R243, R282). -/
inductive AKind where
  | copy | rrecv | asend
  deriving DecidableEq, Repr

/-- What a vector thread waits for (R118). -/
inductive TWait where
  | none
  /-- at a barrier of this ID (R136) -/
  | barrier (id : Nat)
  /-- for an arrival counter to reach a target (R131) -/
  | arrival (k target : Nat)
  deriving DecidableEq, Repr

/-- What the control core waits for. -/
inductive CtlWait where
  | none
  /-- `await` (R98) -/
  | await (k target : Nat)
  /-- `pwait` (R99) -/
  | pwait (target : Nat)
  /-- `kend` (R104) -/
  | kend
  /-- `vjoin` on a slot mask (R112) -/
  | vjoin (mask : Nat)
  /-- `srd` of a summary slot into a register (R112) -/
  | srd (rd k : Nat)
  deriving DecidableEq, Repr

/-- The directory state of a module line (R206). -/
inductive DirState where
  /-- no companion copy -/
  | di
  /-- shared -/
  | ds
  /-- owned by the companion -/
  | dO
  deriving DecidableEq, Repr

/-- A router's output port (R229). -/
inductive RPort where
  | deliver | xPlus | xMinus | yPlus | yMinus
  deriving DecidableEq, Repr

/-- STATE of a sequence (R306). -/
inductive SeqState where
  | free | prefill | decode | parked | spilled | leaving | importing
  deriving DecidableEq, Repr

/-- Where the step in flight stands (R325). -/
inductive StepPhase where
  /-- no step is in flight -/
  | idle
  /-- broadcast; kernels run -/
  | running
  /-- commit list sent to the casks; their reports are awaited -/
  | committing
  /-- every cask has reported; the commit point is awaited -/
  | committed
  /-- the attempt is discarded; the same step is to be broadcast again (R329) -/
  | again
  deriving DecidableEq, Repr

/-- An event that changes what unlisted memory reads as. -/
inductive Wipe where
  /-- a stack's contents are destroyed; a draw names what its bytes hold (R275) -/
  | march (stack draw : Nat)
  /-- a range of storage addresses is overwritten with zeros -/
  | zero (base len : Nat)
  deriving DecidableEq, Repr

/-- A request of a module or companion agent in flight between its sender, its home and the backing store (R183, R194, R204, R251). -/
structure Req where
  /-- the model's own number of the request; its low 16 bits are the Abius TAG (R401) and its low 28 bits the end-to-end sequence number (R251) (R251) -/
  tag : Nat := 0
  /-- who sent it and what waits for it (R146) -/
  agent : Agent := .engine
  /-- 10-bit context ID (R413) -/
  ctx : Nat := 0
  /-- read, write, atomic, reduction contribution or subscription (R233) -/
  kind : ReqKind := .read
  /-- 48-bit device virtual address (R408) -/
  va : Nat := 0
  /-- device physical address after translation (R409) -/
  pa : Nat := 0
  /-- bytes, 1 to 128 (R94) -/
  size : Nat := 0
  /-- 3-bit service class (R181) -/
  cls : Nat := 0
  /-- bytes written, or returned to a read (R96) -/
  data : List Byte := []
  /-- 128-bit byte mask of a WrPart (R211) -/
  mask : Nat := 0
  /-- atomic operation code (R139) (R139) -/
  op : Nat := 0
  /-- the operands of a combined atomic in lane order (R140) -/
  ops : List AtomOp := []
  /-- base exponent of a solera atomic (R33) -/
  ebase : BitVec 10 := 0
  /-- the load bypasses the read cache (R90) -/
  bypass : Bool := false
  /-- sent by a draft kernel (R188) -/
  draft : Bool := false
  /-- acquire ordering (R157) -/
  acq : Bool := false
  /-- release ordering (R156) -/
  rel : Bool := false
  /-- where it stands (R194) -/
  stage : Stage := .home
  /-- its data is poisoned (R220) -/
  poison : Bool := false
  /-- old values of an atomic, per thread (R141) -/
  old : List (Nat × BitVec 64) := []
  /-- end-to-end re-sends made, 0 to 3 (R251) -/
  resend : Nat := 0
  /-- ROUTE_EPOCH when it was sent (R251) -/
  born : Nat := 0
  /-- scope of its acquire ordering (R157) -/
  asc : Option Nat := none
  /-- scope of the release that a write carries: its own, or that of a release fence before it (R159) -/
  rsc : Option Nat := none
  /-- tags, with the scope, of the accesses that an acquire puts before it and that were not performed as it set out (R157) -/
  early : List (Nat × Nat) := []
  /-- instances, by scope and agent, at which a write counts as performed before it is performed at its home (R156) -/
  vis : List (Nat × Party) := []
  /-- control core requests of its core under lower tags happen before it (R162) -/
  hand : Nat := 0
  /-- fault code that its return raises; 0 none (R107) -/
  err : Nat := 0
  /-- its place among the accesses that casks have handed on to HBM (R183) -/
  acc : Nat := 0
  /-- its place among the requests that wait at their homes; 0 while it does not (R212) -/
  arr : Nat := 0
  /-- the tag of the first request of the atomic issue it belongs to (R140) -/
  grp : Nat := 0
  /-- an `Atomic` of it is on its way to the companion home (R140) -/
  sent : Bool := false
  /-- its data must not be allocated: a snoop has taken the copy (R215) -/
  noAlloc : Bool := false
  /-- its packet was lost at a fenced edge and is not re-sent yet (R251) -/
  lost : Bool := false
  deriving DecidableEq, Repr

/-- The power-up value of `Req`. -/
def Req.reset : Req := {}

/-- One accumulator bank of the press (R56). -/
structure PBank where
  /-- invalid, valid or draining (R56) -/
  st : BankSt := .invalid
  /-- mode: false solera, true FP32 (MODE) (R53) -/
  fp : Bool := false
  /-- 64 accumulators; a solera word, or an FP32 value in bits [31:0] (R47) -/
  acc : List (BitVec 192) := []
  /-- 20-bit saturating block count (R58) -/
  blocks : Nat := 0
  /-- a rounding under R49 was inexact (R61) -/
  inexact : Bool := false
  deriving DecidableEq, Repr

/-- The power-up value of `PBank`. -/
def PBank.reset : PBank := {}

/-- A started press command: its descriptor and the operand bytes still to be read, or read (R64, R69). -/
structure PRun where
  /-- the tile command descriptor (R53) -/
  desc : BitVec 256 := 0
  /-- its last operand byte has been read (R69) -/
  readDone : Bool := false
  /-- the operand bytes as read from the scratchpad, once read (R69) -/
  snap : List Cell := []
  deriving DecidableEq, Repr

/-- The power-up value of `PRun`. -/
def PRun.reset : PRun := {}

/-- One entry of the finished-tile queue (R61, R62). -/
structure Tile where
  /-- header (R61) -/
  hdr : BitVec 64 := 0
  /-- the 64 payload values, zero-extended (R62) -/
  vals : List (BitVec 192) := []
  deriving DecidableEq, Repr

/-- The power-up value of `Tile`. -/
def Tile.reset : Tile := {}

/-- A local byte that an access has written: who wrote it, under which number, and the other value that an access not ordered behind it may see or leave (R101). -/
structure Race where
  /-- the writer: 0 to 15 an arrival counter, 16 the control core, 17 + 32g + t thread t of group slot g (R101) -/
  src : Nat := 0
  /-- the number of the item of the counter, or of the write (R97) -/
  no : Nat := 0
  /-- local address (R101) -/
  addr : Nat := 0
  /-- the other value (R101) -/
  old : Byte := 0
  deriving DecidableEq, Repr

/-- The power-up value of `Race`. -/
def Race.reset : Race := {}

/-- The press of one core (chapter 03). -/
structure Press where
  /-- up to four issued commands not started (R52) -/
  waiting : List (BitVec 256) := []
  /-- for each command whose read-done increment has not occurred, oldest first: other values of bytes written since it was issued, or not visible to it then (R69) -/
  olds : List (List Cell) := []
  /-- started commands not yet finished, in issue order (R65) -/
  runs : List PRun := []
  /-- accumulator bank 0 (R56) -/
  bank0 : PBank := PBank.reset
  /-- accumulator bank 1 (R56) -/
  bank1 : PBank := PBank.reset
  /-- waiting drains (bank 1?, converted payload) in issue order (R60) -/
  drains : List (Bool × Tile) := []
  /-- the finished-tile queue, at most eight entries (R59) -/
  queue : List Tile := []
  /-- read-done count (R69) -/
  rdone : BitVec 16 := 0
  deriving DecidableEq, Repr

/-- The power-up value of `Press`. -/
def Press.reset : Press := {}

/-- An asynchronous copy (R92 to R97). -/
structure Copy where
  /-- the model's own number of the copy (R97) -/
  id : Nat := 0
  /-- the copy descriptor (R93) -/
  desc : BitVec 256 := 0
  /-- requests generated so far (R92) -/
  next : Nat := 0
  deriving DecidableEq, Repr

/-- The power-up value of `Copy`. -/
def Copy.reset : Copy := {}

/-- One issued copy, subscription or SAU request of an arrival counter, in issue order (R97). -/
structure AItem where
  /-- counter a0 to a15 (R97) -/
  ctr : Nat := 0
  /-- copy, subscription or request number (R97) -/
  id : Nat := 0
  /-- requests of it still to return (R96) -/
  left : Nat := 0
  /-- it has completed and waits for its increment (R97) -/
  complete : Bool := false
  /-- copy, rrecv or asend (R244) -/
  kind : AKind := .copy
  /-- channel of a copy (R92) -/
  chan : Nat := 0
  /-- its number among the items of its counter, from 1 (R97) -/
  no : Nat := 0
  /-- other values of local bytes written since it was issued, or not visible to it then (R101) -/
  olds : List Cell := []
  deriving DecidableEq, Repr

/-- The power-up value of `AItem`. -/
def AItem.reset : AItem := {}

/-- One vector thread (R111). -/
structure Thread where
  /-- it has not exited (R111) -/
  live : Bool := false
  /-- program counter, byte offset in the plan's code (R111) -/
  pc : Nat := 0
  /-- v0 to v63, 32 bits each; unlisted 0 (R111) -/
  regs : List (Nat × BitVec 32) := []
  /-- p0 to p7 (R111) -/
  preds : BitVec 8 := 0
  /-- what it waits for (R118) -/
  wait : TWait := .none
  /-- operand codes awaiting a load result, with the request's tag; 256 stands for an acquire (R118) -/
  busy : List (Nat × Nat) := []
  /-- for each writer of local bytes, the number up to which its writes are visible to the thread (R131) -/
  knows : List (Nat × Nat) := []
  /-- its release fences: scope, and the tag below which its accesses come before it (R156) -/
  fences : List (Nat × Nat) := []
  /-- accesses, by tag and scope, that an acquire of it puts before its later accesses (R157) -/
  acqs : List (Nat × Nat) := []
  /-- engine cycles at which it came to its program counter, or became ready again (R118) -/
  since : Nat := 0
  /-- engine cycles by which every local result it has computed is usable (R143) -/
  usable : Nat := 0
  /-- its last attempt to issue found its operation's own condition unmet, so it is not known to be ready (R118) -/
  passed : Bool := false
  deriving DecidableEq, Repr

/-- The power-up value of `Thread`. -/
def Thread.reset : Thread := {}

/-- One resident thread group in a slot (R110, R111). -/
structure Group where
  /-- threads 0 to 31; unlisted exited (R110) -/
  threads : List (Nat × Thread) := []
  /-- service class of its global accesses (launch CLASS) (R113) -/
  cls : Nat := 0
  /-- control core requests under lower tags happen before its accesses (R162) -/
  hand : Nat := 0
  /-- older values of broadcast entries that the group may still read, oldest first per entry (R127) -/
  late : List (Nat × BitVec 32) := []
  deriving DecidableEq, Repr

/-- The power-up value of `Group`. -/
def Group.reset : Group := {}

/-- One valid line of a core's read cache (R90). -/
structure RLine where
  /-- 41-bit line address (R90) -/
  line : Nat := 0
  /-- its 128 bytes (R90) -/
  data : List Byte := []
  /-- the way it occupies, 0 to 3 (R90) -/
  way : Nat := 0
  deriving DecidableEq, Repr

/-- The power-up value of `RLine`. -/
def RLine.reset : RLine := {}

/-- A cached translation (R412). -/
structure XEntry where
  /-- context ID (R412) -/
  ctx : Nat := 0
  /-- virtual base of the page (R412) -/
  va : Nat := 0
  /-- physical base of the page (R412) -/
  pa : Nat := 0
  /-- page size, 16, 21 or 30 (R409) -/
  log2 : Nat := 16
  /-- writes permitted (R410) -/
  w : Bool := false
  deriving DecidableEq, Repr

/-- The power-up value of `XEntry`. -/
def XEntry.reset : XEntry := {}

/-- An issued `rsend` with lines that its plot router has not accepted (R244). -/
structure RSend where
  /-- the descriptor (R244) -/
  desc : BitVec 64 := 0
  /-- lines accepted (R244) -/
  sent : Nat := 0
  /-- the context of the kernel that issued it (R247) -/
  ctx : Nat := 0
  /-- other values of local bytes written since it was issued, or not visible to it then (R101) -/
  olds : List Cell := []
  deriving DecidableEq, Repr

/-- The power-up value of `RSend`. -/
def RSend.reset : RSend := {}

/-- One logical core: control core, local memories, press, DMA engine, vector engine, read cache (R73). -/
structure Core where
  /-- s0 to s63, 64 bits each; s0 reads zero (R73) -/
  regs : List (Nat × BitVec 64) := []
  /-- scalar registers awaiting a global load, with the request's tag; 64 stands for an acquire (R74) -/
  busy : List (Nat × Nat) := []
  /-- program counter, byte offset in the plan's code (R80) -/
  pc : BitVec 64 := 0
  /-- the wait or stall the control core is in (R98) -/
  wait : CtlWait := .none
  /-- a kernel is running (started, not DONE) (R104) -/
  run : Bool := false
  /-- KID register (R84) -/
  kid : BitVec 64 := 0
  /-- CTX register [9:0] (R84) -/
  ctx : Nat := 0
  /-- CTX register [15:10] (R84) -/
  part : Nat := 0
  /-- the kernel is a draft kernel (R318) -/
  draft : Bool := false
  /-- watchdog limit, us (R105) -/
  watchdog : Nat := 0
  /-- time base at the kernel's first instruction (R105) -/
  started : Nat := 0
  /-- context of the previous kernel on the core (R103) -/
  prevCtx : Option Nat := none
  /-- KSTATUS.FAULT (R86) -/
  ksFault : BitVec 16 := 0
  /-- KSTATUS.DMA_CANCELLED (R86) -/
  ksCancel : Bool := false
  /-- KSTATUS.PRESS_DROPPED (R86) -/
  ksDropped : Bool := false
  /-- KSTATUS.DONE (R86) -/
  ksDone : Bool := false
  /-- the completion record of the last kernel is not yet posted to the engine (R104) -/
  unposted : Bool := false
  /-- GCLASS register (R84) -/
  gclass : BitVec 3 := 2
  /-- CYCLE register (R84) -/
  cycle : BitVec 64 := 0
  /-- a fault has ended the kernel; outstanding DMA requests drain (R108) -/
  stopping : Bool := false
  /-- scratchpad 96 KiB and operand cache 16 KiB, 0x0_0000 to 0x1_BFFF; unlisted 0 (R82) -/
  ldst : List Cell := []
  /-- inverted check bits per 8-byte local or read-cache word (R478) -/
  ecc : List (Nat × Nat) := []
  /-- the press (R47) -/
  press : Press := Press.reset
  /-- copies issued on channel 0, not finished generating (R92) -/
  chan0 : List Copy := []
  /-- the same for channel 1 (R92) -/
  chan1 : List Copy := []
  /-- the channel whose turn it is (R92) -/
  turn : Bool := false
  /-- issued, unarrived items of all counters in issue order (R97) -/
  items : List AItem := []
  /-- issued counts of a0 to a15, 32 bits (R84) -/
  issued : List (Nat × Nat) := []
  /-- arrived counts of a0 to a15, 32 bits (R84) -/
  arrived : List (Nat × Nat) := []
  /-- group slots g0 to g7 that are occupied (R110) -/
  groups : List (Nat × Group) := []
  /-- broadcast entries b0 to b31; unlisted 0 (R127) -/
  bcast : List (Nat × BitVec 32) := []
  /-- full summary slots y0 to y15 (R134) -/
  summ : List (Nat × BitVec 64) := []
  /-- for each full summary slot, the writes that its filling makes visible to the control core (R135) -/
  summKnows : List (Nat × List (Nat × Nat)) := []
  /-- local bytes written in this kernel whose order with other accesses may be open, oldest first (R101) -/
  races : List Race := []
  /-- for each writer of local bytes, the number up to which its writes are visible to the control core (R100) -/
  knows : List (Nat × Nat) := []
  /-- release fences of the control core: scope, and the tag below which its accesses come before it (R156) -/
  fences : List (Nat × Nat) := []
  /-- accesses, by tag and scope, that an acquire of the control core puts before its later accesses (R157) -/
  acqs : List (Nat × Nat) := []
  /-- writes of local bytes made in this kernel by the control core and the vector engine (R101) -/
  writes : Nat := 0
  /-- the model's own: the draw that decides its racing accesses -/
  rdraw : Nat := 0
  /-- cycles that the group instructions of this kernel have occupied the vector engine (R110) -/
  vcycles : Nat := 0
  /-- read cache, 16 sets of up to 4 lines, most recent first (R90) -/
  rcache : List (Nat × List RLine) := []
  /-- instruction cache, 16 sets of up to 4 code lines, most recent first (R73) -/
  icache : List (Nat × List Nat) := []
  /-- local word whose next write gets inverted check bits, and how many (R478) -/
  injNext : Option (Nat × Nat) := none
  /-- code lines that instruction fetches wait for, oldest first (R102) -/
  fetching : List Nat := []
  /-- the 64 cached translations of its trellis interface, most recent first (R412) -/
  xlat : List XEntry := []
  /-- rsend instructions with lines not yet accepted, oldest first (R244) -/
  redq : List RSend := []
  /-- times of its corrected errors in the last 24 h (R466) -/
  ceTimes : List Nat := []
  /-- words 0 to 2 of its Span request page (R355) -/
  spanw : List (Nat × BitVec 64) := []
  deriving DecidableEq, Repr

/-- The power-up value of `Core`. -/
def Core.reset : Core := {}

/-- A reduction hold on a line (R192, R247). -/
structure Hold where
  /-- 12-bit reduction ID (R192) -/
  rid : Nat := 0
  /-- line index within the reduction (R246) -/
  idx : Nat := 0
  /-- leaves counted (R247) -/
  got : Nat := 0
  /-- the tree header has been read (R247) -/
  hdr : Bool := false
  /-- LEAVES has been reached and completion performed (R247) -/
  done : Bool := false
  /-- subscriptions served (R247) -/
  served : Nat := 0
  /-- handed to the Span engine, not yet written back (R362) -/
  ring : Bool := false
  /-- tags of waiting subscriptions, in arrival order (R247) -/
  subs : List Nat := []
  deriving DecidableEq, Repr

/-- The power-up value of `Hold`. -/
def Hold.reset : Hold := {}

/-- One valid way of a cask set (R181, R206). -/
structure Line where
  /-- 41-bit line address L (R178) -/
  addr : Nat := 0
  /-- its 128 bytes (R177) -/
  data : List Byte := []
  /-- service class of the fill (R182) -/
  cls : Nat := 0
  /-- holds data newer than the backing store (R183) -/
  dirty : Bool := false
  /-- tentative c1 line (R188) -/
  tent : Bool := false
  /-- last-pour mark (R189) -/
  mark : Bool := false
  /-- reserve line (R186) -/
  pinned : Bool := false
  /-- poisoned (R220) -/
  poison : Bool := false
  /-- directory state DI, DS or DO (R206) -/
  dir : DirState := .di
  /-- reduction hold (R192) -/
  hold : Option Hold := none
  /-- inverted check symbols of its first 64 bytes (0, 1 or 2) (R478) -/
  ecc : Nat := 0
  /-- the same of its last 64 bytes (R478) -/
  ecc2 : Nat := 0
  deriving DecidableEq, Repr

/-- The power-up value of `Line`. -/
def Line.reset : Line := {}

/-- The cellar (chapter 07). -/
structure Cellar where
  /-- sets keyed position × 2048 + set, up to 16 lines, most recent first (R177) -/
  sets : List (Nat × List Line) := []
  /-- positions not live (R177) -/
  dead : List Nat := []
  /-- positions not live when bring-up built the home table (R201) -/
  bringDead : List Nat := []
  /-- positions of casks retired since bring-up (R467) -/
  retired : List Nat := []
  /-- home-table entries that differ from i mod 512 (R179) -/
  ht : List (Nat × Nat) := []
  /-- base of the weight region in force (R180) -/
  wbase : Nat := 0
  /-- length of the weight region, bytes (R180) -/
  wlen : Nat := 0
  /-- pin ceiling in force (R185) -/
  ceiling : Nat := 12
  /-- ceiling in force when the plan was loaded (R201) -/
  loadCeiling : Nat := 12
  /-- the reserve is laid with the present number of live casks (R198) -/
  relaid : Bool := true
  /-- a fold or unfold is in progress (R198) -/
  folding : Bool := false
  /-- an unfold is in progress (R201) -/
  unfolding : Bool := false
  /-- positions whose cask has handled the commit list (R189) -/
  kept : List Nat := []
  /-- positions that have reported commit complete (R189) -/
  reported : List Nat := []
  /-- unpinned lookups at the start of the thrash window (R196) -/
  winLook : Nat := 0
  /-- unpinned misses at the start of the thrash window (R196) -/
  winMiss : Nat := 0
  /-- (position, time) of corrected errors in the last 24 h (R467) -/
  ceTimes : List (Nat × Nat) := []
  deriving DecidableEq, Repr

/-- The power-up value of `Cellar`. -/
def Cellar.reset : Cellar := {}

/-- A message on the Abius link (R401). -/
structure AbMsg where
  /-- OPCODE (R401) -/
  op : Nat := 0
  /-- ORD marker (R402) -/
  ord : Nat := 0
  /-- poison bit (R211) -/
  poison : Bool := false
  /-- snoop type, true SHR (R211) -/
  shr : Bool := false
  /-- TAG (R401) -/
  tag : Nat := 0
  /-- process identifier (R401) -/
  pasid : Nat := 0
  /-- address (R401) -/
  addr : Nat := 0
  /-- data after the header (R401) -/
  data : List Byte := []
  deriving DecidableEq, Repr

/-- The power-up value of `AbMsg`. -/
def AbMsg.reset : AbMsg := {}

/-- An open transaction of a module home that waits on the companion (R212 to R219). -/
structure Txn where
  /-- line address (R212) -/
  line : Nat := 0
  /-- the Snoop sent is SHR (R214) -/
  shr : Bool := false
  /-- the snoop response is awaited (R215) -/
  rsp : Bool := false
  /-- the promised EvictDirty is awaited (R216) -/
  wb : Bool := false
  /-- the CmpAck of a grant is awaited (R213) -/
  ack : Bool := false
  /-- tag of the request that waits for it (R212) -/
  waiter : Option Nat := none
  /-- an eviction held until the transaction closes (R216) -/
  held : Option (AbMsg) := none
  /-- the held eviction has served as the snoop's answer (R216) -/
  used : Bool := false
  /-- a back-invalidation of a victim (R207) -/
  backInv : Bool := false
  /-- the line that a back-invalidation makes room for (R207) -/
  room : Option Nat := none
  /-- mask of bytes that an engine has written meanwhile: data that comes back does not replace them (R214) -/
  mine : Nat := 0
  /-- data that comes back is discarded: the line's bytes are overwritten meanwhile (R186) -/
  toss : Bool := false
  deriving DecidableEq, Repr

/-- The power-up value of `Txn`. -/
def Txn.reset : Txn := {}

/-- Coherence with the companion (chapter 08). -/
structure Coh where
  /-- open transactions (R212) -/
  txns : List Txn := []
  /-- the companion agent is declared dead (R221) -/
  dead : Bool := false
  /-- home-table entries named by each outstanding SnpFlush, oldest first (R223) -/
  flush : List (List Nat) := []
  /-- module lines evicted under the outstanding SnpFlushes (R223) -/
  flushed : List Nat := []
  /-- weight lines that the companion may hold in S while the reserve is re-laid (R223) -/
  sCopies : List Nat := []
  /-- companion lines whose eviction by the module awaits EvictAck (true: dirty) (R213) -/
  evicting : List (Nat × Bool) := []
  /-- messages the module has handed to the link, oldest first (R404) -/
  out : List AbMsg := []
  deriving DecidableEq, Repr

/-- The power-up value of `Coh`. -/
def Coh.reset : Coh := {}

/-- A line buffer of a router (R246). -/
structure LBuf where
  /-- router gx (R246) -/
  gx : Nat := 0
  /-- router gy (R246) -/
  gy : Nat := 0
  /-- reduction ID (R246) -/
  rid : Nat := 0
  /-- line index (R246) -/
  line : Nat := 0
  /-- 0 as a plot router, 1 as a combining router (R246) -/
  stop : Nat := 0
  /-- the core of its first contribution (R247) -/
  core : Nat := 0
  /-- the cores of its contributions (R193) -/
  cores : List Nat := []
  /-- the context of its first contribution (R247) -/
  ctx : Nat := 0
  /-- summed leaf count (R246) -/
  leaves : Nat := 0
  /-- four solera words (R246) -/
  words : BitVec 768 := 0
  deriving DecidableEq, Repr

/-- The power-up value of `LBuf`. -/
def LBuf.reset : LBuf := {}

/-- A reduction contribution on its way (R246). -/
structure Contrib where
  /-- the model's own number (R246) -/
  tag : Nat := 0
  /-- the core whose kernel sent its first leaf (R247) -/
  core : Nat := 0
  /-- the cores whose kernels sent its leaves (R193) -/
  cores : List Nat := []
  /-- its context (R247) -/
  ctx : Nat := 0
  /-- reduction ID (R246) -/
  rid : Nat := 0
  /-- line index (R246) -/
  line : Nat := 0
  /-- leaf count (R246) -/
  leaves : Nat := 1
  /-- four solera words (R246) -/
  words : BitVec 768 := 0
  /-- next stop: 0 plot router, 1 combining router, 2 home (R246) -/
  stop : Nat := 0
  /-- it has waited at its set (R193) -/
  waited : Bool := false
  deriving DecidableEq, Repr

/-- The power-up value of `Contrib`. -/
def Contrib.reset : Contrib := {}

/-- A subscription of a core (R244, R247). -/
structure Sub where
  /-- the model's own number (R247) -/
  tag : Nat := 0
  /-- subscribing core (R244) -/
  core : Nat := 0
  /-- its context (R247) -/
  ctx : Nat := 0
  /-- reduction ID (R244) -/
  rid : Nat := 0
  /-- line index (R244) -/
  line : Nat := 0
  /-- local address of the line's result (R244) -/
  laddr : Nat := 0
  /-- result format (R244) -/
  fmt : Nat := 0
  /-- arrival item it belongs to (R244) -/
  item : Nat := 0
  /-- end-to-end re-sends made, 0 to 3 (R251) -/
  resend : Nat := 0
  /-- ROUTE_EPOCH when it was sent (R251) -/
  born : Nat := 0
  /-- its packet was lost at a fenced edge and is not re-sent yet (R251) -/
  lost : Bool := false
  /-- the delivered line, once served (R247) -/
  res : Option (BitVec 768) := none
  /-- served from a poisoned line (R247) -/
  poison : Bool := false
  deriving DecidableEq, Repr

/-- The power-up value of `Sub`. -/
def Sub.reset : Sub := {}

/-- State of one die-to-die lane group of an edge (R240, R241). -/
structure LaneGroup where
  /-- spare lanes in use, 0 to 4 (R241) -/
  spares : Nat := 0
  /-- lanes marked for sparing (R241) -/
  erring : Nat := 0
  /-- retired (R241) -/
  retired : Bool := false
  deriving DecidableEq, Repr

/-- The power-up value of `LaneGroup`. -/
def LaneGroup.reset : LaneGroup := {}

/-- A packet queued at a router output or delivered at a router (R232, R236). -/
structure Pkt where
  /-- router gx (R229) -/
  gx : Nat := 0
  /-- router gy (R229) -/
  gy : Nat := 0
  /-- output port taken (R236) -/
  port : RPort := .deliver
  /-- the side of the router it came in by; `deliver` where an interface sent it (R233) -/
  inp : RPort := .deliver
  /-- flit cycles its output had passed when it came to wait there (R234) -/
  since : Nat := 0
  /-- the detour point that its detour entry names, until it is reached (R236) -/
  via : Option (Nat × Nat) := none
  /-- virtual channel (R233) -/
  vc : Nat := 0
  /-- routing word and SEQ_HI (R232) -/
  hdr : BitVec 80 := 0
  deriving DecidableEq, Repr

/-- The power-up value of `Pkt`. -/
def Pkt.reset : Pkt := {}

/-- The trellis (chapter 09). -/
structure Trellis where
  /-- routers declared dead (gx, gy) (R249) -/
  deadR : List (Nat × Nat) := []
  /-- dead routers the installed route tables avoid (R237) -/
  routed : List (Nat × Nat) := []
  /-- edges they avoid (R237) -/
  routedE : List Nat := []
  /-- compute dies they avoid (R237) -/
  routedD : List Nat := []
  /-- the draw that decides their open detour points (R236) -/
  tables : Nat := 0
  /-- for each router output, the flit cycles it has passed, and those when its last MGT flit went (R234) -/
  outs : List (Nat × (Nat × Nat)) := []
  /-- edges out of the routes or fenced (R250) -/
  deadE : List Nat := []
  /-- lane groups keyed 16 × edge + group that differ from fresh (R240) -/
  groups : List (Nat × LaneGroup) := []
  /-- line buffers in use (R246) -/
  bufs : List LBuf := []
  /-- contributions in flight (R246) -/
  contribs : List Contrib := []
  /-- subscriptions in flight or waiting (R247) -/
  subs : List Sub := []
  /-- packets the routers hold (R236) -/
  pkts : List Pkt := []
  /-- stage of the re-send schedule: 0 none, 1 to 3 due, 4 last wait (R251) -/
  resend : Nat := 0
  /-- compute dies lost or out, whose clocks are gone (R250) -/
  lost : List Nat := []
  /-- role counts in force per edge, E0 first; before the edges are trained every group is in the test role (R242) -/
  roles : List Nat := []
  deriving DecidableEq, Repr

/-- The power-up value of `Trellis`. -/
def Trellis.reset : Trellis := {}

/-- One HBM stack (R255, R273, R274). -/
structure Stack where
  /-- in service (R277) -/
  inServ : Bool := true
  /-- in self-refresh (R273) -/
  refresh : Bool := false
  /-- lost (R274) -/
  lost : Bool := false
  /-- out of service for a loopback test (R275) -/
  test : Bool := false
  /-- thermal level 0 to 3 (R274) -/
  level : Nat := 0
  /-- hottest die, deg C (R277) -/
  temp : Int := 0
  /-- declared threshold, deg C (R277) -/
  thresh : Int := 0
  /-- consecutive reports 3 deg C below the entry point (R274) -/
  cool : Nat := 0
  /-- consecutive reports at the level 3 entry (R274) -/
  hot : Nat := 0
  /-- 32-bit channel failures of the last loopback (R275) -/
  loop : Nat := 0
  /-- its SAU is out of service (R300) -/
  sauDown : Bool := false
  deriving DecidableEq, Repr

/-- The power-up value of `Stack`. -/
def Stack.reset : Stack := {}

/-- A channel spare in use (R269). -/
structure Spare where
  /-- failed channel, stack × 32 + channel (R269) -/
  ch : Nat := 0
  /-- number of the spare (R269) -/
  k : Nat := 0
  /-- channels in service and not spared at the sparing (R269) -/
  m : List Nat := []
  /-- slots copied (R270) -/
  copied : Nat := 0
  deriving DecidableEq, Repr

/-- The power-up value of `Spare`. -/
def Spare.reset : Spare := {}

/-- A parity update on its way (R262). -/
structure ParUp where
  /-- the write it belongs to (R262) -/
  tag : Nat := 0
  /-- storage address of the parity half-slot (R262) -/
  pa : Nat := 0
  /-- g14(j) or g15(j) (R262) -/
  coef : BitVec 8 := 0
  /-- the difference d (R262) -/
  diff : List Byte := []
  deriving DecidableEq, Repr

/-- The power-up value of `ParUp`. -/
def ParUp.reset : ParUp := {}

/-- Stacked memory (chapter 10), beside its bytes. -/
structure Hbm where
  /-- stacks H0 to H15; unlisted as at reset (R255) -/
  stk : List (Nat × Stack) := []
  /-- poisoned 64-byte blocks (storage address div 64), rising (R266) -/
  poison : List Nat := []
  /-- inverted check bytes per 64-byte block (R478) -/
  ecc : List (Nat × Nat) := []
  /-- (row, time) of corrected errors (R268) -/
  rowCe : List (Nat × Nat) := []
  /-- (channel, time) of uncorrectable errors (R269) -/
  chUe : List (Nat × Nat) := []
  /-- rows listed for sparing (R268) -/
  rows : List Nat := []
  /-- channel spares in use (R269) -/
  spares : List Spare := []
  /-- torn barrel groups, f[23:4] (R263) -/
  torn : List Nat := []
  /-- barrel area base in force (R257) -/
  bbase : Nat := 0
  /-- barrel area length in force (R257) -/
  blen : Nat := 1030792151040
  /-- KV_PARITY in force (R262) -/
  parity : Bool := false
  /-- SPARE_GIB in force (R257) -/
  spareGib : Nat := 4
  /-- parity updates on their way (R262) -/
  parUps : List ParUp := []
  /-- bytes of the barrel area written during the step in flight, as they were committed (R281) -/
  olds : List Cell := []
  /-- rows repaired, as the vintage record lists them (R268) -/
  repaired : List Nat := []
  /-- memory contents destroyed by an array march test, and ranges zeroed since, newest first (R275) -/
  wipes : List Wipe := []
  deriving DecidableEq, Repr

/-- The power-up value of `Hbm`. -/
def Hbm.reset : Hbm := {}

/-- A stack attention request (R284, R287). -/
structure SauReq where
  /-- the model's own number (R287) -/
  tag : Nat := 0
  /-- requesting core (R287) -/
  core : Nat := 0
  /-- its context (R296) -/
  ctx : Nat := 0
  /-- the request descriptor (R284) -/
  desc : BitVec 256 := 0
  /-- its arrival item (R301) -/
  item : Nat := 0
  /-- it has reached the SAU port (R287) -/
  queued : Bool := false
  /-- barrel-list entries as read (R285) -/
  ents : List (BitVec 64) := []
  /-- queries as read (R284) -/
  qs : List (List (BitVec 16)) := []
  /-- entries to scan, once chosen (R293) -/
  sel : List Nat := []
  /-- the bound of each entry (R292) -/
  bounds : List (BitVec 32) := []
  /-- scan started; bounds computed where the mode asks (R293) -/
  begun : Bool := false
  /-- entries finished (R300) -/
  done : List Nat := []
  /-- end-to-end re-sends made, 0 to 3 (R251) -/
  resend : Nat := 0
  /-- ROUTE_EPOCH when it was sent (R251) -/
  born : Nat := 0
  /-- its packet was lost at a fenced edge and is not re-sent yet (R251) -/
  lost : Bool := false
  /-- first record with an error status: list position, status (R296) -/
  bad : Option (Nat × Nat) := none
  /-- records finished, by entry (R289) -/
  recs : List (Nat × List Byte) := []
  deriving DecidableEq, Repr

/-- The power-up value of `SauReq`. -/
def SauReq.reset : SauReq := {}

/-- One entry of the sequence table (R306). -/
structure Entry where
  /-- SEED (R306) -/
  seed : BitVec 64 := 0
  /-- FVAL (R306) -/
  fval : BitVec 64 := 0
  /-- ADDR (R306) -/
  addr : BitVec 48 := 0
  /-- BUDDY (R306) -/
  buddy : BitVec 16 := 0
  /-- MAXPOS (R306) -/
  maxpos : BitVec 32 := 0
  /-- PFILL (R306) -/
  pfill : BitVec 32 := 0
  /-- POS (R306) -/
  pos : BitVec 32 := 0
  /-- SEALPOS (R306) -/
  sealpos : BitVec 32 := 0
  /-- STEPS (R306) -/
  steps : BitVec 32 := 0
  /-- LASTTOK (R306) -/
  lasttok : BitVec 24 := 0
  /-- ROWS (R306) -/
  rows : BitVec 16 := 0
  /-- ERR (R306) -/
  err : BitVec 16 := 0
  /-- FENCE (R306) -/
  fence : BitVec 16 := 0
  /-- QUEUE (R306) -/
  queue : BitVec 12 := 0
  /-- CTX (R306) -/
  ctx : BitVec 10 := 0
  /-- PART (R306) -/
  part : BitVec 6 := 0
  /-- PRIO (R306) -/
  prio : BitVec 2 := 0
  /-- RACKED (R306) -/
  racked : Bool := false
  /-- NODES (R306) -/
  nodes : BitVec 7 := 0
  /-- GEN (R306) -/
  gen : BitVec 16 := 0
  /-- STATE (R306) -/
  st : SeqState := .free
  /-- CMDID of its SUBMIT or IMPORT, carried in step records (R419) -/
  cmdid : BitVec 32 := 0
  /-- the pending draft tree (R322) (R322) -/
  tree : List (BitVec 64) := []
  /-- the position P of the pending tree (R322) -/
  treePos : BitVec 32 := 0
  /-- the pending tree came from a DRAFT command (R322) -/
  treeHost : Bool := false
  /-- a PARK waits for the next commit point (R307) -/
  parkReq : Bool := false
  /-- a CANCEL, or a teardown, waits for the next commit point (R334) -/
  cancelReq : Bool := false
  /-- the reason it will leave with (R308) -/
  leaveErr : BitVec 16 := 0
  /-- LASTTOK is the first of the PFILL tokens, before the buffer of an APPEND (R307) -/
  feed : Bool := false
  /-- the pending tree came by a DRAFT command that no step has used (R322) -/
  fresh : Bool := false
  /-- tokens that its next records must not carry, having been posted before POS was lowered (R367) -/
  skip : Nat := 0
  /-- POS before the last commit of the sequence (R367) -/
  prevPos : BitVec 32 := 0
  /-- LASTTOK before the last commit of the sequence (R367) -/
  prevTok : BitVec 24 := 0
  /-- PFILL before the last commit of the sequence (R367) -/
  prevPfill : BitVec 32 := 0
  /-- ADDR before the last commit of the sequence (R367) -/
  prevAddr : BitVec 48 := 0
  deriving DecidableEq, Repr

/-- The power-up value of `Entry`. -/
def Entry.reset : Entry := {}

/-- What a gather granted one sequence (R315). -/
structure Grant where
  /-- sequence slot (R315) -/
  slot : Nat := 0
  /-- its generation (R305) -/
  gen : Nat := 0
  /-- tokens granted (R315) -/
  n : Nat := 0
  /-- KIND: 0 decode, 1 prefill, 2 tree (R317) -/
  kind : Nat := 0
  /-- POS before the step (R317) -/
  pos : Nat := 0
  /-- context (R317) -/
  ctx : Nat := 0
  /-- partition (R317) -/
  part : Nat := 0
  /-- the tokens supplied at finalisation (R320) -/
  toks : List (BitVec 24) := []
  /-- parents of the tree nodes (R317) -/
  parents : List Nat := []
  deriving DecidableEq, Repr

/-- The power-up value of `Grant`. -/
def Grant.reset : Grant := {}

/-- A work-list entry (R318). -/
structure WlEntry where
  /-- KID (R318) -/
  kid : BitVec 32 := 0
  /-- ENTRY (R318) -/
  entry : BitVec 32 := 0
  /-- LC_LAST (R318) -/
  last : Nat := 0
  /-- LC_FIRST (R318) -/
  first : Nat := 0
  /-- WATCHDOG (R318) -/
  watchdog : Nat := 0
  /-- CTX (R318) -/
  ctx : Nat := 0
  /-- PART (R318) -/
  part : Nat := 0
  /-- DRAFT (R318) -/
  draft : Bool := false
  /-- ARG0 to ARG7 (R318) -/
  args : List (BitVec 64) := []
  deriving DecidableEq, Repr

/-- The power-up value of `WlEntry`. -/
def WlEntry.reset : WlEntry := {}

/-- A step being gathered, built or run (R315 to R325). -/
structure StepRun where
  /-- step number (R317) -/
  num : Nat := 0
  /-- its sequence list in list order (R317) -/
  grants : List Grant := []
  /-- its work list (R319) -/
  wl : List WlEntry := []
  /-- finalised (R320) -/
  ready : Bool := false
  /-- time base at its broadcast (R385) -/
  began : Nat := 0
  /-- per core, work-list entries already started (R319) -/
  started : List (Nat × Nat) := []
  /-- completion records received (R325) -/
  ended : Nat := 0
  /-- its largest quad load (R393) -/
  qload : Nat := 0
  deriving DecidableEq, Repr

/-- The power-up value of `StepRun`. -/
def StepRun.reset : StepRun := {}

/-- A checked result record (R324). -/
structure ResRec where
  /-- slot (R324) -/
  slot : Nat := 0
  /-- positions the step adds (R324) -/
  accept : Nat := 0
  /-- NEXT (R324) -/
  next : BitVec 24 := 0
  /-- END (R324) -/
  fin : Bool := false
  /-- its token fields are read (not an inner prefill chunk) (R324) -/
  reads : Bool := true
  /-- next tree (R324) -/
  tree : List (BitVec 64) := []
  /-- new tokens to report (R325) -/
  toks : List (BitVec 24) := []
  deriving DecidableEq, Repr

/-- The power-up value of `ResRec`. -/
def ResRec.reset : ResRec := {}

/-- A step record to be posted (R325, R419). -/
structure StepRec where
  /-- the queue of the sequence (R306) -/
  queue : Nat := 0
  /-- CMDID of its SUBMIT or IMPORT (R419) -/
  cmdid : BitVec 32 := 0
  /-- STATUS (R419) -/
  status : Nat := 0
  /-- handle (R419) -/
  handle : Nat := 0
  /-- POS (R419) -/
  pos : Nat := 0
  /-- the step's new tokens (R325) -/
  toks : List (BitVec 24) := []
  deriving DecidableEq, Repr

/-- The power-up value of `StepRec`. -/
def StepRec.reset : StepRec := {}

/-- A step record of a racked sequence that waits for its seal (R325, R328). -/
structure HeldRec where
  /-- the sequence's slot (R325) -/
  slot : Nat := 0
  /-- its buddy (R376) -/
  buddy : Nat := 0
  /-- SEQ of the SEAL frame (R376) -/
  fseq : Nat := 0
  /-- the record (R325) -/
  entry : StepRec := StepRec.reset
  /-- the sequence leaves once the record is posted (R325) -/
  leave : Bool := false
  /-- no completion entry was reserved for the record: that of a sequence that leaves with a seal unacknowledged (R18) -/
  late : Bool := false
  deriving DecidableEq, Repr

/-- The power-up value of `HeldRec`. -/
def HeldRec.reset : HeldRec := {}

/-- The sequence engine (chapter 12). -/
structure SeqEng where
  /-- slots 0 to 4,095 that differ from reset (R306) -/
  table : List (Nat × Entry) := []
  /-- allocated frames f with slot, row, k (R312) -/
  frames : List (Nat × (Nat × Nat × Nat)) := []
  /-- the step in flight (R317) -/
  cur : Option StepRun := none
  /-- the step gathered and built (R315) -/
  nxt : Option StepRun := none
  /-- where the step in flight stands (R325) -/
  phase : StepPhase := .idle
  /-- the commit list: slot, FIRST, COUNT (R326) -/
  commits : List (Nat × Nat × Nat) := []
  /-- the checked result records of the step (R324) -/
  results : List ResRec := []
  /-- step number of the last commit (R341) -/
  step : Nat := 0
  /-- per pass and class, the slot after the last granted (R315) -/
  rot : List (Nat × Nat) := []
  /-- model-context retries of the step in flight (R331) -/
  retries : Nat := 0
  /-- the replica on X1 has taken over (R304) -/
  onX1 : Bool := false
  /-- live instances of the engine, 0 to 2 (R468) -/
  instances : Nat := 2
  /-- the die whose fallback variant is expanded (R330) -/
  fallback : Option Nat := none
  /-- step records held until a seal is acknowledged (R325) -/
  held : List HeldRec := []
  /-- `SAU_BARREL` faults of the step: core, slot in the TAG, status (R332) -/
  sauBad : List (Nat × Nat × Nat) := []
  /-- records of sequences that left outside a step, waiting for a free completion entry (R420) -/
  late : List StepRec := []
  /-- what the empty commit list is for: 0 none, 1 a retry, 2 a model-context fault, 3 the safe state (R329) -/
  retrying : Nat := 0
  /-- the quiet slot of the boundary is in progress (R517) -/
  quiet : Bool := false
  /-- contexts being torn down (R334) -/
  torn : List Nat := []
  /-- slots whose spill is in progress, with the region (R337) -/
  spills : List (Nat × Nat) := []
  /-- slots whose resume copy is in progress, with the region (R337) -/
  resumes : List (Nat × Nat) := []
  /-- exports in progress: slot, target module, queue (R379) -/
  exports : List (Nat × Nat × Nat) := []
  /-- commands completed later: opcode, slot or key, CMDID, queue (R307) -/
  cmdWait : List (Nat × Nat × BitVec 32 × Nat) := []
  /-- the queue that the engine visited last (at reset, so that queue 0 is the first) (R309) -/
  visit : Nat := 4095
  /-- time base at the last broadcast (R393) -/
  lastB : Nat := 0
  /-- a void event has occurred since the last broadcast (R392) -/
  voided : Bool := false
  deriving DecidableEq, Repr

/-- The power-up value of `SeqEng`. -/
def SeqEng.reset : SeqEng := {}

/-- The active plan (R421, R422). -/
structure Plan where
  /-- 32-byte plan digest (R421) -/
  digest : List Byte := []
  /-- image address given to PLAN_LOAD (R487) -/
  addr : Nat := 0
  /-- image length (R487) -/
  len : Nat := 0
  /-- the model context (R319) -/
  model : Nat := 0
  /-- layers (R421) -/
  layers : Nat := 0
  /-- head dimension code (R421) -/
  dsel : Nat := 0
  /-- KV format code (R421) -/
  fmt : Nat := 0
  /-- BPS (R311) -/
  bps : Nat := 0
  /-- DIR_ROWS (R311) -/
  dirRows : Nat := 0
  /-- STEP_TOKENS of the plan (R340) -/
  stepTok : Nat := 0
  /-- PREFILL_BUDGET of the plan (R340) -/
  prefill : Nat := 0
  /-- STEP_TOKENS of the fallback plan (R330) -/
  fbStepTok : Nat := 0
  /-- PREFILL_BUDGET of the fallback plan (R330) -/
  fbPrefill : Nat := 0
  /-- bytes of the CODE section (R422) -/
  codeLen : Nat := 0
  /-- offset of the CODE section in the image (R422) -/
  codeOff : Nat := 0
  /-- offset of the TREES section in the image (R422) -/
  treesOff : Nat := 0
  /-- offset of the fallback trees in the image (R422) -/
  fbTreesOff : Nat := 0
  /-- TEMPLATES, 1,024-bit words (R422) -/
  templates : List Nat := []
  /-- TREES, 512-bit records (R422) -/
  trees : List Nat := []
  /-- per tree, the physical address of each result line (R245) -/
  results : List (List Nat) := []
  /-- COST rows, 192-bit words (R422) -/
  costs : List Nat := []
  /-- drop ranges, physical base and length (R422) -/
  drops : List (Nat × Nat) := []
  /-- eight variants of templates (R422) -/
  fbTemplates : List (List Nat) := []
  /-- eight variants of tree records (R422) -/
  fbTrees : List (List Nat) := []
  /-- the result lines of each variant's trees (R245) -/
  fbResults : List (List (List Nat)) := []
  /-- eight variants of cost rows (R422) -/
  fbCosts : List (List Nat) := []
  /-- directory base (R311) -/
  dirBase : Nat := 0
  /-- base of the two step areas (R317) -/
  area : Nat := 0
  deriving DecidableEq, Repr

/-- The power-up value of `Plan`. -/
def Plan.reset : Plan := {}

/-- A context (R413). -/
structure Ctx where
  /-- 20-bit process identifier (R413) -/
  pasid : Nat := 0
  /-- partition ID (R413) -/
  part : Nat := 0
  /-- 00 tenant, 01 model, 11 context 0 (R443) -/
  kind : Nat := 0
  /-- physical address of the level-3 table (R413) -/
  root : Nat := 0
  /-- barrier watchdog limit, ms (R413) -/
  barrier : Nat := 0
  /-- partition frozen for migration (R443) -/
  frozen : Bool := false
  /-- torn down, ID not yet free (R430) -/
  dying : Bool := false
  /-- tokens committed, modulo 2^64 (R432) -/
  toks : Nat := 0
  /-- steps in which it had a sequence, modulo 2^64 (R432) -/
  steps : Nat := 0
  deriving DecidableEq, Repr

/-- The power-up value of `Ctx`. -/
def Ctx.reset : Ctx := {}

/-- A queue (R415, R416). -/
structure Queue where
  /-- its descriptor (R415) -/
  desc : BitVec 256 := 0
  /-- CMD_TAIL index, modulo 2^32 (R416) -/
  tail : Nat := 0
  /-- the module's read index, modulo 2^32 (R416) -/
  rd : Nat := 0
  /-- CPL_HEAD index, modulo 2^32 (R416) -/
  head : Nat := 0
  /-- completion entries written, modulo 2^32 (R419) -/
  wr : Nat := 0
  /-- completion entries reserved (R420) -/
  resv : Nat := 0
  /-- QSTATUS [0] (R416) -/
  stopped : Bool := false
  /-- QSTATUS [31:16] (R416) -/
  status : Nat := 0
  /-- the fetched command at its head, not yet completed (R435) -/
  cmd : Option (BitVec 512) := none
  /-- the head command has passed its checks and waits to be admitted (R309) -/
  posted : Bool := false
  /-- the slot for which an OPEN has been sent for the racked SUBMIT at its head (R374) -/
  slot : Option Nat := none
  deriving DecidableEq, Repr

/-- The power-up value of `Queue`. -/
def Queue.reset : Queue := {}

/-- A fence (R425). -/
structure Fence where
  /-- value (R425) -/
  value : BitVec 64 := 0
  /-- owner context (R425) -/
  owner : Nat := 0
  /-- holder contexts (R425) -/
  holders : List Nat := []
  /-- error status: 0, FENCE_ABANDONED or MODEL_FAULTED (R428) -/
  err : Nat := 0
  deriving DecidableEq, Repr

/-- The power-up value of `Fence`. -/
def Fence.reset : Fence := {}

/-- A memory object (R423). -/
structure MemObj where
  /-- base address (R423) -/
  base : Nat := 0
  /-- length (R423) -/
  len : Nat := 0
  /-- host count (R423) -/
  host : Nat := 0
  /-- contexts bound (R423) -/
  binds : List Nat := []
  deriving DecidableEq, Repr

/-- The power-up value of `MemObj`. -/
def MemObj.reset : MemObj := {}

/-- A notice waiting to be posted (R612). -/
structure Notice where
  /-- STATUS (R612) -/
  status : Nat := 0
  /-- bytes 8 to 11 (R612) -/
  subj : Nat := 0
  /-- bytes 12 to 15 (R612) -/
  b12 : Nat := 0
  /-- bytes 24 to 63 (R612) -/
  body : List Byte := []
  deriving DecidableEq, Repr

/-- The power-up value of `Notice`. -/
def Notice.reset : Notice := {}

/-- The Abius link and the shared objects (chapter 15). -/
structure AbHost where
  /-- the active plan (R11) -/
  plan : Option Plan := none
  /-- a plan load is in progress (R421) -/
  loading : Bool := false
  /-- contexts 1 to 1,023 that exist (R413) -/
  ctxs : List (Nat × Ctx) := []
  /-- tokens committed by sequences of context 0, modulo 2^64 (R432) -/
  toks0 : Nat := 0
  /-- steps in which context 0 had a sequence, modulo 2^64 (R432) -/
  steps0 : Nat := 0
  /-- queues that exist (R415) -/
  queues : List (Nat × Queue) := []
  /-- fences that exist (R425) -/
  fences : List (Nat × Fence) := []
  /-- memory objects that exist (R423) -/
  mems : List (Nat × MemObj) := []
  /-- notices waiting, oldest first (R612) -/
  notices : List Notice := []
  /-- completion entries written: queue and 64 bytes, oldest first (R419) -/
  posted : List (Nat × List Byte) := []
  /-- other bytes the module has written to companion memory: companion address and bytes, oldest first (R432) -/
  compWr : List (Nat × List Byte) := []
  /-- LINK_STATE: 0 down, 1 training, 2 up (R436) -/
  link : Nat := 0
  /-- lanes in service: 0, 8 or 16 (R436) -/
  width : Nat := 0
  /-- FSEQ of the next flit sent (R400) -/
  txSeq : Nat := 0
  /-- FSEQ expected next (R400) -/
  rxSeq : Nat := 0
  /-- last FSEQ of this side that the other side acknowledged (R400) -/
  acked : Nat := 0
  /-- successive failures of one of the companion's flits (R403) -/
  fails : Nat := 0
  /-- successive replays that the companion asked for of one flit (R403) -/
  naks : Nat := 0
  /-- the next flit sent asks for a replay (NAK) (R400) -/
  nakDue : Bool := false
  /-- credits granted to the module per class (R399) -/
  credits : List (Nat × Nat) := []
  /-- the 256 translations the Abius engine caches (R412) -/
  xlatA : List XEntry := []
  /-- the 256 translations the Span engine caches (R412) -/
  xlatS : List XEntry := []
  /-- contexts whose PROCESS_GONE is under way, with the CMDID of the command; none for a fresh re-admission or a partition reset (R430) -/
  gone : List (Nat × Option (BitVec 32)) := []
  deriving DecidableEq, Repr

/-- The power-up value of `AbHost`. -/
def AbHost.reset : AbHost := {}

/-- One Span port (R344 to R346). -/
structure PortSt where
  /-- in service (R345) -/
  up : Bool := false
  /-- enabled by bring-up (R345) -/
  enabled : Bool := false
  /-- lane groups retired (R344) -/
  retired : List Nat := []
  /-- module ID in the last HELLO (R544) -/
  seenId : Nat := 0
  /-- port it named (R544) -/
  seenPort : Nat := 0
  /-- a HELLO has been received (R346) -/
  seen : Bool := false
  /-- its topology check passed (R539) -/
  ok : Bool := false
  /-- frames received with a correct CRC, modulo 2^32 (R352) -/
  rx : Nat := 0
  /-- receive time-stamp of the neighbour's last TIME frame (R370) -/
  rxTs : Nat := 0
  /-- transmit time-stamp of the neighbour's last TIME frame (R370) -/
  nbTs : Nat := 0
  /-- best grandmaster the neighbour knows (R370) -/
  gmId : Nat := 0
  /-- its priority (R370) -/
  gmPrio : Nat := 0
  /-- hops to it (R370) -/
  gmHops : Nat := 0
  /-- measured offset from the neighbour, ns (R370) -/
  offset : Int := 0
  /-- 64-byte credits the module holds for the neighbour, by class 2 to 4 (R351) -/
  credits : List (Nat × Nat) := []
  /-- frames that wait to leave, oldest first (R351) -/
  queue : List SpanFrame := []
  /-- 64-byte credits to be returned to the neighbour, by class 2 to 4 (R352) -/
  owed : List (Nat × Nat) := []
  /-- replay buffer: frames sent that the neighbour has not reported received, oldest first (R349) -/
  buf : List SpanFrame := []
  /-- frames that the neighbour has reported received since the port entered service, modulo 2^32 (R352) -/
  base : Nat := 0
  deriving DecidableEq, Repr

/-- The power-up value of `PortSt`. -/
def PortSt.reset : PortSt := {}

/-- A stream of this module to one destination (R350). -/
structure StreamTx where
  /-- SEQ of the next frame, modulo 2^24 (R350) -/
  next : Nat := 0
  /-- frames kept until an ACK covers them, oldest first (R350) -/
  unacked : List SpanFrame := []
  /-- frames that wait until fewer than 32,767 are unacknowledged, oldest first (R350) -/
  waiting : List SpanFrame := []
  deriving DecidableEq, Repr

/-- The power-up value of `StreamTx`. -/
def StreamTx.reset : StreamTx := {}

/-- A stream from one source module (R350). -/
structure StreamRx where
  /-- last performed SEQ, modulo 2^24 (R350) -/
  last : Nat := 16777215
  /-- frames accepted and held until their turn (R350) -/
  heldF : List SpanFrame := []
  /-- frames refused, modulo 2^32 (R352) -/
  refused : Nat := 0
  /-- one or more refused since the last ACK (R352) -/
  newRef : Bool := false
  deriving DecidableEq, Repr

/-- The power-up value of `StreamRx`. -/
def StreamRx.reset : StreamRx := {}

/-- A rack held for another module (R374 to R377). -/
structure Rack where
  /-- origin module (R352) -/
  origin : Nat := 0
  /-- slot at the origin (R352) -/
  slot : Nat := 0
  /-- generation at the origin (R352) -/
  gen : Nat := 0
  /-- frames reserved (R374) -/
  resv : Nat := 0
  /-- row, barrel index, origin frame (R374) -/
  rows : List (Nat × Nat × Nat) := []
  /-- origin frame to rack frame (R374) -/
  frames : List (Nat × Nat) := []
  /-- the 576-byte rack record, empty before the first seal (R376) -/
  record : List Byte := []
  /-- the module that adopted it (R380) -/
  adopter : Option Nat := none
  deriving DecidableEq, Repr

/-- The power-up value of `Rack`. -/
def Rack.reset : Rack := {}

/-- A reduce-forward line in the ring (R361). -/
structure RingLine where
  /-- reduction ID (R361) -/
  rid : Nat := 0
  /-- line index (R361) -/
  line : Nat := 0
  /-- this module's own line for the present ring (R361) -/
  own : Option (BitVec 768) := none
  /-- partial received from the + side (R361) -/
  plus : Option (BitVec 768) := none
  /-- partial received from the - side (R361) -/
  minus : Option (BitVec 768) := none
  /-- 0 the X ring, 1 the Y ring (R361) -/
  ring : Nat := 0
  /-- the spread sum (R361) -/
  sum : Option (BitVec 768) := none
  /-- the last ring is done (R362) -/
  final : Bool := false
  deriving DecidableEq, Repr

/-- The power-up value of `RingLine`. -/
def RingLine.reset : RingLine := {}

/-- Span ports, collectives and racking (chapter 13). -/
structure Span where
  /-- ports S0 to S3 (R342) -/
  ports : List (Nat × PortSt) := []
  /-- streams by destination module (R350) -/
  tx : List (Nat × StreamTx) := []
  /-- streams by source module (R350) -/
  rx : List (Nat × StreamRx) := []
  /-- frames sent, with the port, oldest first (R351) -/
  out : List (Nat × SpanFrame) := []
  /-- flooded frames forwarded in the last second: type, SRC, SEQ, and the time base then (R352) -/
  seen : List (Nat × Nat × Nat × Nat) := []
  /-- SEQ of this module's next flooded frame (R352) -/
  floodSeq : Nat := 0
  /-- the job hold lasts (R366) -/
  hold : Bool := false
  /-- job members declared lost (R365) -/
  lost : List Nat := []
  /-- members that this job hold has lost (R367) -/
  gone : Nat := 0
  /-- modules that have joined in this job hold, their imports complete (R367) -/
  came : List Nat := []
  /-- a job table has been committed since the last loss of this job hold (R367) -/
  tabled : Bool := false
  /-- this module takes a place in the job that it had not, or lost (R367) -/
  replacing : Bool := false
  /-- the last plan digest received from each module of the job (R12) -/
  digests : List (Nat × List Byte) := []
  /-- a neighbour's digest differs: the module keeps out of the job (R12) -/
  mismatch : Bool := false
  /-- reduce-forward lines in progress (R361) -/
  ring : List RingLine := []
  /-- RED frames for the next step, held (R364) -/
  early : List SpanFrame := []
  /-- racks held for other modules (R374) -/
  racks : List Rack := []
  /-- opens deferred: origin, slot, generation, frames (R374) -/
  deferred : List (Nat × Nat × Nat × Nat) := []
  /-- opens awaited: slot, buddy, result (3 none yet, 0 granted, 1 refused, 2 deferred) (R374) -/
  opens : List (Nat × Nat × Nat) := []
  /-- seals awaiting ACK: buddy, SEQ, slot, POS (R376) -/
  seals : List (Nat × Nat × Nat × Nat) := []
  /-- kernel seals awaiting ACK: target, SEQ, ACKADDR, ACKVAL (R358) -/
  sealReq : List (Nat × Nat × Nat × Nat) := []
  /-- imports in progress: slot, buddy, origin (R380) -/
  imports : List (Nat × Nat × Nat) := []
  /-- imports: slot, origin frame, local frame (R380) -/
  xmap : List (Nat × (Nat × Nat)) := []
  /-- sequences of this module that fetch their KV again from their buddy: slot, and the state it returns to (R313) -/
  returns : List (Nat × SeqState) := []
  /-- FREQ: source to version, request, effective step (R368) -/
  versions : List (Nat × (Nat × Nat × Nat)) := []
  /-- version of this member's FREQ frames (R507) -/
  myVersion : Nat := 0
  /-- Span window base in force (R357) -/
  wbase : Nat := 0
  /-- Span window length in force (R357) -/
  wlen : Nat := 0
  /-- rack area base in force (R373) -/
  rbase : Nat := 0
  /-- rack area length in force (R373) -/
  rlen : Nat := 0
  /-- RACK_SLOTS in force (R384) -/
  rackSlots : Nat := 4096
  /-- job table in force: ID, NX, NY, IX, IY, MX, PX, MY, PY (R359) -/
  job : List Nat := [0, 1, 1, 0, 0, 0, 0, 0, 0]
  /-- committed positions received in STEP frames: handle, POS (R367) -/
  steps : List (Nat × Nat) := []
  /-- buddies found lost, to be dropped at the next commit point (R378) -/
  buddyGone : List Nat := []
  /-- time base at the last accepted TSYNC edge (R604) -/
  tsyncAt : Option Nat := none
  deriving DecidableEq, Repr

/-- The power-up value of `Span`. -/
def Span.reset : Span := {}

/-- A partition's committed attributes (R438). -/
structure Part where
  /-- SEQ_MIN (R438) -/
  seqMin : Nat := 0
  /-- SEQ_MAX (R438) -/
  seqMax : Nat := 0
  /-- BARREL_MIN (R438) -/
  barrelMin : Nat := 0
  /-- carve-outs: base GiB, length GiB (R438) -/
  carves : List (Nat × Nat) := []
  /-- a PART_RESET is under way (R444) -/
  resetting : Bool := false
  /-- the reset has freed the memory objects in the carve-outs (R444) -/
  freed : Bool := false
  /-- bytes of carve-outs zeroed by the reset (R444) -/
  zeroed : Nat := 0
  deriving DecidableEq, Repr

/-- The power-up value of `Part`. -/
def Part.reset : Part := {}

/-- Migration (R446 to R452). -/
structure Mig where
  /-- MIG_STATE (R446) -/
  state : Nat := 0
  /-- dirty logging (R448) -/
  logging : Bool := false
  /-- granules that the pass in progress has saved (R449) -/
  saved : List Nat := []
  /-- the records that the pass in progress has written (R450) -/
  stream : List Byte := []
  /-- how many they are (R451) -/
  count : Nat := 0
  /-- the pass in progress has stopped for want of room (R449) -/
  full : Bool := false
  /-- dirty granules, device address div 65,536 (R448) -/
  dirty : List Nat := []
  /-- a freeze waits for the next commit point (R447) -/
  freezing : Bool := false
  /-- number of the next pass (R450) -/
  pass : Nat := 0
  /-- a pass in progress (true FINAL) (R449) -/
  running : Option Bool := none
  /-- PASS last applied by RESTORE (R452) -/
  applied : Option Nat := none
  /-- BARREL keys restored and their frames (R452) -/
  chunks : List (Nat × Nat) := []
  deriving DecidableEq, Repr

/-- The power-up value of `Mig`. -/
def Mig.reset : Mig := {}

/-- Partitions and migration (chapter 16). -/
structure Parts where
  /-- partitions 1 to 63 that exist (R437) -/
  parts : List (Nat × Part) := []
  /-- migration state (R446) -/
  mig : Mig := Mig.reset
  deriving DecidableEq, Repr

/-- The power-up value of `Parts`. -/
def Parts.reset : Parts := {}

/-- A fault report on its way to the collector (R462). -/
structure Report where
  /-- fault code (R10) -/
  code : BitVec 16 := 0
  /-- context concerned (R460) -/
  ctx : Nat := 0
  /-- partition concerned (R460) -/
  part : Nat := 0
  /-- LOCKIND (R461) -/
  lockind : Nat := 0
  /-- LOC (R461) -/
  loc : Nat := 0
  /-- DETAIL (R460) -/
  detail : BitVec 64 := 0
  /-- time base at detection (R460) -/
  time : BitVec 64 := 0
  /-- the fault was injected (R479) -/
  inj : Bool := false
  /-- raised against the model context (R464) -/
  model : Bool := false
  deriving DecidableEq, Repr

/-- The power-up value of `Report`. -/
def Report.reset : Report := {}

/-- A fault record (R460). -/
structure Rec where
  /-- DETAIL (R460) -/
  detail : BitVec 64 := 0
  /-- TIME (R460) -/
  time : BitVec 64 := 0
  /-- CODE (R460) -/
  code : BitVec 16 := 0
  /-- NUM (R460) -/
  num : BitVec 12 := 0
  /-- CAUSE (R460) -/
  cause : BitVec 12 := 0
  /-- REPEAT (R460) -/
  repeats : BitVec 16 := 0
  /-- INJ (R460) -/
  inj : Bool := false
  /-- ESC (R460) -/
  esc : Bool := false
  /-- UNH (R460) -/
  unh : Bool := false
  /-- ACK (R460) -/
  ack : Bool := false
  /-- CTX (R460) -/
  ctx : BitVec 10 := 0
  /-- PART (R460) -/
  part : BitVec 6 := 0
  /-- LOCKIND (R460) -/
  lockind : BitVec 4 := 0
  /-- LOC (R460) -/
  loc : BitVec 20 := 0
  /-- its escalation timer runs (R464) -/
  timer : Bool := false
  /-- time base when it was opened (R462) -/
  opened : Nat := 0
  /-- raised against the model context (R464) -/
  model : Bool := false
  deriving DecidableEq, Repr

/-- The power-up value of `Rec`. -/
def Rec.reset : Rec := {}

/-- The fault collector (chapter 17). -/
structure Faults where
  /-- reports sent and not yet received, oldest first (R462) -/
  reports : List Report := []
  /-- the last 1,024 records, oldest first (R463) -/
  recs : List Rec := []
  /-- NUM of the newest record; 0 before the first (R483) -/
  lastNum : BitVec 12 := 0
  /-- flash fault log, newest first, at most 64 (R463) -/
  flash : List (List Byte) := []
  /-- the module is in the safe state (R469) -/
  safe : Bool := false
  /-- 4 while `SAFE_REQUESTED` holds the safe state (R468) -/
  causes : List Nat := []
  /-- F4 causes holding the safe state: row of R468 × 65536 + code, and the record NUM whose acknowledgement clears it (R470) -/
  f4 : List (Nat × Nat) := []
  /-- time of the last F3 or F4 fault (R470) -/
  lastF34 : Nat := 0
  /-- times of automatic exits in the last 24 h (R471) -/
  exits : List Nat := []
  /-- recovery counter (R471) -/
  recovery : BitVec 32 := 0
  /-- latched state of R471 (R471) -/
  latched : Bool := false
  /-- the next exit is a service exit (R470) -/
  svcExit : Bool := false
  /-- replacement flag (R465) -/
  replace : Bool := false
  /-- the hardware latch of R476 has acted (R476) -/
  hwLatch : Bool := false
  /-- dies out of service (LOC numbering) (R483) -/
  diesOut : List Nat := []
  /-- dies declared lost (R490) -/
  diesLost : List Nat := []
  /-- dies ready and waiting for the unfold (R490) -/
  diesBack : List Nat := []
  /-- die and time of its last rejoin (R490) -/
  rejoined : List (Nat × Nat) := []
  /-- times of model-context faults in the last 60 s (R468) -/
  modelTimes : List Nat := []
  /-- a model-context fault being handled (R488) -/
  modelFault : Option (BitVec 16) := none
  /-- a weight reload is due (R488) -/
  reload : Bool := false
  /-- logical cores marked for retirement (R466) -/
  retiring : List Nat := []
  /-- collector cores that dissented, with the time (R474) -/
  dissent : List (Nat × Nat) := []
  /-- collector cores removed, numbered as LOC of LOCKIND 12 (R474) -/
  removed : List Nat := []
  /-- the active collector instance is on X1 (R474) -/
  activeX1 : Bool := false
  /-- a standby instance exists (R475) -/
  standby : Bool := true
  /-- armed injection: target, address, mask, when (R477) -/
  injArmed : Option (Nat × Nat × Nat × Nat) := none
  /-- INJ_STATE (R484) -/
  injState : Nat := 0
  /-- FAULT_N driven low (R465) -/
  faultN : Bool := false
  deriving DecidableEq, Repr

/-- The power-up value of `Faults`. -/
def Faults.reset : Faults := {}

/-- One power feed (R494). -/
structure Feed where
  /-- connected (R494) -/
  on : Bool := true
  /-- reversed (R494) -/
  reversed : Bool := false
  /-- between 36 and 38 V (R494) -/
  low : Bool := false
  /-- fuse trips since power was applied, 0 to 2 (R494) -/
  trips : Nat := 0
  /-- input switch opened for overvoltage (R494) -/
  overvolt : Bool := false
  /-- the electronic fuse is open (R494) -/
  fuse : Bool := false
  deriving DecidableEq, Repr

/-- The power-up value of `Feed`. -/
def Feed.reset : Feed := {}

/-- Throttle state of one compute die (R502). -/
structure Throt where
  /-- level asked by sustained droop (R503) -/
  sustained : Nat := 0
  /-- level asked by the current and power limits (R503) -/
  current : Nat := 0
  /-- level asked by a short tile rail (R503) -/
  tile : Nat := 0
  /-- level asked by temperature (R503) -/
  temp : Nat := 0
  /-- level asked by cap lag (R511) -/
  cap : Nat := 0
  /-- present stretch, eighths of a period (R501) -/
  stretch : Nat := 0
  deriving DecidableEq, Repr

/-- The power-up value of `Throt`. -/
def Throt.reset : Throt := {}

/-- Power, clocks and ageing (chapter 18). -/
structure Power where
  /-- feed A (R494) -/
  feedA : Feed := Feed.reset
  /-- feed B (R494) -/
  feedB : Feed := Feed.reset
  /-- the power-loss sequence runs (R495) -/
  lossSeq : Bool := false
  /-- the regulators are on (R495) -/
  regsOn : Bool := false
  /-- compute-die arithmetic clocks run (R495) -/
  arith : Bool := false
  /-- intermediate-bus phases lost: bank, phase (R497) -/
  phases : List (Nat × Nat) := []
  /-- tile phases out of service (R523) -/
  tileLost : Nat := 0
  /-- PLLs in holdover (R500) -/
  holdover : Bool := false
  /-- per compute die (R502) -/
  throt : List (Nat × Throt) := []
  /-- agreed frequency in force, MHz (R524) -/
  agreed : Nat := 4000
  /-- this member's request, MHz (R509) -/
  request : Nat := 4000
  /-- cap request, MHz; 0 none (R510) -/
  capReq : Nat := 0
  /-- request of R506, MHz; 0 none (R506) -/
  longReq : Nat := 0
  /-- a cap written and not yet taken (R511) -/
  capPending : Option Nat := none
  /-- POWER_CAP taken, W; 0 none (R510) -/
  cap : Nat := 0
  /-- effective step at which the cap-lag throttle ends (R511) -/
  capStep : Nat := 0
  /-- CLOCK_MODE in force (R508) -/
  mode : Nat := 0
  /-- FREQ_LIMIT in force (R509) -/
  limit : Nat := 4000
  /-- the request changed since it was flooded (R368) -/
  freqDirty : Bool := false
  /-- core voltage per die, 0.1 mV; unlisted 6500 (R514) -/
  vcore : List (Nat × Nat) := []
  /-- lowest logical-core slack per die, ps; unlisted 12 (R513) -/
  slack : List (Nat × Int) := []
  /-- hottest sensor per die, deg C (R525) -/
  temps : List (Nat × Int) := []
  /-- the throttle rose above 0 during the step in flight (R505) -/
  throttledStep : Bool := false
  /-- the module stays off until the next assertion of `PWR_EN` (R497) -/
  stayOff : Bool := false
  /-- stretch trips counted at the last telemetry tick (R591) -/
  tripsAt : Nat := 0
  deriving DecidableEq, Repr

/-- The power-up value of `Power`. -/
def Power.reset : Power := {}

/-- The map of one compute die (R534). -/
structure DieMap where
  /-- physical cores defective or retired, 16 × i + core (R531) -/
  bad : List Nat := []
  /-- logical core ID to the physical core that serves it, where it differs from the map of R534 (R466) -/
  moved : List (Nat × Nat) := []
  deriving DecidableEq, Repr

/-- The power-up value of `DieMap`. -/
def DieMap.reset : DieMap := {}

/-- Bring-up (chapter 19). -/
structure Bring where
  /-- PWR_EN asserted (R526) -/
  pwrEn : Bool := false
  /-- ADDR[5:0] latched (R526) -/
  straps : Nat := 0
  /-- rows of R527 completed, 0 to 15 (R527) -/
  row : Nat := 0
  /-- BRING_STATE (R544) -/
  state : Nat := 0
  /-- ms at which each row completed (R544) -/
  times : List Nat := []
  /-- new defects per compute die (R544) -/
  newDef : List (Nat × Nat) := []
  /-- defect and logical maps per compute die (R534) -/
  maps : List (Nat × DieMap) := []
  /-- unusable dies (R532) -/
  unusable : List Nat := []
  /-- the topology check has passed (R539) -/
  topoOk : Bool := false
  /-- REFCLK_CORE present (R527) -/
  refclk : Bool := true
  /-- readable flash devices (R530) -/
  flashOk : List Nat := [0, 1]
  /-- sequence number of the factory section (R530) -/
  recFactory : Nat := 0
  /-- sequence number of the in-service section (R530) -/
  recService : Nat := 0
  /-- die under the stand-alone die test (R538) -/
  testing : Option Nat := none
  /-- cask positions that the vintage record lists as defective or retired (R531) -/
  recCasks : List Nat := []
  /-- routers that the vintage record lists as defective (R531) -/
  recRouters : List (Nat × Nat) := []
  deriving DecidableEq, Repr

/-- The power-up value of `Bring`. -/
def Bring.reset : Bring := {}

/-- A firmware image slot (R546). -/
structure Image where
  /-- 16-bit security version (R546) -/
  svn : Nat := 0
  /-- 32-bit version (R546) -/
  version : Nat := 0
  /-- the image (R546) -/
  bytes : List Byte := []
  deriving DecidableEq, Repr

/-- The power-up value of `Image`. -/
def Image.reset : Image := {}

/-- Identity, boot, attestation and the alarm (chapter 20). -/
structure Sec where
  /-- key epoch (R551) -/
  epoch : BitVec 32 := 0
  /-- MIN_SVN (R547) -/
  minSvn : Nat := 0
  /-- SVN of the running image (R547) -/
  runSvn : Nat := 0
  /-- version of the running image (R546) -/
  runVersion : Nat := 0
  /-- image stored in the inactive slots (R548) -/
  inactive : Option Image := none
  /-- a verified update waits for the next step boundary (R548) -/
  update : Bool := false
  /-- measurement registers 1 to 6, 32 bytes each; unlisted zero (R549) -/
  meas : List (Nat × List Byte) := []
  /-- certificate chain of slot 0 (R552) -/
  chain : Option (List Byte) := none
  /-- SPDM connection state of the CAN FD path: 0 none, 1 version, 2 capabilities, 3 algorithms (R554) -/
  spdmC : Nat := 0
  /-- the same for the mailbox (R554) -/
  spdmM : Nat := 0
  /-- SPDM_RESPONSE of the CAN FD path (R554) -/
  rspC : List Byte := []
  /-- SPDM_RESPONSE of the mailbox (R554) -/
  rspM : List Byte := []
  /-- active alarm sources (R557) -/
  active : List Nat := []
  /-- the alarm response in force (R558) -/
  inForce : Option Nat := none
  /-- zeroing of response 2 not complete (R558) -/
  zeroing : Bool := false
  /-- response 3 waits to advance the key epoch (R558) -/
  advance : Bool := false
  /-- debug level 2 opens once zeroing has completed (R562) -/
  opening : Bool := false
  /-- debug level (R560) -/
  debug : Nat := 0
  /-- cores halted through the debug port (R560) -/
  halted : List Nat := []
  /-- halted cores that may execute one instruction (R560) -/
  single : List Nat := []
  /-- DEBUG_NONCE (R561) -/
  nonce : List Byte := []
  /-- rejected tokens in this power-up (R561) -/
  denied : Nat := 0
  /-- module serial (R561) -/
  serial : List Byte := []
  /-- key epoch saturated (R553) -/
  saturated : Bool := false
  deriving DecidableEq, Repr

/-- The power-up value of `Sec`. -/
def Sec.reset : Sec := {}

/-- An open segmented transfer of a path (R573). -/
structure Xfer where
  /-- a download (write) (R573) -/
  write : Bool := false
  /-- index (R573) -/
  idx : Nat := 0
  /-- subindex (R573) -/
  sub : Nat := 0
  /-- TID (R571) -/
  tid : Nat := 0
  /-- total length S (R573) -/
  total : Nat := 0
  /-- bytes received, or to be sent (R573) -/
  data : List Byte := []
  /-- next segment number (R573) -/
  seq : Nat := 0
  /-- segments acknowledged (R573) -/
  acked : Nat := 0
  /-- resends of the present segment (R573) -/
  fails : Nat := 0
  deriving DecidableEq, Repr

/-- The power-up value of `Xfer`. -/
def Xfer.reset : Xfer := {}

/-- A message the module sends on a dictionary path (R571, R572). -/
structure DtpMsg where
  /-- path (R565) -/
  path : Path := .can
  /-- CMD (R572) -/
  cmd : Nat := 0
  /-- TID, or SEQ of a segment or ACK (R571) -/
  tid : Nat := 0
  /-- index (R571) -/
  idx : Nat := 0
  /-- subindex (R571) -/
  sub : Nat := 0
  /-- data (R571) -/
  data : List Byte := []
  deriving DecidableEq, Repr

/-- The power-up value of `DtpMsg`. -/
def DtpMsg.reset : DtpMsg := {}

/-- The object dictionary (chapter 21). -/
structure Dict where
  /-- committed values keyed 256 × index + subindex that differ from the Reset column, little-endian numbers (R565) -/
  vals : List (Nat × Nat) := []
  /-- staged values of agreement-group members (R583) -/
  staged : List (Nat × Nat) := []
  /-- claimed groups by commit entry (R583) -/
  claims : List (Nat × Path) := []
  /-- access level of the CAN FD path (R567) -/
  levelC : Nat := 1
  /-- access level of the mailbox path (R567) -/
  levelM : Nat := 1
  /-- open transfer of the CAN FD path (R573) -/
  xferC : Option Xfer := none
  /-- open transfer of the mailbox path (R573) -/
  xferM : Option Xfer := none
  /-- messages sent, oldest first (R572) -/
  out : List DtpMsg := []
  /-- MB_REQUEST words (R579) -/
  mbReq : List (Nat × BitVec 64) := []
  /-- MB_RESPONSE (R579) -/
  mbRsp : List Byte := []
  /-- MB_STATE (R579) -/
  mbState : BitVec 64 := 0
  /-- the CAN FD path sends nothing more (address clash) (R578) -/
  silent : Bool := false
  /-- CAN FD controller error passive (R589) -/
  passive : Bool := false
  /-- CAN FD controller in bus-off (R578) -/
  busOff : Bool := false
  /-- flash writes in progress: path, TID, entry, values (R570) -/
  flashWait : List (Path × Nat × Nat × List (Nat × Nat)) := []
  /-- heartbeats and notices sent on CAN FD, oldest first (R577) -/
  beats : List (List Byte) := []
  /-- telemetry samples latched and not yet transferred (R591) -/
  samples : List (List Byte) := []
  deriving DecidableEq, Repr

/-- The power-up value of `Dict`. -/
def Dict.reset : Dict := {}

/-- The whole module. -/
structure State where
  /-- the commands that are waiting, first in, first out (the block's queue) -/
  pending : List Instr := []
  /-- HBM bytes by storage address, 1,024 GiB; rising addresses, none zero; unlisted reads 0 (R255) -/
  mem : List Cell := []
  /-- logical cores 0 to 79,999 that differ from reset (R8) -/
  cores : List (Nat × Core) := []
  /-- requests in flight, oldest first (R152) -/
  reqs : List Req := []
  /-- the model's own: number of the next request, copy or item -/
  nextTag : Nat := 0
  /-- the model's own: accesses that casks have handed on to HBM, or made wait at a home -/
  accepts : Nat := 0
  /-- for each 4-byte word, by its number, the agent of its last write of at most 8 bytes and the scope of the release that the write carried (R159) -/
  writers : List (Nat × (Party × Option Nat)) := []
  /-- the cellar (R177) -/
  cellar : Cellar := Cellar.reset
  /-- coherence (R203) -/
  coh : Coh := Coh.reset
  /-- the trellis (R229) -/
  trellis : Trellis := Trellis.reset
  /-- stacked memory (R255) -/
  hbm : Hbm := Hbm.reset
  /-- stack attention requests in flight or queued, in arrival order (R287) -/
  sau : List SauReq := []
  /-- the sequence engine (R304) -/
  seq : SeqEng := SeqEng.reset
  /-- Abius link and shared objects (R397) -/
  host : AbHost := AbHost.reset
  /-- Span and racking (R342) -/
  span : Span := Span.reset
  /-- partitions and migration (R437) -/
  parts : Parts := Parts.reset
  /-- the fault collector (R456) -/
  faults : Faults := Faults.reset
  /-- power and clocks (R493) -/
  power : Power := Power.reset
  /-- bring-up (R526) -/
  bring : Bring := Bring.reset
  /-- security (R546) -/
  sec : Sec := Sec.reset
  /-- the object dictionary (R565) -/
  dict : Dict := Dict.reset
  /-- the time base, ns (R498) -/
  time : BitVec 64 := 0
  /-- the model's own: how many free values have been drawn -/
  freeCtr : Nat := 0
  deriving DecidableEq, Repr

/-- The module right after power-up: `PWR_EN` low, every field at the value the spec states for reset, and memory with
nothing listed. -/
def State.reset : State := {}

/-- Why the machine stops with a fault. -/
inductive Fault where
  /-- a command names a core, die, stack, port or other part that the module does not have (R2, R8); raised by every
  command that carries such a number. Safe: no such part exists, so no behaviour of hardware is left out. -/
  | noSuchPart (kind : String) (n : Nat)
  deriving DecidableEq, Repr

/-- Why the machine refuses a command. -/
inductive Refusal where
  /-- the command has no meaning in this model; raised by an arm of `exec` only. Safe: nothing can be proved of it. -/
  | notModelled (mnemonic : String)
  deriving DecidableEq, Repr

/-- The three outcomes of a command on this state. -/
abbrev Res := Host.Outcome State Fault Refusal

end Sys2Proof.Machine
end

