-- ==== Sys2Proof/Machine/Atomics.lean ====
section
/-!
DEFINITION. Machine/Atomics.lean: the atomic operations at a home (R139 to R141, R165 to R169).
-/

namespace Sys2Proof.Machine

/-- The new value of one atomic step on a `size`-byte location; codes are those of R139. -/
def atomStep (op size : Nat) (old x cmp : BitVec 64) : BitVec 64 :=
  let n := 8 * size
  let sg := fun (v : BitVec 64) => sextN v.toNat n
  let r := match op with
    | 0 => old + x
    | 1 => old &&& x
    | 2 => old ||| x
    | 3 => old ^^^ x
    | 4 => if sg x < sg old then x else old
    | 5 => if sg old < sg x then x else old
    | 6 => if x.toNat % 2 ^ n < old.toNat % 2 ^ n then x else old
    | 7 => if old.toNat % 2 ^ n < x.toNat % 2 ^ n then x else old
    | 8 => x
    | 9 => if old.toNat % 2 ^ n = cmp.toNat % 2 ^ n then x else old
    | _ => (f32add (old.setWidth 32) (x.setWidth 32)).setWidth 64
  BitVec.ofNat 64 (r.toNat % 2 ^ n)

/-- The bytes of a location after a combined atomic, its operands applied in order, and the value each thread receives:
the one immediately before its own operand (R141). Code 11 adds FP32 terms to a solera slot. -/
def atomRun (op size : Nat) (eb : BitVec 10) : List Byte → List AtomOp → List Byte × List (Nat × BitVec 64)
  | d, [] => (d, [])
  | d, o :: rest =>
    let old := BitVec.ofNat 64 (num8 d 0 (min size 8))
    let d' :=
      if op = 11 then ((Solera.ofBytes d).add (Solera.term (ebase eb) (FV.of32 (o.operand.setWidth 32)))).bytes
      else leBytes (atomStep op size old o.operand o.compare).toNat size
    let r := atomRun op size eb d' rest
    (r.1, (o.thread, old) :: r.2)

end Sys2Proof.Machine
end

