-- ==== Sys2Proof/Machine/Ops.lean ====
section
/-!
DEFINITION. Machine/Ops.lean: the shared operations over the state: parts and their numbers, dictionary values, fault
reports, kernels that end by a fault, requests, translation, homes and storage addresses.
-/

namespace Sys2Proof.Machine

/-! ### Parts -/

/-- Act on part `n` of a kind that has `lim` members. -/
def onPart (kind : String) (lim n : Nat) (t : State) : Res :=
  if n < lim then .next t else .fault (.noSuchPart kind n)

/-- Act on a logical core (R2). -/
def onCore (c : Nat) (t : State) : Res := onPart "core" 80000 c t

/-- A step that takes effect only where its condition holds; otherwise it finds nothing to do (assumption 5). -/
def whenever (b : Bool) (s t : State) : State := if b then t else s

/-- The state of logical core `c`. -/
def State.core (s : State) (c : Nat) : Core := get s.cores c Core.reset

/-- Replace the state of logical core `c`. -/
def State.setCore (s : State) (c : Nat) (k : Core) : State := { s with cores := put s.cores c k }

/-- Change the state of logical core `c`. -/
def State.onCoreState (s : State) (c : Nat) (f : Core → Core) : State := s.setCore c (f (s.core c))

/-! ### Free values and time -/

/-- The next free value. -/
def State.freeVal (s : State) : BitVec 64 := Config.free s.freeCtr
/-- The next free byte string of `n` bytes. -/
def State.freeStr (s : State) (n : Nat) : List Byte := slice (Config.freeBytes s.freeCtr) 0 n
/-- A free value has been drawn. -/
def State.drew (s : State) : State := { s with freeCtr := s.freeCtr + 1 }
/-- Time passes by an amount that nothing constrains (assumption 3). -/
def State.tick (s : State) : State :=
  { s with time := s.time + BitVec.ofNat 64 (Config.elapsed s.freeCtr), freeCtr := s.freeCtr + 1 }
/-- The time base in ns (R371). -/
def State.now (s : State) : Nat := s.time.toNat

/-! ### Dictionary values kept for other units (R565) -/

/-- The key of a dictionary entry. -/
def odKey (idx sub : Nat) : Nat := 256 * idx + sub

/-- Reset values of dictionary entries that are not zero (the Reset columns; flash values: assumption 6). -/
def odReset (k : Nat) : Nat :=
  let sub := k % 256
  match k / 256 with
  | 0x1000 => if sub = 1 then 1 else if sub = 3 then 0xB0 else 0
  | 0x1100 => if sub = 0x22 then 100 else if sub = 0x23 then 1 else if sub = 0x25 then 1 else 0
  | 0x2100 => if sub = 2 ∨ sub = 4 ∨ sub = 5 then 4000 else if sub = 9 then 20000 else if sub = 0xB then 30 else 0
  | 0x2200 => if sub = 1 then 100 else 0
  | 0x2300 => if sub = 2 then 12 else 0
  | 0x3000 =>
    if sub = 1 then 1000 else if sub = 2 then 100 else if sub = 3 ∨ sub = 5 then 3 else if sub = 6 then 250
    else if sub = 8 then 16 else if sub = 9 then 64 else 0
  | 0x4000 =>
    if sub = 1 ∨ sub = 2 then 12 else if sub = 0x0C then 4 else if 0x09 ≤ sub ∧ sub ≤ 0x0F then 16
    else if sub = 0x10 then 20 else if sub = 0x11 then 1000000 else if sub = 0x12 then 40
    else if sub = 0x13 then 4 else 0
  | 0x4200 => if sub = 1 then 50 else if sub = 2 then 5000 else if sub = 5 then 1 else 0
  | 0x5000 =>
    if sub = 3 then 4 else if sub = 6 then 1030792151040 else if sub = 8 then 16 else if sub = 0xA then 100
    else if sub = 0xC then 8 else 0
  | 0x6000 => if sub = 4 then 64 else if 0x10 ≤ sub ∧ sub ≤ 0x1D then 0x00020707 else 0
  | 0x6100 => if sub = 6 ∨ sub = 7 then 1 else 0
  | 0x6200 => if sub = 4 then 4096 else if sub = 5 then 10 else if sub = 6 then 200 else 0
  | 0x7100 => if sub = 8 then 16 else 0
  | 0x7200 =>
    if sub = 4 then 16384 else if sub = 5 then 4096 else if sub = 6 then 256 else if sub = 7 then 2048
    else if sub = 8 then 64 else if sub = 9 then 16 else if sub = 0xA then 1 else 0
  | 0x8000 => if sub = 0x10 then 2 else if 0x11 ≤ sub ∧ sub ≤ 0x15 then 1 else 0
  | 0x9000 => if sub = 0x11 then 10 else 0
  | _ => 0

/-- The committed value of a dictionary entry that is stored. -/
def State.od (s : State) (idx sub : Nat) : Nat :=
  (find? s.dict.vals (odKey idx sub)).getD (odReset (odKey idx sub))
/-- Store a dictionary value. -/
def State.setOd (s : State) (idx sub v : Nat) : State :=
  { s with dict := { s.dict with vals := put s.dict.vals (odKey idx sub) v } }
/-- Add to a 64-bit count, modulo 2^64. -/
def State.bump (s : State) (idx sub n : Nat) : State := s.setOd idx sub ((s.od idx sub + n) % 2 ^ 64)
/-- Add to the `i`-th 64-bit count of an entry that holds several, modulo 2^64. -/
def State.bumpLane (s : State) (idx sub i n : Nat) : State :=
  let v := s.od idx sub
  let old := v / 2 ^ (64 * i) % 2 ^ 64
  s.setOd idx sub (v - old * 2 ^ (64 * i) + (old + n) % 2 ^ 64 * 2 ^ (64 * i))
/-- Set a sticky bit (R480). -/
def State.sticky (s : State) (idx sub b : Nat) : State := s.setOd idx sub (s.od idx sub ||| 2 ^ b)

/-! ### The logical-to-physical map (R534) -/

/-- The `k`-th number, from 0, that a rising list does not contain. -/
def skip (k : Nat) : List Nat → Nat
  | [] => k
  | b :: r => if b ≤ k then skip (k + 1) r else k

/-- Insert into a rising list without repeats. -/
def insertUp (x : Nat) : List Nat → List Nat
  | [] => [x]
  | a :: r => if x < a then x :: a :: r else if x = a then a :: r else a :: insertUp x r

/-- A rising list without repeats of the members of a list. -/
def sortUp (l : List Nat) : List Nat := l.foldr insertUp []

/-- The map of a compute die. -/
def State.dieMap (s : State) (d : Nat) : DieMap := get s.bring.maps d DieMap.reset

/-- Good physical cores, 16 × i + core, of the plots in a list. -/
def goodOf (bad : List Nat) (plots : List Nat) : List Nat :=
  plots.flatMap fun i => ((List.range 16).map (16 * i + ·)).filter fun p => !bad.contains p

/-- The physical core 16 × i + core of a logical core number within a die, by the map built at bring-up (R534). -/
def DieMap.atBringUp (m : DieMap) (k : Nat) : Nat :=
  let badPlots := sortUp (m.bad.map (· / 16))
  let full := 640 - badPlots.length
  if k / 16 < full then 16 * skip (k / 16) badPlots + k % 16
  else (goodOf m.bad badPlots).getD (k - 16 * full) 0

/-- The physical core of a logical core number within a die, with the retirements in service (R466). -/
def DieMap.phys (m : DieMap) (k : Nat) : Nat := (find? m.moved k).getD (m.atBringUp k)

/-- LOC of the physical core that serves logical core `c` (R461). -/
def State.coreLoc (s : State) (c : Nat) : Nat :=
  let p := (s.dieMap (c / 10000)).phys (c % 10000)
  c / 10000 * 2 ^ 14 + p / 16 % 20 * 2 ^ 9 + p / 320 * 2 ^ 4 + p % 16

/-! ### Fault reports (R462) -/

/-- A unit sends a fault report. -/
def State.sendReport (s : State) (r : Report) : State :=
  { s with faults := { s.faults with reports := s.faults.reports ++ [{ r with time := s.time }] } }

/-- An event of row `b` of the table of R392 makes the step void. -/
def State.void (s : State) (b : Nat) : State :=
  whenever (s.seq.cur.isSome || s.seq.step != 0) s
    ({ s with seq := { s.seq with voided := true } }.sticky 0x7200 0x34 b)

/-- A report of a module fault at a location. -/
def State.report (s : State) (code lockind loc : Nat) (detail : Nat := 0) (inj : Bool := false) : State :=
  s.sendReport { Report.reset with code := code, lockind := lockind, loc := loc, detail := detail, inj := inj }

/-- The context with an ID. -/
def State.ctx (s : State) (c : Nat) : Ctx := get s.host.ctxs c { Ctx.reset with kind := if c = 0 then 3 else 0 }

/-- A report against a context. -/
def State.reportCtx (s : State) (code ctx part lockind loc : Nat) (detail : Nat := 0) (inj : Bool := false) : State :=
  s.sendReport { Report.reset with
    code := code, ctx := ctx, part := part, lockind := lockind, loc := loc, detail := detail, inj := inj,
    model := (s.ctx ctx).kind == 1 }

/-! ### Requests -/

/-- The request with a tag. -/
def State.req? (s : State) (tag : Nat) : Option Req := s.reqs.find? (·.tag == tag)
/-- The request with a tag, where its packet is not lost on its way (R251). -/
def State.here? (s : State) (tag : Nat) : Option Req := (s.req? tag).filter fun r => !r.lost
/-- Send a request under the next tag. -/
def State.addReq (s : State) (r : Req) : State :=
  { s with reqs := s.reqs ++ [{ r with tag := s.nextTag, born := s.od 0x6000 2 }], nextTag := s.nextTag + 1 }
/-- Change the request with a tag. -/
def State.setReq (s : State) (tag : Nat) (f : Req → Req) : State :=
  { s with reqs := s.reqs.map fun r => if r.tag = tag then f r else r }
/-- The request is done with. -/
def State.dropReq (s : State) (tag : Nat) : State := { s with reqs := s.reqs.filter fun r => r.tag != tag }

/-- The core whose kernel sent a request. -/
def Agent.core? : Agent → Option Nat
  | .ctlLoad c _ _ => some c
  | .ctlStore c => some c
  | .vecLoad c _ _ _ _ => some c
  | .vecStore c _ _ => some c
  | .vecAtom c _ _ => some c
  | .dmaRead c _ _ => some c
  | .dmaWrite c _ => some c
  | _ => none

/-- The agent of a request on the scope ladder (R146, R147). -/
def Agent.party : Agent → Party
  | .engine => .engine
  | .ctlLoad c _ _ => .part c 8
  | .ctlStore c => .part c 8
  | .vecLoad c g _ _ _ => .part c g
  | .vecStore c g _ => .part c g
  | .vecAtom c g _ => .part c g
  | .dmaRead c _ _ => .part c 9
  | .dmaWrite c _ => .part c 9
  | .fetch c _ _ => .part c 9
  | .header _ _ => .engine
  | .comp _ _ _ => .companion

/-- Whether an agent belongs to the module. -/
def Party.inModule : Party → Bool
  | .part _ _ => true
  | .engine => true
  | _ => false

/-- Whether the instance of scope `sc` that contains agent `a` contains agent `b`: group, core, plot (16 logical cores
whose IDs agree in bits [16:4]), die, package, node, system (R147 to R149). Another module counts as attached to another
companion (assumption 94). -/
def inInstance (sc : Nat) (a b : Party) : Bool :=
  match a, b with
  | .part c u, .part d v =>
    if sc = 0 then c == d && u == v
    else if sc = 1 then c == d
    else if sc = 2 then c / 16 == d / 16
    else if sc = 3 then c / 10000 == d / 10000
    else true
  | a, b =>
    if a.inModule && b.inModule then decide (4 ≤ sc)
    else if a ≠ .remote && b ≠ .remote then decide (5 ≤ sc)
    else decide (6 ≤ sc)

/-- Whether a request has been performed: a read or atomic once it is answered, a write once its home has accepted it
(R183, R205). -/
def Req.performed (r : Req) : Bool :=
  match r.stage with
  | .done => true
  | .hbmW => true
  | .parity => true
  | .hbmAck => true
  | _ => false

/-- The request under a tag is still to be performed. -/
def State.unperformed (s : State) (tag : Nat) : Bool := s.reqs.any fun r => r.tag == tag && !r.performed

/-- The engine of a core that made an access: 0 control core, 1 DMA engine, 2 vector engine. -/
def Agent.unit : Agent → Nat
  | .dmaRead _ _ _ => 1
  | .dmaWrite _ _ => 1
  | .vecLoad _ _ _ _ _ => 2
  | .vecStore _ _ _ => 2
  | .vecAtom _ _ _ => 2
  | _ => 0

/-- `CC_XLATE`, `DMA_XLATE` or `VE_XLATE` (R106, R107, R144). -/
def Agent.xlateCode (a : Agent) : Nat := match a.unit with | 0 => 0x2104 | 1 => 0x2144 | _ => 0x21C4
/-- `CC_ACCESS`, `DMA_ACCESS` or `VE_ACCESS`. -/
def Agent.accessCode (a : Agent) : Nat := match a.unit with | 0 => 0x2105 | 1 => 0x2145 | _ => 0x21C5
/-- `CC_POISON`, `DMA_POISON` or `VE_POISON`. -/
def Agent.poisonCode (a : Agent) : Nat := match a.unit with | 0 => 0x2106 | 1 => 0x2148 | _ => 0x21C6

/-- Whether an agent is the DMA engine of core `c`. -/
def Agent.isDma (c : Nat) : Agent → Bool
  | .dmaRead k _ _ => k == c
  | .dmaWrite k _ => k == c
  | _ => false

/-- Requests of the DMA engine of core `c` that have not returned (R92). -/
def State.dmaOut (s : State) (c : Nat) : List Req := s.reqs.filter fun r => r.agent.isDma c

/-! ### The end of a kernel by a fault (R108) -/

/-- The core after its units have stopped: the press discards everything (R71), groups and summaries go (R145), copies
not complete are discarded, and the first fault code stays. R71 names the faulting command and the later ones; the commands
issued before it are discarded too, and their read-done increments never occur: DESIGN CHOICE (assumption 81). -/
def Core.stop (k : Core) (code : Nat) : Core :=
  { k with
    stopping := true
    wait := .none
    ksFault := BitVec.ofNat 16 code
    ksCancel := k.ksCancel || k.items.any fun i => i.kind == .copy && !i.complete
    press := { Press.reset with rdone := k.press.rdone }
    chan0 := []
    chan1 := []
    items := []
    busy := []
    fences := []
    acqs := []
    groups := []
    summ := []
    summKnows := [] }

/-- DONE is set once the DMA engine has no outstanding request; the completion record is then posted (R108). -/
def Core.finish (k : Core) : Core := { k with ksDone := true, run := false, stopping := false, unposted := true }

/-- A kernel that is stopping reaches DONE when none of its DMA requests is outstanding. -/
def State.finishIfQuiet (s : State) (c : Nat) : State :=
  whenever ((s.core c).stopping && (s.dmaOut c).isEmpty) s (s.onCoreState c Core.finish)

/-- Loads of core `c` that are outstanding are discarded; their requests run on without a taker. Atomics already sent stay
its own: each is performed whole or not at all, before the kernel's record is posted (R104, R145). -/
def State.discardLoads (s : State) (c : Nat) : State :=
  { s with reqs := s.reqs.map fun r =>
      match r.agent with
      | .ctlLoad k _ _ => if k = c ∧ r.kind = .read then { r with agent := .engine } else r
      | .vecLoad k _ _ _ _ => if k = c then { r with agent := .engine } else r
      | _ => r }

/-- The first F2 fault raised in the kernel on core `c`: it stops, and the core reports the code (R108, R109). -/
def State.coreFault (s : State) (c code : Nat) (detail : Nat := 0) (inj : Bool := false) : State :=
  whenever ((s.core c).run && !(s.core c).stopping) s
    ((((s.onCoreState c (·.stop code)).discardLoads c).finishIfQuiet c).reportCtx
      code (s.core c).ctx (s.core c).part 1 (s.coreLoc c) detail inj)

/-! ### Addresses (R405) -/

/-- HBM range. -/
def isHbm (pa : Nat) : Bool := decide (pa < 2 ^ 40)
/-- Companion window. -/
def isComp (pa : Nat) : Bool := decide (2 ^ 40 ≤ pa ∧ pa < 2 ^ 41)
/-- Register window. -/
def isReg (va : Nat) : Bool := decide (2 ^ 41 ≤ va ∧ va < 0x30000000000)

/-- WAREA of a weight slice (R260). -/
def warea (wlen : Nat) : Nat := 4096 * ((wlen + 3583) / 3584)

/-- Whether an HBM byte is in the weight region. -/
def Cellar.inWeights (c : Cellar) (pa : Nat) : Bool := decide (c.wbase ≤ pa ∧ pa < c.wbase + c.wlen)
/-- Whether an HBM byte is in the weight area. -/
def Cellar.inWarea (c : Cellar) (pa : Nat) : Bool := decide (c.wbase ≤ pa ∧ pa < c.wbase + warea c.wlen)
/-- Whether an HBM byte is in the barrel area in force (R257). -/
def Hbm.inBarrels (h : Hbm) (pa : Nat) : Bool := decide (h.bbase ≤ pa ∧ pa < h.bbase + h.blen)
/-- The base of the spare pool (R257). -/
def Hbm.spool (h : Hbm) : Nat := 2 ^ 40 - h.spareGib * 2 ^ 30
/-- Whether the table of R257 marks an HBM byte as accessible. -/
def State.accessible (s : State) (pa : Nat) : Bool :=
  decide (pa < s.hbm.spool) && (!s.cellar.inWarea pa || s.cellar.inWeights pa)

/-- The storage address of an HBM byte: the weight area is laid out in stripes of 14 data and 2 parity chunks (R260). -/
def State.store (s : State) (pa : Nat) : Nat :=
  if s.cellar.inWeights pa then
    let q := (pa - s.cellar.wbase) / 256
    s.cellar.wbase + 256 * (16 * (q / 14) + q % 14) + pa % 256
  else pa

/-- Stack and channel, stack × 32 + channel, of a storage address (R258, R259). -/
def State.channel (s : State) (sa : Nat) : Nat :=
  if s.hbm.inBarrels sa then
    let o := sa - s.hbm.bbase
    let f := o / 2 ^ 16
    let st := (f ^^^ f / 2 ^ 4 ^^^ f / 2 ^ 8 ^^^ f / 2 ^ 12 ^^^ f / 2 ^ 16 ^^^ f / 2 ^ 20) % 16
    32 * st + 4 * (f / 16 % 8) + o / 2 ^ 8 % 4
  else
    let g := sa / 2 ^ 8
    let t := (g % 512) ^^^ (g / 2 ^ 9 % 512) ^^^ (g / 2 ^ 18 % 512) ^^^ (g / 2 ^ 27 % 32)
    32 * (t % 16) + t / 16

/-- The stack that holds a frame of the barrel area (R259). -/
def frameStack (f : Nat) : Nat :=
  (f ^^^ f / 2 ^ 4 ^^^ f / 2 ^ 8 ^^^ f / 2 ^ 12 ^^^ f / 2 ^ 16 ^^^ f / 2 ^ 20) % 16

/-- The quad of a frame (R259). -/
def frameQuad (f : Nat) : Nat := f / 16 % 8

/-! ### Homes (R178 to R180) -/

/-- The number of live casks N. -/
def Cellar.live (c : Cellar) : Nat := 512 - c.dead.length
/-- The n-th live position in ascending order. -/
def Cellar.nthLive (c : Cellar) (n : Nat) : Nat := skip n (sortUp c.dead)

/-- The home index of a line address (R178). -/
def homeIndex (l : Nat) : Nat :=
  (l % 2 ^ 12) ^^^ (l / 2 ^ 12 % 2 ^ 12) ^^^ (l / 2 ^ 24 % 2 ^ 12) ^^^ (l / 2 ^ 36 % 2 ^ 5)
/-- The set of a line address outside the weight region (R178). -/
def hashSet (l : Nat) : Nat :=
  (l / 2 ^ 12 % 2 ^ 11) ^^^ (l / 2 ^ 23 % 2 ^ 11) ^^^ (l / 2 ^ 34 % 2 ^ 7)

/-- The position of a line's home cask (R178, R180). -/
def Cellar.homePos (c : Cellar) (l : Nat) : Nat :=
  if c.inWeights (128 * l) then c.nthLive ((l - c.wbase / 128) % c.live)
  else get c.ht (homeIndex l) (homeIndex l % 512)
/-- A line's set (R178, R180). -/
def Cellar.homeSet (c : Cellar) (l : Nat) : Nat :=
  if c.inWeights (128 * l) then (l - c.wbase / 128) / c.live % 2048 else hashSet l
/-- The key of a line's set: position × 2048 + set. -/
def Cellar.setKey (c : Cellar) (l : Nat) : Nat := 2048 * c.homePos l + c.homeSet l
/-- The lines of a line's set, most recent first. -/
def Cellar.setOf (c : Cellar) (l : Nat) : List Line := get c.sets (c.setKey l) []
/-- The line, if its home holds it. -/
def Cellar.line? (c : Cellar) (l : Nat) : Option Line := (c.setOf l).find? (·.addr == l)
/-- Replace the lines of a line's set. -/
def Cellar.putSet (c : Cellar) (l : Nat) (ls : List Line) : Cellar := { c with sets := put c.sets (c.setKey l) ls }
/-- Change a line where its home holds it. -/
def Cellar.setLine (c : Cellar) (l : Nat) (f : Line → Line) : Cellar :=
  c.putSet l ((c.setOf l).map fun x => if x.addr = l then f x else x)
/-- Invalidate a line without write-back. -/
def Cellar.dropLine (c : Cellar) (l : Nat) : Cellar := c.putSet l ((c.setOf l).filter fun x => x.addr != l)
/-- Apply `f` to every line of the cellar. -/
def Cellar.mapLines (c : Cellar) (f : Line → Line) : Cellar := { c with sets := c.sets.map fun x => (x.1, x.2.map f) }
/-- Keep the lines of the cellar that satisfy `p`. -/
def Cellar.keepLines (c : Cellar) (p : Line → Bool) : Cellar :=
  { c with sets := c.sets.map fun x => (x.1, x.2.filter p) }
/-- Every line of the cellar. -/
def Cellar.lines (c : Cellar) : List Line := c.sets.flatMap (·.2)

/-! ### HBM bytes -/

/-- What the newest event that covers a byte leaves in it. -/
def bareOf (ch : Nat → Nat) (sa : Nat) : List Wipe → Byte
  | [] => 0
  | .march stack k :: r => if ch sa / 32 = stack then Config.march k sa else bareOf ch sa r
  | .zero base len :: r => if base ≤ sa ∧ sa < base + len then 0 else bareOf ch sa r

/-- What an unlisted byte of memory reads as: 0 (assumption 4), or an open value once an array march test has destroyed the
contents of its stack (R275, assumption 18). -/
def State.bare (s : State) (sa : Nat) : Byte := bareOf s.channel sa s.hbm.wipes

/-- Bytes XORed with what unwritten memory reads as, from an address on. -/
def State.overBare (s : State) (sa : Nat) : List Byte → List Byte
  | [] => []
  | b :: r => (b ^^^ s.bare sa) :: s.overBare (sa + 1) r

/-- Write HBM bytes by storage address. Every write of memory goes through here. -/
def State.poke (s : State) (sa : Nat) (d : List Byte) : State := { s with mem := Mem.writeN s.mem sa (s.overBare sa d) }
/-- Overwrite a range of storage addresses with zeros. -/
def State.zeroMem (s : State) (sa n : Nat) : State :=
  { s with
    mem := s.mem.filter fun x => !decide (sa ≤ x.1 ∧ x.1 < sa + n)
    hbm := { s.hbm with wipes := if s.hbm.wipes.isEmpty then [] else .zero sa n :: s.hbm.wipes } }
/-- Read HBM bytes by storage address. -/
def State.peek (s : State) (sa n : Nat) : List Byte := s.overBare sa (Mem.readN s.mem sa n)
/-- Whether any 64-byte block under `n` bytes is poisoned (R266). -/
def State.hbmPoison (s : State) (sa n : Nat) : Bool :=
  s.hbm.poison.any fun b => decide (sa < 64 * b + 64 ∧ 64 * b < sa + n)

/-- A line is uncorrectable: two symbols of 64 of its bytes are wrong (R187). -/
def Line.spoilt (x : Line) : Bool := decide (2 ≤ x.ecc ∨ 2 ≤ x.ecc2)

/-- The 128 bytes of a line as its home or HBM has them, and whether they are poisoned: an uncorrectable line counts as
poisoned where it is dirty or tentative, and is otherwise read from HBM (R187). -/
def State.lineNow (s : State) (l : Nat) : List Byte × Bool :=
  match s.cellar.line? l with
  | some x =>
    if !x.spoilt then (x.data, x.poison)
    else if x.dirty || x.tent then (x.data, true)
    else (s.peek (s.store (128 * l)) 128, s.hbmPoison (s.store (128 * l)) 128)
  | none => (s.peek (s.store (128 * l)) 128, s.hbmPoison (s.store (128 * l)) 128)

/-- Bytes within one line as the module sees them. -/
def State.physRead (s : State) (pa n : Nat) : List Byte × Bool :=
  let r := s.lineNow (pa / 128)
  (slice r.1 (pa % 128) n, r.2)

/-! ### What a context reaches (R441) -/

/-- Whether a byte range lies in a carve-out of a partition. -/
def Part.carves? (p : Part) (pa n : Nat) : Bool :=
  p.carves.any fun x => decide (x.2 ≠ 0 ∧ x.1 * 2 ^ 30 ≤ pa ∧ pa + n ≤ (x.1 + x.2) * 2 ^ 30)

/-- Directory size of the active plan (R311). -/
def Plan.dirLen (p : Plan) : Nat := 4096 * p.dirRows * p.bps * 4
/-- Whether a byte is in the directory or the step areas of the active plan (R311, R317). -/
def State.inStepAreas (s : State) (pa : Nat) : Bool :=
  match s.host.plan with
  | some p => decide (p.dirBase ≤ pa ∧ pa < p.dirBase + p.dirLen) || decide (p.area ≤ pa ∧ pa < p.area + 2 ^ 25)
  | none => false

/-- Whether a context may make an access (the table of R441, with R182 and R257). -/
def State.reach (s : State) (ctx part pa n : Nat) (write : Bool) : Bool :=
  let kind := (s.ctx ctx).kind
  if isComp pa then true
  else if !isHbm pa || !s.accessible pa || !s.accessible (pa + n - 1) then false
  else if s.cellar.inWeights pa then !write
  else if ctx = 0 then true
  else if s.hbm.inBarrels pa then kind == 1
  else if s.inStepAreas pa then kind == 1 || !write
  else if (get s.parts.parts part Part.reset).carves? pa n then kind != 1
  else if s.parts.parts.any (fun p => p.2.carves? pa 1 || p.2.carves? (pa + n - 1) 1) then false
  else kind == 1

/-! ### Translation (R408 to R412) -/

/-- A cached translation that covers an address. -/
def xlatHit (l : List XEntry) (ctx va : Nat) : Option XEntry :=
  l.find? fun e => e.ctx == ctx && e.va == va / 2 ^ e.log2 * 2 ^ e.log2

/-- Keep the `n` most recent translations. -/
def xlatPut (l : List XEntry) (n : Nat) (e : XEntry) : List XEntry := (e :: l.filter (· != e)).take n

/-- What becomes of a request once its physical address is known: it goes to its home, or its kernel faults. -/
def Req.atPa (r : Req) (pa : Nat) : Req := { r with pa := pa, stage := .home }

/-- Whether a translated request may go on: the page permits the write (R410), the context reaches the range (R441), and
a solera atomic does not go to the companion window (R139). -/
def State.permits (s : State) (r : Req) (ctx part pa : Nat) (w : Bool) : Bool :=
  (r.kind == .read || w) && s.reach ctx part pa r.size (r.kind != .read) && !(r.kind == .atomic && r.op == 11 && isComp pa)

/-- A global access that its context may not make ends the kernel: at once, or for the DMA engine as the request returns
(R107). -/
def State.deny (s : State) (c : Nat) (r : Req) (code : Nat) : State :=
  if r.agent.unit = 1 then s.addReq { r with stage := .done, err := code } else s.coreFault c code r.va

/-- A request of core `c` sets out: context 0 is not translated (assumption 7), a cached translation is used at once, and
otherwise the request waits for a walk (R412). -/
def State.issue (s : State) (c : Nat) (r : Req) : State :=
  let k := s.core c
  if k.ctx = 0 then
    if s.permits r 0 0 r.va true then s.addReq (r.atPa r.va) else s.deny c r r.agent.accessCode
  else match xlatHit k.xlat k.ctx r.va with
    | some e =>
      let pa := e.pa + r.va % 2 ^ e.log2
      if s.permits r k.ctx k.part pa e.w then s.addReq (r.atPa pa) else s.deny c r r.agent.accessCode
    | none => s.addReq { r with stage := .walk 3 (s.ctx k.ctx).root }

/-- Write bytes into the local memory of a core. -/
def Core.poke (k : Core) (a : Nat) (d : List Byte) : Core := { k with ldst := Mem.writeN k.ldst a d }
/-- Read bytes of the local memory of a core. -/
def Core.peek (k : Core) (a n : Nat) : List Byte := Mem.readN k.ldst a n

/-- A write of `n` bytes at `a` regenerates the check bits of the words it covers, but inverts those of a word that an
injection awaits (R478). -/
def Core.regen (k : Core) (a n : Nat) : Core :=
  let ecc := k.ecc.filter fun x => decide (x.1 + 8 ≤ a ∨ a + n ≤ x.1)
  match k.injNext with
  | some x => if x.1 < a + n ∧ a < x.1 + 8 then { k with ecc := put ecc x.1 x.2, injNext := none } else { k with ecc := ecc }
  | none => { k with ecc := ecc }

/-- A local write that no other access of the core races with. -/
def Core.pokeChecked (k : Core) (a : Nat) (d : List Byte) : Core := (k.poke a d).regen a d.length

/-! ### Local accesses that nothing orders (R69, R101) -/

/-- One of the values that an access may find in a byte. -/
def pickByte (draw a : Nat) (now : Byte) (os : List Byte) : Byte :=
  (now :: os).getD (Config.pick draw a % (os.length + 1)) now

/-- Bytes of a memory as an access reads them to which each byte has, beside its value, the other values `os`: one of
them, byte by byte (R101). -/
def raced (draw : Nat) (os : List Cell) (m : List Cell) (a n : Nat) : List Byte :=
  if os.isEmpty then Mem.readN m a n
  else (List.range n).map fun i => pickByte draw (a + i) (Mem.read m (a + i)) ((os.filter (·.1 == a + i)).map (·.2))

/-- The writes of others that are not ordered before the accesses of `me`, which knows the writes `knows`. -/
def Core.foes (k : Core) (me : Nat) (knows : List (Nat × Nat)) : List Race :=
  k.races.filter fun r => r.src != me && decide (cnt knows r.src < r.no)

/-- The other values of local bytes that an access of `me` may find. -/
def Core.others (k : Core) (me : Nat) (knows : List (Nat × Nat)) : List Cell :=
  (k.foes me knows).map fun r => (r.addr, r.old)

/-- A local read by the control core (R100, R101). -/
def Core.see (k : Core) (a n : Nat) : List Byte := raced k.rdraw (k.others 16 k.knows) k.ldst a n

/-- One byte is written by `src` under the number `no`. Where the write races with writes of `foes`, or with one that
`clash` names, the byte ends with either value; what stood there is an old value for every command and copy in flight
(R69, R101). -/
def Core.store1 (k : Core) (src no : Nat) (foes : List Race) (clash : Bool) (a : Nat) (b : Byte) : Core :=
  let cur := Mem.read k.ldst a
  let mine := foes.filter (·.addr == a)
  let keep := (clash || !mine.isEmpty) && Config.pick k.rdraw a % 2 == 1
  let other := if keep then b else cur
  { k with
    ldst := Mem.write k.ldst a (if keep then cur else b)
    races := if src = 16 ∧ k.groups.isEmpty then k.races
      else k.races ++ ({ src := src, no := no, addr := a, old := other } : Race) :: mine.map fun r => { r with old := other }
    press := { k.press with olds := k.press.olds.map (· ++ [(a, cur)]) }
    items := k.items.map fun i => { i with olds := i.olds ++ [(a, cur)] }
    redq := k.redq.map fun x => { x with olds := x.olds ++ [(a, cur)] } }

/-- Bytes are written from an address on. -/
def Core.storeN (k : Core) (src no : Nat) (foes : List Race) (clash : List Cell) (a : Nat) : List Byte → Core
  | [] => k
  | b :: r => (k.store1 src no foes (clash.any (·.1 == a)) a b).storeN src no foes clash (a + 1) r

/-- A local write by the control core or a thread, with fresh check bits. -/
def Core.storeBy (k : Core) (me : Nat) (knows : List (Nat × Nat)) (a : Nat) (d : List Byte) : Core :=
  ({ k with writes := k.writes + 1 }.storeN me (k.writes + 1) (k.foes me knows) [] a d).regen a d.length

/-- A local write by an item of an arrival counter: it races with every write made since the item was issued. -/
def Core.storeItem (k : Core) (id a : Nat) (d : List Byte) : Core :=
  match k.items.find? (·.id == id) with
  | some i => (k.storeN i.ctr i.no [] i.olds a d).regen a d.length
  | none => k.pokeChecked a d

/-- A local read by an item of an arrival counter. -/
def Core.seeItem (k : Core) (id a n : Nat) : List Byte :=
  match k.items.find? (·.id == id) with
  | some i => raced k.rdraw i.olds k.ldst a n
  | none => k.peek a n

/-- Whether accesses to the local memory of the core may race. -/
def Core.contended (k : Core) : Bool :=
  !k.races.isEmpty || (k.items.any fun i => !i.olds.isEmpty) || (k.redq.any fun x => !x.olds.isEmpty)
    || k.groups.any fun x => !x.2.late.isEmpty

/-- The racing accesses of the next command to core `c` are decided afresh. -/
def State.fresh (s : State) (c : Nat) : State :=
  whenever (s.core c).contended s (s.onCoreState c fun k => { k with rdraw := s.freeCtr }).drew

/-- The agent learns of every write of `src` up to number `no`. -/
def learn (knows : List (Nat × Nat)) (src no : Nat) : List (Nat × Nat) :=
  if no ≤ cnt knows src then knows else put knows src no

/-- Everything that two agents know. -/
def learnAll (a b : List (Nat × Nat)) : List (Nat × Nat) := b.foldl (fun m x => learn m x.1 x.2) a

/-- Writes that the control core knows of are forgotten while no thread could race with them. -/
def Core.settled (k : Core) : Core :=
  if k.groups.isEmpty then { k with races := k.foes 16 k.knows } else k

/-- The check of the worst 8-byte word under local reads at several places: 0 good, 1 corrected, 2 uncorrectable (R88). -/
def Core.worst (k : Core) (l : List (Nat × Nat)) : Nat :=
  k.ecc.foldl (fun w x => if l.any fun r => decide (x.1 < r.1 + r.2 ∧ r.1 < x.1 + 8) then max w x.2 else w) 0

/-- The check of the worst 8-byte word under a local read. -/
def Core.check (k : Core) (a n : Nat) : Nat := k.worst [(a, n)]

/-- The number of 8-byte words under local reads whose errors are corrected (R88). -/
def Core.mended (k : Core) (l : List (Nat × Nat)) : Nat :=
  (k.ecc.filter fun x => x.2 == 1 && l.any fun r => decide (x.1 < r.1 + r.2 ∧ r.1 < x.1 + 8)).length

/-- A corrected error is counted (R88, R106); the location is the physical core. Check bits are wrong only where an
injection inverted them, so the report is marked as injected (R479). -/
def State.memCe (s : State) (c : Nat) : State :=
  s.reportCtx 0x010B (s.core c).ctx (s.core c).part 1 (s.coreLoc c) 0 true

/-- Local reads of core `c` at several places: an uncorrectable error ends the kernel with `CC_MEM_UE`, corrected ones are
counted word by word, and then `t` gives the effect of the reads (R88). -/
def State.checkedAll (s : State) (c : Nat) (l : List (Nat × Nat)) (t : State → State) : State :=
  if 2 ≤ (s.core c).worst l then s.coreFault c 0x210A (l.headD (0, 0)).1 true
  else t ((List.range ((s.core c).mended l)).foldl (fun s _ => s.memCe c) s)

/-- A local read of core `c` (R88). -/
def State.checked (s : State) (c a n : Nat) (t : State → State) : State := s.checkedAll c [(a, n)] t

/-! ### Messages to the companion -/

/-- The module hands a message to the Abius link (R404). -/
def State.sendAb (s : State) (m : AbMsg) : State := { s with coh := { s.coh with out := s.coh.out ++ [m] } }

/-- The header fields of a message and its data (R401). -/
def abMsg (op tag pasid addr : Nat) (data : List Byte := []) (poison : Bool := false) (ord : Nat := 0) : AbMsg :=
  { AbMsg.reset with op := op, tag := tag % 2 ^ 16, pasid := pasid, addr := addr, data := data, poison := poison, ord := ord }

/-- The process identifier carried by a message made for a context (R401). -/
def State.pasidOf (s : State) (ctx : Nat) : Nat := if ctx = 0 then 0 else (s.ctx ctx).pasid

/-- Post a notice (R612): it waits for queue 0 and is lost if queue 0 does not exist. -/
def State.notice (s : State) (n : Notice) : State :=
  whenever ((find? s.host.queues 0).isSome) s { s with host := { s.host with notices := s.host.notices ++ [n] } }

end Sys2Proof.Machine
end

