-- ==== Sys2Proof/Machine/Operands.lean ====
section
/-!
DEFINITION. Machine/Operands.lean: the operand forms of the control core: scalar registers, immediates, local and global
addresses, core registers, the read cache and the register window as module agents see it (R74, R75, R81 to R91, R406).
-/

namespace Sys2Proof.Machine

/-- The value of a scalar register; s0 reads zero (R74). -/
def Core.reg (k : Core) (r : Reg) : Word := if r = 0 then 0 else get k.regs r.toNat 0

/-- Write a scalar register; a write to s0 is discarded (R74). -/
def Core.setReg (k : Core) (r : Reg) (v : Word) : Core := if r = 0 then k else { k with regs := put k.regs r.toNat v }

/-- The instruction at the program counter is done; the next one follows. -/
def Core.next (k : Core) (len : Nat) : Core := { k with pc := k.pc + BitVec.ofNat 64 len }

/-- A signed 13-bit immediate (R75). -/
def imm13 (i : BitVec 13) : Word := i.signExtend 64
/-- A signed 32-bit immediate (R80). -/
def imm32 (i : BitVec 32) : Word := i.signExtend 64

/-- Whether a register awaits the result of a global load (R74). -/
def Core.isBusy (k : Core) (r : Reg) : Bool := r != 0 && (find? k.busy r.toNat).isSome

/-! ### Fetch (R73, R80) -/

/-- Whether `n` bytes at `pc` lie in the plan's code, `pc` a multiple of `align` (R80, R114). -/
def State.inCode (s : State) (align pc n : Nat) : Bool :=
  match s.host.plan with
  | some p => pc % align == 0 && decide (pc + n ≤ p.codeLen)
  | none => false

/-- Whether the instruction cache holds the line of a code offset (R73). -/
def Core.hasCode (k : Core) (pc : Nat) : Bool := (get k.icache (pc / 128 % 16) []).contains (pc / 128)

/-- The line of a code offset becomes the most recent of its set. -/
def Core.touchCode (k : Core) (pc : Nat) : Core :=
  { k with icache := upd k.icache (pc / 128 % 16) [] fun ls => pc / 128 :: ls.filter (· != pc / 128) }

/-- The physical address of a line of the plan's code: its image stands in the companion window (R421, R422). -/
def State.codeAddr (s : State) (line : Nat) : Nat :=
  match s.host.plan with
  | some p => p.addr + p.codeOff + 128 * line
  | none => 0

/-- An instruction fetch misses: the line is asked of its home once, as a read of class c3 (R73, R102, R114). -/
def State.askCode (s : State) (c pc : Nat) (vec : Bool) : State :=
  whenever (!(s.core c).fetching.contains (pc / 128)) s
    ((s.addReq { Req.reset with
        agent := .fetch c (pc / 128) vec, ctx := (s.core c).ctx, kind := .read, va := s.codeAddr (pc / 128)
        pa := s.codeAddr (pc / 128), size := 128, cls := 3, bypass := true, draft := (s.core c).draft }).onCoreState c fun k =>
      { k with fetching := k.fetching ++ [pc / 128] })

/-- Whether a core is halted through the debug port, with no single step due to it (R560). -/
def State.stopped (s : State) (c : Nat) : Bool := s.sec.halted.contains c && !s.sec.single.contains c

/-- A single step of a halted core is used up (R560). -/
def State.stepped (s : State) (c : Nat) : State :=
  whenever (s.sec.single.contains c) s { s with sec := { s.sec with single := s.sec.single.filter fun (x : Nat) => x != c } }

/-- Whether a reduction issue of core `c` waits at its set: the core is stalled (R193). Its control core and its vector
engine issue nothing meanwhile (assumption 95). -/
def State.redStalled (s : State) (c : Nat) : Bool := s.trellis.contribs.any fun x => x.waited && x.cores.contains c

/-- Whether the control core of `c` may issue an instruction that names registers `rs` (R74). -/
def State.ctlReady (s : State) (c : Nat) (rs : List Reg) : Bool :=
  let k := s.core c
  k.run && !k.stopping && k.wait == .none && rs.all (fun r => !k.isBusy r) && !s.stopped c && !s.redStalled c

/-- Whether the instruction of `len` bytes at the program counter of `c` can be fetched at once. -/
def State.fetched (s : State) (c len : Nat) : Bool :=
  let pc := (s.core c).pc.toNat
  s.inCode 4 pc len && (s.core c).hasCode pc && (s.core c).hasCode (pc + len - 4)

/-- The control core of `c` comes to an instruction of `len` bytes that names registers `rs`: it waits while one of them
awaits a load, faults outside the plan's code, asks for a line it misses, and otherwise has its effect `eff`. -/
def State.ctl (s : State) (c len : Nat) (rs : List Reg) (eff : State → State) : State :=
  let pc := (s.core c).pc.toNat
  if !s.ctlReady c rs then s
  else if !s.inCode 4 pc len then s.coreFault c 0x2107 pc
  else if !(s.core c).hasCode pc then s.askCode c pc false
  else if !(s.core c).hasCode (pc + len - 4) then s.askCode c (pc + len - 4) false
  else eff (((s.stepped c).fresh c).onCoreState c fun k => (k.touchCode pc).touchCode (pc + len - 4))

/-- An instruction whose whole effect is on its core and that goes on to the next one. -/
def State.ctlCore (s : State) (c len : Nat) (rs : List Reg) (f : Core → Core) : State :=
  s.ctl c len rs fun s => s.onCoreState c fun k => (f k).next len

/-- rd ← f rs1 rs2 (R79). -/
def State.alu (s : State) (c : Nat) (rd rs1 rs2 : Reg) (f : Word → Word → Word) : State :=
  s.ctlCore c 4 [rd, rs1, rs2] fun k => k.setReg rd (f (k.reg rs1) (k.reg rs2))

/-- rd ← f rs1 IMM13, the immediate sign-extended (R79). -/
def State.aluImm (s : State) (c : Nat) (rd rs1 : Reg) (imm : BitVec 13) (f : Word → Word → Word) : State :=
  s.ctlCore c 4 [rd, rs1] fun k => k.setReg rd (f (k.reg rs1) (imm13 imm))

/-! ### The core-local space (R81 to R86) -/

/-- How a local access of `n` bytes at `a` ends: a fault code, 0 for local memory, 1 for a core register. Of several
causes, bits [63:17] come first, then alignment, then the range and the width: DESIGN CHOICE, the spec gives no order
(assumption 83). -/
def localCheck (a : Word) (n : Nat) : Nat :=
  if 2 ^ 17 ≤ a.toNat then 0x2103
  else if a.toNat % n ≠ 0 then 0x2102
  else if a.toNat < 0x1C000 then 0
  else if a.toNat < 0x1F000 then 0x2103
  else if n ≠ 8 then 0x2103
  else 1

/-- CORE_ID of logical core `c` (R85). -/
def State.coreId (s : State) (c : Nat) : Word :=
  let l := s.coreLoc c
  BitVec.ofNat 64 (c + 2 ^ 17 * (l % 16) + 2 ^ 21 * (l / 16 % 32) + 2 ^ 26 * (l / 512 % 32) + 2 ^ 31 * (l / 2 ^ 14 % 8))

/-- KSTATUS (R86). -/
def Core.kstatus (k : Core) : Word :=
  BitVec.ofNat 64 (2 ^ 48 * k.ksFault.toNat + 4 * b2n k.ksCancel + 2 * b2n k.ksDropped + b2n k.ksDone)

/-- The value of the core register at an offset from 0x1_F000; an undefined offset reads zero (R83, R84). -/
def State.coreReg (s : State) (c off : Nat) : Word :=
  let k := s.core c
  if off = 0 then k.kid
  else if off = 0x08 then s.coreId c
  else if off = 0x10 then BitVec.ofNat 64 (k.ctx + 1024 * k.part)
  else if off = 0x18 then k.kstatus
  else if off = 0x20 then k.press.rdone.setWidth 64
  else if off = 0x28 then k.gclass.setWidth 64
  else if off = 0x30 then k.cycle
  else if off = 0x38 then s.time
  else if 0x40 ≤ off ∧ off < 0xC0 ∧ off % 8 = 0 then
    BitVec.ofNat 64 (2 ^ 32 * cnt k.issued (off / 8 - 8) + cnt k.arrived (off / 8 - 8))
  else if off = 0xC0 then
    BitVec.ofNat 64 (256 * k.chan1.length + k.chan0.length + 2 ^ 16 * (s.dmaOut c).length)
  else 0

/-- Reading CYCLE or TIME finds that time has passed (assumption 3). -/
def State.passTime (s : State) (c off : Nat) : State :=
  if off = 0x38 then s.tick
  else if off = 0x30 then
    (s.onCoreState c fun k => { k with cycle := k.cycle + BitVec.ofNat 64 (Config.elapsed s.freeCtr) }).drew
  else s

/-- A store to a core register: GCLASS is writable, every other one ignores it (R83, R84). -/
def Core.setCoreReg (k : Core) (off : Nat) (v : Word) : Core :=
  if off = 0x28 then { k with gclass := v.setWidth 3 } else k

/-- A local load of `n` bytes (R81). -/
def State.ldl (s : State) (c : Nat) (rd rs1 : Reg) (imm : BitVec 13) (n : Nat) : State :=
  s.ctl c 4 [rd, rs1] fun s =>
    let a := (s.core c).reg rs1 + imm13 imm
    match localCheck a n with
    | 0 => s.checked c a.toNat n fun s =>
        s.onCoreState c fun k => (k.setReg rd (BitVec.ofNat 64 (leNat (k.see a.toNat n)))).next 4
    | 1 =>
      let t := s.passTime c (a.toNat - 0x1F000)
      t.onCoreState c fun k => (k.setReg rd (t.coreReg c (a.toNat - 0x1F000))).next 4
    | code => s.coreFault c code a.toNat

/-- A local store of the low `n` bytes of a register (R81). -/
def State.stl (s : State) (c : Nat) (rs2 rs1 : Reg) (imm : BitVec 13) (n : Nat) : State :=
  s.ctl c 4 [rs2, rs1] fun s =>
    let a := (s.core c).reg rs1 + imm13 imm
    match localCheck a n with
    | 0 => s.onCoreState c fun k => (k.storeBy 16 k.knows a.toNat (leBytes (k.reg rs2).toNat n)).next 4
    | 1 => s.onCoreState c fun k => (k.setCoreReg (a.toNat - 0x1F000) (k.reg rs2)).next 4
    | code => s.coreFault c code a.toNat

/-! ### The read cache (R90, R91) -/

/-- The line of an address, if the read cache holds it. -/
def Core.rline? (k : Core) (a : Nat) : Option RLine := (get k.rcache (a / 128 % 16) []).find? (·.line == a / 128)

/-- The line of an address becomes the most recent of its set. -/
def Core.rtouch (k : Core) (a : Nat) : Core :=
  { k with rcache := upd k.rcache (a / 128 % 16) [] fun ls =>
      ls.filter (·.line == a / 128) ++ ls.filter (·.line != a / 128) }

/-- The lowest way of a set that no line of it occupies. -/
def freeWay (ls : List RLine) : Nat := skip 0 (sortUp (ls.map (·.way)))

/-- A line is filled: it replaces the least recent of a full set, and its check bits are fresh (R90). -/
def Core.rfill (k : Core) (a : Nat) (d : List Byte) : Core :=
  let ls := ((get k.rcache (a / 128 % 16) []).filter (·.line != a / 128)).take 3
  let w := freeWay ls
  let base := 0x1C000 + 128 * (4 * (a / 128 % 16) + w)
  { k with rcache := put k.rcache (a / 128 % 16) (⟨a / 128, d, w⟩ :: ls) }.regen base 128

/-- The local address that stands for a word of a read cache line in the record of check bits (R478). -/
def RLine.checkAddr (x : RLine) (a : Nat) : Nat := 0x1C000 + 128 * (4 * (a / 128 % 16) + x.way) + a % 128

/-- A store updates a copy of its line, if the read cache holds one (R90). -/
def Core.rstore (k : Core) (a : Nat) (d : List Byte) : Core :=
  match k.rline? a with
  | some x =>
    let f := fun (y : RLine) => if y.line = a / 128 then { y with data := patch y.data (a % 128) d } else y
    ({ k with rcache := upd k.rcache (a / 128 % 16) [] (·.map f) } : Core).regen (x.checkAddr a) d.length
  | none => k

/-- A request that was to fill the read cache of core `c` no longer does. -/
def Agent.noFill (c : Nat) : Agent → Agent
  | .ctlLoad k rd fill => .ctlLoad k rd (fill && k != c)
  | .vecLoad k g i dst fill => .vecLoad k g i dst (fill && k != c)
  | a => a

/-- The whole read cache is invalidated, and no load already on its way fills it (R91, R157). -/
def State.rinval (s : State) (c : Nat) : State :=
  { s.onCoreState c fun k => { k with rcache := [] } with
    reqs := s.reqs.map fun r => { r with agent := r.agent.noFill c } }

/-- A store of core `c` updates a copy of its line in the read cache; a load of the line that is on its way does not bring
an older one (R90, R151). -/
def State.rstore (s : State) (c a : Nat) (d : List Byte) : State :=
  { s.onCoreState c fun k => k.rstore a d with
    reqs := s.reqs.map fun r => if r.va / 128 = a / 128 ∧ r.kind = .read then { r with agent := r.agent.noFill c } else r }

/-! ### Fences and ordered accesses (R156 to R159, R173) -/

/-- Whether a request is one of the control core of `c`. -/
def Req.ctlOf (r : Req) (c : Nat) : Bool :=
  match r.agent with
  | .ctlLoad c' _ _ => c' == c
  | .ctlStore c' => c' == c
  | _ => false

/-- Whether a request is one of thread `i` of group `g` of core `c`. -/
def Req.threadOf (r : Req) (c g i : Nat) : Bool :=
  match r.agent with
  | .vecLoad c' g' i' _ _ => c' == c && g' == g && i' == i
  | .vecStore c' g' i' => c' == c && g' == g && i' == i
  | .vecAtom c' g' _ => c' == c && g' == g && r.ops.any (·.thread == i)
  | _ => false

/-- Every remote write and seal is acknowledged by its target, and none waits in a request page, as a release of system
scope asks (R173): those of the issuing core, and those that happen before it, are among them. -/
def State.remoteDone (s : State) : Bool :=
  (s.span.tx.all fun x => x.2.unacked.isEmpty && x.2.waiting.isEmpty) && s.cores.all fun x => (find? x.2.spanw 3).isNone

/-- Whether a write counts as performed for an agent, though not at its home. -/
def Req.seenBy (r : Req) (p : Party) : Bool := r.kind != .read && r.vis.any fun x => inInstance x.1 x.2 p

/-- What a release of scope `sc` by an agent waits for: its own accesses `own` under tags below `mark`, and every write
that happens before it. A release narrower than the package waits for loads and atomics only: the writes count as performed
at its instance (R156, R159, R173). -/
def State.released (s : State) (own : Req → Bool) (p : Party) (hand sc mark : Nat) : Bool :=
  (s.reqs.all fun r => r.performed ||
    (if sc < 4 then !(own r && decide (r.tag < mark)) || r.kind == .write
     else !(own r && decide (r.tag < mark)) && !r.seenBy p && !(decide (r.tag < hand) &&
       (match p with | .part c _ => r.ctlOf c | _ => false))))
    && (sc != 6 || s.remoteDone)

/-- A release of a scope narrower than the package: every write that comes before it counts as performed at the agent's
instance (R156). -/
def State.seen (s : State) (own : Req → Bool) (p : Party) (hand sc : Nat) : State :=
  whenever (decide (sc < 4)) s { s with reqs := s.reqs.map fun r =>
    if r.kind ≠ .read ∧ !r.performed ∧
        (own r || r.seenBy p || (decide (r.tag < hand) && (match p with | .part c _ => r.ctlOf c | _ => false))) then
      { r with vis := r.vis ++ [(sc, p)] }
    else r }

/-- The accesses that an acquire puts before later ones and that are not yet performed. -/
def State.pendingAcqs (s : State) (l : List (Nat × Nat)) : List (Nat × Nat) := l.filter fun x => s.unperformed x.1

/-- Those whose results have not come back either: until then a copy in the read cache may be older than the acquire
permits (R157). -/
def State.openAcqs (s : State) (l : List (Nat × Nat)) : List (Nat × Nat) := l.filter fun x => (s.req? x.1).isSome

/-- The accesses of an agent that an acquire fence of scope `sc` puts before its later ones (R157). -/
def State.fenceAcqs (s : State) (own : Req → Bool) (sc : Nat) : List (Nat × Nat) :=
  (s.reqs.filter fun r => own r && r.kind != .write && !r.performed).map fun r => (r.tag, sc)

/-- The result of an access has come back to core `c`: where an acquire of plot scope or wider, by itself or by a fence
behind it (`l`), rests on it, the read cache is invalidated (R91, R157). -/
def State.acquired (s : State) (c : Nat) (r : Req) (l : List (Nat × Nat)) : State :=
  whenever (r.acq || l.any fun x => x.1 == r.tag && decide (2 ≤ x.2)) s (s.rinval c)

/-- The writes that narrow release fences put before a later write count as performed at their instances as it is made
(R156). -/
def State.seenFences (s : State) (own : Req → Bool) (p : Party) (hand : Nat) (fences : List (Nat × Nat)) : State :=
  fences.foldl (fun t x => t.seen (fun r => own r && decide (r.tag < x.2)) p hand x.1) s

/-- The widest scope of a list of release fences. -/
def widest (l : List (Nat × Nat)) : Option Nat :=
  l.foldl (fun (a : Option Nat) x => match a with | some y => some (max x.1 y) | none => some x.1) none

/-- The control core's own requests. -/
def ownCtl (c : Nat) : Req → Bool := fun r => r.ctlOf c

/-- What a release of the control core waits for (R156, R173). -/
def State.releaseReady (s : State) (c sc : Nat) : Bool := s.released (ownCtl c) (.part c 8) 0 sc s.nextTag

/-- Whether the control core may make a write now: every acquire before it, and every access before its release fences,
has been performed (R156, R157). -/
def State.mayRelease (s : State) (c : Nat) : Bool :=
  (s.pendingAcqs (s.core c).acqs).isEmpty
    && (s.core c).fences.all fun x => s.released (ownCtl c) (.part c 8) 0 x.1 x.2

/-! ### The register window as module agents see it (R406) -/

/-- The capability table (R431). -/
def capWord (off : Nat) : Nat :=
  match off / 8 with
  | 0 => 1
  | 1 => 0xB0
  | 2 => 1024 + 2 ^ 32 * 4096
  | 3 => 65536 + 2 ^ 32 * 65536
  | 4 => 4096 + 2 ^ 32 * 8192
  | 5 => 16384 + 2 ^ 32 * 64
  | 6 => 64
  | 7 => 48 + 256 * 20
  | 8 => 2 ^ 16 + 2 ^ 21 + 2 ^ 30
  | 9 => 127
  | 10 => 80000
  | 11 => 2 ^ 40
  | 12 => 2 ^ 31
  | _ => 0

/-- What an 8-byte aligned load of a context returns from the register window; none where the table of R406 does not
permit it. -/
def State.regLoad (s : State) (ctx va n : Nat) : Option Word :=
  if n ≠ 8 ∨ va % 8 ≠ 0 then none
  else if 0x20200000000 ≤ va ∧ va < 0x20200000080 then some (BitVec.ofNat 64 (capWord (va - 0x20200000000)))
  else if 0x20300000000 ≤ va ∧ va < 0x20300080000 then
    match find? s.host.fences ((va - 0x20300000000) / 8) with
    | some f => if f.holders.contains ctx then some f.value else none
    | none => none
  else none

/-- The core whose Span request page an address is in, and the word of the page (R355). -/
def spanPage (va : Nat) : Option (Nat × Nat) :=
  if 0x21000000000 ≤ va ∧ va < 0x21013880000 ∧ va % 4096 < 32 then
    some ((va - 0x21000000000) / 4096, va % 4096 / 8)
  else none

/-- A store of a module agent to the register window: only an 8-byte store of a model-context kernel to a word of a Span
request page is permitted (R355, R406). -/
def State.regStore (s : State) (c va n : Nat) (v : Word) : Option State :=
  if n ≠ 8 ∨ va % 8 ≠ 0 ∨ (s.ctx (s.core c).ctx).kind ≠ 1 then none
  else match spanPage va with
    | some (p, w) => some (s.onCoreState p fun k => { k with spanw := put k.spanw w v })
    | none => none

/-- Size of a global access of the control core, in bytes (R81). -/
def gSize (imm : BitVec 13) : Nat := 2 ^ (imm.toNat / 2 ^ 11)
/-- Byte offset of a global access of the control core (R81). -/
def gOff (imm : BitVec 13) : Word := (imm.setWidth 11).signExtend 64

/-- The fault of a global access of `n` bytes of the control core, 0 for none. Of several causes the address comes first,
then the alignment: DESIGN CHOICE, the spec gives no order (R89, R166; assumption 84). -/
def globalCheck (a : Word) (n : Nat) : Nat :=
  if 2 ^ 48 ≤ a.toNat then 0x2104 else if a.toNat % n ≠ 0 then 0x2102 else 0

/-- The destination awaits the request, unless the request could not set out. -/
def Core.whenBusy (k : Core) (rd : Reg) (tag : Nat) : Core :=
  if rd = 0 || k.stopping || !k.run then k else { k with busy := put k.busy rd.toNat tag }

/-- The instruction is done, unless its kernel has ended. -/
def Core.nextIfRuns (k : Core) : Core := if k.stopping || !k.run then k else k.next 4

/-- A global load: checks, then the register window, a hit in the read cache (only where it may use it), or a request
that will fill it (only where it may). A load behind an acquire may set out before the acquire is performed, but may not use
the read cache before (R157). -/
def State.ldg (s : State) (c : Nat) (rd : Reg) (a : Word) (n : Nat) (cached : Bool) (acquire : Option Nat) : State :=
  let k := s.core c
  let early := s.pendingAcqs k.acqs
  let send := ((s.issue c { Req.reset with
      agent := .ctlLoad c rd.toNat cached, ctx := k.ctx, kind := .read, va := a.toNat, size := n
      cls := k.gclass.toNat, bypass := !cached, draft := k.draft, acq := acquire.any (2 ≤ ·), asc := acquire
      early := early }).onCoreState c fun k => k.whenBusy rd s.nextTag).onCoreState c Core.nextIfRuns
  let hit := fun (t : State) (x : RLine) => t.onCoreState c fun k =>
    ((k.rtouch a.toNat).setReg rd (BitVec.ofNat 64 (num8 x.data (a.toNat % 128) n))).next 4
  match globalCheck a n with
  | 0 =>
    if isReg a.toNat then
      match s.regLoad k.ctx a.toNat n with
      | some v => s.onCoreState c fun k => (k.setReg rd v).next 4
      | none => s.coreFault c 0x2105 a.toNat
    else match (if cached && (s.openAcqs k.acqs).isEmpty then k.rline? a.toNat else none) with
      | some x =>
        match k.check (x.checkAddr a.toNat) n with
        | 0 => hit s x
        | 1 => hit (s.memCe c) x
        | _ => send
      | none => send
  | code => s.coreFault c code a.toNat

/-- Whether a control core may store or perform atomics with a class (R166). -/
def storeClass (g : Nat) : Bool := g != 0 && g != 3 && g != 7

/-- A global store of the low `n` bytes of a value, which carries a release of scope `rel`, or that of a release fence
before it. It waits while `mayRelease` does not hold. -/
def State.stg (s : State) (c : Nat) (a : Word) (n : Nat) (v : Word) (rel : Option Nat) : State :=
  let k := s.core c
  let rsc := match rel with | some r => some r | none => widest k.fences
  match globalCheck a n with
  | 0 =>
    if !storeClass k.gclass.toNat then s.coreFault c 0x2105 a.toNat
    else if !s.mayRelease c then s
    else if isReg a.toNat then
      match s.regStore c a.toNat n v with
      | some t => t.onCoreState c fun k => k.next 4
      | none => s.coreFault c 0x2105 a.toNat
    else
      let t := s.seenFences (ownCtl c) (.part c 8) 0 k.fences
      let t := match rel with | some r => t.seen (ownCtl c) (.part c 8) 0 r | none => t
      ((t.issue c { Req.reset with
        agent := .ctlStore c, ctx := k.ctx, kind := .write, va := a.toNat, size := n, cls := k.gclass.toNat
        data := leBytes v.toNat n, draft := k.draft, rel := rel.any (5 ≤ ·), rsc := rsc }).rstore c a.toNat
          (leBytes v.toNat n)).onCoreState c Core.nextIfRuns
  | code => s.coreFault c code a.toNat

end Sys2Proof.Machine
end

