-- ==== Sys2Proof/Machine/PressUnit.lean ====
section
/-!
DEFINITION. Machine/PressUnit.lean: the press of a core (chapter 03): tile commands, accumulator banks, drains and the
finished-tile queue, and the control core's `tis` and `pwait`.
-/

namespace Sys2Proof.Machine

/-- Bits [hi:lo] of a 256-bit descriptor. -/
def fld (d : BitVec 256) (hi lo : Nat) : Nat := bits d.toNat hi lo

/-- The descriptor that four registers from rs1 on hold (R77). -/
def Core.desc (k : Core) (rs1 : Reg) : BitVec 256 :=
  (k.reg (rs1 + 3) ++ k.reg (rs1 + 2) ++ k.reg (rs1 + 1) ++ k.reg rs1 : BitVec 256)

/-! ### Fields of the tile command descriptor (R53) -/

/-- TAG. -/
def tTag (d : BitVec 256) : Nat := fld d 255 240
/-- E_BASE. -/
def tEbase (d : BitVec 256) : Int := sextN (fld d 226 217) 10
/-- KB. -/
def tKb (d : BitVec 256) : Nat := fld d 216 209
/-- BFMT. -/
def tBfmt (d : BitVec 256) : Nat := fld d 208 206
/-- AFMT. -/
def tAfmt (d : BitVec 256) : Nat := fld d 205 203
/-- OUTCONV. -/
def tOut (d : BitVec 256) : Nat := fld d 202 201
/-- FINISH. -/
def tFinish (d : BitVec 256) : Bool := fld d 200 200 == 1
/-- INIT. -/
def tInit (d : BitVec 256) : Nat := fld d 199 198
/-- MODE, true for FP32. -/
def tMode (d : BitVec 256) : Bool := fld d 197 197 == 1
/-- BANK. -/
def tBank (d : BitVec 256) : Bool := fld d 196 196 == 1
/-- OPCODE. -/
def tOp (d : BitVec 256) : Nat := fld d 195 192
/-- C_ADDR. -/
def tCaddr (d : BitVec 256) : Nat := fld d 144 128

/-- One operand side of a command: format, element base, scale base and stride (R53). -/
structure Side where
  fmt : Nat
  elem : Nat
  scale : Nat
  stride : Nat
  deriving DecidableEq, Repr

/-- The A side. -/
def tA (d : BitVec 256) : Side := ⟨tAfmt d, fld d 16 0, fld d 33 17, fld d 45 34⟩
/-- The B side. -/
def tB (d : BitVec 256) : Side := ⟨tBfmt d, fld d 80 64, fld d 97 81, fld d 109 98⟩

/-- Address of the elements of block `k` of row or column `r` (R54). -/
def Side.elemAddr (x : Side) (r k : Nat) : Nat := x.elem + (r * x.stride + k) * blockBytes x.fmt
/-- Address of its scale (R54). -/
def Side.scaleAddr (x : Side) (r k : Nat) : Nat := x.scale + r * x.stride + k

/-- The bytes that a side of a command reads, row by row: places and lengths (R54). -/
def Side.reads (x : Side) (kb : Nat) : List (Nat × Nat) :=
  (List.range 8).flatMap fun r =>
    (x.elemAddr r 0, kb * blockBytes x.fmt) :: (if x.fmt = 6 then [] else [(x.scaleAddr r 0, kb)])

/-- The highest byte, plus one, that a side of a command reads (R70). -/
def Side.top (x : Side) (kb : Nat) : Nat :=
  max (x.elemAddr 7 (kb - 1) + blockBytes x.fmt) (if x.fmt = 6 then 0 else x.scaleAddr 7 (kb - 1) + 1)

/-- The highest byte, plus one, that a command reads. -/
def tTop (d : BitVec 256) : Nat :=
  max (if tInit d = 2 then tCaddr d + (if tMode d then 256 else 2048) else 0)
    (if tOp d = 1 then max ((tA d).top (tKb d)) ((tB d).top (tKb d)) else 0)

/-- The bytes that a command reads: places and lengths. -/
def tReads (d : BitVec 256) : List (Nat × Nat) :=
  (if tInit d = 2 then [(tCaddr d, if tMode d then 256 else 2048)] else [])
    ++ (if tOp d = 1 then (tA d).reads (tKb d) ++ (tB d).reads (tKb d) else [])

/-- The checks of R70 that are made when a command is issued, lowest code first (R109): a fault code, or 0. -/
def tileCheck (d : BitVec 256) : Nat :=
  if (tOp d ≠ 1 ∧ tOp d ≠ 2) ∨ tInit d = 3 ∨ tOut d = 3 ∨ (tOp d = 1 ∧ (tAfmt d = 7 ∨ tBfmt d = 7)) then 0x2181
  else if tOp d = 1 ∧ (tAfmt d = 6) ≠ (tBfmt d = 6) then 0x2182
  else if tOp d = 1 ∧ tKb d = 0 then 0x2183
  else if (tA d).elem % 8 ≠ 0 ∨ (tB d).elem % 8 ≠ 0 ∨ (tInit d = 2 ∧ tCaddr d % 128 ≠ 0) then 0x2184
  else if 0x18000 < tTop d then 0x2185
  else 0

/-- `tis`: issues a tile command, unless four are waiting, which stalls the control core (R52, R77, R78). Local writes that
the control core has not waited for may or may not be visible to the command (R67, R68, R135). -/
def execTis (c : Nat) (rs1 : Reg) (s : State) : Res :=
  onCore c (s.ctl c 4 [rs1, rs1 + 1, rs1 + 2, rs1 + 3] fun s =>
    let k := s.core c
    if rs1.toNat % 4 ≠ 0 then s.coreFault c 0x2101 k.pc.toNat
    else if 4 ≤ k.press.waiting.length then s
    else match tileCheck (k.desc rs1) with
      | 0 => s.onCoreState c fun k =>
          ({ k with press := { k.press with
              waiting := k.press.waiting ++ [k.desc rs1], olds := k.press.olds ++ [k.others 16 k.knows] } } : Core).next 4
      | code => s.coreFault c code)

/-- A bank of the press. -/
def Press.bank (p : Press) (b : Bool) : PBank := if b then p.bank1 else p.bank0
/-- Replace a bank of the press. -/
def Press.setBank (p : Press) (b : Bool) (v : PBank) : Press := if b then { p with bank1 := v } else { p with bank0 := v }

/-- Whether the first waiting command may start: every earlier command has read its operands, and its bank is neither
draining nor about to drain (R57, R65). -/
def Press.mayStart (p : Press) (d : BitVec 256) : Bool :=
  p.runs.all (·.readDone) && (p.bank (tBank d)).st != .draining
    && p.runs.all fun r => !(tBank r.desc == tBank d && tFinish r.desc)

/-- The check of a command's bank as it starts (R56, R70). -/
def Press.startCheck (p : Press) (d : BitVec 256) : Nat :=
  if tInit d ≠ 0 then 0
  else if (p.bank (tBank d)).st != .valid then 0x2186
  else if (p.bank (tBank d)).fp != tMode d then 0x2187
  else 0

/-- Whether a command forms no products and drains its bank: the bank drains at once (R56). -/
def drainsAtOnce (d : BitVec 256) : Bool := tOp d == 2 && tFinish d

/-- A command starts: an INIT makes its bank valid in its mode, a NOMAC with FINISH makes it draining (R56), and its
operands begin to be read. -/
def Press.start (p : Press) (d : BitVec 256) : Press :=
  let b := p.bank (tBank d)
  let p := { p with waiting := p.waiting.tail, runs := p.runs ++ [({ desc := d, readDone := false, snap := [] } : PRun)] }
  p.setBank (tBank d) { b with
    st := if drainsAtOnce d then .draining else .valid, fp := if tInit d = 0 then b.fp else tMode d }

/-- PRESS_COMMAND_START: the oldest waiting command starts, or faults on its bank's state (R52, R56, R57, R70). -/
def execPressCommandStart (c : Nat) (s : State) : Res :=
  onCore c (match (s.core c).press.waiting with
    | [] => s
    | d :: _ =>
      let p := (s.core c).press
      if !p.mayStart d then s
      else match p.startCheck d with
        | 0 => s.onCoreState c fun k => { k with press := k.press.start d }
        | code => s.coreFault c code)

/-- The operand bytes of a command: where a byte was written since the command was issued, or by a write not visible to it
then, its value or another that it held, byte by byte (R68, R69). -/
def mixMem (draw : Nat) (os : List Cell) (now : List Cell) : List Cell :=
  os.foldl (fun m x =>
    Mem.write m x.1 (pickByte draw x.1 (Mem.read now x.1) ((os.filter (·.1 == x.1)).map (·.2)))) now

/-- The block `k` of row `r` of a side: its scale and bytes. -/
def Side.block (x : Side) (m : List Cell) (r k : Nat) : Nat × List Byte :=
  ((Mem.read m (x.scaleAddr r k)).toNat, Mem.readN m (x.elemAddr r k) (blockBytes x.fmt))

/-- The 32 products of block `k` for row `r` and column `c` (R47). -/
def products (d : BitVec 256) (m : List Cell) (r c k : Nat) : List FV :=
  let a := (tA d).block m r k
  let b := (tB d).block m c k
  (List.range 32).map fun i => (blockElem (tAfmt d) a.1 a.2 i).mul (blockElem (tBfmt d) b.1 b.2 i)

/-- An accumulator after a command's products in solera mode: each product is a term (R48). -/
def macSolera (d : BitVec 256) (m : List Cell) (r c : Nat) (acc : Solera) : Solera :=
  ((List.range (tKb d)).flatMap (products d m r c)).foldl (fun a t => a.add (Solera.term (tEbase d) t)) acc

/-- One block's exact sum added to an FP32 accumulator and rounded once; the flag says whether a rounding was inexact
(R49). -/
def macBlock (acc : BitVec 32 × Bool) (ps : List FV) : BitVec 32 × Bool :=
  let t := (FV.of32 acc.1).add (sumFV ps)
  (t.to32, acc.2 || (match t with | .fin _ m e => Fmt.f32.inexact m e | _ => false))

/-- An accumulator after a command's products in FP32 mode, blocks in ascending k (R49). -/
def macF32 (d : BitVec 256) (m : List Cell) (r c : Nat) (acc : BitVec 32) : BitVec 32 × Bool :=
  (List.range (tKb d)).foldl (fun a k => macBlock a (products d m r c k)) (acc, false)

/-- The accumulators after INIT: kept, zeroed, or loaded from C_ADDR (R55). -/
def initAcc (d : BitVec 256) (m : List Cell) (acc : List Solera) : List Solera :=
  match tInit d with
  | 0 => acc
  | 1 => List.replicate 64 0
  | _ => (List.range 64).map fun i =>
      if tMode d then BitVec.ofNat 192 (leNat (Mem.readN m (tCaddr d + 4 * i) 4))
      else (Solera.ofBytes (Mem.readN m (tCaddr d + 32 * i) 32)) &&& ~~~(BitVec.ofNat 192 (31 * 2 ^ 184))

/-- A bank after a command: INIT, products, block count and inexact flag (R47 to R49, R55, R58). -/
def PBank.run (b : PBank) (d : BitVec 256) (m : List Cell) : PBank :=
  let acc := initAcc d m b.acc
  let blocks := if tInit d = 0 then b.blocks else 0
  let inex := if tInit d = 0 then b.inexact else false
  if tOp d = 1 then
    let blocks := min 0xFFFFF (blocks + tKb d)
    if tMode d then
      let r := (List.range 64).map fun i => macF32 d m (i / 8) (i % 8) ((acc.getD i 0).setWidth 32)
      { b with acc := r.map (·.1.setWidth 192), blocks := blocks, inexact := inex || r.any (·.2) }
    else
      { b with
        acc := (List.range 64).map fun i => macSolera d m (i / 8) (i % 8) (acc.getD i 0)
        blocks := blocks, inexact := inex }
  else { b with acc := acc, blocks := blocks, inexact := inex }

/-- The payload format FMT of a drain: 0 solera, 1 FP32, 2 BF16 (R63). -/
def payloadFmt (d : BitVec 256) : Nat := if tOut d = 0 then b2n (tMode d) else tOut d

/-- An accumulator's value as it is drained (R63). -/
def drainVal (d : BitVec 256) (a : Solera) : Solera :=
  match payloadFmt d with
  | 0 => a
  | 1 => if tMode d then a else (a.toFV (tEbase d)).to32.setWidth 192
  | _ => if tMode d then (FV.of32 (a.setWidth 32)).to16.setWidth 192 else (a.toFV (tEbase d)).to16.setWidth 192

/-- Whether the output conversion turned a finite value into an infinity (R61). -/
def drainInf (d : BitVec 256) (a : Solera) : Bool :=
  match payloadFmt d with
  | 0 => false
  | 1 => !tMode d && (match a.toFV (tEbase d) with | .fin _ m e => decide (Fmt.f32.maxCode < Fmt.f32.round m e) | _ => false)
  | _ =>
    match (if tMode d then FV.of32 (a.setWidth 32) else a.toFV (tEbase d)) with
    | .fin _ m e => decide (Fmt.bf16.maxCode < Fmt.bf16.round m e)
    | _ => false

/-- The finished-tile entry of a bank (R61 to R63). -/
def PBank.tile (b : PBank) (d : BitVec 256) : Tile :=
  let n := if b.fp then b.acc.any (fun a => isNaN32 (a.setWidth 32)) else b.acc.any Solera.n
  let v := if b.fp then b.acc.any (fun a => a.toNat % 2 ^ 31 == 0x7F800000) else b.acc.any Solera.v
  let x := if b.fp then b.inexact else b.acc.any Solera.x
  { hdr := BitVec.ofNat 64 (2 ^ 48 * tTag d + 2 ^ 38 * fld d 226 217 + 2 ^ 36 * payloadFmt d + 2 ^ 35 * b2n b.fp
      + 2 ^ 34 * b2n (tBank d) + 2 ^ 33 * b2n n + 2 ^ 32 * b2n v + 2 ^ 31 * b2n x
      + 2 ^ 30 * b2n (b.acc.any (drainInf d)) + b.blocks)
    vals := b.acc.map (drainVal d) }

/-- The press after the last product of its oldest started command: the bank is updated, and with FINISH it drains
(R56, R60). -/
def Press.product (p : Press) (r : PRun) : Press :=
  let b := (p.bank (tBank r.desc)).run r.desc r.snap
  let p := { p with runs := p.runs.tail }
  if tFinish r.desc then
    { (p.setBank (tBank r.desc) { b with st := .draining }) with drains := p.drains ++ [(tBank r.desc, b.tile r.desc)] }
  else p.setBank (tBank r.desc) b

/-- Commands without products that have read their operands have nothing to wait for but the products of the commands
before them (R47, R56, R59). -/
def Press.settle : List PRun → Press → Press
  | [], p => p
  | r :: rest, p => if tOp r.desc = 2 ∧ r.readDone then Press.settle rest (p.product r) else p

/-- The last operand byte of the command that is reading has been read: the read-done count rises (R64, R69). -/
def Press.read (p : Press) (snap : List Cell) : Press :=
  let p := { p with
    rdone := p.rdone + 1, olds := p.olds.tail
    runs := p.runs.map fun r => if r.readDone then r else { r with readDone := true, snap := snap } }
  Press.settle p.runs p

/-- PRESS_READ_DONE: the last operand byte of the command that is reading has been read (R64, R69). An error in the bytes
is corrected and counted, or ends the kernel with `CC_MEM_UE` (R88). -/
def execPressReadDone (c : Nat) (s : State) : Res :=
  onCore c (match (s.core c).press.runs.find? fun r => !r.readDone with
    | some r => s.checkedAll c (tReads r.desc) fun t =>
        (t.onCoreState c fun k => { k with press := k.press.read (mixMem s.freeCtr (k.press.olds.headD []) k.ldst) }).drew
    | none => s)

/-- PRESS_LAST_PRODUCT: the last product of the oldest started command has been accumulated (R47, R64). -/
def execPressLastProduct (c : Nat) (s : State) : Res :=
  onCore c (match (s.core c).press.runs with
    | r :: _ => whenever r.readDone s (s.onCoreState c fun k =>
        let p := k.press.product r
        { k with press := Press.settle p.runs p })
    | [] => s)

/-- PRESS_DRAIN_COMPLETE: the oldest drain enters the finished-tile queue where it has a free slot, and its bank becomes
invalid (R56, R59, R60). -/
def execPressDrainComplete (c : Nat) (s : State) : Res :=
  onCore c (match (s.core c).press.drains with
    | (b, t) :: rest =>
      whenever (decide ((s.core c).press.queue.length < 8)) s (s.onCoreState c fun k => { k with press :=
        { (k.press.setBank b PBank.reset) with drains := rest, queue := k.press.queue ++ [t] } })
    | [] => s)

/-- Commands issued whose read-done increment has not yet occurred (R99). -/
def Press.owed (p : Press) : Nat := p.waiting.length + (p.runs.filter fun r => !r.readDone).length

/-- `pwait`: waits for the read-done count, or faults where it can never be reached (R77, R99). -/
def execPwait (c : Nat) (rs1 : Reg) (imm : BitVec 13) (s : State) : Res :=
  onCore c (s.ctl c 4 [rs1] fun s =>
    let k := s.core c
    let target := (k.reg rs1 + imm13 imm).toNat % 2 ^ 16
    let gap := (target + 2 ^ 16 - k.press.rdone.toNat) % 2 ^ 16
    if 1 ≤ gap ∧ gap < 2 ^ 15 ∧ k.press.owed < gap then s.coreFault c 0x2109
    else s.setCore c { k with wait := .pwait target })

/-- PWAIT_RETURN: the read-done count has reached the target (R99). -/
def execPwaitReturn (c : Nat) (s : State) : Res :=
  onCore c (match (s.core c).wait with
    | .pwait t =>
      whenever (decide (((s.core c).press.rdone.toNat + 2 ^ 16 - t) % 2 ^ 16 < 2 ^ 15)) s
        (s.onCoreState c fun k => { k with wait := .none }.next 4)
    | _ => s)

end Sys2Proof.Machine
end

