-- ==== Sys2Proof/Machine/Dma.lean ====
section
/-!
DEFINITION. Machine/Dma.lean: asynchronous copies, arrival counters, and the control core's `cpy` and `await` (R92 to
R100, R107).
-/

namespace Sys2Proof.Machine

/-! ### Fields of the copy descriptor (R93) -/

/-- OPCODE: 1 global to local, 2 local to global. -/
def cOp (d : BitVec 256) : Nat := fld d 255 252
/-- ACTR. -/
def cActr (d : BitVec 256) : Nat := fld d 251 248
/-- CHAN. -/
def cChan (d : BitVec 256) : Nat := fld d 247 247
/-- CLASS. -/
def cClass (d : BitVec 256) : Nat := fld d 246 244
/-- ROWS_M1. -/
def cRows (d : BitVec 256) : Nat := fld d 207 192
/-- ROWLEN. -/
def cLen (d : BitVec 256) : Nat := fld d 178 162
/-- LSTRIDE. -/
def cLstride (d : BitVec 256) : Nat := fld d 161 145
/-- LADDR. -/
def cLaddr (d : BitVec 256) : Nat := fld d 144 128
/-- GSTRIDE. -/
def cGstride (d : BitVec 256) : Nat := fld d 95 64
/-- GADDR. -/
def cGaddr (d : BitVec 256) : Nat := fld d 47 0

/-- Whether a copy may use its class (R95). -/
def copyClass (d : BitVec 256) : Bool :=
  if cOp d = 1 then cClass d != 7 else cClass d != 0 && cClass d != 3 && cClass d != 7

/-- The checks of R107 made as the `cpy` issues, lowest code first: a fault code, or 0. -/
def copyCheck (d : BitVec 256) : Nat :=
  if (cOp d ≠ 1 ∧ cOp d ≠ 2) ∨ cLen d = 0 then 0x2141
  else if cGaddr d % 8 ≠ 0 ∨ cGstride d % 8 ≠ 0 ∨ cLaddr d % 8 ≠ 0 ∨ cLstride d % 8 ≠ 0 ∨ cLen d % 8 ≠ 0 then 0x2142
  else if 0x1C000 < cLaddr d + cRows d * cLstride d + cLen d then 0x2143
  else if !copyClass d then 0x2146
  else 0

/-- Raise the issued count of a counter for a new item; the caller has checked the count (R97, R98). Its local accesses
race with the local writes that the control core does not know of, and with those to come (R100, R101). -/
def Core.newItem (k : Core) (ctr id left chan : Nat) (kind : AKind) : Core :=
  { k with
    issued := put k.issued ctr (cnt k.issued ctr + 1)
    items := k.items ++ [{ ctr := ctr, id := id, left := left, complete := false, kind := kind, chan := chan
                           no := cnt k.issued ctr + 1, olds := k.others 16 k.knows }] }

/-- Completed items raise their counters' arrived counts, each counter in issue order (R97). -/
def arrive (items : List AItem) (arrived : List (Nat × Nat)) (blocked : List Nat) : List AItem × List (Nat × Nat) :=
  match items with
  | [] => ([], arrived)
  | i :: rest =>
    if i.complete && !blocked.contains i.ctr then arrive rest (put arrived i.ctr (cnt arrived i.ctr + 1)) blocked
    else
      let r := arrive rest arrived (i.ctr :: blocked)
      (i :: r.1, r.2)

/-- One part of an item has returned; when none is left it is complete and its counter rises in its turn (R96, R97). -/
def Core.itemBack (k : Core) (id : Nat) : Core :=
  let items := k.items.map fun (i : AItem) =>
    if i.id = id then { i with left := i.left - 1, complete := i.left ≤ 1 } else i
  let r := arrive items k.arrived []
  { k with items := r.1, arrived := r.2 }

/-- The channel of a core. -/
def Core.chan (k : Core) (ch : Nat) : List Copy := if ch = 0 then k.chan0 else k.chan1
/-- Replace a channel of a core. -/
def Core.setChan (k : Core) (ch : Nat) (l : List Copy) : Core := if ch = 0 then { k with chan0 := l } else { k with chan1 := l }

/-- `cpy`: issues a copy, unless its channel holds eight, which stalls the control core (R77, R78, R92, R98). -/
def execCpy (c : Nat) (rd rs1 : Reg) (s : State) : Res :=
  onCore c (s.ctl c 4 [rd, rs1, rs1 + 1, rs1 + 2, rs1 + 3] fun s =>
    let k := s.core c
    let d := k.desc rs1
    if rs1.toNat % 4 ≠ 0 then s.coreFault c 0x2101 k.pc.toNat
    else if 8 ≤ (k.chan (cChan d)).length then s
    else match copyCheck d with
      | 0 =>
        if cnt k.issued (cActr d) = 0xFFFFFFFF then s.coreFault c 0x2147
        else
          let k := k.newItem (cActr d) s.nextTag 1 (cChan d) .copy
          let k := k.setChan (cChan d) (k.chan (cChan d) ++ [{ id := s.nextTag, desc := d, next := 0 }])
          { s.setCore c ((k.setReg rd (BitVec.ofNat 64 (cnt k.issued (cActr d)))).next 4) with nextTag := s.nextTag + 1 }
      | code => s.coreFault c code)

/-- Requests of one channel of a core that have not returned (R92). -/
def State.chanOut (s : State) (c ch : Nat) : Nat :=
  (s.reqs.filter fun r => match r.agent with
    | .dmaRead k i _ => k == c && (s.core c).items.any fun x => x.id == i && x.chan == ch
    | .dmaWrite k i => k == c && (s.core c).items.any fun x => x.id == i && x.chan == ch
    | _ => false).length

/-- Row, global address, local address and size of a copy's next request; `next` holds row × 2^17 + offset (R94). -/
def Copy.request (x : Copy) : Nat × Nat × Nat × Nat :=
  let r := x.next / 2 ^ 17
  let o := x.next % 2 ^ 17
  let g := cGaddr x.desc + r * cGstride x.desc + o
  (r, g, cLaddr x.desc + r * cLstride x.desc + o, min (cLen x.desc - o) (128 - g % 128))

/-- Where a copy stands after its next request. -/
def Copy.after (x : Copy) : Nat :=
  let o := x.next % 2 ^ 17 + x.request.2.2.2
  if o = cLen x.desc then (x.next / 2 ^ 17 + 1) * 2 ^ 17 else x.next / 2 ^ 17 * 2 ^ 17 + o

/-- Whether channel `ch` may generate a request now: its limits, and its turn where only one more fits (R92). -/
def State.chanReady (s : State) (c ch : Nat) : Bool :=
  let k := s.core c
  let total := (s.dmaOut c).length
  decide (total < 64) && decide (s.chanOut c ch < 48) && !(k.chan ch).isEmpty
    && (decide (total < 63) || (k.chan (1 - ch)).isEmpty || decide (48 ≤ s.chanOut c (1 - ch)) || k.turn == (ch == 1))

/-- The bookkeeping of a generated request: one more part to return, and the copy leaves its channel once it has
generated all of them. -/
def Core.generated (k : Core) (ch : Nat) (x : Copy) : Core :=
  let k := { k with
    turn := ch == 0
    items := k.items.map fun (i : AItem) => if i.id = x.id then { i with left := i.left + 1 } else i }
  if cRows x.desc < x.after / 2 ^ 17 then (k.setChan ch ((k.chan ch).tail)).itemBack x.id
  else k.setChan ch ({ x with next := x.after } :: (k.chan ch).tail)

/-- A DMA request sets out: a row beyond 48 bits and the register window are refused, as the request returns (R107). -/
def State.dmaIssue (s : State) (c : Nat) (r : Req) : State :=
  if 2 ^ 48 ≤ r.va then s.deny c r 0x2144 else if isReg r.va then s.deny c r 0x2145 else s.issue c r

/-- DMA_REQUEST: a channel generates the next request of its oldest copy (R92, R94). -/
def execDmaRequest (c ch : Nat) (s : State) : Res :=
  onCore c (match (s.core c).chan ch with
    | [] => s
    | x :: _ =>
      if 2 ≤ ch ∨ !s.chanReady c ch then s
      else
        let k := s.core c
        let (_, g, l, n) := x.request
        let r := { Req.reset with ctx := k.ctx, va := g, size := n, cls := cClass x.desc, bypass := true, draft := k.draft }
        if cOp x.desc = 1 then
          (s.onCoreState c (·.generated ch x)).dmaIssue c { r with agent := .dmaRead c x.id l, kind := .read }
        else (s.fresh c).checked c l n fun s =>
          (s.onCoreState c (·.generated ch x)).dmaIssue c
            { r with agent := .dmaWrite c x.id, kind := .write, data := (s.core c).seeItem x.id l n })

/-- A copy request has come back: its fault is raised, or `f` gives its effect on the core. A kernel that is stopping may
thereby reach DONE (R107, R108). -/
def State.dmaBack (s : State) (c : Nat) (r : Req) (f : Core → Core) : State :=
  let t := (s.dropReq r.tag).fresh c
  let code := if r.err ≠ 0 then r.err else if r.poison then 0x2148 else 0
  (if code = 0 then t.onCoreState c f else t.coreFault c code r.va).finishIfQuiet c

/-- DMA_RESPONSE: a copy request returns: local bytes are written, or the write has been accepted at its point of
coherence; a denied address and poison end the kernel (R96, R97, R107). -/
def execDmaResponse (tag : Nat) (s : State) : Res :=
  .next (match s.here? tag with
    | some r =>
      match r.agent, r.stage with
      | .dmaRead c i l, .done =>
        s.dmaBack c r fun k => (k.storeItem i l (slice r.data (r.va % 128) r.size)).itemBack i
      | .dmaWrite c i, .done => s.dmaBack c r (·.itemBack i)
      | _, _ => s
    | none => s)

/-- `await`: waits for an arrival counter, or faults where the target exceeds its issued count (R77, R98). -/
def execAwaitArr (c k : Nat) (rs1 : Reg) (imm : BitVec 13) (s : State) : Res :=
  onCore c (s.ctl c 4 [rs1] fun s =>
    let x := s.core c
    let target := (x.reg rs1 + imm13 imm).toNat % 2 ^ 32
    if cnt x.issued (k % 16) < target then s.coreFault c 0x2109
    else s.setCore c { x with wait := .await (k % 16) target })

/-- AWAIT_RETURN: the counter has reached the target (R98). -/
def execAwaitReturn (c : Nat) (s : State) : Res :=
  onCore c (match (s.core c).wait with
    | .await k t =>
      whenever (decide (t ≤ cnt (s.core c).arrived k)) s (s.onCoreState c fun x =>
        { x with wait := .none, knows := learn x.knows k (cnt x.arrived k) }.settled.next 4)
    | _ => s)

end Sys2Proof.Machine
end

