-- ==== Sys2Proof/Machine/Vector.lean ====
section
/-!
DEFINITION. Machine/Vector.lean: the vector engine (chapter 05): the control core's class 0x40–0x4F, the issue of a group
instruction, its operands, and the local, compute and finished-tile operations.
-/

namespace Sys2Proof.Machine

/-! ### Threads and their operands (R111, R116) -/

/-- The group in a slot. -/
def Core.group (k : Core) (g : Nat) : Group := get k.groups g Group.reset
/-- Thread `i` of a group. -/
def Core.thread (k : Core) (g i : Nat) : Thread := get (k.group g).threads i Thread.reset
/-- Change thread `i` of the group in a slot. -/
def Core.onThread (k : Core) (g i : Nat) (f : Thread → Thread) : Core :=
  let x := k.group g
  { k with groups := put k.groups g { x with threads := put x.threads i (f (k.thread g i)) } }

/-- A vector register. -/
def Thread.reg (t : Thread) (n : Nat) : BitVec 32 := get t.regs n 0
/-- Write a vector register. -/
def Thread.setReg (t : Thread) (n : Nat) (v : BitVec 32) : Thread := { t with regs := put t.regs n v }

/-- The local address of thread `i`'s bytes of the operand cache slot that an operand code names (R128). -/
def slotAddr (code : BitVec 8) (i : Nat) : Nat := 0x18000 + 128 * (code.toNat - 0x80) + 4 * i

/-- The number under which thread `i` of group slot `g` writes local bytes. -/
def threadNo (g i : Nat) : Nat := 17 + 32 * g + i

/-- A local read by a thread (R101, R131). -/
def Core.seeT (k : Core) (g i a n : Nat) : List Byte :=
  raced k.rdraw (k.others (threadNo g i) (k.thread g i).knows) k.ldst a n

/-- A local write by a thread. -/
def Core.storeT (k : Core) (g i a : Nat) (d : List Byte) : Core := k.storeBy (threadNo g i) (k.thread g i).knows a d

/-- A broadcast entry as a group reads it: the oldest value that it has not passed (R127). -/
def Core.bread (k : Core) (g n : Nat) : BitVec 32 := (find? (k.group g).late n).getD (get k.bcast n 0)

/-- `j` older values of entry `n` are passed. -/
def dropLate (n : Nat) : Nat → List (Nat × BitVec 32) → List (Nat × BitVec 32)
  | 0, l => l
  | j + 1, l => dropLate n j (l.eraseP (·.1 == n))

/-- An instruction of a running group that names broadcast entries reads of each the old or the new value, and never again
one that it has passed (R127). -/
def Core.refreshed (k : Core) (g : Nat) (codes : List (BitVec 8)) : Core :=
  if (k.group g).late.isEmpty then k
  else (codes.filter fun c => decide (0x40 ≤ c.toNat ∧ c.toNat < 0x60)).foldl (fun k c =>
    let x := k.group g
    let n := c.toNat - 0x40
    let older := (x.late.filter (·.1 == n)).length
    { k with groups := put k.groups g { x with late := dropLate n (Config.pick k.rdraw (2 ^ 20 + n) % (older + 1)) x.late } }) k

/-- A 32-bit source: register, broadcast entry, immediate (as FP32 bits where `fp`) or slot (R116). -/
def Core.vsrc (k : Core) (g i : Nat) (imm : BitVec 20) (fp : Bool) (code : BitVec 8) : BitVec 32 :=
  let n := code.toNat
  if n < 0x40 then (k.thread g i).reg n
  else if n < 0x60 then k.bread g (n - 0x40)
  else if n = 0x60 then (if fp then (imm.setWidth 32) <<< 12 else imm.signExtend 32)
  else BitVec.ofNat 32 (leNat (k.seeT g i (slotAddr code i) 4))

/-- Write a 32-bit destination (R116). -/
def Core.vput (k : Core) (g i : Nat) (code : BitVec 8) (v : BitVec 32) : Core :=
  if code.toNat < 0x40 then k.onThread g i (·.setReg code.toNat v)
  else k.storeT g i (slotAddr code i) (leBytes v.toNat 4)

/-- A solera operand v(n) to v(n + 5) (R116). -/
def Core.vsol (k : Core) (g i : Nat) (code : BitVec 8) : Solera :=
  BitVec.ofNat 192 ((List.range 6).foldl (fun a j => a + ((k.thread g i).reg (code.toNat + j)).toNat * 2 ^ (32 * j)) 0)
/-- Write a solera operand. -/
def Core.vputSol (k : Core) (g i : Nat) (code : BitVec 8) (w : Solera) : Core :=
  k.onThread g i fun t => (List.range 6).foldl (fun t j => t.setReg (code.toNat + j) ((w >>> (32 * j)).setWidth 32)) t

/-- The operands an operation names and the IMM20 bits it uses. -/
structure VUse where
  /-- 32-bit sources -/
  src : List (BitVec 8) := []
  /-- an immediate source is FP32 bits (R116) -/
  fp : Bool := false
  /-- global address pairs -/
  pair : List (BitVec 8) := []
  /-- solera operands -/
  sol : List (BitVec 8) := []
  /-- 32-bit destinations -/
  dst : List (BitVec 8) := []
  /-- mask of the IMM20 bits the operation uses beside an immediate operand -/
  imm : BitVec 20 := 0
  /-- another field or combination is reserved or not permitted -/
  bad : Bool := false
  /-- occupancy in cycles (R124) -/
  occ : Nat := 2
  deriving DecidableEq, Repr

/-- A reserved source code (R116). -/
def badSrc (c : BitVec 8) : Bool := decide (0x61 ≤ c.toNat ∧ c.toNat < 0x80)
/-- A destination that is reserved, a broadcast entry or an immediate (R116). -/
def badDst (c : BitVec 8) : Bool := decide (0x40 ≤ c.toNat ∧ c.toNat < 0x80)
/-- A register operand that is not a register or not a multiple of `n`. -/
def badMulti (n : Nat) (c : BitVec 8) : Bool := decide (0x40 ≤ c.toNat) || c.toNat % n != 0

/-- Whether an instruction raises `VE_ILLEGAL` (R116, R124, R144). An operand field that the operation does not use is
ignored: DESIGN CHOICE, the spec does not call it reserved (assumption 85). -/
def VUse.illegal (u : VUse) (v : VInstr) : Bool :=
  u.bad || u.src.any badSrc || u.dst.any badDst || u.pair.any (badMulti 2) || u.sol.any (badMulti 8)
    || (!u.src.contains 0x60 && (v.imm &&& ~~~u.imm) != 0)

/-- The operand codes an instruction names, one per register. -/
def VUse.names (u : VUse) : List Nat :=
  u.src.map (·.toNat) ++ u.dst.map (·.toNat) ++ u.pair.flatMap (fun c => [c.toNat, c.toNat + 1])
    ++ u.sol.flatMap (fun c => (List.range 6).map (c.toNat + ·))

/-- The operand cache bytes an instruction reads for the threads `e`. -/
def VUse.slotReads (u : VUse) (e : List Nat) : List (Nat × Nat) :=
  (u.src.filter fun c => decide (0x80 ≤ c.toNat)).flatMap fun c => e.map fun i => (slotAddr c i, 4)

/-! ### Requests of a thread that are outstanding -/

/-- Whether a request is a store or an atomic of thread `i` of group `g` of core `c`. -/
def Req.storeOf (r : Req) (c g i : Nat) : Bool :=
  match r.agent with
  | .vecStore c' g' i' => c' == c && g' == g && i' == i
  | .vecAtom c' g' _ => c' == c && g' == g && r.ops.any (·.thread == i)
  | _ => false

/-- Whether a request is a load or an atomic of thread `i` of group `g` of core `c`. -/
def Req.loadOf (r : Req) (c g i : Nat) : Bool :=
  match r.agent with
  | .vecLoad c' g' i' _ _ => c' == c && g' == g && i' == i
  | .vecAtom c' g' _ => c' == c && g' == g && r.ops.any (·.thread == i)
  | _ => false

/-- No store or atomic of the thread is unanswered. -/
def State.storesDone (s : State) (c g i : Nat) : Bool := s.reqs.all fun r => !r.storeOf c g i
/-- No load or atomic of the thread is unanswered. -/
def State.loadsDone (s : State) (c g i : Nat) : Bool := s.reqs.all fun r => !r.loadOf c g i

/-! ### Barriers and the end of a group (R111, R136) -/

/-- Whether the barrier `b` of a group completes: every thread waits at it or has exited, and what the waiting threads
stored before it has been performed (R136, R137). -/
def State.barrierDone (s : State) (c g b : Nat) : Bool :=
  (List.range 32).all fun i =>
    let t := (s.core c).thread g i
    !t.live || (t.wait == .barrier b && s.storesDone c g i && s.loadsDone c g i)

/-- A thread is ready again: its ready time lies within the longest delay of R143 after the event. -/
def Thread.woken (t : Thread) (now : Nat) : Thread := { t with wait := .none, since := now, usable := now + 24, passed := false }

/-- The writes that thread `i` of a group knows of, its own included. -/
def Core.knownTo (k : Core) (g i : Nat) : List (Nat × Nat) := learn (k.thread g i).knows (threadNo g i) k.writes

/-- A barrier that completes makes its threads ready together, and each of them sees what the others wrote before it
(R136, R137). -/
def State.barrier (s : State) (c g b : Nat) : State :=
  whenever (s.barrierDone c g b) s (s.onCoreState c fun k =>
    let x := k.group g
    let all := (x.threads.filter fun t => t.2.wait == .barrier b).foldl (fun m t => learnAll m (k.knownTo g t.1)) []
    { k with groups := put k.groups g { x with
        threads := x.threads.map fun t => (t.1, if t.2.wait = .barrier b then
          { t.2.woken k.vcycles with knows := learnAll t.2.knows all } else t.2) } })

/-- A group whose threads have all exited and whose stores and atomics have all been answered frees its slot (R111); what
its acquires put before later accesses, the control core's later ones follow too. -/
def State.reap (s : State) (c g : Nat) : State :=
  whenever ((List.range 32).all fun i => !((s.core c).thread g i).live && s.storesDone c g i) s
    (s.onCoreState c fun k => { k with
      groups := drop k.groups g
      acqs := k.acqs ++ s.pendingAcqs ((k.group g).threads.flatMap fun t => t.2.acqs) })

/-- What follows a change in a resident group: its barriers, then its end. -/
def State.settle (s : State) (c g : Nat) : State :=
  whenever (find? (s.core c).groups g).isSome s
    (((((s.barrier c g 0).barrier c g 1).barrier c g 2).barrier c g 3).reap c g)

/-! ### The issue of a group instruction (R110, R117, R118) -/

/-- The threads of a group that are ready at the instruction: live, at its program counter, waiting for nothing, with
every operand it names available, and `ready` of what the operation itself asks. -/
def State.vready (s : State) (v : VInstr) (u : VUse) (ready : Nat → Bool) : List Nat :=
  (List.range 32).filter fun i =>
    let t := (s.core v.core).thread v.group i
    t.live && t.pc == v.pc && t.wait == .none && u.names.all (fun n => (find? t.busy n).isNone) && ready i

/-! ### The scheduler (R118, R119)

Ready times are counted in the cycles that group instructions have occupied the engine, which never run ahead of the
clock. A thread becomes ready no earlier than it came to its program counter (`since`) and, once no load of it is
outstanding, no later than `usable`. A candidate that is older for certain, or exactly as old and preferred by the ties of
R118, is issued first; between others the command names the choice (DESIGN CHOICE, assumption 93). -/

/-- A thread that is known to be ready: whatever its instruction, its operands are available, and no condition of the
instruction itself has been found unmet. -/
def Core.poised (k : Core) (t : Thread) : Bool :=
  t.live && t.wait == .none && t.busy.isEmpty && !t.passed && k.hasCode t.pc

/-- The threads that are known to be ready, each with its slot. -/
def Core.candidates (k : Core) : List (Nat × Thread) :=
  k.groups.flatMap fun x => (x.2.threads.filter fun t => k.poised t.2).map fun t => (x.1, t.2)

/-- Whether the candidate of slot `g'` at `pc'`, exactly as old, comes before the one with the ready threads `ts` (R118). -/
def Core.tieBefore (k : Core) (g pc : Nat) (ts : List Nat) (g' pc' : Nat) : Bool :=
  let n := (k.candidates.filter fun y => y.1 == g' && y.2.pc == pc').length
  decide (ts.length < n) || (n == ts.length && (decide (g' < g) || (g' == g && decide (pc' < pc))))

/-- Whether the scheduler takes another candidate before the one of slot `g` at `pc` with the ready threads `ts` (R118). -/
def Core.overtaken (k : Core) (g pc : Nat) (ts : List Nat) : Bool :=
  let own := ts.map (k.thread g)
  let t0 := own.foldl (fun a t => min a t.since) ((own.headD Thread.reset).since)
  let exact := own.any fun t => decide (t.usable ≤ t0)
  k.candidates.any fun x => !(x.1 == g && x.2.pc == pc) &&
    (decide (x.2.usable < t0) || (exact && x.2.usable == t0 && x.2.since == t0 && k.tieBefore g pc ts x.1 x.2.pc))

/-- An attempt to issue found the operation's own condition unmet: its threads are not known to be ready. -/
def State.passBy (s : State) (v : VInstr) (u : VUse) : State :=
  let ts := s.vready v u fun _ => true
  whenever (!ts.isEmpty) s (s.onCoreState v.core fun k =>
    ts.foldl (fun k i => k.onThread v.group i fun t => { t with passed := true }) k)

/-- The ready threads of an issue advance; the lanes are occupied for the operation's cycles (R110, R117, R124). -/
def Core.advance (k : Core) (v : VInstr) (u : VUse) (ts : List Nat) : Core :=
  let k := { k.touchCode v.pc with vcycles := k.vcycles + u.occ }
  ts.foldl (fun k i => k.onThread v.group i fun t =>
    { t with pc := v.pc + 8, since := k.vcycles, usable := k.vcycles + 24, passed := false }) k

/-- The lowest fault code of a list in which 0 stands for none (R109). -/
def lowestCode (l : List Nat) : Nat := l.foldl (fun a x => if x = 0 then a else if a = 0 then x else min a x) 0

/-- A group instruction issues: the ready threads advance, and `eff` acts for those that execute it, lowest first
(R117). The command names a candidate; nothing is issued where the scheduler of R118 takes another. `check` gives a
thread's fault, `locals` its local reads; an issue that faults has no other effect (assumption 13). -/
def State.vec (s : State) (v : VInstr) (u : VUse) (ready : Nat → Bool) (check : Core → Nat → Nat)
    (locals : Core → Nat → List (Nat × Nat)) (eff : State → List Nat → State) : State :=
  let c := v.core
  let ts := s.vready v u ready
  if !(s.core c).run || (s.core c).stopping || s.stopped c || s.redStalled c then s
  else if ts.isEmpty then s.passBy v u
  else if !s.inCode 8 v.pc 8 then s.coreFault c 0x21C9 v.pc
  else if !(s.core c).hasCode v.pc then s.askCode c v.pc true
  else if (s.core c).overtaken v.group v.pc ts then s
  else if u.illegal v then s.coreFault c 0x21C1 v.pc
  else
    let s := (s.fresh c).onCoreState c (·.refreshed v.group u.src)
    let k := s.core c
    let e := ts.filter fun i => !v.pen || (k.thread v.group i).preds.getLsbD v.pidx.toNat
    match lowestCode (e.map (check k)) with
    | 0 =>
      s.checkedAll c (u.slotReads e ++ e.flatMap (locals k)) fun s =>
        eff ((s.stepped c).onCoreState c (·.advance v u ts)) e
    | code => s.coreFault c code v.pc

/-- An operation that only computes: for each executing thread, `f` changes the core. -/
def State.vlanes (s : State) (v : VInstr) (u : VUse) (f : Core → Nat → Core) : State :=
  s.vec v u (fun _ => true) (fun _ _ => 0) (fun _ _ => []) fun s e =>
    s.onCoreState v.core fun k => e.foldl f k

/-- d = f a b (R124). -/
def State.vbin (s : State) (v : VInstr) (fp : Bool) (f : BitVec 32 → BitVec 32 → BitVec 32) : State :=
  s.vlanes v { src := [v.sa, v.sb], fp := fp, dst := [v.dst] } fun k i =>
    k.vput v.group i v.dst (f (k.vsrc v.group i v.imm fp v.sa) (k.vsrc v.group i v.imm fp v.sb))

/-- d = f a (R124); `imm` is the mask of IMM20 bits the operation uses. -/
def State.vun (s : State) (v : VInstr) (fp : Bool) (imm : BitVec 20) (f : BitVec 32 → BitVec 32) (occ : Nat := 2) : State :=
  s.vlanes v { src := [v.sa], fp := fp, dst := [v.dst], imm := imm, occ := occ } fun k i =>
    k.vput v.group i v.dst (f (k.vsrc v.group i v.imm fp v.sa))

/-- A compare writes predicate DST[2:0] (R117). -/
def State.vcmp (s : State) (v : VInstr) (fp : Bool) (imm : BitVec 20) (bad : Bool)
    (f : BitVec 32 → BitVec 32 → Bool) : State :=
  s.vlanes v { src := [v.sa, v.sb], fp := fp, imm := imm, bad := bad || decide (8 ≤ v.dst.toNat) } fun k i =>
    let r := f (k.vsrc v.group i v.imm fp v.sa) (k.vsrc v.group i v.imm fp v.sb)
    k.onThread v.group i fun t =>
      { t with preds := if r then t.preds ||| ((1 : BitVec 8) <<< (v.dst.toNat % 8)) else t.preds &&& ~~~((1 : BitVec 8) <<< (v.dst.toNat % 8)) }

/-! ### Arithmetic (R120 to R125) -/

/-- `fadd` (R124). -/
def execFadd (v : VInstr) (s : State) : Res := onCore v.core (s.vbin v true f32add)
/-- `fsub` (R124). -/
def execFsub (v : VInstr) (s : State) : Res := onCore v.core (s.vbin v true f32sub)
/-- `fmul` (R124). -/
def execFmul (v : VInstr) (s : State) : Res := onCore v.core (s.vbin v true f32mul)
/-- `ffma` (R124). -/
def execFfma (v : VInstr) (s : State) : Res :=
  onCore v.core (s.vlanes v { src := [v.sa, v.sb, v.sc], fp := true, dst := [v.dst] } fun k i =>
    k.vput v.group i v.dst (f32fma (k.vsrc v.group i v.imm true v.sa) (k.vsrc v.group i v.imm true v.sb)
      (k.vsrc v.group i v.imm true v.sc)))
/-- `fmin` (R121). -/
def execFmin (v : VInstr) (s : State) : Res := onCore v.core (s.vbin v true f32min)
/-- `fmax` (R121). -/
def execFmax (v : VInstr) (s : State) : Res := onCore v.core (s.vbin v true f32max)

/-- The relations of `fcmp` (R121, R124). -/
def fcmpRel (rel : Nat) (a b : BitVec 32) : Bool :=
  let un := isNaN32 a || isNaN32 b
  match rel with
  | 0 => !un && cmpKey a == cmpKey b
  | 1 => un || cmpKey a != cmpKey b
  | 2 => !un && decide (cmpKey a < cmpKey b)
  | 3 => !un && decide (cmpKey a ≤ cmpKey b)
  | _ => un

/-- `fcmp` (R121, R124). -/
def execFcmp (v : VInstr) (s : State) : Res :=
  onCore v.core (s.vcmp v true 0x7 (decide (4 < v.imm.toNat % 8)) (fcmpRel (v.imm.toNat % 8)))

/-- `sel` (R124). -/
def execVecSel (v : VInstr) (s : State) : Res :=
  onCore v.core (s.vlanes v { src := [v.sa, v.sb], dst := [v.dst], imm := 0x7 } fun k i =>
    k.vput v.group i v.dst (if (k.thread v.group i).preds.getLsbD (v.imm.toNat % 8)
      then k.vsrc v.group i v.imm false v.sa else k.vsrc v.group i v.imm false v.sb))

/-- `fexp2` (R122). -/
def execFexp2 (v : VInstr) (s : State) : Res := onCore v.core (s.vun v true 0 f32exp2 8)
/-- `frcp` (R122). -/
def execFrcp (v : VInstr) (s : State) : Res := onCore v.core (s.vun v true 0 f32rcp 8)
/-- `frsqrt` (R122). -/
def execFrsqrt (v : VInstr) (s : State) : Res := onCore v.core (s.vun v true 0 f32rsqrt 8)
/-- `iadd` (R124). -/
def execIadd (v : VInstr) (s : State) : Res := onCore v.core (s.vbin v false (· + ·))
/-- `isub` (R124). -/
def execIsub (v : VInstr) (s : State) : Res := onCore v.core (s.vbin v false (· - ·))
/-- `imul` (R124). -/
def execImul (v : VInstr) (s : State) : Res := onCore v.core (s.vbin v false (· * ·))
/-- `and` (R124). -/
def execVecAnd (v : VInstr) (s : State) : Res := onCore v.core (s.vbin v false (· &&& ·))
/-- `or` (R124). -/
def execVecOr (v : VInstr) (s : State) : Res := onCore v.core (s.vbin v false (· ||| ·))
/-- `xor` (R124). -/
def execVecXor (v : VInstr) (s : State) : Res := onCore v.core (s.vbin v false (· ^^^ ·))
/-- `shl` by b[4:0] (R124). -/
def execVecShl (v : VInstr) (s : State) : Res := onCore v.core (s.vbin v false fun a b => a <<< (b.toNat % 32))
/-- `shr` by b[4:0] (R124). -/
def execVecShr (v : VInstr) (s : State) : Res := onCore v.core (s.vbin v false fun a b => a >>> (b.toNat % 32))
/-- `sar` by b[4:0] (R124). -/
def execVecSar (v : VInstr) (s : State) : Res :=
  onCore v.core (s.vbin v false fun a b => a.sshiftRight (b.toNat % 32))
/-- `imin`, signed (R124). -/
def execImin (v : VInstr) (s : State) : Res := onCore v.core (s.vbin v false fun a b => if b.slt a then b else a)
/-- `imax`, signed (R124). -/
def execImax (v : VInstr) (s : State) : Res := onCore v.core (s.vbin v false fun a b => if a.slt b then b else a)

/-- The relations of `icmp`; `u` compares unsigned (R124). -/
def icmpRel (rel : Nat) (u : Bool) (a b : BitVec 32) : Bool :=
  match rel with
  | 0 => a == b
  | 1 => a != b
  | 2 => if u then a.ult b else a.slt b
  | _ => if u then a.ule b else a.sle b

/-- `icmp` (R124). -/
def execIcmp (v : VInstr) (s : State) : Res :=
  onCore v.core (s.vcmp v false 0xF (decide (3 < v.imm.toNat % 8)) (icmpRel (v.imm.toNat % 8) (v.imm.getLsbD 3)))

/-- `cvt.f32.i32` (R123). -/
def execCvtF32I32 (v : VInstr) (s : State) : Res := onCore v.core (s.vun v false 0 intToF32)
/-- `cvt.i32.f32` (R123). -/
def execCvtI32F32 (v : VInstr) (s : State) : Res := onCore v.core (s.vun v true 1 (f32toInt (v.imm.getLsbD 0)))
/-- `cvt.bf16.f32` (R123). -/
def execCvtBf16F32 (v : VInstr) (s : State) : Res :=
  onCore v.core (s.vun v true 0 fun a => (FV.of32 a).to16.setWidth 32)
/-- `cvt.f32.bf16` (R123). -/
def execCvtF32Bf16 (v : VInstr) (s : State) : Res :=
  onCore v.core (s.vun v false 0 fun a => (FV.of16 (a.setWidth 16)).to32)

/-- `sadd`: the FP32 term a added to the solera operand (R125). -/
def execSadd (v : VInstr) (s : State) : Res :=
  onCore v.core (s.vlanes v { src := [v.sa], fp := true, sol := [v.dst], imm := 0x3FF, occ := 4 } fun k i =>
    k.vputSol v.group i v.dst ((k.vsol v.group i v.dst).add
      (Solera.term (ebase (v.imm.setWidth 10)) (FV.of32 (k.vsrc v.group i v.imm true v.sa)))))
/-- `saddw`: the solera word a added (R38, R124). -/
def execSaddw (v : VInstr) (s : State) : Res :=
  onCore v.core (s.vlanes v { sol := [v.dst, v.sa], occ := 4 } fun k i =>
    k.vputSol v.group i v.dst ((k.vsol v.group i v.dst).add (k.vsol v.group i v.sa)))
/-- `scvt`: the word a rounded to FP32, or to BF16 in bits [15:0] (R40, R124). -/
def execScvt (v : VInstr) (s : State) : Res :=
  onCore v.core (s.vlanes v { sol := [v.sa], dst := [v.dst], imm := 0x7FF, occ := 4 } fun k i =>
    let x := (k.vsol v.group i v.sa).toFV (ebase (v.imm.setWidth 10))
    k.vput v.group i v.dst (if v.imm.getLsbD 10 then x.to16.setWidth 32 else x.to32))
/-- `sclr` (R124). -/
def execSclr (v : VInstr) (s : State) : Res :=
  onCore v.core (s.vlanes v { sol := [v.dst] } fun k i => k.vputSol v.group i v.dst 0)

/-! ### Local memory: MX blocks, loads, stores and atomics (R126, R129, R139) -/

/-- The fault of a local access of `n` bytes at `a` with an alignment: `VE_ALIGN`, `VE_RANGE` or 0 (R129). -/
def vlocal (a n align : Nat) : Nat := if a % align ≠ 0 then 0x21C2 else if 0x1C000 < a + n then 0x21C3 else 0

/-- The lowest executing thread of an issue, if any executes it. -/
def State.lowest (s : State) (v : VInstr) (u : VUse) : Option Nat :=
  (s.vready v u fun _ => true).find? fun i => !v.pen || ((s.core v.core).thread v.group i).preds.getLsbD v.pidx.toNat

/-- `mxcvt`: one FP32 value per thread into one MX block; a thread that does not execute contributes +0 and a zero
element (R126). Where the scale address lies inside the element block, the scale byte is written last: DESIGN CHOICE
(assumption 88). -/
def execMxcvt (v : VInstr) (s : State) : Res :=
  let fmt := v.imm.toNat % 8
  let u : VUse := { src := [v.sa, v.sb, v.sc], fp := true, imm := 0x7, bad := decide (5 < fmt), occ := 4 }
  let low := (s.lowest v u).getD 0
  let addr := fun (k : Core) (code : BitVec 8) => (k.vsrc v.group low v.imm true code).toNat
  onCore v.core (s.vec v u (fun _ => true)
    (fun k _ => lowestCode [vlocal (addr k v.sb) (blockBytes fmt) 8, vlocal (addr k v.sc) 1 1])
    (fun _ _ => []) fun s e => whenever (!e.isEmpty) s (s.onCoreState v.core fun k =>
      let r := mxConvert fmt ((List.range 32).map fun i =>
        if e.contains i then FV.of32 (k.vsrc v.group i v.imm true v.sa) else .fin false 0 0)
      let k := (k.storeT v.group low (addr k v.sb) (mxPack fmt r.2)).storeT v.group low (addr k v.sc) [BitVec.ofNat 8 r.1]
      e.foldl (fun k i => k.onThread v.group i fun t => { t with knows := learn t.knows (threadNo v.group low) k.writes }) k))

/-- `mxld`: element t of the block to each executing thread t (R126). -/
def execMxld (v : VInstr) (s : State) : Res :=
  let fmt := v.imm.toNat % 8
  let u : VUse := { src := [v.sa, v.sb], dst := [v.dst], imm := 0x7, bad := decide (5 < fmt) }
  let low := (s.lowest v u).getD 0
  let addr := fun (k : Core) (code : BitVec 8) => (k.vsrc v.group low v.imm false code).toNat
  onCore v.core (s.vec v u (fun _ => true)
    (fun k _ => lowestCode [vlocal (addr k v.sa) (blockBytes fmt) 8, vlocal (addr k v.sb) 1 1])
    (fun k _ => [(addr k v.sa, blockBytes fmt), (addr k v.sb, 1)]) fun s e => s.onCoreState v.core fun k0 =>
      e.foldl (fun k i =>
        let blk := k0.seeT v.group i (addr k0 v.sa) (blockBytes fmt)
        let scale := leNat (k0.seeT v.group i (addr k0 v.sb) 1)
        k.vput v.group i v.dst (blockElem fmt scale blk i).to32) k0)

/-- The local address of `vld` and `vst` (R129). -/
def Core.vaddr (k : Core) (v : VInstr) (i : Nat) : Nat :=
  (k.vsrc v.group i v.imm false v.sa + v.imm.signExtend 32).toNat

/-- `vld` (R129). -/
def execVld (v : VInstr) (s : State) : Res :=
  onCore v.core (s.vec v { src := [v.sa], dst := [v.dst], imm := 0xFFFFF } (fun _ => true)
    (fun k i => vlocal (k.vaddr v i) 4 4) (fun k i => [(k.vaddr v i, 4)]) fun s e =>
      s.onCoreState v.core fun k => e.foldl (fun k i =>
        k.vput v.group i v.dst (BitVec.ofNat 32 (leNat (k.seeT v.group i (k.vaddr v i) 4)))) k)

/-- `vst`: the data is SB, which R129 does not name: DESIGN CHOICE (assumption 86). Where threads of one issue store to one
byte, nothing orders them: it ends with either value (R101). -/
def execVst (v : VInstr) (s : State) : Res :=
  onCore v.core (s.vec v { src := [v.sa, v.sb], imm := 0xFFFFF } (fun _ => true)
    (fun k i => vlocal (k.vaddr v i) 4 4) (fun _ _ => []) fun s e =>
      s.onCoreState v.core fun k => e.foldl (fun k i =>
        k.storeT v.group i (k.vaddr v i) (leBytes (k.vsrc v.group i v.imm false v.sb).toNat 4)) k)

/-- The operand of thread `i` of an atomic (R139). -/
def Core.atomOp (k : Core) (v : VInstr) (i : Nat) : AtomOp :=
  { thread := i
    operand := (k.vsrc v.group i v.imm false v.sb).setWidth 64
    compare := (k.vsrc v.group i v.imm false v.sc).setWidth 64 }

/-- The operands of an atomic: a solera add (code 11) leaves DST unchanged and takes E_base from IMM20[19:10] (R139). -/
def atomUse (v : VInstr) (src : List (BitVec 8)) (pair : List (BitVec 8)) (imm : BitVec 20) (bad : Bool) : VUse :=
  let op := v.imm.toNat % 16
  { src := src, pair := pair, dst := if op = 11 then [] else [v.dst]
    imm := if op = 11 then imm ||| 0xFFC00 else imm, bad := bad || decide (11 < op) }

/-- Bytes an atomic of a code acts on (R139). -/
def atomSize (op : Nat) : Nat := if op = 11 then 32 else 4

/-- The distinct values of `f` over the threads, in lane order (R140). -/
def distinct (f : Nat → Nat) (e : List Nat) : List Nat := dedup (e.map f)

/-- A combined local atomic has been performed at the scratchpad port by thread `i` and the others of its issue: it follows
every earlier write of its bytes (R168). -/
def Core.storePort (k : Core) (g i a : Nat) (d : List Byte) : Core :=
  ({ k with writes := k.writes + 1 }.storeN (threadNo g i) (k.writes + 1) [] [] a d).regen a d.length

/-- `vlatom`: one combined operation per distinct local address, at the scratchpad port (R139 to R141, R168). -/
def execVlatom (v : VInstr) (s : State) : Res :=
  let op := v.imm.toNat % 16
  let addr := fun (k : Core) (i : Nat) => (k.vsrc v.group i v.imm false v.sa).toNat
  onCore v.core (s.vec v (atomUse v [v.sa, v.sb, v.sc] [] 0xF false) (fun _ => true)
    (fun k i => vlocal (addr k i) (atomSize op) (atomSize op)) (fun k i => [(addr k i, atomSize op)]) fun s e =>
      s.onCoreState v.core fun k0 => (distinct (addr k0) e).foldl (fun k a =>
        let i0 := (e.find? fun i => addr k0 i == a).getD 0
        let r := atomRun op (atomSize op) (v.imm.extractLsb' 10 10) (k.peek a (atomSize op))
          ((e.filter fun i => addr k0 i == a).map (k0.atomOp v))
        let k := k.storePort v.group i0 a r.1
        if op = 11 then k
        else r.2.foldl (fun k x => k.vput v.group x.1 v.dst (x.2.setWidth 32)) k) k0)

/-! ### The finished-tile queue (R132) -/

/-- The head of the finished-tile queue of a core. -/
def State.headTile (s : State) (c : Nat) : Option Tile := (s.core c).press.queue.head?

/-- The payload format FMT of an entry (R61). -/
def Tile.fmt (t : Tile) : Nat := bits t.hdr.toNat 37 36

/-- The threads at an instruction that reads the finished-tile queue wait: it is empty. An issue that masks all of them
waits too: DESIGN CHOICE, R132 does not say (assumption 87). -/
def State.vwait (s : State) (v : VInstr) : State :=
  s.vec v {} (fun _ => false) (fun _ _ => 0) (fun _ _ => []) fun s _ => s

/-- `vtld`: thread t receives value 32h + t of the head entry; it waits while the queue is empty (R132). -/
def execVtld (v : VInstr) (s : State) : Res :=
  onCore v.core (match s.headTile v.core with
    | none => s.vwait v
    | some t =>
      s.vlanes v { sol := if t.fmt = 0 then [v.dst] else [], dst := if t.fmt = 0 then [] else [v.dst], imm := 1 } fun k i =>
        let w := t.vals.getD (32 * (v.imm.toNat % 2) + i) 0
        match t.fmt with
        | 0 => k.vputSol v.group i v.dst w
        | 1 => k.vput v.group i v.dst (w.setWidth 32)
        | _ => k.vput v.group i v.dst (FV.of16 (w.setWidth 16)).to32)

/-- `vthdr`: the header of the head entry to DST and DST + 1, DST even (R132). -/
def execVthdr (v : VInstr) (s : State) : Res :=
  onCore v.core (match s.headTile v.core with
    | none => s.vwait v
    | some t =>
      s.vlanes v { dst := [v.dst, v.dst + 1], bad := v.dst.toNat % 2 == 1 } fun k i =>
        (k.vput v.group i v.dst (t.hdr.setWidth 32)).vput v.group i (v.dst + 1) ((t.hdr >>> 32).setWidth 32))

/-- `vtrel`: an issue that executes a thread releases exactly one entry, and raises `VE_TILE` where the queue is empty
(R59, R132). -/
def execVtrel (v : VInstr) (s : State) : Res :=
  onCore v.core (s.vec v {} (fun _ => true) (fun k _ => if k.press.queue.isEmpty then 0x21CB else 0) (fun _ _ => [])
    fun s e => whenever (!e.isEmpty) s (s.onCoreState v.core fun k =>
      { k with press := { k.press with queue := k.press.queue.tail } }))

/-! ### Branches, barriers, exits, summaries and waits (R117, R131, R133, R136) -/

/-- `vbr`: the executing threads branch by IMM20 × 8 bytes (R117). -/
def execVbr (v : VInstr) (s : State) : Res :=
  onCore v.core (s.vec v { imm := 0xFFFFF } (fun _ => true) (fun _ _ => 0) (fun _ _ => []) fun s e =>
    s.onCoreState v.core fun k => e.foldl (fun k i => k.onThread v.group i fun t =>
      { t with pc := (((v.pc : Int) + 8 * v.imm.toInt) % 2 ^ 48).toNat }) k)

/-- `vbar`: the threads wait at the barrier IMM20[1:0], which completes if they are the last (R136). -/
def execVbar (v : VInstr) (s : State) : Res :=
  onCore v.core (s.vec v { imm := 0x3, bad := v.pen } (fun _ => true) (fun _ _ => 0) (fun _ _ => []) fun s e =>
    (s.onCoreState v.core fun k => e.foldl (fun k i =>
      k.onThread v.group i fun t => { t with wait := .barrier (v.imm.toNat % 4) }) k).settle v.core v.group)

/-- VE_BARRIER: a barrier instance that threads wait at has not completed within the watchdog limit (R138); the command
is the expiry of the timer itself (assumption 8). -/
def execVeBarrier (c g bar : Nat) (s : State) : Res :=
  onCore c (whenever ((List.range 32).any fun i => ((s.core c).thread g i).wait == .barrier bar) s (s.coreFault c 0x21C7))

/-- `vexit`: the executing threads exit (R111). -/
def execVexit (v : VInstr) (s : State) : Res :=
  onCore v.core (s.vec v {} (fun _ => true) (fun _ _ => 0) (fun _ _ => []) fun s e =>
    (s.onCoreState v.core fun k => e.foldl (fun k i =>
      k.onThread v.group i fun t => { t with live := false }) k).settle v.core v.group)

/-- The result of `vsum` over (thread, value) pairs (R133). -/
def vsumOp (op : Nat) (xs : List (Nat × BitVec 32)) : BitVec 64 :=
  let vs := xs.map (·.2)
  let first := vs.headD 0
  match op with
  | 0 => (vs.foldl (· ||| ·) 0).setWidth 64
  | 1 => (vs.foldl (· &&& ·) (BitVec.allOnes 32)).setWidth 64
  | 2 => BitVec.ofInt 64 (vs.foldl (fun a x => a + x.toInt) 0)
  | 3 => (vs.foldl (fun a x => if a.slt x then x else a) first).signExtend 64
  | 4 => (vs.foldl (fun a x => if x.slt a then x else a) first).signExtend 64
  | 5 => (vs.foldl f32max first).setWidth 64
  | 6 => (vs.foldl f32min first).setWidth 64
  | 7 => BitVec.ofNat 64 (vs.filter (· != 0)).length
  | 8 => first.setWidth 64
  | _ => BitVec.ofNat 64 (xs.foldl (fun a x => if x.2 = 0 then a else a + 2 ^ x.1) 0)

/-- `vsum`: its threads are not ready while the slot is full, or while a store or an acquire of theirs is unanswered, which
makes their stores visible when `srd` empties the slot (R133 to R135). -/
def execVsum (v : VInstr) (s : State) : Res :=
  let op := v.imm.toNat % 16
  onCore v.core (s.vec v { src := [v.sa], imm := 0xF, bad := v.pen || decide (9 < op) }
    (fun i => (find? (s.core v.core).summ (v.dst.toNat % 16)).isNone && s.storesDone v.core v.group i
      && (s.pendingAcqs ((s.core v.core).thread v.group i).acqs).isEmpty)
    (fun _ _ => 0) (fun _ _ => []) fun s e => s.onCoreState v.core fun k =>
      let w := vsumOp op (e.map fun i => (i, k.vsrc v.group i v.imm false v.sa))
      { k with
        summ := put k.summ (v.dst.toNat % 16) w
        summKnows := put k.summKnows (v.dst.toNat % 16) (e.foldl (fun m i => learnAll m (k.knownTo v.group i)) []) })

/-- `vawait`: the threads wait for counter IMM20[3:0], or the issue raises `VE_NEVER` (R131). -/
def execVawait (v : VInstr) (s : State) : Res :=
  onCore v.core (s.vec v { src := [v.sa], imm := 0xF } (fun _ => true)
    (fun k i => if cnt k.issued (v.imm.toNat % 16) < (k.vsrc v.group i v.imm false v.sa).toNat then 0x21CA else 0)
    (fun _ _ => []) fun s e => s.onCoreState v.core fun k => e.foldl (fun k i =>
      k.onThread v.group i fun t =>
        { t with wait := .arrival (v.imm.toNat % 16) (k.vsrc v.group i v.imm false v.sa).toNat }) k)

/-- Whether a wait for an arrival counter is over. -/
def Core.arrivalOver (k : Core) : TWait → Bool
  | .arrival a t => decide (t ≤ cnt k.arrived a)
  | _ => false

/-- VAWAIT_RETURN: the threads of a group whose counters have reached their targets are ready again, and see what the
copies have written (R131). -/
def execVawaitReturn (c g : Nat) (s : State) : Res :=
  onCore c (whenever (find? (s.core c).groups g).isSome s (s.onCoreState c fun k =>
    let x := k.group g
    { k with groups := put k.groups g { x with
        threads := x.threads.map fun t => (t.1, if k.arrivalOver t.2.wait then
          { t.2.woken k.vcycles with knows := match t.2.wait with
              | .arrival a _ => learn t.2.knows a (cnt k.arrived a)
              | _ => t.2.knows }
          else t.2) } }))

/-- VE_ILLEGAL: the engine meets a VOP that is not listed (R124, R144). -/
def execVeIllegal (v : VInstr) (s : State) : Res :=
  onCore v.core (s.vec v { bad := true } (fun _ => true) (fun _ _ => 0) (fun _ _ => []) fun s _ => s)

/-! ### The control core's side (R112 to R114, R127, R134) -/

/-- The free slots of a core, lowest first. -/
def Core.freeSlots (k : Core) : List Nat := (List.range 8).filter fun g => (find? k.groups g).isNone

/-- A group at launch: thread t of group j starts with v0 = 32j + t, v1 = j and v2 = t; threads from THREADS on start
as exited (R114). What the control core knows of local writes, and what its acquires put before its later accesses, holds
for the threads; its requests under tags below `hand` happen before theirs (R162). It becomes ready at cycle `t0`. -/
def Core.launchGroup (k : Core) (j threads cls entry hand t0 : Nat) : Group :=
  { threads := (List.range threads).map fun t => (t, { Thread.reset with
      live := true, pc := entry
      regs := [(0, BitVec.ofNat 32 (32 * j + t)), (1, BitVec.ofNat 32 j), (2, BitVec.ofNat 32 t)]
      knows := learn k.knows 16 k.writes, acqs := k.acqs, since := t0, usable := t0 })
    cls := cls, hand := hand }

/-- `vgo`: launches groups into the lowest free slots, stalls while too few are free, and raises `VE_LAUNCH` for a bad
launch word or entry (R112 to R114). -/
def execVgo (c : Nat) (rd rs1 rs2 : Reg) (s : State) : Res :=
  onCore c (s.ctl c 4 [rd, rs1, rs2] fun s =>
    let k := s.core c
    let w := (k.reg rs2).toNat
    let n := bits w 3 0
    let th := bits w 9 4
    let entry := (k.reg rs1).toNat % 2 ^ 48
    if n = 0 ∨ 8 < n ∨ th = 0 ∨ 32 < th ∨ entry % 8 ≠ 0 then s.coreFault c 0x21C8
    else if k.freeSlots.length < n then s
    else
      let slots := k.freeSlots.take n
      let groups := (slots.zip (List.range n)).foldl (fun m (x : Nat × Nat) =>
        put m x.1 (k.launchGroup x.2 th (bits w 14 12) entry s.nextTag (k.vcycles + 11))) k.groups
      let mask := slots.foldl (fun a g => a + 2 ^ g) 0
      s.setCore c (({ k with groups := groups, vcycles := k.vcycles + 1 }.setReg rd (BitVec.ofNat 64 mask)).next 4))

/-- `vjoin`: waits for the groups of a slot mask (R112). -/
def execVjoin (c : Nat) (rs1 : Reg) (s : State) : Res :=
  onCore c (s.ctl c 4 [rs1] fun s => s.onCoreState c fun k => { k with wait := .vjoin ((k.reg rs1).toNat % 256) })

/-- What the control core knows once the groups of a slot mask have exited: every local write of their threads (R135). -/
def Core.joined (k : Core) (m : Nat) : List (Nat × Nat) :=
  ((List.range 8).filter m.testBit).foldl (fun w g => (List.range 32).foldl (fun w i => learn w (threadNo g i) k.writes) w) k.knows

/-- VJOIN_RETURN: every group of the mask has exited (R112, R135). -/
def execVjoinReturn (c : Nat) (s : State) : Res :=
  onCore c (match (s.core c).wait with
    | .vjoin m =>
      whenever ((s.core c).groups.all fun x => !m.testBit x.1) s (s.onCoreState c fun k =>
        { k with wait := .none, knows := k.joined m }.settled.next 4)
    | _ => s)

/-- `vbc`: writes a broadcast entry; a running group may go on to read the old value (R112, R127). -/
def execVbc (c k : Nat) (rs1 : Reg) (s : State) : Res :=
  onCore c (s.ctlCore c 4 [rs1] fun x =>
    { x with
      bcast := put x.bcast (k % 32) ((x.reg rs1).setWidth 32)
      groups := x.groups.map fun g => (g.1, { g.2 with late := g.2.late ++ [(k % 32, get x.bcast (k % 32) 0)] }) })

/-- Whether an `srd` can never return: its slot is empty and no group is resident (R134). -/
def Core.srdNever (k : Core) (n : Nat) : Bool := (find? k.summ n).isNone && k.groups.isEmpty

/-- `srd`: waits for a summary slot; it raises `CC_NEVER` where none can fill it (R112, R134). -/
def execSrd (c : Nat) (rd : Reg) (k : Nat) (s : State) : Res :=
  onCore c (s.ctl c 4 [rd] fun s =>
    if (s.core c).srdNever (k % 16) then s.coreFault c 0x2109
    else s.onCoreState c fun x => { x with wait := .srd rd.toNat (k % 16) })

/-- SRD_RETURN: the slot is full: its value goes to the register and the slot is empty again; where the last group has
exited without filling it, `CC_NEVER` (R112, R134). -/
def execSrdReturn (c : Nat) (s : State) : Res :=
  onCore c (match (s.core c).wait with
    | .srd rd n =>
      match find? (s.core c).summ n with
      | some w => s.onCoreState c fun k =>
          ({ k with
            wait := .none, summ := drop k.summ n, summKnows := drop k.summKnows n
            knows := learnAll k.knows (get k.summKnows n []) }.settled.setReg (BitVec.ofNat 6 rd) w).next 4
      | none => whenever ((s.core c).srdNever n) s (s.coreFault c 0x2109)
    | _ => s)

/-- `sstat`: full flags in [15:0], occupied slots in [23:16] (R112). -/
def execSstat (c : Nat) (rd : Reg) (s : State) : Res :=
  onCore c (s.ctlCore c 4 [rd] fun k => k.setReg rd (BitVec.ofNat 64
    (k.summ.foldl (fun a (x : Nat × BitVec 64) => a + 2 ^ x.1) 0 + 2 ^ 16 * k.groups.foldl (fun a (x : Nat × Group) => a + 2 ^ x.1) 0)))

end Sys2Proof.Machine
end

