-- ==== Sys2Proof/Machine/Fences.lean ====
section
/-!
DEFINITION. Machine/Fences.lean: the vector engine's global accesses (R130, R139 to R142), and the fences, ordered
accesses and atomics of both engines (R154 to R169).
-/

namespace Sys2Proof.Machine

/-! ### Global accesses of the vector engine -/

/-- The global address of thread `i` in the SA pair, plus an offset (R116, R130). -/
def Core.gaddr (k : Core) (v : VInstr) (off : BitVec 64) (i : Nat) : Nat :=
  (((k.thread v.group i).reg (v.sa.toNat + 1) ++ (k.thread v.group i).reg v.sa.toNat : BitVec 64) + off).toNat

/-- The fault of a global access: `VE_ALIGN`, `VE_XLATE`, `VE_ACCESS` or 0 (R109, R130, R144, R166). -/
def vglobal (a align : Nat) (access : Bool) : Nat :=
  if a % align ≠ 0 then 0x21C2 else if 2 ^ 48 ≤ a then 0x21C4 else if access then 0x21C5 else 0

/-- What follows of an access of core `c`, unless its kernel has faulted. -/
def State.whileRuns (s : State) (c : Nat) (t : State) : State := whenever (!(s.core c).stopping && (s.core c).run) s t

/-- A thread awaits an operand under a request, unless its kernel has faulted. -/
def Core.awaits (k : Core) (g i code tag : Nat) : Core :=
  if k.stopping || !k.run then k else k.onThread g i fun t => { t with busy := put t.busy code tag }

/-- A thread's own requests. -/
def ownThread (c g i : Nat) : Req → Bool := fun r => r.threadOf c g i

/-- Control core requests under lower tags happen before the accesses of a resident group. -/
def Core.handOf (k : Core) (g : Nat) : Nat := (k.group g).hand

/-- What a release of scope `sc` by a thread waits for (R156, R173). -/
def State.threadReleased (s : State) (c g i sc : Nat) : Bool :=
  s.released (ownThread c g i) (.part c g) ((s.core c).handOf g) sc s.nextTag

/-- Whether a thread may make a write now: every acquire before it, and every access before its release fences, has been
performed (R156, R157). -/
def State.threadMayWrite (s : State) (c g i : Nat) : Bool :=
  let t := (s.core c).thread g i
  (s.pendingAcqs t.acqs).isEmpty
    && t.fences.all fun x => s.released (ownThread c g i) (.part c g) ((s.core c).handOf g) x.1 x.2

/-- A thread's release of scope `sc`, or `none`, and its release fences take effect as its write is made (R156). -/
def State.threadSeen (s : State) (c g i : Nat) (rel : Option Nat) : State :=
  let own := ownThread c g i
  let t := s.seenFences own (.part c g) ((s.core c).handOf g) ((s.core c).thread g i).fences
  match rel with
  | some sc => t.seen own (.part c g) ((s.core c).handOf g) sc
  | none => t

/-- One thread's load: a hit in the read cache where it may use it, else a request (R90, R130). A load behind an acquire
may set out before the acquire is performed, but may not use the read cache before (R157). -/
def State.vload (s : State) (v : VInstr) (cached : Bool) (i a : Nat) : State :=
  let c := v.core
  let k := s.core c
  let acqs := (k.thread v.group i).acqs
  let send := (s.issue c { Req.reset with
      agent := .vecLoad c v.group i v.dst.toNat cached, ctx := k.ctx, kind := .read, va := a, size := 4
      cls := (k.group v.group).cls, bypass := !cached, draft := k.draft, early := s.pendingAcqs acqs
      hand := k.handOf v.group }).onCoreState c fun k => k.awaits v.group i v.dst.toNat s.nextTag
  s.whileRuns c (match (if cached && (s.openAcqs acqs).isEmpty then k.rline? a else none) with
  | some x =>
    match k.check (x.checkAddr a) 4 with
    | 2 => send
    | n => (if n = 1 then s.memCe c else s).onCoreState c fun k =>
        (k.rtouch a).vput v.group i v.dst (BitVec.ofNat 32 (num8 x.data (a % 128) 4))
  | none => send)

/-- `vgld`: 4 bytes at the pair plus IMM20[15:0]; IMM20[16] bypasses the read cache (R130). -/
def execVgld (v : VInstr) (s : State) : Res :=
  let off : BitVec 64 := (v.imm.setWidth 16).signExtend 64
  onCore v.core (s.vec v { pair := [v.sa], dst := [v.dst], imm := 0x1FFFF } (fun _ => true)
    (fun k i => vglobal (k.gaddr v off i) 4 (isReg (k.gaddr v off i))) (fun _ _ => []) fun s e =>
      e.foldl (fun t i => t.vload v (!v.imm.getLsbD 16) i ((s.core v.core).gaddr v off i)) s)

/-- A result of a request has reached a thread, which may thereby be ready again. -/
def Core.taken (k : Core) (g i dst tag : Nat) (w : BitVec 32) : Core :=
  (k.onThread g i fun t => { t with
    busy := drop t.busy dst, usable := k.vcycles + 24, acqs := t.acqs.filter fun x => x.1 != tag }).vput g i (BitVec.ofNat 8 dst) w

/-- VGLD_RETURN: the data of a vector load reaches its thread and, where it may, the read cache; poison raises
`VE_POISON` (R90, R144). A load that set out behind an acquire delivers nothing before the acquire is performed, and one
that an acquire fence rests on invalidates the read cache (R157). -/
def execVgldReturn (tag : Nat) (s : State) : Res :=
  .next (match s.here? tag with
    | some r =>
      match r.agent, r.stage with
      | .vecLoad c g i dst fill, .done =>
        let t := (s.core c).thread g i
        if find? t.busy dst != some tag then s.dropReq tag
        else if !(s.pendingAcqs r.early).isEmpty then s
        else if r.poison then (s.dropReq tag).coreFault c 0x21C6 r.va
        else (((((s.dropReq tag).onCoreState c fun k => if fill then k.rfill r.va r.data else k).acquired c r t.acqs).fresh c).onCoreState c
          fun k => k.taken g i dst tag (BitVec.ofNat 32 (num8 r.data (r.va % 128) 4))).settle c g
      | _, _ => s
    | none => s)

/-- `vgst` (R130): written through, and a copy of the line in the read cache is updated (R90). The data is SB, which R130
does not name: DESIGN CHOICE (assumption 86). It waits for what an acquire or a release fence puts before it (R156,
R157). -/
def execVgst (v : VInstr) (s : State) : Res :=
  let off : BitVec 64 := (v.imm.setWidth 16).signExtend 64
  let c := v.core
  onCore c (s.vec v { pair := [v.sa], src := [v.sb], imm := 0xFFFF } (s.threadMayWrite c v.group)
    (fun k i => vglobal (k.gaddr v off i) 4 (isReg (k.gaddr v off i) || !storeClass (k.group v.group).cls))
    (fun _ _ => []) fun s e => e.foldl (fun t i =>
      let k := s.core c
      let a := k.gaddr v off i
      let d := leBytes (k.vsrc v.group i v.imm false v.sb).toNat 4
      t.whileRuns c (((t.threadSeen c v.group i none).issue c { Req.reset with
        agent := .vecStore c v.group i, ctx := k.ctx, kind := .write, va := a, size := 4
        cls := (k.group v.group).cls, data := d, draft := k.draft, hand := k.handOf v.group
        rsc := widest (k.thread v.group i).fences }).rstore c a d)) s)

/-- `vatom`: one request per distinct address, with the operands of its threads in lane order (R139 to R141). Release
ordering waits for the thread's earlier accesses, and later accesses follow one with acquire ordering (R155 to R157). -/
def execVatom (v : VInstr) (s : State) : Res :=
  let op := v.imm.toNat % 16
  let ord := v.imm.toNat / 2 ^ 7 % 4
  let scope := v.imm.toNat / 2 ^ 4 % 8
  let c := v.core
  let rel := if 2 ≤ ord then some scope else none
  onCore c (s.vec v (atomUse v [v.sb, v.sc] [v.sa] 0x1FF (scope == 7))
    (fun i => s.threadMayWrite c v.group i && (ord < 2 || s.threadReleased c v.group i scope))
    (fun k i => vglobal (k.gaddr v 0 i) (atomSize op) (isReg (k.gaddr v 0 i) || !storeClass (k.group v.group).cls))
    (fun _ _ => []) fun s e =>
      let k := s.core c
      (distinct (k.gaddr v 0) e).foldl (fun t a =>
        let is := e.filter fun i => k.gaddr v 0 i == a
        t.whileRuns c (((is.foldl (fun t i => t.threadSeen c v.group i rel) t).issue c { Req.reset with
          agent := .vecAtom c v.group v.dst.toNat, ctx := k.ctx, kind := .atomic, va := a, size := atomSize op
          cls := (k.group v.group).cls, op := op, ops := is.map (k.atomOp v), ebase := v.imm.extractLsb' 10 10
          draft := k.draft, acq := ord % 2 == 1 && decide (2 ≤ scope), rel := decide (2 ≤ ord) && decide (5 ≤ scope)
          asc := if ord % 2 = 1 then some scope else none
          rsc := match rel with | some r => some r | none => is.foldl (fun a i => max a (widest (k.thread v.group i).fences)) none
          hand := k.handOf v.group, grp := s.nextTag }).onCoreState c fun x => is.foldl (fun x i =>
              let x := if op = 11 then x else x.awaits v.group i v.dst.toNat t.nextTag
              if ord % 2 = 1 && x.run && !x.stopping then
                x.onThread v.group i fun y => { y with acqs := y.acqs ++ [(t.nextTag, scope)] }
              else x) x)) s)

/-- The old value of one thread of a returned atomic, where the thread still awaits it. -/
def Core.takeOld (k : Core) (g dst tag op : Nat) (x : Nat × BitVec 64) : Core :=
  if op = 11 || find? (k.thread g x.1).busy dst != some tag then k else k.taken g x.1 dst tag (x.2.setWidth 32)

/-- A vector store or atomic is answered: poison raises `VE_POISON` and leaves everything else (R144, R169); an acquire
of plot scope or wider that rests on an atomic invalidates the read cache (R157). -/
def State.vecAnswer (s : State) (tag : Nat) (atoms : Bool) : State :=
  match s.here? tag with
  | some r =>
    match r.agent, r.stage with
    | .vecAtom c g dst, .done =>
      if r.poison then (s.dropReq tag).coreFault c 0x21C6 r.va
      else
        let l := r.ops.flatMap fun o => ((s.core c).thread g o.thread).acqs
        ((((s.dropReq tag).acquired c r l).fresh c).onCoreState c fun k =>
          r.old.foldl (fun k x => k.takeOld g dst tag r.op x) k).settle c g
    | .vecStore c g _, .done =>
      if atoms then s
      else if r.poison then (s.dropReq tag).coreFault c 0x21C6 r.va
      else (s.dropReq tag).settle c g
    | _, _ => s
  | none => s

/-- VECTOR_STORE_RESPONSE: a vector store or atomic is answered, and a group whose threads have exited may free its slot
(R111). -/
def execVectorStoreResponse (tag : Nat) (s : State) : Res := .next (s.vecAnswer tag false)

/-- VATOM_RETURN: the old values of a combined atomic return to their threads (R141). -/
def execVatomReturn (tag : Nat) (s : State) : Res := .next (s.vecAnswer tag true)

/-- A fence of an agent: the accesses that its acquire part puts before later ones, and its release fences with the new
one (R156, R157). -/
def State.fenced (s : State) (own : Req → Bool) (kind sc : Nat) (acqs fences : List (Nat × Nat)) :
    List (Nat × Nat) × List (Nat × Nat) :=
  (if kind % 2 = 1 then s.pendingAcqs acqs ++ s.fenceAcqs own sc else acqs, if 2 ≤ kind then put fences sc s.nextTag else fences)

/-- Whether a fence must wait: a full fence of package scope or wider does, for every store before it, so that no later
load is performed before them; a narrower one makes them count as performed at its instance. A release fence or an acquire
fence alone holds only the accesses that it orders (R156 to R158). -/
def fenceWaits (kind sc : Nat) : Bool := kind == 3 && decide (4 ≤ sc)

/-- `vfence` (R155 to R158); an acquire of plot scope or wider invalidates the read cache. -/
def execVfence (v : VInstr) (s : State) : Res :=
  let kind := v.imm.toNat / 8 % 4
  let scope := v.imm.toNat % 8
  let c := v.core
  onCore c (s.vec v { imm := 0x1F, bad := kind == 0 || scope == 7 }
    (fun i => !fenceWaits kind scope || s.threadReleased c v.group i scope)
    (fun _ _ => 0) (fun _ _ => []) fun s e =>
      let t := if kind = 3 then e.foldl (fun t i => t.threadSeen c v.group i (some scope)) s else s
      let t := e.foldl (fun t i => t.onCoreState c fun k => k.onThread v.group i fun y =>
        let r := s.fenced (ownThread c v.group i) kind scope y.acqs y.fences
        { y with acqs := r.1, fences := r.2 }) t
      whenever (!e.isEmpty && kind % 2 == 1 && decide (2 ≤ scope)) t (t.rinval c))

/-! ### Fences and ordered accesses of the control core (R154) -/

/-- `fence` (R156 to R158); an acquire of plot scope or wider invalidates the read cache (R91, R157). Kind 0 and scope 7
raise `CC_ILLEGAL` (R154). -/
def execFence (c kind sc : Nat) (s : State) : Res :=
  onCore c (s.ctl c 4 [] fun s =>
    let kind := kind % 4
    let sc := sc % 8
    if kind = 0 ∨ sc = 7 then s.coreFault c 0x2101 (s.core c).pc.toNat
    else whenever (!fenceWaits kind sc || s.releaseReady c sc) s
      (let t := if kind = 3 then s.seen (ownCtl c) (.part c 8) 0 sc else s
       let t := t.onCoreState c fun k =>
         let r := s.fenced (ownCtl c) kind sc k.acqs k.fences
         { k with acqs := r.1, fences := r.2 }.next 4
       whenever (kind % 2 == 1 && decide (2 ≤ sc)) t (t.rinval c)))

/-- The request under `tag` is an acquire: no later access of the control core is performed before it (R157). -/
def Core.ordered (k : Core) (tag sc : Nat) : Core :=
  if k.stopping || !k.run then k else { k with acqs := k.acqs ++ [(tag, sc)] }

/-- `ldacq` (R154, R157). -/
def execLdacq (c : Nat) (rd rs1 : Reg) (w : Bool) (sc : Nat) (s : State) : Res :=
  onCore c (s.ctl c 4 [rd, rs1] fun s =>
    if sc % 8 = 7 then s.coreFault c 0x2101 (s.core c).pc.toNat
    else
      let t := s.ldg c rd ((s.core c).reg rs1) (if w then 8 else 4) false (some (sc % 8))
      if t.nextTag = s.nextTag then whenever (decide (2 ≤ sc % 8)) t (t.rinval c)
      else t.onCoreState c (·.ordered s.nextTag (sc % 8)))

/-- `strel`: the store goes once what its release waits for is performed (R154, R156). -/
def execStrel (c : Nat) (rs2 rs1 : Reg) (w : Bool) (sc : Nat) (s : State) : Res :=
  onCore c (s.ctl c 4 [rs2, rs1] fun s =>
    if sc % 8 = 7 then s.coreFault c 0x2101 (s.core c).pc.toNat
    else whenever (s.releaseReady c (sc % 8)) s
      (s.stg c ((s.core c).reg rs1) (if w then 8 else 4) ((s.core c).reg rs2) (some (sc % 8))))

/-! ### Atomics of the control core (R165 to R169) -/

/-- A control core atomic of `n` bytes: its scope and ordering, its checks, and its request; the compare value stands in
rd at issue (R165). -/
def State.ctlAtomic (s : State) (c : Nat) (rd rs1 rs2 : Reg) (sc ord op n : Nat) : State :=
  s.ctl c 4 [rd, rs1, rs2] fun s =>
    let k := s.core c
    let a := k.reg rs1
    let sc := sc % 8
    let rel := if 2 ≤ ord % 4 then some sc else none
    if sc = 7 then s.coreFault c 0x2101 k.pc.toNat
    else match globalCheck a n with
    | 0 =>
      if !storeClass k.gclass.toNat || isReg a.toNat then s.coreFault c 0x2105 a.toNat
      else whenever (s.mayRelease c && (ord % 4 < 2 || s.releaseReady c sc)) s
        (let t := s.seenFences (ownCtl c) (.part c 8) 0 k.fences
         let t := match rel with | some r => t.seen (ownCtl c) (.part c 8) 0 r | none => t
         (t.issue c { Req.reset with
          agent := .ctlLoad c rd.toNat false, ctx := k.ctx, kind := .atomic, va := a.toNat, size := n, cls := k.gclass.toNat
          op := op, ops := [{ thread := 0, operand := k.reg rs2, compare := k.reg rd }], draft := k.draft
          acq := ord % 2 == 1 && decide (2 ≤ sc), rel := decide (2 ≤ ord % 4) && decide (5 ≤ sc)
          asc := if ord % 2 = 1 then some sc else none
          rsc := match rel with | some r => some r | none => widest k.fences }).onCoreState c fun x =>
            (if ord % 2 = 1 then (x.whenBusy rd s.nextTag).ordered s.nextTag sc else x.whenBusy rd s.nextTag).nextIfRuns)
    | code => s.coreFault c code a.toNat

/-- `aadd.w` (R165). -/
def execAaddW (c : Nat) (rd rs1 rs2 : Reg) (sc ord : Nat) (s : State) : Res := onCore c (s.ctlAtomic c rd rs1 rs2 sc ord 0 4)
/-- `aadd.d` (R165). -/
def execAaddD (c : Nat) (rd rs1 rs2 : Reg) (sc ord : Nat) (s : State) : Res := onCore c (s.ctlAtomic c rd rs1 rs2 sc ord 0 8)
/-- `afadd.w` (R165). -/
def execAfaddW (c : Nat) (rd rs1 rs2 : Reg) (sc ord : Nat) (s : State) : Res :=
  onCore c (s.ctlAtomic c rd rs1 rs2 sc ord 10 4)
/-- `aand.d` (R165). -/
def execAandD (c : Nat) (rd rs1 rs2 : Reg) (sc ord : Nat) (s : State) : Res := onCore c (s.ctlAtomic c rd rs1 rs2 sc ord 1 8)
/-- `aor.d` (R165). -/
def execAorD (c : Nat) (rd rs1 rs2 : Reg) (sc ord : Nat) (s : State) : Res := onCore c (s.ctlAtomic c rd rs1 rs2 sc ord 2 8)
/-- `axor.d` (R165). -/
def execAxorD (c : Nat) (rd rs1 rs2 : Reg) (sc ord : Nat) (s : State) : Res := onCore c (s.ctlAtomic c rd rs1 rs2 sc ord 3 8)
/-- `asmin.d` (R165). -/
def execAsminD (c : Nat) (rd rs1 rs2 : Reg) (sc ord : Nat) (s : State) : Res := onCore c (s.ctlAtomic c rd rs1 rs2 sc ord 4 8)
/-- `asmax.d` (R165). -/
def execAsmaxD (c : Nat) (rd rs1 rs2 : Reg) (sc ord : Nat) (s : State) : Res := onCore c (s.ctlAtomic c rd rs1 rs2 sc ord 5 8)
/-- `aumin.d` (R165). -/
def execAuminD (c : Nat) (rd rs1 rs2 : Reg) (sc ord : Nat) (s : State) : Res := onCore c (s.ctlAtomic c rd rs1 rs2 sc ord 6 8)
/-- `aumax.d` (R165). -/
def execAumaxD (c : Nat) (rd rs1 rs2 : Reg) (sc ord : Nat) (s : State) : Res := onCore c (s.ctlAtomic c rd rs1 rs2 sc ord 7 8)
/-- `axchg.w` (R165). -/
def execAxchgW (c : Nat) (rd rs1 rs2 : Reg) (sc ord : Nat) (s : State) : Res := onCore c (s.ctlAtomic c rd rs1 rs2 sc ord 8 4)
/-- `axchg.d` (R165). -/
def execAxchgD (c : Nat) (rd rs1 rs2 : Reg) (sc ord : Nat) (s : State) : Res := onCore c (s.ctlAtomic c rd rs1 rs2 sc ord 8 8)
/-- `acas.w` (R165). -/
def execAcasW (c : Nat) (rd rs1 rs2 : Reg) (sc ord : Nat) (s : State) : Res := onCore c (s.ctlAtomic c rd rs1 rs2 sc ord 9 4)
/-- `acas.d` (R165). -/
def execAcasD (c : Nat) (rd rs1 rs2 : Reg) (sc ord : Nat) (s : State) : Res := onCore c (s.ctlAtomic c rd rs1 rs2 sc ord 9 8)

end Sys2Proof.Machine
end

