-- ==== Sys2Proof/Machine/CellarHome.lean ====
section
/-!
DEFINITION. Machine/CellarHome.lean: the home cask of a line (chapter 07) with the directory of chapter 08: lookups,
replacement, reads, writes and atomics of module agents and of the companion, fills and write-throughs, and commit.
-/

namespace Sys2Proof.Machine

/-! ### Classes and counters (R181, R182, R195) -/

/-- The class whose attributes a request has: c5 for the companion window and the companion, c4 for a c0 read outside the
weight region (R182, R204). -/
def State.kls (s : State) (r : Req) : Nat :=
  if isComp r.pa then 5
  else match r.agent with
    | .comp _ _ _ => 5
    | _ => if r.cls = 0 ∧ !s.cellar.inWeights r.pa then 4 else r.cls

/-- Whether the lines of a class are written back (R181). -/
def writeBack (k : Nat) : Bool := k == 2 || k == 6

/-- Add 1 to counter `m` of class `k` (R195). -/
def State.tally (s : State) (m k : Nat) : State := s.bump 0x4100 (0x10 + 8 * m + k) 1

/-- Whether lines of class `k` occupy their cap of ways among the lines `ls` of a set; c0 has no cap (R181, R184). -/
def State.capped (s : State) (ls : List Line) (k : Nat) : Bool :=
  k != 0 && decide (s.od 0x4000 (0x08 + k) ≤ (ls.filter fun x => !x.pinned && x.cls == k).length)

/-! ### Migration's dirty granules (R448) -/

/-- Whether an HBM byte belongs to the partition that is being migrated: its carve-outs and its sequences' frames. -/
def State.inMigPart (s : State) (pa : Nat) : Bool :=
  let p := s.od 0x7100 3
  (get s.parts.parts p Part.reset).carves? pa 1
    || (s.hbm.inBarrels pa && match find? s.seq.frames ((pa - s.hbm.bbase) / 2 ^ 16) with
      | some f => (get s.seq.table f.1 Entry.reset).part.toNat == p
      | none => false)

/-- A write performed at its home makes its granule dirty while dirty logging runs (R448). -/
def State.dirtied (s : State) (pa : Nat) : State :=
  whenever (s.parts.mig.logging && s.inMigPart pa) s
    { s with parts := { s.parts with mig := { s.parts.mig with dirty := addTo s.parts.mig.dirty (pa / 2 ^ 16) } } }

/-! ### The bytes of a write -/

/-- The byte mask of a write within its line (R211). -/
def Req.wmask (r : Req) : Nat := if r.mask ≠ 0 then r.mask else (2 ^ r.size - 1) * 2 ^ (r.pa % 128)
/-- The line-wide data of a write. -/
def Req.wdata (r : Req) : List Byte :=
  if r.mask ≠ 0 then slice r.data 0 128 else slice (List.replicate (r.pa % 128) 0 ++ r.data) 0 128
/-- A write of a whole line. -/
def Req.full (r : Req) : Bool := r.wmask == 2 ^ 128 - 1

/-- A write of a whole line on its way to HBM, for which nobody waits. -/
def flushOf (l : Nat) (d : List Byte) (cls : Nat) (poison : Bool) (mask : Nat := 2 ^ 128 - 1) : Req :=
  { Req.reset with
    agent := .engine, kind := .write, va := 128 * l, pa := 128 * l, size := 128, cls := cls, data := d, mask := mask
    stage := .hbmW, poison := poison }

/-- A cask hands a write of its own on to HBM, after everything it has handed on before (R183). -/
def State.pour (s : State) (r : Req) : State :=
  { s.addReq { r with acc := s.accepts + 1 } with accepts := s.accepts + 1 }

/-- A cask hands a request on to HBM, a read or the bytes of a write, after everything it has handed on before (R183). -/
def State.handOn (s : State) (tag : Nat) (f : Req → Req) : State :=
  { s.setReq tag fun q => { f q with acc := s.accepts + 1 } with accepts := s.accepts + 1 }

/-! ### Injected check bits in the cellar (R478) -/

/-- The number of set bits among the low eight. -/
def ones8 (m : Nat) : Nat := ((List.range 8).filter fun i => m.testBit i).length

/-- An injection has been applied (R484). -/
def State.injected (s : State) : State :=
  { (s.bump 0x3200 0x11 1) with faults := { s.faults with injArmed := none, injState := 2 } }

/-- Whether a byte mask covers a byte of a 64-byte half of its line. -/
def halfHit (mask : Nat) (upper : Bool) : Bool := mask / (if upper then 2 ^ 64 else 1) % 2 ^ 64 != 0

/-- Wrong check symbols are put into a 64-byte half of a line. -/
def Line.spoil (x : Line) (upper : Bool) (n : Nat) : Line := if upper then { x with ecc2 := n } else { x with ecc := n }

/-- A write under a mask regenerates the check symbols of the halves it covers. -/
def Line.regen (x : Line) (mask : Nat) : Line :=
  { x with ecc := if halfHit mask false then 0 else x.ecc, ecc2 := if halfHit mask true then 0 else x.ecc2 }

/-- An injection into the cellar that awaits the next write of its 64-byte unit acts on a write of line `l` that covers it
(R478). -/
def State.injLine (s : State) (l mask : Nat) : State :=
  match s.faults.injArmed with
  | some (1, a, m, 1) =>
    let upper := decide (64 ≤ a % 128)
    whenever (a / 128 == l && (s.cellar.line? l).isSome && halfHit mask upper) s
      ({ s with cellar := s.cellar.setLine l fun x => x.spoil upper (ones8 (m % 8)) }.injected)
  | _ => s

/-! ### Errors in a line (R187, R485) -/

/-- LOC of the cask at a position (R461). -/
def caskLoc (p : Nat) : Nat := p

/-- A report of the cellar about a line, marked as injected: nothing else spoils check symbols (R479). -/
def State.lineReport (s : State) (code l : Nat) : State :=
  s.report code 2 (caskLoc (s.cellar.homePos l)) (128 * l) true

/-- A line as HBM has it (R187). -/
def State.refetched (s : State) (x : Line) : Line :=
  { x with
    data := s.peek (s.store (128 * x.addr)) 128, poison := s.hbmPoison (s.store (128 * x.addr)) 128, ecc := 0, ecc2 := 0 }

/-- The corrected symbols of a line: one report for each 64 bytes with one. -/
def State.lineCe (s : State) (x : Line) : State :=
  let t := if x.ecc = 1 then s.lineReport 0x0201 x.addr else s
  if x.ecc2 = 1 then t.lineReport 0x0201 x.addr else t

/-- The line's check symbols are decoded as it is read: in each 64 bytes one wrong symbol is corrected; with two, a reserve
line is dropped for refill, a clean one invalidated, a dirty or tentative one poisoned (R187). A line that the companion may
hold stays valid in its home (R206): it is fetched again in its place. -/
def State.decodeLine (s : State) (l : Nat) : State :=
  match s.cellar.line? l with
  | none => s
  | some x =>
    if x.ecc = 0 ∧ x.ecc2 = 0 then s
    else
      let t := s.lineCe x
      let fresh := { t with cellar := t.cellar.setLine l fun y => { y with ecc := 0, ecc2 := 0 } }
      if !x.spoilt then fresh
      else if x.dirty || x.tent then
        { fresh with cellar := fresh.cellar.setLine l fun y => { y with poison := true } }.lineReport 0x1203 l
      else
        let t := if x.dir ≠ .di then { t with cellar := t.cellar.setLine l t.refetched }
          else { t with cellar := t.cellar.dropLine l }
        if x.pinned then t.lineReport 0x0202 l else t

/-! ### Snoops (R207, R212 to R216) -/

/-- The open transaction of a line. -/
def State.txn? (s : State) (l : Nat) : Option Txn := s.coh.txns.find? (·.line == l)
/-- Change the transaction of a line. -/
def State.setTxn (s : State) (l : Nat) (f : Txn → Txn) : State :=
  { s with coh := { s.coh with txns := s.coh.txns.map fun t => if t.line = l then f t else t } }
/-- Open a transaction. -/
def State.openTxn (s : State) (t : Txn) : State := { s with coh := { s.coh with txns := s.coh.txns ++ [t] } }

/-- The home sends a `Snoop` and waits for its response (R212, R218); a back-invalidation may make room for a line. -/
def State.snoop (s : State) (l : Nat) (shr : Bool) (waiter : Option Nat) (backInv : Bool) (room : Option Nat := none) : State :=
  ((s.openTxn { Txn.reset with line := l, shr := shr, rsp := true, waiter := waiter, backInv := backInv, room := room }).sendAb
    { abMsg 0x20 l 0 (128 * l) with shr := shr }).bump 0x4200 0x10 1

/-- Lines that are about to be overwritten leave the cellar without write-back; copies of the companion are asked back, and data
that it returns is discarded (R186, R214). -/
def State.tossLines (s : State) (p : Line → Bool) : State :=
  let copies := s.coh.sCopies.filter fun l => p { Line.reset with addr := l }
  let mine := dedup (((s.cellar.lines.filter fun x => p x && x.dir != .di).map (·.addr)) ++ copies)
  let t := { s with
    cellar := s.cellar.keepLines fun x => !p x
    coh := { s.coh with sCopies := s.coh.sCopies.filter fun l => !copies.contains l } }
  mine.foldl (fun (t : State) l =>
    whenever (!t.coh.dead) t
      ((if (t.txn? l).isSome then t else t.snoop l false none true).setTxn l fun t => { t with toss := true })) t

/-- The snoop a request needs first, by the directory state it finds: none, INV (false) or SHR (true) (R214). -/
def Req.needsSnoop (r : Req) (d : DirState) : Option Bool :=
  match r.agent, d with
  | _, .di => none
  | .comp op _ _, .ds => if op = 0x02 ∨ (0x05 ≤ op ∧ op ≤ 0x08) then some false else none
  | .comp _ _ _, .dO => some false
  | _, .ds => if r.kind = .read then none else some false
  | _, .dO => some (r.kind == .read)

/-! ### Making room (R184) -/

/-- What comes of looking for a way. -/
inductive Room where
  | ok (s : State)
  /-- a back-invalidation of the victim must complete first (R207) -/
  | wait (s : State)
  /-- no way qualifies -/
  | full

/-- Whether a line may be a victim (R184). -/
def State.eligible (s : State) (x : Line) : Bool :=
  !x.pinned && x.hold.isNone && !x.tent && (s.txn? x.addr).isNone

/-- The last line of a most-recent-first list that satisfies `p`. -/
def lastWhere (ls : List Line) (p : Line → Bool) : Option Line := (ls.filter p).getLast?

/-- The victim for a request of class `k` in a full set (R184, steps 2 to 4). -/
def State.victim (s : State) (ls : List Line) (k : Nat) : Option Line :=
  match lastWhere ls fun x => s.eligible x && x.mark with
  | some x => some x
  | none =>
    if s.capped ls k then
      lastWhere ls fun x => s.eligible x && x.cls == k
    else lastWhere ls s.eligible

/-- The module gives up its copy of a companion line and waits for `EvictAck` (R213). -/
def State.giveUp (s : State) (l : Nat) : State :=
  { s with coh := { s.coh with evicting := put s.coh.evicting l false } }.sendAb (abMsg 0x0A l 0 (128 * l - 2 ^ 40))

/-- A line as it leaves the cellar for HBM: an uncorrectable one as poison (R187). -/
def State.outgoing (s : State) (l : Nat) (x : Line) : State × Line :=
  let t := if x.dirty || x.tent then s.decodeLine l else s
  (t, (t.cellar.line? l).getD x)

/-- A victim leaves: a marked line is dropped, a dirty one written back, a companion line's copy given up (R184, R191,
R213). -/
def State.evict (s : State) (x : Line) : State :=
  let (s, y) := if x.mark then (s, x) else s.outgoing x.addr x
  let t := { s with cellar := s.cellar.dropLine x.addr }
  if x.mark then t.tally 6 x.cls
  else if isComp (128 * x.addr) then (t.giveUp x.addr).tally 3 x.cls
  else if x.dirty then ((t.pour (flushOf x.addr y.data x.cls y.poison)).tally 3 x.cls).tally 4 x.cls
  else t.tally 3 x.cls

/-- Find a way for line `l` and class `k`; a fill waits for the back-invalidation that makes room for it (R184, R207). -/
def State.makeRoom (s : State) (l k : Nat) : Room :=
  let ls := s.cellar.setOf l
  if ls.length < 16 then .ok s
  else if s.coh.txns.any fun t => t.room == some l then .wait s
  else match s.victim ls k with
    | none => .full
    | some x =>
      if x.dir = .di then .ok (s.evict x)
      else .wait ((s.snoop x.addr false none true (some l)).bump 0x4200 0x11 1)

/-- Whether a fill of line `l` is a reserve line in its slot (R180, R200). -/
def State.reserveLine (s : State) (l : Nat) : Bool :=
  s.cellar.inWeights (128 * l) && s.cellar.relaid
    && decide ((l - s.cellar.wbase / 128) / (s.cellar.live * 2048) < s.cellar.ceiling)

/-- A line enters its set: at the most recent position, or at the least recent for c4 (R181). -/
def State.insertLine (s : State) (x : Line) : State :=
  let ls := s.cellar.setOf x.addr
  ({ s with cellar := s.cellar.putSet x.addr (if x.cls = 4 then ls ++ [x] else x :: ls) }.tally 2 x.cls).injLine x.addr
    (2 ^ 128 - 1)

/-- The line becomes the most recent of its set. -/
def State.touchLine (s : State) (l : Nat) : State :=
  let ls := s.cellar.setOf l
  { s with cellar := s.cellar.putSet l (ls.filter (·.addr == l) ++ ls.filter (·.addr != l)) }

/-! ### The answer to a request -/

/-- A request that carried the last write of a word and a release, and which agent made it, is remembered, so that an
acquire that reads the word can be matched with it (R159); any other write of the word ends that. -/
def State.wrote (s : State) (pa n : Nat) (p : Party) (rsc : Option Nat) : State :=
  if s.writers.isEmpty ∧ rsc.isNone then s
  else { s with writers := (List.range ((pa % 4 + n + 3) / 4)).foldl (fun w i =>
      match rsc with
      | some sc => put w (pa / 4 + i) (p, some sc)
      | none => drop w (pa / 4 + i)) s.writers }

/-- A write of a request is performed; an atomic that carries no release leaves that of the write it follows in place
(R159). -/
def State.wroteBy (s : State) (r : Req) : State :=
  if r.kind = .atomic ∧ r.rsc.isNone then s
  else match r.agent with
    | .comp _ _ _ => s.wrote r.pa r.size .companion (if r.rel then some 5 else none)
    | a => s.wrote r.pa r.size a.party r.rsc

/-- Whether an acquire of scope `sc` that rests on a read or atomic `r` synchronises with the write that it reads: the
write carried a release, and each instance contains the other agent (R159). -/
def State.syncs (s : State) (r : Req) (sc : Nat) : Bool :=
  match find? s.writers (r.pa / 4) with
  | some (w, some rs) => inInstance sc r.agent.party w && inInstance rs w r.agent.party
  | _ => false

/-- An access that acquires rest on has been performed. A load that they put behind it and that has been performed before it
is performed again, where the acquire synchronises with the write it read; where the scopes do not match, nothing is ordered
(R157, R159). -/
def State.acquireRead (s : State) (r : Req) : State :=
  { s with reqs := s.reqs.map fun q =>
      match q.early.find? (·.1 == r.tag) with
      | some (_, sc) =>
        let q := { q with early := q.early.filter fun x => x.1 != r.tag }
        if s.syncs r sc && q.stage == .done then { q with stage := .home, data := [], arr := 0 } else q
      | none => q }

/-- A request is answered: nobody waits for an engine's, a control core's store needs no step of its own, and any other
waits for its result to arrive. -/
def State.answer (s : State) (tag : Nat) (f : Req → Req) : State :=
  match s.req? tag with
  | some r =>
    match r.agent with
    | .engine => s.dropReq tag
    | .ctlStore c =>
      if (f r).poison then (s.dropReq tag).coreFault c 0x2106 r.va else s.dropReq tag
    | .comp op t p =>
      (s.dropReq tag).sendAb (abMsg 0x63 t p (if op = 0x08 then r.pa else 128 * (r.pa / 128))
        (if op = 0x08 then leBytes ((f r).old.headD (0, 0)).2.toNat 8 ++ List.replicate 8 0 else []) (f r).poison)
    | _ =>
      let t := if r.kind = .write then s else s.acquireRead r
      t.setReq tag fun r => { f r with stage := .done }
  | none => s

/-- A read is served with the data of its line (R214). A companion read that caches the line opens a transaction until
`CmpAck`; one that may not cache it gets `CmpI` (R207, R213). -/
def State.serveRead (s : State) (r : Req) (d : List Byte) (poison : Bool) (alloc : Bool) : State :=
  let l := r.pa / 128
  match r.agent with
  | .comp op t p =>
    let held := match s.cellar.line? l with | some x => x.dir == .ds | none => false
    let grant := fun (code : Nat) (dir : DirState) (d : List Byte) =>
      ((({ s with cellar := s.cellar.setLine l fun x => { x with dir := dir } }.dropReq r.tag).sendAb
        (abMsg code t p (128 * l) d poison)).openTxn { Txn.reset with line := l, ack := true })
    if !alloc || op = 0x04 then (s.dropReq r.tag).sendAb (abMsg 0x62 t p (128 * l) d poison)
    else if op = 0x01 then grant 0x60 .ds d
    else if op = 0x03 && held then grant 0x66 .dO []
    else grant 0x61 .dO d
  | _ => s.answer r.tag fun r => { r with data := d, poison := poison }

/-! ### Writes and atomics at the home (R183, R188, R191, R214) -/

/-- How a write leaves its line. -/
inductive WriteWay where
  /-- held in the line: answered when performed -/
  | keep
  /-- its own bytes are forwarded -/
  | part
  /-- the whole line is forwarded -/
  | whole
  deriving DecidableEq, Repr

/-- The line and the way of a write of class `k` (R183, R188, R191). -/
def Line.written (x : Line) (k : Nat) (draft : Bool) : Line × WriteWay :=
  let tentative := draft && k == 1
  if x.mark then
    if writeBack k then ({ x with mark := false, cls := k, dirty := true }, .keep)
    else if tentative then ({ x with mark := false, cls := k, tent := true }, .keep)
    else ({ x with mark := false, cls := k, dirty := false }, .whole)
  else if tentative then ({ x with tent := true }, .keep)
  else if x.tent then (x, .part)
  else if writeBack x.cls then ({ x with dirty := true }, .keep)
  else (x, .part)

/-- A write is performed on its valid line: a full line clears poison, a partial write leaves it (R220). -/
def State.serveWrite (s : State) (r : Req) (x : Line) : State :=
  let l := r.pa / 128
  let data := maskBytes r.wmask 0 x.data r.wdata
  let poison := r.poison || (x.poison && !r.full)
  let (y, way) := x.written (s.kls r) r.draft
  let t := (({ s with cellar := s.cellar.setLine l fun _ => { y.regen r.wmask with data := data, poison := poison } }.injLine l
    r.wmask).dirtied r.pa).wroteBy r
  match way with
  | .keep => t.answer r.tag id
  | .part => t.handOn r.tag fun q => { q with stage := .hbmW }
  | .whole => t.handOn r.tag fun q => { q with stage := .hbmW, mask := 2 ^ 128 - 1, data := data, poison := poison }

/-- An atomic is performed on its valid line and its old values leave; its bytes are forwarded as a write's are. A
poisoned line is left as it is (R167, R169). -/
def State.serveAtomic (s : State) (r : Req) (x : Line) : State :=
  let l := r.pa / 128
  if x.poison then s.answer r.tag fun q => { q with poison := true }
  else
    let o := r.pa % 128
    let res := atomRun r.op r.size r.ebase (slice x.data o r.size) r.ops
    let data := patch x.data o res.1
    let (y, way) := x.written (s.kls r) r.draft
    let mask := (2 ^ r.size - 1) * 2 ^ o
    let t := ({ s with cellar := s.cellar.setLine l fun _ => { y.regen mask with data := data } }.injLine l mask).dirtied r.pa
    let t := match way with
      | .keep => t
      | .part => t.pour (flushOf l data (s.kls r) false mask)
      | .whole => t.pour (flushOf l data (s.kls r) false)
    (t.answer r.tag fun q => { q with old := res.2 }).wroteBy r

/-- A request is performed on its line, which is valid in its home and in the directory state it needs. -/
def State.perform (s : State) (r : Req) (x : Line) : State :=
  match r.kind with
  | .read => s.serveRead r x.data x.poison true
  | .write => s.serveWrite r x
  | .atomic => s.serveAtomic r x

/-- A request whose line found no way is served without allocation, and counted as a bypass; a tentative write is poured
early (R184, R188). -/
def State.bypass (s : State) (r : Req) : State :=
  let l := r.pa / 128
  let d := if isComp r.pa then r.data else s.peek (s.store (128 * l)) 128
  let poison := (if isComp r.pa then r.poison else r.kind != .write && r.poison) || (isHbm r.pa && s.hbmPoison (s.store (128 * l)) 128)
  let s := if isComp r.pa then s.giveUp l else s
  let t := if r.kind = .write ∧ r.draft ∧ s.kls r = 1 then s.tally 7 1 else s.tally 5 r.cls
  match r.kind with
  | .read => t.serveRead r d poison false
  | .write => ((t.dirtied r.pa).wroteBy r).handOn r.tag fun q => { q with stage := .hbmW }
  | .atomic =>
    if poison then t.answer r.tag fun q => { q with poison := true }
    else
      let res := atomRun r.op r.size r.ebase (slice d (r.pa % 128) r.size) r.ops
      (((t.dirtied r.pa).pour (flushOf l (patch d (r.pa % 128) res.1) (s.kls r) false
        ((2 ^ r.size - 1) * 2 ^ (r.pa % 128)))).answer r.tag fun q => { q with old := res.2 }).wroteBy r

/-! ### Requests at their home (R194, R212) -/

/-- Whether two requests are of one agent: a control core, a vector thread, a DMA engine, a process of the companion
(R146). -/
def Req.sameAgent (r q : Req) : Bool :=
  match q.agent, r.agent with
  | .comp _ _ p, .comp _ _ p' => p == p'
  | .vecLoad c g i _ _, _ => r.threadOf c g i
  | .vecStore c g i, _ => r.threadOf c g i
  | .vecAtom c g _, _ => q.ops.any fun o => r.threadOf c g o.thread
  | a, b => a.core? == b.core? && a.core?.isSome && a.unit == b.unit

/-- A request that has not been taken into the order of its line. -/
def Req.early? (q : Req) : Bool := match q.stage with | .walk _ _ => true | .home => true | _ => false

/-- Whether an earlier request must be performed first: one of the same agent to the same line (R151, assumption 14), one of
the control core that happens before it (R162), or for the companion what the ORD markers ask (R402). -/
def Req.after (r q : Req) : Bool :=
  decide (q.tag < r.tag) && (match q.agent, r.agent with
    | .comp _ _ p, .comp _ _ p' => p == p' && (r.rel || q.acq || q.pa / 128 == r.pa / 128)
    | _, _ => q.early? && q.va / 128 == r.va / 128 && (r.sameAgent q
        || (decide (q.tag < r.hand) && (match r.agent.core? with | some c => q.ctlOf c | none => false))))

/-- Whether a write that counts as performed for the agent of `r` is to be performed before `r` is (R156). -/
def Req.behind (r q : Req) : Bool :=
  !q.performed && q.seenBy r.agent.party && q.pa / 128 == r.pa / 128 && (r.arr == 0 || (q.arr != 0 && decide (q.arr < r.arr)))

/-- Whether the sender's own order, or what counts as performed for it, holds a request back. -/
def State.heldBack (s : State) (r : Req) : Bool :=
  r.lost || (s.reqs.any fun q => q.tag != r.tag && (r.after q || r.behind q))
    || (isComp r.pa && r.kind == .read && !(s.pendingAcqs r.early).isEmpty)

/-- Whether an outstanding flush names a line (R223). -/
def State.flushNames (s : State) (l : Nat) : Bool :=
  isHbm (128 * l) && !s.cellar.inWeights (128 * l) && s.coh.flush.any fun ents => ents.contains (homeIndex l)

/-- Whether a request that has come to its home waits there: behind another transaction, fill or flush of its line, or behind
a request for the line that came before it (R198, R212, R213, R223). -/
def State.waits (s : State) (r : Req) : Bool :=
  let l := r.pa / 128
  s.coh.txns.any (fun t => t.line == l && !(t.waiter == some r.tag && !t.rsp && !t.wb && !t.ack))
    || s.reqs.any (fun q => q.tag != r.tag && q.pa / 128 == l && ((match q.stage with
      | .hbm => true | .filled => true | .comp => true | _ => false)
        || (q.stage == .home && q.arr != 0 && (r.arr == 0 || decide (q.arr < r.arr)))))
    || (find? s.coh.evicting l).isSome || s.flushNames l

/-- Data that the companion returns for a line is written into it: a write-back or tentative line becomes dirty, any other
is written through (R183, R214). -/
def State.absorb (s : State) (l : Nat) (d : List Byte) (poison : Bool) : State :=
  match s.cellar.line? l with
  | some x =>
    let mine := match s.txn? l with | some t => t.mine | none => 0
    let d := maskBytes mine 0 d x.data
    let poison := poison && !(mine == 2 ^ 128 - 1)
    let keep := !x.mark && (x.tent || writeBack x.cls)
    let t := ({ s with cellar := s.cellar.setLine l fun x =>
      { x with data := d, poison := poison, ecc := 0, ecc2 := 0, mark := false, dirty := (x.dirty && !x.mark) || keep } }).dirtied
        (128 * l)
    if keep then t else t.pour (flushOf l d 5 poison)
  | none => (s.dirtied (128 * l)).pour (flushOf l d 5 poison)

/-- An eviction for a line that nothing expects is counted (R217). -/
def State.stray (s : State) (l : Nat) : State := ((s.bump 0x4200 0x14 1).sticky 0x4200 8 2).report 0x0405 0 0 (128 * l)

/-- The home handles an eviction by the directory state it finds, and acknowledges it (R214, R217, R223). -/
def State.takeEvict (s : State) (m : AbMsg) : State :=
  let l := m.addr / 128
  let dirty := m.op == 0x09
  let dir := match s.cellar.line? l with | some x => x.dir | none => .di
  let t := match dir with
    | .dO => if dirty then s.absorb l m.data m.poison else s
    | .ds => if dirty then s.stray l else s
    | .di =>
      if s.flushNames l then
        let t := { s with coh := { s.coh with flushed := addTo s.coh.flushed l } }
        if dirty then t.absorb l m.data m.poison else t
      else s.stray l
  { t with cellar := t.cellar.setLine l fun x => { x with dir := .di } }.sendAb (abMsg 0x64 m.tag m.pasid m.addr)

/-- A line with a last-pour mark whose back-invalidation is over is dropped (R191). -/
def State.dropDead (s : State) (l : Nat) : State :=
  match s.cellar.line? l with
  | some x => whenever (x.mark && x.dir == .di) s ({ s with cellar := s.cellar.dropLine l }.tally 6 x.cls)
  | none => s

/-- A transaction closes: a held eviction that has served as the snoop's answer is acknowledged, another is handled now
(R212, R216). -/
def State.closeTxn (s : State) (l : Nat) : State :=
  match s.txn? l with
  | some t =>
    let s' := { s with coh := { s.coh with txns := s.coh.txns.filter fun t => t.line != l } }
    let s' := match t.held with
      | some m => if t.used || t.toss then s'.sendAb (abMsg 0x64 m.tag m.pasid m.addr) else s'.takeEvict m
      | none => s'
    if t.backInv && t.room.isNone then s'.dropDead l else s'
  | none => s

/-- The counts of a lookup by a request of its class (R195). -/
def State.lookup (s : State) (r : Req) (hit : Bool) : State :=
  let k := (match r.agent with | .comp _ _ _ => 5 | _ => r.cls)
  let t := s.tally 0 k
  if hit then t.tally 1 k else t

/-- Whether a write that misses goes straight to HBM: class c4 does not allocate on a write (R181). -/
def State.straight (s : State) (r : Req) : Bool := r.kind == .write && s.kls r == 4

/-- A request for an HBM line reaches its home (R178 to R184, R188, R194, R214). -/
def State.serveHbm (s : State) (r : Req) : State :=
  let l := r.pa / 128
  let s := s.decodeLine l
  match s.cellar.line? l with
  | some x =>
    match r.needsSnoop x.dir with
    | some shr => s.snoop l shr (some r.tag) false
    | none => ((((s.closeTxn l).lookup r true).touchLine l).perform r x)
  | none =>
    let s := (s.closeTxn l).lookup r false
    if s.straight r then ((s.dirtied r.pa).wroteBy r).handOn r.tag fun q => { q with stage := .hbmW }
    else s.handOn r.tag fun q => { q with stage := if r.full ∧ r.kind = .write then .filled else .hbm }

/-- The opcode of a module write to the companion window: `WrLine` or `WrStash` for a whole line, `WrPart` otherwise
(R204, R225). -/
def State.writeOp (s : State) (full : Bool) : Nat :=
  if !full then 0x07
  else match s.od 0x4200 3 with
    | 1 => 0x05
    | 2 => 0x06
    | _ => if s.od 0x4200 5 ≤ 2 then 0x05 else 0x06

/-- The message for a module write to the companion window; a queue may name the target of its `WrStash` (R204, R225, R401,
R415). -/
def State.compWrite (s : State) (r : Req) (stash : Nat := 0) : AbMsg :=
  let op := s.writeOp r.full
  let addr := 128 * (r.pa / 128) - 2 ^ 40
  let data := match op with
    | 0x05 => r.wdata
    | 0x06 => leBytes (if stash = 0 then s.od 0x4200 6 else stash) 16 ++ r.wdata
    | _ => leBytes r.wmask 16 ++ r.wdata
  abMsg op r.tag (s.pasidOf r.ctx) addr data r.poison (if r.rel then 2 else 0)

/-- The `Atomic` for the first operand of a request that is not yet performed (R140, R204). -/
def State.compAtomic (s : State) (r : Req) : AbMsg :=
  let o := r.ops.getD r.old.length { thread := 0, operand := 0, compare := 0 }
  abMsg 0x08 r.tag (s.pasidOf r.ctx) (r.pa - 2 ^ 40)
    (leBytes (r.op + 256 * r.size) 8 ++ leBytes o.operand.toNat 8 ++ leBytes o.compare.toNat 8 ++ List.replicate 8 0) false
    (if r.rel then 2 else 0)

/-- The thread whose operand of an atomic to the companion window comes next (R140). -/
def Req.lane (r : Req) : Nat := (r.ops.getD r.old.length { thread := 0, operand := 0, compare := 0 }).thread

/-- Requests of one vector atomic issue that are not answered. -/
def State.issueOf (s : State) (grp : Nat) : List Req := s.reqs.filter fun r => r.kind == .atomic && r.grp == grp && r.stage != .done

/-- The next `Atomic` of an issue is sent: that of its lowest lane, once no other is on its way (R140). A control core's
atomic is an issue of its own. -/
def State.pumpAtomic (s : State) (r : Req) : State :=
  let go := fun (x : Req) => (s.setReq x.tag fun q => { q with sent := true }).sendAb (s.compAtomic x)
  match r.agent with
  | .vecAtom _ _ _ =>
    let all := (s.issueOf r.grp).filter fun q => isComp q.pa || (match q.stage with | .walk _ _ => true | _ => false)
    match all.find? fun x => all.all fun y => decide (x.lane ≤ y.lane) && !y.sent with
    | some x => if x.stage = .comp then go x else s
    | none => s
  | _ => go r

/-- A request for the companion window: a read is served from a valid copy or sent, a write invalidates the copy and is
sent, an atomic is sent; with the companion agent dead, everything completes with poison (R204, R221). -/
def State.serveComp (s : State) (r : Req) : State :=
  let l := r.pa / 128
  if s.coh.dead then s.answer r.tag fun q => { q with poison := true }
  else
    let sent := fun (s : State) => s.setReq r.tag fun q => { q with stage := .comp }
    let s := s.decodeLine l
    match r.kind with
    | .read =>
      match s.cellar.line? l with
      | some x => ((s.lookup r true).touchLine l).serveRead r x.data x.poison true
      | none => (sent (s.lookup r false)).sendAb
          (abMsg (if r.bypass then 0x04 else 0x01) r.tag (s.pasidOf r.ctx) (128 * l - 2 ^ 40))
    | .write => (sent { (s.lookup r false) with cellar := s.cellar.dropLine l }).sendAb (s.compWrite r)
    | .atomic => (sent { (s.lookup r false) with cellar := s.cellar.dropLine l }).pumpAtomic r

/-- A request is served where nothing is in its way; one that has come to its home and must wait there keeps its place in the
order of arrival (R212). -/
def State.serve (s : State) (tag : Nat) (kinds : List ReqKind) : State :=
  match s.req? tag with
  | some r =>
    if r.stage ≠ .home ∨ !kinds.contains r.kind ∨ s.heldBack r then s
    else if s.waits r then
      whenever (r.arr == 0) s { s.setReq tag fun q => { q with arr := s.accepts + 1 } with accepts := s.accepts + 1 }
    else if isComp r.pa then s.serveComp r
    else s.serveHbm r
  | none => s

/-- CASK_READ (R194). -/
def execCaskRead (tag : Nat) (s : State) : Res := .next (s.serve tag [.read])
/-- CASK_WRITE (R183). -/
def execCaskWrite (tag : Nat) (s : State) : Res := .next (s.serve tag [.write])
/-- CASK_ATOMIC (R167). -/
def execCaskAtomic (tag : Nat) (s : State) : Res := .next (s.serve tag [.atomic])

/-- Whether a fill may not allocate: a weight line of a reserve that is not yet re-laid (R198). -/
def State.noFill (s : State) (l : Nat) : Bool := s.cellar.inWeights (128 * l) && !s.cellar.relaid

/-- The directory state of a line that is filled: a weight line of which the companion kept its copies across a fold is
shared (R223). -/
def State.dirOf (s : State) (l : Nat) : DirState := if s.coh.sCopies.contains l then .ds else .di

/-- The line a fill brings in (R182). -/
def State.filledLine (s : State) (r : Req) : Line :=
  let l := r.pa / 128
  let pin := s.reserveLine l
  { Line.reset with
    addr := l, data := if isComp r.pa then r.data else s.peek (s.store (128 * l)) 128
    cls := if pin then 0 else s.kls r, pinned := pin, dir := s.dirOf l
    poison := (if isComp r.pa then r.poison else r.kind != .write && r.poison) || (isHbm r.pa && s.hbmPoison (s.store (128 * l)) 128) }

/-- BACKING_FILL: the data of a miss has come back from HBM or the companion; it is allocated and the request performed, or the request is
served without allocation (R184). A fill whose line a snoop has taken meanwhile is not allocated (R215). -/
def execBackingFill (tag : Nat) (s : State) : Res :=
  .next (match s.here? tag with
    | some r =>
      let l := r.pa / 128
      if r.stage ≠ .filled ∨ s.coh.txns.any (fun t => t.line == l) then s
      else if r.noAlloc then s.serveRead r r.data r.poison false
      else if s.noFill l then s.serveRead r (s.peek (s.store (128 * l)) 128) (r.poison || s.hbmPoison (s.store (128 * l)) 128) false
      else match s.makeRoom l (if s.reserveLine l then 0 else s.kls r) with
        | .ok t => (t.insertLine (s.filledLine r)).perform r (s.filledLine r)
        | .wait t => t
        | .full => s.bypass r
    | none => s)

/-- BACKING_WRITE_ACK: HBM has acknowledged a write; the cask responds to its sender (R183). -/
def execBackingWriteAck (tag : Nat) (s : State) : Res :=
  .next (match s.here? tag with
    | some r => if r.stage = .hbmAck then s.answer tag fun q => { q with poison := false } else s
    | none => s)

/-! ### Commit (R189, R190) -/

/-- Head dimension of a code (R284). -/
def dimOf (dsel : Nat) : Nat := 64 * 2 ^ dsel
/-- Bytes of one KV element of a format code of R50 (R278). -/
def eltOf (fmt : Nat) : Nat := if fmt = 6 then 2 else 1
/-- Tokens of a barrel (R278). -/
def tpbOf (dsel fmt : Nat) : Nat := 30720 / (dimOf dsel * eltOf fmt)

/-- The bytes of a barrel at `base` that belong to its tokens `a` to `b` − 1, and its digest (R279). -/
def barrelRanges (dsel fmt base a b : Nat) : List (Nat × Nat) :=
  let w := dimOf dsel * eltOf fmt
  let sc := dimOf dsel / 32
  (if a < b then
    [(base + a * w, (b - a) * w), (base + 0x7800 + a * w, (b - a) * w)] ++
      (if fmt = 6 then [] else [(base + 0xF000 + a * sc, (b - a) * sc), (base + 0xF400 + a * sc, (b - a) * sc)])
   else []) ++ [(base + 0xF800, 4 * dimOf dsel)]

/-- The byte ranges that the commit list keeps: the tokens FIRST to FIRST + COUNT − 1 of every barrel of the slot, and the
digest of each of its barrels (R279, R326). -/
def State.keptRanges (s : State) : List (Nat × Nat) :=
  match s.host.plan with
  | none => []
  | some p =>
    let tpb := tpbOf p.dsel p.fmt
    s.seq.commits.flatMap fun x => (s.seq.frames.filter fun f => f.2.1 == x.1).flatMap fun f =>
      let row := f.2.2.1
      barrelRanges p.dsel p.fmt (s.hbm.bbase + f.1 * 2 ^ 16) (max x.2.1 (row * tpb) - row * tpb)
        (min (x.2.1 + x.2.2) (row * tpb + tpb) - row * tpb)

/-- Whether a line overlaps one of a list of byte ranges. -/
def lineIn (rs : List (Nat × Nat)) (l : Nat) : Bool :=
  rs.any fun r => decide (r.2 ≠ 0 ∧ r.1 < 128 * l + 128 ∧ 128 * l < r.1 + r.2)

/-- A line as the commit leaves it: a kept tentative line stops being tentative, any other tentative line and a dirty c2
line in a drop range take a last-pour mark (R189, R190). -/
def Line.committed (x : Line) (kept drops : List (Nat × Nat)) : Line :=
  if x.tent then (if lineIn kept x.addr then { x with tent := false } else { x with tent := false, mark := true })
  else if x.dirty && x.cls == 2 && x.hold.isNone && lineIn drops x.addr then { x with mark := true }
  else x

/-- A write-through of a line that the companion may hold asks its copy back: data that it returns is written in turn
(R214). -/
def State.asked (s : State) (l : Nat) : State :=
  match s.cellar.line? l with
  | some x => whenever (x.dir != .di && !s.coh.dead && (s.txn? l).isNone) s (s.snoop l false none false)
  | none => s

/-- The drop ranges of the active plan (R190). -/
def State.drops (s : State) : List (Nat × Nat) := match s.host.plan with | some p => p.drops | none => []

/-- COMMIT_LIST: the cask at a live position handles the commit list (R189, R190). -/
def execCommitList (pos : Nat) (s : State) : Res :=
  onPart "cask" 512 pos (whenever (s.seq.phase == .committing && !s.cellar.dead.contains pos && !s.cellar.kept.contains pos) s
    (let kept := s.keptRanges
     let mine := (s.cellar.sets.filter fun x => x.1 / 2048 == pos).flatMap (·.2)
     let s := (mine.filter fun x => x.tent && lineIn kept x.addr).foldl (fun (t : State) (x : Line) => t.decodeLine x.addr) s
     let mine := (s.cellar.sets.filter fun x => x.1 / 2048 == pos).flatMap (·.2)
     let writes := mine.filter fun x => x.tent && lineIn kept x.addr
     let t := writes.foldl (fun (t : State) (x : Line) => t.dirtied (128 * x.addr)) s
     let sets := t.cellar.sets.map fun (x : Nat × List Line) =>
       if x.1 / 2048 = pos then (x.1, x.2.map (·.committed kept s.drops)) else x
     writes.foldl (fun (t : State) (x : Line) => (t.pour (flushOf x.addr x.data 1 x.poison)).asked x.addr)
       { t with cellar := { t.cellar with kept := t.cellar.kept ++ [pos], sets := sets } }))

/-- Whether a request is a c1 write that HBM has not acknowledged, homed at a position (R189). -/
def State.unpoured (s : State) (pos : Nat) (r : Req) : Bool :=
  r.kind == .write && r.cls == 1 && s.cellar.homePos (r.pa / 128) == pos &&
    (match r.stage with | .hbmW => true | .parity => true | .hbmAck => true | _ => false)

/-- CASK_COMMIT_COMPLETE: HBM has acknowledged every kept write-through and every non-draft c1 write of the step; the cask
reports (R189). -/
def execCaskCommitComplete (pos : Nat) (s : State) : Res :=
  onPart "cask" 512 pos (whenever (s.cellar.kept.contains pos && !s.cellar.reported.contains pos
      && s.reqs.all fun r => !s.unpoured pos r) s
    { s with cellar := { s.cellar with reported := s.cellar.reported ++ [pos] } })

/-! ### The thrash monitor (R196) -/

/-- The sum of counter `m` over the unpinned classes (R196). -/
def State.unpinned (s : State) (m : Nat) : Nat := ([1, 2, 3, 5, 6, 7].map fun k => s.od 0x4100 (0x10 + 8 * m + k)).foldl (· + ·) 0

/-- THRASH_WINDOW: a window ends (R196). MISS_PERMILLE is truncated: DESIGN CHOICE, R202 does not say how it is rounded
(assumption 89). -/
def execThrashWindow (s : State) : Res :=
  let look := s.unpinned 0
  let miss := look - s.unpinned 1
  let l := look - s.cellar.winLook
  let m := miss - s.cellar.winMiss
  let above := decide (s.od 0x4000 0x11 ≤ l ∧ s.od 0x4000 0x12 * l < 100 * m)
  let run := if above then min 255 (s.od 0x4100 3 + 1) else 0
  let t := { (s.setOd 0x4100 3 run).setOd 0x4100 2 (if l = 0 then 0 else 1000 * m / l) with
    cellar := { s.cellar with winLook := look, winMiss := miss } }
  .next (whenever (above && decide (s.od 0x4000 0x13 ≤ run)) t (((t.void 6).sticky 0x4100 1 0).report 0x1205 2 0))

/-! ### Folding (R198 to R201, R223) -/

/-- The home table of a set of dead positions, as the entries that differ from i mod 512 (R179). -/
def homeTable (dead : List Nat) : List (Nat × Nat) :=
  let live := (List.range 512).filter fun p => !dead.contains p
  let counts := live.map fun p => (p, 8)
  (((List.range 4096).filter fun i => dead.contains (i % 512)).foldl (fun (r : List (Nat × Nat) × List (Nat × Nat)) i =>
    match r.2.foldl (fun (b : Option (Nat × Nat)) x => match b with
        | some y => if x.2 < y.2 then some x else some y
        | none => some x) none with
    | some x => (r.1 ++ [(i, x.1)], put r.2 x.1 (x.2 + 1))
    | none => r) ([], counts)).1

/-- The home-table entries whose position differs between two tables. -/
def changedEntries (a b : List (Nat × Nat)) : List Nat :=
  (List.range 4096).filter fun i => get a i (i % 512) != get b i (i % 512)

/-- The ceiling in force after a fold: the smallest that fits the slice, at most 14 (R200). -/
def raisedCeiling (wlen live p : Nat) : Nat := max p (min 14 ((wlen / 128 + live * 2048 - 1) / (live * 2048)))

/-- Whether a slice fits under a ceiling (R186). -/
def fits (wlen live p : Nat) : Bool := decide (wlen / 128 ≤ live * 2048 * p)

/-- A `SnpFlush` with the mask of home-table entries (R223). -/
def flushMask (ents : List Nat) : List Byte :=
  (List.range 512).map fun b => BitVec.ofNat 8 ((List.range 8).foldl (fun a i =>
    if ents.contains (8 * b + i) then a + 2 ^ i else a) 0)

/-- Tell the companion to give up its copies of lines whose home moves (R223). -/
def State.sendFlush (s : State) (ents : List Nat) : State :=
  whenever (!s.coh.dead && !ents.isEmpty) s
    (({ s with coh := { s.coh with flush := s.coh.flush ++ [ents] } }.sendAb (abMsg 0x21 0 0 0 (flushMask ents))).sticky 0x4200 8 3)

/-- Requests whose home cask is lost go to the new home again: what the cask had not finished, its senders re-send
(R183, R199, R251). -/
def State.rehome (s : State) (lost : List Nat) : State :=
  { s with
    reqs := s.reqs.map fun r =>
      if lost.contains (s.cellar.homePos (r.pa / 128)) && isHbm r.pa && r.agent != .engine then
        (match r.stage with
          | .hbm => { r with stage := .home, acc := 0, arr := 0 }
          | .filled => { r with stage := .home, acc := 0, arr := 0 }
          | .hbmW => { r with stage := .home, acc := 0, arr := 0 }
          | .hbmAck => { r with stage := .home, acc := 0, arr := 0 }
          | .home => { r with arr := 0 }
          | _ => r)
      else r
    coh := { s.coh with txns := s.coh.txns.filter fun t => !lost.contains (s.cellar.homePos t.line) } }

/-- Whether lost casks take work of the step in flight with them: a tentative, c2 or c6 line, or a hold (R199). -/
def State.losesWork (s : State) (lost : List Nat) : Bool :=
  s.cellar.sets.any fun x => lost.contains (x.1 / 2048) && !s.cellar.dead.contains (x.1 / 2048)
    && x.2.any fun y => y.tent || y.cls == 2 || y.cls == 6 || y.hold.isSome

/-- The companion's copies of weight lines, which stay valid while the reserve is re-laid (R223). -/
def State.keepCopies (s : State) : State :=
  { s with coh := { s.coh with sCopies := sortUp (s.coh.sCopies
      ++ (s.cellar.lines.filter fun x => x.dir != .di && s.cellar.inWeights (128 * x.addr)).map (·.addr)) } }

/-- A fold: the positions leave the home table, their lines and every reserve line are gone, the companion is told, and
the reserve waits to be re-laid (R198 to R200). -/
def State.fold (s : State) (lost : List Nat) : State :=
  let lost := lost.filter fun p => !s.cellar.dead.contains p
  let t := (s.rehome lost).keepCopies
  let dead := sortUp (s.cellar.dead ++ lost)
  let ht := homeTable dead
  let c := s.cellar
  let ceiling := raisedCeiling c.wlen (512 - dead.length) c.ceiling
  let c' := { c with
    sets := (c.sets.filter fun x => !lost.contains (x.1 / 2048)).map fun x =>
      (x.1, x.2.filter fun y => !c.inWeights (128 * y.addr))
    dead := dead, ht := ht, relaid := c.wlen == 0, folding := true
    ceiling := ceiling
    kept := c.kept.filter fun p => !lost.contains p, reported := c.reported.filter fun p => !lost.contains p }
  whenever (!lost.isEmpty) s
    (let t := (({ t with cellar := c' }.void 2).sticky 0x4100 1 2).sendFlush
        (changedEntries c.ht ht)
     whenever (!fits c.wlen (512 - dead.length) ceiling) t ((t.sticky 0x4100 1 1).report 0x1206 2 0))

/-- Lay one reserve line that is not in its slot; the flag says whether any line must wait (R186, R198). -/
def layLine (r : State × Bool) (l : Nat) : State × Bool :=
  let s := r.1
  if (s.cellar.line? l).isSome then r
  else match s.makeRoom l 0 with
    | .ok t =>
      (t.insertLine { Line.reset with
        addr := l, data := s.peek (s.store (128 * l)) 128, cls := 0, pinned := true
        poison := s.hbmPoison (s.store (128 * l)) 128, dir := s.dirOf l }, r.2)
    | .wait t => (t, false)
    | .full => (s, false)

/-- The lines of the reserve: those of the slots below the ceiling in force (R180, R200). -/
def Cellar.reserve (c : Cellar) : List Nat :=
  (List.range (min (c.wlen / 128) (c.live * 2048 * c.ceiling))).map (c.wbase / 128 + ·)

/-- Re-lay the reserve; it is laid once no line waits for a victim's back-invalidation (R186, R198). -/
def State.relay (s : State) : State :=
  let r := s.cellar.reserve.foldl layLine (s, true)
  let t := { r.1 with cellar := { r.1.cellar with
    relaid := r.2, folding := !r.2 && r.1.cellar.folding, unfolding := !r.2 && r.1.cellar.unfolding } }
  { t with coh := { t.coh with sCopies := t.coh.sCopies.filter fun l => (t.cellar.line? l).isNone } }

/-- RESERVE_RELAID: the reserve has been re-laid with the present number of live casks, and the fold is over (R198). -/
def execReserveRelaid (s : State) : Res := .next (whenever (!s.cellar.relaid || s.cellar.folding) s s.relay)

/-- The cellar's part of an unfold: the bring-up table less the positions still dead; lines whose entries move are written
back if dirty and invalidated; the companion is told; the ceiling is the one of the plan's load; the reserve waits to be
re-laid (R201). -/
def State.unfoldCellar (s : State) (dead : List Nat) : State :=
  let c := s.cellar
  let dead := sortUp (c.bringDead ++ dead)
  let ht := homeTable dead
  let ents := changedEntries c.ht ht
  let moves := fun (x : Line) => !c.inWeights (128 * x.addr) && ents.contains (homeIndex x.addr)
  let s := (c.lines.filter fun x => moves x && x.dirty && !x.mark).foldl (fun (t : State) (x : Line) => t.decodeLine x.addr)
    s.keepCopies
  let c := s.cellar
  let back := c.lines.filter fun x => moves x && x.dirty && !x.mark
  let ours := c.lines.filter fun x => moves x && isComp (128 * x.addr)
  let sets := c.sets.map fun (x : Nat × List Line) =>
    (x.1, x.2.filter fun y => !moves y && !c.inWeights (128 * y.addr))
  let ceiling := if c.wlen = 0 then c.ceiling else c.loadCeiling
  let t := { s with cellar := { c with
    sets := sets, dead := dead, ht := ht, ceiling := ceiling, relaid := c.wlen == 0, folding := true, unfolding := true } }
  (ours.foldl (fun (t : State) (x : Line) => t.giveUp x.addr)
    (back.foldl (fun (t : State) (x : Line) => t.pour (flushOf x.addr x.data x.cls x.poison)) t)).sendFlush ents

/-- The casks of a compute die (R177). -/
def casksOf (die : Nat) : List Nat := (List.range 64).map fun k => 8 * k + die

/-! ### Background work on the cellar (R187, R191) -/

/-- Lines with a last-pour mark are invalidated without write-back (R191); one that the companion holds is asked back first
(R206, R207). -/
def State.dropMarked (s : State) : State :=
  let gone := fun (x : Line) => x.mark && x.dir == .di && (s.txn? x.addr).isNone
  let t := (s.cellar.lines.filter gone).foldl (fun t x => t.tally 6 x.cls) s
  let t := { t with cellar := t.cellar.keepLines fun x => !gone x }
  (t.cellar.lines.filter fun x => x.mark && x.dir != .di && (t.txn? x.addr).isNone).foldl
    (fun t x => whenever (!t.coh.dead) t (t.snoop x.addr false none true)) t

/-- A set of a cask is scrubbed: each line is decoded; a reserve line that is dropped is laid again (R187). -/
def State.scrubSet (s : State) (pos set : Nat) : State :=
  (get s.cellar.sets (2048 * pos + set) []).foldl (fun t x =>
    let t := t.decodeLine x.addr
    if x.pinned then (layLine (t, true) x.addr).1 else t) s

end Sys2Proof.Machine
end

