-- ==== Sys2Proof/Machine/Coherence.lean ====
section
/-!
DEFINITION. Machine/Coherence.lean: the messages of the companion (chapter 08) as they arrive at the module, the answers
of the companion home to the module's own requests, and the timeouts that declare the companion agent dead.
-/

namespace Sys2Proof.Machine

/-- A malformed message, or one that the current state does not permit (R222). -/
def State.protocolError (s : State) (addr : Nat) : State := s.report 0x4403 0 0 addr

/-! ### Requests of the companion (R207, R208, R402, R405 to R407, R442) -/

/-- The context a process identifier names, where it names a valid slice-table entry (R443). -/
def State.ctxOfPasid (s : State) (p : Nat) : Option Nat :=
  if p = 0 then some 0 else (s.host.ctxs.find? fun x => x.2.pasid == p && x.1 != 0).map (·.1)

/-- The reason a companion request to HBM is refused, 0 for none (R208, R257, R401, R402, R405, R407, R442). -/
def State.compReason (s : State) (h : AbHdr) (n : Nat) (write own : Bool) : Nat :=
  let a := h.addr.toNat
  if h.ord = 3 then 4
  else if !isHbm a then 2
  else match s.ctxOfPasid h.pasid.toNat with
    | none => 5
    | some c =>
      if s.cellar.inWeights a then (if write || own then 1 else 0)
      else if !s.accessible a then 3
      else if s.reach c (s.ctx c).part a n write then 0 else 5

/-- A refusal: `CmpErr`, or `RegErr` for an address in the register window; refusals other than those of the weight region
are counted (R208, R401, R405, R406, R442). -/
def State.refuse (s : State) (h : AbHdr) (reason : Nat) : State :=
  let t := s.sendAb (abMsg (if isReg h.addr.toNat then 0x84 else 0x65) h.tag.toNat h.pasid.toNat h.addr.toNat
    (leBytes reason 16))
  if reason = 1 then t else (t.bumpLane 0x1100 8 3 1).report 0x0702 0 0 h.addr.toNat

/-- A request of the companion arrives at its home: it is served at once where nothing is in its way, and otherwise waits
there (R212); with the companion agent dead it is discarded (R221). -/
def State.arriveComp (s : State) (h : AbHdr) (op n : Nat) (kind : ReqKind) (f : Req → Req) : State :=
  if s.coh.dead then s
  else match s.compReason h n (kind != .read) (op == 0x02 || op == 0x03) with
    | 0 =>
      (s.addReq (f { Req.reset with
        agent := .comp op h.tag.toNat h.pasid.toNat, ctx := (s.ctxOfPasid h.pasid.toNat).getD 0, kind := kind
        va := h.addr.toNat, pa := h.addr.toNat, size := n, cls := 5, poison := h.poison, stage := .home
        acq := h.ord == 1, rel := h.ord == 2 })).serve s.nextTag [.read, .write, .atomic]
    | reason => s.refuse h reason

/-- A message of the companion takes effect only while its agent is not declared dead (R221). -/
def State.fromAgent (s t : State) : State := whenever (!s.coh.dead) s t

/-- A line request of the companion: its address is a line's (R401). -/
def State.lineReq (s : State) (h : AbHdr) (op : Nat) (kind : ReqKind) (f : Req → Req) : State :=
  s.fromAgent (if h.addr.toNat % 128 ≠ 0 then s.protocolError h.addr.toNat else s.arriveComp h op 128 kind f)

/-- A message about a module line takes effect only where its address is one (R222). -/
def State.aboutLine (s : State) (h : AbHdr) (t : State) : State :=
  s.fromAgent (if h.addr.toNat % 128 ≠ 0 ∨ !isHbm h.addr.toNat then s.protocolError h.addr.toNat else t)

/-- A message about a companion line takes effect only where its address is one (R222). -/
def State.aboutWindow (s : State) (h : AbHdr) (t : State) : State :=
  s.fromAgent (if h.addr.toNat % 128 ≠ 0 ∨ 2 ^ 40 ≤ h.addr.toNat then s.protocolError h.addr.toNat else t)

/-- A read request keeps nothing of its poison bit. -/
def noPoison (r : Req) : Req := { r with poison := false }

/-- RD_SHARED (R214). -/
def execRdShared (h : AbHdr) (s : State) : Res := .next (s.lineReq h 0x01 .read noPoison)
/-- RD_OWN (R214). -/
def execRdOwn (h : AbHdr) (s : State) : Res := .next (s.lineReq h 0x02 .read noPoison)
/-- RD_OWN_NO_DATA (R214). -/
def execRdOwnNoData (h : AbHdr) (s : State) : Res := .next (s.lineReq h 0x03 .read noPoison)
/-- RD_CUR (R214). -/
def execRdCur (h : AbHdr) (s : State) : Res := .next (s.lineReq h 0x04 .read noPoison)

/-- A line write of the companion under a byte mask. -/
def State.lineWrite (s : State) (h : AbHdr) (op mask : Nat) (data : List Byte) : State :=
  if data.length ≠ 128 then s.fromAgent (s.protocolError h.addr.toNat)
  else s.lineReq h op .write fun r => { r with data := data, mask := mask % 2 ^ 128 }

/-- WR_LINE (R214). -/
def execWrLine (h : AbHdr) (data : List Byte) (s : State) : Res := .next (s.lineWrite h 0x05 (2 ^ 128 - 1) data)
/-- WR_STASH: performed as `WrLine`; the target cache is the companion's hint to itself (R226). -/
def execWrStash (h : AbHdr) (_target : Nat) (data : List Byte) (s : State) : Res :=
  .next (s.lineWrite h 0x06 (2 ^ 128 - 1) data)
/-- WR_PART (R214); a mask of no byte writes nothing and is performed. -/
def execWrPart (h : AbHdr) (mask : Nat) (data : List Byte) (s : State) : Res :=
  .next (if mask % 2 ^ 128 = 0 ∧ data.length = 128 ∧ h.addr.toNat % 128 = 0 ∧ !s.coh.dead then
      match s.compReason h 128 true false with
      | 0 => s.sendAb (abMsg 0x63 h.tag.toNat h.pasid.toNat h.addr.toNat)
      | reason => s.refuse h reason
    else s.lineWrite h 0x07 mask data)
/-- ATOMIC: performed at the module home; an undefined operation or size, or a misaligned address, is a malformed message
(R214, R401). Its operands are taken as clean whatever its poison bit: DESIGN CHOICE, the spec does not say what a poisoned
operand does (assumption 90). -/
def execAtomicReq (h : AbHdr) (op size : Nat) (operand compare : BitVec 64) (s : State) : Res :=
  .next (if 10 < op ∨ (size ≠ 4 ∧ size ≠ 8) ∨ h.addr.toNat % size ≠ 0 ∨ (op = 10 ∧ size ≠ 4) then
      s.fromAgent (s.protocolError h.addr.toNat)
    else s.arriveComp h 0x08 size .atomic fun r =>
      { r with op := op, ops := [{ thread := 0, operand := operand, compare := compare }], poison := false })

/-! ### Evictions and snoop responses (R213 to R217, R223) -/

/-- A transaction that waits for nothing more goes on: a back-invalidation closes, a waiting request is served (R216). -/
def State.resume (s : State) (l : Nat) : State :=
  match s.txn? l with
  | some t =>
    if t.rsp || t.wb || t.ack then s
    else match t.waiter with
      | some tag => s.serve tag [.read, .write, .atomic]
      | none => s.closeTxn l
  | none => s

/-- An eviction arrives: it answers an awaited one, is held while a transaction is open, and is otherwise handled at once
(R214, R216). -/
def State.evictArrives (s : State) (m : AbMsg) : State :=
  let l := m.addr / 128
  if s.coh.dead then s
  else if m.addr % 128 ≠ 0 ∨ !isHbm m.addr then s.protocolError m.addr
  else match s.txn? l with
    | some t =>
      if t.wb && m.op == 0x09 then
        let s := if t.toss then s else s.absorb l m.data m.poison
        ({ s with cellar := s.cellar.setLine l fun x => { x with dir := .di } }.setTxn l fun t =>
          { t with wb := false, held := some m, used := true }).resume l
      else s.setTxn l fun t => { t with held := some m, used := !t.rsp && !t.ack && t.waiter.isSome }
    | none => s.takeEvict m

/-- The message a header and data stand for. -/
def hdrMsg (h : AbHdr) (op : Nat) (data : List Byte) : AbMsg :=
  abMsg op h.tag.toNat h.pasid.toNat h.addr.toNat data h.poison h.ord.toNat

/-- EVICT_DIRTY (R214). -/
def execEvictDirty (h : AbHdr) (data : List Byte) (s : State) : Res :=
  .next (if data.length = 128 then s.evictArrives (hdrMsg h 0x09 data) else s.fromAgent (s.protocolError h.addr.toNat))
/-- EVICT_CLEAN (R214). -/
def execEvictClean (h : AbHdr) (s : State) : Res := .next (s.evictArrives (hdrMsg h 0x0A []))

/-- A snoop response that ends the wait for it: returned data is written, the directory follows, and an eviction that was
held is the copy the snoop asked for (R214 to R216). -/
def State.snpRsp (s : State) (h : AbHdr) (data : Option (List Byte)) (keepS : Bool) : State :=
  let l := h.addr.toNat / 128
  match s.txn? l with
  | some t =>
    if !t.rsp ∨ (keepS && !t.shr) then s.protocolError h.addr.toNat
    else
      let s := match data with | some d => if t.toss then s else s.absorb l d h.poison | none => s
      let s := match t.held, data with
        | some m, none => if m.op = 0x09 ∧ !t.toss then s.absorb l m.data m.poison else s
        | _, _ => s
      let dir := if keepS && t.held.isNone then DirState.ds else .di
      ({ s with cellar := s.cellar.setLine l fun x => { x with dir := dir } }.setTxn l fun t =>
        { t with rsp := false, used := t.held.isSome }).resume l
  | none => s.protocolError h.addr.toNat

/-- SNP_RSP_I (R215). -/
def execSnpRspI (h : AbHdr) (s : State) : Res := .next (s.aboutLine h (s.snpRsp h none false))
/-- SNP_RSP_S (R214). -/
def execSnpRspS (h : AbHdr) (s : State) : Res := .next (s.aboutLine h (s.snpRsp h none true))
/-- SNP_RSP_I_DATA (R214). -/
def execSnpRspIData (h : AbHdr) (data : List Byte) (s : State) : Res :=
  .next (s.aboutLine h
    (if data.length = 128 then s.snpRsp h (some data) false else s.protocolError h.addr.toNat))
/-- SNP_RSP_S_DATA (R214). -/
def execSnpRspSData (h : AbHdr) (data : List Byte) (s : State) : Res :=
  .next (s.aboutLine h
    (if data.length = 128 then s.snpRsp h (some data) true else s.protocolError h.addr.toNat))

/-- SNP_RSP_I_WB_PEND: the transaction stays open until the `EvictDirty` is there (R216). -/
def execSnpRspIWbPend (h : AbHdr) (s : State) : Res :=
  let l := h.addr.toNat / 128
  .next (s.aboutLine h (match s.txn? l with
    | some t =>
      if !t.rsp then s.protocolError h.addr.toNat
      else match t.held with
        | some m =>
          if m.op = 0x09 then (s.bump 0x4200 0x12 1).snpRsp h none false
          else (s.bump 0x4200 0x12 1).setTxn l fun t => { t with rsp := false, wb := true, held := none }
        | none => (s.bump 0x4200 0x12 1).setTxn l fun t => { t with rsp := false, wb := true }
    | none => s.protocolError h.addr.toNat))

/-- SNP_FLUSH_DONE: it ends the oldest flush; the held requests for its lines may go on (R223). -/
def execSnpFlushDone (h : AbHdr) (s : State) : Res :=
  .next (s.fromAgent (match s.coh.flush with
    | _ :: rest => { s with coh := { s.coh with flush := rest, flushed := if rest.isEmpty then [] else s.coh.flushed } }
    | [] => s.protocolError h.addr.toNat))

/-- CMP_ACK: the home closes the transaction (R213). -/
def execCmpAck (h : AbHdr) (s : State) : Res :=
  let l := h.addr.toNat / 128
  .next (s.aboutLine h (match s.txn? l with
    | some t => if t.ack then s.closeTxn l else s.protocolError h.addr.toNat
    | none => s.protocolError h.addr.toNat))

/-! ### The module as an agent for companion lines (R203, R213, R215) -/

/-- SNOOP: the module answers from its state; INV and SHR concern its S copy. A granted copy that is still on its way to
its cask counts as held: INV has it served without allocation (R215). -/
def execSnoop (h : AbHdr) (shr : Bool) (s : State) : Res :=
  let l := (h.addr.toNat + 2 ^ 40) / 128
  let coming := s.reqs.any fun r => r.pa / 128 == l && r.stage == .filled && !r.noAlloc
  let held := ((s.cellar.line? l).isSome || coming) && (find? s.coh.evicting l).isNone
  let t := if shr then s else
    { s with
      cellar := s.cellar.dropLine l
      reqs := s.reqs.map fun r => if r.pa / 128 = l ∧ r.stage = .filled then { r with noAlloc := true } else r }
  .next (s.aboutWindow h
    (t.sendAb (abMsg (if shr && held then 0x41 else 0x40) h.tag.toNat h.pasid.toNat h.addr.toNat)))

/-- EVICT_ACK: the module's eviction of a companion line is accepted (R213). -/
def execEvictAck (h : AbHdr) (s : State) : Res :=
  let l := (h.addr.toNat + 2 ^ 40) / 128
  .next (s.aboutWindow h
    (if (find? s.coh.evicting l).isSome then { s with coh := { s.coh with evicting := drop s.coh.evicting l } }
     else s.protocolError h.addr.toNat))

/-- The module request that a completion of the companion home answers, by its TAG and its address: an atomic's own, any
other's line (R222, R401). -/
def State.compReq? (s : State) (h : AbHdr) : Option Req :=
  s.reqs.find? fun r => r.stage == .comp && r.tag % 2 ^ 16 == h.tag.toNat
    && h.addr.toNat == (if r.kind = .atomic then r.pa else 128 * (r.pa / 128)) - 2 ^ 40

/-- A grant for a read of a companion line arrives: it is acknowledged where it lets the module cache, and the data goes
on to the cask (R204, R213). -/
def State.granted (s : State) (h : AbHdr) (data : List Byte) (cache : Bool) : State :=
  match s.compReq? h with
  | some r =>
    if r.kind ≠ .read ∨ data.length ≠ 128 then s.protocolError h.addr.toNat
    else if cache then
      (s.sendAb (abMsg 0x46 h.tag.toNat h.pasid.toNat h.addr.toNat)).setReq r.tag fun q =>
        { q with stage := .filled, data := data, poison := h.poison }
    else s.serveRead r data h.poison false
  | none => s.protocolError h.addr.toNat

/-- CMP_S (R211). -/
def execCmpS (h : AbHdr) (data : List Byte) (s : State) : Res := .next (s.fromAgent (s.granted h data true))
/-- CMP_E: the module caches companion lines in S only, so it keeps an E grant as S (R203, R211, assumption 15). -/
def execCmpE (h : AbHdr) (data : List Byte) (s : State) : Res := .next (s.fromAgent (s.granted h data true))
/-- CMP_I (R211). -/
def execCmpI (h : AbHdr) (data : List Byte) (s : State) : Res := .next (s.fromAgent (s.granted h data false))

/-- A release-marked write of an engine to the companion window goes out once every earlier write of an engine to the window
is performed (R205, R419). -/
def State.pumpEngine (s : State) : State :=
  let ours := s.reqs.filter fun r => r.agent == .engine && r.kind == .write && isComp r.pa
  match ours.find? fun r => r.stage == .home with
  | some r => whenever (ours.all fun q => decide (r.tag ≤ q.tag)) s (s.serveComp r)
  | none => s

/-- CMP: a write or atomic of the module is performed (R205); an atomic issue sends its next operand (R140). -/
def execCmp (h : AbHdr) (old : BitVec 64) (s : State) : Res :=
  .next (s.fromAgent (match s.compReq? h with
    | some r =>
      match r.kind with
      | .read => s.protocolError h.addr.toNat
      | .write => ((s.wroteBy r).answer r.tag fun q => { q with poison := false }).pumpEngine
      | .atomic =>
        if !r.sent then s.protocolError h.addr.toNat
        else if h.poison then
          match (s.answer r.tag fun q => { q with poison := true }), (s.issueOf r.grp).find? fun q => q.tag != r.tag && q.stage == .comp with
          | t, some q => if r.grp = 0 then t else t.pumpAtomic q
          | t, none => t
        else
          let old := r.old ++ [(r.lane, BitVec.ofNat 64 (old.toNat % 2 ^ (8 * r.size)))]
          let r' := { r with old := old, sent := false }
          if old.length < r.ops.length then (s.setReq r.tag fun _ => r').pumpAtomic r'
          else
            let t := (s.wroteBy r).answer r.tag fun q => { q with old := old, sent := false }
            match (t.issueOf r.grp).find? fun q => q.stage == .comp with
            | some q => if r.grp = 0 then t else t.pumpAtomic q
            | none => t
    | none => s.protocolError h.addr.toNat))

/-- CMP_ERR: the companion home refuses a module request; its sender's access is not permitted (R211, R442, assumption
15). -/
def execCmpErr (h : AbHdr) (_reason : Nat) (s : State) : Res :=
  .next (s.fromAgent (match s.compReq? h with
    | some r =>
      match r.agent, r.agent.core? with
      | .fetch c l vec, _ =>
        (((s.dropReq r.tag).onCoreState c fun k => { k with fetching := k.fetching.filter (· != l) }).coreFault c
          (if vec then 0x21C5 else 0x2105) r.va).finishIfQuiet c
      | _, some c =>
        if r.agent.unit = 1 then s.setReq r.tag fun q => { q with stage := .done, err := r.agent.accessCode }
        else ((s.dropReq r.tag).coreFault c r.agent.accessCode r.va).finishIfQuiet c
      | _, none => s.dropReq r.tag
    | none => s.protocolError h.addr.toNat))

/-! ### Timeouts and a dead agent (R218 to R224) -/

/-- A line is poisoned because its newest data may be lost; it must be written back with its poison (R219 to R221). -/
def State.poisonLine (s : State) (l : Nat) : State :=
  ({ s with cellar := s.cellar.setLine l fun x => { x with poison := true, dirty := true, dir := .di } }.bump 0x4200 0x13 1).sticky
    0x4200 8 0

/-- A request that waits for a transaction completes with poison: a module access raises its fault, an atomic is not
performed, and a companion request receives its grant or `Cmp` with the poison bit set (R219). -/
def State.poisoned (s : State) (r : Req) : State :=
  match r.agent with
  | .comp op t p =>
    if r.kind = .read then
      (s.dropReq r.tag).sendAb (abMsg (if op = 0x01 then 0x60 else if op = 0x04 then 0x62 else 0x61) t p (128 * (r.pa / 128))
        (s.lineNow (r.pa / 128)).1 true)
    else s.answer r.tag fun q => { q with poison := true }
  | _ => s.answer r.tag fun q => { q with poison := true }

/-- A transaction that waits on the companion completes with poison (R219). -/
def State.failTxn (s : State) (t : Txn) : State :=
  let s := { s.poisonLine t.line with coh := { (s.poisonLine t.line).coh with
    txns := (s.poisonLine t.line).coh.txns.filter fun x => x.line != t.line } }
  match t.waiter with
  | some tag => (match s.req? tag with | some r => s.poisoned r | none => s)
  | none => s

/-- Whether a module request to the companion window is outstanding: sent, or granted and not yet at its cask (R221). -/
def Req.outside (r : Req) : Bool := r.stage == .comp || (r.stage == .filled && isComp r.pa)

/-- The companion agent is declared dead (R221): lines in DO are poisoned, those in DS become DI, waiting transactions
complete with poison, requests of the companion are discarded, copies of companion lines go, and the module's requests to
the companion complete with poison. -/
def State.companionDead (s : State) (code detail : Nat) : State :=
  if s.coh.dead then s
  else
    let s := s.coh.txns.foldl State.failTxn s
    let s := (s.cellar.lines.filter fun x => x.dir == .dO).foldl (fun s x => s.poisonLine x.addr) s
    let s := { s with cellar := (s.cellar.mapLines fun x => { x with dir := .di }).keepLines fun x => !isComp (128 * x.addr) }
    let s := { s with reqs := (s.reqs.filter fun (r : Req) => match r.agent, r.stage with
        | .comp _ _ _, .home => false
        | .comp _ _ _, .hbm => false
        | .comp _ _ _, .filled => false
        | _, _ => true).map fun (r : Req) => match r.agent with | .comp _ _ _ => { r with agent := .engine } | _ => r }
    let s := (s.reqs.filter (·.outside)).foldl (fun s r => s.answer r.tag fun q => { q with poison := true }) s
    ({ s with
      coh := { s.coh with dead := true, txns := [], flush := [], flushed := [], evicting := [], sCopies := [] }
      seq := { s.seq with voided := true } }.sticky 0x4200 8 1).report code 0 0 detail

/-- HOME_TIMEOUT: a transaction that waits on the companion expires; the timer of one whose messages have all arrived has
stopped (R218, R219). -/
def execHomeTimeout (line : Nat) (s : State) : Res :=
  .next (match s.txn? line with
    | some t =>
      if s.host.link = 1 ∨ !(t.rsp || t.wb || t.ack) then s else (s.failTxn t).companionDead 0x4401 (128 * line)
    | none => s)

/-- The companion line whose eviction by the module is sent under a TAG and not acknowledged (R213). -/
def State.evictTag? (s : State) (tag : Nat) : Option Nat :=
  (s.coh.evicting.find? fun x => x.1 % 2 ^ 16 == tag % 2 ^ 16).map (·.1)

/-- COH_HOME_TIMEOUT: a module request to the companion home, or an eviction, expires (R218, R221). -/
def execCohHomeTimeout (tag : Nat) (s : State) : Res :=
  .next (if s.host.link = 1 then s
    else match s.req? tag with
    | some r => if r.stage = .comp then s.companionDead 0x4402 r.pa else s
    | none => match s.evictTag? tag with
      | some l => s.companionDead 0x4402 (128 * l)
      | none => s)

/-- The lines that outstanding flushes name and the companion has not evicted (R224). -/
def State.unflushed (s : State) : List Nat :=
  (List.range (2 ^ 33)).filter fun l => s.flushNames l && !s.coh.flushed.contains l && s.accessible (128 * l)

/-- COH_FLUSH_TIMEOUT: every marked line not evicted is treated as DO, and the companion is declared dead (R224). -/
def execCohFlushTimeout (s : State) : Res :=
  .next (if s.coh.flush.isEmpty then s
    else
      let ls := s.unflushed
      let blocks := ls.flatMap fun l => [s.store (128 * l) / 64, s.store (128 * l) / 64 + 1]
      ((({ s with
        hbm := { s.hbm with poison := sortUp (s.hbm.poison ++ blocks) }
        cellar := s.cellar.mapLines fun x =>
          if s.flushNames x.addr && !s.coh.flushed.contains x.addr then { x with poison := true, dirty := true } else x }.bump
        0x4200 0x13 ls.length).sticky 0x4200 8 0).companionDead 0x4404 0))

end Sys2Proof.Machine
end

