-- ==== Sys2Proof/Machine/SpanLink.lean ====
section
/-!
DEFINITION. Machine/SpanLink.lean: what every unit uses of Span (chapter 13): the torus routes, frames sent and the
streams of this module.
-/

namespace Sys2Proof.Machine

/-- The module's own ID (R9, R16, R539). -/
def State.modId (s : State) : Nat := s.od 0xA000 8
/-- NXT. -/
def State.nxt (s : State) : Nat := s.od 0xA000 9
/-- NYT. -/
def State.nyt (s : State) : Nat := s.od 0xA000 0xA

/-- The state of a port. -/
def State.sport (s : State) (p : Nat) : PortSt := get s.span.ports p PortSt.reset
/-- Whether a port is in service. -/
def State.portUp (s : State) (p : Nat) : Bool := (s.sport p).up

/-- The port of the shorter way round a ring of `n` for a distance, taking the plus port on ties (R353). -/
def shortWay (n d plus minus : Nat) : Nat := if d ≤ n - d then plus else minus

/-- The first port of a list that is in service. -/
def State.firstUp (s : State) (ps : List Nat) : Option Nat := ps.find? s.portUp

/-- The way round a ring, then the other way of the same ring (R353). -/
def bothWays (n d plus minus : Nat) : List Nat :=
  if shortWay n d plus minus = plus then [plus, minus] else [minus, plus]

/-- The port by which a frame for a module leaves: along X until x agrees, then along Y, with the detours around ports
that are down; none where no port is left or the module itself is named (R342, R353). -/
def State.routePort (s : State) (dst : Nat) : Option Nat :=
  let dx := (dst / 256 + s.nxt - s.modId / 256) % s.nxt
  let dy := (dst % 256 + s.nyt - s.modId % 256) % s.nyt
  if dx ≠ 0 then s.firstUp (bothWays s.nxt dx 1 0 ++ bothWays s.nyt dy 3 2)
  else if dy ≠ 0 then s.firstUp (bothWays s.nyt dy 3 2 ++ bothWays s.nxt dx 1 0)
  else none

/-- Whether the port taken is the one of the shorter way with every port in service (R353). -/
def State.plainRoute (s : State) (dst : Nat) : Bool :=
  let dx := (dst / 256 + s.nxt - s.modId / 256) % s.nxt
  let dy := (dst % 256 + s.nyt - s.modId % 256) % s.nyt
  s.routePort dst == some (if dx ≠ 0 then shortWay s.nxt dx 1 0 else shortWay s.nyt dy 3 2)

/-- Add to the `i`-th count of 0x6100.20 (R383): sent, received, forwarded, replayed, re-sent, corrected, uncorrectable,
refused. -/
def State.spanCount (s : State) (i n : Nat) : State := s.bumpLane 0x6100 0x20 i n

/-- A frame of this module (R347). -/
def State.frame (s : State) (typ dst seq tag offset : Nat) (payload : List Byte) : SpanFrame :=
  { port := 0, typ := typ, dst := dst, src := s.modId, seq := seq, tag := tag, offset := offset, payload := payload }

/-- The class of a frame type, by the order in which a port sends (R351). -/
def spanClass (typ : Nat) : Nat :=
  if typ = 4 then 2 else if typ = 5 then 3 else if (2 ≤ typ ∧ typ ≤ 8) ∨ typ = 12 then 4 else 1
/-- The 64-byte units of a frame: header, payload and CRC (R347, R352; assumption 104). -/
def frameUnits (f : SpanFrame) : Nat := (f.payload.length + 20 + 63) / 64
/-- The credits of a port that enters service: of each class, at least those of one longest frame. -/
def startCredits : List (Nat × Nat) := [2, 3, 4].map fun c => (c, 33 + Config.spanCredits c)

/-- Whether a port has the credit for a frame; class 1 takes none (R351, R352). -/
def PortSt.mayLeave (x : PortSt) (f : SpanFrame) : Bool :=
  spanClass f.typ == 1 || decide (frameUnits f ≤ get x.credits (spanClass f.typ) 0)

/-- The waiting frame that leaves next: the oldest of the first class whose oldest frame has credit, so that a frame that waits
for credit blocks none of another class (R351). -/
def PortSt.nextOut (x : PortSt) : Option SpanFrame :=
  [1, 2, 3, 4].findSome? fun c => (x.queue.find? fun f => spanClass f.typ == c).filter x.mayLeave

/-- A waiting frame leaves a port: it is counted, takes its credit, and is kept for replay until the neighbour reports it
received (R349, R351, R352, R383). -/
def State.frameLeaves (s : State) (p : Nat) (f : SpanFrame) : State :=
  ({ s with span := { s.span with
      out := s.span.out ++ [(p, f)]
      ports := upd s.span.ports p PortSt.reset fun x =>
        { x with
          buf := x.buf ++ [f], queue := x.queue.erase f
          credits := if spanClass f.typ = 1 then x.credits else upd x.credits (spanClass f.typ) 0 (· - frameUnits f) } } }).spanCount 0 1

/-- Waiting frames leave a port, `n` at most, as their order and their credits let them (R351). -/
def State.sendWaiting (s : State) (p : Nat) : Nat → State
  | 0 => s
  | n + 1 => match (s.sport p).nextOut with
    | none => s
    | some f => (s.frameLeaves p f).sendWaiting p n

/-- A frame joins those that wait at a port, of which as many leave as may: time is not modelled, so that only credit holds a
frame (R351; assumption 50). -/
def State.emit (s : State) (p : Nat) (f : SpanFrame) : State :=
  let t := { s with span := { s.span with
    ports := upd s.span.ports p PortSt.reset fun x => { x with queue := x.queue ++ [{ f with port := p }] } } }
  t.sendWaiting p (t.sport p).queue.length

/-- Send a frame out of a port that is in service. -/
def State.sendFrame (s : State) (p : Nat) (f : SpanFrame) : State := whenever (s.portUp p) s (s.emit p f)

/-- Send a frame on its route; a frame with no route waits for its re-send (R350, R353). -/
def State.sendRouted (s : State) (f : SpanFrame) : State :=
  match s.routePort f.dst with
  | some p => s.sendFrame p f
  | none => s

/-- The stream of this module to a destination. -/
def State.txTo (s : State) (dst : Nat) : StreamTx := get s.span.tx dst StreamTx.reset

/-- Whether the stream to a destination takes `n` more frames at once (R350). -/
def State.txRoom (s : State) (dst n : Nat) : Bool := decide ((s.txTo dst).unacked.length + n ≤ 32767)

/-- A frame for the stream to its destination, numbered in its order: the Span engine accepts and sends it, or it waits while
32,767 frames of the stream are unacknowledged (R350). -/
def State.stream (s : State) (typ dst tag offset : Nat) (payload : List Byte) : State :=
  let x := s.txTo dst
  let f := s.frame typ dst x.next tag offset payload
  let y := { x with next := (x.next + 1) % 2 ^ 24 }
  if s.txRoom dst 1 then
    ({ s with span := { s.span with tx := put s.span.tx dst { y with unacked := x.unacked ++ [f] } } } : State).sendRouted f
  else { s with span := { s.span with tx := put s.span.tx dst { y with waiting := x.waiting ++ [f] } } }

/-- Waiting frames of a stream are accepted as acknowledgements make room (R350). -/
def State.streamOn (s : State) (dst : Nat) : State :=
  let x := s.txTo dst
  let fs := x.waiting.take (32767 - x.unacked.length)
  fs.foldl (fun (t : State) f => t.sendRouted f)
    { s with span := { s.span with
      tx := put s.span.tx dst { x with unacked := x.unacked ++ fs, waiting := x.waiting.drop fs.length } } }

/-- Accept bytes into a stream, at most 2,048 a frame (R347). -/
def State.streamBytes (s : State) (typ dst tag offset : Nat) (d : List Byte) : State :=
  (List.range ((d.length + 2047) / 2048)).foldl (fun (t : State) (i : Nat) =>
    t.stream typ dst tag (offset + 2048 * i) ((d.drop (2048 * i)).take 2048)) s

/-- Frames that `n` bytes take. -/
def framesOf (n : Nat) : Nat := (n + 2047) / 2048

/-- A rack identifier (R352). -/
def rackId (origin slot gen : Nat) : List Byte := leBytes origin 2 ++ leBytes slot 2 ++ leBytes gen 2 ++ leBytes 0 2

/-- A flooded frame is remembered for 1 s (R352). -/
def State.noteFlood (s : State) (f : SpanFrame) : State :=
  { s with span := { s.span with
    seen := (s.span.seen.filter fun x => decide (s.now < x.2.2.2 + 1000000000)) ++ [(f.typ, f.src, f.seq, s.now)] } }
/-- Whether a flooded frame has been forwarded in the last second (R352). -/
def State.floodSeen (s : State) (f : SpanFrame) : Bool :=
  s.span.seen.any fun x => x.1 == f.typ && x.2.1 == f.src && x.2.2.1 == f.seq && decide (s.now < x.2.2.2 + 1000000000)

/-- Flood a frame of this module: to every port in service (R352). -/
def State.flood (s : State) (typ tag : Nat) (payload : List Byte) : State :=
  let f := s.frame typ 0 s.span.floodSeq tag 0 payload
  let t := ({ s with span := { s.span with floodSeq := (s.span.floodSeq + 1) % 2 ^ 24 } } : State).noteFlood f
  [0, 1, 2, 3].foldl (fun (t : State) (p : Nat) => t.sendFrame p f) t

end Sys2Proof.Machine
end

