-- ==== Sys2Proof/Machine/DictBase.lean ====
section
/-!
DEFINITION. Machine/DictBase.lean: requests on a path of the object dictionary and their answers (chapter 21): what a
command that a dictionary write gives has in common.
-/

namespace Sys2Proof.Machine

/-! ### Abort codes (R582) -/

/-- `AB_CMD` -/ def abCmdCode : Nat := 0x00010001
/-- `AB_SEQ` -/ def abSeq : Nat := 0x00010002
/-- `AB_TIMEOUT` -/ def abTimeout : Nat := 0x00010003
/-- `AB_LENGTH` -/ def abLength : Nat := 0x00010004
/-- `AB_BUSY` -/ def abBusy : Nat := 0x00010005
/-- `AB_NO_INDEX` -/ def abNoIndex : Nat := 0x00020001
/-- `AB_NO_SUBINDEX` -/ def abNoSub : Nat := 0x00020002
/-- `AB_READ_ONLY` -/ def abReadOnly : Nat := 0x00020003
/-- `AB_LEVEL` -/ def abLevel : Nat := 0x00020004
/-- `AB_RANGE` -/ def abRange : Nat := 0x00030001
/-- `AB_DISAGREE` -/ def abDisagree : Nat := 0x00030002
/-- `AB_STATE` -/ def abState : Nat := 0x00030003
/-- `AB_IN_USE` -/ def abInUse : Nat := 0x00030004
/-- `AB_CLAIMED` -/ def abClaimed : Nat := 0x00030005
/-- `AB_NOT_AVAILABLE` -/ def abNotAvail : Nat := 0x00040001
/-- `AB_INTERNAL` -/ def abInternal : Nat := 0x00040002

/-- The in-service section of the vintage record is written anew, with the next sequence number (R516, R530; assumption 108). -/
def State.recorded (s : State) : State := { s with bring := { s.bring with recService := (s.bring.recService + 1) % 2 ^ 32 } }

/-! ### Paths (R565 to R567) -/

/-- The level of a path: 0 operator, 1 manager, 2 service. -/
def State.level (s : State) : Path → Nat
  | .can => s.dict.levelC
  | .mailbox => s.dict.levelM
/-- Set the level of a path. -/
def State.setLevel (s : State) (p : Path) (n : Nat) : State :=
  match p with
  | .can => { s with dict := { s.dict with levelC := n } }
  | .mailbox => { s with dict := { s.dict with levelM := n } }
/-- The opening level of a path (R567). -/
def State.openLevel (s : State) : Path → Nat
  | .can => s.od 0x1100 0x25
  | .mailbox => 1
/-- The open transfer of a path. -/
def State.xfer (s : State) : Path → Option Xfer
  | .can => s.dict.xferC
  | .mailbox => s.dict.xferM
/-- Set the open transfer of a path. -/
def State.setXfer (s : State) (p : Path) (x : Option Xfer) : State :=
  match p with
  | .can => { s with dict := { s.dict with xferC := x } }
  | .mailbox => { s with dict := { s.dict with xferM := x } }

/-- Whether a path answers: after the boot row of R527; the mailbox only with the link up; the CAN FD path not in bus-off
(R578, R586). -/
def State.answers (s : State) (p : Path) : Bool :=
  decide (5 ≤ s.bring.row) && (match p with
    | .can => !s.dict.busOff
    | .mailbox => s.host.link == 2)

/-- Whether the module answers only what R476 permits. -/
def State.latchOnly (s : State) : Bool := s.faults.hwLatch || s.bring.state == 9 && s.faults.f4.any (·.1 == 0x4801)

/-- Add to the `i`-th count of DTP_COUNTS (R589). -/
def State.dtpCount (s : State) (i : Nat) : State := s.bumpLane 0x1100 0x27 i 1

/-- The bytes of a message (R571). -/
def dtpBytes (m : DtpMsg) : List Byte :=
  if m.cmd = 0x86 ∨ m.cmd = 0x87 then [BitVec.ofNat 8 m.cmd, BitVec.ofNat 8 m.tid] ++ m.data
  else leBytes m.cmd 1 ++ leBytes m.tid 1 ++ leBytes m.idx 2 ++ leBytes m.sub 1 ++ [0] ++ leBytes m.data.length 2 ++ m.data

/-- The module sends a message on a path; a mailbox response stands in MB_RESPONSE, and a path silenced by an address
clash sends nothing (R578, R579). -/
def State.reply (s : State) (p : Path) (cmd tid idx sub : Nat) (data : List Byte) : State :=
  let m : DtpMsg := { path := p, cmd := cmd, tid := tid, idx := idx, sub := sub, data := data }
  match p with
  | .can => if s.dict.silent then s else { s with dict := { s.dict with out := s.dict.out ++ [m] } }
  | .mailbox =>
    let b := dtpBytes m
    let id := if cmd = 0x86 ∨ cmd = 0x87 then s.dict.mbState.toNat / 256 % 256 else tid % 256
    { s with dict := { s.dict with
      out := s.dict.out ++ [m], mbRsp := b
      mbState := BitVec.ofNat 64 (b.length % 2 ^ 16 * 2 ^ 32 + id * 256 + 2) } }

/-- A request is aborted (R582). -/
def State.abortReq (s : State) (p : Path) (tid idx sub code : Nat) : State :=
  (s.reply p 0x8F tid idx sub (leBytes code 4)).dtpCount 1

/-- The outcome of a write: the new state, or an abort code. -/
abbrev Act := Except Nat State

/-- A write is answered with DONE or aborted; an aborted write changes nothing (R574, R582). -/
def State.finishWrite (s : State) (p : Path) (tid idx sub : Nat) (a : Act) : State :=
  match a with
  | .ok t => (t.reply p 0x82 tid idx sub []).dtpCount 0
  | .error e => s.abortReq p tid idx sub e

/-- A write request on a path of an entry that needs level `lvl`: not answered before boot, refused while a transfer is
open, when latched and below the level (R566, R573, R586). -/
def State.request (s : State) (p : Path) (tid idx sub lvl : Nat) (f : State → Act) : State :=
  if !s.answers p then s
  else if s.latchOnly then s.abortReq p tid idx sub abNotAvail
  else if (s.xfer p).isSome then s.abortReq p tid idx sub abBusy
  else if s.level p < lvl then s.abortReq p tid idx sub abLevel
  else s.finishWrite p tid idx sub (f s)

/-- Refuse with a code unless a condition holds. -/
def guardAct (b : Bool) (code : Nat) (a : Act) : Act := if b then a else .error code

/-! ### Agreement groups (R583, R585) -/

/-- The agreement groups: commit entry and members. -/
def agreementGroups : List (Nat × List Nat) :=
  [(0x21000F, [0x210001, 0x210002]), (0x32000F, [0x320001, 0x320002, 0x320003, 0x320004]),
   (0x40001F, [0x400010, 0x400011, 0x400012, 0x400013]), (0x42000F, [0x420001, 0x420002]),
   (0x50000F, [0x500003, 0x500005, 0x500006, 0x500007]), (0x60000F, (List.range 14).map (0x600010 + ·)),
   (0x61000F, (List.range 9).map (0x610005 + ·)), (0x62000F, [0x620002, 0x620003, 0x620004]),
   (0x70001F, (List.range 8).map (0x700008 + ·)), (0x72000F, (List.range 5).map (0x720004 + ·)),
   (0x90001F, [0x900010, 0x900011]), (0xA0000F, [0xA00008, 0xA00009, 0xA0000A, 0xA0000B])]

/-- The members of the group of a commit entry. -/
def groupMembers (c : Nat) : List Nat := get agreementGroups c []
/-- The commit entry of the group to which an entry belongs. -/
def groupOf (k : Nat) : Option Nat := (agreementGroups.find? fun x => x.2.contains k).map (·.1)

/-- What a member reads: its staged value, or its committed value when nothing is staged. -/
def State.groupVal (s : State) (k : Nat) : Nat := (find? s.dict.staged k).getD (s.od (k / 256) (k % 256))
/-- Whether a group is claimed by the other path. -/
def State.foreign (s : State) (p : Path) (c : Nat) : Bool :=
  match find? s.dict.claims c with
  | some q => q != p
  | none => false
/-- A value is staged; the first claims the group for its path. -/
def State.stage (s : State) (p : Path) (c k v : Nat) : State :=
  let held := (find? s.dict.claims c).isSome
  { s with dict := { s.dict with
    staged := put s.dict.staged k v, claims := if held then s.dict.claims else put s.dict.claims c p } }
/-- Staged values of a group are discarded, and its claim ends. -/
def State.clearGroup (s : State) (c : Nat) : State :=
  { s with dict := { s.dict with
    staged := s.dict.staged.filter fun x => !(groupMembers c).contains x.1, claims := drop s.dict.claims c } }
/-- The staged values of a group become the committed ones. -/
def State.commitVals (s : State) (c : Nat) : State :=
  ((groupMembers c).foldl (fun (t : State) k => t.setOd (k / 256) (k % 256) (s.groupVal k)) s).clearGroup c

/-! ### The end of a transfer and the reset of a path (R573, R578, R583, R593) -/

/-- The open transfer of a path is aborted (R573, R589, R593). -/
def State.dropXfer (s : State) (p : Path) : State :=
  let t := (s.setXfer p none).report 0x0882 0 0
  whenever (s.xfer p).isSome s (match p with | .can => t.sticky 0x1100 0x24 2 | .mailbox => t)

/-- A path is reset: its transfer is aborted, its staged values are discarded and its claims end, and its level returns to the
opening level (R567, R578, R583). -/
def State.resetPath (s : State) (p : Path) : State :=
  let mine := (s.dict.claims.filter fun x => x.2 == p).map (·.1)
  let t := mine.foldl (fun (t : State) c => t.clearGroup c) (s.dropXfer p)
  t.setLevel p (s.openLevel p)

end Sys2Proof.Machine
end

