-- ==== Sys2Proof/Machine/TrellisNet.lean ====
section
/-!
DEFINITION. Machine/TrellisNet.lean: the trellis (chapter 09): reductions, packets and routes, lanes and dead routers.
-/

namespace Sys2Proof.Machine

/-! ### Trees (R245, R360) -/

/-- The tree records in force: those of the plan, or of the fallback variant in use (R252, R422). -/
def State.treeRecs (s : State) : List Nat :=
  match s.host.plan, s.seq.fallback with
  | some p, none => p.trees
  | some p, some d => p.fbTrees.getD d []
  | none, _ => []
/-- The tree record of a reduction ID; none where it is unused (R245). -/
def State.tree? (s : State) (rid : Nat) : Option Nat :=
  match s.treeRecs[rid]? with
  | some t => if t = 0 then none else some t
  | none => none
/-- The line address of line `i` of a reduction, as translated at plan load; none beyond its lines (assumption 16). -/
def State.resultLine (s : State) (rid i : Nat) : Option Nat :=
  let rs := match s.host.plan, s.seq.fallback with
    | some p, none => p.results
    | some p, some d => p.fbResults.getD d []
    | none, _ => []
  ((rs.getD rid [])[i]?).map (· / 128)

/-- SUBS. -/
def treeSubs (t : Nat) : Nat := bits t 127 112
/-- DELIVER. -/
def treeDeliver (t : Nat) : Nat := bits t 103 102
/-- E_BASE. -/
def treeEbase (t : Nat) : Int := sextN (bits t 101 92) 10
/-- LEAVES. -/
def treeLeaves (t : Nat) : Nat := bits t 74 58
/-- Die word `d`: PGX, PGY and DLEAVES. -/
def treeDie (t d : Nat) : Nat × Nat × Nat :=
  let w := bits t (159 + 32 * d) (128 + 32 * d)
  (bits w 29 23, bits w 22 17, bits w 16 0)
/-- DIMS of the ring word. -/
def treeDims (t : Nat) : Nat := bits t 385 384

/-! ### `rsend`, `rrecv`, `rstat` (R243, R244) -/

/-- FMT of a reduction descriptor. -/
def rFmt (d : Word) : Nat := bits d.toNat 51 50
/-- Lines it names. -/
def rLines (d : Word) : Nat := bits d.toNat 49 46 + 1
/-- LADDR. -/
def rLaddr (d : Word) : Nat := bits d.toNat 45 29
/-- LINE. -/
def rLine (d : Word) : Nat := bits d.toNat 28 12
/-- RID. -/
def rRid (d : Word) : Nat := bits d.toNat 11 0
/-- Bytes per line of an `rsend`. -/
def rSendSize (fmt : Nat) : Nat := if fmt = 0 then 128 else 16
/-- Bytes per line of an `rrecv`. -/
def rRecvSize (fmt : Nat) : Nat := if fmt = 0 then 128 else if fmt = 1 then 16 else 8

/-- `rsend`: its lines wait for the plot router (R243, R244). -/
def execRsend (c : Nat) (rs1 : Reg) (s : State) : Res :=
  onCore c (s.ctl c 4 [rs1] fun s =>
    let d := (s.core c).reg rs1
    if 2 ≤ rFmt d ∨ rLaddr d % 128 ≠ 0 ∨ 0x1C000 < rLaddr d + rSendSize (rFmt d) * rLines d then
      s.coreFault c 0x2101 (s.core c).pc.toNat
    else s.onCoreState c fun k =>
      ({ k with redq := k.redq ++ [({ desc := d, sent := 0, ctx := k.ctx, olds := k.others 16 k.knows } : RSend)] } : Core).next 4)

/-- One subscription per line of an `rrecv`. -/
def subscribe (s : State) (c item : Nat) (d : Word) : List Sub :=
  (List.range (rLines d)).map fun i => { Sub.reset with
    tag := s.nextTag + 1 + i, core := c, ctx := (s.core c).ctx, rid := rRid d, line := rLine d + i
    laddr := rLaddr d + rRecvSize (rFmt d) * i, fmt := rFmt d, item := item, born := s.od 0x6000 2 }

/-- `rrecv` (R243, R244): subscribes to result lines and raises the counter's issued count. -/
def execRrecv (c : Nat) (rd rs1 : Reg) (s : State) : Res :=
  onCore c (s.ctl c 4 [rd, rs1] fun s =>
    let k := s.core c
    let d := k.reg rs1
    let a := bits d.toNat 61 58
    if rFmt d = 3 ∨ rLaddr d % 128 ≠ 0 ∨ 0x1C000 < rLaddr d + rRecvSize (rFmt d) * rLines d then
      s.coreFault c 0x2101 k.pc.toNat
    else if cnt k.issued a = 0xFFFFFFFF then s.coreFault c 0x2147
    else
      let k := k.newItem a s.nextTag (rLines d) 0 .rrecv
      { s.setCore c ((k.setReg rd (BitVec.ofNat 64 (cnt k.issued a))).next 4) with
        nextTag := s.nextTag + 1 + rLines d
        trellis := { s.trellis with subs := s.trellis.subs ++ subscribe s c s.nextTag d } })

/-- `rsend` lines of a core not yet accepted. -/
def Core.redLeft (k : Core) : Nat := k.redq.foldl (fun a x => a + (rLines x.desc - x.sent)) 0

/-- `rstat` (R243). -/
def execRstat (c : Nat) (rd : Reg) (s : State) : Res :=
  onCore c (s.ctlCore c 4 [rd] fun k => k.setReg rd (BitVec.ofNat 64 (k.redLeft % 256)))

/-- The four words of an `rsend` line: four slots, or four FP32 values quantised with the descriptor's base (R244). -/
def redWords (d : Word) (b : List Byte) : BitVec 768 :=
  if rFmt d = 0 then pack4 (Solera.add 0 (word4 (fourWords b) 0)) (Solera.add 0 (word4 (fourWords b) 1))
    (Solera.add 0 (word4 (fourWords b) 2)) (Solera.add 0 (word4 (fourWords b) 3))
  else
    let t := fun i => Solera.term (sextN (bits d.toNat 61 52) 10) (FV.of32 (BitVec.ofNat 32 (num8 b (4 * i) 4)))
    pack4 (t 0) (t 1) (t 2) (t 3)

/-- A contribution sets out for its next stop. -/
def State.contribute (s : State) (x : Contrib) : State :=
  { s with trellis := { s.trellis with contribs := s.trellis.contribs ++ [{ x with tag := s.nextTag }] }, nextTag := s.nextTag + 1 }
/-- A contribution is done with. -/
def State.dropContrib (s : State) (tag : Nat) : State :=
  { s with trellis := { s.trellis with contribs := s.trellis.contribs.filter fun x => x.tag != tag } }

/-! ### Routers (R229, R230, R246) -/

/-- Whether a router exists (R229). -/
def isRouter (gx gy : Nat) : Bool := decide (gx < 92 ∧ gy < 64)

/-- The router of a plot of a compute die: plot index 20y + x (R230). -/
def plotRouter (die plot : Nat) : Nat × Nat :=
  let x := plot % 20
  let u := if x < 5 then x else if x < 15 then x + 1 else x + 2
  (2 + 22 * (die % 4) + u, 32 * (die / 4) + plot / 20)
/-- The router of the cask at a position (R177, R230). -/
def caskRouter (pos : Nat) : Nat × Nat :=
  (2 + 22 * (pos % 8 % 4) + (if pos / 8 < 32 then 5 else 16), 32 * (pos % 8 / 4) + pos / 8 % 32)
/-- The plot router of a logical core. -/
def State.coreRouter (s : State) (c : Nat) : Nat × Nat := plotRouter (c / 10000) ((s.dieMap (c / 10000)).phys (c % 10000) / 16)

/-- Contributions that a plot router has accepted from its cores and not yet combined or passed on. -/
def State.atPlot (s : State) (g : Nat × Nat) : Nat :=
  (s.trellis.contribs.filter fun x => x.stop == 0 && s.coreRouter x.core == g).length

/-- RSEND_LINE_ACCEPT: the plot router accepts the core's next line while it has RED credit (assumption 96); the line's
local bytes are read now (R244), and it carries the context of the kernel that issued it (R247). -/
def execRsendLineAccept (c : Nat) (s : State) : Res :=
  onCore c (match (s.core c).redq with
    | [] => s
    | x :: rest =>
      let n := rSendSize (rFmt x.desc)
      let a := rLaddr x.desc + n * x.sent
      whenever (decide (s.atPlot (s.coreRouter c) ≤ Config.redCredits)) s
        ((s.fresh c).checked c a n fun s =>
          let k := s.core c
          (s.setCore c { k with redq :=
            if x.sent + 1 < rLines x.desc then { x with sent := x.sent + 1 } :: rest else rest }).contribute
            { Contrib.reset with
              core := c, cores := [c], ctx := x.ctx, rid := rRid x.desc, line := rLine x.desc + x.sent
              words := redWords x.desc (raced k.rdraw x.olds k.ldst a n) }))

/-- The leaf count at which a buffer is forwarded (R246). -/
def bufLimit (t stop die : Nat) : Nat := if stop = 0 then 16 else (treeDie t die).2.2

/-- Where a contribution goes from a stop (R246). -/
def nextStop (t stop die : Nat) : Nat := if stop = 0 ∧ (treeDie t die).2.2 ≠ 0 then 1 else 2

/-- The buffer of a router for a line. -/
def LBuf.is (b : LBuf) (g : Nat × Nat) (stop rid line : Nat) : Bool :=
  b.gx == g.1 && b.gy == g.2 && b.stop == stop && b.rid == rid && b.line == line

/-- A buffer is forwarded as one contribution (R246). -/
def State.forward (s : State) (b : LBuf) (stop : Nat) : State :=
  ({ s with trellis := { s.trellis with bufs := s.trellis.bufs.filter (· != b) } }).contribute
    { Contrib.reset with
      core := b.core, cores := b.cores, ctx := b.ctx, rid := b.rid, line := b.line, leaves := b.leaves, words := b.words
      stop := stop }

/-- A contribution at a combining point: it is added to the line's buffer or allocates one, and a full buffer goes on;
with all sixteen buffers busy it passes on unchanged (R246). A contribution of an unused reduction ID goes to the home,
which discards it (R247). -/
def State.combine (s : State) (x : Contrib) : State :=
  let die := x.core / 10000
  match s.tree? x.rid with
  | none => { s with trellis := { s.trellis with
      contribs := s.trellis.contribs.map fun (y : Contrib) => if y.tag = x.tag then { y with stop := 2 } else y } }
  | some t =>
    let g := if x.stop = 0 then s.coreRouter x.core else ((treeDie t die).1, (treeDie t die).2.1)
    match s.trellis.bufs.find? (·.is g x.stop x.rid x.line) with
    | some b =>
      let b' := { b with leaves := b.leaves + x.leaves, words := add4 b.words x.words, cores := dedup (b.cores ++ x.cores) }
      let s := { s.dropContrib x.tag with trellis := { (s.dropContrib x.tag).trellis with
        bufs := s.trellis.bufs.map fun (y : LBuf) => if y = b then b' else y } }
      if bufLimit t x.stop die ≤ b'.leaves then s.forward b' (nextStop t x.stop die) else s
    | none =>
      if 16 ≤ (s.trellis.bufs.filter fun (b : LBuf) => b.gx == g.1 && b.gy == g.2).length then
        ({ s with trellis := { s.trellis with
          contribs := s.trellis.contribs.map fun (y : Contrib) => if y.tag = x.tag then { y with stop := nextStop t x.stop die } else y } }).bump
          0x6000 5 1
      else
        let b := { LBuf.reset with
          gx := g.1, gy := g.2, rid := x.rid, line := x.line, stop := x.stop, core := x.core, cores := x.cores
          ctx := x.ctx, leaves := x.leaves, words := x.words }
        let s := { s.dropContrib x.tag with trellis := { (s.dropContrib x.tag).trellis with bufs := s.trellis.bufs ++ [b] } }
        if bufLimit t x.stop die ≤ b.leaves then s.forward b (nextStop t x.stop die) else s

/-- The contribution with a tag. -/
def State.contrib? (s : State) (tag : Nat) : Option Contrib := s.trellis.contribs.find? (·.tag == tag)

/-- RED_COMBINE (R246). -/
def execRedCombine (tag : Nat) (s : State) : Res :=
  .next (match s.contrib? tag with
    | some x => if x.stop < 2 then s.combine x else s
    | none => s)

/-- RED_FLUSH: a buffer's flush limit expires (R246). -/
def execRedFlush (gx gy rid line : Nat) (s : State) : Res :=
  .next (match s.trellis.bufs.find? fun b => b.gx == gx && b.gy == gy && b.rid == rid && b.line == line with
    | some b => s.forward b (match s.tree? rid with | some t => nextStop t b.stop (b.core / 10000) | none => 2)
    | none => s)

/-! ### Reductions at their home (R192, R193, R247) -/

/-- A fault of the trellis against the context of the kernel that sent a contribution or subscription. -/
def State.redFault (s : State) (code core ctx rid : Nat) : State := s.reportCtx code ctx (s.core core).part 8 rid

/-- Change the hold of a line. -/
def State.setHold (s : State) (l : Nat) (f : Option Hold → Option Hold) : State :=
  { s with cellar := s.cellar.setLine l fun x => { x with hold := f x.hold } }

/-- The hold of a line. -/
def State.hold? (s : State) (l : Nat) : Option Hold :=
  match s.cellar.line? l with
  | some x => x.hold
  | none => none

/-- A subscription is served with the line as it stands (R247). -/
def State.serveSub (s : State) (l tag : Nat) : State :=
  match s.cellar.line? l with
  | some x =>
    { s with trellis := { s.trellis with subs := s.trellis.subs.map fun (y : Sub) =>
        if y.tag = tag then { y with res := some (fourWords x.data), poison := x.poison } else y } }.setHold l fun h =>
      h.map fun (h : Hold) => { h with served := h.served + 1, subs := h.subs.filter (· != tag) }
  | none => s

/-- The hold is released once SUBS subscriptions have been served (R247). -/
def State.releaseServed (s : State) (l subs : Nat) : State :=
  match s.hold? l with
  | some h => if subs ≤ h.served then s.setHold l fun _ => none else s
  | none => s

/-- The waiting subscriptions of a completed line are served in arrival order, at most SUBS of them. -/
def State.deliver (s : State) (l subs : Nat) : State :=
  match s.hold? l with
  | some h => ((h.subs.take (subs - h.served)).foldl (fun s t => s.serveSub l t) s).releaseServed l subs
  | none => s

/-- A package line enters the reduce-forward ring: the Span engine takes it as this module's own (R361). -/
def State.ringOwn (s : State) (rid line : Nat) (w : BitVec 768) : State :=
  let r := s.span.ring
  let r' := if r.any fun x => x.rid == rid && x.line == line then
      r.map fun (x : RingLine) => if x.rid = rid ∧ x.line = line then { x with own := some w } else x
    else r ++ [{ RingLine.reset with rid := rid, line := line, own := some w }]
  { s with span := { s.span with ring := r' } }

/-- A line whose leaves are all counted and whose header has been read completes and delivers (R247). -/
def State.completeLine (s : State) (l : Nat) : State :=
  match s.cellar.line? l with
  | none => s
  | some x =>
    match x.hold with
    | none => s
    | some h =>
      match s.tree? h.rid with
      | none => s.setHold l fun _ => none
      | some t =>
        if !h.hdr || h.done || h.got != treeLeaves t then s
        else
          let s := s.setHold l fun h => h.map fun (h : Hold) => { h with done := true }
          match treeDeliver t with
          | 0 => s.setHold l fun _ => none
          | 1 => s.deliver l (treeSubs t)
          | _ => (s.setHold l fun h => h.map fun (h : Hold) => { h with ring := true }).ringOwn h.rid h.idx (fourWords x.data)

/-- The physical address of the tree record of a reduction ID in the plan's image (R245, R422). -/
def State.treeAddr (s : State) (rid : Nat) : Nat :=
  match s.host.plan, s.seq.fallback with
  | some p, none => p.addr + p.treesOff + 64 * rid
  | some p, some d => p.addr + p.fbTreesOff + 64 * ((p.fbTrees.getD d []).length * d + rid)
  | none, _ => 0

/-- The home of a held line reads the tree header, as a c3 read through the cellar (R247). -/
def State.readHeader (s : State) (rid idx : Nat) : State :=
  s.addReq { Req.reset with
    agent := .header rid idx, ctx := match s.host.plan with | some p => p.model | none => 0
    kind := .read, va := s.treeAddr rid, pa := s.treeAddr rid, size := 64, cls := 3, bypass := true }

/-- What comes of placing a hold on a line: the tree header is then read. -/
def State.placeHold (s : State) (l rid idx : Nat) : Room :=
  let h : Hold := { Hold.reset with rid := rid, idx := idx }
  let fresh : Line := { Line.reset with
    addr := l, data := List.replicate 128 0, cls := 6, dirty := true, hold := some h }
  match s.cellar.line? l with
  | some x =>
    if (s.txn? l).isSome then .wait s
    else if x.dir ≠ .di then .wait (s.snoop l false none true)
    else .ok (({ s with cellar := s.cellar.setLine l fun _ => fresh }.tally 2 6).readHeader rid idx)
  | none =>
    if s.reqs.any fun q => q.pa / 128 == l && (match q.stage with | .hbm => true | .filled => true | _ => false) then .wait s
    else match s.makeRoom l 6 with
      | .ok t => .ok ((t.insertLine fresh).readHeader rid idx)
      | r => r

/-- A contribution or subscription is counted as a request of class c6 at its home (R195). -/
def State.redLookup (s : State) (hit : Bool) : State := if hit then (s.tally 0 6).tally 1 6 else s.tally 0 6

/-- A contribution is added to its held line and counted; one beyond LEAVES is not added, raises `RED_COUNT` and poisons
the line (R247). -/
def State.addContrib (s : State) (l t : Nat) (x : Contrib) : State :=
  match s.hold? l with
  | none => s
  | some h =>
    if treeLeaves t < h.got + x.leaves then
      ({ s.dropContrib x.tag with cellar := s.cellar.setLine l fun y => { y with poison := true } }).redFault 0x2485 x.core x.ctx
        x.rid
    else
      ({ s.dropContrib x.tag with cellar := s.cellar.setLine l fun y => { y with
          data := bytes4 (add4 (fourWords y.data) x.words), dirty := true
          hold := y.hold.map fun (h : Hold) => { h with got := h.got + x.leaves } } }).completeLine l

/-- The line that a contribution or subscription is for (R245). -/
def State.redValid (s : State) (l : Nat) : Bool := (s.cellar.line? l).isSome

/-- A first contribution that finds no way waits at its set, behind those that wait there; the cores whose kernels sent it
are stalled (R193). -/
def State.waitContrib (s : State) (x : Contrib) (hit : Bool) : State :=
  whenever (!x.waited) s
    (({ s with trellis := { s.trellis with
      contribs := (s.trellis.contribs.filter fun (y : Contrib) => y.tag != x.tag) ++ [{ x with waited := true }] } }.bump 0x4100 0x51 1).redLookup
        hit)

/-- Whether a contribution that came earlier waits at the set of a line (R193). -/
def State.waitsBefore (s : State) (l : Nat) (x : Contrib) : Bool :=
  (if x.waited then s.trellis.contribs.takeWhile fun y => y.tag != x.tag else s.trellis.contribs).any fun y =>
    y.waited && (match s.resultLine y.rid y.line with
    | some m => s.cellar.setKey m == s.cellar.setKey l
    | none => false)

/-- RED_CONTRIBUTION_HOME: a contribution is added where its line is held and not complete; a first one places the hold, or
waits, and so does one that meets a line held for a completion already reached (R192, R193, R247). -/
def execRedContributionHome (tag : Nat) (s : State) : Res :=
  .next (match s.contrib? tag with
    | none => s
    | some x =>
      if x.stop ≠ 2 then s
      else match s.tree? x.rid, s.resultLine x.rid x.line with
        | some t, some l =>
          let hit := s.redValid l
          let seen := fun (s : State) => whenever (!x.waited) s (s.redLookup hit)
          (match s.hold? l with
            | some h =>
              if h.rid ≠ x.rid then s else if h.done then s.waitContrib x hit else (seen s).addContrib l t x
            | none =>
              if s.waitsBefore l x then s.waitContrib x hit
              else match s.placeHold l x.rid x.line with
                | .ok s => (seen s).addContrib l t x
                | .wait s => s
                | .full => s.waitContrib x hit)
        | _, _ => ((s.dropContrib tag).redLookup false).redFault 0x248A x.core x.ctx x.rid)

/-- The subscription with a tag. -/
def State.sub? (s : State) (tag : Nat) : Option Sub := s.trellis.subs.find? (·.tag == tag)
/-- A subscription is done with. -/
def State.dropSub (s : State) (tag : Nat) : State :=
  { s with trellis := { s.trellis with subs := s.trellis.subs.filter fun x => x.tag != tag } }

/-- RED_SUBSCRIPTION: a subscription reaches its home: it is served from a completed line, or waits in the hold, which it
allocates where there is none (R247, R362). -/
def execRedSubscription (tag : Nat) (s : State) : Res :=
  .next (match s.sub? tag with
    | none => s
    | some x =>
      if x.res.isSome ∨ x.lost then s
      else match s.tree? x.rid, s.resultLine x.rid x.line with
        | some t, some l =>
          let hit := s.redValid l
          if treeDeliver t = 0 then ((s.dropSub tag).redLookup hit).redFault 0x2489 x.core x.ctx x.rid
          else
            let wait := fun (s : State) => s.setHold l fun h => h.map fun (h : Hold) => { h with subs := addTo h.subs tag }
            (match s.hold? l with
              | some h =>
                if h.rid ≠ x.rid ∨ h.subs.contains tag then s
                else if h.done && !h.ring && decide (h.served < treeSubs t) then
                  ((s.redLookup hit).serveSub l tag).releaseServed l (treeSubs t)
                else wait (s.redLookup hit)
              | none =>
                match s.placeHold l x.rid x.line with
                | .ok s => wait (s.redLookup hit)
                | .wait s => s
                | .full => s)
        | _, _ => ((s.dropSub tag).redLookup false).redFault 0x248A x.core x.ctx x.rid)

/-- The bytes a subscription writes (R40, R244). -/
def subBytes (fmt : Nat) (eb : Int) (w : BitVec 768) : List Byte :=
  match fmt with
  | 0 => bytes4 w
  | 1 => (List.range 4).flatMap fun i => leBytes ((word4 w i).toFV eb).to32.toNat 4
  | _ => (List.range 4).flatMap fun i => leBytes ((word4 w i).toFV eb).to16.toNat 2

/-- RED_RESULT_ARRIVAL: a result line is written at LADDR and its item comes nearer to its arrival; a poisoned one writes
nothing and raises `CC_POISON` (R244, R247). -/
def execRedResultArrival (tag : Nat) (s : State) : Res :=
  .next (match s.sub? tag with
    | none => s
    | some x =>
      match x.res with
      | none => s
      | some w =>
        if x.lost then s
        else if !(s.core x.core).items.any (·.id == x.item) then s.dropSub tag
        else if x.poison then (s.dropSub tag).coreFault x.core 0x2106
        else ((s.dropSub tag).fresh x.core).onCoreState x.core fun k =>
          (k.storeItem x.item x.laddr (subBytes x.fmt (treeEbase ((s.tree? x.rid).getD 0)) w)).itemBack x.item)

/-- The answered read of the tree header of a held line. -/
def State.headerBack (s : State) (rid line : Nat) : Option Req :=
  s.reqs.find? fun r => r.agent == .header rid line && r.stage == .done && !r.lost

/-- TREE_HEADER_READ: the read of a held line's tree header is back (R247). -/
def execTreeHeaderRead (rid line : Nat) (s : State) : Res :=
  .next (match s.headerBack rid line, s.resultLine rid line with
    | some r, some l =>
      ((s.dropReq r.tag).setHold l fun h =>
        h.map fun (h : Hold) => if h.rid = rid then { h with hdr := true } else h).completeLine l
    | some r, none => s.dropReq r.tag
    | none, _ => s)

/-- RED_WRITEBACK: the ring's result replaces the held line, whose subscriptions are then served as for DELIVER = 01
(R362). -/
def execRedWriteback (rid line : Nat) (s : State) : Res :=
  .next (match s.span.ring.find? fun x => x.rid == rid && x.line == line && x.final, s.resultLine rid line, s.tree? rid with
    | some x, some l, some t =>
      match s.hold? l, x.sum with
      | some h, some w =>
        if h.rid ≠ rid ∨ !h.ring then s
        else
          let c := s.cellar.setLine l fun y => { y with data := bytes4 w, poison := false, dirty := true }
          (({ s with cellar := c, span := { s.span with ring := s.span.ring.filter fun y => !(y.rid == rid && y.line == line) } }.setHold
            l fun h => h.map fun (h : Hold) => { h with ring := false }).deliver l (treeSubs t))
      | _, _ => s
    | _, _, _ => s)

/-- The reduction state of an attempt is discarded: every line buffer, every contribution and subscription in flight, and
every hold with its line (R252). -/
def State.clearReductions (s : State) : State :=
  { s with
    trellis := { s.trellis with bufs := [], contribs := [], subs := [] }
    span := { s.span with ring := [] }
    cellar := s.cellar.keepLines fun x => x.hold.isNone }


/-! ### Dies and edges (R229, R239) -/

/-- The dies that a die-to-die edge joins, 8 for X0 and 9 for X1 (the table of R239). -/
def edgeEnds (edge : Nat) : List Nat :=
  [[8, 0], [8, 4], [0, 1], [1, 2], [2, 3], [4, 5], [5, 6], [6, 7], [0, 4], [1, 5], [2, 6], [3, 7], [3, 9], [7, 9]].getD edge []
/-- The edges of a die. -/
def edgesOf (die : Nat) : List Nat := (List.range 14).filter fun e => (edgeEnds e).contains die
/-- The compute die of a router (R229). -/
def routerDie (g : Nat × Nat) : Option Nat := if 2 ≤ g.1 ∧ g.1 < 90 then some (4 * (g.2 / 32) + (g.1 - 2) / 22) else none
/-- The die of a router, 8 for X0 and 9 for X1 (R229). -/
def ownerDie (g : Nat × Nat) : Nat := (routerDie g).getD (if g.1 < 2 then 8 else 9)
/-- The edge that the link between two neighbouring routers crosses: one of its boundary links (R239). -/
def crossing (g h : Nat × Nat) : Option Nat :=
  if ownerDie g = ownerDie h then none
  else (List.range 14).find? fun e => (edgeEnds e).contains (ownerDie g) && (edgeEnds e).contains (ownerDie h)

/-- The compute die and plot of a plot router, or the position of a cask router's cask (R229, R230). -/
def routerServes (gx gy : Nat) : Option (Nat × Nat) × Option Nat :=
  if gx < 2 ∨ 90 ≤ gx ∨ 64 ≤ gy then (none, none)
  else
    let j := (gx - 2) / 22
    let u := (gx - 2) % 22
    let die := j + 4 * (gy / 32)
    let v := gy % 32
    if u = 5 then (none, some (8 * v + die))
    else if u = 16 then (none, some (8 * (v + 32) + die))
    else
      let x := if u < 5 then u else if u < 16 then u - 1 else u - 2
      (some (die, 20 * v + x), none)

/-- An engine of an I/O die with a trellis interface of its own (the table of R613). -/
inductive Engine where
  | sequence | replica | abius | span0 | span1
  deriving DecidableEq, Repr

/-- The router of an engine (R613). -/
def Engine.router : Engine → Nat × Nat
  | .sequence => (0, 31)
  | .replica => (91, 31)
  | .abius => (1, 32)
  | .span0 => (1, 31)
  | .span1 => (90, 31)

/-- The half of the Span engine that serves a port (R613). -/
def spanHalf (port : Nat) : Engine := if port % 2 = 0 then .span0 else .span1

/-- The engine to whose interface a request to an address of the register window travels (R406, R613). -/
def windowEngine (va : Nat) : Engine := if 0x21000000000 ≤ va ∧ va < 0x21013880000 then .span0 else .abius

/-- The router of the sequence engine in charge (R238, R304). -/
def State.seqRouter (s : State) : Nat × Nat := (if s.seq.onX1 then Engine.replica else .sequence).router

/-! ### Lane groups (R240, R241) -/

/-- The role of lane group `group` of an edge: 0 trellis, 1 cellar/coherence, 2 reduction, 3 test. The groups take the roles
in this order, as many as the edge's counts say: DESIGN CHOICE (assumption 97). Before the edges are trained every group is
in the test role. -/
def State.roleOf (s : State) (edge group : Nat) : Nat :=
  let w := s.trellis.roles.getD edge 0x10000000
  let a := w % 256
  let b := a + w / 2 ^ 8 % 256
  let c := b + w / 2 ^ 16 % 256
  if group < a then 0 else if group < b then 1 else if group < c then 2 else 3

/-- The role that carries a packet class (R233, R240). -/
def classRole (cls : Nat) : Nat := if cls = 1 ∨ cls = 2 then 1 else if cls = 3 then 2 else 0

/-- The live lane groups of an edge in a role (R240). -/
def State.liveGroups (s : State) (edge role : Nat) : List Nat :=
  (List.range 16).filter fun g =>
    s.roleOf edge g == role && !(get s.trellis.groups (16 * edge + g) LaneGroup.reset).retired

/-- The groups on which a class crosses an edge: those of its role, or the trellis ones where that role has none (R240). -/
def State.crossGroups (s : State) (edge cls : Nat) : List Nat :=
  let own := s.liveGroups edge (classRole cls)
  if own.isEmpty then s.liveGroups edge 0 else own

/-- Lane groups of an edge in the trellis role that are live (R241). -/
def State.trellisGroups (s : State) (edge : Nat) : Nat := (s.liveGroups edge 0).length

/-- An edge carries no flit: it has been taken out for want of trellis lanes, or is fenced (R241, R250). -/
def State.edgeShut (s : State) (edge : Nat) : Bool :=
  s.trellis.deadE.contains edge || (edgeEnds edge).any s.trellis.lost.contains

/-! ### Routes (R236, R237) -/

/-- The numbers from `a` to `b`, in that order. -/
def between (a b : Nat) : List Nat :=
  if a ≤ b then (List.range (b - a + 1)).map (a + ·) else (List.range (a - b + 1)).map (a - ·)

/-- The routers of the x-then-y route, its corner twice (R236). -/
def xyPath (a b : Nat × Nat) : List (Nat × Nat) := (between a.1 b.1).map (·, a.2) ++ (between a.2 b.2).map (b.1, ·)

/-- Whether a route uses a router or a link of some kind. -/
def pathHits (router : Nat × Nat → Bool) (edge : Nat → Bool) (p : List (Nat × Nat)) : Bool :=
  p.any router || (p.zip p.tail).any fun x => match crossing x.1 x.2 with | some e => edge e | none => false

/-- Whether the installed tables avoid nothing. -/
def Trellis.whole (t : Trellis) : Bool := t.routed.isEmpty && t.routedE.isEmpty && t.routedD.isEmpty

/-- Whether the x-then-y route is free of what the installed tables avoid. -/
def State.pathClear (s : State) (a b : Nat × Nat) : Bool :=
  s.trellis.whole || !pathHits (fun g => s.trellis.routed.contains g || s.trellis.routedD.contains (ownerDie g))
    s.trellis.routedE.contains (xyPath a b)

/-- Every router (R229). -/
def routers : List (Nat × Nat) := (List.range 92).flatMap fun x => (List.range 64).map fun y => (x, y)

/-- The links of a route by a detour point. -/
def legs (a v b : Nat × Nat) : Nat := (xyPath a v).length + (xyPath v b).length

/-- The points by which a detour of least length goes from one router to another, each phase moving in x, then in y, so that
it makes no turn from a y move into a −x move (R236, R237). -/
def State.detours (s : State) (a b : Nat × Nat) : List (Nat × Nat) :=
  let ok := routers.filter fun v => s.pathClear a v && s.pathClear v b
  let best := ok.foldl (fun m v => min m (legs a v b)) 1000
  ok.filter fun v => legs a v b == best

/-- What the route tables say at a router of a packet in phase 0: none where no route reaches the destination, no detour
point, or one. The spec does not say which points the tables hold: one of those on a shortest detour, drawn at the
installation (assumption 17). -/
def State.lookRoute (s : State) (a b : Nat × Nat) : Option (Option (Nat × Nat)) :=
  if s.pathClear a b then some none
  else match s.detours a b with
    | [] => none
    | v :: r => some (some ((v :: r).getD (Config.pick s.trellis.tables (64 * a.1 + a.2) % (r.length + 1)) v))

/-- The live routers that no route reaches from the sequence engine's: they are reported as dead (R237). -/
def State.cutOff (s : State) : List (Nat × Nat) :=
  if s.trellis.whole then []
  else routers.filter fun g =>
    !s.trellis.deadR.contains g && !s.trellis.lost.contains (ownerDie g) && (s.lookRoute s.seqRouter g).isNone

/-! ### Packets (R232 to R238) -/

/-- The neighbour of a router through an output port. -/
def neighbour (g : Nat × Nat) : RPort → Nat × Nat
  | .deliver => g
  | .xPlus => (g.1 + 1, g.2)
  | .xMinus => (g.1 - 1, g.2)
  | .yPlus => (g.1, g.2 + 1)
  | .yMinus => (g.1, g.2 - 1)

/-- The number of an output port. -/
def RPort.no : RPort → Nat
  | .deliver => 0
  | .xPlus => 1
  | .xMinus => 2
  | .yPlus => 3
  | .yMinus => 4

/-- The output port by x-then-y routing (R236). -/
def xyPort (g d : Nat × Nat) : RPort :=
  if g.1 < d.1 then .xPlus else if d.1 < g.1 then .xMinus
  else if g.2 < d.2 then .yPlus else if d.2 < g.2 then .yMinus else .deliver

/-- CLASS of a header (R232). -/
def hCls (h : Nat) : Nat := bits h 63 60
/-- DGX and DGY. -/
def hDst (h : Nat) : Nat × Nat := (bits h 59 53, bits h 52 47)
/-- SGX and SGY. -/
def hSrc (h : Nat) : Nat × Nat := (bits h 46 40, bits h 39 34)
/-- Flits of the packet: its header and LEN data flits. -/
def hFlits (h : Nat) : Nat := 1 + bits h 33 31
/-- A multicast of class CTL; MC is ignored in every other class: DESIGN CHOICE (assumption 92). -/
def hCast (h : Nat) : Bool := h.testBit 30 && hCls h == 4
/-- SEQ and SEQ_HI: the 28-bit end-to-end sequence number. -/
def hSeq (h : Nat) : Nat := bits h 79 64 * 2 ^ 12 + bits h 11 0

/-- The header flit's first 80 bits of a packet in phase 0 (R232). -/
def header (cls : Nat) (dst src : Nat × Nat) (len : Nat) (mc : Bool) (port tag seq : Nat) : Nat :=
  seq / 2 ^ 12 % 2 ^ 16 * 2 ^ 64 + cls * 2 ^ 60 + dst.1 * 2 ^ 53 + dst.2 * 2 ^ 47 + src.1 * 2 ^ 40 + src.2 * 2 ^ 34 + len * 2 ^ 31
    + b2n mc * 2 ^ 30 + port % 32 * 2 ^ 24 + tag % 2 ^ 12 * 2 ^ 12 + seq % 2 ^ 12

/-- A malformed header: a reserved LEN, a destination outside the mesh, or a multicast that does not come from a sequence
engine's router. DESIGN CHOICE: the spec does not say which headers are malformed (assumption 91). -/
def malformed (h : Nat) : Bool :=
  decide (5 ≤ bits h 33 31) || !isRouter (hDst h).1 (hDst h).2
    || (hCast h && hSrc h != Engine.sequence.router && hSrc h != Engine.replica.router)

/-- The output ports that a multicast takes at a router: along row 31 or 32 over the columns of the compute dies, from each
of their routers into the column, and to the interfaces of each plot router's 16 cores (R238). -/
def castPorts (g src : Nat × Nat) : List RPort :=
  let right := decide (src.1 < 46)
  let row := g.2 == 31 || g.2 == 32
  let compute := decide (2 ≤ g.1 ∧ g.1 ≤ 89)
  (if g == src then [RPort.yPlus] else [])
    ++ (if row && (if right then decide (g.1 < 89) else decide (2 < g.1)) then [if right then RPort.xPlus else .xMinus] else [])
    ++ (if compute && g.2 ≤ 31 && 0 < g.2 then [RPort.yMinus] else [])
    ++ (if compute && 32 ≤ g.2 && g.2 < 63 then [RPort.yPlus] else [])
    ++ (if (routerServes g.1 g.2).1.isSome then [RPort.deliver] else [])

/-- A packet as it comes to the output that its route takes at router `g`: at its detour point it turns to phase 1 and VC1
(R236). -/
def State.placed (s : State) (g : Nat × Nat) (inp : RPort) (via : Option (Nat × Nat)) (h : Nat) : List Pkt :=
  let mk := fun (p : RPort) (via : Option (Nat × Nat)) (h : Nat) =>
    ({ gx := g.1, gy := g.2, port := p, inp := inp, via := via, vc := b2n (h.testBit 29), hdr := BitVec.ofNat 80 h
       since := (get s.trellis.outs (5 * (64 * g.1 + g.2) + p.no) (0, 0)).1 } : Pkt)
  if hCast h then (castPorts g (hSrc h)).map fun p => mk p none h
  else if h.testBit 29 then [mk (xyPort g (hDst h)) none h]
  else
    let via := match via with
      | some v => if v = g ∨ s.pathClear g v then some v else (s.lookRoute g (hDst h)).getD none
      | none => (s.lookRoute g (hDst h)).getD none
    match via with
    | some v =>
      if v = g then [mk (xyPort g (hDst h)) none (h + 2 ^ 29)]
      else [mk (xyPort g v) (some v) h]
    | none => [mk (xyPort g (hDst h)) none h]

/-- Whether a packet held at another router's output is the one that arrives at `g`. -/
def Pkt.arrives (p : Pkt) (g : Nat × Nat) (h : BitVec 80) : Bool :=
  p.port != .deliver && neighbour (p.gx, p.gy) p.port == g && p.hdr == h

/-- The flits that router `g` holds of a class and virtual channel that came in by one of its sides. -/
def State.heldFlits (s : State) (g : Nat × Nat) (inp : RPort) (cls vc : Nat) : Nat :=
  sumN ((dedup ((s.trellis.pkts.filter fun (p : Pkt) => (p.gx, p.gy) == g && p.port != .deliver && p.inp == inp
    && hCls p.hdr.toNat == cls && p.vc == vc).map fun (p : Pkt) => p.hdr.toNat)).map hFlits)

/-- Whether router `g` has credit for a packet that comes in by a side (R233). -/
def State.credit (s : State) (g : Nat × Nat) (inp : RPort) (vc h : Nat) : Bool :=
  decide (s.heldFlits g inp (hCls h) vc + hFlits h ≤ Config.linkCredits + 5)

/-- The side by which a packet that leaves by a port comes in. -/
def RPort.facing : RPort → RPort
  | .deliver => .deliver
  | .xPlus => .xMinus
  | .xMinus => .xPlus
  | .yPlus => .yMinus
  | .yMinus => .yPlus

/-- Whether a held packet may move on: the next router lives and has credit for it, and a crossing carries its class (R233,
R240, R250). -/
def State.mayMove (s : State) (p : Pkt) : Bool :=
  let g := (p.gx, p.gy)
  let n := neighbour g p.port
  p.port != .deliver && !s.trellis.deadR.contains n && s.credit n p.port.facing p.vc p.hdr.toNat
    && match crossing g n with
      | some e => !s.edgeShut e && !(s.crossGroups e (hCls p.hdr.toNat)).isEmpty
      | none => true

/-- The packets that wait for an output: of each class and virtual channel the first, where it may move (R234, R235). -/
def State.contend (s : State) (g : Nat × Nat) (port : RPort) : List Pkt :=
  let at_ := s.trellis.pkts.filter fun p => (p.gx, p.gy) == g && p.port == port
  ((List.range 12).filterMap fun i => at_.find? fun p => hCls p.hdr.toNat == i / 2 && p.vc == i % 2).filter s.mayMove

/-- The order in which an output prefers packets: MGT where 8 cycles have passed for each flit of its last one, then CTL, then
the longest wait, ties to RSP, COH, RED and REQ; MGT that may not come first comes last (R234). -/
def rankOf (o : Nat × Nat) (p : Pkt) : Nat :=
  match hCls p.hdr.toNat with
  | 5 => if o.2 ≤ o.1 then 0 else 2 + 4 * (o.1 + 1)
  | 4 => 1
  | 1 => 2 + 4 * p.since
  | 2 => 3 + 4 * p.since
  | 3 => 4 + 4 * p.since
  | _ => 5 + 4 * p.since

/-- The packet that an output grants next (R234). The cycles of an output are counted in the flits that it passes: DESIGN
CHOICE, the model has no clock (assumption 96). -/
def State.granted? (s : State) (g : Nat × Nat) (port : RPort) : Option Pkt :=
  let o := get s.trellis.outs (5 * (64 * g.1 + g.2) + port.no) (0, 0)
  (s.contend g port).foldl (fun (b : Option Pkt) p => match b with
    | some q => if rankOf o p < rankOf o q then some p else some q
    | none => some p) none

/-- An output has passed a packet, which held it until its tail (R234). -/
def State.passed (s : State) (p : Pkt) : State :=
  let n := hFlits p.hdr.toNat
  { s with trellis := { s.trellis with
      pkts := s.trellis.pkts.erase p
      outs := upd s.trellis.outs (5 * (64 * p.gx + p.gy) + p.port.no) (0, 0) fun o =>
        (o.1 + n, if hCls p.hdr.toNat = 5 then o.1 + 8 * n else o.2) } }

/-- TRELLIS_PACKET: a router receives a packet, from a neighbour whose output grants it, or from one of its own interfaces,
and routes it. A reserved class or a malformed header raises `TR_PROTOCOL`; an interface discards a packet that no route
takes to its destination (R233 to R238). -/
def execTrellisPacket (gx gy hdr : Nat) (s : State) : Res :=
  onPart "router" (92 * 64) (64 * gx + gy)
    (let g := (gx, gy)
     let h := BitVec.ofNat 80 hdr
     let put := fun (t : State) (inp : RPort) (via : Option (Nat × Nat)) =>
       { t with trellis := { t.trellis with pkts := t.trellis.pkts ++ t.placed g inp via h.toNat } }
     if s.trellis.deadR.contains g ∨ s.trellis.lost.contains (ownerDie g) then s
     else if 6 ≤ hCls h.toNat ∨ malformed h.toNat then s.report 0x2486 9 (64 * gx + gy)
     else match s.trellis.pkts.find? (·.arrives g h) with
       | some p => whenever (s.granted? (p.gx, p.gy) p.port == some p) s (put (s.passed p) p.port.facing p.via)
       | none =>
         if !hCast h.toNat && !h.getLsbD 29 && (s.lookRoute g (hDst h.toNat)).isNone then s
         else whenever (s.credit g .deliver (b2n (h.getLsbD 29)) h.toNat) s (put s .deliver none))

/-- The sequence engine sends a multicast of class CTL: the work list of a step, or its commit list (R233, R238). -/
def State.multicast (s : State) (tag : Nat) : State :=
  let g := s.seqRouter
  let h := header 4 g g 0 true (17 + Config.enginePort 0 % 15) tag s.nextTag
  { s with trellis := { s.trellis with pkts := s.trellis.pkts ++ s.placed g .deliver none h } }

/-! ### Requests as packets (R232, R251, R255) -/

/-- The router of the port of a channel (R255). -/
def portRouter (ch : Nat) : Nat × Nat := caskRouter (8 * (32 * (ch / 32 % 2) + ch % 32) + ch / 64)

/-- The router of the port of a stack's SAU (R287). -/
def sauRouter (d : BitVec 256) : Nat × Nat := portRouter (32 * fld d 111 108 + 31)

/-- The router of the home of an address: its cask's, or the engine's that serves its range of the register window (R178,
R613). -/
def State.homeRouter (s : State) (pa : Nat) : Nat × Nat :=
  if isHbm pa || isComp pa then caskRouter (s.cellar.homePos (pa / 128)) else (windowEngine pa).router

/-- The router of the sender of a request (R230, R613). -/
def State.senderRouter (s : State) (r : Req) : Nat × Nat :=
  match r.agent with
  | .engine => s.homeRouter r.pa
  | .header _ _ => s.homeRouter r.pa
  | .fetch c _ _ => s.coreRouter c
  | .comp _ _ _ => Engine.abius.router
  | a => match a.core? with | some c => s.coreRouter c | none => s.homeRouter r.pa

/-- PORT of the sender: its core at its router, 16 for a cask, or an engine of an I/O die (R232). -/
def State.senderPort (s : State) (r : Req) : Nat :=
  match r.agent.core? with
  | some c => (s.dieMap (c / 10000)).phys (c % 10000) % 16
  | none => match r.agent with | .comp _ _ _ => 17 + Config.enginePort 2 % 15 | _ => 16

/-- The two ends of the hop on which the packet of a request is (R194, R204, R255). -/
def State.hop (s : State) (r : Req) : (Nat × Nat) × (Nat × Nat) :=
  let home := s.homeRouter r.pa
  let port := portRouter (s.channel (s.store r.pa))
  match r.stage with
  | .hbm => (home, port)
  | .hbmW => (home, port)
  | .filled => (if isComp r.pa then Engine.abius.router else port, home)
  | .hbmAck => (port, home)
  | .comp => (home, Engine.abius.router)
  | .done => (home, s.senderRouter r)
  | _ => (s.senderRouter r, home)

/-- The header under which a request travels to its home, with the number that its interface gives it (R232, R251). -/
def State.reqHeader (s : State) (r : Req) : Nat :=
  header 0 (s.homeRouter r.pa) (s.senderRouter r) (if r.kind = .read then 0 else (r.size + 63) / 64) false (s.senderPort r) r.tag
    (r.tag % 2 ^ 28)

/-- What an edge or a die that is fenced, or has left the routes, takes with it: the flits held for it, the packets of
requests on their way over it, which their interfaces keep, and contributions. Which of the packets on their way had come to
it is open (R235, R250 to R252). -/
def State.cut (s : State) (router : Nat × Nat → Bool) (edge : Nat → Bool) : State :=
  let onWay := fun (a b : Nat × Nat) (tag : Nat) => pathHits router edge (xyPath a b) && Config.pick s.freeCtr tag % 2 == 1
  let sub := fun (x : Sub) => match s.resultLine x.rid x.line with | some l => s.homeRouter (128 * l) | none => s.coreRouter x.core
  let gone := fun (x : Contrib) => match s.resultLine x.rid x.line with
    | some l => x.stop == 2 && !x.waited && onWay (s.coreRouter x.core) (s.homeRouter (128 * l)) x.tag
    | none => false
  { s with
    freeCtr := s.freeCtr + 1
    reqs := s.reqs.map fun (r : Req) =>
      let h := s.hop r
      let on := match r.stage with | .walk _ _ => false | .parity => false | .home => r.arr == 0 | _ => true
      if on && onWay h.1 h.2 r.tag then { r with lost := true } else r
    sau := s.sau.map fun (x : SauReq) =>
      if !x.queued && onWay (s.coreRouter x.core) (sauRouter x.desc) x.tag then { x with lost := true } else x
    trellis := { s.trellis with
      pkts := s.trellis.pkts.filter fun (p : Pkt) =>
        p.port == .deliver || !pathHits router edge [(p.gx, p.gy), neighbour (p.gx, p.gy) p.port]
      contribs := s.trellis.contribs.filter fun (x : Contrib) => !gone x
      subs := s.trellis.subs.map fun (x : Sub) => if onWay (s.coreRouter x.core) (sub x) x.tag then { x with lost := true } else x } }

/-- Whether a packet of a kind that is re-sent was sent before the last route change (R251). -/
def State.stale (s : State) (born : Nat) : Bool := born != s.od 0x6000 2

/-- Whether a request is unanswered and was sent before the last route change (R251). -/
def State.unanswered (s : State) (r : Req) : Bool :=
  s.stale r.born && (match r.stage with | .walk _ _ => false | _ => true)

/-- E2E_RESEND: 10, 20 or 30 µs after a route change every unanswered packet sent before it is sent again under its number. A
destination that has performed it returns the recorded response: a request is performed once, whatever the number of its
packets (R251). -/
def execE2eResend (s : State) : Res :=
  .next (whenever (decide (1 ≤ s.trellis.resend ∧ s.trellis.resend ≤ 3)) s
    ({ s with
      reqs := s.reqs.map fun (r : Req) => if s.unanswered r then { r with resend := min 3 (r.resend + 1), lost := false } else r
      sau := s.sau.map fun (x : SauReq) => if s.stale x.born then { x with resend := min 3 (x.resend + 1), lost := false } else x
      trellis := { s.trellis with
        resend := s.trellis.resend + 1
        subs := s.trellis.subs.map fun (x : Sub) =>
          if s.stale x.born then { x with resend := min 3 (x.resend + 1), lost := false } else x } }.bump 0x6000 6
      ((s.reqs.filter s.unanswered).length + (s.sau.filter fun (x : SauReq) => s.stale x.born).length
        + (s.trellis.subs.filter fun (x : Sub) => s.stale x.born).length)))

/-- Whether the last wait of the re-send schedule has come for a packet (R251). -/
def State.overdue (s : State) (resend born : Nat) : Bool := resend == 3 && s.stale born && decide (3 < s.trellis.resend)

/-- TR_LOST: a packet is still unanswered 10 µs after its third re-send: a fault against the context of its kernel (R251). -/
def execTrLost (tag : Nat) (s : State) : Res :=
  .next (match s.req? tag, s.sub? tag, s.sau.find? (·.tag == tag) with
    | some r, _, _ =>
      if s.unanswered r && s.overdue r.resend r.born then
        let t := ((s.dropReq tag).sticky 0x6000 1 4).reportCtx 0x2484 r.ctx
          (match r.agent.core? with | some c => (s.core c).part | none => 0) 0 0 r.va
        (match r.agent.core? with | some c => t.finishIfQuiet c | none => t)
      else s
    | none, some x, _ => whenever (s.overdue x.resend x.born) s
        (((s.dropSub tag).sticky 0x6000 1 4).reportCtx 0x2484 x.ctx (s.core x.core).part 0 0 x.laddr)
    | none, none, some x => whenever (s.overdue x.resend x.born) s
        (({ s with sau := s.sau.filter fun (y : SauReq) => y.tag != tag }.sticky 0x6000 1 4).reportCtx 0x2484 x.ctx (s.core x.core).part 0 0)
    | none, none, none => s)

/-! ### Dead routers (R249, R237) -/

/-- The logical cores that the physical cores of a plot serve (R249, R534). -/
def State.coresOfPlot (s : State) (die plot : Nat) : List Nat :=
  ((List.range 10000).filter fun k => (s.dieMap die).phys k / 16 == plot).map (10000 * die + ·)

/-- A router is declared dead: its cores are to be retired, and the position of the cask that it served, if that is live, is
to be retired and folded (R249, R466, R467). -/
def State.killRouter (s : State) (g : Nat × Nat) : State × List Nat :=
  let t := ({ s with trellis := { s.trellis with deadR := if s.trellis.deadR.contains g then s.trellis.deadR else s.trellis.deadR ++ [g] } }.sticky 0x6000 1 0).report 0x1483 9
    (64 * g.1 + g.2)
  match routerServes g.1 g.2 with
  | (some (d, p), _) =>
    ({ t with faults := { t.faults with retiring := dedup (t.faults.retiring ++ s.coresOfPlot d p) } }, [])
  | (none, some pos) => (t, if s.cellar.dead.contains pos then [] else [pos])
  | (none, none) => (t, [])

/-! ### Lanes (R241) -/

/-- Change a lane group of an edge: the group of both directions, as a location names it (R461; assumption 101). -/
def State.onLanes (s : State) (edge group : Nat) (f : LaneGroup → LaneGroup) : State :=
  let gs := upd s.trellis.groups (16 * edge + group) LaneGroup.reset f
  { s with trellis := { s.trellis with groups := gs } }

/-- D2D_CRC_FAIL: the frame is replayed, and a lane whose error rate has passed its threshold is marked for a spare;
an armed injection has had its frame replayed (R241, R478). -/
def execD2dCrcFail (edge group : Nat) (bad : Bool) (s : State) : Res :=
  onPart "edge" 14 edge (match s.faults.injArmed with
    | some (4, a, _, _) => if a = 16 * group + edge then s.injected
        else whenever (bad && decide (group < 16)) s (s.onLanes edge group fun g => { g with erring := g.erring + 1 })
    | _ => whenever (bad && decide (group < 16)) s (s.onLanes edge group fun g => { g with erring := g.erring + 1 }))

/-- An edge without a live trellis-role group leaves the routes; the flits held for it are discarded (R235, R241). -/
def State.checkEdge (s : State) (edge : Nat) : State :=
  whenever (s.trellisGroups edge == 0 && !s.trellis.deadE.contains edge) s
    ((({ s with trellis := { s.trellis with deadE := s.trellis.deadE ++ [edge] } }.sticky 0x6000 1 5).report 0x1487 4 edge).cut
      (fun _ => false) (· == edge))

/-- A lane group is retired; an edge that loses its last trellis-role group leaves the routes (R241). -/
def State.retireGroup (s : State) (edge group : Nat) : State :=
  (((s.onLanes edge group fun g => { g with retired := true, erring := 0 }).sticky 0x6000 1 1).report 0x1482 4
    (16 * group + edge)).checkEdge edge

/-- A marked lane is replaced by a spare of its group; a fifth spare retires the group (R241). -/
def State.spareLane (s : State) (edge group : Nat) : State :=
  let g := get s.trellis.groups (16 * edge + group) LaneGroup.reset
  if g.erring = 0 ∨ g.retired then s
  else if 4 ≤ g.spares then s.retireGroup edge group
  else (s.onLanes edge group fun g => { g with spares := g.spares + 1, erring := g.erring - 1 }).report 0x0481 4 (16 * group + edge)

end Sys2Proof.Machine
end

