-- ==== Sys2Proof/Machine/HbmUnit.lean ====
section
/-!
DEFINITION. Machine/HbmUnit.lean: stacked memory (chapter 10): channel ports, correction, reconstruction and poison,
sparing, the KV code, thermal levels, loss of the host clock and loopback.
-/

namespace Sys2Proof.Machine

/-- Entries with their positions. -/
def withPos {α : Type} (l : List α) : List (Nat × α) := (List.range l.length).zip l

/-! ### Stacks, channels and slots (R255, R258, R259, R269) -/

/-- The state of a stack. -/
def State.stack (s : State) (n : Nat) : Stack := get s.hbm.stk n Stack.reset
/-- Change a stack. -/
def State.onStack (s : State) (n : Nat) (f : Stack → Stack) : State :=
  { s with hbm := { s.hbm with stk := upd s.hbm.stk n Stack.reset f } }
/-- Whether a stack is in service and can be reached (R273 to R275). -/
def Stack.avail (k : Stack) : Bool := k.inServ && !k.refresh && !k.lost && !k.test
/-- Whether stack `n` is in service and can be reached. -/
def State.stackUp (s : State) (n : Nat) : Bool := (s.stack n).avail

/-- The slot of a storage address within its channel (R258, R259). -/
def State.slotOf (s : State) (sa : Nat) : Nat :=
  if s.hbm.inBarrels sa then
    let o := sa - s.hbm.bbase
    s.hbm.bbase / 2 ^ 17 + 64 * (o / 2 ^ 16 / 16 / 8) + o / 2 ^ 10 % 64
  else sa / 2 ^ 17

/-- Channel and slot after the relocations of the channel spares, in the order of the sparings (R269, R270). -/
def State.relocate (s : State) (ch slot : Nat) : Nat × Nat :=
  s.hbm.spares.foldl (fun (p : Nat × Nat) (x : Spare) =>
    if x.ch = p.1 ∧ p.2 < x.copied then
      (x.m.getD (p.2 % x.m.length) 0, s.hbm.spool / 2 ^ 17 + 32768 * x.k + p.2 / x.m.length)
    else p) (ch, slot)

/-- The channel and slot that hold a storage address. -/
def State.place (s : State) (sa : Nat) : Nat × Nat := s.relocate (s.channel sa) (s.slotOf sa)
/-- The number of the 64-byte block of a channel and slot. -/
def blockNo (p : Nat × Nat) (sa : Nat) : Nat := (p.1 * 2 ^ 23 + p.2) * 4 + sa % 256 / 64
/-- The block that holds a storage address. -/
def State.blockAt (s : State) (sa : Nat) : Nat := blockNo (s.place sa) sa
/-- The stack that holds a storage address. -/
def State.stackAt (s : State) (sa : Nat) : Nat := (s.place sa).1 / 32
/-- Whether a channel can be reached: its stack is in service, and the router of its port is not dead (R249, R255; assumption
102). -/
def State.channelUp (s : State) (ch : Nat) : Bool := s.stackUp (ch / 32) && !s.trellis.deadR.contains (portRouter ch)
/-- Inverted check bytes of the block that holds a storage address (R478). -/
def State.eccAt (s : State) (sa : Nat) : Nat := cnt s.hbm.ecc (s.blockAt sa)

/-- The model's number of the row that holds a block: a row is four slots of a channel (assumption 19). -/
def rowOf (b : Nat) : Nat := b / 16

/-! ### Records of errors (R265, R268, R269) -/

/-- 24 hours in ns. -/
def dayNs : Nat := 86400000000000

/-- Entries of a log for `k` in the last 24 h. -/
def inDay (l : List (Nat × Nat)) (k now : Nat) : Nat := (l.filter fun x => x.1 == k && decide (now < x.2 + dayNs)).length

/-- Add to the `i`-th count of ERR_COUNTS (R277). -/
def State.hbmCount (s : State) (i : Nat) : State := s.bumpLane 0x5000 0x40 i 1

/-- A report at a channel. Check bytes are wrong only where an injection inverted them, so reports of errors carry INJ
(R479). -/
def State.chReport (s : State) (code ch sa : Nat) : State := s.report code 3 ch sa true

/-- The channels that a sparing may use: in service and not spared (R269). -/
def State.goodChannels (s : State) (ch : Nat) : List Nat :=
  (List.range 512).filter fun c => s.stackUp (c / 32) && c != ch && !s.hbm.spares.any (·.ch == c)

/-- The number of frames of the barrel area. -/
def State.frameCount (s : State) : Nat := s.hbm.blen / 2 ^ 16
/-- Whether a frame lies in a spared quad (R271). -/
def State.sparedQuad (s : State) (f : Nat) : Bool :=
  s.hbm.spares.any fun x => x.ch / 4 == 8 * frameStack f + frameQuad f
/-- Whether the engine may ever allocate a frame (R262, R312). -/
def State.usable (s : State) (f : Nat) : Bool :=
  decide (f < s.frameCount) && !s.sparedQuad f && !(s.hbm.parity && decide (14 ≤ f % 16))
/-- Frames that the engine may allocate. -/
def State.usableFrames (s : State) : Nat :=
  if s.hbm.spares.isEmpty && !s.hbm.parity then s.frameCount else ((List.range s.frameCount).filter s.usable).length
/-- Minima of partitions that the frames do not cover are noted (R440). -/
def State.partShort (s : State) : State :=
  whenever (decide (s.usableFrames < sumN (s.parts.parts.map fun x => x.2.barrelMin))) s (s.sticky 0x7000 1 0)

/-- A channel is spared, which the vintage record keeps, or no spare is free (R269, R270, R440). -/
def State.spareChannel (s : State) (ch : Nat) : State :=
  if s.hbm.spares.any (·.ch == ch) then s
  else if s.hbm.spares.length < s.hbm.spareGib / 4 then
    (({ s with hbm := { s.hbm with spares := s.hbm.spares ++
      [{ Spare.reset with ch := ch, k := s.hbm.spares.length, m := s.goodChannels ch }] } }).recorded.partShort.sticky 0x5000 1 3).report 0x1508 3 ch
  else (s.sticky 0x5000 1 9).report 0x150D 3 ch

/-- A row is listed for sparing (R268). -/
def State.listRow (s : State) (row : Nat) : State := { s with hbm := { s.hbm with rows := addTo s.hbm.rows row } }

/-- A corrected error of a block (R265, R268). -/
def State.corrected (s : State) (sa : Nat) : State :=
  let row := rowOf (s.blockAt sa)
  let t := ({ s with hbm := { s.hbm with rowCe := s.hbm.rowCe ++ [(row, s.now)] } }.hbmCount 0).chReport 0x0501 (s.place sa).1 sa
  whenever (decide (s.od 0x5000 8 ≤ inDay t.hbm.rowCe row s.now)) t (t.listRow row)

/-- The records that an uncorrectable error leaves: its count, its row and its channel (R268, R269). -/
def State.ueFound (s : State) (sa : Nat) : State :=
  let ch := (s.place sa).1
  let t := ({ s with hbm := { s.hbm with chUe := s.hbm.chUe ++ [(ch, s.now)] } }.hbmCount 2).listRow (rowOf (s.blockAt sa))
  whenever (decide (s.od 0x5000 0xC ≤ inDay t.hbm.chUe ch s.now)) t (t.spareChannel ch)

/-! ### The 14+2 code (R260 to R263, R267) -/

/-- The storage addresses of the sixteen chunks of the stripe or barrel group of an address; none where no code protects
it. -/
def State.codeChunks (s : State) (sa : Nat) : Option (List Nat) :=
  if s.cellar.inWarea sa then
    let b := s.cellar.wbase + (sa - s.cellar.wbase) / 4096 * 4096
    some ((List.range 16).map fun j => b + 256 * j)
  else if s.hbm.parity && s.hbm.inBarrels sa then
    let o := sa - s.hbm.bbase
    if s.hbm.torn.contains (o / 2 ^ 20) then none
    else some ((List.range 16).map fun j => s.hbm.bbase + (o / 2 ^ 20 * 16 + j) * 2 ^ 16 + o % 2 ^ 16 / 256 * 256)
  else none

/-- Whether the position of a chunk is erased: its stack is out of service or cannot be reached, or the chunk is
uncorrectable (R267). A channel whose port cannot be reached counts like a stack that cannot (assumption 102). -/
def State.erased (s : State) (ca : Nat) : Bool :=
  !s.channelUp (s.place ca).1 || (List.range 4).any fun i => decide (4 ≤ s.eccAt (ca + 64 * i))

/-- Erased positions of the code of an address. -/
def State.erasures (s : State) (sa : Nat) : Nat :=
  match s.codeChunks sa with
  | some l => (l.filter s.erased).length
  | none => 16

/-- The inverted check bytes of some blocks are replaced by good ones. -/
def Hbm.clean (h : Hbm) (bs : List Nat) : Hbm := { h with ecc := h.ecc.filter fun x => !bs.contains x.1 }

/-- A block is poisoned (R266). -/
def State.poisonBlock (s : State) (sa : Nat) : State :=
  { s with hbm := { s.hbm.clean [s.blockAt sa] with poison := insertUp (sa / 64) s.hbm.poison } }

/-- The stripe is beyond reconstruction: a fault of the model context (R267, R486). -/
def State.weightLost (s : State) (sa : Nat) : State :=
  let m := match s.host.plan with | some p => p.model | none => 0
  (s.sticky 0x5000 1 10).reportCtx 0x250E m (s.ctx m).part 3 (s.place sa).1 sa true

/-- An uncorrectable block is found on a read: rebuilt, poisoned, or a lost weight (the table of R267). The flag says
whether the read gets poison. -/
def State.uncorrectable (s : State) (sa : Nat) : State × Bool :=
  let ch := (s.place sa).1
  let t := s.ueFound sa
  if (s.codeChunks sa).isSome && decide (s.erasures sa ≤ 2) then
    let c := sa / 256 * 256
    (((({ t with hbm := t.hbm.clean ((List.range 4).map fun i => s.blockAt (c + 64 * i)) }).hbmCount 3).sticky 0x5000 1 0).chReport
      0x1505 ch sa, false)
  else if s.cellar.inWarea sa then (t.weightLost sa, true)
  else (((t.poisonBlock sa).hbmCount 4).sticky 0x5000 1 1 |>.chReport 0x1506 ch sa, true)

/-- A block of a stack that can be reached is read: poison is recognised before correction (R265 to R267). -/
def State.readBlock (s : State) (sa : Nat) : State × Bool :=
  if s.hbm.poison.contains (sa / 64) then (s, true)
  else match s.eccAt sa with
    | 0 => (s, false)
    | n => if n ≤ 3 then (s.corrected sa, false) else s.uncorrectable sa

/-- What a read of a line finds. -/
inductive HbmRead where
  /-- served, with a poison flag -/
  | got (s : State) (poison : Bool)
  /-- held: the stack is out of service (R274) -/
  | held

/-- A line at a storage address is read (R264 to R267, R274). A line on a stack that is out of service is rebuilt where its
code allows, read as poison where the stack is lost or the group torn, and held otherwise. -/
def State.readLine (s : State) (sa : Nat) : HbmRead :=
  let k := s.stack (s.stackAt sa)
  if s.channelUp (s.place sa).1 then
    let a := s.readBlock (sa / 128 * 128)
    let b := a.1.readBlock (sa / 128 * 128 + 64)
    .got b.1 (a.2 || b.2)
  else if (s.codeChunks sa).isSome then
    if s.erasures sa ≤ 2 then .got s (s.hbmPoison (sa / 128 * 128) 128)
    else if s.cellar.inWarea sa then .got (s.weightLost sa) true
    else .got s true
  else if k.lost || (s.hbm.parity && s.hbm.inBarrels sa) then .got s true
  else .held

/-! ### Injected interface errors (R264, R478) -/

/-- An injected burst error of a channel is retried: an F0 event (R264). -/
def State.linkRetry (s : State) (ch : Nat) : State :=
  match s.faults.injArmed with
  | some (7, a, _, _) => if a = ch then ((s.injected.hbmCount 6).report 0x0502 3 ch 0 true) else s
  | _ => s

/-! ### Reads (R264) -/

/-- Whether a write of the same line that a cask handed on before a request is still on its way to the channel port (R183). -/
def State.writeAhead (s : State) (r : Req) : Bool :=
  s.reqs.any fun q => q.stage == .hbmW && decide (q.acc < r.acc) && q.pa / 128 == r.pa / 128

/-- HBM_READ: a read arrives at its channel port and its data leaves (R264, R267). -/
def execHbmRead (tag : Nat) (s : State) : Res :=
  .next (match s.here? tag with
    | some r =>
      let sa := s.store (128 * (r.pa / 128))
      if r.stage ≠ .hbm ∨ s.writeAhead r then s
      else match (s.linkRetry (s.place sa).1).readLine sa with
        | .got t poison => t.setReq tag fun q => { q with stage := .filled, poison := if q.kind = .write then q.poison else poison }
        | .held => s
    | none => s)

/-! ### Writes (R262, R264, R266, R375) -/

/-- Whether a mask covers a 64-byte half of a line. -/
def halfMask (mask i : Nat) : Nat := mask / 2 ^ (64 * i) % 2 ^ 64

/-- A block about to be written: a partial write reads it first, and a write under the KV code reads the whole half-slot, so
its error is found (R262, R265). -/
def State.beforeWrite (s : State) (sa mask i : Nat) (coded : Bool) : State :=
  let m := halfMask mask i
  if !coded && (m == 0 || m == 2 ^ 64 - 1) then s else (s.readBlock (sa + 64 * i)).1

/-- An injection that awaits the next write of a block acts (R478). -/
def State.injBlock (s : State) (sa : Nat) : State :=
  match s.faults.injArmed with
  | some (2, a, m, 1) =>
    whenever (s.store a / 64 == sa / 64) s
      ({ s with hbm := { s.hbm with ecc := put s.hbm.ecc (s.blockAt sa) (ones8 m) } }.injected)
  | _ => s

/-- The bytes a write leaves in one block: poison is set by a poisoned write, cleared by a write of the whole line, and
otherwise kept; check bytes of a written block are good again (R265, R266). -/
def State.afterWrite (s : State) (sa mask i : Nat) (poison : Bool) : State :=
  let b := sa + 64 * i
  let m := halfMask mask i
  if m = 0 then s
  else
    let h := s.hbm.clean [s.blockAt b]
    let p := if poison then insertUp (b / 64) h.poison
      else if mask = 2 ^ 128 - 1 then h.poison.filter (· != b / 64) else h.poison
    { s with hbm := { h with poison := p } }.injBlock b

/-- The racked sequence whose frame holds a byte: its slot, entry and the frame (R375). -/
def State.marked (s : State) (pa : Nat) : Option (Entry × Nat) :=
  if s.hbm.inBarrels pa then
    let f := (pa - s.hbm.bbase) / 2 ^ 16
    match find? s.seq.frames f with
    | some x =>
      let e := get s.seq.table x.1 Entry.reset
      if e.racked then some (e, f) else none
    | none => none
  else none

/-- Lowest and highest set bit of a 128-bit mask, rounded out to 8-byte words: offset and length. -/
def maskSpan (mask : Nat) : Nat × Nat :=
  let on := (List.range 16).filter fun i => mask / 2 ^ (8 * i) % 256 != 0
  match on.head?, on.getLast? with
  | some a, some b => (8 * a, 8 * (b + 1 - a))
  | _, _ => (0, 0)

/-- Bytes that reach HBM in a marked frame go to the buddy as a RACK frame (R375). -/
def State.mirror (s : State) (pa mask : Nat) : State :=
  match s.marked pa with
  | some (e, f) =>
    let w := maskSpan mask
    let base := pa / 128 * 128
    (s.stream 6 e.buddy.toNat 0 (f * 2 ^ 16 + (base - s.hbm.bbase) % 2 ^ 16 + w.1) (s.peek (s.store base + w.1) w.2)).bumpLane
      0x6200 0x13 0 w.2
  | none => s

/-- Whether a write to a line is one to a data frame under the KV code (R262). -/
def State.coded (s : State) (l : Nat) : Bool :=
  s.hbm.parity && s.hbm.inBarrels (128 * l) && decide ((128 * l - s.hbm.bbase) / 2 ^ 16 % 16 < 14)

/-- Bytes of a barrel that a write of the step in flight replaces for the first time: stack attention may still read them
(R281). -/
def State.noteOld (s : State) (sa mask : Nat) : State :=
  whenever (s.seq.phase == .running && s.hbm.inBarrels sa) s
    { s with hbm := { s.hbm with olds := s.hbm.olds ++ ((withPos (s.peek sa 128)).filter fun x =>
      mask.testBit x.1 && !s.hbm.olds.any fun y => y.1 == sa + x.1).map fun x => (sa + x.1, x.2) } }

/-- Write a line's bytes at its storage address, with everything the write brings with it. -/
def State.writeLine (s : State) (l mask : Nat) (d : List Byte) (poison : Bool) : State :=
  let sa := s.store (128 * l)
  let s := s.noteOld sa mask
  let t := (s.beforeWrite sa mask 0 (s.coded l)).beforeWrite sa mask 1 (s.coded l)
  let t := t.poke sa (maskBytes mask 0 (t.peek sa 128) d)
  ((t.afterWrite sa mask 0 poison).afterWrite sa mask 1 poison).mirror (128 * l) mask

/-! The field of R261. -/

/-- Multiply by α. -/
def gfDouble (a : BitVec 8) : BitVec 8 := if a.getLsbD 7 then (a <<< 1) ^^^ 0x1D else a <<< 1

/-- The product in GF(2^8) with the polynomial x^8 + x^4 + x^3 + x^2 + 1 (R261). -/
def gfMul (a b : BitVec 8) : BitVec 8 :=
  ((List.range 8).foldl (fun (r : BitVec 8 × BitVec 8) (i : Nat) =>
    (if b.getLsbD i then r.1 ^^^ r.2 else r.1, gfDouble r.2)) (0, a)).1

/-- α^j. -/
def gfPow : Nat → BitVec 8
  | 0 => 1
  | j + 1 => gfDouble (gfPow j)

/-- a^n in the field. -/
def gfExp (a : BitVec 8) : Nat → BitVec 8
  | 0 => 1
  | n + 1 => gfMul a (gfExp a n)

/-- The inverse of a field element: its 254th power. -/
def gfInv (a : BitVec 8) : BitVec 8 := gfExp a 254

/-- g14(j) (R262). -/
def g14 (j : Nat) : BitVec 8 := gfMul (gfPow j ^^^ gfPow 15) (gfInv (gfPow 14 ^^^ gfPow 15))
/-- g15(j) (R262). -/
def g15 (j : Nat) : BitVec 8 := gfMul (gfPow j ^^^ gfPow 14) (gfInv (gfPow 14 ^^^ gfPow 15))

/-- XOR of byte strings. -/
def xorBytes (a b : List Byte) : List Byte := List.zipWith (· ^^^ ·) a b

/-- The parity updates of a write to a data frame of a barrel group (R262). -/
def State.parityOf (s : State) (tag l : Nat) (diff : List Byte) : List ParUp :=
  let o := 128 * l - s.hbm.bbase
  let f := o / 2 ^ 16
  let up := fun (j : Nat) (c : BitVec 8) =>
    ({ tag := tag, pa := s.hbm.bbase + (f / 16 * 16 + j) * 2 ^ 16 + o % 2 ^ 16, coef := c, diff := diff } : ParUp)
  if s.coded l then
    [up 14 (g14 (f % 16)), up 15 (g15 (f % 16))] else []

/-- A parity half-slot takes a scaled difference: it is read, added to and written back, and what is poisoned stays so
(R262, R265, R266). -/
def State.applyParity (s : State) (p : ParUp) : State :=
  let a := s.readBlock p.pa
  let b := a.1.readBlock (p.pa + 64)
  let t := b.1.poke p.pa (xorBytes (b.1.peek p.pa 128) (p.diff.map (gfMul p.coef)))
  (t.afterWrite p.pa (2 ^ 128 - 1) 0 a.2).afterWrite p.pa (2 ^ 128 - 1) 1 b.2

/-- HBM_WRITE: a write is performed at its channel port; under KV_PARITY its differences go to the parity controllers
first, and its report leaves when all three writes are done. On a lost stack it completes with poison (R262, R264, R266,
R274). -/
def execHbmWrite (tag : Nat) (s : State) : Res :=
  .next (match s.here? tag with
    | some r =>
      let l := r.pa / 128
      let sa := s.store (128 * l)
      let k := s.stack (s.stackAt sa)
      let room := match s.marked (128 * l) with | some x => s.txRoom x.1.buddy.toNat 1 | none => true
      if r.stage ≠ .hbmW ∨ s.writeAhead r ∨ !room then s
      else if k.lost then s.answer tag fun q => { q with poison := true }
      else if !s.channelUp (s.place sa).1 then s
      else
        let old := s.peek sa 128
        let t := (s.linkRetry (s.place sa).1).writeLine l r.wmask r.wdata r.poison
        let ups := s.parityOf tag l (xorBytes old (t.peek sa 128))
        ({ t with hbm := { t.hbm with parUps := t.hbm.parUps ++ ups } }).setReq tag fun q =>
          { q with stage := if ups.isEmpty then .hbmAck else .parity }
    | none => s)

/-- PARITY_UPDATE: a parity controller adds a scaled difference into its half-slot; an update whose position is lost is
done with (R262, R274). -/
def execParityUpdate (tag : Nat) (s : State) : Res :=
  .next (match s.hbm.parUps.find? fun p => p.tag == tag && (s.channelUp (s.place p.pa).1 || (s.stack (s.stackAt p.pa)).lost) with
    | some p =>
      let t := whenever (s.channelUp (s.place p.pa).1) s ((s.linkRetry (s.place p.pa).1).applyParity p)
      let left := t.hbm.parUps.erase p
      let t := { t with hbm := { t.hbm with parUps := left } }
      if left.any (·.tag == tag) then t
      else t.setReq tag fun q => if q.stage = .parity then { q with stage := .hbmAck } else q
    | none => s)

/-! ### Refresh, the host clock and thermal levels (R272 to R274) -/

/-- HBM_FORCED (R272). -/
def execHbmForced (stack : Nat) (s : State) : Res :=
  onPart "stack" 16 stack (((s.hbmCount 7).sticky 0x5000 1 7).report 0x0503 3 (32 * stack))

/-- A stack enters self-refresh (R273). -/
def State.selfRefresh (s : State) (stack : Nat) : State := s.onStack stack fun k => { k with refresh := true }

/-- HCLK_LOSS: every bank is precharged and the stack enters self-refresh; it keeps its contents (R273). -/
def execHclkLoss (stack : Nat) (s : State) : Res :=
  onPart "stack" 16 stack (s.selfRefresh stack)

/-- STACK_RESUME: the stack leaves self-refresh, retrains and passes loopback, and is in service again with its contents
unchanged; one that does not pass, or is lost, or still at thermal level 3, stays out (R273, R274). -/
def execStackResume (stack : Nat) (pass : Bool) (s : State) : Res :=
  onPart "stack" 16 stack (whenever (pass && !(s.stack stack).lost && (s.stack stack).level != 3) s
    (s.onStack stack fun k => { k with inServ := true, refresh := false, test := false, loop := 0 }))

/-- The level that a report asks of a stack (R274). -/
def thermEntry (k : Stack) (temp t : Int) : Nat × Nat :=
  let hot := if t + 5 ≤ temp then k.hot + 1 else 0
  (if 10 ≤ hot then 3 else if t ≤ temp then 2 else if t - 10 ≤ temp then 1 else 0, hot)

/-- The entry point of a level (R274). -/
def thermPoint (t : Int) : Nat → Int
  | 1 => t - 10
  | 2 => t
  | _ => t + 5

/-- The stack after a thermal report: a higher level is entered at once, and a level is left when the temperature has
stayed 3 °C below its entry point for 100 consecutive reports (R274). -/
def Stack.report (k : Stack) (temp thresh t : Int) : Stack :=
  let e := thermEntry k temp t
  let cool := if k.level ≠ 0 ∧ temp ≤ thermPoint t k.level - 3 then k.cool + 1 else 0
  let level := if k.level < e.1 then e.1 else if 100 ≤ cool then e.1 else k.level
  { k with
    temp := temp, thresh := thresh, hot := e.2, level := level
    cool := if level = k.level then cool else 0
    inServ := if level = 3 ∧ k.level ≠ 3 then false else k.inServ
    refresh := if level = 3 ∧ k.level ≠ 3 then true else k.refresh }

/-- THERMAL_REPORT (R274). The stack reports its on-die corrections as well; how many is open (R265), and that they come with
this report is a DESIGN CHOICE (assumption 103). -/
def execThermalReport (stack : Nat) (temp thresh : Int) (s : State) : Res :=
  onPart "stack" 16 stack
    (let s := (s.bumpLane 0x5000 0x40 1 (Config.onDie s.freeCtr)).drew
     let t := thresh - (s.od 0x5000 9 : Int)
     let old := s.stack stack
     let new := old.report temp thresh t
     let u := s.onStack stack fun _ => new
     if new.level ≤ old.level then u
     else match new.level with
       | 1 => u.report 0x0504 3 (32 * stack)
       | 2 => ((u.void 3).sticky 0x5000 1 4).report 0x1509 3 (32 * stack)
       | _ => ((u.void 3).sticky 0x5000 1 5).report 0x150A 3 (32 * stack))

/-- STACK_HOLD_EXPIRY: a stack out of service for its temperature has not come back: it is lost until the module is
replaced (R274, R465). -/
def execStackHoldExpiry (stack : Nat) (s : State) : Res :=
  onPart "stack" 16 stack (whenever (!(s.stack stack).inServ && !(s.stack stack).lost && !(s.stack stack).test) s
    (let t := ((s.onStack stack fun k => { k with lost := true }).sticky 0x5000 1 6).report 0x150B 3 (32 * stack)
     { t with faults := { t.faults with replace := true } }.recorded))

/-- The contents of a stack are destroyed by the array march test (R275, assumption 18). -/
def State.march (s : State) (stack : Nat) : State :=
  let h := s.hbm
  ({ s with
    mem := s.mem.filter fun x => s.channel x.1 / 32 != stack
    hbm := { h with
      wipes := .march stack s.freeCtr :: h.wipes
      poison := h.poison.filter fun b => s.stackAt (64 * b) != stack
      ecc := h.ecc.filter fun x => x.1 / 2 ^ 30 != stack } }).drew

/-- The loopback of a stack: it is taken out of service for the test, the failing channels are reported and spared (R269,
R275). -/
def State.loopback (s : State) (value fails : Nat) : Act :=
  let stack := bits value 11 8
  let mode := bits value 1 0
  guardAct (mode != 0) abRange
    (let t := s.onStack stack fun k => { k with test := true, loop := fails % 2 ^ 32 }
     let t := if mode = 3 then t.march stack else t
     .ok (((List.range 32).filter fun c => fails.testBit c).foldl (fun (t : State) (c : Nat) => t.spareChannel (32 * stack + c)) t))

/-- LOOPBACK (R275, R277). -/
def execLoopback (path : Path) (tid value fails : Nat) (s : State) : Res :=
  .next (s.request path tid 0x5000 0x0B 2 fun s => s.loopback value fails)

/-! ### Row repair and the copy into a spare (R268, R270) -/

/-- The storage address of a channel and slot under the mappings of R258 and R259. -/
def State.addrOf (s : State) (ch slot : Nat) : Nat :=
  let lo := s.hbm.bbase / 2 ^ 17
  if lo ≤ slot ∧ slot < lo + s.hbm.blen / 2 ^ 17 then
    let quad := ch % 32 / 4
    let hi := (slot - lo) / 64 * 8 + quad
    let st := (ch / 32 ^^^ hi ^^^ hi / 2 ^ 4 ^^^ hi / 2 ^ 8 ^^^ hi / 2 ^ 12 ^^^ hi / 2 ^ 16) % 16
    s.hbm.bbase + (hi * 16 + st) * 2 ^ 16 + ((slot - lo) % 64 * 4 + ch % 4) * 256
  else
    let t := ch / 32 + 16 * (ch % 32)
    let g := slot * 512 + (t ^^^ (slot % 512) ^^^ (slot / 2 ^ 9 % 512) ^^^ (slot / 2 ^ 18 % 32)) % 512
    256 * g

/-- Poison and inverted check bytes of a range of storage addresses are gone: every block of it is written anew. -/
def State.cleanStore (s : State) (sa n : Nat) : State :=
  let inside := fun (a : Nat) => decide (sa ≤ a ∧ a < sa + n)
  { s with hbm := { s.hbm with
      poison := s.hbm.poison.filter fun b => !inside (64 * b)
      ecc := s.hbm.ecc.filter fun x => !inside (s.addrOf (x.1 / 2 ^ 25) (x.1 / 4 % 2 ^ 23) + 64 * (x.1 % 4)) } }

/-- A channel and slot before the relocations. -/
def State.unplace (s : State) (ch slot : Nat) : Nat × Nat :=
  s.hbm.spares.reverse.foldl (fun (p : Nat × Nat) (x : Spare) =>
    let base := s.hbm.spool / 2 ^ 17 + 32768 * x.k
    let i := (p.2 - base) * x.m.length + x.m.idxOf p.1
    if base ≤ p.2 ∧ p.2 < base + 32768 ∧ x.m.contains p.1 ∧ i < x.copied then (x.ch, i) else p) (ch, slot)

/-- Read every block with wrong check bytes among the blocks `lo` to `hi` − 1, as their copy or repair does. -/
def State.readBlocks (s : State) (lo hi : Nat) : State :=
  let s := s.linkRetry (lo / 4 / 2 ^ 23)
  (s.hbm.ecc.filter fun x => decide (lo ≤ x.1 ∧ x.1 < hi)).foldl (fun (t : State) (x : Nat × Nat) =>
    let p := s.unplace (x.1 / 4 / 2 ^ 23) (x.1 / 4 % 2 ^ 23)
    (t.readBlock (s.addrOf p.1 p.2 + 64 * (x.1 % 4))).1) s

/-- The first listed row is repaired, which the vintage record keeps; a row whose bank has no spare row is passed to channel
sparing (R268). -/
def State.repairRow (s : State) (spareLeft : Bool) : State :=
  match s.hbm.rows with
  | [] => s
  | row :: rest =>
    let t := { s with hbm := { s.hbm with rows := rest } }
    if spareLeft then
      let t := t.readBlocks (16 * row) (16 * row + 16)
      ((({ t with hbm := { t.hbm with
        rows := rest, repaired := insertUp row t.hbm.repaired
        ecc := t.hbm.ecc.filter fun x => rowOf x.1 != row } }).recorded.hbmCount 5).sticky 0x5000 1 2).report 0x1507 3 (row / 2 ^ 21)
    else t.spareChannel (row / 2 ^ 21)

/-- Slots of the oldest unfinished channel spare are copied (R270). -/
def State.copySpare (s : State) (n : Nat) : State :=
  match s.hbm.spares.find? (decide <| ·.copied < 2 ^ 23) with
  | none => s
  | some x =>
    let stop := min (2 ^ 23) (x.copied + n)
    let t := s.readBlocks ((x.ch * 2 ^ 23 + x.copied) * 4) ((x.ch * 2 ^ 23 + stop) * 4)
    { t with hbm := { t.hbm with spares := t.hbm.spares.map fun (y : Spare) => if y.ch = x.ch then { y with copied := stop } else y } }

/-- A block is scrubbed where its stack can be reached (R265). -/
def State.scrubBlock (s : State) (sa : Nat) : State :=
  whenever (s.channelUp (s.place sa).1) s ((s.linkRetry (s.place sa).1).readBlock (sa / 64 * 64)).1

/-- Parity updates sent by or to a lost die that have not completed tear their barrel groups; each is reported, so that the
collector counts them (R263). -/
def State.tear (s : State) (die : Nat) : State :=
  let of := fun (p : ParUp) => s.stackAt p.pa / 2 == die
  let from_ := fun (p : ParUp) => match s.req? p.tag with
    | some r => s.stackAt (s.store r.pa) / 2 == die
    | none => false
  let gone := s.hbm.parUps.filter fun p => of p || from_ p
  let groups := dedup (gone.map fun p => (p.pa - s.hbm.bbase) / 2 ^ 20)
  whenever (!groups.isEmpty) s
    (let left := s.hbm.parUps.filter fun p => !(of p || from_ p)
     let reqs := s.reqs.map fun (r : Req) =>
       if r.stage = .parity ∧ !left.any (·.tag == r.tag) then { r with stage := .hbmAck } else r
     let t := { s with reqs := reqs, hbm := { s.hbm with torn := dedup (s.hbm.torn ++ groups), parUps := left } }.sticky 0x5000 1 8
     groups.foldl (fun (t : State) g => t.report 0x150C 6 die g) t)

end Sys2Proof.Machine
end

