-- ==== Sys2Proof/Machine/HostBase.lean ====
section
/-!
DEFINITION. Machine/HostBase.lean: what the units share of the Abius engine and its objects (chapter 15): queues and
completion entries, the command at the head of a queue, fences, memory objects, contexts and their handles.
-/

namespace Sys2Proof.Machine

/-! ### Status codes (R308, R434, R459) -/

/-- `SEQ_STALE` -/ def stStale : Nat := 0x0101
/-- `SEQ_STATE` -/ def stState : Nat := 0x0102
/-- `SEQ_TOO_LONG` -/ def stTooLong : Nat := 0x0103
/-- `SEQ_NO_PLAN` -/ def stNoPlan : Nat := 0x0104
/-- `SEQ_BAD_ARG` -/ def stBadArg : Nat := 0x0105
/-- `SEQ_NO_BUDDY` -/ def stNoBuddy : Nat := 0x0106
/-- CANCELLED -/ def stCancelled : Nat := 0x0112
/-- CTX_TORN -/ def stTorn : Nat := 0x0113
/-- KV_LOST -/ def stKvLost : Nat := 0x0114
/-- `HOST_BAD_CMD` -/ def stBadCmd : Nat := 0x0201
/-- `HOST_PRIV` -/ def stPriv : Nat := 0x0202
/-- `HOST_FENCE` -/ def stFence : Nat := 0x0203
/-- `FENCE_RESERVED` -/ def stReserved : Nat := 0x0204
/-- `FENCE_ABANDONED` -/ def stAbandoned : Nat := 0x0205
/-- `HOST_NO_OBJECT` -/ def stNoObject : Nat := 0x0206
/-- `HOST_BUSY` -/ def stBusy : Nat := 0x0207
/-- `QUEUE_OVERRUN` -/ def stOverrun : Nat := 0x0208
/-- `MODULE_SAFE` -/ def stSafe : Nat := 0x020B
/-- `MODEL_FAULTED` -/ def stModel : Nat := 0x020C

/-! ### Queue descriptors (R415) -/

/-- STASH. -/
def qStash (d : BitVec 256) : Nat := fld d 255 240
/-- IRQADDR. -/
def qIrqAddr (d : BitVec 256) : Nat := fld d 231 192
/-- IRQDATA. -/
def qIrqData (d : BitVec 256) : Nat := fld d 191 160
/-- CTX. -/
def qCtx (d : BitVec 256) : Nat := fld d 137 128
/-- PLOG2. -/
def qPlog2 (d : BitVec 256) : Nat := fld d 124 120
/-- PRING. -/
def qPring (d : BitVec 256) : Nat := fld d 119 80
/-- CLOG2. -/
def qClog2 (d : BitVec 256) : Nat := fld d 68 64
/-- CRING. -/
def qCring (d : BitVec 256) : Nat := fld d 39 0

/-- A descriptor with its rings and IRQADDR aligned and its sizes in range; reserved bits are QUEUE_CREATE's to refuse (R417), and
0x1100.10 does not keep them (R5, R415). -/
def qValid (d : BitVec 256) : Bool :=
  decide (qIrqAddr d % 4 = 0 ∧ qPring d % 4096 = 0 ∧ qCring d % 4096 = 0 ∧ 6 ≤ qPlog2 d ∧ qPlog2 d ≤ 16
    ∧ 6 ≤ qClog2 d ∧ qClog2 d ≤ 16)

/-! ### Queues (R415, R416, R420) -/

/-- The queue with an ID. -/
def State.queue (s : State) (q : Nat) : Queue := get s.host.queues q Queue.reset
/-- Change a queue that exists. -/
def State.onQueue (s : State) (q : Nat) (f : Queue → Queue) : State :=
  { s with host := { s.host with queues := s.host.queues.map fun (x : Nat × Queue) => if x.1 = q then (q, f x.2) else x } }
/-- The context that owns a queue. -/
def State.queueCtx (s : State) (q : Nat) : Nat := qCtx (s.queue q).desc

/-- Free completion entries that nothing has reserved (R420). -/
def Queue.free (x : Queue) : Nat := 2 ^ qPlog2 x.desc - (x.wr + 2 ^ 32 - x.head) % 2 ^ 32 - x.resv

/-- Bytes from an address on, cut where lines begin. -/
def linePieces (a : Nat) (d : List Byte) : List (Nat × List Byte) :=
  (List.range ((a % 128 + d.length + 127) / 128)).map fun i =>
    let b := if i = 0 then a else 128 * (a / 128 + i)
    (b, (d.drop (b - a)).take (128 * (a / 128 + i + 1) - b))

/-- Writes of engines to the companion window that are not performed. -/
def State.postedOut (s : State) : List Req := s.reqs.filter fun r => r.agent == .engine && r.kind == .write && isComp r.pa

/-- An engine writes bytes of one line to companion memory: the cask's copy goes, and the write is sent; one marked release
waits for the engine's earlier writes (R204, R205). With the companion agent dead nothing is sent (R221). -/
def State.sendComp (s : State) (ctx stash : Nat) (rel : Bool) (x : Nat × List Byte) : State :=
  let pa := 2 ^ 40 + x.1
  let l := pa / 128
  let wait := rel && !s.postedOut.isEmpty
  let r : Req := { Req.reset with
    agent := .engine, ctx := ctx, kind := .write, va := pa, pa := pa, size := x.2.length, cls := 5, data := x.2, rel := rel
    stage := if wait then .home else .comp }
  let t := { s with
    cellar := s.cellar.dropLine l
    reqs := s.reqs.map fun (q : Req) => if q.pa / 128 = l ∧ q.stage = Stage.filled then { q with noAlloc := true } else q }
  whenever (!s.coh.dead) s
    (if wait then t.addReq r else (t.addReq r).sendAb (s.compWrite { r with tag := s.nextTag } stash))

/-- An engine writes bytes to companion memory. -/
def State.engineWrite (s : State) (ctx stash : Nat) (rel : Bool) (ca : Nat) (d : List Byte) : State :=
  (linePieces ca d).foldl (fun (t : State) x => t.sendComp ctx stash rel x) s

/-- Bytes that the module writes to companion memory, for a context. -/
def State.compStore (s : State) (ca : Nat) (d : List Byte) (ctx : Nat := 0) : State :=
  { s.engineWrite ctx 0 false ca d with host := { s.host with compWr := s.host.compWr ++ [(ca, d)] } }

/-- The header of a completion record (R419). -/
def cplHeader (cmdid status ncont phase kind w8 w12 ntok : Nat) (body : List Byte) : List Byte :=
  leBytes cmdid 4 ++ leBytes status 2 ++ leBytes ncont 1 ++ leBytes (phase + 2 * kind) 1 ++ leBytes w8 4 ++ leBytes w12 4
    ++ leBytes ntok 1 ++ leBytes 0 7 ++ slice body 0 40

/-- The entries of a ring that continuation entries take, in pieces of whole lines where two of them make one. -/
def ringPieces (base size : Nat) : Nat → List (List Byte) → List (Nat × List Byte)
  | _, [] => []
  | i, [x] => [(base + 64 * (i % size), x)]
  | i, x :: y :: r =>
    if i % 2 = 0 then (base + 64 * (i % size), x ++ y) :: ringPieces base size (i + 2) r
    else (base + 64 * (i % size), x) :: ringPieces base size (i + 1) (y :: r)

/-- A completion record takes its entries of the ring: the header at the first, its continuation entries behind it,
written first, and then the header, marked release; entries that were reserved for it are returned (R205, R225, R419,
R420). -/
def State.postRecord (s : State) (q reserved cmdid status kind w8 w12 ntok : Nat) (body : List Byte) : State :=
  match find? s.host.queues q with
  | none => s
  | some x =>
    let n := (body.length - 40 + 63) / 64
    let size := 2 ^ qPlog2 x.desc
    let hdr := cplHeader cmdid status n (1 - x.wr / size % 2) kind w8 w12 ntok body
    let conts := (List.range n).map fun i => (q, slice body (40 + 64 * i) 64)
    let c := qCtx x.desc
    let s := (ringPieces (qPring x.desc) size (x.wr + 1) (conts.map (·.2))).foldl (fun (t : State) y =>
      t.engineWrite c (qStash x.desc) false y.1 y.2) s
    let s := s.engineWrite c (qStash x.desc) true (qPring x.desc + 64 * (x.wr % size)) hdr
    { (s.onQueue q fun x => { x with wr := (x.wr + 1 + n) % 2 ^ 32, resv := x.resv - reserved }) with
      host := { (s.onQueue q fun x => { x with wr := (x.wr + 1 + n) % 2 ^ 32, resv := x.resv - reserved }).host with
        posted := s.host.posted ++ conts ++ [(q, hdr)] } }

/-- IRQDATA is written to IRQADDR after a batch, marked release (R419). -/
def State.irq (s : State) (q : Nat) : State :=
  let d := (s.queue q).desc
  whenever (qIrqAddr d != 0) s
    { s.engineWrite (qCtx d) (qStash d) true (qIrqAddr d) (leBytes (qIrqData d) 4) with
      host := { s.host with compWr := s.host.compWr ++ [(qIrqAddr d, leBytes (qIrqData d) 4)] } }

/-- A token in companion memory (R306). -/
def tokBytes (ts : List (BitVec 24)) : List Byte := ts.flatMap fun t => leBytes t.toNat 4

/-- Post a step record, for which the gather reserved five entries (R325, R419, R420). -/
def State.postStep (s : State) (r : StepRec) (reserved : Nat) : State :=
  s.postRecord r.queue reserved r.cmdid.toNat r.status 1 r.handle r.pos r.toks.length (tokBytes r.toks)

/-! ### Commands (R417, R418, R435) -/

/-- Word `i` of a command. -/
def cw (c : BitVec 512) (i : Nat) : Nat := c.toNat / 2 ^ (64 * i) % 2 ^ 64
/-- OPC. -/
def opcOf (c : BitVec 512) : Nat := bits (cw c 0) 63 56
/-- CMDID. -/
def cmdidOf (c : BitVec 512) : Nat := bits (cw c 0) 31 0

/-- The bits of words 1 to 7 that a command defines, as (word, highest, lowest); none for an OPC that does not exist
(R413, R415, R417, R418). -/
def cmdFields (opc : Nat) : Option (List (Nat × Nat × Nat)) :=
  match opc with
  | 0x01 => some [(1, 47, 0), (2, 63, 0), (3, 63, 0), (4, 63, 0), (5, 1, 0), (5, 59, 3), (5, 61, 61)]
  | 0x02 => some [(1, 27, 0), (2, 47, 0), (3, 31, 0)]
  | 0x03 => some [(1, 27, 0), (2, 31, 0), (3, 63, 0), (4, 6, 0)]
  | 0x04 => some [(1, 27, 0)]
  | 0x05 => some [(1, 27, 0), (2, 63, 0)]
  | 0x06 => some [(1, 27, 0)]
  | 0x07 => some [(1, 27, 0)]
  | 0x08 => some [(1, 27, 0), (2, 15, 0)]
  | 0x09 => some [(1, 27, 0), (1, 63, 32), (2, 63, 0), (3, 63, 0), (4, 27, 0), (5, 9, 0)]
  | 0x10 => some [(1, 15, 0), (2, 63, 0)]
  | 0x11 => some [(1, 15, 0), (2, 63, 0)]
  | 0x20 => some [(1, 63, 10), (2, 12, 0)]
  | 0x21 => some [(1, 63, 0)]
  | 0x22 => some [(1, 19, 0)]
  | 0x23 => some [(1, 39, 0), (2, 4, 0), (2, 55, 16), (2, 60, 56), (3, 9, 0), (3, 63, 32), (4, 39, 0), (4, 63, 48)]
  | 0x24 => some [(1, 63, 0)]
  | 0x25 => some [(1, 9, 0)]
  | 0x26 => some [(1, 15, 0), (1, 25, 16), (1, 31, 31)]
  | 0x27 => some [(1, 47, 0), (2, 63, 0)]
  | 0x28 => some [(1, 15, 0)]
  | 0x29 => some [(1, 15, 0)]
  | 0x2A => some [(1, 25, 0)]
  | 0x2B => some [(1, 25, 0)]
  | 0x2C => some [(1, 63, 0), (2, 63, 0), (3, 63, 0)]
  | 0x30 => some [(1, 63, 0), (2, 63, 0), (3, 63, 0)]
  | 0x31 => some []
  | 0x38 => some [(1, 3, 0), (2, 63, 0), (3, 63, 0)]
  | _ => none

/-- Word `w` with the defined bits of a command removed. -/
def clearFields (fs : List (Nat × Nat × Nat)) (w v : Nat) : Nat :=
  fs.foldl (fun v f => if f.1 = w then v - bits v f.2.1 f.2.2 * 2 ^ f.2.2 else v) v

/-- Whether every reserved bit of a command is zero (R417). -/
def cmdClean (c : BitVec 512) : Bool :=
  match cmdFields (opcOf c) with
  | some fs => bits (cw c 0) 55 32 == 0 && (List.range 7).all fun i => clearFields fs (i + 1) (cw c (i + 1)) == 0
  | none => false

/-- Whether a command is one of those that only queue 0 may give (R417). -/
def isDriver (opc : Nat) : Bool := decide (0x20 ≤ opc ∧ opc ≤ 0x31)
/-- Whether a command is a sequence command (R417). -/
def isSeqCmd (opc : Nat) : Bool := decide (1 ≤ opc ∧ opc ≤ 9)

/-- The command at the head of a queue, fetched and not yet completed. -/
def State.head? (s : State) (q : Nat) : Option (BitVec 512) := (find? s.host.queues q).bind (·.cmd)

/-- Commands in flight (R307, R435). -/
def State.inFlight (s : State) : Nat :=
  (s.host.queues.filter fun x => x.2.cmd.isSome).length + s.seq.cmdWait.length
    + (s.host.gone.filter (·.2.isSome)).length

/-! ### Memory objects (R423, R424) -/

/-- An address in the companion window, given as such or as a companion address. -/
def winAddr (a : Nat) : Nat := if a < 2 ^ 40 then a + 2 ^ 40 else a

/-- Whether a range lies in a memory object. -/
def MemObj.holds (m : MemObj) (pa n : Nat) : Bool := decide (m.base ≤ pa ∧ pa + n ≤ m.base + m.len)

/-- Whether a buffer lies in one object bound to a context; context 0 reaches everything (R407, R429). -/
def State.inBound (s : State) (ctx pa n : Nat) : Bool :=
  ctx == 0 || s.host.mems.any fun x => x.2.binds.contains ctx && x.2.holds pa n

/-- The addresses that a command in flight names (R423). -/
def cmdAddrs (c : BitVec 512) : List Nat :=
  match opcOf c with
  | 0x01 => [bits (cw c 1) 47 0]
  | 0x02 => [bits (cw c 2) 47 0]
  | 0x03 => [winAddr (cw c 3)]
  | 0x05 => [winAddr (cw c 2)]
  | 0x09 => [winAddr (cw c 2)]
  | 0x30 => [winAddr (cw c 1)]
  | 0x38 => [winAddr (cw c 2)]
  | _ => []

/-- The device count of an object (R423). -/
def State.devCount (s : State) (m : MemObj) : Nat :=
  m.binds.length
    + (s.seq.table.filter fun x => x.2.st != .free && m.holds x.2.addr.toNat 1).length
    + (s.seq.spills.filter fun x => m.holds x.2 1).length
    + (s.host.queues.filter fun x => match x.2.cmd with
        | some c => (cmdAddrs c).any fun a => m.holds a 1
        | none => false).length

/-- The pieces of storage that hold the bytes of an HBM range: the range itself, or, where it meets the weight area, whose lines are
spread over stripes, one piece for each line (R260). -/
def State.stored (s : State) (pa n : Nat) : List (Nat × Nat) :=
  if pa + n ≤ s.cellar.wbase ∨ s.cellar.wbase + s.cellar.wlen ≤ pa then [(pa, n)]
  else (List.range (n / 128)).map fun i => (s.store (pa + 128 * i), 128)

/-- An HBM range is overwritten with zeros: its lines leave the cellar, the companion's copies are asked back, and the bytes in
HBM become zero with their poison and spoiled check bytes gone. -/
def State.zeroRange (s : State) (pa n : Nat) : State :=
  let t := s.tossLines fun x => decide (pa ≤ 128 * x.addr ∧ 128 * x.addr < pa + n)
  (t.stored pa n).foldl (fun (t : State) x => (t.zeroMem x.1 x.2).cleanStore x.1 x.2) t

/-- An object with both counts zero is freed: an HBM object's bytes are zeroed, and the notice is posted (R424). -/
def State.freeMem (s : State) (id : Nat) : State :=
  match find? s.host.mems id with
  | none => s
  | some m =>
    whenever (m.host == 0 && s.devCount m == 0) s
      (let t := { s with host := { s.host with mems := drop s.host.mems id } }
       (if isHbm m.base then t.zeroRange m.base m.len else t).notice { Notice.reset with status := 0x0303, subj := id })

/-- Every object whose counts have reached zero is freed (R424). -/
def State.freeMems (s : State) : State := (s.host.mems.map (·.1)).foldl State.freeMem s

/-! ### Fences (R425 to R428) -/

/-- Whether a context holds a fence. -/
def State.holdsFence (s : State) (ctx id : Nat) : Bool :=
  match find? s.host.fences id with
  | some f => f.holders.contains ctx
  | none => false

/-- The fences that a command in flight names. -/
def cmdFences (c : BitVec 512) : List Nat :=
  match opcOf c with
  | 0x01 => [bits (cw c 5) 31 16]
  | 0x09 => [bits (cw c 4) 15 0]
  | 0x10 => [bits (cw c 1) 15 0]
  | 0x11 => [bits (cw c 1) 15 0]
  | _ => []

/-- Whether a fence is still in use: a holder, a sequence or a command in flight names it (R425). -/
def State.fenceUsed (s : State) (id : Nat) (f : Fence) : Bool :=
  !f.holders.isEmpty || s.seq.table.any (fun x => x.2.st != .free && x.2.fence.toNat == id)
    || s.host.queues.any fun x => match x.2.cmd with
        | some c => (cmdFences c).contains id
        | none => false

/-- Fences that nothing names any longer are freed (R425). -/
def State.freeFences (s : State) : State :=
  { s with host := { s.host with fences := s.host.fences.filter fun x => s.fenceUsed x.1 x.2 } }

/-- Change a fence. -/
def State.onFence (s : State) (id : Nat) (f : Fence → Fence) : State :=
  { s with host := { s.host with fences := s.host.fences.map fun (x : Nat × Fence) => if x.1 = id then (id, f x.2) else x } }

/-- A signal of value `v` reaches the fence table: a value at or below the current one is ignored and counted; an accepted
signal clears a `MODEL_FAULTED` error (R426, R428, R488). -/
def State.signal (s : State) (id v : Nat) : State :=
  match find? s.host.fences id with
  | none => s
  | some f =>
    if v ≤ f.value.toNat then (s.bumpLane 0x1100 8 4 1).sticky 0x1100 1 0
    else s.onFence id fun f => { f with value := BitVec.ofNat 64 v, err := 0 }

/-! ### Completing commands (R419, R435) -/

/-- The OPEN sent for a racked SUBMIT that will not be admitted is taken back: its rack is closed (R374, R377). -/
def State.dropOpen (s : State) (q : Nat) : State :=
  match (s.queue q).slot with
  | none => s
  | some n =>
    let buddy := match s.span.opens.find? fun x => x.1 == n with | some x => x.2.1 | none => 0
    let t := { s with span := { s.span with opens := s.span.opens.filter fun x => x.1 != n } }
    (t.onQueue q fun x => { x with slot := none }).stream 7 buddy 4 0
      (rackId s.modId n (get s.seq.table n Entry.reset).gen.toNat)

/-- The head command of a queue is completed: its entry is posted, the head is free, and objects it alone named may be
freed (R424, R425, R435). -/
def State.complete (s : State) (q status id : Nat) : State :=
  match s.head? q with
  | none => s
  | some c =>
    (((((s.dropOpen q).postRecord q 1 (cmdidOf c) status 0 id 0 0 []).irq q).onQueue q fun x =>
      { x with cmd := none, posted := false }).freeFences).freeMems

/-- The head command leaves the head of its queue and will be completed later (R307, R434). -/
def State.defer (s : State) (q key : Nat) : State :=
  match s.head? q with
  | none => s
  | some c =>
    { (s.onQueue q fun x => { x with cmd := none, posted := false }) with
      seq := { s.seq with cmdWait := s.seq.cmdWait ++ [(opcOf c, key, BitVec.ofNat 32 (cmdidOf c), q)] } }

/-- Commands that were waiting for an operation are completed with a status (R435). -/
def State.settle' (s : State) (opc key status : Nat) : State :=
  let mine := s.seq.cmdWait.filter fun x => x.1 == opc && x.2.1 == key
  let t := { s with seq := { s.seq with cmdWait := s.seq.cmdWait.filter fun x => !(x.1 == opc && x.2.1 == key) } }
  (mine.foldl (fun (t : State) x => (t.postRecord x.2.2.2 1 x.2.2.1.toNat status 0
    (match find? t.seq.table x.2.1 with
      | some e => if opc = 0x09 then e.gen.toNat * 2 ^ 12 + x.2.1 else 0
      | none => 0) 0 0 []).irq x.2.2.2) t).freeMems

/-- Act on the head command of a queue where it is the command of a row: a reserved bit or a queue that may not give it
completes it, and `f` has the rest (R417, R429). Nothing is done in the safe state, in which no command is performed
(R469). -/
def State.onHead (s : State) (q opc : Nat) (f : BitVec 512 → State) : State :=
  match s.head? q with
  | none => s
  | some c =>
    if opcOf c ≠ opc ∨ s.faults.safe then s
    else if !cmdClean c then s.complete q (if isSeqCmd opc then stBadArg else stBadCmd) 0
    else if isDriver opc && q != 0 then s.complete q stPriv 0
    else f c

/-! ### Contexts (R413, R430) -/

/-- Whether a context ID names a context. -/
def State.isCtx (s : State) (c : Nat) : Bool := c == 0 || (find? s.host.ctxs c).isSome

/-- Cached translations of a context in a range are dropped; length 0 means the whole space (R412). -/
def State.dropXlat (s : State) (ctx base len : Nat) : State :=
  let keep := fun (l : List XEntry) => l.filter fun (e : XEntry) =>
    !(e.ctx == ctx && (len == 0 || decide (e.va < base + len ∧ base < e.va + 2 ^ e.log2)))
  { s with
    cores := s.cores.map fun (x : Nat × Core) => (x.1, { x.2 with xlat := keep x.2.xlat })
    host := { s.host with xlatA := keep s.host.xlatA, xlatS := keep s.host.xlatS } }

/-- A kernel ends as under R108 without a record of its own (R334, R430, R469). -/
def State.killKernel (s : State) (c : Nat) : State :=
  whenever ((s.core c).run && !(s.core c).stopping) s (((s.onCoreState c (·.stop 0)).discardLoads c).finishIfQuiet c)

/-- Every kernel whose core satisfies `p` ends. -/
def State.killKernels (s : State) (p : Core → Bool) : State :=
  ((s.cores.filter fun x => p x.2).map (·.1)).foldl State.killKernel s

/-- Fetched commands of a context's queues that satisfy `p` complete with a status. -/
def State.completeHeads (s : State) (p : Nat → Queue → Bool) (status : Nat) : State :=
  ((s.host.queues.filter fun x => x.2.cmd.isSome && p x.1 x.2).map (·.1)).foldl (fun (t : State) q => t.complete q status 0) s

/-- A context is torn down: its kernels in flight end, its queued sequence commands complete with CTX_TORN, and its
sequences leave at the commit point (R334). -/
def State.tearDown (s : State) (ctx : Nat) : State :=
  whenever (ctx != 0 && s.isCtx ctx) s
    ((({ s with seq := { s.seq with torn := addTo s.seq.torn ctx } } : State).killKernels fun k => k.ctx == ctx).completeHeads
      (fun _ x => qCtx x.desc == ctx && (match x.cmd with | some c => isSeqCmd (opcOf c) | none => false)) stTorn)

/-- A context's queues stop and its fetched commands complete with CTX_TORN (R430). -/
def State.stopQueues (s : State) (ctx : Nat) : State :=
  let mine := fun (x : Queue) => qCtx x.desc == ctx && ctx != 0
  let queues := s.host.queues.map fun (x : Nat × Queue) =>
    (x.1, if mine x.2 then { x.2 with stopped := true, status := stTorn } else x.2)
  let t := { s with host := { s.host with queues := queues } }
  t.completeHeads (fun _ x => mine x) stTorn

/-- PROCESS_GONE of a context begins (R430). -/
def State.beginGone (s : State) (ctx : Nat) (cmdid : Option (BitVec 32)) : State :=
  let t := (s.stopQueues ctx).tearDown ctx
  { t with host := { t.host with
    gone := t.host.gone ++ [(ctx, cmdid)]
    ctxs := t.host.ctxs.map fun (x : Nat × Ctx) => if x.1 = ctx then (ctx, { x.2 with dying := true }) else x } }

/-- PROCESS_GONE of a context ends, after its sequences have left: owned fences are abandoned, holds on other fences
dropped, bindings, queues and translations gone, and the context ID freed; the command completes on queue 0 (R428,
R430). -/
def State.endGone (s : State) (ctx : Nat) (cmdid : Option (BitVec 32)) : State :=
  let fences := s.host.fences.map fun (x : Nat × Fence) =>
    let f := { x.2 with holders := x.2.holders.filter (· != ctx) }
    (x.1, if x.2.owner = ctx then { f with value := BitVec.allOnes 64, err := stAbandoned } else f)
  let mems := s.host.mems.map fun (x : Nat × MemObj) => (x.1, { x.2 with binds := x.2.binds.filter (· != ctx) })
  let t := { s with
    host := { s.host with
      fences := fences, mems := mems
      queues := s.host.queues.filter fun x => qCtx x.2.desc != ctx
      ctxs := drop s.host.ctxs ctx
      gone := s.host.gone.filter fun x => x.1 != ctx }
    seq := { s.seq with torn := s.seq.torn.filter (· != ctx) } }
  let t := t.dropXlat ctx 0 0
  (match cmdid with
    | some c => (t.postRecord 0 1 c.toNat 0 0 0 0 0 []).irq 0
    | none => t).freeFences.freeMems

end Sys2Proof.Machine
end

