-- ==== Sys2Proof/Machine/PowerBase.lean ====
section
/-!
DEFINITION. Machine/PowerBase.lean: the job table, the job-frequency agreement and the throttles, as other units use them
(R359, R368, R369, R502, R505 to R512).
-/

namespace Sys2Proof.Machine

/-! ### The job (R359) -/

/-- Field `i` of the job table in force: 0 ID, 1 NX, 2 NY, 3 IX, 4 IY, 5 MX, 6 PX, 7 MY, 8 PY. -/
def State.job (s : State) (i : Nat) : Nat := s.span.job.getD i 0
/-- The members of the job. -/
def State.members (s : State) : Nat := s.job 1 * s.job 2

/-! ### Throttles (R502, R503) -/

/-- The throttle state of a compute die. -/
def State.throtOf (s : State) (d : Nat) : Throt := get s.power.throt d Throt.reset
/-- The level in force on a die: the highest asked for (R502). -/
def Throt.level (x : Throt) : Nat := max (max x.sustained x.current) (max (max x.tile x.temp) x.cap)
/-- The highest level on any die. -/
def State.throttle (s : State) : Nat := (List.range 8).foldl (fun m d => max m (s.throtOf d).level) 0

/-! ### Requests (R368, R505 to R509) -/

/-- The mode ceiling (R508). -/
def State.modeCeiling (s : State) : Nat :=
  if s.power.mode = 0 then 4000 else min 4400 (max 1000 (Config.openCeiling s.power.slack / 25 * 25))

/-- The lowest of the terms of a member's request (R509). -/
def State.requestTerms (s : State) : Nat :=
  let low := fun (m x : Nat) => if x = 0 then m else min m x
  low (low (min s.modeCeiling s.power.limit) s.power.capReq) s.power.longReq

/-- The member's request follows its terms; a change is flooded at the next step boundary (R368, R509). -/
def State.refreshRequest (s : State) : State :=
  let r := s.requestTerms
  { s with power := { s.power with request := r, freqDirty := s.power.freqDirty || r != s.power.request } }

/-- The payload of a FREQ frame (R507). -/
def freqPayload (request step version : Nat) (throttle openMode : Bool) : List Byte :=
  leBytes (request + 2 ^ 32 * b2n throttle + 2 ^ 33 * b2n openMode) 8 ++ leBytes version 4 ++ leBytes step 4

/-- A member floods a FREQ frame; VERSION rises with each (R368, R507). -/
def State.floodFreq (s : State) (step : Nat) (throttle : Bool) : State :=
  let v := (s.span.myVersion + 1) % 2 ^ 32
  let t := { s with span := { s.span with myVersion := v } }
  t.flood 9 0 (freqPayload s.power.request (step % 2 ^ 32) v throttle (s.power.mode == 1))

/-- At a step boundary a changed request is flooded for the step after the next; the member keeps it as it keeps the
others' (R368). -/
def State.boundaryRequest (s : State) : State :=
  whenever s.power.freqDirty s
    (let t := s.floodFreq (s.seq.step + 2) false
     { t with
       power := { t.power with freqDirty := false }
       span := { t.span with versions := t.span.versions ++
         [(s.modId, t.span.myVersion, s.power.request, (s.seq.step + 2) % 2 ^ 32)] } })

/-- Whether `a` is at or before `b` by serial-number arithmetic over 32 bits (R520). -/
def serialLe (a b : Nat) : Bool := decide ((b + 2 ^ 32 - a % 2 ^ 32) % 2 ^ 32 < 2 ^ 31)

/-- Of two requests of one source, the one of the later version. -/
def laterReq (x y : Nat × Nat × Nat × Nat) : Nat × Nat × Nat × Nat := if serialLe x.2.1 y.2.1 then y else x

/-- The latest request of a source that is effective at a step. -/
def latestOf (l : List (Nat × Nat × Nat × Nat)) (src step : Nat) : Option (Nat × Nat × Nat × Nat) :=
  (l.filter fun x => x.1 == src && serialLe x.2.2.2 step).foldl (fun a x => match a with
    | some y => some (laterReq y x)
    | none => some x) none

/-- The agreed frequency for a step: the lowest of the latest effective requests; a member that has sent none stands at
4,000 MHz (R369). -/
def State.agreedFor (s : State) (step : Nat) : Nat :=
  let srcs := dedup (s.span.versions.map (·.1))
  let rs := (srcs.filterMap fun x => latestOf s.span.versions x step).map (·.2.2.1)
  let base := if s.members ≤ rs.length then 4400 else if s.members = 1 then s.power.agreed else 4000
  rs.foldl min base

/-- The agreed frequency is applied before a broadcast; requests that later ones have replaced are forgotten; a change
voids the step (R369, R392, R512). -/
def State.applyFreq (s : State) (step : Nat) : State :=
  let f := s.agreedFor step
  let keep := s.span.versions.filter fun x => match latestOf s.span.versions x.1 step with
    | some y => serialLe y.2.1 x.2.1
    | none => true
  let t := { s with span := { s.span with versions := keep } }
  whenever (f != s.power.agreed) t
    (({ t with power := { t.power with agreed := f } }.bumpLane 0x2100 0x10 3 1).void 5)

/-- The cap-lag throttle ends at the broadcast of its effective step (R511). -/
def State.endCapLag (s : State) (step : Nat) : State :=
  whenever (s.power.capStep != 0 && decide (s.power.capStep ≤ step)) s
    { s with power := { s.power with
      capStep := 0, throt := s.power.throt.map fun (x : Nat × Throt) => (x.1, { x.2 with cap := 0 }) } }

/-- A member whose throttle first rises above level 0 during a step floods the notice and voids the step (R392, R505). -/
def State.throttleNotice (s : State) : State :=
  whenever (decide (0 < s.throttle)) s
    (let t := s.void 5
     match s.seq.cur with
     | some r => whenever (!s.power.throttledStep) t
         ({ t with power := { t.power with throttledStep := true } }.floodFreq r.num true)
     | none => t)

/-- Change the throttle state of a die, with the notice that may follow. -/
def State.setThrot (s : State) (d : Nat) (f : Throt → Throt) : State :=
  ({ s with power := { s.power with throt := upd s.power.throt d Throt.reset f } } : State).throttleNotice

/-- Change the throttle state of every compute die. -/
def State.setThrots (s : State) (f : Throt → Throt) : State :=
  (List.range 8).foldl (fun (t : State) d => t.setThrot d f) s

/-! ### The power cap (R510, R511) -/

/-- Whether P_est(f) ≤ cap for f = num / den of the agreed frequency (R510). -/
def capMeets (pfix pavg cap num den : Nat) : Bool :=
  decide (((pavg : Int) - pfix) * num ≤ ((cap : Int) - pfix) * den)

/-- The cap request: the highest frequency of the grid that meets the cap, and whether 1,000 MHz does (R510). -/
def capRequest (pfix pavg agreed cap : Nat) : Nat × Bool :=
  match (List.range 137).find? fun i => capMeets pfix pavg cap (4400 - 25 * i) agreed with
  | some i => (4400 - 25 * i, true)
  | none => (1000, false)

/-- The lowest throttle level that meets the cap at the agreed frequency (R511). -/
def lagLevel (pfix pavg cap : Nat) : Nat := ((List.range 5).find? fun k => capMeets pfix pavg cap (8 - k) 8).getD 4

/-- The input power over the last 10 ms, W: a reading that the model leaves free. -/
def State.inputW (s : State) : Nat := s.freeVal.toNat % 2 ^ 16

/-- Once a cap is taken, an input power more than 2 % above it lowers the cap request by 25 MHz at the boundary (R510). -/
def State.capDrift (s : State) : State :=
  whenever (s.power.cap != 0) s
    (let t := s.drew
     whenever (decide (102 * s.power.cap < 100 * s.inputW ∧ 1000 < s.power.capReq)) t
       ({ t with power := { t.power with capReq := t.power.capReq - 25 } } : State).refreshRequest)

end Sys2Proof.Machine
end

