-- ==== Sys2Proof/Machine/StackAttention.lean ====
section
/-!
DEFINITION. Machine/StackAttention.lean: stack attention (chapter 11): requests, the partial of a barrel, bounds and
selection, and the response.
-/

namespace Sys2Proof.Machine

/-! ### Fields of the request descriptor and of a list entry (R284, R285) -/

/-- TAG. -/
def aTag (d : BitVec 256) : Nat := fld d 255 240
/-- ACTR. -/
def aActr (d : BitVec 256) : Nat := fld d 131 128
/-- KSEL_M1, plus one. -/
def aKsel (d : BitVec 256) : Nat := fld d 124 119 + 1
/-- MODE. -/
def aMode (d : BitVec 256) : Nat := fld d 118 117
/-- DSEL. -/
def aDsel (d : BitVec 256) : Nat := fld d 116 115
/-- The head dimension D. -/
def aDim (d : BitVec 256) : Nat := dimOf (aDsel d)
/-- FMT. -/
def aFmt (d : BitVec 256) : Nat := fld d 114 112
/-- STACK. -/
def aStack (d : BitVec 256) : Nat := fld d 111 108
/-- List entries. -/
def aNb (d : BitVec 256) : Nat := fld d 107 102 + 1
/-- Queries. -/
def aNq (d : BitVec 256) : Nat := fld d 101 96 + 1
/-- SCALE. -/
def aScale (d : BitVec 256) : BitVec 32 := BitVec.ofNat 32 (fld d 95 64)
/-- RADDR. -/
def aRaddr (d : BitVec 256) : Nat := fld d 50 34
/-- LADDR. -/
def aLaddr (d : BitVec 256) : Nat := fld d 33 17
/-- QADDR. -/
def aQaddr (d : BitVec 256) : Nat := fld d 16 0
/-- Bytes of one record. -/
def aRec (d : BitVec 256) : Nat := 16 + 4 * aDim d
/-- Bytes of the response (R286). -/
def aBytes (d : BitVec 256) : Nat := if aMode d = 2 then 8 * aNb d else aNb d * aNq d * aRec d

/-- BIDX of a list entry. -/
def eBidx (e : Word) : Nat := bits e.toNat 63 48
/-- PIN. -/
def ePin (e : Word) : Bool := e.getLsbD 47
/-- NTOK. -/
def eNtok (e : Word) : Nat := bits e.toNat 40 32
/-- FRAME. -/
def eFrame (e : Word) : Nat := bits e.toNat 23 0

/-- The checks of an `asend`: a reserved code or field, alignment, then range (R286). Where several fail, the lowest code is
raised: DESIGN CHOICE, R286 gives no order (assumption 107). -/
def asendCheck (d : BitVec 256) : Nat :=
  if aMode d = 3 ∨ aDsel d = 3 ∨ (aFmt d ≠ 0 ∧ aFmt d ≠ 1 ∧ aFmt d ≠ 6) ∨ fld d 239 132 ≠ 0 ∨ fld d 127 125 ≠ 0
      ∨ fld d 63 51 ≠ 0 ∨ (aMode d ≠ 1 ∧ aKsel d ≠ 1) then 0x2101
  else if aQaddr d % 8 ≠ 0 ∨ aLaddr d % 8 ≠ 0 ∨ aRaddr d % 16 ≠ 0 then 0x2102
  else if 0x1C000 < aQaddr d + 2 * aDim d * aNq d ∨ 0x1C000 < aLaddr d + 8 * aNb d ∨ 0x1C000 < aRaddr d + aBytes d then 0x2103
  else 0

/-- A core's SAU requests whose arrival has not occurred (R282). -/
def Core.sauLeft (k : Core) : Nat := (k.items.filter (·.kind == .asend)).length

/-- `asend` (R282, R283, R286). -/
def execAsend (c : Nat) (rd rs1 : Reg) (s : State) : Res :=
  onCore c (s.ctl c 4 [rd, rs1, rs1 + 1, rs1 + 2, rs1 + 3] fun s =>
    let k := s.core c
    let d := k.desc rs1
    if rs1.toNat % 4 ≠ 0 then s.coreFault c 0x2101 k.pc.toNat
    else match asendCheck d with
      | 0 =>
        if cnt k.issued (aActr d) = 0xFFFFFFFF then s.coreFault c 0x2147
        else if 16 ≤ k.sauLeft then s
        else
          let k := k.newItem (aActr d) s.nextTag 1 0 .asend
          { s.setCore c ((k.setReg rd (BitVec.ofNat 64 (cnt k.issued (aActr d)))).next 4) with
            nextTag := s.nextTag + 1
            sau := s.sau ++ [{ SauReq.reset with
              tag := s.nextTag, core := c, ctx := k.ctx, desc := d, item := s.nextTag, born := s.od 0x6000 2 }] }
      | code => s.coreFault c code k.pc.toNat)

/-- `astat` (R282). -/
def execAstat (c : Nat) (rd : Reg) (s : State) : Res :=
  onCore c (s.ctlCore c 4 [rd] fun k => k.setReg rd (BitVec.ofNat 64 k.sauLeft))

/-! ### Requests at the port (R287, R290) -/

/-- The request with a tag. -/
def State.sau? (s : State) (tag : Nat) : Option SauReq := s.sau.find? (·.tag == tag)
/-- Change a request. -/
def State.setSau (s : State) (tag : Nat) (f : SauReq → SauReq) : State :=
  { s with sau := s.sau.map fun r => if r.tag = tag then f r else r }
/-- A request is done with. -/
def State.dropSau (s : State) (tag : Nat) : State := { s with sau := s.sau.filter fun r => r.tag != tag }

/-- `n` words of eight bytes from a local address on, as item `id` reads them. -/
def Core.words (k : Core) (id a n : Nat) : List Word :=
  (List.range n).map fun i => BitVec.ofNat 64 (leNat (k.seeItem id (a + 8 * i) 8))

/-- The queries of a request: each D BF16 values. -/
def Core.queries (k : Core) (id : Nat) (d : BitVec 256) : List (List (BitVec 16)) :=
  (List.range (aNq d)).map fun n => (List.range (aDim d)).map fun i =>
    BitVec.ofNat 16 (leNat (k.seeItem id (aQaddr d + 2 * aDim d * n + 2 * i) 2))

/-- SAU_REQUEST: a request reaches its port, which holds up to 64 for its stack, with its queries and its barrel list; an
exact request's entries are then to be scanned. A request to a port of a lost die is discarded (R237, R287). -/
def execSauRequest (tag : Nat) (s : State) : Res :=
  .next (match s.sau? tag with
    | some r =>
      let d := r.desc
      if r.queued ∨ r.lost ∨ 64 ≤ (s.sau.filter fun q => q.queued && aStack q.desc == aStack d).length then s
      else if s.trellis.lost.contains (aStack d / 2) then s.dropSau tag
      else (s.fresh r.core).checkedAll r.core [(aLaddr d, 8 * aNb d), (aQaddr d, 2 * aDim d * aNq d)] fun s =>
        let k := s.core r.core
        let r' := { r with
          queued := true, ents := k.words r.item (aLaddr d) (aNb d), qs := k.queries r.item d
          begun := aMode d == 0, sel := if aMode d = 0 then List.range (aNb d) else [] }
        { s.dropSau tag with sau := (s.dropSau tag).sau ++ [r'] }
    | none => s)

/-- The status an entry has before anything is read (R290). Of several conditions that hold, the one with the lowest error code
counts, and an error before EMPTY: DESIGN CHOICE, R290 gives no order (assumption 107). -/
def State.entryStatus (s : State) (d : BitVec 256) (e : Word) : Nat :=
  let f := eFrame e
  if s.hbm.blen ≤ f * 2 ^ 16 ∨ frameStack f ≠ aStack d ∨ bits e.toNat 46 41 ≠ 0 ∨ bits e.toNat 31 24 ≠ 0 then 0x08
  else if tpbOf (aDsel d) (aFmt d) < eNtok e then 0x09
  else if (s.stack (aStack d)).sauDown
      || s.hbm.spares.any (fun x => x.ch / 32 == aStack d && x.ch % 32 / 4 == frameQuad f) then 0x0A
  else if (s.stack (aStack d)).lost then 0x0B
  else if eNtok e = 0 then 0x01
  else 0x00

/-! ### Reading a barrel (R279, R291) -/

/-- The blocks under a byte range are read through their channel controller: the flag says whether one is poisoned; blocks
that had to be rebuilt are counted (R291). -/
def State.scanRange (r : State × Bool) (a n : Nat) : State × Bool :=
  (List.range ((a + n + 63) / 64 - a / 64)).foldl (fun (r : State × Bool) (i : Nat) =>
    if n = 0 then r
    else
      let sa := (a / 64 + i) * 64
      let wrong := decide (4 ≤ r.1.eccAt sa) && !r.1.hbm.poison.contains (sa / 64)
      let x := (if wrong then r.1.linkRetry (r.1.place sa).1 else r.1).readBlock sa
      if wrong && !x.2 then
        (((x.1.bump 0x5100 0x14 1).sticky 0x5100 1 2).report 0x0543 3 (x.1.place sa).1 sa true, r.2)
      else (x.1, r.2 || x.2)) r

/-- The byte ranges a scan of `n` tokens needs: keys, values and, for MX formats, their scales (R279). -/
def scanRanges (d : BitVec 256) (base n : Nat) : List (Nat × Nat) :=
  let w := aDim d * eltOf (aFmt d)
  [(base, n * w), (base + 0x7800, n * w)] ++
    (if aFmt d = 6 then [] else [(base + 0xF000, n * (aDim d / 32)), (base + 0xF400, n * (aDim d / 32))])

/-- Bytes of the 256-byte chunks that hold some ranges, each starting at a chunk (R300). -/
def chunkBytes (l : List (Nat × Nat)) : Nat := sumN (l.map fun x => 256 * ((x.2 + 255) / 256))

/-- Element `i` of a vector in a barrel, multiplied by its scale and converted to FP32 (R42, R288). -/
def barrelElem (fmt : Nat) (vec scales : List Byte) (i : Nat) : FV :=
  let n := 32 * eltOf fmt
  FV.of32 ((blockElem fmt ((scales.getD (i / 32) 0).toNat) (slice vec (i / 32 * n) n) (i % 32)).to32)

/-- Bytes as stack attention reads them: one written during the step in flight reads as it was committed or as it is, byte by
byte (R281). -/
def State.peekSau (s : State) (sa n : Nat) : List Byte :=
  if s.hbm.olds.isEmpty then s.peek sa n
  else (withPos (s.peek sa n)).map fun x =>
    pickByte s.freeCtr (sa + x.1) x.2 ((s.hbm.olds.filter (·.1 == sa + x.1)).map (·.2))

/-- The choices of `peekSau` are spent. -/
def State.peeked (s : State) : State := whenever (!s.hbm.olds.isEmpty) s s.drew

/-- The keys or values of the first `n` tokens of a barrel (R279). -/
def State.barrelVecs (s : State) (d : BitVec 256) (base off soff n : Nat) : List (List FV) :=
  let D := aDim d
  let w := D * eltOf (aFmt d)
  (List.range n).map fun t =>
    let vec := s.peekSau (base + off + t * w) w
    let sc := if aFmt d = 6 then [] else s.peekSau (base + soff + t * (D / 32)) (D / 32)
    (List.range D).map (barrelElem (aFmt d) vec sc)

/-! ### The partial of one barrel (R288) -/

/-- A value is finite. -/
def isFin32 (a : BitVec 32) : Bool := a.toNat / 2 ^ 23 % 256 != 255

/-- The exact sum of products. -/
def dot (a b : List FV) : FV := sumFV (List.zipWith FV.mul a b)

/-- A sum rounded once, multiplied by SCALE and rounded once more. -/
def score (scale : BitVec 32) (x : FV) : BitVec 32 := f32mul x.to32 scale

/-- The header and o of a record with the empty values. -/
def emptyRec (d : BitVec 256) (bidx status : Nat) (m : Nat := 0xFF800000) : List Byte :=
  leBytes m 4 ++ leBytes 0 4 ++ leBytes bidx 2 ++ leBytes status 1 ++ [0] ++ leBytes (aTag d) 2 ++ leBytes 0 2
    ++ List.replicate (4 * aDim d) 0

/-- A record whose values are not finite. -/
def nanRec (d : BitVec 256) (bidx : Nat) : List Byte :=
  leBytes 0x7FC00000 4 ++ leBytes 0x7FC00000 4 ++ leBytes bidx 2 ++ leBytes 3 1 ++ [0] ++ leBytes (aTag d) 2 ++ leBytes 0 2
    ++ (List.replicate (aDim d) (leBytes 0x7FC00000 4)).flatten

/-- The partial of one query over keys and values (R288, R289). Among zeros the largest is +0, so that m does not depend on an
order of the tokens (DEDUCED, assumption 107). -/
def partialRec (d : BitVec 256) (bidx : Nat) (q : List (BitVec 16)) (ks vs : List (List FV)) : List Byte :=
  let qf := q.map FV.of16
  let ss := ks.map fun k => score (aScale d) (dot qf k)
  if !ss.all isFin32 then nanRec d bidx
  else
    let m := ss.foldl (fun m x => if ordKey m < ordKey x then x else m) (ss.headD 0)
    let ps := ss.map fun x => FV.of32 (f32exp2 (f32sub x m))
    let l := (sumFV ps).to32
    let o := (List.range (aDim d)).map fun i => (dot ps (vs.map fun (v : List FV) => v.getD i .nan)).to32
    if !isFin32 l || !o.all isFin32 then nanRec d bidx
    else
      leBytes m.toNat 4 ++ leBytes l.toNat 4 ++ leBytes bidx 2 ++ leBytes 0 1 ++ [0] ++ leBytes (aTag d) 2 ++ leBytes 0 2
        ++ o.flatMap fun x => leBytes x.toNat 4

/-! ### Bounds and selection (R292, R293) -/

/-- The larger of two values for the bound. -/
def fvMax (a b : FV) : FV :=
  match a, b with
  | .nan, _ => .nan
  | _, .nan => .nan
  | .inf n, y => if n then y else .inf n
  | x, .inf n => if n then x else .inf n
  | x, y => match x.add y.neg with
    | .fin n m _ => if n && m != 0 then y else x
    | _ => x

/-- The bound of an entry: the largest over the queries (R292). The spec does not say where a bound that is not a number stands:
by its bits, beyond the infinity of its sign (DESIGN CHOICE, assumption 107). -/
def State.bound (s : State) (d : BitVec 256) (base : Nat) (qs : List (List (BitVec 16))) : BitVec 32 :=
  let D := aDim d
  let dig := fun (o i : Nat) => FV.of16 (BitVec.ofNat 16 (leNat (s.peekSau (base + 0xF800 + o + 2 * i) 2)))
  let one := fun (q : List (BitVec 16)) =>
    score (aScale d) ((List.range D).foldl (fun (a : FV) (i : Nat) =>
      let x := FV.of16 (q.getD i 0)
      a.add (fvMax (x.mul (dig 0 i)) (x.mul (dig (2 * D) i)))) (.fin true 0 0))
  let bs := qs.map one
  bs.foldl (fun m x => if ordKey m < ordKey x then x else m) (bs.headD 0)

/-- Whether entry `a` of (position, BIDX, bound) comes before `b` in the selection (R293). -/
def selBefore (a b : Nat × Nat × BitVec 32) : Bool :=
  if ordKey a.2.2 ≠ ordKey b.2.2 then decide (ordKey b.2.2 < ordKey a.2.2)
  else if a.2.1 ≠ b.2.1 then decide (a.2.1 < b.2.1) else decide (a.1 < b.1)

/-- The positions selected: the pinned entries and the `k` best unpinned ones (R293). -/
def selectEntries (l : List (Nat × Nat × BitVec 32 × Bool)) (k : Nat) : List Nat :=
  let un := (l.filter fun x => !x.2.2.2).map fun x => (x.1, x.2.1, x.2.2.1)
  let best := un.filter fun x => decide ((un.filter fun y => selBefore y x).length < k)
  sortUp ((l.filter fun x => x.2.2.2).map (·.1) ++ best.map (·.1))

/-- The first error status is kept with its list position (R296). -/
def SauReq.note (r : SauReq) (j status : Nat) : SauReq :=
  if status < 8 then r
  else match r.bad with
    | some (i, _) => if j < i then { r with bad := some (j, status) } else r
    | none => { r with bad := some (j, status) }

/-- An entry is finished with its bytes of the response. -/
def SauReq.finish (r : SauReq) (j status : Nat) (b : List Byte) : SauReq :=
  { (r.note j status) with done := r.done ++ [j], recs := put r.recs j b }

/-- The records of one entry for every query. -/
def sameRecs (d : BitVec 256) (b : List Byte) : List Byte := (List.replicate (aNq d) b).flatten

/-- The frame's first byte. -/
def State.frameBase (s : State) (f : Nat) : Nat := s.hbm.bbase + f * 2 ^ 16

/-- Read the digests of every entry that is valid so far: the state after the reads and, per entry, its status and bound. -/
def State.readDigests (s : State) (r : SauReq) : State × List (Nat × BitVec 32) :=
  r.ents.foldl (fun (x : State × List (Nat × BitVec 32)) (e : Word) =>
    let st := s.entryStatus r.desc e
    if st ≠ 0 then (x.1, x.2 ++ [(st, 0xFF800000)])
    else
      let base := s.frameBase (eFrame e)
      let y := State.scanRange (x.1, false) (base + 0xF800) (4 * aDim r.desc)
      let t := y.1.bump 0x5100 0x13 (256 * ((4 * aDim r.desc + 255) / 256))
      if y.2 then (t, x.2 ++ [(0x0B, 0xFF800000)]) else (t.peeked, x.2 ++ [(0, x.1.bound r.desc base r.qs)])) (s, [])

/-- SAU_BOUNDS_DONE: the bounds of every entry are known: a bounds request has its records, and a selective one its barrels
(R292, R293). -/
def execSauBoundsDone (tag : Nat) (s : State) : Res :=
  .next (match s.sau? tag with
    | some r =>
      let d := r.desc
      if !r.queued ∨ r.begun ∨ (!s.stackUp (aStack d) ∧ !(s.stack (aStack d)).lost) then s
      else
        let x := s.readDigests r
        let res := withPos x.2
        if aMode d = 2 then
          x.1.setSau tag fun r => res.foldl (fun (r : SauReq) (y : Nat × Nat × BitVec 32) =>
            r.finish y.1 y.2.1 (leBytes y.2.2.toNat 4 ++ leBytes (eBidx (r.ents.getD y.1 0)) 2 ++ leBytes y.2.1 1 ++ [0]))
            { r with begun := true }
        else
          let valid := (res.filter fun y => y.2.1 == 0).map fun y =>
            (y.1, eBidx (r.ents.getD y.1 0), y.2.2, ePin (r.ents.getD y.1 0))
          let sel := selectEntries valid (aKsel d)
          let skipped := (res.filter fun y => y.2.1 == 0 && !sel.contains y.1).length
          (x.1.bump 0x5100 0x12 skipped).setSau tag fun r => res.foldl (fun (r : SauReq) (y : Nat × Nat × BitVec 32) =>
            let bidx := eBidx (r.ents.getD y.1 0)
            if sel.contains y.1 then r
            else if y.2.1 = 0 then r.finish y.1 2 (sameRecs d (emptyRec d bidx 2 y.2.2.toNat))
            else r.finish y.1 y.2.1 (sameRecs d (emptyRec d bidx y.2.1)))
            { r with begun := true, sel := sel, bounds := x.2.map (·.2) }
    | none => s)

/-! ### Scans (R300) -/

/-- Whether an entry of a request is still to be scanned by a quad. -/
def SauReq.inQuad (r : SauReq) (quad j : Nat) : Bool :=
  r.sel.contains j && !r.done.contains j && frameQuad (eFrame (r.ents.getD j 0)) == quad

/-- Whether a quad of the stack may scan entry `j` of a request now: requests in the order of their arrival, barrels in
list order (R287, R300). -/
def State.quadTurn (s : State) (r : SauReq) (j : Nat) : Bool :=
  let quad := frameQuad (eFrame (r.ents.getD j 0))
  (List.range j).all (fun i => !r.inQuad quad i)
    && (s.sau.takeWhile fun q => q.tag != r.tag).all fun q =>
      !(q.queued && aStack q.desc == aStack r.desc) || (q.begun && (List.range (aNb q.desc)).all fun i => !q.inQuad quad i)

/-- An entry is scanned, or takes the status it has without a scan. -/
def State.scanEntry (s : State) (r : SauReq) (j : Nat) : State :=
  let d := r.desc
  let e := r.ents.getD j 0
  let st := s.entryStatus d e
  if st ≠ 0 then s.setSau r.tag fun r => r.finish j st (sameRecs d (emptyRec d (eBidx e) st))
  else
    let base := s.frameBase (eFrame e)
    let rs := scanRanges d base (eNtok e)
    let x := rs.foldl (fun (x : State × Bool) (y : Nat × Nat) => State.scanRange x y.1 y.2) (s, false)
    let t := (x.1.bump 0x5100 0x11 1).bump 0x5100 0x13 (chunkBytes rs)
    if x.2 then t.setSau r.tag fun r => r.finish j 0x0B (sameRecs d (emptyRec d (eBidx e) 0x0B))
    else
      let ks := s.barrelVecs d base 0 0xF000 (eNtok e)
      let vs := s.barrelVecs d base 0x7800 0xF400 (eNtok e)
      t.peeked.setSau r.tag fun r => r.finish j 0 (r.qs.flatMap fun q => partialRec d (eBidx e) q ks vs)

/-- SAU_BARREL_FINISH (R288 to R291, R300). A stack that is out of service holds the request (R291). -/
def execSauBarrelFinish (tag j : Nat) (s : State) : Res :=
  .next (match s.sau? tag with
    | some r =>
      let k := s.stack (aStack r.desc)
      if !r.begun ∨ !r.sel.contains j ∨ r.done.contains j ∨ !s.quadTurn r j ∨ (!k.avail ∧ !k.lost) then s
      else s.scanEntry r j
    | none => s)

/-- Write the finished records at their places of the response (R289). -/
def Core.writeRecs (k : Core) (id : Nat) (d : BitVec 256) (recs : List (Nat × List Byte)) : Core :=
  let n := if aMode d = 2 then 8 else aNq d * aRec d
  recs.foldl (fun (k : Core) (x : Nat × List Byte) => k.storeItem id (aRaddr d + n * x.1) x.2) k

/-- SAU_RESPONSE_ARRIVAL: the last record of a request is written and its item arrives; an error status raises
`SAU_BARREL` against the kernel (R296, R301). -/
def execSauResponseArrival (tag : Nat) (s : State) : Res :=
  .next (match s.sau? tag with
    | some r =>
      if !r.begun ∨ r.lost ∨ r.done.length < aNb r.desc then s
      else
        let t := (s.dropSau tag).bump 0x5100 0x10 1
        if !(s.core r.core).items.any (·.id == r.item) then t
        else
          let t := (t.fresh r.core).onCoreState r.core fun k => (k.writeRecs r.item r.desc r.recs).itemBack r.item
          match r.bad with
          | some (j, st) =>
            ({ t.sticky 0x5100 1 1 with seq := { (t.sticky 0x5100 1 1).seq with
              sauBad := t.seq.sauBad ++ [(r.core, aTag r.desc % 4096, st)] } } : State).coreFault r.core 0x2541
              (j + 256 * st + 2 ^ 16 * aTag r.desc)
          | none => t
    | none => s)

/-- The self-check of an SAU: one that fails is out of service, and R300 names no way back. -/
def State.sauCheck (s : State) (stack : Nat) (ok : Bool) : State :=
  if ok || (s.stack stack).sauDown then s
  else (((s.onStack stack fun k => { k with sauDown := true }).void 3).sticky 0x5100 1 0).report 0x1542 3 (32 * stack)

end Sys2Proof.Machine
end

