-- ==== Sys2Proof/Machine/SeqBase.lean ====
section
/-!
DEFINITION. Machine/SeqBase.lean: what the units share of the sequence engine (chapter 12): table entries, frames and the
directory, barrel moves, building a step, the retry of a step, and sequences that leave.
-/

namespace Sys2Proof.Machine

/-! ### Entries (R305, R306) -/

/-- The entry of a slot. -/
def State.entry (s : State) (slot : Nat) : Entry := get s.seq.table slot Entry.reset
/-- Replace the entry of a slot. -/
def State.setEntry (s : State) (slot : Nat) (e : Entry) : State := { s with seq := { s.seq with table := put s.seq.table slot e } }
/-- Change the entry of a slot. -/
def State.onEntry (s : State) (slot : Nat) (f : Entry → Entry) : State := s.setEntry slot (f (s.entry slot))
/-- The handle of a slot: generation and slot (R305). -/
def State.handle (s : State) (slot : Nat) : Nat := (s.entry slot).gen.toNat * 2 ^ 12 + slot

/-- The code of STATE. -/
def SeqState.code : SeqState → Nat
  | .free => 0
  | .prefill => 1
  | .decode => 2
  | .parked => 3
  | .spilled => 4
  | .leaving => 5
  | .importing => 6
/-- The STATE of a code. -/
def SeqState.ofCode : Nat → SeqState
  | 1 => .prefill
  | 2 => .decode
  | 3 => .parked
  | 4 => .spilled
  | 5 => .leaving
  | 6 => .importing
  | _ => .free

/-- Fields laid one above the other, the lowest first, each with its width. -/
def packBits : List (Nat × Nat) → Nat
  | [] => 0
  | (w, v) :: r => v % 2 ^ w + 2 ^ w * packBits r

/-- The 64 bytes of an entry (R306). -/
def Entry.bytes (e : Entry) (slot : Nat) : List Byte :=
  leBytes (packBits [(12, slot), (4, 0), (4, e.st.code), (16, e.gen.toNat), (14, 0), (7, e.nodes.toNat), (1, b2n e.racked),
    (2, e.prio.toNat), (6, e.part.toNat), (10, e.ctx.toNat), (12, e.queue.toNat), (16, e.fence.toNat), (16, e.err.toNat),
    (16, e.rows.toNat), (24, e.lasttok.toNat), (32, e.steps.toNat), (32, e.sealpos.toNat), (32, e.pos.toNat),
    (32, e.pfill.toNat), (32, e.maxpos.toNat), (16, e.buddy.toNat), (48, e.addr.toNat), (64, e.fval.toNat),
    (64, e.seed.toNat)]) 64

/-- The entry that 64 bytes hold (R306). -/
def Entry.ofBytes (d : List Byte) : Entry :=
  let v := num8 d 0 64
  { Entry.reset with
    seed := BitVec.ofNat 64 (bits v 511 448), fval := BitVec.ofNat 64 (bits v 447 384), addr := BitVec.ofNat 48 (bits v 383 336)
    buddy := BitVec.ofNat 16 (bits v 335 320), maxpos := BitVec.ofNat 32 (bits v 319 288)
    pfill := BitVec.ofNat 32 (bits v 287 256), pos := BitVec.ofNat 32 (bits v 255 224)
    sealpos := BitVec.ofNat 32 (bits v 223 192), steps := BitVec.ofNat 32 (bits v 191 160)
    lasttok := BitVec.ofNat 24 (bits v 159 136), rows := BitVec.ofNat 16 (bits v 135 120), err := BitVec.ofNat 16 (bits v 119 104)
    fence := BitVec.ofNat 16 (bits v 103 88), queue := BitVec.ofNat 12 (bits v 87 76), ctx := BitVec.ofNat 10 (bits v 75 66)
    part := BitVec.ofNat 6 (bits v 65 60), prio := BitVec.ofNat 2 (bits v 59 58), racked := bit v 57
    nodes := BitVec.ofNat 7 (bits v 56 50), gen := BitVec.ofNat 16 (bits v 35 20), st := SeqState.ofCode (bits v 19 16) }

/-- The 576-byte rack record: the entry and its pending tree (R376). -/
def State.rackRecord (s : State) (slot : Nat) : List Byte :=
  (s.entry slot).bytes slot ++ slice ((s.entry slot).tree.flatMap fun w => leBytes w.toNat 8) 0 512

/-- Sequences that a partition holds. -/
def State.heldBy (s : State) (part : Nat) : Nat :=
  (s.seq.table.filter fun x => x.2.st != .free && x.2.part.toNat == part).length

/-! ### Bytes that the engine reads and writes (R311, R317, R324) -/

/-- The lines under a byte range. -/
def linesOf (pa n : Nat) : List Nat := (List.range ((pa % 128 + n + 127) / 128)).map (pa / 128 + ·)

/-- An access of an engine to a line is counted under a class (R195). -/
def State.lookAs (s : State) (cls l : Nat) : State := if (s.cellar.line? l).isSome then (s.tally 0 cls).tally 1 cls else s.tally 0 cls
/-- An access without a class of its own is counted under c7 (R195; assumption 98). -/
def State.engineLook (s : State) (l : Nat) : State := s.lookAs 7 l

/-- An engine reads lines: the state with its accesses counted. -/
def State.engineReads (s : State) (pa n : Nat) : State := (linesOf pa n).foldl (fun (t : State) l => (t.decodeLine l).engineLook l) s

/-- An engine reads lines, of which the companion may own some: those are asked for first, and the read waits for them
(R214). -/
def State.whenShared (s : State) (ls : List Nat) (t : State) : State :=
  let own := ls.filter fun l => match s.cellar.line? l with | some x => x.dir == .dO | none => false
  if own.isEmpty ∨ s.coh.dead then t
  else own.foldl (fun (t : State) l => if (t.txn? l).isSome then t else t.snoop l true none false) s

/-- An engine writes bytes of a line that the companion may hold: its copy is asked back, and data that comes back does not
replace the bytes written (R214; assumption 99). -/
def State.askCopy (s : State) (l mask : Nat) : State :=
  match s.cellar.line? l with
  | some x =>
    whenever (x.dir != .di && !s.coh.dead) s
      ((if (s.txn? l).isSome then s else s.snoop l false none false).setTxn l fun t => { t with mine := t.mine ||| mask })
  | none => s

/-- An engine writes bytes within one line, under a class and for an agent that may release: the copy at the home and HBM, with
the parity of a barrel; a whole line clears poison (R170, R214, R220, R262). -/
def State.putLineAs (s : State) (cls : Nat) (w : Party) (rsc : Option Nat) (pa : Nat) (d : List Byte) : State :=
  let l := pa / 128
  let o := pa % 128
  let mask := (2 ^ d.length - 1) * 2 ^ o
  let s := (((s.decodeLine l).lookAs cls l).askCopy l mask).wrote pa d.length w rsc
  let sa := s.store (128 * l)
  let old := s.peek sa 128
  let t := ({ s with cellar := s.cellar.setLine l fun x =>
    { x.regen mask with data := patch x.data o d, poison := x.poison && d.length != 128 } }).writeLine l
    mask (slice (List.replicate o 0 ++ d) 0 128) false
  (t.parityOf 0 l (xorBytes old (t.peek sa 128))).foldl (fun (t : State) (p : ParUp) =>
    whenever (t.channelUp (t.place p.pa).1) t (t.applyParity p)) t

/-- The sequence engine writes bytes within one line. -/
def State.putLine (s : State) (pa : Nat) (d : List Byte) : State := s.putLineAs 7 .engine none pa d

/-- The engine writes bytes at a physical address. -/
def State.putBytes (s : State) (pa : Nat) (d : List Byte) : State :=
  (List.range ((pa % 128 + d.length + 127) / 128)).foldl (fun (t : State) i =>
    let a := if i = 0 then pa else 128 * (pa / 128 + i)
    let stop := 128 * (pa / 128 + i + 1)
    t.putLine a ((d.drop (a - pa)).take (stop - a))) s

/-- The engine reads bytes at a physical address, and whether any is poisoned. -/
def State.getBytes (s : State) (pa n : Nat) : List Byte × Bool :=
  (List.range ((pa % 128 + n + 127) / 128)).foldl (fun (r : List Byte × Bool) i =>
    let a := if i = 0 then pa else 128 * (pa / 128 + i)
    let x := s.physRead a (min (128 * (pa / 128 + i + 1)) (pa + n) - a)
    (r.1 ++ x.1, r.2 || x.2)) ([], false)

/-! ### Frames and the directory (R311, R312) -/

/-- TPB of the active plan. -/
def Plan.tpb (p : Plan) : Nat := tpbOf p.dsel p.fmt
/-- The address of a directory entry (R311). -/
def Plan.dirAt (p : Plan) (slot row k : Nat) : Nat := p.dirBase + ((slot * p.dirRows + row) * p.bps + k) * 4

/-- Whether a frame is free and may be allocated. -/
def State.frameFree (s : State) (f : Nat) : Bool := s.usable f && (find? s.seq.frames f).isNone

/-- The first number from `h` on, of `n` tried, that satisfies `p`. -/
def firstWhere (p : Nat → Bool) (h : Nat) : Nat → Option Nat
  | 0 => none
  | n + 1 => if p h then some h else firstWhere p (h + 1) n

/-- The frame of stack `t` with upper bits `h` (R259). -/
def frameOf (t h : Nat) : Nat := 16 * h + (t ^^^ frameStack (16 * h))

/-- The lowest free frame of a stack (R312). -/
def State.lowestFree (s : State) (t : Nat) : Option Nat :=
  (firstWhere (fun h => s.frameFree (frameOf t h)) 0 ((s.frameCount + 15) / 16)).map (frameOf t)

/-- The frame for barrel `k` of a row: on stack (s + r × BPS + k) mod 16, or on the next stack that can be reached and has
one (R312, R314). -/
def State.frameFor (s : State) (bps slot row k : Nat) : Option Nat :=
  ((List.range 16).map fun i => (slot + row * bps + k + i) % 16).findSome? fun t =>
    if s.stackUp t then s.lowestFree t else none

/-- Frames in the free list. -/
def State.freeFrames (s : State) : Nat :=
  if s.hbm.spares.isEmpty && !s.hbm.parity then s.frameCount - s.seq.frames.length
  else ((List.range s.frameCount).filter s.frameFree).length
/-- Frames that a partition's sequences hold, and those that a restore keeps for it (R312, R452). -/
def State.framesHeld (s : State) (part : Nat) : Nat :=
  (s.seq.frames.filter fun x => (if 4096 ≤ x.2.1 then s.od 0x7100 3 else (s.entry x.2.1).part.toNat) == part).length

/-- The minima of partitions as far as `n` frames honour them, in ascending partition ID (R440). -/
def honoured : Nat → List (Nat × Part) → List (Nat × Nat)
  | _, [] => []
  | n, x :: r => (x.1, min n x.2.barrelMin) :: honoured (n - x.2.barrelMin) r

/-- Whether a partition may draw `n` frames: its own minimum first, then the shared pool beyond the honoured minima of the others
(R312, R440). -/
def State.mayDraw (s : State) (part n : Nat) : Bool :=
  s.parts.parts.all (fun x => x.2.barrelMin == 0) ||
    decide (n + sumN (((honoured s.usableFrames s.parts.parts).filter fun x => x.1 != part).map fun x => x.2 - s.framesHeld x.1)
      ≤ s.freeFrames)

/-- The MAP frames of barrels `k0` on of a row of a racked sequence (R352, R374). -/
def State.sendMap (s : State) (dst slot row k0 : Nat) (frames : List Nat) : State :=
  (List.range ((frames.length + 507) / 508)).foldl (fun (t : State) i =>
    let fs := (frames.drop (508 * i)).take 508
    let d := rackId s.modId slot (s.entry slot).gen.toNat ++ leBytes row 4 ++ leBytes (k0 + 508 * i) 4
      ++ fs.flatMap fun f => leBytes f 4
    t.stream 7 dst 3 0 (slice d 0 ((d.length + 7) / 8 * 8))) s

/-- A frame is allocated: it belongs to the barrel, and the directory names it; to a migration it is dirty (R311, R448). -/
def State.takeFrame (s : State) (p : Plan) (slot row k f : Nat) : State :=
  (({ s with seq := { s.seq with frames := put s.seq.frames f (slot, row, k) } }).putBytes (p.dirAt slot row k)
    (leBytes (2 ^ 31 + f) 4)).dirtied (s.hbm.bbase + 2 ^ 16 * f)

/-- Barrels `k` to BPS − 1 of a row, with `n` of them still to place: the state and the frames taken; none where one cannot
be placed. -/
def State.takeRow (s : State) (p : Plan) (slot row : Nat) : Nat → Option (State × List Nat)
  | 0 => some (s, [])
  | n + 1 => match s.takeRow p slot row n with
    | none => none
    | some (t, fs) => match t.frameFor p.bps slot row n with
      | some f => some (t.takeFrame p slot row n f, fs ++ [f])
      | none => none

/-- A whole row is allocated, or nothing (R312, R315). -/
def State.allocRow (s : State) (slot row : Nat) : Option State :=
  match s.host.plan with
  | none => none
  | some p =>
    if s.seq.frames.any fun x => x.2.1 == slot && x.2.2.1 == row then some s
    else if p.dirRows ≤ row ∨ !s.mayDraw (s.entry slot).part.toNat p.bps then none
    else match s.takeRow p slot row p.bps with
      | none => none
      | some (t, fs) =>
        let t := t.onEntry slot fun e => { e with rows := BitVec.ofNat 16 (max e.rows.toNat (row + 1)) }
        let e := s.entry slot
        some (if e.racked then t.sendMap e.buddy.toNat slot row 0 fs else t)

/-- Rows 0 to `n` − 1 of a slot are allocated where they are not. -/
def State.allocRows (s : State) (slot : Nat) : Nat → Option State
  | 0 => some s
  | n + 1 => (s.allocRows slot n).bind fun t => t.allocRow slot n

/-- The frames of a slot, by row and barrel. -/
def State.framesOf (s : State) (slot : Nat) : List (Nat × (Nat × Nat × Nat)) := s.seq.frames.filter fun x => x.2.1 == slot

/-- A sequence's frames return to the free list, and its directory entries lose VALID (R312). -/
def State.releaseFrames (s : State) (slot : Nat) : State :=
  let fs := s.framesOf slot
  let t := match s.host.plan with
    | some p => fs.foldl (fun (t : State) (x : Nat × (Nat × Nat × Nat)) => t.putBytes (p.dirAt slot x.2.2.1 x.2.2.2) (leBytes 0 4)) s
    | none => s
  let t := t.tossLines fun x => fs.any fun (f : Nat × (Nat × Nat × Nat)) =>
    decide ((128 * x.addr - s.hbm.bbase) / 2 ^ 16 = f.1 ∧ s.hbm.bbase ≤ 128 * x.addr)
  { t with seq := { t.seq with frames := t.seq.frames.filter fun x => x.2.1 != slot } }

/-! ### Sequences that leave (R325, R334, R377) -/

/-- The slot returns to FREE and its generation rises; its rack is closed, and what was under way for it ends (R305, R325,
R377). -/
def State.freeSlot (s : State) (slot : Nat) : State :=
  let e := s.entry slot
  let t := s.releaseFrames slot
  let t := if e.racked then t.stream 7 e.buddy.toNat 4 0 (rackId s.modId slot e.gen.toNat) else t
  let t := { t with
    seq := { t.seq with
      table := put t.seq.table slot { Entry.reset with gen := e.gen + 1, err := e.err }
      spills := t.seq.spills.filter fun x => x.1 != slot
      resumes := t.seq.resumes.filter fun x => x.1 != slot
      exports := t.seq.exports.filter fun x => x.1 != slot }
    span := { t.span with
      opens := t.span.opens.filter fun x => x.1 != slot
      seals := t.span.seals.filter fun x => x.2.2.1 != slot
      imports := t.span.imports.filter fun x => x.1 != slot
      xmap := t.span.xmap.filter fun x => x.1 != slot
      returns := t.span.returns.filter fun x => x.1 != slot } }
  [0x05, 0x06, 0x08, 0x09].foldl (fun (t : State) o => t.settle' o slot e.err.toNat) t

/-- Reserved completion entries are returned (R420). -/
def State.unreserve (s : State) (q n : Nat) : State := s.onQueue q fun x => { x with resv := x.resv - n }

/-- A step record of a sequence without tokens. -/
def State.bareRec (s : State) (slot status : Nat) : StepRec :=
  let e := s.entry slot
  { StepRec.reset with
    queue := e.queue.toNat, cmdid := e.cmdid, status := status, handle := s.handle slot, pos := e.pos.toNat }

/-- The record of a sequence that leaves outside a step is posted at once, or waits for a free entry (R316, R420). -/
def State.postLate (s : State) (r : StepRec) : State :=
  if (s.queue r.queue).free = 0 then { s with seq := { s.seq with late := s.seq.late ++ [r] } }
  else (s.postStep r 0).irq r.queue

/-- FENCE is signalled with FVAL and the slot returns to FREE (R325). -/
def State.signalAndFree (s : State) (slot : Nat) : State :=
  let e := s.entry slot
  ((s.signal e.fence.toNat e.fval.toNat).freeSlot slot).freeFences.freeMems

/-- A sequence leaves with a reason and without tokens (R325, R334). -/
def State.depart (s : State) (slot status : Nat) : State :=
  let t := s.onEntry slot fun e => { e with err := BitVec.ofNat 16 status, st := .leaving }
  (t.postLate (t.bareRec slot status)).signalAndFree slot

/-- A record that was held for a seal is posted, and a sequence that leaves with it goes (R18, R325). -/
def State.postHeld (s : State) (h : HeldRec) : State :=
  let t := if h.late then s.postLate h.entry else (s.postStep h.entry 5).irq h.entry.queue
  if h.leave then t.signalAndFree h.slot else t

/-- A sequence leaves with a reason; where the seal of a step that it committed is unacknowledged, its leave record waits behind
the record that waits for that seal (R18, R325, R334). -/
def State.leaveWith (s : State) (slot status : Nat) : State :=
  match (s.seq.held.filter fun h => h.slot == slot).getLast? with
  | none => s.depart slot status
  | some h =>
    let t := s.onEntry slot fun e => { e with err := BitVec.ofNat 16 status, st := .leaving }
    { t with seq := { t.seq with held := t.seq.held ++
      [{ h with entry := t.bareRec slot status, leave := true, late := true }] } }

/-! ### Barrel moves (R313, R314) -/

/-- Whether a barrel must be moved: its frame lies in a spared quad or on a stack that cannot be reached. -/
def State.frameBad (s : State) (f : Nat) : Bool := s.sparedQuad f || !s.stackUp (frameStack f)
/-- Whether a sequence waits for a move (R313, R314). -/
def State.waitsMove (s : State) (slot : Nat) : Bool := (s.framesOf slot).any fun x => s.frameBad x.1

/-- The lines of a frame are read for a move: the state, whether any line is lost, and whether any cannot be read now. -/
def State.readFrame (s : State) (f : Nat) : State × Bool × Bool :=
  (List.range 512).foldl (fun (r : State × Bool × Bool) i =>
    match r.1.readLine (s.frameBase f + 128 * i) with
    | .got t p => (t, r.2.1 || p, r.2.2)
    | .held => (r.1, r.2.1, true)) (s, false, false)

/-- The engine asks the buddy for a sequence's KV: the slot becomes IMPORTING (R313, R380). -/
def State.fetchRack (s : State) (slot buddy origin : Nat) (gen : Nat) : State :=
  ({ s with span := { s.span with imports := s.span.imports ++ [(slot, buddy, origin)] } }.onEntry slot fun e =>
    { e with st := .importing }).stream 7 buddy 5 0 (rackId origin slot gen ++ leBytes s.modId 2 ++ leBytes 0 6)

/-- A barrel that cannot be rebuilt: a racked sequence fetches its KV from its buddy, of which it has none before its first
commit; any other leaves with KV_LOST (R313). -/
def State.lostBarrel (s : State) (slot : Nat) : State :=
  let e := s.entry slot
  if e.racked then
    let t := s.releaseFrames slot
    let t := t.onEntry slot fun e => { e with rows := 0 }
    if e.pos = 0 then t
    else ({ t with span := { t.span with returns := put t.span.returns slot e.st } } : State).fetchRack slot e.buddy.toNat s.modId
      e.gen.toNat
  else if e.cancelReq && e.leaveErr == BitVec.ofNat 16 stKvLost then s
  else ((s.onEntry slot fun e => { e with cancelReq := true, leaveErr := BitVec.ofNat 16 stKvLost }).sticky 0x7200 1 4).report 0x1603
    7 slot

/-- A barrel is moved: read, rebuilt where it must be, written to a new frame which the directory then names (R313). -/
def State.moveBarrel (s : State) (slot row k : Nat) : State :=
  match s.host.plan, (s.framesOf slot).find? fun x => x.2.2 == (row, k) with
  | some p, some x =>
    let f := x.1
    let e := s.entry slot
    let r := s.readFrame f
    if r.2.2 then (if e.racked then s.lostBarrel slot else s)
    else if r.2.1 then r.1.lostBarrel slot
    else match s.frameFor p.bps slot row k with
      | none => s
      | some g =>
        let d := s.peek (s.frameBase f) 65536
        let t := r.1.takeFrame p slot row k g
        let t := { t with seq := { t.seq with frames := drop t.seq.frames f } }.tossLines fun x =>
          decide (s.frameBase f ≤ 128 * x.addr ∧ 128 * x.addr < s.frameBase f + 65536)
        let t := if e.racked then t.sendMap e.buddy.toNat slot row k [g] else t
        (t.putBytes (t.frameBase g) d).void 2
  | _, _ => s

/-! ### The work list (R318, R319) -/

/-- The plan's templates in force (R330). -/
def State.templates (s : State) : List Nat :=
  match s.host.plan, s.seq.fallback with
  | some p, none => p.templates
  | some p, some d => p.fbTemplates.getD d []
  | none, _ => []

/-- Tokens of a step. -/
def tokensOf (gs : List Grant) : Nat := sumN (gs.map (·.n))
/-- Prefill tokens of a step. -/
def prefillOf (gs : List Grant) : Nat := sumN ((gs.filter (·.kind == 1)).map (·.n))
/-- Draft nodes of a step, roots included (R306, R319). -/
def draftOf (gs : List Grant) : Nat := sumN ((gs.filter (·.kind == 2)).map (·.n))
/-- Decode sequences of a step, those with trees included. -/
def decodeOf (gs : List Grant) : Nat := (gs.filter (·.kind != 1)).length

/-- Bytes of the batch table of a step area. -/
def batchLen : Nat := 32 * 16384
/-- Bytes of the sequence list of a step area. -/
def listLen : Nat := 32 * 4096
/-- The base of the step area of a step: the two areas alternate (R317). -/
def Plan.stepArea (p : Plan) (num : Nat) : Nat := p.area + num % 2 * 2 ^ 24
/-- The base of its result area. -/
def Plan.resultArea (p : Plan) (num : Nat) : Nat := p.stepArea num + batchLen + listLen

/-- What a patch code puts in an argument word (R319). -/
def patchArg (p : Plan) (num : Nat) (gs : List Grant) (first count code value : Nat) : Nat :=
  match code with
  | 0 => value
  | 1 => num
  | 2 => tokensOf gs
  | 3 => gs.length
  | 4 => decodeOf gs
  | 5 => prefillOf gs
  | 6 => draftOf gs
  | 7 => p.stepArea num
  | 8 => p.stepArea num + batchLen
  | 9 => p.resultArea num
  | 10 => first
  | _ => count

/-- One work-list entry from a template (R318, R319). -/
def emitEntry (p : Plan) (num : Nat) (gs : List Grant) (t ctx part first count : Nat) : WlEntry :=
  { WlEntry.reset with
    kid := BitVec.ofNat 32 (bits t 511 480), entry := BitVec.ofNat 32 (bits t 479 448), last := bits t 447 431
    first := bits t 430 414, watchdog := bits t 413 397, ctx := ctx, part := part
    draft := t.testBit 380 || (t.testBit 345 && draftOf gs != 0)
    args := (List.range 8).map fun i =>
      BitVec.ofNat 64 (patchArg p num gs first count (bits t (4 * i + 351) (4 * i + 348)) (bits t (64 * i + 575) (64 * i + 512))) }

/-- Whether a template's condition holds (R318). -/
def condHolds (gs : List Grant) (cond : Nat) : Bool :=
  match cond with
  | 0 => true
  | 1 => prefillOf gs != 0
  | 2 => draftOf gs != 0
  | _ => decodeOf gs != 0

/-- The entries of one template: one, or one for each tenant context of the step (R318, R319). -/
def State.expand (s : State) (p : Plan) (num : Nat) (gs : List Grant) (t : Nat) : List WlEntry :=
  if !condHolds gs (bits t 347 346) then []
  else if t.testBit 344 then
    ((dedup (gs.map (·.ctx))).filter fun c => (s.ctx c).kind == 0).map fun c =>
      let mine := gs.filter (·.ctx == c)
      emitEntry p num gs t c (s.ctx c).part ((gs.findIdx? (·.ctx == c)).getD 0) mine.length
  else [emitEntry p num gs t p.model (s.ctx p.model).part 0 0]

/-- The work list of a step (R319). -/
def State.workList (s : State) (num : Nat) (gs : List Grant) : List WlEntry :=
  match s.host.plan with
  | some p => s.templates.flatMap fun t => s.expand p num gs t
  | none => []

/-- Kernels of a work list. -/
def kernelsOf (wl : List WlEntry) : Nat := sumN (wl.map fun e => min e.last 79999 + 1 - e.first)

/-! ### The tables of a step (R317, R321, R323) -/

/-- U of a batch row: bits [63:0] of SM3 over SEED, POSITION, NODE and a zero byte (R321). -/
def drawOf (seed : BitVec 64) (position node : Nat) : List Byte :=
  (sm3 (leBytes seed.toNat 8 ++ leBytes position 4 ++ leBytes node 1 ++ [0])).take 8

/-- The depth of node `i` of a tree, by the parents of the nodes before it. -/
def depthOf (parents : List Nat) (i : Nat) : Nat :=
  ((List.range (i + 1)).foldl (fun (ds : List Nat) j => ds ++ [if j = 0 then 0 else ds.getD (parents.getD j 0) 0 + 1]) []).getD i 0

/-- The batch rows of the `j`-th sequence of a step (R317, R323). -/
def State.batchRows (s : State) (j : Nat) (g : Grant) : List Byte :=
  (List.range g.n).flatMap fun i =>
    let tree := g.kind == 2
    let pos := if tree then g.pos + depthOf g.parents i else g.pos + i
    let node := if tree then i else 0
    leBytes (g.toks.getD i 0).toNat 4 ++ leBytes pos 4 ++ leBytes (g.pos + i) 4 ++ leBytes j 2 ++ leBytes node 1
      ++ leBytes (if tree then (if i = 0 then 0xFF else g.parents.getD i 0) else 0xFF) 1 ++ drawOf (s.entry g.slot).seed pos node
      ++ leBytes 0 8

/-- The sequence-list entry of a sequence whose batch rows begin at `first` (R317). -/
def listEntry (p : Plan) (first : Nat) (g : Grant) : List Byte :=
  leBytes (g.gen * 2 ^ 12 + g.slot) 4 ++ leBytes g.pos 4 ++ leBytes first 4 ++ leBytes g.n 2 ++ leBytes g.kind 1 ++ leBytes 0 1
    ++ leBytes (p.dirAt g.slot 0 0) 8 ++ leBytes (g.ctx + 2 ^ 10 * g.part) 2 ++ leBytes 0 6

/-- The batch table and the sequence list of a step. -/
def State.stepTables (s : State) (p : Plan) (gs : List Grant) : List Byte × List Byte :=
  let rs := (withPos gs).map fun x => s.batchRows x.1 x.2
  let firsts := (gs.foldl (fun (r : List Nat × Nat) g => (r.1 ++ [r.2], r.2 + g.n)) ([], 0)).1
  (rs.flatten, ((firsts.zip gs).map fun x => listEntry p x.1 x.2).flatten)

/-- A step is built: its tables are written and its work list expanded (R317, R319, R320). -/
def State.buildStep (s : State) (r : StepRun) (gs : List Grant) : State × StepRun :=
  match s.host.plan with
  | none => (s, { r with grants := gs, wl := [], ready := true })
  | some p =>
    let tb := s.stepTables p gs
    ((s.putBytes (p.stepArea r.num) tb.1).putBytes (p.stepArea r.num + batchLen) tb.2,
      { r with grants := gs, wl := s.workList r.num gs, ready := true, started := [], ended := 0 })

/-! ### Stopping a step (R329, R331, R488) -/

/-- Every kernel of the step ends and is forgotten: its cores record nothing, and its requests run on without a taker. -/
def State.stopKernels (s : State) : State :=
  let t := s.killKernels fun _ => true
  { t with
    cores := t.cores.map fun (x : Nat × Core) =>
      (x.1, { x.2 with run := false, stopping := false, unposted := false, redq := [] })
    reqs := t.reqs.map fun r => if r.agent.core?.isSome then { r with agent := .engine } else r
    sau := [] }

/-- The attempt is given up: an empty commit list goes to every cask, and what follows it is noted (R329, R488). -/
def State.giveUpStep (s : State) (why : Nat) : State :=
  let t := s.stopKernels.multicast (match s.seq.cur with | some r => r.num | none => 0)
  { t with
    seq := { t.seq with phase := .committing, retrying := why, commits := [], results := [], sauBad := [] }
    cellar := { t.cellar with kept := [], reported := [] } }

/-- Whether a step is in flight. -/
def State.stepping (s : State) : Bool :=
  match s.seq.phase with
  | .running => true
  | .committing => true
  | .committed => true
  | _ => false

/-- The step in flight is retried from the last commit (R329). -/
def State.retryStep (s : State) : State :=
  whenever s.stepping s
    (if s.seq.retrying = 0 then ((s.giveUpStep 1).bumpLane 0x7200 0x13 5 1).void 1 else s)

/-- `MODEL_FAULT`: the step is abandoned, and a lost weight asks for a reload (R486, R488). -/
def State.modelFault (s : State) (code : Nat) : State :=
  let m := match s.host.plan with | some p => p.model | none => 0
  let t := ({ s with
    faults := { s.faults with modelFault := some (BitVec.ofNat 16 code), reload := s.faults.reload || code == 0x250E }
    seq := { s.seq with retries := 0 } }).reportCtx 0x2008 m (s.ctx m).part 0 0
  if s.stepping then (t.giveUpStep 2).void 1
  else { t with faults := { t.faults with modelFault := none } }

/-- An F2 fault against the model context: the step is retried up to MODEL_RETRY times, and then given up; a lost weight is
never retried (R331, R486). -/
def State.modelF2 (s : State) (code : Nat) : State :=
  if code = 0x250E then s.modelFault code
  else if !s.stepping || s.seq.retrying != 0 then s
  else if s.seq.retries < s.od 0x7200 0xA then
    { s with seq := { s.seq with retries := s.seq.retries + 1 } }.retryStep
  else s.modelFault code

/-! ### Retirement of cores (R466, R515) -/

/-- Whether the plot router of a physical core is dead. -/
def State.deadRouter (s : State) (die phys : Nat) : Bool := s.trellis.deadR.contains (plotRouter die (phys / 16))

/-- The spare physical cores of a die: good, serving no logical core, and with a live router. -/
def State.spareCores (s : State) (die : Nat) : List Nat :=
  let m := s.dieMap die
  let used := (List.range 10000).map m.phys
  (List.range 10240).filter fun p => !m.bad.contains p && !used.contains p && !s.deadRouter die p

/-- The spare of greatest measured slack; the lowest plot index and core on ties (R466, R513). -/
def State.bestSpare (s : State) (die : Nat) : Option Nat :=
  (s.spareCores die).foldl (fun (b : Option Nat) p => match b with
    | some q => if Config.coreSlack s.freeCtr die q < Config.coreSlack s.freeCtr die p then some p else b
    | none => some p) none

/-- One core is retired: its logical ID goes to the best spare of its die, whose memories start at zero; a die without one
is reported (R466). -/
def State.retireCore (s : State) (c : Nat) : State :=
  let die := c / 10000
  let loc := s.coreLoc c
  let t := { s with faults := { s.faults with retiring := s.faults.retiring.filter (· != c) } }
  match s.bestSpare die with
  | none => t.report 0x3045 1 loc
  | some p =>
    let m := s.dieMap die
    let old := m.phys (c % 10000)
    let m' := { m with bad := insertUp old m.bad, moved := put (((List.range 10000).filter fun k => m.phys k != m.atBringUp k).foldl
      (fun (r : List (Nat × Nat)) k => put r k (m.phys k)) m.moved) (c % 10000) p }
    let keep := (List.range 10000).foldl (fun (r : List (Nat × Nat)) k =>
      if k = c % 10000 then r else if m'.atBringUp k = m.phys k then r else put r k (m.phys k)) m'.moved
    ((({ t with bring := { t.bring with maps := put t.bring.maps die { m' with moved := keep } } } : State).onCoreState c fun k =>
      { k with ldst := [], ecc := [], ceTimes := [], rcache := [], icache := [], prevCtx := none }).drew).recorded.report 0x1007 1 loc

/-- Every core marked for retirement is retired (R466). -/
def State.retireCores (s : State) : State := s.faults.retiring.foldl State.retireCore s

end Sys2Proof.Machine
end

