-- ==== Sys2Proof/Machine/FaultBase.lean ====
section
/-!
DEFINITION. Machine/FaultBase.lean: what the units share of fault handling (chapter 17): records, `FAULT_N`, the safe state,
the loss of a compute die and the loss of a job member.
-/

namespace Sys2Proof.Machine

/-! ### Fault codes and records (R10, R457, R460) -/

/-- The level of a fault code. -/
def levelOf (code : Nat) : Nat := code / 4096
/-- The source of a fault code. -/
def sourceOf (code : Nat) : Nat := code / 64 % 64
/-- The sources that are not reserved (R457). -/
def faultSources : List Nat :=
  [0, 1, 2, 3, 4, 5, 6, 7, 8, 0x10, 0x12, 0x14, 0x15, 0x18, 0x1A, 0x1B, 0x1C, 0x1D, 0x20, 0x21, 0x22]

/-- The 32 bytes of a record (R460). -/
def Rec.bytes (r : Rec) : List Byte :=
  leBytes (packBits [(24, 0), (20, r.loc.toNat), (4, r.lockind.toNat), (6, r.part.toNat), (10, r.ctx.toNat), (1, b2n r.ack),
    (1, b2n r.unh), (1, b2n r.esc), (1, b2n r.inj), (4, 0), (16, r.repeats.toNat), (12, r.cause.toNat), (12, r.num.toNat),
    (16, r.code.toNat), (64, r.time.toNat), (64, r.detail.toNat)]) 32

/-- `FAULT_N` follows its conditions (R465). -/
def State.refreshN (s : State) : State :=
  { s with faults := { s.faults with
    faultN := s.faults.safe || s.faults.hwLatch || (s.faults.diesOut.any fun d => decide (d < 8)) || s.faults.replace
      || s.faults.recs.any fun r => r.unh && !r.ack } }

/-- The replacement flag is set (R465). -/
def State.replaceFlag (s : State) : State :=
  { s.sticky 0x3100 1 1 with faults := { (s.sticky 0x3100 1 1).faults with replace := true } }.recorded

/-- Codes that set the replacement flag: `DIE_LOST`, `DIE_NO_SPARE`, `IO_DIE_LOST`, `HBM_STACK_LOST` and `FC_LATCH`. -/
def replaceCodes : List Nat := [0x3044, 0x3045, 0x4048, 0x150B, 0x400A]

/-- The dies that a location belongs to: of its core, cask, channel, edge, die or router (R177, R255, R461). -/
def diesOfLoc (lockind loc : Nat) : List Nat :=
  match lockind with
  | 1 => [loc / 2 ^ 14]
  | 2 => [loc % 8]
  | 3 => [loc / 2 ^ 6]
  | 4 => edgeEnds (loc % 16)
  | 9 => (routerDie (loc / 2 ^ 6, loc % 2 ^ 6)).toList
  | _ => []

/-- The F3 record of the die to whose flow a report of its edges, routers, casks, stacks or cores belongs (R462). -/
def State.dieCause (s : State) (r : Report) : Option (BitVec 12) :=
  ((s.faults.recs.filter fun x => levelOf x.code.toNat == 3 && x.lockind == 6 && s.faults.diesOut.contains x.loc.toNat
    && (diesOfLoc r.lockind r.loc).contains x.loc.toNat).getLast?).map (·.num)

/-- The ring of records takes one more: over the oldest acknowledged record, or over the oldest of all (R463). -/
def State.pushRec (s : State) (r : Rec) : State :=
  let recs := s.faults.recs
  if recs.length < 1024 then { s with faults := { s.faults with recs := recs ++ [r] } }
  else match recs.findIdx? (·.ack) with
    | some i => { s with faults := { s.faults with recs := recs.eraseIdx i ++ [r] } }
    | none => ({ s with faults := { s.faults with recs := recs.drop 1 ++ [r] } }.bump 0x3100 0x40 1).sticky 0x3100 1 7

/-- A record at or above NOTICE_LEVEL is sent on CAN FD (R577). -/
def State.canNotice (s : State) (level : Nat) (d : List Byte) : State :=
  whenever (decide (s.od 0x1100 0x23 ≤ level ∧ 5 ≤ s.bring.row) && !s.dict.silent && !s.dict.busOff) s
    ({ s with dict := { s.dict with beats := s.dict.beats ++ [d] } }.bumpLane 0x1100 0x27 3 1)

/-- A fault of level F1 or F3, or an F2 fault against the model context, makes the step void (R392). -/
def State.voidFor (s : State) (r : Report) : State :=
  let level := levelOf r.code.toNat
  whenever (level == 1 || decide (3 ≤ level) || (level == 2 && r.model)) s (s.void 0)

/-- A record is opened: numbered, kept, written to flash from F3 up, and noticed from F1 up; its timer starts where its level
has one, and its events void the step (R392, R460 to R465). -/
def State.openRecord (s : State) (r : Report) (cause : Option (BitVec 12)) (esc : Bool := false) : State :=
  let num := s.faults.lastNum + 1
  let level := levelOf r.code.toNat
  let because := (cause.orElse fun _ => s.dieCause r).getD num
  let x : Rec := { Rec.reset with
    detail := r.detail, time := r.time, code := r.code, num := num, cause := because
    inj := r.inj || s.faults.recs.any fun y => y.num == because && y.inj
    esc := esc, ctx := BitVec.ofNat 10 r.ctx, part := BitVec.ofNat 6 r.part, lockind := BitVec.ofNat 4 r.lockind
    loc := BitVec.ofNat 20 r.loc, timer := level == 1 || level == 3 || (level == 2 && r.model), opened := s.now, model := r.model }
  let t := s.pushRec x
  let t := { t with faults := { t.faults with
    lastNum := num
    flash := if 3 ≤ level then (x.bytes :: t.faults.flash).take 64 else t.faults.flash
    lastF34 := if 3 ≤ level then s.now else t.faults.lastF34 } }
  let t := if 1 ≤ level then t.notice { Notice.reset with status := 0x0300, subj := num.toNat, body := x.bytes } else t
  let t := t.canNotice level x.bytes
  let t := t.voidFor r
  (if replaceCodes.contains r.code.toNat then t.replaceFlag else t).refreshN

/-- A record that goes to the flash log alone, without a collector to number it: its NUM is open (R463, R476, R495, R558). -/
def State.flashOnly (s : State) (code : BitVec 16) : State :=
  let n := BitVec.ofNat 12 s.freeVal.toNat
  let x : Rec := { Rec.reset with code := code, time := s.time, num := n, cause := n }
  { s.drew with faults := { s.faults with flash := (x.bytes :: s.faults.flash).take 64 } }

/-! ### The safe state (R468 to R471) -/

/-- The payload of a JOIN frame (R352). -/
def joinPayload (digest : List Byte) (member job : Nat) : List Byte :=
  slice digest 0 32 ++ leBytes member 2 ++ leBytes job 4 ++ leBytes 0 2

/-- F4 codes whose rules state a clearing condition of their own, or none at all: `DIE_SECOND`, `REG_PHASES_LOW`, `REFCLK_LOST`,
`DIE_OVERTEMP`, `SEC_ALARM_SAFE`, `SEC_EPOCH_SATURATED`, and those of a bring-up or boot that failed (R470, R491, R497, R500,
R503, R527, R546, R553, R559). -/
def ownClear : List Nat :=
  [0x4047, 0x4088, 0x40CB, 0x40CC, 0x4805, 0x4806, 0x4801, 0x4803, 0x4844, 0x4845, 0x4846]

/-- A JOIN frame of sub-type MEMBER_LOST is flooded (R365, R469). -/
def State.floodLost (s : State) (member : Nat) : State := s.flood 11 2 (joinPayload [] member (s.job 0))

/-- The module becomes latched (R471). -/
def State.latch (s : State) : State :=
  ({ s.sticky 0x3100 1 6 with faults := { (s.sticky 0x3100 1 6).faults with latched := true } } : State).replaceFlag

/-- Operations of sequence commands that were under way are given up: a sequence that was being imported leaves the table,
and a copy is not finished. -/
def State.dropCopies (s : State) : State :=
  let t := (s.seq.resumes.map (·.1)).foldl (fun (t : State) n => t.releaseFrames n) s
  let t := { t with seq := { t.seq with spills := [], resumes := [], exports := [] } }
  (t.span.imports.map (·.1)).foldl (fun (t : State) n => t.freeSlot n) t

/-- Commands in flight complete with `MODULE_SAFE` (R469). -/
def State.failCommands (s : State) : State :=
  let waiting := s.seq.cmdWait
  let gone := s.host.gone
  let t := s.completeHeads (fun _ _ => true) stSafe
  let t := { t with seq := { t.seq with cmdWait := [] }, host := { t.host with gone := gone.map fun x => (x.1, none) } }
  let t := waiting.foldl (fun (t : State) x => (t.postRecord x.2.2.2 1 x.2.2.1.toNat stSafe 0 0 0 0 []).irq x.2.2.2) t
  let t := gone.foldl (fun (t : State) x => match x.2 with
    | some c => (t.postRecord 0 1 c.toNat stSafe 0 0 0 0 []).irq 0
    | none => t) t
  t.dropCopies

/-- The module enters the safe state: kernels end, the step in flight is not committed, commands in flight complete with
`MODULE_SAFE`, the job is told, and the arithmetic clocks stop (R469). -/
def State.enterSafe (s : State) : State :=
  whenever (!s.faults.safe) s
    (let t := { s.sticky 0x3100 1 0 with
      faults := { (s.sticky 0x3100 1 0).faults with safe := true, svcExit := false }
      bring := { s.bring with state := if s.bring.pwrEn && s.bring.state != 8 then 9 else s.bring.state }
      power := { s.power with arith := false } }
     let t := if t.stepping then (if t.seq.retrying = 0 then t.giveUpStep 3 else t) else t.stopKernels
     let t := t.failCommands.floodLost t.modId
     (if t.od 0x3000 3 = 0 then t.latch else t).refreshN)

/-- Whether the condition of an F4 code that clears by one still holds (R491, R500, R503). -/
def State.causeHolds (s : State) (code : Nat) : Bool :=
  match code with
  | 0x4047 => decide (1 < (s.faults.diesOut.filter fun d => decide (d < 8)).length)
  | 0x40CB => s.power.holdover
  | 0x40CC => s.power.temps.any fun x => decide ((s.od 0x2200 1 : Int) < x.2 + 10)
  | _ => true

/-- An F4 cause holds the safe state until a record is acknowledged (R468, R470). -/
def State.safeCause (s : State) (row code num : Nat) : State :=
  (if s.causeHolds code then
    { s with faults := { s.faults with f4 := s.faults.f4 ++ [(row * 2 ^ 16 + code, num)] } } else s).enterSafe

/-- Causes whose condition has ended are cleared. -/
def State.dropCauses (s : State) : State :=
  { s with faults := { s.faults with f4 := s.faults.f4.filter fun x => s.causeHolds (x.1 % 2 ^ 16) } }

/-- An `FC_ESCALATED` record with CAUSE set to a record, which is marked ESC, and the safe state (R460, R464, R468). -/
def State.escalate (s : State) (row : Nat) (num : BitVec 12) : State :=
  let t := { s with faults := { s.faults with
    recs := s.faults.recs.map fun (x : Rec) => if x.num = num then { x with esc := true } else x } }
  let r : Report := { Report.reset with code := 0x4009, time := s.time }
  (({ t with faults := t.faults } : State).bump 0x3100 0x40 1 |>.openRecord r (some num)).safeCause row 0x4009 num.toNat

/-- Whether any cause holds the safe state (R468, R470). -/
def State.safeHeld (s : State) : Bool :=
  !s.faults.f4.isEmpty || s.coh.dead || s.seq.instances == 0 || s.faults.causes.contains 4

/-- Automatic exits in the last 24 h. -/
def State.exits24 (s : State) : Nat := (s.faults.exits.filter fun t => decide (s.now < t + 86400000000000)).length

/-- The module leaves the safe state: an automatic exit is counted, the notice is posted, and the arithmetic clocks run
again; a member of a job waits for it to form again (R470, R471, R473). -/
def State.leaveSafe (s : State) (service : Bool) : State :=
  let n := if service || s.faults.recovery == BitVec.allOnes 32 then s.faults.recovery else s.faults.recovery + 1
  let t := { s with
    faults := { s.faults with
      safe := false, recovery := n, svcExit := false, causes := []
      exits := if service then s.faults.exits else s.faults.exits ++ [s.now] }
    power := { s.power with arith := s.bring.pwrEn && !s.power.lossSeq && !s.faults.hwLatch }
    span := if 1 < s.members then { s.span with hold := true, tabled := false, replacing := true } else s.span }
  (t.notice { Notice.reset with status := 0x0302, subj := n.toNat, b12 := b2n service }).refreshN

/-! ### Compute dies (R490, R491) -/

/-- The physical core of its die that a location names, 16 × plot index + core (R461). -/
def physOfLoc (loc : Nat) : Nat := 16 * (20 * (loc / 2 ^ 4 % 2 ^ 5) + loc / 2 ^ 9 % 2 ^ 5) + loc % 2 ^ 4

/-- The logical core that the physical core at a location serves. -/
def State.coreOfLoc (s : State) (loc : Nat) : Option Nat :=
  let die := loc / 2 ^ 14
  ((List.range 10000).find? fun k => (s.dieMap die).phys k == physOfLoc loc).map (10000 * die + ·)

/-- What a lost forwarded clock takes with it: the packets that routers of the die hold, those held for its edges, and the
line buffers of its routers (R235, R250). -/
def State.fence (s : State) (die : Nat) : State :=
  let t := s.cut (fun g => ownerDie g == die) (edgesOf die).contains
  { t with trellis := { t.trellis with bufs := t.trellis.bufs.filter fun (b : LBuf) => ownerDie (b.gx, b.gy) != die } }

/-- A compute die is taken out of service: its edges are fenced, its stacks refresh themselves, its casks are folded, its
incomplete parity updates tear their groups, the step is retried on the fallback plan, and the F3 report is sent, where the
event has one; a second die out of service is reported as well (R250, R263, R273, R314, R330, R490, R491). -/
def State.dieOut (s : State) (die : Nat) (code : Option Nat) (inj : Bool := false) : State :=
  whenever (!s.faults.diesOut.contains die && decide (die < 8)) s
    (let second := s.faults.diesOut.any fun d => decide (d < 8)
     let fenced := (edgesOf die).filter fun e => !(edgeEnds e).any s.trellis.lost.contains
     let t := (((s.selfRefresh (2 * die)).selfRefresh (2 * die + 1)).tear die).fence die
     let t := t.fold (casksOf die)
     let t := { t with
       trellis := { t.trellis with lost := addTo t.trellis.lost die }
       faults := { t.faults with diesOut := insertUp die t.faults.diesOut, diesBack := t.faults.diesBack.filter (· != die) }
       seq := { t.seq with fallback := some (t.seq.fallback.getD die) } }
     let t := (t.retryStep.sticky 0x3100 1 2).sticky 0x6000 1 2
     let t := match code with
       | some c => t.report c 6 die 0 inj
       | none => t
     let t := fenced.foldl (fun (t : State) e => t.report 0x3488 4 e 0 inj) t
     (if second then t.report 0x4047 6 die 0 inj else t).refreshN)

/-- A compute die is declared lost: its stacks are lost with it, barrels on them are moved or ended, and the module is flagged
for replacement (R313, R314, R490). -/
def State.dieGone (s : State) (die : Nat) (inj : Bool := false) : State :=
  whenever (!s.faults.diesLost.contains die && decide (die < 8)) s
    (let t := { s with faults := { s.faults with
       diesLost := insertUp die s.faults.diesLost, diesBack := s.faults.diesBack.filter (· != die) } }
     let t := (t.onStack (2 * die) fun k => { k with lost := true }).onStack (2 * die + 1) fun k => { k with lost := true }
     ((t.sticky 0x3100 1 3).report 0x3044 6 die 0 inj).refreshN)

/-- A die event: a die that needs a second reset within 1 h of rejoining is lost at once (R490). -/
def State.dieEvent (s : State) (die code : Nat) (inj : Bool := false) : State :=
  let again := s.faults.rejoined.any fun x => x.1 == die && decide (s.now < x.2 + 3600000000000)
  let t := s.dieOut die (some code) inj
  if again && !s.faults.diesOut.contains die then t.dieGone die inj else t

/-! ### Readiness -/

/-- Whether the module has declared itself ready (R541). -/
def State.isReady (s : State) : Bool := s.bring.state == 8

/-- Whether steps may be gathered: ready, not in the safe state, not latched, with the engine running (R469, R476). -/
def State.mayGather (s : State) : Bool :=
  s.isReady && !s.faults.safe && !s.faults.hwLatch && s.seq.instances != 0 && !s.power.lossSeq

end Sys2Proof.Machine
end

