-- ==== Sys2Proof/Machine/SeqCommands.lean ====
section
/-!
DEFINITION. Machine/SeqCommands.lean: the sequence commands of a queue, admission, spills and resumes (R307 to R310, R322,
R334, R336, R337, R379, R380).
-/

namespace Sys2Proof.Machine

/-! ### Handles and refusals (R305, R308) -/

/-- The slot that word 1 of a command names. -/
def hSlot (c : BitVec 512) : Nat := bits (cw c 1) 11 0
/-- The generation that word 1 of a command names. -/
def hGen (c : BitVec 512) : Nat := bits (cw c 1) 27 12

/-- A sequence command is refused: the code goes to ERR and into the completion (R308). -/
def State.refuseSeq (s : State) (q slot status : Nat) : State :=
  (if (s.entry slot).st == .free then s else s.onEntry slot fun e => { e with err := BitVec.ofNat 16 status }).complete q status
    (s.handle slot)

/-- Act on the sequence that the head command names; a generation that is not current, or a sequence of another context, is
stale (R305, R429). -/
def State.onHandle (s : State) (q opc : Nat) (f : BitVec 512 → Nat → Entry → State) : State :=
  s.onHead q opc fun c =>
    let slot := hSlot c
    let e := s.entry slot
    if e.gen.toNat ≠ hGen c ∨ (e.st ≠ .free ∧ s.queueCtx q ≠ 0 ∧ e.ctx.toNat ≠ s.queueCtx q) then
      s.complete q stStale (bits (cw c 1) 27 0)
    else f c slot e

/-- Whether a spill or a resume of a slot is under way. -/
def State.copying (s : State) (slot : Nat) : Bool :=
  s.seq.spills.any (fun x => x.1 == slot) || s.seq.resumes.any fun x => x.1 == slot

/-- The longest MAXPOS that the plan allows (R308). -/
def Plan.maxLen (p : Plan) : Nat := p.dirRows * p.tpb - 64

/-! ### SUBMIT and admission (R307, R309, R310, R374) -/

/-- PICK. -/
def subPick (c : BitVec 512) : Bool := bit (cw c 5) 61
/-- SLOT. -/
def subSlot (c : BitVec 512) : Nat := bits (cw c 5) 59 48
/-- BUDDY. -/
def subBuddy (c : BitVec 512) : Nat := bits (cw c 5) 47 32
/-- FENCE. -/
def subFence (c : BitVec 512) : Nat := bits (cw c 5) 31 16
/-- QUEUE. -/
def subQueue (c : BitVec 512) : Nat := bits (cw c 5) 15 4
/-- RACKED. -/
def subRacked (c : BitVec 512) : Bool := bit (cw c 5) 3
/-- PRIO. -/
def subPrio (c : BitVec 512) : Nat := bits (cw c 5) 1 0
/-- FVAL. -/
def subFval (c : BitVec 512) : Nat := cw c 4
/-- SEED. -/
def subSeed (c : BitVec 512) : Nat := cw c 3
/-- MAXPOS. -/
def subMaxpos (c : BitVec 512) : Nat := bits (cw c 2) 63 32
/-- N. -/
def subN (c : BitVec 512) : Nat := bits (cw c 2) 31 0
/-- ADDR. -/
def subAddr (c : BitVec 512) : Nat := bits (cw c 1) 47 0

/-- The refusal of a SUBMIT, by its operands alone (R308, R374, R425, R426, R429). -/
def State.submitRefusal (s : State) (q : Nat) (c : BitVec 512) : Option Nat :=
  let ctx := s.queueCtx q
  match s.host.plan with
  | none => some stNoPlan
  | some p =>
    if subN c = 0 ∨ subFval c = 2 ^ 64 - 1 ∨ !s.inBound ctx (subAddr c) (4 * subN c) ∨ !isComp (subAddr c)
        ∨ (find? s.host.queues (subQueue c)).isNone ∨ s.queueCtx (subQueue c) ≠ ctx then some stBadArg
    else if !s.holdsFence ctx (subFence c) then some stFence
    else if subMaxpos c ≤ subN c ∨ p.maxLen < subMaxpos c then some stTooLong
    else if subRacked c ∧ (subBuddy c = s.modId ∨ (s.routePort (subBuddy c)).isNone) then some stNoBuddy
    else none

/-- Whether a slot is kept for a racked SUBMIT whose OPEN has been sent. -/
def State.slotKept (s : State) (n : Nat) : Bool := s.host.queues.any fun x => x.2.slot == some n

/-- Whether a slot is FREE and kept for no other SUBMIT. -/
def State.slotFree (s : State) (n : Nat) : Bool := decide (n < 4096) && (s.entry n).st == .free && !s.slotKept n

/-- Sequences in the table. -/
def State.slotsUsed (s : State) : Nat := (s.seq.table.filter fun x => x.2.st != .free).length

/-- The slot that a SUBMIT takes now (R310). -/
def State.slotFor (s : State) (c : BitVec 512) : Option Nat :=
  if subPick c then (if s.slotFree (subSlot c) then some (subSlot c) else none) else firstWhere s.slotFree 0 4096

/-- SEQ_MIN of a partition; partition 0 has none (R309, R438). -/
def State.seqMin (s : State) (part : Nat) : Nat := if part = 0 then 0 else (get s.parts.parts part Part.reset).seqMin
/-- SEQ_MAX of a partition; partition 0 may hold every slot. -/
def State.seqMax (s : State) (part : Nat) : Nat := if part = 0 then 4096 else (get s.parts.parts part Part.reset).seqMax
/-- The reserved slot count (R309). -/
def State.reservedSlots (s : State) : Nat := sumN (s.parts.parts.map fun x => x.2.seqMin - s.heldBy x.1)

/-- The conditions of R309 that concern the partition. -/
def State.admits (s : State) (part : Nat) : Bool :=
  decide (s.heldBy part < s.seqMax part) && (decide (s.heldBy part < s.seqMin part) || decide (s.reservedSlots < 4096 - s.slotsUsed))

/-- Frames that the OPEN of a sequence reserves, the record frame included (R374). -/
def Plan.rackFrames (p : Plan) (maxpos : Nat) : Nat := (maxpos + 64 + p.tpb - 1) / p.tpb * p.bps + 1

/-- The engine opens a rack for a slot (R374). -/
def State.openRack (s : State) (p : Plan) (slot buddy maxpos : Nat) : State :=
  ({ s with span := { s.span with opens := (s.span.opens.filter fun x => x.1 != slot) ++ [(slot, buddy, 3)] } } : State).stream
    7 buddy 1 0 (rackId s.modId slot (s.entry slot).gen.toNat ++ leBytes (p.rackFrames maxpos) 4 ++ leBytes 0 4)

/-- Whether the OPEN of a slot has been granted. -/
def State.openGranted (s : State) (slot : Nat) : Bool := s.span.opens.any fun x => x.1 == slot && x.2.2 == 0

/-- The entry of an admitted sequence (R307). -/
def State.newEntry (s : State) (q slot : Nat) (c : BitVec 512) : Entry :=
  let ctx := s.queueCtx q
  { Entry.reset with
    seed := if subSeed c = 0 then s.freeVal else BitVec.ofNat 64 (subSeed c)
    fval := BitVec.ofNat 64 (subFval c), addr := BitVec.ofNat 48 (subAddr c)
    buddy := BitVec.ofNat 16 (subBuddy c), maxpos := BitVec.ofNat 32 (subMaxpos c), pfill := BitVec.ofNat 32 (subN c)
    fence := BitVec.ofNat 16 (subFence c), queue := BitVec.ofNat 12 (subQueue c), ctx := BitVec.ofNat 10 ctx
    part := BitVec.ofNat 6 (s.ctx ctx).part, prio := BitVec.ofNat 2 (subPrio c), racked := subRacked c
    gen := (s.entry slot).gen, st := .prefill, cmdid := BitVec.ofNat 32 (cmdidOf c) }

/-- A SUBMIT is admitted into a slot: the command completes with the handle (R307, R309). -/
def State.enterSeq (s : State) (q slot : Nat) (c : BitVec 512) : State :=
  let t := (s.setEntry slot (s.newEntry q slot c)).onQueue q fun x => { x with slot := none }
  let t := { t with span := { t.span with opens := t.span.opens.filter fun x => x.1 != slot } }
  (if subSeed c = 0 then t.drew else t).complete q 0 (t.handle slot)

/-- A posted SUBMIT goes on as far as it can: a slot is chosen, its rack opened, and the sequence admitted (R309, R310,
R374). -/
def State.tryAdmit (s : State) (q : Nat) (c : BitVec 512) : State :=
  match s.host.plan with
  | none => s
  | some p =>
    match (s.queue q).slot with
    | some n => whenever (s.openGranted n && s.admits (s.ctx (s.queueCtx q)).part) s (s.enterSeq q n c)
    | none =>
      match s.slotFor c with
      | none => s
      | some n =>
        if !s.admits (s.ctx (s.queueCtx q)).part then s
        else if subRacked c then (s.onQueue q fun x => { x with slot := some n }).openRack p n (subBuddy c) (subMaxpos c)
        else s.enterSeq q n c

/-- Whether the partition of a context is frozen: none of its commands is taken (R447). -/
def State.frozenCtx (s : State) (ctx : Nat) : Bool := (s.ctx ctx).frozen

/-- Whether the engine may fetch from a queue: there is a command, none is at the head, a completion entry is free, the module
is ready and not in the safe state, the context is not frozen, and the commands in flight are below their limit (R307, R417, R420,
R435, R447, R469, R541). -/
def State.mayFetch (s : State) (q : Nat) : Bool :=
  match find? s.host.queues q with
  | some x =>
    x.cmd.isNone && !x.stopped && x.tail != x.rd && x.free != 0 && s.isReady && !s.faults.safe && !s.coh.dead
      && !s.faults.hwLatch && !s.frozenCtx (qCtx x.desc) && decide (s.inFlight < 8192)
  | none => false

/-- Whether a SUBMIT that waits at the head of a queue would go on at a visit (R309, R310, R374). -/
def State.mayAdmit (s : State) (q : Nat) : Bool :=
  let x := s.queue q
  let ctx := s.queueCtx q
  match x.cmd with
  | some c =>
    opcOf c == 0x01 && x.posted && !s.frozenCtx ctx && s.host.plan.isSome && s.admits (s.ctx ctx).part &&
      (match x.slot with
       | some n => s.openGranted n
       | none => (s.slotFor c).isSome)
  | none => false

/-- Whether the next visit is to a queue: among the queues with a command that can be taken, it follows the queue visited last in
ascending queue ID, round again from queue 0 (R309). -/
def State.visitsNext (s : State) (q : Nat) : Bool :=
  let after := fun (n : Nat) => (n + 8191 - s.seq.visit) % 4096
  s.host.queues.all fun x => !(s.mayFetch x.1 || s.mayAdmit x.1) || decide (after q ≤ after x.1)

/-- A queue has been visited (R309). -/
def State.visited (s : State) (q : Nat) : State := { s with seq := { s.seq with visit := q } }

/-- SUBMIT: the checks; a SUBMIT that passes them waits at the head of its queue for its admission (R307 to R309). A racked
one sends its OPEN as soon as it has a slot, where the visit is to its queue (R309, R374). -/
def execSubmit (q : Nat) (s : State) : Res :=
  .next (s.onHead q 0x01 fun c =>
    if (s.queue q).posted then s
    else match s.submitRefusal q c with
      | some st => s.complete q st 0
      | none =>
        let t := s.onQueue q fun x => { x with posted := true }
        if subRacked c && t.visitsNext q then t.tryAdmit q c else t)

/-- ADMISSION: the engine visits a queue whose head is a SUBMIT that has passed its checks (R309, R310). -/
def execAdmission (q : Nat) (s : State) : Res :=
  .next (s.onHead q 0x01 fun c =>
    whenever (s.mayAdmit q && s.visitsNext q) s ((s.visited q).tryAdmit q c))

/-! ### APPEND, DRAFT, PARK and CANCEL (R307, R322, R334, R336) -/

/-- APPEND (R307). -/
def execAppend (q : Nat) (s : State) : Res :=
  .next (s.onHandle q 0x02 fun c slot e =>
    let addr := bits (cw c 2) 47 0
    let n := bits (cw c 3) 31 0
    if !(e.st == .decode || e.st == .parked) || s.copying slot then s.refuseSeq q slot stState
    else if !isComp addr ∨ !s.inBound e.ctx.toNat addr (4 * n) then s.refuseSeq q slot stBadArg
    else if e.maxpos.toNat ≤ n then s.refuseSeq q slot stTooLong
    else
      (s.onEntry slot fun e =>
        { e with
          addr := BitVec.ofNat 48 addr, pfill := BitVec.ofNat 32 (n + 1), feed := true
          st := if e.st == .decode then .prefill else e.st }).complete q 0 (s.handle slot))

/-- The nodes of a tree in memory (R322). -/
def treeOf (d : List Byte) (n : Nat) : List (BitVec 64) := (List.range n).map fun i => BitVec.ofNat 64 (num8 d (8 * i) 8)
/-- PARENT of a node. -/
def nodeParent (w : BitVec 64) : Nat := bits w.toNat 31 26
/-- TOKEN of a node. -/
def nodeToken (w : BitVec 64) : BitVec 24 := BitVec.ofNat 24 (bits w.toNat 23 0)
/-- Whether every node but the root names a parent below its own index (R322). -/
def treeOk (t : List (BitVec 64)) : Bool :=
  (List.range t.length).all fun i => i == 0 || decide (nodeParent (t.getD i 0) < i)

/-- A tree is discarded and counted (R322). -/
def State.discardTree (s : State) (slot : Nat) : State :=
  (((s.onEntry slot fun e => { e with tree := [], nodes := 0, fresh := false }).bumpLane 0x7200 0x13 3 1).sticky 0x7200 1 3).report
    0x0601 7 slot

/-- DRAFT: a tree for a position replaces the pending one; the command reads the nodes from companion memory (R322,
R336). -/
def execDraft (q : Nat) (nodes : List Byte) (s : State) : Res :=
  .next (s.onHandle q 0x03 fun c slot e =>
    let n := bits (cw c 4) 6 0
    if e.st ≠ .decode then s.refuseSeq q slot stState
    else if n = 0 ∨ 64 < n ∨ !s.inBound e.ctx.toNat (winAddr (cw c 3)) (8 * n) ∨ !isComp (winAddr (cw c 3)) then
      s.refuseSeq q slot stBadArg
    else
      let t := treeOf nodes n
      let u := s.onEntry slot fun e =>
        { e with
          tree := t, nodes := BitVec.ofNat 7 n, treePos := BitVec.ofNat 32 (bits (cw c 2) 31 0), treeHost := true
          fresh := true }
      (if treeOk t then u else u.discardTree slot).complete q 0 (s.handle slot))

/-- PARK: the entry becomes PARKED at the next commit point (R307). -/
def execPark (q : Nat) (s : State) : Res :=
  .next (s.onHandle q 0x04 fun _ slot e =>
    if !(e.st == .prefill || e.st == .decode) then s.refuseSeq q slot stState
    else (s.onEntry slot fun e => { e with parkReq := true }).complete q 0 (s.handle slot))

/-- CANCEL: the sequence leaves at the next commit point; a tenant context all of whose sequences are cancelled is torn down
(R307, R334). -/
def execCancel (q : Nat) (s : State) : Res :=
  .next (s.onHandle q 0x07 fun _ slot e =>
    if e.st == .free then s.refuseSeq q slot stState
    else
      let t := (s.onEntry slot fun e =>
        if e.cancelReq then e else { e with cancelReq := true, leaveErr := BitVec.ofNat 16 stCancelled }).complete q 0 (s.handle slot)
      let ctx := e.ctx.toNat
      if (s.ctx ctx).kind == 0 && t.seq.table.all fun x => x.2.st == .free || x.2.ctx.toNat != ctx || x.2.cancelReq then
        t.tearDown ctx
      else t)

/-! ### Spill and resume (R337) -/

/-- Bytes of the directory part of a spill region. -/
def Plan.spillDir (p : Plan) (rows : Nat) : Nat := (rows * p.bps * 4 + 65535) / 65536 * 65536
/-- SPILLSIZE. -/
def Plan.spillSize (p : Plan) (rows : Nat) : Nat := p.spillDir rows + rows * p.bps * 65536

/-- SPILL: the copy of a parked sequence begins; the command completes when it is done (R307, R337). -/
def execSpill (q : Nat) (s : State) : Res :=
  .next (s.onHandle q 0x05 fun c slot e =>
    match s.host.plan with
    | none => s.refuseSeq q slot stState
    | some p =>
      let region := winAddr (cw c 2)
      if e.st ≠ .parked ∨ e.pfill ≠ 0 ∨ s.copying slot then s.refuseSeq q slot stState
      else if region % 65536 ≠ 0 ∨ !isComp region ∨ !s.inBound e.ctx.toNat region (p.spillSize e.rows.toNat) then
        s.refuseSeq q slot stBadArg
      else { s.defer q slot with seq := { (s.defer q slot).seq with spills := s.seq.spills ++ [(slot, region)] } })

/-- The barrels of a slot in row order and in barrel order within each row: the frame of each (R337). -/
def State.barrelsOf (s : State) (p : Plan) (slot rows : Nat) : List Nat :=
  (List.range (rows * p.bps)).map fun i =>
    match (s.framesOf slot).find? fun x => x.2.2 == (i / p.bps, i % p.bps) with
    | some x => x.1
    | none => 0

/-- SPILL_DONE: the directory rows and the barrels stand in the region; the frames are freed and the sequence is SPILLED. A
barrel that cannot be read delays the copy, and so does one of which the companion owns a line (R214, R312, R337). -/
def execSpillDone (slot : Nat) (s : State) : Res :=
  .next (match s.seq.spills.find? fun x => x.1 == slot, s.host.plan with
    | some x, some p =>
      let e := s.entry slot
      if s.waitsMove slot then s
      else
        let rows := e.rows.toNat
        let fs := s.barrelsOf p slot rows
        let ca := x.2 - 2 ^ 40
        let dir := fs.flatMap fun f => leBytes (2 ^ 31 + f) 4
        s.whenShared (fs.flatMap fun f => linesOf (s.frameBase f) 65536) (
        let t := fs.foldl (fun (t : State) f => t.engineReads (s.frameBase f) 65536) s
        let t := t.compStore ca (slice dir 0 (p.spillDir rows))
        let t := (withPos fs).foldl (fun (t : State) (y : Nat × Nat) =>
          t.compStore (ca + p.spillDir rows + 65536 * y.1) (s.getBytes (s.frameBase y.2) 65536).1) t
        let t := { t.releaseFrames slot with
          seq := { (t.releaseFrames slot).seq with spills := s.seq.spills.filter fun y => y.1 != slot } }
        (t.onEntry slot fun e => { e with st := .spilled, addr := BitVec.ofNat 48 x.2 }).settle' 0x05 slot 0)
    | _, _ => s)

/-- The state that a resumed sequence returns to (R307). -/
def Entry.resumed (e : Entry) : SeqState := if e.pfill = 0 then .decode else .prefill

/-- RESUME: a parked sequence returns at once; a spilled one first gets its rows, for which the command waits at the head of
its queue, and its copy back (R307, R316, R337). -/
def execResume (q : Nat) (s : State) : Res :=
  .next (s.onHandle q 0x06 fun _ slot e =>
    if s.copying slot then s.refuseSeq q slot stState
    else if e.st == .parked then
      (s.onEntry slot fun e => { e with st := e.resumed }).complete q 0 (s.handle slot)
    else if e.st == .spilled then
      match s.allocRows slot e.rows.toNat with
      | none => s
      | some t => { t.defer q slot with seq := { (t.defer q slot).seq with resumes := s.seq.resumes ++ [(slot, e.addr.toNat)] } }
    else s.refuseSeq q slot stState)

/-- RESUME_DONE: the barrels have been copied back from the region, whose bytes the command gives; the state changes last
(R337). -/
def execResumeDone (slot : Nat) (data : List Byte) (s : State) : Res :=
  .next (match s.seq.resumes.find? fun x => x.1 == slot, s.host.plan with
    | some _, some p =>
      let e := s.entry slot
      if s.waitsMove slot then s
      else
        let rows := e.rows.toNat
        let t := (withPos (s.barrelsOf p slot rows)).foldl (fun (t : State) (y : Nat × Nat) =>
          t.putBytes (s.frameBase y.2) (slice data (p.spillDir rows + 65536 * y.1) 65536)) s
        let t := { t with seq := { t.seq with resumes := s.seq.resumes.filter fun y => y.1 != slot } }
        (t.onEntry slot fun e => { e with st := e.resumed }).settle' 0x06 slot 0
    | _, _ => s)

/-! ### EXPORT and IMPORT (R379, R380) -/

/-- EXPORT: a rack is opened at the target; the copy follows its grant (R374, R379). -/
def execExportSeq (q : Nat) (s : State) : Res :=
  .next (s.onHandle q 0x08 fun c slot e =>
    let target := bits (cw c 2) 15 0
    match s.host.plan with
    | none => s.refuseSeq q slot stState
    | some p =>
      if !(e.st == .prefill || e.st == .decode || e.st == .parked) || s.copying slot
          || s.seq.exports.any fun x => x.1 == slot then s.refuseSeq q slot stState
      else if target = s.modId ∨ (s.routePort target).isNone then s.refuseSeq q slot stNoBuddy
      else
        let t := s.defer q slot
        ({ t with seq := { t.seq with exports := t.seq.exports ++ [(slot, target, q)] } } : State).openRack p slot target
          e.maxpos.toNat)

/-- The refusal of an IMPORT (R308, R380, R417, R425, R426, R429). -/
def State.importRefusal (s : State) (q : Nat) (c : BitVec 512) : Option Nat :=
  let ctx := bits (cw c 5) 9 0
  let queue := bits (cw c 4) 27 16
  let addr := winAddr (cw c 2)
  let buddy := bits (cw c 1) 63 48
  if q ≠ 0 ∧ (s.ctx (s.queueCtx q)).kind ≠ 1 then some stPriv
  else if s.host.plan.isNone then some stNoPlan
  else if cw c 3 = 2 ^ 64 - 1 ∨ !s.isCtx ctx ∨ (find? s.host.queues queue).isNone ∨ s.queueCtx queue ≠ ctx
      ∨ (cw c 2 ≠ 0 ∧ (!isComp addr ∨ !s.inBound ctx addr 4)) then some stBadArg
  else if !s.holdsFence ctx (bits (cw c 4) 15 0) then some stFence
  else if !s.slotFree (hSlot c) then some stState
  else if buddy = s.modId ∨ (s.routePort buddy).isNone then some stNoBuddy
  else none

/-- IMPORT: the slot becomes IMPORTING and the buddy is asked for the rack (R380). -/
def execImportSeq (q : Nat) (s : State) : Res :=
  .next (s.onHead q 0x09 fun c =>
    match s.importRefusal q c with
    | some st => s.complete q st 0
    | none =>
      let ctx := bits (cw c 5) 9 0
      let slot := hSlot c
      let buddy := bits (cw c 1) 63 48
      let t := (s.setEntry slot { Entry.reset with
        fval := BitVec.ofNat 64 (cw c 3), addr := BitVec.ofNat 48 (winAddr (cw c 2)), buddy := BitVec.ofNat 16 buddy
        fence := BitVec.ofNat 16 (bits (cw c 4) 15 0), queue := BitVec.ofNat 12 (bits (cw c 4) 27 16)
        ctx := BitVec.ofNat 10 ctx, part := BitVec.ofNat 6 (s.ctx ctx).part, gen := BitVec.ofNat 16 (hGen c)
        cmdid := BitVec.ofNat 32 (cmdidOf c) }).defer q slot
      t.fetchRack slot buddy (bits (cw c 1) 47 32) (hGen c))

end Sys2Proof.Machine
end

