-- ==== Sys2Proof/Machine/Translate.lean ====
section
/-!
DEFINITION. Machine/Translate.lean: page tables (R409 to R411): the entry of a level, one step of a walk, and a whole walk by an
engine of the module.
-/

namespace Sys2Proof.Machine

/-- The address of the table entry that a virtual address selects at a level (R409). -/
def pteAddr (level table va : Nat) : Nat :=
  table + 8 * (match level with
    | 3 => bits va 47 39
    | 2 => bits va 38 30
    | 1 => bits va 29 21
    | _ => bits va 20 16)

/-- Log2 of the page that a leaf of a level maps. -/
def pageLog2 : Nat → Nat
  | 2 => 30
  | 1 => 21
  | _ => 16

/-- What a table entry says (R410, R411). -/
inductive Pte where
  /-- the entry breaks a rule -/
  | bad
  /-- the next table -/
  | next (table : Nat)
  /-- a leaf: physical base, log2 of the page, and whether it may be written -/
  | leaf (pa log2 : Nat) (w : Bool)
  deriving DecidableEq, Repr

/-- The entry of a level (R410, R411). -/
def pteOf (level w : Nat) : Pte :=
  let addr := bits w 40 8 * 256
  if !bit w 63 ∨ bits w 60 41 ≠ 0 ∨ bits w 7 0 ≠ 0 then .bad
  else if bit w 62 then
    if level = 3 ∨ addr % 2 ^ pageLog2 level ≠ 0 then .bad else .leaf addr (pageLog2 level) (bit w 61)
  else if level = 0 ∨ !isHbm addr ∨ addr % (if level = 1 then 256 else 4096) ≠ 0 then .bad
  else .next addr

/-- A walk by an engine from a table: physical address of `va`, the page size and whether it may be written; none where the walk
fails or a table read is poisoned. -/
def State.walkFrom (s : State) (va : Nat) : Nat → Nat → Option (Nat × Nat × Bool)
  | 0, table =>
    let r := s.physRead (pteAddr 0 table va) 8
    match pteOf 0 (leNat r.1) with
    | .leaf pa l w => if r.2 then none else some (pa + va % 2 ^ l, l, w)
    | _ => none
  | n + 1, table =>
    let r := s.physRead (pteAddr (n + 1) table va) 8
    if r.2 then none
    else match pteOf (n + 1) (leNat r.1) with
      | .leaf pa l w => some (pa + va % 2 ^ l, l, w)
      | .next t => s.walkFrom va n t
      | .bad => none

/-- An engine's translation under a context, with the translations it caches: the physical address, the page size and whether
the page may be written. Context 0 is not translated (assumption 7, R412). -/
def State.engineXlat (s : State) (cache : List XEntry) (ctx va : Nat) : Option (Nat × Nat × Bool) :=
  if ctx = 0 then some (va, 16, true)
  else match xlatHit cache ctx va with
    | some e => some (e.pa + va % 2 ^ e.log2, e.log2, e.w)
    | none => s.walkFrom va 3 (s.ctx ctx).root

/-- The 64 KiB pages that a virtual range touches: the address at which it enters each. -/
def pagesOf (va n : Nat) : List Nat :=
  (List.range ((va % 65536 + n + 65535) / 65536)).map fun i => if i = 0 then va else va / 65536 * 65536 + 65536 * i

/-- The physical pieces of a virtual range: address and length of each, page by page. -/
def State.xlatRange (s : State) (cache : List XEntry) (ctx va n : Nat) : Option (List (Nat × Nat)) :=
  (pagesOf va n).mapM fun a =>
    (s.engineXlat cache ctx a).map fun x => (x.1, min (a / 65536 * 65536 + 65536) (va + n) - a)

/-- The translations an engine caches after it has used those of some addresses: the 256 most recent (R412). -/
def State.xlatFill (s : State) (cache : List XEntry) (ctx : Nat) (vas : List Nat) : List XEntry :=
  if ctx = 0 then cache
  else vas.foldl (fun (c : List XEntry) (va : Nat) => match s.engineXlat c ctx va with
    | some (pa, l, w) => xlatPut c 256 { ctx := ctx, va := va / 2 ^ l * 2 ^ l, pa := pa - va % 2 ^ l, log2 := l, w := w }
    | none => c) cache

end Sys2Proof.Machine
end

