-- ==== Sys2Proof/Machine/HostLink.lean ====
section
/-!
DEFINITION. Machine/HostLink.lean: the Abius link and its flits, the register window as the companion sees it, doorbells,
the fetch of commands, notices, and the table reads of a walk (chapter 15).
-/

namespace Sys2Proof.Machine

/-! ### Flits (R398 to R403) -/

/-- Credits that a flit returns are added, by class: Req, Rsp, Snp, Cmp, Reg (R400). -/
def addCredits (l : List (Nat × Nat)) (c : Nat) : List (Nat × Nat) :=
  (List.range 5).foldl (fun (l : List (Nat × Nat)) (i : Nat) => upd l i 0 (· + bits c (12 * i + 11) (12 * i))) l

/-- The class of a message by its opcode: Req, Rsp, Snp, Cmp, Reg (R210, R399, R401). -/
def abClass (op : Nat) : Nat := if op < 0x20 then 0 else if op < 0x40 then 2 else if op < 0x60 then 1 else if op < 0x80 then 3 else 4
/-- The 16-byte units of a message: its header and its data (R401). -/
def AbMsg.units (m : AbMsg) : Nat := 1 + (m.data.length + 15) / 16
/-- Units of the messages of a class. -/
def unitsOf (c : Nat) (l : List AbMsg) : Nat := sumN ((l.filter fun m => abClass m.op == c).map AbMsg.units)
/-- Units of a class that the credits so far cover: those at hand as the link comes up, of at least one longest message, and
those returned since (R210, R399, R400; assumption 105). -/
def State.creditOf (s : State) (c : Nat) : Nat := 33 + Config.abCredits c + get s.host.credits c 0

/-- The messages that have left on the link: of each class, in the order handed over, those that its credits cover; the rest wait
for credit, whatever the other classes do (R210, R399). -/
def State.linkSent (s : State) : List AbMsg :=
  (withPos s.coh.out).filterMap fun x =>
    let c := abClass x.2.op
    if unitsOf c (s.coh.out.take (x.1 + 1)) ≤ s.creditOf c then some x.2 else none

/-- The link leaves service and retrains (R403). -/
def State.retrain (s : State) : State :=
  { s with host := { s.host with link := 1, fails := 0, naks := 0, nakDue := false } }

/-- A flit of the module's or of the companion's is replayed (R398, R433, R436). -/
def State.replayed (s : State) (inj : Bool := false) : State := (s.bumpLane 0x1100 8 2 1).report 0x0701 0 0 0 inj

/-- Whether an armed injection makes the next flit fail its CRC (target 6 of R478). -/
def State.flitInjected (s : State) : Bool :=
  match s.faults.injArmed with
  | some (6, _, _, _) => true
  | _ => false

/-- The module has sent a number of flits since the last arrival that nothing constrains (R398, assumption 3). -/
def State.flitsSent (s : State) : State :=
  let n := s.freeVal.toNat % 1024
  ({ s with host := { s.host with txSeq := (s.host.txSeq + n) % 1024 } }.bumpLane 0x1100 8 0 n).drew

/-- FLIT: a flit with a bad CRC is asked for again; the next in order is taken with its credits and its acknowledgement, and
`NAK` has the module replay what follows ACKSEQ. A flit out of order is not taken. Eight failed replays of one flit in either
direction retrain the link (R398 to R403). -/
def execFlit (fseq : Nat) (ack nak : Bool) (ackseq credits : Nat) (crcOk : Bool) (s : State) : Res :=
  .next (if s.host.link ≠ 2 then s
    else
      let s := s.flitsSent
      if !crcOk || s.flitInjected then
        let t := if s.flitInjected then s.injected else s
        let t := { t with host := { t.host with fails := s.host.fails + 1, nakDue := true } }.replayed s.flitInjected
        if s.host.fails = 8 then t.retrain else t
      else if fseq % 1024 ≠ s.host.rxSeq then s
      else
        let t := { s with host := { s.host with
          rxSeq := (s.host.rxSeq + 1) % 1024, fails := 0, nakDue := false
          credits := addCredits s.host.credits credits } }.bumpLane 0x1100 8 1 1
        let same := s.host.acked == ackseq % 1024
        let t := if ack then { t with host := { t.host with acked := ackseq % 1024 } } else t
        if nak then
          let n := if ack && same then t.host.naks + 1 else 1
          let t := { t with host := { t.host with naks := n } }.replayed
          if n = 9 then t.retrain else t
        else { t with host := { t.host with naks := 0 } })

/-- FLIT_SILENCE: no valid flit for 10 µs (R403). -/
def execFlitSilence (s : State) : Res := .next (whenever (s.host.link == 2) s s.retrain)

/-- The link comes up on 16 or 8 lanes: sequence numbers and credits start anew, and 8 lanes raise `ABIUS_WIDTH` (R225, R400, R403, R436). -/
def State.linkUp (s : State) (lanes modules : Nat) : State :=
  whenever (s.host.link != 2 && (lanes == 8 || lanes == 16) && decide (1 ≤ modules ∧ modules ≤ 4)) s
    (let t := { s with host := { s.host with
       link := 2, width := lanes, txSeq := 0, rxSeq := 0, acked := 1023, fails := 0, naks := 0, nakDue := false
       credits := (List.range 5).map fun c => (c, unitsOf c s.linkSent) } }.setOd 0x4200 5 modules
     if lanes = 8 then (t.sticky 0x1100 1 2).report 0x1703 0 0 else t)

/-- LINK_UP: training completes (R403). -/
def execLinkUp (lanes modules : Nat) (s : State) : Res := .next (s.linkUp lanes modules)

/-- A pass of migration in progress stops with `MIG_ABORTED`; the marks of its granules stay set (R453, R454, R455). -/
def State.abortPass (s : State) : State :=
  let m := s.parts.mig
  let mig := { m with running := none, dirty := m.saved ++ m.dirty, saved := [], stream := [], count := 0, full := false }
  whenever m.running.isSome s
    ((({ s with parts := { s.parts with mig := mig } }.setOd 0x7100 0x12 5).sticky 0x7100 1 0).report 0x1741 0 0)

/-- ABIUS_DOWN: the link has not come up within 100 ms: the companion agent is declared dead, a pass of migration stops, and
the mailbox path is reset (R221, R403, R453, R567). -/
def execAbiusDown (s : State) : Res :=
  .next (whenever (s.host.link == 1) s
    (let t := { s with host := { s.host with link := 0, width := 0 } }.sticky 0x1100 1 1
     let t := if t.coh.dead then t.report 0x1704 0 0 else t.companionDead 0x1704 0
     t.abortPass.resetPath .mailbox))

/-! ### The register window as the companion sees it (R405, R406, R416, R579) -/

/-- The queue and offset of a doorbell page that an address names. -/
def doorbell (a : Nat) : Option (Nat × Nat) :=
  if 0x20000000000 ≤ a ∧ a < 0x20001000000 then some ((a - 0x20000000000) / 4096, a % 4096) else none

/-- Whether an address is in the dictionary mailbox. -/
def inMailbox (a : Nat) : Bool := decide (0x20100000000 ≤ a ∧ a < 0x20100001000)

/-- QSTATUS (R416). -/
def Queue.qstatus (x : Queue) : Nat := if x.stopped then x.status % 2 ^ 16 * 2 ^ 16 + 1 else 0

/-- Whether a process identifier may use a queue's doorbell page (R406). -/
def State.mayRing (s : State) (q pasid : Nat) : Bool :=
  match find? s.host.queues q with
  | some x => pasid == 0 || s.ctxOfPasid pasid == some (qCtx x.desc)
  | none => false

/-- A word of the mailbox as read (R579). -/
def State.mbRead (s : State) (off : Nat) : Nat :=
  if off = 0xFF8 then s.dict.mbState.toNat
  else if 0x800 ≤ off ∧ off < 0xFF8 then leNat (slice s.dict.mbRsp (off - 0x800) 8)
  else 0

/-- What the companion reads from the register window; none where the table of R406 does not permit it. -/
def State.regRead (s : State) (a pasid : Nat) : Option Nat :=
  if a % 8 ≠ 0 then none
  else match doorbell a with
    | some (q, off) =>
      if off ≤ 0x10 && s.mayRing q pasid then some (if off = 0x10 then (s.queue q).qstatus else 0) else none
    | none =>
      if inMailbox a then (if pasid = 0 then some (s.mbRead (a % 4096)) else none)
      else if 0x20200000000 ≤ a ∧ a < 0x20200000080 then some (capWord (a - 0x20200000000))
      else if 0x20300000000 ≤ a ∧ a < 0x20300080000 then
        match find? s.host.fences ((a - 0x20300000000) / 8), s.ctxOfPasid pasid with
        | some f, some c => if pasid = 0 || f.holders.contains c then some f.value.toNat else none
        | _, _ => none
      else none

/-- CMD_TAIL is written: commands up to it may be fetched; one that moves backwards, or too far ahead of the read index, stops
the queue. A stopped queue ignores it (R416, R430, R435). -/
def State.ringTail (s : State) (q v : Nat) : State :=
  let s := s.bumpLane 0x1100 8 5 1
  let x := s.queue q
  let ahead := fun (i : Nat) => (i + 2 ^ 32 - x.rd) % 2 ^ 32
  if x.stopped then s
  else if ahead (v % 2 ^ 32) < ahead x.tail ∨ 2 ^ qClog2 x.desc < ahead (v % 2 ^ 32) then
    ((s.onQueue q fun x => { x with stopped := true, status := stOverrun }).sticky 0x1100 1 3).notice
      { Notice.reset with status := stOverrun, subj := q }
  else s.onQueue q fun x => { x with tail := v % 2 ^ 32 }

/-- CPL_HEAD is written: the entries before it are free again, and records that waited for room are posted. A queue that was
torn down ignores it (R416, R420, R430). -/
def State.ringHead (s : State) (q v : Nat) : State :=
  let s := s.bumpLane 0x1100 8 5 1
  if (s.queue q).stopped ∧ (s.queue q).status = stTorn then s
  else
    let t := s.onQueue q fun x => { x with head := v % 2 ^ 32 }
    let mine := t.seq.late.filter fun r => r.queue == q
    mine.foldl (fun (t : State) r =>
      if (t.queue q).free = 0 then t
      else ({ t with seq := { t.seq with late := t.seq.late.erase r } }.postStep r 0).irq q) t

/-- A word of the mailbox is written: a word of MB_REQUEST; MB_DOORBELL submits the request, and is ignored while one is being
served (R579). -/
def State.mbWrite (s : State) (off v : Nat) : State :=
  if off < 0x7F8 then { s with dict := { s.dict with mbReq := put s.dict.mbReq (off / 8) (BitVec.ofNat 64 v) } }
  else if off = 0x7F8 then
    whenever (bits s.dict.mbState.toNat 1 0 != 1) s { s with dict := { s.dict with
      mbRsp := [], mbState := BitVec.ofNat 64 (s.dict.mbState.toNat / 256 % 256 * 256 + 1) } }
  else s

/-- A write of the companion to the register window; none where the table of R406 does not permit it. -/
def State.regWrite (s : State) (a pasid v : Nat) : Option State :=
  if a % 8 ≠ 0 then none
  else match doorbell a with
    | some (q, off) =>
      if 0x10 < off || !s.mayRing q pasid then none
      else some (if off = 0 then s.ringTail q v else if off = 8 then s.ringHead q v else s)
    | none => if inMailbox a && pasid == 0 then some (s.mbWrite (a % 4096) v) else none

/-- Why a Reg message is refused before its address is looked at: a reserved ORD, or an address outside the register window;
0 for no reason (R401, R402, R405). -/
def regReason (h : AbHdr) : Nat := if h.ord = 3 then 4 else if isReg h.addr.toNat then 0 else if isHbm h.addr.toNat then 3 else 2

/-- With the companion agent dead its requests are discarded, but for those of the mailbox (R221, R580). -/
def State.deaf (s : State) (h : AbHdr) : Bool := s.coh.dead && !inMailbox h.addr.toNat

/-- An answered write of the companion to the register window (R401). -/
def State.regWritten (s : State) (h : AbHdr) (v : Nat) : State :=
  if s.deaf h then s
  else if regReason h ≠ 0 then s.refuse h (regReason h)
  else match s.regWrite h.addr.toNat h.pasid.toNat v with
    | some t => t.sendAb (abMsg 0x83 h.tag.toNat h.pasid.toNat h.addr.toNat)
    | none => s.refuse h 3

/-- REG_RD (R401, R406). -/
def execRegRd (h : AbHdr) (s : State) : Res :=
  .next (if s.deaf h then s
    else if regReason h ≠ 0 then s.refuse h (regReason h)
    else match s.regRead h.addr.toNat h.pasid.toNat with
      | some v => s.sendAb (abMsg 0x82 h.tag.toNat h.pasid.toNat h.addr.toNat (leBytes v 16))
      | none => s.refuse h 3)
/-- REG_WR (R401, R406, R579). -/
def execRegWr (h : AbHdr) (value : BitVec 64) (s : State) : Res := .next (s.regWritten h value.toNat)
/-- CMD_TAIL: a write to offset 0 of a doorbell page (R416). -/
def execCmdTail (h : AbHdr) (value : BitVec 64) (s : State) : Res :=
  .next (match doorbell h.addr.toNat with
    | some (_, 0) => s.regWritten h value.toNat
    | _ => s)
/-- CPL_HEAD: a write to offset 8 of a doorbell page (R416). -/
def execCplHead (h : AbHdr) (value : BitVec 64) (s : State) : Res :=
  .next (match doorbell h.addr.toNat with
    | some (_, 8) => s.regWritten h value.toNat
    | _ => s)

/-! ### Notices and the fetch of commands (R417, R420, R612) -/

/-- NOTICE_POST: the oldest notice is posted where queue 0's ring has an entry that is neither in use nor reserved (R612). -/
def execNoticePost (s : State) : Res :=
  .next (match s.host.notices with
    | [] => s
    | n :: r =>
      if (find? s.host.queues 0).isNone ∨ (s.queue 0).free = 0 then s
      else ({ s with host := { s.host with notices := r } }.postRecord 0 0 0 n.status 2 n.subj n.b12 0 n.body).irq 0)

/-- COMMAND_FETCH: the engine visits a queue and its next command comes to the head, with a completion entry reserved for it; one
that no command has is refused (R309, R417, R420, R432). -/
def execCommandFetch (q entry : Nat) (s : State) : Res :=
  .next (whenever (s.mayFetch q && s.visitsNext q) s
    (let c := BitVec.ofNat 512 entry
     let t := (s.visited q).onQueue q fun x =>
       { x with cmd := some c, posted := false, rd := (x.rd + 1) % 2 ^ 32, resv := x.resv + 1 }
     if (cmdFields (opcOf c)).isNone || (opcOf c == 0x38 && decide (3 < bits (cw c 1) 3 0)) then t.complete q stBadCmd 0 else t))

/-! ### Walks (R409 to R412) -/

/-- The partition under which a request's context acts. -/
def State.partOf (s : State) (c : Nat) (r : Req) : Nat := if (s.core c).ctx = r.ctx then (s.core c).part else (s.ctx r.ctx).part

/-- A request whose walk ends it is gone, and its kernel faults; a DMA request returns first (R107). -/
def State.walkFault (s : State) (r : Req) (code : Nat) (inj : Bool := false) : State :=
  match r.agent.core? with
  | some c =>
    if r.agent.unit = 1 then s.setReq r.tag fun q => { q with stage := .done, err := code }
    else (whenever ((s.core c).ctx == r.ctx) (s.dropReq r.tag) ((s.dropReq r.tag).coreFault c code r.va inj)).finishIfQuiet c
  | none => s.dropReq r.tag

/-- A walk has found its page: the translation is kept, and the access goes on or is refused (R410, R412, R441). -/
def State.walked (s : State) (r : Req) (pa log2 : Nat) (w : Bool) : State :=
  match r.agent.core? with
  | some c =>
    let e : XEntry := { ctx := r.ctx, va := r.va / 2 ^ log2 * 2 ^ log2, pa := pa, log2 := log2, w := w }
    let t := s.onCoreState c fun k => { k with xlat := xlatPut k.xlat 64 e }
    let at' := pa + r.va % 2 ^ log2
    if t.permits r r.ctx (t.partOf c r) at' w then t.setReq r.tag fun q => q.atPa at' else t.walkFault r r.agent.accessCode
  | none => s.dropReq r.tag

/-- A line is read through the cellar under a class, and allocated where a way is free for it; none while it must wait for the
companion's copy, for a way or for its stack (R184, R195, R214, R274). -/
def State.readCached (s : State) (l k : Nat) : Option State :=
  let s := s.decodeLine l
  match s.cellar.line? l with
  | some x => if x.dir = .dO ∨ (s.txn? l).isSome then none else some (((s.tally 0 k).tally 1 k).touchLine l)
  | none =>
    match s.readLine (s.store (128 * l)) with
    | .held => none
    | .got t poison =>
      let t := t.tally 0 k
      if t.noFill l then some t
      else match t.makeRoom l k with
        | .ok t => some (t.insertLine { Line.reset with
            addr := l, data := t.peek (t.store (128 * l)) 128, cls := k, poison := poison, dir := t.dirOf l })
        | .wait _ => none
        | .full => some (t.tally 5 k)

/-- TABLE_READ_RETURN: the entry that a walk reads through the cellar as class c3 has come back (R409 to R412). -/
def execTableReadReturn (tag : Nat) (s : State) : Res :=
  .next (match s.req? tag with
    | some r => match r.stage with
      | .walk level table =>
        let a := pteAddr level table r.va
        match s.readCached (a / 128) 3 with
        | none => s.whenShared [a / 128] s
        | some s =>
        let e := s.physRead a 8
        if e.2 then s.walkFault r r.agent.poisonCode
        else match pteOf level (leNat e.1) with
          | .bad => s.walkFault r r.agent.xlateCode
          | .next t => s.setReq tag fun q => { q with stage := .walk (level - 1) t }
          | .leaf pa l w => s.walked r pa l w
      | _ => s
    | none => s)

end Sys2Proof.Machine
end

