-- ==== Sys2Proof/Machine/Kernel.lean ====
section
/-!
DEFINITION. Machine/Kernel.lean: the start and the end of a kernel, the watchdog and `rcinv` (R77, R91, R103 to R105).
-/

namespace Sys2Proof.Machine

/-- `rcinv` (R77, R91). -/
def execRcinv (c : Nat) (s : State) : Res := onCore c (s.ctl c 4 [] fun s => (s.rinval c).onCoreState c (·.next 4))

/-- `kend`: the control core waits for the end-of-kernel conditions (R104). -/
def execKend (c : Nat) (s : State) : Res :=
  onCore c (s.ctl c 4 [] fun s => s.onCoreState c fun k => { k with wait := .kend })

/-- The conditions of R104: counters settled, every press command and drain done, every group exited. -/
def Core.endReady (k : Core) : Bool :=
  k.wait == .kend && k.items.isEmpty && k.press.waiting.isEmpty && k.press.runs.isEmpty && k.press.drains.isEmpty
    && k.groups.isEmpty

/-- KEND_DONE: the kernel ends; finished-tile entries not released are discarded and noted (R72, R104). A core
whose reduction issue waits is stalled (R193). -/
def execKendDone (c : Nat) (s : State) : Res :=
  onCore c (whenever ((s.core c).endReady && !s.redStalled c) s (s.onCoreState c fun k =>
    { k with
      wait := .none, run := false, ksDone := true, unposted := true
      ksDropped := k.ksDropped || !k.press.queue.isEmpty
      press := { k.press with queue := [] } }))

/-- The work-list entries that name a core, in order (R318). -/
def StepRun.entriesOf (r : StepRun) (c : Nat) : List WlEntry := r.wl.filter fun e => decide (e.first ≤ c ∧ c ≤ e.last)

/-- The entry that a core starts next, if any. -/
def StepRun.nextEntry (r : StepRun) (c : Nat) : Option WlEntry := (r.entriesOf c)[cnt r.started c]?

/-- The core at the start of a kernel (R103). -/
def Core.begin (k : Core) (e : WlEntry) (step now : Nat) : Core :=
  let same := k.prevCtx == some e.ctx
  { k with
    regs := (List.range 8).foldl (fun m i => put m (i + 1) (e.args.getD i 0)) []
    busy := []
    pc := e.entry.setWidth 64
    wait := .none
    run := true
    stopping := false
    kid := BitVec.ofNat 64 (e.kid.toNat + 2 ^ 32 * (step % 2 ^ 32))
    ctx := e.ctx
    part := e.part
    draft := e.draft
    watchdog := if e.watchdog = 0 then 2000 else e.watchdog
    started := now
    prevCtx := some e.ctx
    ksFault := 0, ksCancel := false, ksDropped := false, ksDone := false
    gclass := 2
    cycle := 0
    ldst := if same then k.ldst else []
    ecc := if same then k.ecc else k.ecc.filter fun x => decide (0x1C000 ≤ x.1)
    press := Press.reset
    chan0 := [], chan1 := [], items := [], issued := [], arrived := []
    groups := [], bcast := [], summ := [], rcache := []
    summKnows := [], races := [], knows := [], writes := 0, vcycles := 0, fences := [], acqs := [] }

/-- CC_WATCHDOG: the kernel has not reached DONE within its limit (R105). A model-context watchdog pauses in a job hold
(R366); the command is the expiry of the timer itself (assumption 8). -/
def execCcWatchdog (c : Nat) (s : State) : Res :=
  onCore c (whenever (!(s.span.hold && (s.ctx (s.core c).ctx).kind == 1)) s (s.coreFault c 0x2108 (s.core c).pc.toNat))

end Sys2Proof.Machine
end

