-- ==== Sys2Proof/Machine/RingBase.lean ====
section
/-!
DEFINITION. Machine/RingBase.lean: reduce-forward in the rings of a job (R359 to R364): positions, what a RED frame brings to a
line, and frames held for a later step.
-/

namespace Sys2Proof.Machine

/-- Members of a ring: 0 the X ring, 1 the Y ring (R359). -/
def State.ringLen (s : State) (ring : Nat) : Nat := if ring = 0 then s.job 1 else s.job 2
/-- This member's position in a ring. -/
def State.ringPos (s : State) (ring : Nat) : Nat := if ring = 0 then s.job 3 else s.job 4
/-- The predecessor in a ring. -/
def State.ringMinus (s : State) (ring : Nat) : Nat := if ring = 0 then s.job 5 else s.job 7
/-- The successor in a ring. -/
def State.ringPlus (s : State) (ring : Nat) : Nat := if ring = 0 then s.job 6 else s.job 8

/-- This member's distance from a line's root (R361). -/
def State.ringDist (s : State) (ring line : Nat) : Nat :=
  let n := s.ringLen ring
  (s.ringPos ring + n - line % n) % n
/-- h = ⌈(n − 1)/2⌉. -/
def ringHalf (n : Nat) : Nat := n / 2

/-- The step number that a RED frame is compared with: the step in flight, or the last committed one. -/
def State.ringStep (s : State) : Nat := (match s.seq.cur with | some r => r.num | none => s.seq.step) % 2 ^ 24

/-- A ring line, new where there is none. -/
def State.ringLine (s : State) (rid line : Nat) : RingLine :=
  (s.span.ring.find? fun x => x.rid == rid && x.line == line).getD
    { RingLine.reset with rid := rid, line := line, ring := match s.tree? rid with
      | some t => if treeDims t = 2 then 1 else 0
      | none => 0 }

/-- Replace a ring line. -/
def State.setRing (s : State) (x : RingLine) : State :=
  let same := fun (y : RingLine) => y.rid == x.rid && y.line == x.line
  let r := s.span.ring
  let r' := if r.any same then r.map fun (y : RingLine) => if same y then x else y else r ++ [x]
  { s with span := { s.span with ring := r' } }

/-- What one line of a RED frame brings to this member: a partial on its way to the root, or the spread sum. None where the
frame comes from no neighbour in the line's present ring, or the line already holds what it brings (R361). -/
def State.ringTake (s : State) (src rid line : Nat) (w : BitVec 768) : Option State :=
  let x := s.ringLine rid line
  let n := s.ringLen x.ring
  let d := s.ringDist x.ring line
  let h := ringHalf n
  let plus := src == s.ringPlus x.ring && !(d == 0 && decide (n < 2))
  let minus := src == s.ringMinus x.ring
  if x.sum.isSome then none
  else if d = 0 then
    if plus ∧ x.plus.isNone ∧ 2 ≤ n then some (s.setRing { x with plus := some w })
    else if minus ∧ x.minus.isNone ∧ 3 ≤ n then some (s.setRing { x with minus := some w }) else none
  else if d ≤ h then
    if minus then some (s.setRing { x with sum := some w })
    else if plus ∧ x.plus.isNone then some (s.setRing { x with plus := some w }) else none
  else
    if plus then some (s.setRing { x with sum := some w })
    else if minus ∧ x.minus.isNone then some (s.setRing { x with minus := some w }) else none

/-- The lines of a RED frame: line index and words; they are `n` apart (R361). -/
def redLines (n : Nat) (f : SpanFrame) : List (Nat × BitVec 768) :=
  (List.range (f.payload.length / 128)).map fun i => (f.offset + n * i, fourWords (slice f.payload (128 * i) 128))

/-- A frame with one line of a RED frame. -/
def oneLine (f : SpanFrame) (line : Nat) (w : BitVec 768) : SpanFrame := { f with offset := line, payload := bytes4 w }

/-- A line that its ring cannot take yet is kept with the frames that are early. -/
def State.ringKeep (s : State) (f : SpanFrame) : State := { s with span := { s.span with early := s.span.early ++ [f] } }

/-- A RED frame of the present step: every line is taken, or kept until its ring is entered (R361, R364). -/
def State.takeRed (s : State) (f : SpanFrame) : State :=
  let n := if f.src = s.ringPlus 0 ∨ f.src = s.ringMinus 0 then s.ringLen 0 else s.ringLen 1
  (redLines (max 1 n) f).foldl (fun (t : State) (x : Nat × BitVec 768) =>
    match t.ringTake f.src f.tag x.1 x.2 with
    | some u => u
    | none => t.ringKeep (oneLine f x.1 x.2)) s

/-- A RED frame of a foreign step is discarded (R364). -/
def State.redForeign (s : State) : State := (s.sticky 0x6100 1 5).report 0x1688 0 0

/-- A RED frame is performed, held for the step after this member's own, or discarded (R364). -/
def State.redIn (s : State) (f : SpanFrame) : State :=
  let own := s.ringStep
  if f.seq = own ∧ s.seq.cur.isSome then s.takeRed f
  else if f.seq = (own + 1) % 2 ^ 24 then s.ringKeep f
  else s.redForeign

/-- Frames kept for this step are looked at again; those of a step that is over are discarded (R364). -/
def State.absorbEarly (s : State) : State :=
  let mine := s.span.early
  mine.foldl (fun (t : State) f => t.redIn f) { s with span := { s.span with early := [] } }

end Sys2Proof.Machine
end

