-- ==== Sys2Proof/Machine/SeqEngine.lean ====
section
/-!
DEFINITION. Machine/SeqEngine.lean: the step: gather, finalisation, broadcast, kernels, commit, retry and barrel moves
(R304, R311 to R335, R392, R393).
-/

namespace Sys2Proof.Machine

/-! ### Gather (R315, R316) -/

/-- What is known of a sequence when a step is gathered: whether it will decode, the highest and the lowest POS it may have,
its input tokens left and its nodes. -/
structure Ahead where
  decode : Bool
  high : Nat
  low : Nat
  pfill : Nat
  nodes : Nat
  deriving DecidableEq, Repr

/-- The grant of a slot in the step in flight. -/
def State.inStep (s : State) (slot : Nat) : Option Grant :=
  s.seq.cur.bind fun r => r.grants.find? fun g => g.slot == slot && g.gen == (s.entry slot).gen.toNat

/-- The outlook of a slot at gather: the outcome of the step in flight is not known yet (R315). -/
def State.ahead (s : State) (slot : Nat) : Ahead :=
  let e := s.entry slot
  match s.inStep slot with
  | none => ⟨e.st == .decode, e.pos.toNat, e.pos.toNat, e.pfill.toNat, e.nodes.toNat⟩
  | some g =>
    if g.kind = 1 then
      let left := e.pfill.toNat - g.n
      ⟨left == 0, e.pos.toNat + g.n, e.pos.toNat + g.n, left, if left = 0 then e.nodes.toNat else 0⟩
    else ⟨e.st == .decode, e.pos.toNat + g.n, e.pos.toNat + 1, e.pfill.toNat, e.nodes.toNat⟩

/-- Whether an entry may take part in a step at all: in PREFILL or DECODE, not leaving, its context neither torn down nor
frozen, and no barrel waiting to be moved (R313, R314, R334, R447). -/
def State.canRun (s : State) (slot : Nat) : Bool :=
  let e := s.entry slot
  (e.st == .prefill || e.st == .decode) && !e.cancelReq && !s.seq.torn.contains e.ctx.toNat && !s.frozenCtx e.ctx.toNat
    && !(s.ctx e.ctx.toNat).dying && !s.waitsMove slot

/-- A gather under way: the state, the grants as slot, tokens and KIND, the tokens and prefill tokens left, and whether barrels
or completion entries were short. -/
structure Gather where
  st : State
  gs : List (Nat × Nat × Nat)
  tok : Nat
  pre : Nat
  short : Bool
  ring : Bool
  deriving DecidableEq, Repr

/-- Rows that positions 0 to `n` − 1 take. -/
def Plan.rowsFor (p : Plan) (n : Nat) : Nat := (n + p.tpb - 1) / p.tpb

/-- A pass of the gather remembers the slot it granted last in a class (R315). -/
def State.noteRot (s : State) (pass slot : Nat) : State :=
  { s with seq := { s.seq with rot := put s.seq.rot (4 * pass + (s.entry slot).prio.toNat) slot } }

/-- The order of a pass: by PRIO, and within a class from the slot after the last one granted (R315). -/
def State.passOrder (s : State) (pass : Nat) (slots : List Nat) : List Nat :=
  [0, 1, 2, 3].flatMap fun p =>
    let cls := slots.filter fun n => (s.entry n).prio.toNat == p
    let last := get s.seq.rot (4 * pass + p) 4095
    (cls.filter fun n => decide (last < n)) ++ cls.filter fun n => decide (n ≤ last)

/-- A sequence is granted tokens, if its completion queue has room and its rows can be allocated in full (R315, R420). -/
def Gather.grant (a : Gather) (p : Plan) (pass slot n kind : Nat) : Gather :=
  let q := (a.st.entry slot).queue.toNat
  if (a.st.queue q).free < 5 then { a with ring := true }
  else match a.st.allocRows slot (p.rowsFor ((a.st.ahead slot).high + n)) with
    | none => { a with short := true }
    | some t =>
      { a with
        st := (t.onQueue q fun x => { x with resv := x.resv + 5 }).noteRot pass slot
        gs := a.gs ++ [(slot, n, kind)], tok := a.tok - n, pre := if kind = 1 then a.pre - n else a.pre }

/-- Pass 1: one token for a decode sequence. -/
def Gather.pass1 (p : Plan) (a : Gather) (slot : Nat) : Gather := if a.tok = 0 then a else a.grant p 1 slot 1 0

/-- Pass 2: a tree allowance; a sequence whose rows cannot be allocated is granted nothing in this step. -/
def Gather.pass2 (p : Plan) (a : Gather) (slot : Nat) : Gather :=
  let v := a.st.ahead slot
  let e := a.st.entry slot
  let n := min (min v.nodes (a.st.od 0x7200 8)) (min (e.maxpos.toNat - v.low) (a.tok + 1))
  if n = 0 then a
  else match a.st.allocRows slot (p.rowsFor (v.high + n)) with
    | none =>
      { a with st := a.st.unreserve e.queue.toNat 5, gs := a.gs.filter fun x => x.1 != slot, tok := a.tok + 1, short := true }
    | some t =>
      { a with
        st := t.noteRot 2 slot
        gs := a.gs.map fun (x : Nat × Nat × Nat) => if x.1 = slot then (slot, n, 2) else x
        tok := a.tok - (n - 1) }

/-- Pass 3: a prefill chunk. -/
def Gather.pass3 (p : Plan) (a : Gather) (slot : Nat) : Gather :=
  let left := (a.st.ahead slot).pfill
  let n := min (min left (a.st.od 0x7200 7)) (min a.tok a.pre)
  if n = 0 ∨ (n < a.st.od 0x7200 6 ∧ n ≠ left) then a else a.grant p 3 slot n 1

/-- The lower of a limit and a plan's own, where the plan sets one (R340). -/
def lowerOf (a b : Nat) : Nat := if b = 0 then a else min a b

/-- STEP_TOKENS in force (R330, R340). -/
def State.stepTokens (s : State) (p : Plan) : Nat :=
  let n := lowerOf (s.od 0x7200 4) p.stepTok
  if s.seq.fallback.isSome then lowerOf n p.fbStepTok else n
/-- PREFILL_BUDGET in force (R330, R340). -/
def State.prefillBudget (s : State) (p : Plan) : Nat :=
  let n := lowerOf (s.od 0x7200 5) p.prefill
  if s.seq.fallback.isSome then lowerOf n p.fbPrefill else n

/-- The three passes (R315). -/
def State.gatherPasses (s : State) (p : Plan) : Gather :=
  let slots := ((s.seq.table.map (·.1)).filter fun n => s.canRun n && !(s.entry n).parkReq)
  let a : Gather := { st := s, gs := [], tok := s.stepTokens p, pre := s.prefillBudget p, short := false, ring := false }
  let a := (s.passOrder 1 (slots.filter fun n => (s.ahead n).decode)).foldl (Gather.pass1 p) a
  let a := (s.passOrder 2 ((a.gs.map (·.1)).filter fun n => (s.ahead n).nodes != 0)).foldl (Gather.pass2 p) a
  (s.passOrder 3 (slots.filter fun n => !(s.ahead n).decode && (s.ahead n).pfill != 0)).foldl (Gather.pass3 p) a

/-- The largest quad load of a step's sequences: barrels of one layer on one quad, over the rows that hold committed tokens
(R389, R393). -/
def State.quadLoad (s : State) (p : Plan) (slots : List Nat) : Nat :=
  let per := max 1 (p.bps / max 1 p.layers)
  let mine := s.seq.frames.filter fun x =>
    slots.contains x.2.1 && decide (x.2.2.1 < p.rowsFor (s.entry x.2.1).pos.toNat)
  let counts := mine.foldl (fun (m : List (Nat × Nat)) (x : Nat × (Nat × Nat × Nat)) =>
    upd m (x.2.2.2 / per * 128 + 8 * frameStack x.1 + frameQuad x.1) 0 (· + 1)) []
  counts.foldl (fun (m : Nat) x => max m x.2) 0

/-- The sequence list in list order: by CTX, then by slot (R319). -/
def listOrder (gs : List Grant) : List Grant :=
  (sortUp (gs.map (·.ctx))).flatMap fun c =>
    (sortUp ((gs.filter (·.ctx == c)).map (·.slot))).filterMap fun n => gs.find? fun g => g.slot == n

/-- GATHER: the next step is gathered, while the step before it runs or when none is in flight (R17, R315, R393, R420). -/
def execGather (s : State) : Res :=
  .next (match s.host.plan with
    | none => s
    | some p =>
      if s.seq.nxt.isSome || !s.mayGather then s
      else
        let a := s.gatherPasses p
        let t := if a.short then (a.st.sticky 0x7200 1 5).bumpLane 0x7200 0x13 4 1 else a.st
        let t := if a.ring then t.sticky 0x1100 1 4 else t
        let gs := listOrder (a.gs.map fun (x : Nat × Nat × Nat) =>
          let e := t.entry x.1
          { Grant.reset with
            slot := x.1, gen := e.gen.toNat, n := x.2.1, kind := x.2.2, pos := e.pos.toNat, ctx := e.ctx.toNat
            part := e.part.toNat })
        if gs.isEmpty then t
        else
          let load := t.quadLoad p (gs.map (·.slot))
          let num := match t.seq.cur with | some r => r.num + 1 | none => t.seq.step + 1
          let t := t.setOd 0x7200 0x35 (max (t.od 0x7200 0x35) load)
          { t with seq := { t.seq with nxt := some { StepRun.reset with num := num, grants := gs, qload := load } } })

/-! ### Finalisation (R320, R322) -/

/-- The tokens of a prefill grant: LASTTOK first after an APPEND, then tokens read from the input (R307, R320). -/
def Entry.prefillToks (e : Entry) (n : Nat) (d : List Byte) : List (BitVec 24) :=
  let f := b2n e.feed
  (if e.feed then [e.lasttok] else []) ++ (List.range (n - f)).map fun i => BitVec.ofNat 24 (num8 d (4 * i) 3)

/-- The final form of a grant, with the trees that finalisation discards; none for a sequence that has left or waits. -/
def State.finalGrant (s : State) (tokens : List (Nat × List Byte)) (g : Grant) : State × Option Grant :=
  let e := s.entry g.slot
  let g := { g with pos := e.pos.toNat }
  if e.gen.toNat ≠ g.gen ∨ !s.canRun g.slot ∨ e.st ≠ (if g.kind = 1 then .prefill else .decode) then (s, none)
  else if g.kind = 1 then
    let n := min g.n e.pfill.toNat
    (s, some { g with n := n, toks := e.prefillToks n (get tokens g.slot []) })
  else
    let bad := e.nodes != 0 && (e.treePos != e.pos || !treeOk e.tree)
    let t := if bad then s.discardTree g.slot else s
    if g.kind = 2 ∧ e.nodes ≠ 0 ∧ !bad then
      let n := min (min g.n e.nodes.toNat) (e.maxpos.toNat - e.pos.toNat)
      (t.onEntry g.slot fun e => { e with fresh := false },
        some { g with
          n := n, toks := e.lasttok :: ((e.tree.take n).drop 1).map nodeToken
          parents := (e.tree.take n).map nodeParent })
    else (t, some { g with n := 1, kind := 0, toks := [e.lasttok], parents := [] })

/-- Grants of the next step are finalised one after another; the reserved entries of one that falls out are returned. -/
def State.finalGrants (s : State) (tokens : List (Nat × List Byte)) (gs : List Grant) : State × List Grant :=
  gs.foldl (fun (r : State × List Grant) g =>
    match r.1.finalGrant tokens g with
    | (t, some x) => (t, r.2 ++ [x])
    | (t, none) => (t.unreserve (t.entry g.slot).queue.toNat 5, r.2)) (s, [])

/-- The next step is finalised and built (R317 to R320). -/
def State.finalise (s : State) (tokens : List (Nat × List Byte)) : State :=
  match s.seq.nxt with
  | none => s
  | some r =>
    if r.ready then s
    else
      let f := s.finalGrants tokens r.grants
      let gs := listOrder f.2
      if gs.isEmpty then { f.1 with seq := { f.1.seq with nxt := none } }
      else
        let b := f.1.buildStep { r with num := f.1.seq.step + 1 } gs
        { b.1 with seq := { b.1.seq with nxt := some b.2 } }

/-! ### Broadcast (R328, R392, R393) -/

/-- The ports by which this member's ring neighbours are reached (R359). -/
def State.ringTargets (s : State) : List Nat :=
  (if s.job 1 = 1 then [] else [s.job 5, s.job 6]) ++ (if s.job 2 = 1 then [] else [s.job 7, s.job 8])

/-- Whether a port on the job's rings is short of groups or a ring frame takes a detour (R392, bit 4). -/
def State.ringShort (s : State) : Bool :=
  s.ringTargets.any fun m => !s.plainRoute m || (match s.routePort m with
    | some p => !(s.sport p).retired.isEmpty
    | none => true)

/-- The conditions of R392 that hold at a broadcast, by their bits. -/
def State.standingVoids (s : State) (load : Nat) : List Nat :=
  let c := s.cellar
  (if s.faults.diesOut.isEmpty then [] else [0]) ++ (if s.span.hold then [1] else [])
    ++ (if c.folding || !fits c.wlen c.live c.ceiling then [2] else [])
    ++ (if (List.range 16).any (fun n => decide (2 ≤ (s.stack n).level) || !s.stackUp n || (s.stack n).sauDown) then [3] else [])
    ++ (if s.ringShort then [4] else []) ++ (if s.throttle = 0 then [] else [5])
    ++ (if s.od 0x7200 0x31 ≠ 0 ∧ s.od 0x7200 0x31 < load then [7] else [])

/-- The period of the step before is measured at a broadcast (R392, R393). -/
def State.measure (s : State) (load : Nat) : State :=
  let t := { s with seq := { s.seq with lastB := s.now, voided := false } }
  if s.seq.lastB = 0 then t
  else
    let period := min (2 ^ 32 - 1) (s.now - s.seq.lastB)
    let voids := s.standingVoids load
    let t := voids.foldl (fun (t : State) b => t.sticky 0x7200 0x34 b) (t.setOd 0x7200 0x32 period)
    if s.seq.voided || !voids.isEmpty then t.bumpLane 0x7200 0x37 2 1
    else
      let t := (t.setOd 0x7200 0x33 (max (t.od 0x7200 0x33) period)).bumpLane 0x7200 0x37 0 1
      if t.od 0x7200 0x30 ≠ 0 ∧ t.od 0x7200 0x30 < period then t.bumpLane 0x7200 0x37 1 1 else t

/-- Whether nothing holds a broadcast back (R328, R366, R469, R476, R488, R490, R201). -/
def State.mayBroadcast (s : State) : Bool :=
  s.mayGather && !s.seq.quiet && !s.span.hold && !s.faults.reload && s.power.arith
    && !s.cellar.unfolding

/-! ### The commit (R324 to R326) -/

/-- The live sequence of a grant: not left, not leaving, its context not torn down (R333, R334). -/
def State.liveGrant (s : State) (g : Grant) : Bool :=
  let e := s.entry g.slot
  e.gen.toNat == g.gen && (e.st == .prefill || e.st == .decode) && !e.cancelReq && !s.seq.torn.contains e.ctx.toNat

/-- The checked result record of the `j`-th grant; none where the record breaks a rule (R324). -/
def State.resultOf (s : State) (p : Plan) (num j : Nat) (g : Grant) : Option ResRec :=
  let e := s.entry g.slot
  if g.kind = 1 ∧ g.n < e.pfill.toNat then some { ResRec.reset with slot := g.slot, accept := g.n, reads := false }
  else
    let r := s.getBytes (p.resultArea num + 1024 * j) 1024
    let d := r.1
    let w := num8 d 0 4
    let hasTree := bit w 29
    let nn := num8 d 5 1
    let accept := num8 d 4 1
    let path := fun (k : Nat) => num8 d (64 + k) 1
    let next := BitVec.ofNat 24 (bits w 23 0)
    let tree := if hasTree then treeOf (slice d 512 512) nn else []
    let out := { ResRec.reset with slot := g.slot, next := next, fin := bit w 31, tree := tree }
    if r.2 ∨ (hasTree ∧ nn = 0) ∨ 64 < nn then none
    else if g.kind = 1 then some { out with accept := g.n, toks := [next] }
    else if accept = 0 ∨ g.n < accept ∨ path 0 ≠ 0 then none
    else if (List.range accept).all fun k =>
        k == 0 || (decide (path k < g.n) && g.parents.getD (path k) 0 == path (k - 1)) then
      some { out with
        accept := accept
        toks := ((List.range accept).drop 1).map (fun k => g.toks.getD (path k) 0) ++ [next] }
    else none

/-- Every result record of the step's live sequences, or none where one is malformed. -/
def State.allResults (s : State) (p : Plan) (r : StepRun) : Option (List ResRec) :=
  ((withPos r.grants).filter fun x => s.liveGrant x.2).mapM fun x => s.resultOf p r.num x.1 x.2

/-- The largest number of tentative lines that a cask holds (R327, R396). -/
def State.tentMost (s : State) : Nat :=
  let counts := s.cellar.sets.foldl (fun (m : List (Nat × Nat)) (x : Nat × List Line) =>
    upd m (x.1 / 2048) 0 (· + (x.2.filter (·.tent)).length)) []
  counts.foldl (fun (m : Nat) x => max m x.2) 0

/-- The last completion record has arrived: the results are checked and the commit list goes to every cask; a malformed record
is a fault of the model context (R324, R325). -/
def State.startCommit (s : State) (r : StepRun) : State :=
  match s.host.plan with
  | none => s
  | some p =>
    match s.allResults p r with
    | none => ((s.sticky 0x7200 1 2).reportCtx 0x2604 p.model (s.ctx p.model).part 0 0).modelF2 0x2604
    | some rs =>
      let commits := rs.map fun (x : ResRec) => (x.slot, (s.entry x.slot).pos.toNat, x.accept)
      let t := s.setOd 0x7200 0x36 (max (s.od 0x7200 0x36) s.tentMost)
      let t := (rs.filter (·.reads)).foldl (fun (t : State) x => match (withPos r.grants).find? fun y => y.2.slot == x.slot with
        | some y => t.engineReads (p.resultArea r.num + 1024 * y.1) 1024
        | none => t) t
      let t := t.multicast r.num
      { t with
        seq := { t.seq with phase := .committing, results := rs, commits := commits }
        cellar := { t.cellar with kept := [], reported := [] } }

/-- A kernel of the step in flight has ended. -/
def State.kernelEnded (s : State) : State :=
  match s.seq.cur with
  | none => s
  | some r =>
    let r := { r with ended := r.ended + 1 }
    let t := { s with seq := { s.seq with cur := some r } }
    if s.seq.phase = .running ∧ kernelsOf r.wl ≤ r.ended then t.startCommit r else t

/-- The barrels of a slot that a record named as poisoned, or that lie in spared quads, are moved before the step is retried
(R313, R332). -/
def State.moveSlot (s : State) (slot : Nat) : State :=
  ((s.framesOf slot).filter fun x => s.frameBad x.1 || s.hbmPoison (s.frameBase x.1) 65536).foldl
    (fun (t : State) (x : Nat × (Nat × Nat × Nat)) => t.moveBarrel slot x.2.2.1 x.2.2.2) s

/-- What the engine does about the fault in a completion record: a tenant's context is torn down; a model kernel's
`SAU_BARREL` with POISON or NOSCAN moves the barrels of the slot and retries the step without counting it; any other fault
of the model context is retried or given up (R331, R332, R334). -/
def State.kernelFault (s : State) (c code ctx : Nat) : State :=
  if (s.ctx ctx).kind ≠ 1 then s.tearDown ctx
  else match s.seq.sauBad.find? fun x => x.1 == c && (x.2.2 == 0x0A || x.2.2 == 0x0B) with
    | some x => if code = 0x2541 then (s.moveSlot x.2.1).retryStep else s.modelF2 code
    | none => s.modelF2 code

/-- The lines of the result records of the step in flight, once its last completion record is at hand (R324). -/
def State.resultsDue (s : State) : List Nat :=
  match s.seq.cur, s.host.plan with
  | some r, some p =>
    if s.seq.phase = .running ∧ kernelsOf r.wl ≤ r.ended + 1 then
      ((withPos r.grants).filter fun x => s.liveGrant x.2).flatMap fun x => linesOf (p.resultArea r.num + 1024 * x.1) 1024
    else []
  | _, _ => []

/-- COMPLETION_RECORD: the completion record of the last kernel on a core reaches the engine; the last of the step starts the
commit, where the engine has the result records: a copy that the companion owns is asked for first (R104, R214, R325). -/
def execCompletionRecord (c : Nat) (s : State) : Res :=
  onCore c (whenever ((s.core c).unposted && s.reqs.all fun r => r.agent.core? != some c) s (s.whenShared s.resultsDue
    (let k := s.core c
     let t := s.onCoreState c fun k => { k with unposted := false }
     if s.seq.phase ≠ .running then t
     else
       let code := k.ksFault.toNat
       let u := if code = 0 then t else t.kernelFault c code k.ctx
       if u.seq.phase = .running then u.kernelEnded else u)))

/-- KERNEL_START: the next work-list entry of the step in flight that names the core starts on it; an entry of a context that
has been torn down is passed over (R102, R103, R319, R334). -/
def execKernelStart (c : Nat) (s : State) : Res :=
  onCore c (match s.seq.cur with
    | none => s
    | some r =>
      match r.nextEntry c with
      | none => s
      | some e =>
        whenever (s.seq.phase == .running && !(s.core c).run && !(s.core c).unposted && !s.faults.safe && s.power.arith) s
          (let seen := { s with seq := { s.seq with cur := some { r with started := put r.started c (cnt r.started c + 1) } } }
           if s.seq.torn.contains e.ctx then seen.kernelEnded
           else
             let t := seen.tick
             (t.discardLoads c).onCoreState c fun k => k.begin e r.num t.now))

/-- BROADCAST: a multicast of class CTL leaves the sequence engine's router (R238): the finalised step, or the one to be retried, is multicast; the frequency agreed for it is applied and the
period of the step before measured; a module that is throttled says so (R17, R325, R328, R329, R369, R393, R505, R511;
assumption 112). -/
def execBroadcast (s : State) : Res :=
  .next (
    let go := fun (r : StepRun) =>
      if !s.mayBroadcast || r.grants.any (fun g => s.waitsMove g.slot) then s
      else
        let load := match s.seq.cur with | some c => c.qload | none => r.qload
        let t := (((s.tick).measure load).applyFreq r.num).endCapLag r.num
        let fresh := s.seq.phase == .idle
        let r := { r with began := t.now, started := [], ended := 0 }
        let t := { t with
          seq := { t.seq with
            cur := some r, nxt := if fresh then none else t.seq.nxt, phase := .running, commits := [], results := []
            sauBad := [] }
          power := { t.power with throttledStep := false } }
        let t := if fresh then { t with hbm := { t.hbm with olds := [] } } else t
        let t := ((t.throttleNotice).multicast r.num).absorbEarly
        if r.wl.isEmpty then t.startCommit r else t
    match s.seq.phase, s.seq.cur, s.seq.nxt with
    | .again, some r, _ => go r
    | .idle, _, some r => if r.ready then go r else s
    | _, _, _ => s)

/-! ### Retry (R329, R330) -/

/-- The grants that a retry carries: those of sequences that can still run, within the limits of the fallback plan where it is
in force; entries reserved for the others are returned (R314, R329, R330). -/
def State.retryGrants (s : State) (p : Plan) (gs : List Grant) : State × List Grant :=
  let r := gs.foldl (fun (r : State × List Grant × Nat × Nat) g =>
    let pre := if g.kind = 1 then g.n else 0
    let beyond := s.seq.fallback.isSome && (decide (r.2.2.1 < g.n) || decide (r.2.2.2 < pre))
    if s.liveGrant g && !s.waitsMove g.slot && !beyond then (r.1, r.2.1 ++ [g], r.2.2.1 - g.n, r.2.2.2 - pre)
    else (r.1.unreserve (s.entry g.slot).queue.toNat 5, r.2.1, r.2.2.1, r.2.2.2))
    (s, [], s.stepTokens p, s.prefillBudget p)
  (r.1, r.2.1)

/-- The step is made ready to be broadcast again: reduction state discarded, marked cores retired, the work list expanded anew
(R252, R329, R330, R466). -/
def State.rebuild (s : State) : State :=
  match s.seq.cur, s.host.plan with
  | some r, some p =>
    let t := s.clearReductions.retireCores
    let f := t.retryGrants p r.grants
    if f.2.isEmpty then
      { f.1 with seq := { f.1.seq with cur := none, phase := .idle, retrying := 0 } }
    else
      let b := f.1.buildStep r f.2
      { b.1 with seq := { b.1.seq with cur := some b.2, phase := .again, retrying := 0 } }
  | _, _ => { s with seq := { s.seq with cur := none, phase := .idle, retrying := 0 } }

/-- `MODEL_FAULTED` step records, and the same error on every fence that a sequence of the step names; waits on them end at
their next look (R488). -/
def State.abandonStep (s : State) : State :=
  match s.seq.cur with
  | none => { s with seq := { s.seq with phase := .idle, retrying := 0 } }
  | some r =>
    let t := r.grants.foldl (fun (t : State) (g : Grant) =>
      let e := t.entry g.slot
      let q := e.queue.toNat
      if e.gen.toNat ≠ g.gen then t.unreserve q 5
      else ((t.postStep (t.bareRec g.slot stModel) 5).irq q).onFence e.fence.toNat fun f => { f with err := stModel }) s
    { t with
      seq := { t.seq with cur := none, phase := .idle, retrying := 0, retries := 0 }
      faults := { t.faults with modelFault := none } }

/-- COMMIT_COMPLETE: every live cask has reported; the commit point may follow. After an empty commit list the step is made
ready for its retry, or abandoned (R325, R329, R488). -/
def execCommitComplete (s : State) : Res :=
  .next (whenever (s.seq.phase == .committing
      && (List.range 512).all fun p => s.cellar.dead.contains p || s.cellar.reported.contains p) s
    (match s.seq.retrying with
      | 0 => { s with seq := { s.seq with phase := .committed } }
      | 2 => s.clearReductions.abandonStep
      | _ => s.rebuild))

/-! ### The commit point (R304, R320, R325) -/

/-- The entry after its sequence has committed a step (R325, R367). -/
def Entry.committed (e : Entry) (g : Grant) (r : ResRec) : Entry :=
  let pos := BitVec.ofNat 32 (e.pos.toNat + r.accept)
  let left := e.pfill - BitVec.ofNat 32 g.n
  let read := g.n - b2n e.feed
  let e1 := { e with
    prevPos := e.pos, prevTok := e.lasttok, prevPfill := e.pfill, prevAddr := e.addr
    pos := pos, steps := if e.steps = BitVec.allOnes 32 then e.steps else e.steps + 1 }
  let e2 := if g.kind = 1 then { e1 with
      pfill := left, addr := e.addr + BitVec.ofNat 48 (4 * read), feed := false
      st := if left = 0 then .decode else e1.st } else e1
  let e3 := if r.reads then
      (if e2.fresh then { e2 with lasttok := r.next }
       else { e2 with
         lasttok := r.next, tree := r.tree, nodes := BitVec.ofNat 7 r.tree.length, treePos := pos, treeHost := false })
    else e2
  if r.fin then { e3 with st := .leaving, err := 0x0110 }
  else if e3.maxpos.toNat ≤ pos.toNat then { e3 with st := .leaving, err := 0x0111 } else e3

/-- The step record of a committed sequence, without the tokens that it has reported before (R325, R367). -/
def State.stepRec (s : State) (r : ResRec) : StepRec :=
  let e := s.entry r.slot
  { s.bareRec r.slot (if e.st == .leaving then e.err.toNat else 0) with toks := r.toks.drop e.skip }

/-- The seal of a racked sequence goes to its buddy, and its record is held until the acknowledgement (R325, R328, R376). -/
def State.sealStep (s : State) (r : ResRec) : State :=
  let e := s.entry r.slot
  let buddy := e.buddy.toNat
  let seq := (s.txTo buddy).next
  let t := s.stream 3 buddy 0 0 (s.rackRecord r.slot)
  { t with
    span := { t.span with seals := t.span.seals ++ [(buddy, seq, r.slot, e.pos.toNat)] }
    seq := { t.seq with held := t.seq.held ++
      [{ slot := r.slot, buddy := buddy, fseq := seq, entry := t.stepRec r, leave := e.st == .leaving }] } }

/-- One sequence of the step commits: its entry is updated, the counts rise, and its record is posted, or held for its seal; a
sequence that leaves signals its fence and frees its slot (R18, R325, R432). -/
def State.commitOne (s : State) (r : StepRun) (x : ResRec) : State :=
  match r.grants.find? (·.slot == x.slot) with
  | none => s
  | some g =>
    if !s.liveGrant g then s
    else
      let t := s.onEntry x.slot fun e => e.committed g x
      let t := t.bumpLane 0x7200 0x13 0 x.accept
      let t := if g.kind = 2 then (t.bumpLane 0x7200 0x13 1 g.n).bumpLane 0x7200 0x13 2 x.accept else t
      let ctxs := t.host.ctxs.map fun (y : Nat × Ctx) =>
        if y.1 = g.ctx then (y.1, { y.2 with toks := (y.2.toks + x.accept) % 2 ^ 64 }) else y
      let own := if g.ctx = 0 then x.accept else 0
      let t := { t with host := { t.host with ctxs := ctxs, toks0 := (t.host.toks0 + own) % 2 ^ 64 } }
      let e := t.entry x.slot
      let out : State := t.postStep (t.stepRec x) 5
      let u : State := if e.racked && !t.faults.safe then t.sealStep x
        else if e.st == .leaving then out.signalAndFree x.slot else out
      if (u.entry x.slot).gen == e.gen then u.onEntry x.slot fun e => { e with skip := e.skip - x.toks.length } else u

/-- Records of sequences of the step that are not committed leave their reserved entries (R420). -/
def State.returnEntries (s : State) (r : StepRun) (fin : List Nat) : State :=
  (r.grants.filter fun g => !fin.contains g.slot).foldl (fun (t : State) (g : Grant) =>
    t.unreserve (s.entry g.slot).queue.toNat 5) s

/-- Contexts of a step that committed count it (R432). -/
def State.countSteps (s : State) (ctxs : List Nat) : State :=
  let count := fun (y : Nat × Ctx) =>
    if ctxs.contains y.1 then (y.1, { y.2 with steps := (y.2.steps + 1) % 2 ^ 64 }) else y
  let own := if ctxs.contains 0 then 1 else 0
  { s with host := { s.host with ctxs := s.host.ctxs.map count, steps0 := (s.host.steps0 + own) % 2 ^ 64 } }

/-- Sequences that leave outside their own commit: those cancelled or lost, and those of contexts torn down (R333, R334). -/
def State.leaveAll (s : State) : State :=
  let torn := s.seq.torn
  let slots := (s.seq.table.filter fun x => x.2.st != .free && (x.2.cancelReq || torn.contains x.2.ctx.toNat)
    && !s.seq.held.any fun h => h.slot == x.1 && h.leave).map (·.1)
  slots.foldl (fun (t : State) n =>
    let e := t.entry n
    t.leaveWith n (if e.cancelReq then e.leaveErr.toNat else stTorn)) s

/-- Parks that were asked for take effect (R307). -/
def State.parkAll (s : State) : State :=
  let park := fun (x : Nat × Entry) =>
    let run := x.2.st == .prefill || x.2.st == .decode
    if x.2.parkReq then (x.1, { x.2 with parkReq := false, st := if run then .parked else x.2.st }) else x
  { s with seq := { s.seq with table := s.seq.table.map park } }

/-- The command at the head of a queue goes back to its ring (R447). -/
def State.returnCommand (s : State) (q : Nat) : State :=
  (s.dropOpen q).onQueue q fun x =>
    if x.cmd.isSome then { x with cmd := none, posted := false, rd := (x.rd + 2 ^ 32 - 1) % 2 ^ 32, resv := x.resv - 1 } else x

/-- A freeze that was asked for takes effect: the partition's contexts are frozen, and commands fetched for them go back to
their rings (R446, R447). -/
def State.freezeNow (s : State) : State :=
  let m := s.parts.mig
  let part := s.od 0x7100 3
  whenever m.freezing s
    (let freeze := fun (x : Nat × Ctx) => if x.2.part = part then (x.1, { x.2 with frozen := true }) else x
     let t := { s with
       parts := { s.parts with mig := { m with freezing := false, state := 2 } }
       host := { s.host with ctxs := s.host.ctxs.map freeze } }
     ((t.host.queues.filter fun x => t.frozenCtx (qCtx x.2.desc)).map (·.1)).foldl State.returnCommand t)

/-- Whether an object lies wholly in a carve-out, pieces that touch taken together. -/
def Part.covers (p : Part) (base len : Nat) : Bool :=
  (List.range ((base % 2 ^ 30 + len + 2 ^ 30 - 1) / 2 ^ 30)).all fun i =>
    p.carves.any fun x => decide (x.1 ≤ base / 2 ^ 30 + i ∧ base / 2 ^ 30 + i < x.1 + x.2)

/-- Once the contexts of a partition under reset are gone, the memory objects in its carve-outs are freed whatever their host
counts, with a notice for each (R444, R612). -/
def State.freeCarved (s : State) (n : Nat) : State :=
  match find? s.parts.parts n with
  | none => s
  | some p =>
    if !p.resetting ∨ p.freed ∨ s.host.ctxs.any (fun x => x.2.part == n) then s
    else
      let mine := s.host.mems.filter fun x => isHbm x.2.base && p.covers x.2.base x.2.len
      let rest := s.host.mems.filter fun x => !(isHbm x.2.base && p.covers x.2.base x.2.len)
      let t := { s with
        host := { s.host with mems := rest }
        parts := { s.parts with parts := put s.parts.parts n { p with freed := true } } }
      mine.foldl (fun (t : State) x => t.notice { Notice.reset with status := 0x0304, subj := x.1, b12 := n }) t

/-- A buddy that is lost is given up: its sequences are racked no longer, records held for its seals are posted, and exports to it
end with `SEQ_NO_BUDDY` (R308, R378). -/
def State.dropBuddy (s : State) (buddy : Nat) : State :=
  let mine := s.seq.held.filter fun x => x.buddy == buddy
  let table := s.seq.table.map fun (x : Nat × Entry) =>
    if x.2.racked ∧ x.2.buddy.toNat = buddy then (x.1, { x.2 with racked := false, buddy := 0 }) else x
  let t := { s with
    seq := { s.seq with table := table, held := s.seq.held.filter fun x => x.buddy != buddy }
    span := { s.span with seals := s.span.seals.filter fun x => x.1 != buddy } }
  let t := mine.foldl State.postHeld t
  let out := s.seq.exports.filter fun x => x.2.1 == buddy
  let t := out.foldl (fun (t : State) x => t.settle' 0x08 x.1 stNoBuddy)
    { t with
      seq := { t.seq with exports := t.seq.exports.filter fun x => x.2.1 != buddy }
      span := { t.span with opens := t.span.opens.filter fun x => !out.any fun y => y.1 == x.1 } }
  (t.sticky 0x6200 1 0).report 0x16C1 0 buddy

/-- What happens at every step boundary, whether a step committed or none was in flight: sequences leave, parks and freezes
take effect, contexts being removed go, marked cores are retired, and a changed frequency request is flooded (R307, R334,
R368, R430, R447, R466, R510). -/
def State.boundary (s : State) : State :=
  let t := s.span.buddyGone.foldl (fun (t : State) b => t.dropBuddy b) s
  let t := { t with span := { t.span with buddyGone := [] } }.leaveAll.parkAll.freezeNow
  let t := { t with seq := { t.seq with torn := t.seq.torn.filter fun c => t.host.gone.any (·.1 == c) } }
  let t := s.host.gone.foldl (fun (t : State) x => t.endGone x.1 x.2) t
  let t := (s.parts.parts.map (·.1)).foldl State.freeCarved t
  t.retireCores.capDrift.boundaryRequest

/-- The committed step is accounted for (R304, R325). -/
def State.commitStep (s : State) (r : StepRun) : State :=
  let fin := (s.seq.results.filter fun x => match r.grants.find? (·.slot == x.slot) with
    | some g => s.liveGrant g
    | none => false)
  let t := s.returnEntries r (fin.map (·.slot))
  let queues := dedup (fin.map fun x => (s.entry x.slot).queue.toNat)
  let t := fin.foldl (fun (t : State) x => t.commitOne r x) t
  let t := t.countSteps (dedup ((r.grants.filter fun g => fin.any (·.slot == g.slot)).map (·.ctx)))
  let t := queues.foldl (fun (t : State) q => t.irq q) t
  { t with seq := { t.seq with
    cur := none, phase := .idle, commits := [], results := [], sauBad := [], step := r.num, retries := 0, quiet := true } }

/-- COMMIT_POINT: the replica acknowledges the step's table update; with no step in flight, what waits for a commit point takes
effect as well. The next step is then finalised; the command gives the bytes that its prefill reads return (R304, R320,
R325). -/
def execCommitPoint (tokens : List (Nat × List Byte)) (s : State) : Res :=
  .next (match s.seq.phase, s.seq.cur with
    | .committed, some r => (s.commitStep r).boundary.finalise tokens
    | .idle, _ => s.boundary.finalise tokens
    | _, _ => s)

/-! ### The replica (R304) -/

/-- SEQ_TAKEOVER: the instance that runs the engine stops; the replica takes over and retries the step, or, where there is
none, the module enters the safe state (R304, R329, R468). -/
def execSeqTakeover (s : State) : Res :=
  .next (match s.seq.instances with
    | 0 => s
    | 1 => ({ s with seq := { s.seq with instances := 0 } } : State).enterSafe
    | _ => ((({ s with seq := { s.seq with instances := 1, onX1 := !s.seq.onX1 } }.sticky 0x7200 1 1).report 0x1602 0 0).void
        1).retryStep)

/-! ### Barrel moves (R313, R314) -/

/-- Whether a barrel waits to be moved now: its frame lies in a spared quad or on a lost stack; on a stack that cannot be
reached only under KV parity or with a buddy (R313, R314). -/
def State.moveDue (s : State) (slot f : Nat) : Bool :=
  s.sparedQuad f || (s.stack (frameStack f)).lost ||
    (!s.stackUp (frameStack f) && (s.hbm.parity || (s.entry slot).racked))

/-- BARREL_MOVE: between steps, one barrel that must be moved is moved, or its sequence imports its KV or ends (R313, R314). -/
def execBarrelMove (slot row k : Nat) (s : State) : Res :=
  .next (match (s.framesOf slot).find? fun x => x.2.2 == (row, k) with
    | some x => whenever (s.moveDue slot x.1 && (s.entry slot).st != .importing && !s.stepping) s (s.moveBarrel slot row k)
    | none => s)

end Sys2Proof.Machine
end

