-- ==== Sys2Proof/Machine/SpanFabric.lean ====
section
/-!
DEFINITION. Machine/SpanFabric.lean: the Span ports, frames, streams, rings, the job and racking (chapter 13), with the digest
exchange of R12 and the topology check of R539.
-/

namespace Sys2Proof.Machine

/-! ### Readiness and the topology check (R539, R541) -/

/-- A bring-up row completes at a time of the time base (R527). -/
def State.rowDone (s : State) : State :=
  { s with bring := { s.bring with row := s.bring.row + 1, times := s.bring.times ++ [s.now / 1000000] } }

/-- Whether a direction has an expected neighbour (R539). -/
def State.expected (s : State) (p : Nat) : Bool := (s.od 0xA000 0xB).testBit p

/-- The module expected behind a port (R539). -/
def State.expectId (s : State) (p : Nat) : Nat :=
  let x := s.modId / 256
  let y := s.modId % 256
  match p with
  | 0 => 256 * ((x + s.nxt - 1) % s.nxt) + y
  | 1 => 256 * ((x + 1) % s.nxt) + y
  | 2 => 256 * x + (y + s.nyt - 1) % s.nyt
  | _ => 256 * x + (y + 1) % s.nyt

/-- The port of a neighbour that faces a port of this module. -/
def facing (p : Nat) : Nat := if p % 2 = 0 then p + 1 else p - 1

/-- Whether the last HELLO of a port names the expected neighbour and the port facing it (R346, R539). -/
def State.helloOk (s : State) (p : Nat) : Bool :=
  let x := s.sport p
  x.seen && s.expected p && x.seenId == s.expectId p && x.seenPort == facing p

/-- The module declares itself ready (R541). -/
def State.becomeReady (s : State) : State :=
  whenever (s.bring.row == 15 && !s.faults.safe) s
    (let t := s.rowDone
     ({ t with bring := { t.bring with state := 8 } } : State).notice { Notice.reset with status := 0x0301 })

/-- The topology check: every expected direction's port is in service with its neighbour confirmed, and a committed set exists
(R16, R539 to R541). -/
def State.topoCheck (s : State) : State :=
  whenever (s.bring.row == 14 && s.od 0xA000 0xC == 1 && [0, 1, 2, 3].all fun p => !s.expected p || (s.portUp p && s.helloOk p)) s
    (({ s with bring := { s.bring with topoOk := true } } : State).rowDone.becomeReady)

/-! ### Members and ports that are lost (R344 to R346, R365, R366) -/

/-- An import whose buddy or rack is lost: the slot returns to FREE with KV_LOST (R380). -/
def State.importLost (s : State) (slot : Nat) : State :=
  let t := s.onEntry slot fun e => { e with err := BitVec.ofNat 16 stKvLost }
  let own := !(s.seq.cmdWait.any fun x => x.1 == 0x09 && x.2.1 == slot)
  let u := if own then t.depart slot stKvLost else t.freeSlot slot
  (u.sticky 0x6200 1 1).report 0x16C2 7 slot

/-- A job member is declared lost: the loss is flooded and the job hold begins; a buddy among them is given up at the next
commit point, and imports from it have failed (R365, R366, R378, R380). -/
def State.memberGone (s : State) (m : Nat) : State :=
  whenever (decide (1 < s.members) && m != s.modId && !s.span.lost.contains m) s
    (let racked := s.seq.table.any fun x => x.2.racked && x.2.buddy.toNat == m
     let t := { s with span := { s.span with
       lost := s.span.lost ++ [m], hold := true, gone := s.span.gone + 1, tabled := false
       buddyGone := if racked then addTo s.span.buddyGone m else s.span.buddyGone } }
     let t := ((((t.setOd 0x6100 4 m).sticky 0x6100 1 3).void 1).report 0x1686 0 m).floodLost m
     (s.span.imports.filter fun x => x.2.1 == m).foldl (fun (t : State) x => t.importLost x.1) t)

/-- Ring neighbours that no route reaches any longer are lost (R365). -/
def State.dropUnreached (s : State) : State :=
  (s.ringTargets.filter fun m => (s.routePort m).isNone && m != s.modId).foldl (fun (t : State) m => t.memberGone m) s

/-- Change the state of a port. -/
def State.onPort (s : State) (p : Nat) (f : PortSt → PortSt) : State :=
  { s with span := { s.span with ports := upd s.span.ports p PortSt.reset f } }

/-- A port goes down: routed frames that wait there leave by their new routes; those already on the link are re-sent end to end
(R344, R346, R350, R353). -/
def State.portDown (s : State) (p : Nat) : State :=
  whenever (s.portUp p) s
    (let t := s.onPort p fun x => { x with up := false, buf := [], base := 0, queue := [], owed := [] }
     let t := ((s.sport p).queue.filter fun f => decide (2 ≤ f.typ ∧ f.typ ≤ 8)).foldl (fun (t : State) f => t.sendRouted f) t
     ((t.sticky 0x6100 1 1).report 0x1684 5 p).dropUnreached)

/-- The bytes of a LINK frame: frames received, flags, the group concerned and the credits returned (R352). -/
def State.linkPayload (s : State) (p : Nat) (nak retire ack : Bool) (group : Nat) : List Byte :=
  leBytes (s.sport p).rx 4 ++ leBytes (b2n nak + 2 * b2n retire + 4 * b2n ack + 8 * group) 1 ++ leBytes 0 3
    ++ [2, 3, 4].flatMap (fun c => leBytes (min 65535 (get (s.sport p).owed c 0)) 2) ++ leBytes 0 2

/-- A LINK frame is sent; the credits it returns are owed no longer. -/
def State.sendLink (s : State) (p : Nat) (nak retire ack : Bool) (group : Nat) : State :=
  whenever (s.portUp p) s
    ((s.emit p (s.frame 1 0 0 0 0 (s.linkPayload p nak retire ack group))).onPort p fun x =>
      { x with owed := (x.owed.map fun (y : Nat × Nat) => (y.1, y.2 - 65535)).filter fun y => y.2 != 0 })

/-- A lane group is retired; with fewer than two in service the port is down (R344). -/
def State.retireSpan (s : State) (p group : Nat) (ask : Bool) : State :=
  whenever (decide (group < 4) && !(s.sport p).retired.contains group) s
    (let t := s.onPort p fun x => { x with retired := insertUp group x.retired }
     let t := (t.sticky 0x6100 1 0).report 0x1683 5 (4 * group + p)
     let t := t.sendLink p false ask (!ask) group
     if 4 - (t.sport p).retired.length < 2 then t.portDown p else t)

/-- A retired group has passed retraining and its error-free second: it is back in service (R344). -/
def State.restoreSpan (s : State) (p group : Nat) : State := s.onPort p fun x => { x with retired := x.retired.filter (· != group) }

/-! ### Reception (R349, R353) -/

/-- A frame whose CRC is wrong is discarded and its replay asked for (R349). -/
def State.crcBad (s : State) (p : Nat) : State := s.sendLink p true false false 0

/-- A frame with a correct CRC has been received: it is counted, and the credits it took are owed to the neighbour (R351, R352,
R383). -/
def State.received (s : State) (f : SpanFrame) : State :=
  (s.onPort f.port fun x =>
    { x with
      rx := (x.rx + 1) % 2 ^ 32
      owed := if spanClass f.typ = 1 then x.owed else upd x.owed (spanClass f.typ) 0 (· + frameUnits f) }).spanCount 1 1

/-- A frame of a type arrives at a port that is in service: it is counted; an armed injection makes it fail its CRC instead
(R349, R352, R383, R478). -/
def State.onFrame (s : State) (f : SpanFrame) (typ : Nat) (g : State → State) : Res :=
  onPart "Span port" 4 f.port (
    if f.typ ≠ typ ∨ !s.portUp f.port then s
    else match s.faults.injArmed with
      | some (5, a, _, _) => if a % 4 = f.port then (s.injected.crcBad f.port).report 0x0681 5 a 0 true
        else g (s.received f)
      | _ => g (s.received f))

/-- A routed frame for this module (R348); one for another module is forwarded by FRAME_FORWARD. -/
def State.onRouted (s : State) (f : SpanFrame) (typ : Nat) (g : State → State) : Res :=
  s.onFrame f typ fun s => if f.dst = s.modId then g s else s

/-- A flooded frame: one that the module has not forwarded in the last second goes on to every other port in service, and is acted
on (R352, R368). -/
def State.onFlood (s : State) (f : SpanFrame) (typ : Nat) (g : State → State) : Res :=
  s.onFrame f typ fun s =>
    let s := s.tick
    if f.src = s.modId ∨ s.floodSeen f then s
    else
      let t := s.noteFlood f
      let t := ([0, 1, 2, 3].filter (· != f.port)).foldl (fun (t : State) (p : Nat) =>
        if t.portUp p then (t.sendFrame p f).spanCount 2 1 else t) t
      g t

/-- A frame is discarded and counted as refused (R348, R353). -/
def State.refuseFrame (s : State) : State := s.spanCount 7 1

/-- FRAME_FORWARD: a routed frame for another module leaves by its route; one that has visited 2 × (NXT + NYT) modules is
discarded (R353, R354). -/
def execFrameForward (f : SpanFrame) (visits : Nat) (s : State) : Res :=
  onPart "Span port" 4 f.port (
    if !s.portUp f.port ∨ f.dst = s.modId ∨ f.typ < 2 ∨ 8 < f.typ then s
    else
      let s := s.received f
      if 2 * (s.nxt + s.nyt) ≤ visits then s.refuseFrame
      else match s.routePort f.dst with
        | some p => (s.sendFrame p f).spanCount 2 1
        | none => s)

/-- A frame whose TYPE is reserved is discarded and counted (R348). -/
def execReservedFrameType (f : SpanFrame) (s : State) : Res :=
  onPart "Span port" 4 f.port (if f.typ < 13 ∨ !s.portUp f.port then s
    else (s.received f).refuseFrame)

/-! ### HELLO and LINK (R344 to R346, R349) -/

/-- The payload of a HELLO frame (R352). -/
def State.helloPayload (s : State) (p : Nat) : List Byte :=
  leBytes s.modId 2 ++ leBytes p 1 ++ leBytes (b2n s.isReady + 2 * b2n s.faults.safe) 1 ++ leBytes (s.job 0) 4
    ++ leBytes (15 - sumN ((s.sport p).retired.map (2 ^ ·))) 1 ++ leBytes 0 7

/-- A port whose neighbour is confirmed goes into service; one whose neighbour is another module stays, or goes, down (R345,
R346, R539). -/
def State.checkPort (s : State) (p : Nat) : State :=
  let x := s.sport p
  if !x.enabled ∨ !x.seen then s
  else if s.helloOk p then
    if x.up ∨ 4 - x.retired.length < 2 then s.onPort p fun y => { y with ok := true }
    else (s.onPort p fun y =>
      { y with ok := true, up := true, rx := 0, buf := [], base := 0, queue := [], owed := [], credits := startCredits }).topoCheck
  else
    let t := (s.onPort p fun y => { y with ok := false }).portDown p
    if s.expected p then ((t.sticky 0x6100 1 2).sticky 0xA000 3 4).report 0x1685 5 p else t

/-- HELLO: the neighbour's module ID and port are taken and checked (R346, R539). -/
def execHelloFrame (f : SpanFrame) (s : State) : Res :=
  onPart "Span port" 4 f.port (
    if f.typ ≠ 0 ∨ !(s.sport f.port).enabled then s
    else ((s.received f).onPort f.port fun x =>
      { x with seen := true, seenId := num8 f.payload 0 2, seenPort := num8 f.payload 2 1 % 4 }).checkPort f.port)

/-- LINK: what the neighbour reports received leaves the replay buffer; a NAK has the rest sent again; a retirement is agreed;
credits are taken, and frames that waited for them leave (R344, R349, R351, R352). -/
def execLinkFrame (f : SpanFrame) (s : State) : Res :=
  s.onFrame f 1 fun s =>
    let p := f.port
    let got := num8 f.payload 0 4
    let flags := num8 f.payload 4 1
    let x := s.sport p
    let n := (got + 2 ^ 32 - x.base) % 2 ^ 32
    let n := if x.buf.length < n then 0 else n
    let t := s.onPort p fun y =>
      { y with
        buf := y.buf.drop n, base := (y.base + n) % 2 ^ 32
        credits := [2, 3, 4].foldl (fun (m : List (Nat × Nat)) c =>
          upd m c 0 (· + num8 f.payload (8 + 2 * (c - 2)) 2)) y.credits }
    let left := x.buf.drop n
    let t := if bit flags 0 then
        (left.foldl (fun (t : State) g => { t with span := { t.span with out := t.span.out ++ [(p, g)] } }) (t.spanCount 3
          left.length)).report 0x0681 5 p
      else t
    let t := t.sendWaiting p (t.sport p).queue.length
    if bit flags 1 then t.retireSpan p (bits flags 4 3) false else t

/-- SPAN_CRC_FAIL (R349). -/
def execSpanCrcFail (port : Nat) (s : State) : Res := onPart "Span port" 4 port (s.crcBad port)

/-- HELLO_TIMER: a trained port sends its HELLO frame (R346). -/
def execHelloTimer (port : Nat) (s : State) : Res :=
  onPart "Span port" 4 port (whenever (s.sport port).enabled s
    ((s.emit port (s.frame 0 0 0 0 0 (s.helloPayload port))).checkPort port))

/-- LINK_IDLE_TIMER: a port that has sent nothing for 10 µs sends a LINK frame (R346). -/
def execLinkIdleTimer (port : Nat) (s : State) : Res :=
  onPart "Span port" 4 port (s.sendLink port false false false 0)

/-- PORT_SILENCE: no valid frame for 1 ms (R346). -/
def execPortSilence (port : Nat) (s : State) : Res := onPart "Span port" 4 port (s.portDown port)

/-- LANE_LOCK_LOSS: the lane's group is retired; the port is down when every group has lost lock (R344, R346). -/
def execLaneLockLoss (port group : Nat) (s : State) : Res :=
  onPart "Span port" 4 port (s.retireSpan port group true)

/-- FEC_WINDOW: a second ends with `symErr` symbol errors in 10^6 symbols before FEC and `uncor` uncorrectable codewords; above
200 or 10 the group is retired (R344, R383). -/
def execFecWindow (port group symErr uncor : Nat) (s : State) : Res :=
  onPart "Span port" 4 port
    (let t := (s.spanCount 5 symErr).spanCount 6 uncor
     if 200 < symErr ∨ 10 < uncor then t.retireSpan port group true else t)

/-- A port starts from t = 0: trained, it exchanges HELLO; else it stays down and retries (R345). -/
def State.enablePort (s : State) (p : Nat) (trained : Bool) : State :=
  s.onPort p fun x =>
    { x with
      enabled := trained && s.expected p, up := false, ok := false, seen := false, retired := [], buf := [], base := 0, rx := 0
      queue := [], owed := [] }

/-- PORT_ENABLE: bring-up enables a port (R345, R527). -/
def execPortEnable (port : Nat) (trained : Bool) (s : State) : Res :=
  onPart "Span port" 4 port (whenever (decide (13 ≤ s.bring.row) && !(s.sport port).enabled) s (s.enablePort port trained))

/-- PORT_RETRY: a port that is not in service starts again (R345). -/
def execPortRetry (port : Nat) (trained : Bool) (s : State) : Res :=
  onPart "Span port" 4 port (whenever (decide (13 ≤ s.bring.row) && !s.portUp port) s (s.enablePort port trained))

/-! ### Streams (R350) -/

/-- The stream from a source module. -/
def State.rxOf (s : State) (src : Nat) : StreamRx := get s.span.rx src StreamRx.reset
/-- Change the stream from a source module. -/
def State.onRx (s : State) (src : Nat) (f : StreamRx → StreamRx) : State :=
  { s with span := { s.span with rx := upd s.span.rx src StreamRx.reset f } }

/-- The ACK of a stream: its last performed SEQ, and what it has refused (R350, R352). -/
def State.sendAck (s : State) (src : Nat) : State :=
  let x := s.rxOf src
  (s.onRx src fun y => { y with newRef := false }).sendRouted
    (s.frame 4 src x.last 0 0 (leBytes (b2n x.newRef) 4 ++ leBytes x.refused 4))

/-- Bytes are written at the homes of their lines with c4 attributes, for another module or, by a seal, as a release of package
scope by the Span engine (R170, R357, R358). -/
def State.homeWrite (s : State) (pa : Nat) (d : List Byte) (sealing : Bool) : State :=
  (List.range ((pa % 128 + d.length + 127) / 128)).foldl (fun (t : State) i =>
    let a := if i = 0 then pa else 128 * (pa / 128 + i)
    let stop := 128 * (pa / 128 + i + 1)
    t.putLineAs 4 (if sealing then .engine else .remote) (some (if sealing then 4 else 6)) a ((d.drop (a - pa)).take (stop - a))) s

/-- Lines of a write that their home cannot take now: one that the companion holds, or one with an open transaction (R212,
R214). -/
def State.heldLines (s : State) (pa n : Nat) : List Nat :=
  (linesOf pa n).filter fun l => (s.txn? l).isSome || (!s.coh.dead && (match s.cellar.line? l with
    | some x => x.dir != .di
    | none => false))

/-- The copies of the companion that a write waits for are asked back (R214). -/
def State.askBack (s : State) (ls : List Nat) : State :=
  ls.foldl (fun (t : State) l => if (t.txn? l).isSome then t else t.snoop l false none false) s

/-- Whether a write of a remote module is refused (R357, R469). -/
def State.windowBad (s : State) (off n : Nat) : Bool :=
  s.faults.safe || !decide (s.span.wbase ≤ off ∧ off + n ≤ s.span.wbase + s.span.wlen)

/-- A WRITE, or the data of a kernel's seal, is performed, or refused and counted (R357, R358). -/
def State.performWrite (s : State) (f : SpanFrame) : State :=
  if s.windowBad f.offset f.payload.length then
    (((s.onRx f.src fun x => { x with refused := (x.refused + 1) % 2 ^ 32, newRef := true }).refuseFrame).sticky 0x6100 1
      6).report 0x2689 0 f.src
  else s.homeWrite f.offset f.payload (f.typ == 3)

/-- The lines that the next frame of a stream waits for: those of a write or a kernel's seal (R350, R357). -/
def State.frameWaits (s : State) (f : SpanFrame) : List Nat :=
  if f.typ = 2 ∨ (f.typ = 3 ∧ f.payload.length ≠ 576) then
    if s.windowBad f.offset f.payload.length then [] else s.heldLines f.offset f.payload.length
  else []

/-! #### Racks held for other modules (R373 to R377, R380) -/

/-- Origin, slot and generation of a rack identifier (R352). -/
def rackKey (d : List Byte) : Nat × Nat × Nat := (num8 d 0 2, num8 d 2 2, num8 d 4 2)

/-- Whether a rack belongs to a module: its origin, or the module that adopted it. -/
def Rack.owner (r : Rack) (m : Nat) : Bool := match r.adopter with | some a => a == m | none => r.origin == m

/-- Whether a rack is the one that an identifier names. -/
def Rack.is (r : Rack) (k : Nat × Nat × Nat) : Bool := (r.origin == k.1 || r.owner k.1) && r.slot == k.2.1 && r.gen == k.2.2

/-- Change the racks that satisfy `p`. -/
def State.onRacks (s : State) (p : Rack → Bool) (f : Rack → Rack) : State :=
  { s with span := { s.span with racks := s.span.racks.map fun (r : Rack) => if p r then f r else r } }

/-- Rack frames of the rack area in force. -/
def State.rackTotal (s : State) : Nat := s.span.rlen / 65536
/-- Unreserved rack frames. -/
def State.rackFree (s : State) : Nat := s.rackTotal - sumN (s.span.racks.map (·.resv))
/-- The lowest rack frame that no rack uses. -/
def State.rackFrameFor (s : State) : Option Nat :=
  firstWhere (fun n => !s.span.racks.any fun r => r.frames.any fun x => x.2 == n) 0 s.rackTotal

/-- Whether there is room for an open (R374). -/
def State.rackRoom (s : State) (n : Nat) : Bool := decide (n ≤ s.rackFree ∧ s.span.racks.length < s.span.rackSlots)

/-- A GRANT is sent (R374). -/
def State.sendGrant (s : State) (origin slot gen result : Nat) : State :=
  s.stream 7 origin 2 0 (rackId origin slot gen ++ leBytes result 8)

/-- A rack is made, and granted (R374). -/
def State.makeRack (s : State) (origin slot gen n : Nat) : State :=
  { s with span := { s.span with racks := s.span.racks ++
    [{ Rack.reset with origin := origin, slot := slot, gen := gen, resv := n }] } }.sendGrant origin slot gen 0

/-- Deferred opens are granted in their order as long as there is room (R374). -/
def State.grantDeferred (s : State) : State :=
  s.span.deferred.foldl (fun (t : State) x =>
    if t.rackRoom x.2.2.2 && (t.span.deferred.head? == some x) then
      ({ t with span := { t.span with deferred := t.span.deferred.drop 1 } } : State).makeRack x.1 x.2.1 x.2.2.1 x.2.2.2
    else t) s

/-- Whether an open's generation is equal to a held rack's of the same origin slot, or after it (R520). -/
def Rack.replacedBy (r : Rack) (k : Nat × Nat × Nat) : Bool :=
  r.owner k.1 && r.slot == k.2.1 && decide ((k.2.2 + 2 ^ 16 - r.gen) % 2 ^ 16 ≤ 32767)

/-- OPEN is performed; a held rack of an earlier generation of the slot is closed first (R374, R520). -/
def State.performOpen (s : State) (f : SpanFrame) : State :=
  let k := rackKey f.payload
  let n := num8 f.payload 8 4
  let drop : State := whenever (s.span.racks.any (·.replacedBy k)) s
    ({ s with span := { s.span with racks := s.span.racks.filter fun r => !r.replacedBy k } } : State).grantDeferred
  if s.span.rlen = 0 ∨ s.faults.safe ∨ k.1 = s.modId then s.sendGrant k.1 k.2.1 k.2.2 1
  else if drop.rackRoom n then drop.makeRack k.1 k.2.1 k.2.2 n
  else
    let t := { drop with span := { drop.span with deferred := drop.span.deferred ++ [(k.1, k.2.1, k.2.2, n)] } }
    (((t.bumpLane 0x6200 0x13 3 1).sticky 0x6200 1 2).report 0x06C3 0 k.1).sendGrant k.1 k.2.1 k.2.2 2

/-- CLOSE is performed: the rack's frames and reservation are free (R377). -/
def State.performClose (s : State) (f : SpanFrame) : State :=
  let k := rackKey f.payload
  ({ s with span := { s.span with
    racks := s.span.racks.filter fun r => !r.is k
    deferred := s.span.deferred.filter fun x => !(x.1 == k.1 && x.2.1 == k.2.1 && x.2.2.1 == k.2.2) } } : State).grantDeferred

/-- A row entry of a rack: barrel `k` of a row lies in an origin frame; a barrel that had another frame keeps its rack frame, and
a frame that another rack of the same owner named is that one's no longer (R374, R375). -/
def Rack.place (r : Rack) (row k f : Nat) : Rack :=
  let old := r.rows.find? fun x => x.1 == row && x.2.1 == k
  let frames := match old with
    | some x => if x.2.2 = f then r.frames
      else match find? r.frames x.2.2 with
        | some n => put (drop (drop r.frames x.2.2) f) f n
        | none => drop r.frames f
    | none => drop r.frames f
  { r with rows := (r.rows.filter fun x => !(x.1 == row && x.2.1 == k) && x.2.2 != f) ++ [(row, k, f)], frames := frames }

/-- MAP is performed; a last word of zero behind an odd number of frames is padding (R352, R374). -/
def State.performMap (s : State) (f : SpanFrame) : State :=
  let key := rackKey f.payload
  let row := num8 f.payload 8 4
  let k0 := num8 f.payload 12 4
  let n := (f.payload.length - 16) / 4
  let n := if 1 < n ∧ num8 f.payload (16 + 4 * (n - 1)) 4 = 0 then n - 1 else n
  (List.range n).foldl (fun (t : State) i =>
    let o := num8 f.payload (16 + 4 * i) 4
    (t.onRacks (fun r => r.owner f.src && !r.is key) fun r =>
      { r with rows := r.rows.filter fun x => x.2.2 != o, frames := drop r.frames o }).onRacks (·.is key)
      (·.place row (k0 + i) o)) s

/-- The rack frame of an origin frame of a module's racks, allocated at its first write (R374). -/
def State.rackPlace (s : State) (src o : Nat) : Option (State × Nat) :=
  match s.span.racks.find? fun r => r.owner src && r.rows.any fun x => x.2.2 == o with
  | none => none
  | some r => match find? r.frames o with
    | some n => some (s, n)
    | none => (s.rackFrameFor).map fun n =>
        (s.onRacks (fun x => x.is (r.origin, r.slot, r.gen)) fun x => { x with frames := put x.frames o n }, n)

/-- Mirrored bytes are stored in the rack frame (R375). -/
def State.storeRack (s : State) (src off : Nat) (d : List Byte) : State :=
  match s.rackPlace src (off / 2 ^ 16) with
  | some (t, n) => (t.putBytes (t.span.rbase + 65536 * n + off % 65536) d).bumpLane 0x6200 0x13 1 d.length
  | none => s

/-- A rack record is stored (R376). -/
def State.storeRecord (s : State) (src : Nat) (d : List Byte) : State :=
  let e := Entry.ofBytes (d.take 64)
  s.onRacks (fun r => r.owner src && r.slot == num8 d 0 2 % 4096 && r.gen == e.gen.toNat) fun r => { r with record := d }

/-- An XFER frame (R352, R380). -/
def State.sendXfer (s : State) (dst kind slot row off : Nat) (d : List Byte) : State :=
  let p := leBytes kind 2 ++ leBytes slot 2 ++ leBytes row 4 ++ d
  s.stream 8 dst 0 off (slice p 0 ((p.length + 7) / 8 * 8))

/-- The bytes of a barrel are sent, 1,024 to a frame. -/
def State.sendBarrel (s : State) (dst slot o pa : Nat) : State :=
  (List.range 64).foldl (fun (t : State) i =>
    t.sendXfer dst 1 slot 0 (o * 2 ^ 16 + 1024 * i) (s.getBytes (pa + 1024 * i) 1024).1) s

/-- A row is sent: its directory entries, then its barrels. -/
def State.sendRow (s : State) (dst slot row : Nat) (bs : List (Nat × Nat)) : State :=
  let t := (List.range ((bs.length + 509) / 510)).foldl (fun (t : State) i =>
    t.sendXfer dst 2 slot row (510 * i) (((bs.drop (510 * i)).take 510).flatMap fun b => leBytes (2 ^ 31 + b.1) 4)) s
  bs.foldl (fun (t : State) b => t.sendBarrel dst slot b.1 b.2) t

/-- Tokens of a barrel of a rack, whatever plan this module holds: the one of R278 under which ⌈(MAXPOS + 64) / TPB⌉ rows of BPS
barrels take the frames that the open reserved, one of which is the record's (R374). With one row it may be any, and all of
the sequence lies in that row. -/
def Rack.tpb (r : Rack) : Nat :=
  let bps := r.rows.foldl (fun (m : Nat) x => max m (x.2.1 + 1)) 1
  let most := (Entry.ofBytes (r.record.take 64)).maxpos.toNat + 64
  (([480, 240, 120, 60] : List Nat).find? fun t => (most + t - 1) / t == (r.resv - 1) / bps).getD 480

/-- FETCH is performed: the rack is adopted, and its rows up to the one holding position SEALPOS − 1 are streamed, then its
record; a rack that is not held is not answered (R380). -/
def State.performFetch (s : State) (f : SpanFrame) : State :=
  let k := rackKey f.payload
  match s.span.racks.find? (·.is k) with
  | none => s
  | some r =>
    if r.record.isEmpty then s
    else
      let dst := num8 f.payload 8 2
      let t := s.onRacks (·.is k) fun x => { x with adopter := some dst }
      let sealpos := (Entry.ofBytes (r.record.take 64)).pos.toNat
      let rows := sortUp (r.rows.map (·.1))
      let rows := rows.filter fun x => decide (x < (sealpos + r.tpb - 1) / r.tpb)
      let t := rows.foldl (fun (t : State) row =>
        let ks := sortUp ((r.rows.filter fun x => x.1 == row).map (·.2.1))
        let bs := ks.filterMap fun b => (r.rows.find? fun x => x.1 == row && x.2.1 == b).map fun x =>
          (x.2.2, s.span.rbase + 65536 * get r.frames x.2.2 0)
        t.sendRow dst k.2.1 row bs) t
      t.sendXfer dst 3 k.2.1 0 0 r.record

/-! #### Imports and exports (R379, R380) -/

/-- A job's replacement whose imports are complete floods the committed positions of its racked sequences, and that it has
joined (R348, R367). -/
def State.announce (s : State) : State :=
  whenever (decide (1 < s.members) && s.span.imports.isEmpty && !s.span.came.contains s.modId) s
    (let racked := s.seq.table.filter fun x => x.2.racked
     let t := (List.range ((racked.length + 255) / 256)).foldl (fun (t : State) i =>
       t.flood 12 0 (((racked.drop (256 * i)).take 256).flatMap fun x => leBytes (s.handle x.1 + x.2.pos.toNat * 2 ^ 32) 8)) s
     let t := { t with span := { t.span with came := addTo t.span.came s.modId } }
     t.flood 11 3 (joinPayload [] s.modId (s.job 0)))

/-- An import is over, and its frames belong to the sequence. -/
def State.endImport (s : State) (slot : Nat) : State :=
  { s with span := { s.span with
    imports := s.span.imports.filter fun y => y.1 != slot
    xmap := s.span.xmap.filter fun y => y.1 != slot
    returns := s.span.returns.filter fun y => y.1 != slot } }

/-- The entry that an imported sequence takes from its rack record, over what the IMPORT command gave (R380); whether LASTTOK
is yet to be fed is not in the record's fields (assumption 106). -/
def Entry.imported (old : Entry) (d : List Byte) (buddy : Nat) : Entry :=
  let e := Entry.ofBytes (d.take 64)
  { e with
    fval := old.fval, buddy := BitVec.ofNat 16 buddy, fence := old.fence, queue := old.queue, ctx := old.ctx
    part := old.part, cmdid := old.cmdid, racked := true, rows := old.rows, err := 0, sealpos := e.pos
    addr := if old.addr = 0 then e.addr else old.addr, gen := old.gen
    cancelReq := old.cancelReq, leaveErr := old.leaveErr
    tree := treeOf (d.drop 64) e.nodes.toNat, treePos := e.pos
    feed := e.pfill != 0 && e.pos != 0 && Config.feedsLast d
    st := if e.pfill = 0 then .decode else .prefill }

/-- The rack record arrives: an imported sequence takes its entry and enters PREFILL or DECODE; a sequence of this module that
fetched its KV again goes on as it stands (R21, R313, R380). -/
def State.importDone (s : State) (slot : Nat) (d : List Byte) : State :=
  match s.span.imports.find? fun x => x.1 == slot with
  | none => s
  | some x =>
    let e := match find? s.span.returns slot with
      | some st => { s.entry slot with st := st }
      | none => (s.entry slot).imported d x.2.1
    let t := (s.setEntry slot e).endImport slot
    let rows := sortUp ((t.framesOf slot).map (·.2.2.1))
    let t := rows.foldl (fun (t : State) row =>
      let ks := sortUp (((t.framesOf slot).filter fun y => y.2.2.1 == row).map (·.2.2.2))
      t.sendMap x.2.1 slot row 0 (ks.filterMap fun k => ((t.framesOf slot).find? fun y => y.2.2 == (row, k)).map (·.1))) t
    let own := (find? s.span.returns slot).isSome
    let t := (t.bumpLane 0x6200 0x13 4 1).settle' 0x09 slot 0
    if own then t else t.announce

/-- XFER is performed: into the frames, directory and entry of an import, or into a rack that an export fills (R379, R380). -/
def State.performXfer (s : State) (f : SpanFrame) : State :=
  let kind := num8 f.payload 0 1
  let slot := num8 f.payload 2 2
  let row := num8 f.payload 4 4
  let d := f.payload.drop 8
  let o := f.offset / 2 ^ 16
  if s.span.imports.any fun x => x.1 == slot && x.2.1 == f.src then
    match kind with
    | 1 => match s.span.xmap.find? fun x => x.1 == slot && x.2.1 == o with
      | some x => s.putBytes (s.frameBase x.2.2 + f.offset % 65536) d
      | none => s
    | 2 => match s.allocRow slot row with
      | none => s
      | some t =>
        let m := (List.range (d.length / 4)).filterMap fun i =>
          ((t.framesOf slot).find? fun y => y.2.2 == (row, f.offset + i)).map fun y => (slot, num8 d (4 * i) 4 % 2 ^ 24, y.1)
        { t with span := { t.span with xmap := t.span.xmap ++ m } }
    | 3 => s.importDone slot d
    | _ => s
  else match kind with
    | 1 => s.storeRack f.src f.offset d
    | 2 =>
      (List.range (d.length / 4)).foldl (fun (t : State) i =>
        let w := num8 d (4 * i) 4
        if w < 2 ^ 31 then t
        else t.onRacks (fun r => r.owner f.src && r.slot == slot) (·.place row (f.offset + i) (w % 2 ^ 24))) s
    | 3 => s.storeRecord f.src d
    | _ => s

/-- The export of a sequence whose rack has been granted: its committed rows and directory rows, then the seal (R379). -/
def State.startExport (s : State) (slot target : Nat) : State :=
  match s.host.plan with
  | none => s
  | some p =>
    let e := s.entry slot
    let t := (List.range (min e.rows.toNat (p.rowsFor e.pos.toNat))).foldl (fun (t : State) row =>
      t.sendRow target slot row ((List.range p.bps).filterMap fun k =>
        ((s.framesOf slot).find? fun y => y.2.2 == (row, k)).map fun y => (y.1, s.frameBase y.1))) s
    let seq := (t.txTo target).next
    let u := t.stream 3 target 0 0 (s.rackRecord slot)
    { u with span := { u.span with
      seals := u.span.seals ++ [(target, seq, slot, e.pos.toNat)]
      opens := u.span.opens.filter fun x => x.1 != slot } }

/-- An export is over: the sequence is racked with the target, its rows are named to it, and the bytes of the rows that steps may
have written since the copy are mirrored; a previous rack is closed (R375, R379). -/
def State.exportDone (s : State) (slot target pos : Nat) : State :=
  match s.host.plan with
  | none => s
  | some p =>
    let e := s.entry slot
    let t := if e.racked then s.stream 7 e.buddy.toNat 4 0 (rackId s.modId slot e.gen.toNat) else s
    let t := t.onEntry slot fun e => { e with racked := true, buddy := BitVec.ofNat 16 target, sealpos := BitVec.ofNat 32 pos }
    let t := { t with seq := { t.seq with exports := t.seq.exports.filter fun x => x.1 != slot } }
    let fs := t.framesOf slot
    let rows := sortUp (fs.map (·.2.2.1))
    let t := rows.foldl (fun (t : State) row =>
      let ks := sortUp ((fs.filter fun y => y.2.2.1 == row).map (·.2.2.2))
      t.sendMap target slot row 0 (ks.filterMap fun k => (fs.find? fun y => y.2.2 == (row, k)).map (·.1))) t
    let t := (fs.filter fun y => decide (pos / p.tpb ≤ y.2.2.1)).foldl (fun (t : State) (y : Nat × (Nat × Nat × Nat)) =>
      (List.range 32).foldl (fun (t : State) i =>
        t.stream 6 target 0 (y.1 * 2 ^ 16 + 2048 * i) (t.getBytes (t.frameBase y.1 + 2048 * i) 2048).1) t) t
    t.settle' 0x08 slot 0

/-- GRANT is performed at an origin: a refusal ends the SUBMIT or the EXPORT with `SEQ_NO_BUDDY`; a grant lets it go on
(R374, R379). -/
def State.performGrant (s : State) (f : SpanFrame) : State :=
  let k := rackKey f.payload
  let result := num8 f.payload 8 1
  let slot := k.2.1
  if !(s.span.opens.any fun x => x.1 == slot && x.2.1 == f.src) || (s.entry slot).gen.toNat != k.2.2 then s
  else if result = 1 then
    let t := { s with
      span := { s.span with opens := s.span.opens.filter fun x => x.1 != slot }
      seq := { s.seq with exports := s.seq.exports.filter fun x => x.1 != slot } }
    match s.host.queues.find? fun x => x.2.slot == some slot with
    | some q => (t.onQueue q.1 fun x => { x with slot := none }).complete q.1 stNoBuddy 0
    | none => t.settle' 0x08 slot stNoBuddy
  else
    let t := { s with span := { s.span with opens := s.span.opens.map fun (x : Nat × Nat × Nat) =>
      if x.1 = slot then (x.1, x.2.1, result) else x } }
    if result = 0 ∧ s.seq.exports.any (fun x => x.1 == slot && x.2.1 == f.src) then t.startExport slot f.src else t

/-- A frame of a stream is performed (R350, R357, R358, R374 to R377, R380). -/
def State.performFrame (s : State) (f : SpanFrame) : State :=
  match f.typ with
  | 2 => s.performWrite f
  | 3 => if f.payload.length = 576 then s.storeRecord f.src f.payload else s.performWrite f
  | 6 => s.storeRack f.src f.offset f.payload
  | 7 => match f.tag with
    | 1 => s.performOpen f
    | 2 => s.performGrant f
    | 3 => s.performMap f
    | 4 => s.performClose f
    | 5 => s.performFetch f
    | _ => s.refuseFrame
  | 8 => s.performXfer f
  | _ => s

/-- Held frames of a stream are performed while the next in order is there and its home can take it: the frames behind a write
that waits for a copy of the companion wait with it. An ACK goes out after every sixteenth (R170, R172, R350). -/
def State.drainStream (s : State) (src : Nat) : Nat → State
  | 0 => s
  | n + 1 =>
    let x := s.rxOf src
    let want := (x.last + 1) % 2 ^ 24
    match x.heldF.find? (·.seq == want) with
    | none => s
    | some f =>
      if !(s.frameWaits f).isEmpty then s.askBack (s.frameWaits f)
      else
      let t := (s.onRx src fun y => { y with heldF := y.heldF.filter (·.seq != want) }).performFrame f
      let t := t.onRx src fun y => { y with last := want }
      (if want % 16 = 15 then t.sendAck src else t).drainStream src n

/-- A stream frame arrives: a frame 1 to 32,767 ahead of the last performed one is held until its turn; any other is a
duplicate (R350). -/
def State.takeStream (s : State) (f : SpanFrame) : State :=
  let x := s.rxOf f.src
  let ahead := (f.seq + 2 ^ 24 - x.last) % 2 ^ 24
  if ahead = 0 ∨ 32767 < ahead ∨ x.heldF.any (·.seq == f.seq) then s
  else
    let t := s.onRx f.src fun y => { y with heldF := y.heldF ++ [f] }
    t.drainStream f.src (t.rxOf f.src).heldF.length

/-- WRITE (R357). -/
def execSpanWrite (f : SpanFrame) (s : State) : Res := s.onRouted f 2 fun s => s.takeStream f
/-- SEAL: a kernel's seal data, or a rack record (R358, R376). -/
def execSealFrame (f : SpanFrame) (s : State) : Res := s.onRouted f 3 fun s => s.takeStream f
/-- RACK: mirrored bytes (R375). -/
def execRackFrame (f : SpanFrame) (s : State) : Res := s.onRouted f 6 fun s => s.takeStream f
/-- RACKCTL of a sub-type; another sub-type is another row's. -/
def State.onRackctl (s : State) (f : SpanFrame) (tag : Nat) : Res :=
  if f.tag = tag then s.onRouted f 7 fun s => s.takeStream f else onPart "Span port" 4 f.port s
/-- OPEN (R374). -/
def execRackOpen (f : SpanFrame) (s : State) : Res := s.onRackctl f 1
/-- GRANT (R374). -/
def execRackGrant (f : SpanFrame) (s : State) : Res := s.onRackctl f 2
/-- MAP (R374). -/
def execRackMap (f : SpanFrame) (s : State) : Res := s.onRackctl f 3
/-- CLOSE (R377). -/
def execRackClose (f : SpanFrame) (s : State) : Res := s.onRackctl f 4
/-- FETCH (R380). -/
def execRackFetch (f : SpanFrame) (s : State) : Res := s.onRackctl f 5
/-- XFER (R379, R380). -/
def execXferFrame (f : SpanFrame) (s : State) : Res := s.onRouted f 8 fun s => s.takeStream f

/-- Whether a SEQ is covered by a cumulative ACK. -/
def covered (upTo seq : Nat) : Bool := decide ((upTo + 2 ^ 24 - seq) % 2 ^ 24 < 2 ^ 23)

/-- The acknowledgement of the seal of a step or of an export: SEALPOS advances, held records are posted, and a finished export
racks its sequence (R325, R328, R376, R379). -/
def State.sealAcked (s : State) (x : Nat × Nat × Nat × Nat) : State :=
  let buddy := x.1
  let slot := x.2.2.1
  let t := s.bumpLane 0x6200 0x13 2 1
  if s.seq.exports.any fun y => y.1 == slot && y.2.1 == buddy then t.exportDone slot buddy x.2.2.2
  else
    let t := t.onEntry slot fun e => { e with sealpos := BitVec.ofNat 32 x.2.2.2 }
    let mine := fun (h : HeldRec) => h.slot == slot && h.buddy == buddy && h.fseq == x.2.1
    let recs := t.seq.held.filter mine
    let t := { t with seq := { t.seq with held := t.seq.held.filter fun h => !mine h } }
    recs.foldl (fun (t : State) (h : HeldRec) =>
      t.postHeld h) t

/-- ACK: frames it covers are released, seals among them acknowledged, and a refusal is a fault of the model context (R350,
R357, R358). -/
def execAckFrame (f : SpanFrame) (s : State) : Res :=
  s.onRouted f 4 fun s =>
    let src := f.src
    let tx := s.txTo src
    let t := { s with span := { s.span with
      tx := put s.span.tx src { tx with unacked := tx.unacked.filter fun x => !covered f.seq x.seq }
      seals := s.span.seals.filter fun x => !(x.1 == src && covered f.seq x.2.1)
      sealReq := s.span.sealReq.filter fun x => !(x.1 == src && covered f.seq x.2.1) } }
    let t := t.streamOn src
    let t := (s.span.seals.filter fun x => x.1 == src && covered f.seq x.2.1).foldl (fun (t : State) x => t.sealAcked x) t
    let t := (s.span.sealReq.filter fun x => x.1 == src && covered f.seq x.2.1).foldl (fun (t : State) x =>
      if x.2.2.1 = 0 then t
      else t.addReq { Req.reset with
        kind := .write, pa := x.2.2.1, va := x.2.2.1, size := 8, cls := 4, data := leBytes x.2.2.2 8, rel := true, rsc := some 4 }) t
    if bit (num8 f.payload 0 1) 0 then
      let m := match s.host.plan with | some p => p.model | none => 0
      (t.sticky 0x6100 1 6).reportCtx 0x2689 m (s.ctx m).part 0 src
    else t

/-- STREAM_RESEND: every frame of a stream not yet acknowledged is sent again (R350). -/
def execStreamResend (dst : Nat) (s : State) : Res :=
  .next (
    let fs := (s.txTo dst).unacked
    whenever (!fs.isEmpty) s
      ((fs.foldl (fun (t : State) f => t.sendRouted f) (s.spanCount 4 fs.length)).report 0x0682 0 dst))

/-- ACK_TIMER: what the stream waited for may have come; the last performed SEQ is acknowledged (R350). -/
def execAckTimer (src : Nat) (s : State) : Res :=
  .next (whenever ((find? s.span.rx src).isSome) s ((s.drainStream src (s.rxOf src).heldF.length).sendAck src))

/-! ### Remote writes (R355, R356) -/

/-- The forms of a request that refuse it: a reserved KIND, a length out of range, and a field that is not aligned; reserved
fields are ignored (R5, R356). -/
def spanBad (w : List (BitVec 64)) : Bool :=
  let w2 := (w.getD 2 0).toNat
  let len := bits w2 16 0
  let kind := bits w2 21 20
  decide (bits (w.getD 0 0).toNat 47 0 % 8 ≠ 0 ∨ bits (w.getD 1 0).toNat 39 0 % 8 ≠ 0 ∨ 2 ≤ kind ∨ len = 0 ∨ len % 8 ≠ 0
    ∨ 65536 < len ∨ (kind = 1 ∧ (64 < len ∨ bits (w.getD 3 0).toNat 47 0 % 8 ≠ 0)))

/-- SPAN_REQUEST_SUBMIT: a core's request page is submitted by its last word: the source is read, once the companion has given
back what it owns of it, and streamed to the target, or the request is refused, as it is where no page maps the ACKADDR of a
seal (R214, R355, R356, R358; DESIGN CHOICE, assumption 109). -/
def execSpanRequestSubmit (lc : Nat) (word3 : BitVec 64) (s : State) : Res :=
  onCore lc (
    let k := s.core lc
    let w := ((List.range 3).map fun i => get k.spanw i 0) ++ [word3]
    let refuse := (s.sticky 0x6100 1 6).reportCtx 0x2689 k.ctx k.part 0 lc
    let len := bits (w.getD 2 0).toNat 16 0
    let off := bits (w.getD 1 0).toNat 39 0
    let target := bits (w.getD 1 0).toNat 55 40
    let isSeal := decide (bits (w.getD 2 0).toNat 21 20 = 1)
    if (s.ctx k.ctx).kind ≠ 1 ∨ spanBad w then refuse
    else
      let src := bits (w.getD 0 0).toNat 47 0
      let ackVa := bits word3.toNat 47 0
      match s.xlatRange s.host.xlatS k.ctx src len, s.engineXlat s.host.xlatS k.ctx ackVa with
      | none, _ => refuse
      | some ps, ack =>
        let ackPa := if ackVa = 0 ∨ !isSeal then some 0 else ack.map (·.1)
        match ackPa with
        | none => refuse
        | some pa =>
          if ps.any fun x => !isHbm x.1 then refuse
          else
            s.whenShared (ps.flatMap fun x => linesOf x.1 x.2)
            (let d := ps.flatMap fun x => (s.getBytes x.1 x.2).1
            let s := ps.foldl (fun (t : State) x => t.engineReads x.1 x.2) s
            let cached := s.xlatFill s.host.xlatS k.ctx (pagesOf src len ++ (if ackVa = 0 ∨ !isSeal then [] else [ackVa]))
            let s := { s with host := { s.host with xlatS := cached } }
            if isSeal then
              let seq := (s.txTo target).next
              let t := s.stream 3 target 0 off d
              { t with span := { t.span with sealReq := t.span.sealReq ++ [(target, seq, pa, bits (w.getD 2 0).toNat 63 32)] } }
            else s.streamBytes 2 target 0 off d))

/-! ### Reduce-forward (R361 to R364) -/

/-- One line of a RED frame is sent to a ring neighbour. -/
def State.sendRed (s : State) (dst rid line : Nat) (w : BitVec 768) : State :=
  s.sendRouted (s.frame 5 dst s.ringStep rid line (bytes4 w))

/-- A line whose ring is done enters the next ring of its DIMS, or is final (R361). -/
def State.ringNext (s : State) (x : RingLine) (w : BitVec 768) : State :=
  let dims := match s.tree? x.rid with | some t => treeDims t | none => 0
  if x.ring = 0 ∧ dims = 3 then s.setRing { x with ring := 1, own := some w, plus := none, minus := none, sum := none }
  else s.setRing { x with sum := some w, final := true }

/-- What a member can do for a line in its present ring: pass its partial towards the root, sum at the root, or pass the sum
outwards (R361). -/
def State.ringStepLine (s : State) (rid line : Nat) : State :=
  match s.span.ring.find? fun x => x.rid == rid && x.line == line with
  | none => s
  | some x =>
    let n := s.ringLen x.ring
    let d := s.ringDist x.ring line
    let h := ringHalf n
    let plus := s.ringPlus x.ring
    let minus := s.ringMinus x.ring
    if x.final then s
    else match x.sum with
      | some w =>
        let t := if d ≤ h then (if d < h then s.sendRed plus rid line w else s)
          else (if h + 1 < d then s.sendRed minus rid line w else s)
        t.ringNext x w
      | none =>
        match x.own with
        | none => s
        | some own =>
          if n ≤ 1 then s.ringNext x own
          else if d = 0 then
            match x.plus, x.minus with
            | some a, some b =>
              let w := add4 own (add4 a b)
              ((s.sendRed plus rid line w).sendRed minus rid line w).ringNext x w
            | some a, none =>
              if n = 2 then
                let w := add4 own a
                (s.sendRed plus rid line w).ringNext x w
              else s
            | none, _ => s
          else if d ≤ h then
            if d = h then (s.sendRed minus rid line own).setRing { x with own := none }
            else match x.plus with
              | some a => (s.sendRed minus rid line (add4 own a)).setRing { x with own := none, plus := none }
              | none => s
          else if d = h + 1 then (s.sendRed plus rid line own).setRing { x with own := none }
          else match x.minus with
            | some a => (s.sendRed plus rid line (add4 own a)).setRing { x with own := none, minus := none }
            | none => s

/-- Whether the module has joined its job: every torus neighbour in the job has sent the digest of the plan that this module
holds (R12, R367). -/
def State.joined (s : State) : Bool :=
  match s.host.plan with
  | some p => s.ringTargets.all fun m => get s.span.digests m [] == p.digest
  | none => s.ringTargets.isEmpty

/-- A line goes on as far as it can: through its present ring, and into the next; a module that has not joined its job takes no
part (R12, R366). -/
def State.ringGo (s : State) (rid line : Nat) : State :=
  whenever (!s.span.hold && s.joined) s
    ((((s.ringStepLine rid line).absorbEarly).ringStepLine rid line).ringStepLine rid line)

/-- RED: the lines of a frame are held, added and forwarded, or discarded (R361, R364). -/
def execRedFrame (f : SpanFrame) (s : State) : Res :=
  s.onRouted f 5 fun s =>
    let t := s.redIn f
    let n := if f.src = s.ringPlus 0 ∨ f.src = s.ringMinus 0 then s.ringLen 0 else s.ringLen 1
    (redLines (max 1 n) f).foldl (fun (t : State) (x : Nat × BitVec 768) => t.ringGo f.tag x.1) t

/-- RING_LINE: the line that a home has passed to the Span engine enters its ring (R361). -/
def execRingLine (rid line : Nat) (s : State) : Res := .next (s.ringGo rid line)

/-! ### The job (R12, R365 to R367, R473) -/

/-- The module's digest goes to the job's members (R12). -/
def State.floodDigest (s : State) : State :=
  match s.host.plan with
  | some p => whenever (decide (1 < s.members)) s (s.flood 11 1 (joinPayload p.digest 0 (s.job 0)))
  | none => s

/-- A JOIN frame of a sub-type and of this module's job. -/
def State.onJoin (s : State) (f : SpanFrame) (tag : Nat) (g : State → State) : Res :=
  if f.tag = tag then s.onFlood f 11 fun s => if num8 f.payload 34 4 = s.job 0 then g s else s else onPart "Span port" 4 f.port s

/-- The digests received are held against the active plan's: while one of a torus neighbour in the job differs, the module does
not join the job; those of `srcs` that differ are reported (R12). -/
def State.compareDigests (s : State) (srcs : List Nat) : State :=
  match s.host.plan with
  | none => { s with span := { s.span with mismatch := false } }
  | some p =>
    let bad := fun (m : Nat) => s.ringTargets.contains m && (match find? s.span.digests m with
      | some d => d != p.digest
      | none => false)
    (srcs.filter bad).foldl (fun (t : State) m => (t.sticky 0x7200 1 0).report 0x1605 0 m)
      { s with span := { s.span with mismatch := s.ringTargets.any bad } }

/-- JOIN_DIGEST: the plan digest of a module of the job is kept, and held against this module's (R12). -/
def execJoinDigest (f : SpanFrame) (s : State) : Res :=
  s.onJoin f 1 fun s =>
    ({ s with span := { s.span with digests := put s.span.digests f.src (slice f.payload 0 32) } } : State).compareDigests [f.src]

/-- MEMBER_LOST: the named member is lost (R365); a module that hears of its own loss holds as well (R473). -/
def execMemberLost (f : SpanFrame) (s : State) : Res :=
  s.onJoin f 2 fun s =>
    let m := num8 f.payload 32 2
    if m = s.modId then whenever (decide (1 < s.members)) s (({ s with span := { s.span with
      hold := true, tabled := false, replacing := true } } : State).void 1)
    else s.memberGone m

/-- MEMBER_JOINED: the named member takes part, its imports complete (R348, R367). -/
def execMemberJoined (f : SpanFrame) (s : State) : Res :=
  s.onJoin f 3 fun s =>
    let m := num8 f.payload 32 2
    { s with span := { s.span with
      lost := s.span.lost.filter (· != m), came := if s.span.hold then addTo s.span.came m else s.span.came } }

/-- HELLO_TIMEOUT: a member's HELLO frames have stopped for 1 ms (R365). -/
def execHelloTimeout (member : Nat) (s : State) : Res := .next (s.memberGone member)

/-- STEP: committed positions that the replacement floods are kept until the hold ends (R367). -/
def execStepFrame (f : SpanFrame) (s : State) : Res :=
  s.onFlood f 12 fun s =>
    let es := (List.range (f.payload.length / 8)).map fun i =>
      (num8 f.payload (8 * i) 4 % 2 ^ 28, num8 f.payload (8 * i + 4) 4)
    { s with span := { s.span with steps := s.span.steps ++ es } }

/-- A sequence goes back to a committed position: what its last commit changed returns where it was that commit, and tokens already
posted are not posted again (R367). -/
def Entry.lowered (e : Entry) (pos : Nat) : Entry :=
  if e.pos.toNat ≤ pos then e
  else
    let back := e.prevPos.toNat = pos
    let posted := if e.prevPfill = 0 ∨ !back then e.pos.toNat - pos else if e.pfill = 0 then 1 else 0
    { e with
      pos := BitVec.ofNat 32 pos, skip := e.skip + posted
      lasttok := if back then e.prevTok else e.lasttok
      pfill := if back then e.prevPfill else e.pfill
      addr := if back then e.prevAddr else e.addr
      nodes := 0, tree := []
      st := if back ∧ e.prevPfill ≠ 0 ∧ e.st = .decode then .prefill else e.st }

/-- Whether the job hold may end: a job table has been committed since the last loss and names no lost ring neighbour, plan
digests have been exchanged, and for every member lost a replacement has completed its imports: those of this module are, if
it is one, and the others have joined (R367, R473). -/
def State.mayRejoin (s : State) : Bool :=
  s.span.hold && s.span.tabled && s.joined && s.span.imports.isEmpty
    && !(s.ringTargets.any fun m => s.span.lost.contains m)
    && decide (s.span.gone ≤ (s.span.came.filter (· != s.modId)).length + b2n s.span.replacing)

/-- JOB_HOLD_END: the conditions of R367 hold; a replacement that has not done so says that it has joined; sequences that are
not racked leave with KV_LOST, racked ones take the replacement's positions, and the step in flight is retried (R367). -/
def execJobHoldEnd (s : State) : Res :=
  .next (whenever s.mayRejoin s
    (let s := if s.span.replacing then s.announce else s
     let settle := fun (x : Nat × Entry) =>
       if x.2.st = .free then x
       else if x.2.racked then
         match s.span.steps.find? fun y => y.1 == x.2.gen.toNat * 2 ^ 12 + x.1 with
         | some y => (x.1, x.2.lowered y.2)
         | none => x
       else (x.1, { x.2 with cancelReq := true, leaveErr := if x.2.cancelReq then x.2.leaveErr else BitVec.ofNat 16 stKvLost })
     let t := { s with
       span := { s.span with hold := false, steps := [], gone := 0, came := [], tabled := false, replacing := false }
       seq := { s.seq with table := s.seq.table.map settle } }
     t.retryStep))

/-! ### Job frequency (R368, R369, R505, R507) -/

/-- FREQ: a member's request is kept for its effective step, or a throttled step is void; a request that comes after its step has
been broadcast sets FREQ_LATE (R369, R392, R505). -/
def execFreqFrame (f : SpanFrame) (s : State) : Res :=
  s.onFlood f 9 fun s =>
    let w := num8 f.payload 0 8
    let version := num8 f.payload 8 4
    let step := num8 f.payload 12 4
    if bit w 32 then s.void 5
    else
      let own := match s.seq.cur with | some r => r.num | none => s.seq.step
      let t := { s with span := { s.span with versions := s.span.versions ++ [(f.src, version, bits w 15 0, step)] } }
      if serialLe step (own % 2 ^ 32) then (t.sticky 0x6100 1 7).void 5 else t

/-! ### Time (R370 to R372, R604) -/

/-- The best grandmaster that a module knows: its own priority, or what its neighbours report; ID, priority, hops and the port
followed (R370). -/
def State.grandmaster (s : State) : Option (Nat × Nat × Nat × Option Nat) :=
  let own := if s.od 0x6100 0x18 = 0 then [] else [(s.modId, s.od 0x6100 0x18, 0, none)]
  let ports := (([0, 1, 2, 3] : List Nat).filter fun p => s.portUp p && (s.sport p).gmPrio != 0).map fun p =>
    ((s.sport p).gmId, (s.sport p).gmPrio, (s.sport p).gmHops + 1, some p)
  (own ++ ports).foldl (fun (b : Option (Nat × Nat × Nat × Option Nat)) x => match b with
    | none => some x
    | some y =>
      if y.2.1 < x.2.1 ∨ (y.2.1 = x.2.1 ∧ x.1 < y.1) ∨ (y.2.1 = x.2.1 ∧ x.1 = y.1 ∧ x.2.2.1 < y.2.2.1) then some x else some y)
    none

/-- Two's complement of an offset in 32 bits. -/
def int32 (i : Int) : Nat := (i % (2 ^ 32 : Int)).toNat

/-- The module's grandmaster entries and SYNC_STATE follow; the loss of the last grandmaster is reported (R370, R371, R383,
R590). -/
def State.followTime (s : State) : State :=
  match s.grandmaster with
  | some g =>
    let t := (s.setOd 0x6100 0x19 g.1).setOd 0x6100 0x1B g.2.2.1
    (match g.2.2.2 with
      | some p => (t.setOd 0x6100 0x1A (int32 (s.sport p).offset)).setOd 0x1200 3 1
      | none => t.setOd 0x1200 3 2)
  | none =>
    if s.od 0x1200 3 = 1 ∨ s.od 0x1200 3 = 2 then ((s.setOd 0x1200 3 3).sticky 0x6100 1 4).report 0x1687 0 0 else s

/-- TIME: the neighbour's offset is measured from the two-way exchange, and the grandmaster is chosen anew; the slewing of the
tick shows only in how far the time base advances (R370, R371). -/
def execTimeFrame (f : SpanFrame) (s : State) : Res :=
  s.onFrame f 10 fun s =>
    let s := s.tick
    let d := f.payload
    let t1 := num8 d 8 8
    let off : Int := (((num8 d 16 8 : Int) - (t1 : Int)) + ((num8 d 0 8 : Int) - (s.now : Int))) / 2
    (s.onPort f.port fun x =>
      { x with
        rxTs := s.now, nbTs := num8 d 0 8, gmId := num8 d 24 2, gmPrio := num8 d 26 1, gmHops := num8 d 27 1
        offset := if t1 = 0 then x.offset else off }).followTime

/-- TIME_TIMER: a port sends its TIME frame (R352, R370). -/
def execTimeTimer (port : Nat) (s : State) : Res :=
  onPart "Span port" 4 port (whenever (s.portUp port) s
    (let s := s.tick
     let x := s.sport port
     let g := s.grandmaster.getD (0, 0, 0, none)
     (s.sendFrame port (s.frame 10 0 0 0 0 (leBytes s.now 8 ++ leBytes x.nbTs 8 ++ leBytes x.rxTs 8 ++ leBytes g.1 2
       ++ leBytes g.2.1 1 ++ leBytes g.2.2.1 1 ++ leBytes 0 4))).followTime))

/-- TSYNC_EDGE: the time base is latched; an edge within 1 µs of the last accepted one is ignored (R372, R604). -/
def execTsyncEdge (s : State) : Res :=
  .next (
    let t := s.tick
    let near := match s.span.tsyncAt with | some a => decide (t.now < a + 1000) | none => false
    whenever (!near) t ({ t with span := { t.span with tsyncAt := some t.now } }.setOd 0x6100 0x1C t.now))

/-! ### Timeouts of racking (R374, R378, R380) -/

/-- RACK_TIMEOUT: a buddy has left a seal, an open or a fetch unanswered: its SUBMITs and exports end with `SEQ_NO_BUDDY`, its
imports fail, and at the next commit point its sequences are racked no longer (R374, R378, R380). -/
def execRackTimeout (buddy : Nat) (s : State) : Res :=
  .next (
    let dead := (s.span.opens.filter fun x => x.2.1 == buddy && x.2.2 == 3).map (·.1)
    let t := dead.foldl (fun (t : State) slot =>
      let t := { t with
        span := { t.span with opens := t.span.opens.filter fun x => x.1 != slot }
        seq := { t.seq with exports := t.seq.exports.filter fun x => x.1 != slot } }
      match t.host.queues.find? fun x => x.2.slot == some slot with
      | some q => (t.onQueue q.1 fun x => { x with slot := none }).complete q.1 stNoBuddy 0
      | none => t.settle' 0x08 slot stNoBuddy) s
    let lost := (s.span.imports.filter fun x => x.2.1 == buddy).map (·.1)
    let t := lost.foldl (fun (t : State) slot => t.importLost slot) t
    if (s.span.seals.any fun x => x.1 == buddy) then
      { t with span := { t.span with buddyGone := addTo t.span.buddyGone buddy } }
    else t)

/-- BOUND_NS is written: the period, quad-load and tentative maxima and the three counts are cleared (R393, R396). -/
def execBoundNs (path : Path) (tid value : Nat) (s : State) : Res :=
  .next (s.request path tid 0x7200 0x30 1 fun s =>
    guardAct (decide (value < 2 ^ 32)) abLength
      (.ok (((((s.setOd 0x7200 0x30 value).setOd 0x7200 0x33 0).setOd 0x7200 0x35 0).setOd 0x7200 0x36 0).setOd 0x7200 0x37 0)))

end Sys2Proof.Machine
end

