-- ==== Sys2Proof/Machine/PlanLoad.lean ====
section
/-!
DEFINITION. Machine/PlanLoad.lean: plan images, the load of a plan and its unloading (R11, R13, R14, R245, R260, R261, R311, R319,
R357, R360, R373, R421, R422, R440, R584).
-/

namespace Sys2Proof.Machine

/-- `PLAN_BUSY` -/ def stPlanBusy : Nat := 0x0209
/-- `PLAN_TOO_LARGE` -/ def stTooLarge : Nat := 0x020A
/-- `PLAN_IMAGE` -/ def stImage : Nat := 0x020D

/-! ### The image (R421, R422) -/

/-- The plan digest: SM3 of the image with bytes 32 to 63 taken as zero. -/
def planDigest (d : List Byte) : List Byte := sm3 (patch d 32 (List.replicate 32 0))

/-- A section: type, offset, length and entries. -/
structure Section where
  typ : Nat
  off : Nat
  len : Nat
  n : Nat
  deriving DecidableEq, Repr

/-- The section table. -/
def sectionsOf (d : List Byte) : List Section :=
  (List.range (num8 d 12 4)).map fun i =>
    let o := 256 + 32 * i
    { typ := num8 d o 1, off := num8 d (o + 8) 8, len := num8 d (o + 16) 8, n := num8 d (o + 24) 4 }

/-- Whether two ranges have a byte in common. -/
def meets (a la b lb : Nat) : Bool := decide (0 < la ∧ 0 < lb ∧ a < b + lb ∧ b < a + la)

/-- Whether no two sections of a list overlap. -/
def apart : List Section → Bool
  | [] => true
  | x :: r => (r.all fun y => !meets x.off x.len y.off y.len) && apart r

/-- The section of a type. -/
def sect (l : List Section) (t : Nat) : Section := (l.find? (·.typ == t)).getD { typ := t, off := 0, len := 0, n := 0 }

/-- Size of an entry of a section of records. -/
def entrySize : Nat → Nat
  | 2 => 128
  | 3 => 64
  | 4 => 24
  | 5 => 16
  | 7 => 128
  | 8 => 64
  | 9 => 24
  | _ => 0

/-- Least and most entries of a section (R422). -/
def entryLimits (layers : Nat) : Nat → Nat × Nat
  | 2 => (1, 16384)
  | 3 => (0, 4096)
  | 4 => (1 + layers, 1 + layers)
  | 5 => (0, 1024)
  | 7 => (0, 8 * 16384)
  | 8 => (0, 8 * 4096)
  | 9 => (8 * (1 + layers), 8 * (1 + layers))
  | _ => (0, 2 ^ 32)

/-- The records of a section. -/
def recordsOf (d : List Byte) (x : Section) : List Nat :=
  (List.range x.n).map fun i => num8 d (x.off + entrySize x.typ * i) (entrySize x.typ)

/-- The eight variants of a section, of equal size, one after another. -/
def variantsOf (l : List Nat) : List (List Nat) :=
  (List.range 8).map fun d => (l.drop (l.length / 8 * d)).take (l.length / 8)

/-- Whether header, section table and digest are as R421 and R422 say. -/
def imageOk (d : List Byte) (len : Nat) : Bool :=
  let l := sectionsOf d
  let layers := num8 d 64 2
  let tbl := 256 + 32 * l.length
  slice d 0 8 == [0x43, 0x48, 0x44, 0x50, 0x4C, 0x41, 0x4E, 0x01] && num8 d 8 4 == 1
    && decide (1 ≤ l.length ∧ l.length ≤ 32 ∧ tbl ≤ len) && num8 d 16 8 == len && d.length == len
    && (l.all fun x => x.off % 128 == 0 && decide (tbl ≤ x.off ∧ x.off + x.len ≤ len)) && apart l
    && (l.all fun x => (l.filter (·.typ == x.typ)).length == 1)
    && ([1, 2, 3, 4, 6, 7, 8, 9].all fun t => l.any (·.typ == t))
    && (l.all fun x => decide ((entryLimits layers x.typ).1 ≤ x.n ∧ x.n ≤ (entryLimits layers x.typ).2
      ∧ entrySize x.typ * x.n ≤ x.len))
    && ([7, 8, 9].all fun t => (sect l t).n % 8 == 0)
    && decide ((sect l 1).len ≤ 2 ^ 26 ∧ (sect l 6).len % 128 = 0)
    && decide (1 ≤ layers ∧ layers ≤ 4095 ∧ num8 d 66 1 ≤ 2) && [0, 1, 6].contains (num8 d 67 1)
    && planDigest d == slice d 32 32

/-- Whether templates give no reserved patch code and no core more than 256 entries (R319). -/
def templatesOk (ts : List Nat) : Bool :=
  (ts.all fun t => (List.range 8).all fun i => decide (bits t (4 * i + 351) (4 * i + 348) < 12))
    && ts.all fun t =>
      let c := bits t 430 414
      decide ((ts.filter fun u => decide (bits u 430 414 ≤ c ∧ c ≤ bits u 447 431)).length ≤ 256)

/-- Whether a tree record is unused or well formed (R245, R360). -/
def treeOk' (t : Nat) : Bool :=
  t == 0 ||
    (decide (1 ≤ treeLeaves t ∧ treeLeaves t ≤ 80000) && bits t 111 104 == 0 && bits t 57 48 == 0 && treeDeliver t != 3
      && bits t 6 0 == 0 && ((List.range 8).all fun d => bits t (159 + 32 * d) (158 + 32 * d) == 0)
      && sumN ((List.range 8).map fun d => (treeDie t d).2.2) == treeLeaves t && bits t 511 448 == 0
      && (treeDeliver t != 2 || (treeDims t != 0 && bits t 447 386 == 0)))

/-- The plan that an image holds; addresses, results and drop ranges are filled in by the load. -/
def planOf (d : List Byte) (addr model : Nat) : Plan :=
  let l := sectionsOf d
  { Plan.reset with
    digest := slice d 32 32, addr := addr, len := d.length, model := model, layers := num8 d 64 2, dsel := num8 d 66 1
    fmt := num8 d 67 1, bps := num8 d 68 2, dirRows := num8 d 70 2, stepTok := num8 d 72 2, prefill := num8 d 74 2
    fbStepTok := num8 d 76 2, fbPrefill := num8 d 78 2, codeLen := (sect l 1).len, codeOff := (sect l 1).off
    treesOff := (sect l 3).off, fbTreesOff := (sect l 8).off
    templates := recordsOf d (sect l 2), trees := recordsOf d (sect l 3), costs := recordsOf d (sect l 4)
    fbTemplates := variantsOf (recordsOf d (sect l 7)), fbTrees := variantsOf (recordsOf d (sect l 8))
    fbCosts := variantsOf (recordsOf d (sect l 9)) }

/-! ### Places (R14, R260, R311, R357, R373, R440) -/

/-- The lowest base of a 4 KiB multiple at which `n` bytes below `top` meet none of the blocks. -/
def lowestFit (blocks : List (Nat × Nat)) (top n : Nat) : Option Nat :=
  let up := fun (a : Nat) => (a + 4095) / 4096 * 4096
  let fits := fun (b : Nat) => decide (b + n ≤ top) && blocks.all fun x => !meets b n x.1 x.2
  ((0 :: blocks.map fun x => up (x.1 + x.2)).filter fits).foldl (fun (m : Option Nat) b => match m with
    | some a => some (min a b)
    | none => some b) none

/-- A place for `n` bytes: one that nothing constrains where it is free, else the lowest. -/
def State.placeFor (s : State) (blocks : List (Nat × Nat)) (n : Nat) : Option Nat :=
  let b := 4096 * (s.freeVal.toNat % 2 ^ 28)
  if b + n ≤ s.hbm.spool ∧ blocks.all (fun x => !meets b n x.1 x.2) then some b else lowestFit blocks s.hbm.spool n

/-- The ranges that carve-outs take. -/
def State.carveRanges (s : State) : List (Nat × Nat) :=
  s.parts.parts.flatMap fun x => x.2.carves.map fun c => (c.1 * 2 ^ 30, c.2 * 2 ^ 30)

/-- WBASE of a slice (R260); none where the spare pool leaves no room. -/
def State.weightBase (s : State) (wlen : Nat) : Option Nat :=
  if warea wlen ≤ s.hbm.spool then some ((s.hbm.spool - warea wlen) / 4096 * 4096) else none

/-- The bytes of memory stay in their channels and slots when the barrel area moves: the addresses that the new mapping gives
those places now hold them, poison with them (R258, R259). -/
def State.moveSlots (s t : State) : State :=
  let dest := fun (a : Nat) => t.addrOf (s.channel a) (s.slotOf a) + a % 256
  if s.hbm.bbase = t.hbm.bbase ∧ s.hbm.blen = t.hbm.blen then t
  else s.mem.foldl (fun (u : State) c => u.poke (dest c.1) [c.2 ^^^ s.bare c.1])
    { t with mem := [], hbm := { t.hbm with poison := sortUp (t.hbm.poison.map fun b => dest (64 * b) / 64) } }

/-- The areas in force after a load: those of the committed groups (R277, R357, R384, R584). -/
def State.newAreas (s : State) (wbase wlen : Nat) : State := s.moveSlots
  { s with
    hbm := { s.hbm with bbase := s.od 0x5000 5, blen := s.od 0x5000 6, parity := s.od 0x5000 7 != 0 }
    span := { s.span with
      wbase := s.od 0x6100 0x10, wlen := s.od 0x6100 0x11, rbase := s.od 0x6200 2, rlen := s.od 0x6200 3
      rackSlots := s.od 0x6200 4, job := (List.range 9).map fun i => s.od 0x6100 (5 + i) }
    cellar := { s.cellar with
      wbase := wbase, wlen := wlen, ceiling := s.od 0x4000 1, loadCeiling := s.od 0x4000 1 } }

/-- The overlaps for which a load is refused (R260, R357, R373, R440). -/
def State.areasClash (s : State) (wbase wlen : Nat) : Bool :=
  let wa := (wbase, warea wlen)
  let ba := (s.od 0x5000 5, s.od 0x5000 6)
  let sw := (s.od 0x6100 0x10, s.od 0x6100 0x11)
  let ra := (s.od 0x6200 2, s.od 0x6200 3)
  let hit := fun (a b : Nat × Nat) => meets a.1 a.2 b.1 b.2
  hit wa ba || hit wa sw || hit wa ra || hit ba ra || hit sw ra || s.carveRanges.any fun c => hit wa c

/-! ### Translations kept for the life of the plan (R190, R245) -/

/-- The result lines of a tree record, translated; none where a line fails. -/
def State.resultLines (s t : State) (model rec' : Nat) : Option (List Nat) :=
  if rec' = 0 then some []
  else (List.range (bits rec' 91 75 + 1)).mapM fun i =>
    match s.engineXlat s.host.xlatA model (bits rec' 47 0 + 128 * i) with
    | some (pa, _, w) => if w && isHbm pa && t.reach model 0 pa 128 true then some pa else none
    | none => none

/-- The result lines of a list of records. -/
def State.keptResults (s t : State) (model : Nat) (recs : List Nat) : Option (List (List Nat)) :=
  recs.mapM fun r => s.resultLines t model r

/-- The physical pieces of a drop range. -/
def State.dropRange (s : State) (model r : Nat) : Option (List (Nat × Nat)) :=
  if bits r 6 0 = 0 then s.xlatRange s.host.xlatA model (bits r 47 0) (bits r 127 64) else none

/-- The addresses whose translations a load uses. -/
def loadVas (p : Plan) (drops : List Nat) : List Nat :=
  ((p.trees ++ p.fbTrees.flatten).filter (· != 0)).flatMap (fun t => pagesOf (bits t 47 0) (128 * (bits t 91 75 + 1)))
    ++ drops.flatMap fun r => pagesOf (bits r 47 0) (bits r 127 64)

/-! ### Weights (R13, R186, R260, R261) -/

/-- The scaled sum of the chunks of a stripe: the parity chunk of a position. -/
def stripeParity (g : Nat → BitVec 8) (chunks : List (List Byte)) : List Byte :=
  (chunks.zipIdx.foldl (fun (a : List Byte) (x : List Byte × Nat) => xorBytes a (x.1.map (gfMul (g x.2)))) (List.replicate 256 0))

/-- A stripe is written with its parity (R261). -/
def State.writeStripe (s : State) (d : List Byte) (i : Nat) : State :=
  let data := slice d (3584 * i) 3584
  let chunks := (List.range 14).map fun j => slice data (256 * j) 256
  s.poke (s.cellar.wbase + 4096 * i) (data ++ stripeParity g14 chunks ++ stripeParity g15 chunks)

/-- The weight area is written: every stripe with its parity, the rest of the last with zeros (R260, R261). -/
def State.writeWeights (s : State) (d : List Byte) : State :=
  let n := warea s.cellar.wlen
  let t := (s.zeroMem s.cellar.wbase n).cleanStore s.cellar.wbase n
  (List.range (n / 4096)).foldl (fun (t : State) i => t.writeStripe d i) t

/-- Lines of the weight region leave the cellar without write-back; the companion is told to give up its copies, and data that
it returns is discarded (R186). -/
def State.clearRegion (s : State) : State :=
  s.tossLines fun x => s.cellar.inWeights (128 * x.addr)

/-- The reserve is laid anew over a written slice (R13, R186, R488). -/
def State.layWeights (s : State) (d : List Byte) : State :=
  let t := s.clearRegion.writeWeights d
  ({ t with cellar := { t.cellar with relaid := false } } : State).relay

/-! ### Load and unload -/

/-- Measurement register 6 holds the digest of the active plan (R549). -/
def State.setMeas6 (s : State) (d : List Byte) : State := { s with sec := { s.sec with meas := put s.sec.meas 6 d } }

/-- A load whose checks have passed takes effect; plan digests are exchanged (R12). -/
def State.installPlan (s : State) (p : Plan) (weights : List Byte) (drops : List Nat) : State :=
  let t := { s with
    host := { s.host with plan := some p, xlatA := s.xlatFill s.host.xlatA p.model (loadVas p drops) } }
  (((t.layWeights weights).partShort.setMeas6 p.digest).drew).floodDigest.compareDigests s.ringTargets

/-- The checks of a load after those of the image, and its effect; a status where it is refused (R14, R186, R245, R260, R311, R357,
R373, R422, R440). -/
def State.loadPlan (s : State) (d : List Byte) (p : Plan) : Except Nat State :=
  let l := sectionsOf d
  let wlen := (sect l 6).len
  let drops := recordsOf d (sect l 5)
  match s.weightBase wlen with
  | none => .error stTooLarge
  | some wb =>
    if !fits wlen s.cellar.live (s.od 0x4000 1) || s.areasClash wb wlen then .error stTooLarge
    else
      let t := s.newAreas wb wlen
      let blocks := (t.hbm.bbase, t.hbm.blen) :: (wb, warea wlen) :: (t.span.wbase, t.span.wlen) :: (t.span.rbase, t.span.rlen)
        :: s.carveRanges
      let dir := (p.dirLen + 4095) / 4096 * 4096
      match s.placeFor blocks (dir + 2 ^ 25) with
      | none => .error stTooLarge
      | some b =>
        match s.keptResults t p.model p.trees, p.fbTrees.mapM (fun x => s.keptResults t p.model x),
            drops.mapM fun r => s.dropRange p.model r with
        | some rs, some frs, some ds =>
          let q := { p with results := rs, fbResults := frs, drops := ds.flatten, dirBase := b, area := b + dir }
          .ok (t.installPlan q (slice d (sect l 6).off wlen) drops)
        | _, _, _ => .error stImage

/-- PLAN_LOAD: the image is read and checked, and the plan becomes active, or the command is refused (R11, R413, R421, R422). -/
def execPlanLoad (q : Nat) (image : List Byte) (s : State) : Res :=
  .next (s.onHead q 0x30 fun c =>
    let addr := winAddr (cw c 1)
    let model := cw c 3
    let p := planOf image addr model
    if s.host.plan.isSome then s.complete q stPlanBusy 0
    else if addr % 4096 ≠ 0 ∨ !isComp addr ∨ !isComp (addr + cw c 2 - 1) ∨ model = 0 ∨ (s.ctx model).kind ≠ 1 then
      s.complete q stBadCmd 0
    else if !imageOk image (cw c 2) || !templatesOk p.templates || !p.fbTemplates.all templatesOk || !p.trees.all treeOk'
        || !p.fbTrees.all (fun l => l.all treeOk') then s.complete q stImage 0
    else match s.loadPlan image p with
      | .ok t => t.complete q 0 0
      | .error e => s.complete q e 0)

/-- PLAN_UNLOAD: accepted only with an empty sequence table; the region's lines are given up, and no weight region is in force
(R11, R202, R549). -/
def execPlanUnload (q : Nat) (s : State) : Res :=
  .next (s.onHead q 0x31 fun _ =>
    if s.host.plan.isNone then s.complete q stNoPlan 0
    else if s.seq.table.any fun x => x.2.st != .free then s.complete q stBusy 0
    else
      let t := s.clearRegion
      ((({ t with
        host := { t.host with plan := none }
        cellar := { t.cellar with wbase := 0, wlen := 0, relaid := true }
        seq := { t.seq with nxt := none } } : State).setMeas6 (List.replicate 32 0))).complete q 0 0)

end Sys2Proof.Machine
end

