-- ==== Sys2Proof/Machine/Alarm.lean ====
section
/-!
DEFINITION. Machine/Alarm.lean: what other units share of security (chapter 20): measurement registers, the alarm and its
responses, and the advance of the key epoch.
-/

namespace Sys2Proof.Machine

/-! ### Measurement registers (R549) -/

/-- The value of a measurement register 1 to 6. -/
def State.measured (s : State) (i : Nat) : List Byte := get s.sec.meas i (List.replicate 32 0)
/-- A measurement register is extended by a digest. -/
def State.extend (s : State) (i : Nat) (d : List Byte) : State :=
  { s with sec := { s.sec with meas := put s.sec.meas i (sm3 (s.measured i ++ d)) } }
/-- A measurement register is extended by the digest of contents that the spec does not give (assumption 2). -/
def State.extendFree (s : State) (i : Nat) : State := (s.extend i (s.freeStr 32)).drew
/-- Register 5 is extended with the configuration: MIN_SVN, DEBUG_KEY and the alarm responses. -/
def State.extendConfig (s : State) : State :=
  s.extend 5 (sm3 (leBytes s.sec.minSvn 2 ++ leBytes (s.od 0x8000 0x20) 32
    ++ (List.range 6).map fun i => BitVec.ofNat 8 (s.od 0x8000 (0x10 + i))))

/-! ### The key epoch (R551, R553) -/

/-- The key epoch advances by one: new keys, a re-signed in-service section, and no certificate chain; the saturated epoch is
never left (R551 to R553). -/
def State.nextEpoch (s : State) : State :=
  whenever (!s.sec.saturated) s
    (let e := s.sec.epoch + 1
     let full := e == BitVec.allOnes 32
     let t := { s.sticky 0x8000 1 1 with
       sec := { s.sec with epoch := e, chain := none, saturated := full } }.recorded
     (if full then t.report 0x4806 0 0 else t).drew)

/-! ### Zeroing (R558) -/

/-- The plan is gone (R202, R549). -/
def State.noPlan (s : State) : State :=
  ({ s with
    host := { s.host with plan := none }
    cellar := { s.cellar with wbase := 0, wlen := 0, relaid := true }
    seq := { s.seq with nxt := none } } : State).setMeas6 (List.replicate 32 0)

/-- Every context but context 0 is torn down as under PROCESS_GONE, and queue 0 is gone (R472, R558). -/
def State.allGone (s : State) (p : Nat × Ctx → Bool) : State :=
  let gone := (s.host.ctxs.filter fun x => x.1 != 0 && p x && !x.2.dying).map (·.1)
  let t := gone.foldl (fun (t : State) c => t.beginGone c none) s
  { t with host := { t.host with queues := drop t.host.queues 0, notices := [] } }

/-- Response 2: HBM, the cellar, the memories of the cores and the records are zeroed, the plan is unloaded, and the contexts are
torn down (R558). Requests of the module that are still on their way write nothing more. -/
def State.zeroAll (s : State) (keep : Nat) : State :=
  let t := (s.tossLines fun _ => true).zeroMem 0 (2 ^ 40)
  let clear := fun (x : Nat × Core) => (x.1, { x.2 with ldst := [], ecc := [], rcache := [], prevCtx := none })
  let comp := fun (r : Req) => match r.agent with | .comp _ _ _ => true | _ => false
  let t := { t with
    cores := t.cores.map clear
    reqs := t.reqs.filter comp
    hbm := { t.hbm with poison := [], ecc := [], parUps := [] }
    span := { t.span with racks := [], deferred := [] }
    faults := { t.faults with recs := t.faults.recs.filter fun r => r.num.toNat == keep } }
  (t.noPlan.allGone fun _ => true)

/-- The collector carries out what an alarm has asked for: zeroing, the advance of the key epoch, and the opening of the debug
port (R558, R562). -/
def State.respond (s : State) (num : Nat) : State :=
  whenever s.sec.zeroing s
    (let t := { s.zeroAll num with sec := { s.sec with zeroing := false, advance := false, opening := false, meas := (s.zeroAll num).sec.meas } }
     let t := if s.sec.advance then t.nextEpoch else t
     if s.sec.opening then
       ({ t.sticky 0x8000 1 2 with sec := { t.sec with debug := 2 } } : State).report 0x1809 0 0
     else t)

/-! ### The alarm (R557, R558) -/

/-- A response is carried out where it is above the one in force: it is in force from detection on (R558). -/
def State.demand (s : State) (resp source : Nat) : State :=
  let now := s.sec.inForce.getD 0
  let up := decide (now < resp)
  let t := { s.sticky 0x8000 1 0 with sec := { s.sec with
    inForce := some (max now resp)
    zeroing := s.sec.zeroing || up && decide (2 ≤ resp)
    advance := s.sec.advance || up && decide (3 ≤ resp) } }
  t.report (if resp = 0 then 0x1804 else 0x4805) 0 0 source

/-- An alarm source becomes active (R557). -/
def State.alarm (s : State) (source : Nat) : State :=
  whenever (!s.sec.active.contains source) s
    (({ s with sec := { s.sec with active := insertUp source s.sec.active } } : State).demand (s.od 0x8000 (0x10 + source)) source)

/-- A source is no longer active; with none active, no response is in force (R557, R558). -/
def State.calm (s : State) (p : Nat → Bool) : State :=
  let left := s.sec.active.filter fun a => !p a
  { s with sec := { s.sec with active := left, inForce := if left.isEmpty then none else s.sec.inForce } }

end Sys2Proof.Machine
end

