-- ==== Sys2Proof/Machine/Faults.lean ====
section
/-!
DEFINITION. Machine/Faults.lean: the commands of fault handling (chapter 17): reports, records, acknowledgement, the safe
state, the collector, the weight reload and die events.
-/

namespace Sys2Proof.Machine

/-! ### The collector receives a report (R462) -/

/-- Whether a report is merged into a record (R462). -/
def Rec.merges (x : Rec) (r : Report) (now : Nat) : Bool :=
  !x.ack && x.code == r.code && x.lockind.toNat == r.lockind && x.loc.toNat == r.loc && decide (now < x.opened + 1000000)

/-- A merged report counts in REPEAT, which saturates (R462). -/
def Rec.again (x : Rec) : Rec := { x with repeats := if x.repeats = BitVec.allOnes 16 then x.repeats else x.repeats + 1 }

/-- A report is merged into the record with a number. -/
def State.merge (s : State) (r : Report) (num : BitVec 12) : State :=
  ({ s with faults := { s.faults with
    recs := s.faults.recs.map fun (x : Rec) => if x.num = num ∧ x.merges r s.now then x.again else x
    lastF34 := if 3 ≤ levelOf r.code.toNat then s.now else s.faults.lastF34 } } : State).voidFor r

/-- A core is marked for retirement (R466). -/
def State.markCore (s : State) (loc : Nat) : State :=
  match s.coreOfLoc loc with
  | some c => { s with faults := { s.faults with retiring := addTo s.faults.retiring c } }
  | none => s

/-- A corrected error of a core's memories counts towards CORE_CE_LIMIT in 24 h (R466). -/
def State.coreCe (s : State) (loc : Nat) : State :=
  match s.coreOfLoc loc with
  | none => s
  | some c =>
    let times := ((s.core c).ceTimes.filter fun t => decide (s.now < t + dayNs)) ++ [s.now]
    let t := s.onCoreState c fun k => { k with ceTimes := times }
    whenever (decide (s.od 0x3000 8 ≤ times.length)) t (t.markCore loc)

/-- A cask is retired and folded; a step in flight that had tentative, c2 or reduction lines or holds in it is retried (R199,
R467). -/
def State.retireCask (s : State) (pos : Nat) : State :=
  let t := (s.fold [pos]).report 0x1204 2 pos
  let t := { t with cellar := { t.cellar with retired := addTo t.cellar.retired pos } }
  if s.losesWork [pos] then t.retryStep else t

/-- A router is dead: its cores are marked for retirement, and its cask is retired (R249). -/
def State.routerDead (s : State) (g : Nat × Nat) : State :=
  let r := s.killRouter g
  r.2.foldl State.retireCask r.1

/-- TR_ROUTER_DEAD: the router stays dead until its die resets (R249, R466, R467). -/
def execTrRouterDead (gx gy : Nat) (s : State) : Res :=
  onPart "router" (92 * 64) (64 * gx + gy) (whenever (!s.trellis.deadR.contains (gx, gy)) s (s.routerDead (gx, gy)))

/-- Route tables that avoid the dead routers, the edges that are down or fenced and the dies that are out are installed
(R237). -/
def State.installRoutes (s : State) : State :=
  { s with
    freeCtr := s.freeCtr + 1
    trellis := { s.trellis with
      routed := s.trellis.deadR, routedE := (List.range 14).filter s.edgeShut, routedD := s.trellis.lost, tables := s.freeCtr } }

/-- ROUTE_CHANGE: new tables are installed, a live router that no route reaches is reported as dead, ROUTE_EPOCH rises, and
the re-send schedule starts (R237, R251). -/
def execRouteChange (s : State) : Res :=
  .next (let t := s.installRoutes
    let t := t.cutOff.foldl State.routerDead t
    let t := { t with trellis := { t.trellis with resend := 1 } }
    (t.setOd 0x6000 2 ((s.od 0x6000 2 + 1) % 2 ^ 32)).sticky 0x6000 1 3)

/-- A corrected error of a cask counts towards CASK_CE_LIMIT in 24 h, at which the cask is retired and folded (R467). -/
def State.caskCe (s : State) (pos : Nat) : State :=
  let times := (s.cellar.ceTimes.filter fun x => decide (s.now < x.2 + dayNs)) ++ [(pos, s.now)]
  let t := { s with cellar := { s.cellar with ceTimes := times } }
  whenever (decide (s.od 0x3000 9 ≤ inDay times pos s.now) && !s.cellar.dead.contains pos) t
    (t.retireCask pos)

/-- A model-context fault: more than MODEL_FAULT_LIMIT in 60 s are the fourth cause of the safe state (R468). -/
def State.modelCount (s : State) (num : BitVec 12) : State :=
  let times := (s.faults.modelTimes.filter fun t => decide (s.now < t + 60000000000)) ++ [s.now]
  let t := { s.sticky 0x3100 1 9 with faults := { (s.sticky 0x3100 1 9).faults with modelTimes := times } }
  whenever (decide (s.od 0x3000 5 < times.length)) t (t.escalate 3 num)

/-- What an F2 fault does to the context that it names, where no kernel's completion record does it (R334, R456, R486). -/
def State.contextFault (s : State) (r : Report) : State :=
  if r.lockind = 1 ∨ r.code.toNat = 0x2604 ∨ r.code.toNat = 0x2008 then s
  else if r.model then s.modelF2 r.code.toNat else s.tearDown r.ctx

/-- What an F4 fault does: the safe state, with the cause it has (R468). -/
def State.moduleFault (s : State) (code num : Nat) : State :=
  if code = 0x400C ∨ code = 0x4401 ∨ code = 0x4402 ∨ code = 0x4404 then s.enterSafe else s.safeCause 0 code num

/-- What the collector does on a report once it is recorded, merged or counted (R456). -/
def State.actOn (s : State) (r : Report) (num : BitVec 12) : State :=
  match r.code.toNat with
  | 0x010B => s.coreCe r.loc
  | 0x0201 => whenever (r.lockind == 2) s (s.caskCe r.loc)
  | 0x210A => s.markCore r.loc
  | 0x1704 => whenever s.coh.dead s (s.escalate 1 num)
  | 0x2008 => s.modelCount num
  | 0x4805 => (s.moduleFault 0x4805 num.toNat).respond num.toNat
  | 0x3045 => (s.dieOut (r.loc / 2 ^ 14) none r.inj).dieGone (r.loc / 2 ^ 14) r.inj
  | code => match levelOf code with
    | 2 => s.contextFault r
    | 4 => s.moduleFault code num.toNat
    | _ => s

/-- The collector receives a report: it counts it, records it or merges it, and acts (R456, R457, R462, R463). -/
def State.receive (s : State) (r : Report) : State :=
  let bad := decide (5 ≤ levelOf r.code.toNat) || !faultSources.contains (sourceOf r.code.toNat)
  let r := if bad then { r with code := 0x0003 } else r
  let src := sourceOf r.code.toNat
  let s := s.bump 0x3100 (0x40 + src) 1
  if levelOf r.code.toNat = 0 ∧ !bad ∧ !(s.od 0x3000 7).testBit src then s.actOn r 0
  else match s.faults.recs.find? fun x => x.merges r s.now with
    | some x => (s.merge r x.num).actOn r x.num
    | none => let t := s.openRecord r none; t.actOn r t.faults.lastNum

/-- FAULT_REPORT: the collector takes the oldest report, once an instance is live (R462, R527). -/
def execFaultReport (s : State) : Res :=
  .next (match s.faults.reports with
    | r :: rest => whenever (!s.faults.hwLatch && decide (5 ≤ s.bring.row)) s
        ((({ s with faults := { s.faults with reports := rest } } : State).tick).receive r)
    | [] => s)

/-- REPORT_RESEND: a report that has waited 1 ms is sent again, which is counted (R462). -/
def execReportResend (s : State) : Res :=
  .next (whenever (!s.faults.reports.isEmpty) s (s.bump 0x3100 0x40 1))

/-! ### Acknowledgement and the escalation timer (R464) -/

/-- The bit of ESC_MASK of a level: F1, F2 of the model context, F3. -/
def escBit (level : Nat) : Nat := level - 1

/-- ESCALATION_TIMEOUT: the timer of a record expires: it is unhandled, and its level may escalate (R464). -/
def execEscalationTimeout (num : Nat) (s : State) : Res :=
  .next (match s.faults.recs.find? fun x => x.num.toNat == num && x.timer && !x.ack with
    | some x =>
      let late := fun (y : Rec) => if y.num = x.num then { y with unh := true, timer := false } else y
      let t := ({ s with faults := { s.faults with recs := s.faults.recs.map late } } : State).sticky 0x3100 1 5
      whenever (!s.faults.hwLatch) s
        (whenever ((s.od 0x3000 4).testBit (escBit (levelOf x.code.toNat))) t (t.escalate 0 x.num)).refreshN
    | none => s)

/-- Records with a number are acknowledged; causes of the safe state that wait for one of them are cleared, unless their
rules state another condition (R464, R470). -/
def State.ack (s : State) (p : BitVec 12 → Bool) : State :=
  let hit := fun (x : Rec) => if p x.num then { x with ack := true, timer := false } else x
  ({ s with faults := { s.faults with
    recs := s.faults.recs.map hit
    f4 := s.faults.f4.filter fun x => ownClear.contains (x.1 % 2 ^ 16) || !p (BitVec.ofNat 12 x.2) } } : State).refreshN

/-- FAULT_ACK: a record is acknowledged, or all of them (R464, R483). -/
def execFaultAck (path : Path) (tid num : Nat) (s : State) : Res :=
  .next (s.request path tid 0x3100 3 1 fun s =>
    if num = 0xFFFF then .ok (s.ack fun _ => true)
    else guardAct (decide (num < 4096)) abRange (.ok (s.ack fun n => n.toNat == num)))

/-! ### The safe state (R468 to R472) -/

/-- SAFE_ENTER: a write of 1 enters the safe state as `SAFE_REQUESTED` (R468). -/
def execSafeEnter (path : Path) (tid : Nat) (s : State) : Res :=
  .next (s.request path tid 0x3000 0x0E 2 fun s =>
    .ok ((({ s with faults := { s.faults with causes := [4] } } : State).enterSafe).report 0x400C 0 0))

/-- SAFE_EXIT: a write of 1 clears `SAFE_REQUESTED` as a cause (R470, R482). -/
def execSafeExit (path : Path) (tid : Nat) (s : State) : Res :=
  .next (s.request path tid 0x3000 0x0F 2 fun s =>
    .ok { s with faults := { s.faults with causes := s.faults.causes.filter (· != 4) } })

/-- Whether every condition of R470 for an exit holds but the latched state. -/
def State.exitReady (s : State) : Bool :=
  s.faults.safe && !s.safeHeld && decide (s.faults.lastF34 + 1000000 * s.od 0x3000 2 ≤ s.now) && s.bring.state != 9

/-- SAFE_STATE_EXIT: with every cause cleared and the quiet period over, the module leaves the safe state on its own, or is
latched where that exit would be one too many (R470, R471). -/
def execSafeStateExit (s : State) : Res :=
  .next (whenever (s.exitReady && !s.faults.latched) s
    (if s.od 0x3000 3 ≤ s.exits24 then s.latch.refreshN else s.leaveSafe false))

/-- A dead companion is admitted again (R472). -/
def State.readmit (s : State) (f : State → State) : Act :=
  guardAct (s.coh.dead && s.host.link == 2) abState (.ok (f { s with coh := { s.coh with dead := false } }))

/-- ADMIT_RESUME: the companion kept its state: every queue goes on at the module's read index (R472). -/
def execAdmitResume (path : Path) (tid : Nat) (s : State) : Res :=
  .next (s.request path tid 0x3100 5 1 fun s => s.readmit id)

/-- ADMIT_FRESH: the companion starts anew: every context but context 0 and the model context is torn down, and queue 0 is gone
(R472). -/
def execAdmitFresh (path : Path) (tid : Nat) (s : State) : Res :=
  .next (s.request path tid 0x3100 5 1 fun s => s.readmit fun t => t.allGone fun x => x.2.kind != 1)

/-! ### SERVICE_CLEAR (R465, R471, R483) -/

/-- The recovery counter is cleared (R471). -/
def State.clearRecovery (s : State) : State := { s with faults := { s.faults with recovery := 0 } }
/-- The replacement flag is cleared (R465). -/
def State.clearReplace (s : State) : State := ({ s with faults := { s.faults with replace := false } } : State).refreshN
/-- The latched state ends and the window of automatic exits is emptied; the module leaves the safe state by a service exit if
every other condition holds (R470, R471). -/
def State.clearLatched (s : State) : State :=
  let t := { s with faults := { s.faults with latched := false, exits := if s.faults.latched then [] else s.faults.exits } }
  if s.faults.latched && t.exitReady then t.leaveSafe true else t

/-- CLEAR_RECOVERY_COUNTER: bit 0 of SERVICE_CLEAR (R471). -/
def execClearRecoveryCounter (path : Path) (tid : Nat) (s : State) : Res :=
  .next (s.request path tid 0x3100 0x0F 2 fun s => .ok s.clearRecovery)
/-- CLEAR_REPLACEMENT_FLAG: bit 1 of SERVICE_CLEAR (R465). -/
def execClearReplacementFlag (path : Path) (tid : Nat) (s : State) : Res :=
  .next (s.request path tid 0x3100 0x0F 2 fun s => .ok s.clearReplace)
/-- CLEAR_LATCHED: bit 2 of SERVICE_CLEAR (R470, R471). -/
def execClearLatched (path : Path) (tid : Nat) (s : State) : Res :=
  .next (s.request path tid 0x3100 0x0F 2 fun s => .ok s.clearLatched)

/-! ### The collector itself (R474 to R476) -/

/-- A collector instance fails, false the one on X0: the standby takes over from the active one (R474). -/
def State.collectorFails (s : State) (onX1 : Bool) : State :=
  let t := { s.sticky 0x3100 1 4 with faults := { (s.sticky 0x3100 1 4).faults with standby := false } }
  if onX1 != s.faults.activeX1 then t
  else if s.faults.standby then
    ({ t with faults := { t.faults with activeX1 := !s.faults.activeX1 } } : State).report 0x1005 12 (4 * b2n onX1)
  else s

/-- FC_VOTE: a collector core dissents: it is outvoted, removed at its second dissent in 24 h, and where its instance runs on
two cores only, the instance fails (R474). -/
def execFcVote (core : Nat) (s : State) : Res :=
  onPart "collector core" 8 core (whenever (core % 4 != 3 && !s.faults.removed.contains core && !s.faults.hwLatch) s
    (if s.faults.removed.any fun c => c / 4 == core / 4 then s.collectorFails (core / 4 == 1)
     else
       let recent := s.faults.dissent.filter fun x => decide (s.now < x.2 + dayNs)
       let again := recent.any fun x => x.1 == core
       ({ s with faults := { s.faults with
         dissent := recent ++ [(core, s.now)]
         removed := if again then s.faults.removed ++ [core] else s.faults.removed } } : State).report 0x1004 12 core))

/-- FC_LATCH: 1 ms without a heartbeat of a live collector: `FAULT_N` is low, no further step is broadcast, and the flash log
takes the fault (R476). -/
def execFcLatch (s : State) : Res :=
  .next (whenever (!s.faults.hwLatch) s
    (({ s.flashOnly 0x400A with faults := { (s.flashOnly 0x400A).faults with hwLatch := true } } : State).replaceFlag).refreshN)

/-- An injection that waited for the next write of a local word and has met it is applied (R478, R484). -/
def State.settleInj (s : State) : State :=
  match s.faults.injArmed with
  | some (3, _, _, 1) => whenever (!s.cores.any fun x => x.2.injNext.isSome) s s.injected
  | _ => s

/-- No core awaits an injection any longer. -/
def State.disarm (s : State) : State :=
  { s with
    faults := { s.faults with injArmed := none }
    cores := s.cores.map fun (x : Nat × Core) => (x.1, { x.2 with injNext := none }) }

/-- INJ_EXPIRY: an injection that found no place within 10 s expires (R478). -/
def execInjExpiry (s : State) : Res :=
  .next (let t := s.settleInj
    whenever t.faults.injArmed.isSome t { t.disarm with faults := { t.disarm.faults with injState := 3 } })

/-! ### The weight reload (R487 to R489) -/

/-- WEIGHT_RELOAD: the image that was read again is checked; the weight area is written with its parity and the reserve laid
again, or `PLAN_RELOAD_FAILED` is raised and the reload stays due (R488, R489). -/
def execWeightReload (image : List Byte) (s : State) : Res :=
  .next (match s.host.plan with
    | some p => whenever (s.faults.reload && !s.faults.safe && s.seq.phase == .idle) s
        (if image.length = p.len ∧ planDigest image = p.digest then
          let w := sect (sectionsOf image) 6
          let t := s.layWeights (slice image w.off w.len)
          { t with faults := { t.faults with reload := false } }
         else s.report 0x400B 0 0)
    | none => s)

/-! ### Die events (R490, R491) -/

/-- DCLK_LOSS: a compute die's forwarded clock is lost (R250, R490). -/
def execDclkLoss (die : Nat) (s : State) : Res := onPart "compute die" 8 die (s.dieEvent die 0x3041)
/-- DIE_LOCKSTEP: a die controller's lockstep pair disagrees (R490). -/
def execDieLockstep (die : Nat) (s : State) : Res := onPart "compute die" 8 die (s.dieEvent die 0x3042)
/-- DIE_HUNG: a die controller has been silent for 100 µs (R490). -/
def execDieHung (die : Nat) (s : State) : Res := onPart "compute die" 8 die (s.dieEvent die 0x3043)

/-- Whether a die is out of service, not lost, and not yet ready. -/
def State.dieAway (s : State) (die : Nat) : Bool :=
  s.faults.diesOut.contains die && !s.faults.diesLost.contains die && !s.faults.diesBack.contains die

/-- The reset of a die brings back its routers, but for those that the vintage record lists as defective, with the casks that
were retired for them, and empties what they held (R201, R248, R249). -/
def State.resetRouters (s : State) (die : Nat) : State :=
  let back := s.trellis.deadR.filter fun g => ownerDie g == die && !s.bring.recRouters.contains g
  { s with
    cellar := { s.cellar with retired := s.cellar.retired.filter fun p => !back.contains (caskRouter p) }
    trellis := { s.trellis with
      deadR := s.trellis.deadR.filter fun g => !back.contains g
      pkts := s.trellis.pkts.filter fun (p : Pkt) => ownerDie (p.gx, p.gy) != die
      bufs := s.trellis.bufs.filter fun (b : LBuf) => ownerDie (b.gx, b.gy) != die } }

/-- DIE_READY: a reset die is ready and waits for the unfold of the next step boundary (R490). -/
def execDieReady (die : Nat) (s : State) : Res :=
  onPart "compute die" 8 die (whenever (s.dieAway die) s
    { s.resetRouters die with
      faults := { s.faults with diesBack := addTo s.faults.diesBack die }
      bring := { s.bring with testing := s.bring.testing.filter (· != die) } })

/-- DIE_LOST: a die is not ready at DIE_RETURN (R490). -/
def execDieLost (die : Nat) (s : State) : Res := onPart "compute die" 8 die (whenever (s.dieAway die) s (s.dieGone die))

/-- IO_DIE_LOST: X0 or X1 is reset or lost, and with it its instances of the collector and of the engine (R304, R474, R491). -/
def execIoDieLost (die : Nat) (s : State) : Res :=
  onPart "I/O die" 10 die (whenever (decide (8 ≤ die) && !s.faults.diesOut.contains die) s
    (let x1 := die == 9
     let t := { s with faults := { s.faults with diesOut := insertUp die s.faults.diesOut } }
     let t := (t.collectorFails x1).report 0x4048 6 die
     let active := t.seq.onX1 == x1
     if t.seq.instances = 2 then
       let u := { t with seq := { t.seq with instances := 1, onX1 := !x1 } }
       if active then ((u.sticky 0x7200 1 1).report 0x1602 0 0 |>.void 1).retryStep else u
     else if active then ({ t with seq := { t.seq with instances := 0 } } : State).enterSafe
     else t))

/-- The state of the cores of a die that returns from reset. -/
def State.freshCores (s : State) (die : Nat) : State :=
  { s with cores := s.cores.filter fun x => x.1 / 10000 != die }

/-- UNFOLD: at a step boundary the dies that are ready rejoin: the home table of bring-up is restored, the full plan is used
from the next broadcast, and `DIE_REJOINED` is raised for each (R201, R330, R490, R491). -/
def execUnfold (s : State) : Res :=
  .next (whenever (s.seq.phase == .idle && !s.faults.diesBack.isEmpty) s
    (let back := s.faults.diesBack
     let out := s.faults.diesOut.filter fun d => !back.contains d
     let still := s.cellar.dead.filter fun p => !back.contains (p % 8) || s.cellar.retired.contains p
     let t := back.foldl State.freshCores (s.unfoldCellar still)
     let t := { t with
       trellis := { t.trellis with lost := t.trellis.lost.filter fun d => !back.contains d }
       faults := { t.faults with
         diesOut := out, diesBack := []
         rejoined := (t.faults.rejoined.filter fun (x : Nat × Nat) => !back.contains x.1) ++ back.map fun (d : Nat) => (d, s.now) }
       seq := { t.seq with fallback := (out.filter (· < 8)).head? } }
     (back.foldl (fun (t : State) d => t.report 0x1046 6 d) t.dropCauses).refreshN))

end Sys2Proof.Machine
end

