-- ==== Sys2Proof/Machine/HostObjects.lean ====
section
/-!
DEFINITION. Machine/HostObjects.lean: the commands on contexts, queues, fences and memory objects, INVALIDATE, PROCESS_GONE and
QUERY (chapter 15).
-/

namespace Sys2Proof.Machine

/-! ### Fences (R425 to R428, R488) -/

/-- The fence ID of a command. -/
def cFence (c : BitVec 512) : Nat := bits (cw c 1) 15 0

/-- FENCE_SIGNAL: a holder signals a value; the abandon value is refused (R425, R426). -/
def execFenceSignal (q : Nat) (s : State) : Res :=
  .next (s.onHead q 0x10 fun c =>
    if !s.holdsFence (s.queueCtx q) (cFence c) then s.complete q stFence 0
    else if cw c 2 = 2 ^ 64 - 1 then s.complete q stReserved 0
    else (s.signal (cFence c) (cw c 2)).complete q 0 0)

/-- FENCE_WAIT: stays at the head of its queue until the fence has reached its target, is abandoned, or reports an error
(R427, R428, R488). -/
def execFenceWait (q : Nat) (s : State) : Res :=
  .next (s.onHead q 0x11 fun c =>
    match find? s.host.fences (cFence c) with
    | none => s.complete q stFence 0
    | some f =>
      if !f.holders.contains (s.queueCtx q) then s.complete q stFence 0
      else if cw c 2 = 0 then s.complete q 0 0
      else if cw c 2 ≤ f.value.toNat then s.complete q (if f.err = stAbandoned then stAbandoned else 0) 0
      else if f.err ≠ 0 then s.complete q f.err 0
      else s)

/-- The lowest number below a limit that names no object. -/
def freeId (used : Nat → Bool) (first lim : Nat) : Option Nat := firstWhere (fun i => !used i) first (lim - first)

/-- FENCE_CREATE (R425, R429). -/
def execFenceCreate (q : Nat) (s : State) : Res :=
  .next (s.onHead q 0x25 fun c =>
    let owner := bits (cw c 1) 9 0
    if !s.isCtx owner ∨ (s.ctx owner).dying then s.complete q stBadCmd 0
    else match freeId (fun i => (find? s.host.fences i).isSome) 0 65536 with
      | none => s.complete q stNoObject 0
      | some i =>
        ({ s with host := { s.host with fences := put s.host.fences i { Fence.reset with owner := owner, holders := [owner] } } } : State).complete
          q 0 i)

/-- The context of a FENCE_SHARE. -/
def cShareCtx (c : BitVec 512) : Nat := bits (cw c 1) 25 16

/-- A FENCE_SHARE of a fence and a context that exist; bit 31 says which of the two it is (R417, R425). -/
def State.shareFence (s : State) (q : Nat) (grant : Bool) (f : Nat → Fence → Fence) : State :=
  s.onHead q 0x26 fun c =>
    if bit (cw c 1) 31 ≠ grant then s
    else if !s.isCtx (cShareCtx c) ∨ (find? s.host.fences (cFence c)).isNone then s.complete q stBadCmd 0
    else (s.onFence (cFence c) (f (cShareCtx c))).complete q 0 0

/-- FENCE_SHARE_GRANT: a holder more (R425). -/
def execFenceShareGrant (q : Nat) (s : State) : Res :=
  .next (s.shareFence q true fun ctx f => { f with holders := addTo f.holders ctx })
/-- FENCE_SHARE_RELEASE: a holder less; a fence that nothing names is freed (R425). -/
def execFenceShareRelease (q : Nat) (s : State) : Res :=
  .next (s.shareFence q false fun ctx f => { f with holders := f.holders.filter (· != ctx) })

/-! ### Contexts (R411, R413, R414, R430, R437, R443) -/

/-- The descriptor of CTX_CREATE. -/
def ctxDesc (c : BitVec 512) : Nat := cw c 1 + 2 ^ 64 * cw c 2

/-- The context that a descriptor asks for. -/
def ctxOf (d : Nat) : Ctx :=
  { Ctx.reset with
    pasid := bits d 31 12, part := bits d 37 32, kind := bits d 11 10, root := 4096 * bits d 76 48, barrier := bits d 47 38 }

/-- Why a CTX_CREATE is refused, before an ID is sought; 0 for no reason. -/
def State.ctxRefusal (s : State) (x : Ctx) : Nat :=
  if 1 < x.kind ∨ x.pasid = 0 ∨ 1000 < x.barrier ∨ !isHbm x.root ∨ s.host.ctxs.any (fun y => y.2.pasid == x.pasid)
      ∨ (x.kind = 1 ∧ (x.part ≠ 0 ∨ s.host.ctxs.any fun y => y.2.kind == 1)) then stBadCmd
  else if x.part = 0 then 0
  else match find? s.parts.parts x.part with
    | none => stNoObject
    | some p => if p.resetting then stBusy else 0

/-- CTX_CREATE: the lowest free ID takes the context; a frozen partition's contexts are frozen (R413, R437, R443, R447). -/
def execCtxCreate (q : Nat) (s : State) : Res :=
  .next (s.onHead q 0x20 fun c =>
    let x := ctxOf (ctxDesc c)
    let e := s.ctxRefusal x
    if e ≠ 0 then s.complete q e 0
    else match freeId (fun i => (find? s.host.ctxs i).isSome) 1 1024 with
      | none => s.complete q stNoObject 0
      | some i =>
        let frozen := (s.parts.mig.state == 2 || s.parts.mig.state == 3) && x.part == s.od 0x7100 3 && x.part != 0
        ({ s with host := { s.host with ctxs := put s.host.ctxs i { x with frozen := frozen } } } : State).complete q 0 i)

/-- Whether a context is in use (R414). -/
def State.ctxBusy (s : State) (i : Nat) : Bool :=
  i == 0 || (s.ctx i).dying || s.host.queues.any (fun x => qCtx x.2.desc == i)
    || s.seq.table.any (fun x => x.2.st != .free && x.2.ctx.toNat == i)
    || s.host.mems.any (fun x => x.2.binds.contains i)
    || s.host.fences.any fun x => x.2.owner == i && x.2.value != BitVec.allOnes 64

/-- CTX_DESTROY: refused while the context is in use; it ceases to hold fences, and no translation outlives it (R414, R425, R443). -/
def execCtxDestroy (q : Nat) (s : State) : Res :=
  .next (s.onHead q 0x21 fun c =>
    let i := cw c 1
    if !s.isCtx i then s.complete q stBadCmd 0
    else if s.ctxBusy i then s.complete q stBusy 0
    else
      let fences := s.host.fences.map fun (x : Nat × Fence) => (x.1, { x.2 with holders := x.2.holders.filter (· != i) })
      (({ s with host := { s.host with ctxs := drop s.host.ctxs i, fences := fences } } : State).dropXlat i 0 0).complete q 0 0)

/-- PROCESS_GONE: the context of a process identifier is torn down; the command completes once it is gone (R430). -/
def execProcessGone (q : Nat) (s : State) : Res :=
  .next (s.onHead q 0x22 fun c =>
    match s.host.ctxs.find? fun x => x.2.pasid == bits (cw c 1) 19 0 with
    | none => s.complete q stBadCmd 0
    | some (i, x) =>
      if x.dying then s.complete q stBusy 0
      else (s.onQueue q fun k => { k with cmd := none, posted := false }).beginGone i (some (BitVec.ofNat 32 (cmdidOf c))))

/-! ### Queues (R415, R435, R436) -/

/-- The descriptor of QUEUE_CREATE. -/
def queueDesc (c : BitVec 512) : BitVec 256 :=
  BitVec.ofNat 256 (cw c 1 + 2 ^ 64 * cw c 2 + 2 ^ 128 * cw c 3 + 2 ^ 192 * cw c 4)

/-- A queue with a descriptor. -/
def Queue.made (d : BitVec 256) : Queue := { Queue.reset with desc := d }

/-- QUEUE_CREATE (R415, R429). -/
def execQueueCreate (q : Nat) (s : State) : Res :=
  .next (s.onHead q 0x23 fun c =>
    let d := queueDesc c
    if !qValid d ∨ !s.isCtx (qCtx d) ∨ (s.ctx (qCtx d)).dying then s.complete q stBadCmd 0
    else match freeId (fun i => (find? s.host.queues i).isSome) 1 4096 with
      | none => s.complete q stNoObject 0
      | some i => ({ s with host := { s.host with queues := put s.host.queues i (Queue.made d) } } : State).complete q 0 i)

/-- Whether a command of a queue is in flight, or a sequence names the queue. -/
def State.queueBusy (s : State) (i : Nat) : Bool :=
  (s.queue i).cmd.isSome || s.seq.cmdWait.any (fun x => x.2.2.2 == i)
    || s.seq.table.any (fun x => x.2.st != .free && x.2.queue.toNat == i)
    || s.seq.late.any (fun r => r.queue == i) || s.seq.held.any fun r => r.entry.queue == i

/-- QUEUE_DESTROY: a queue that is not in use is gone and never read again (R434, R435). -/
def execQueueDestroy (q : Nat) (s : State) : Res :=
  .next (s.onHead q 0x24 fun c =>
    let i := cw c 1
    if (find? s.host.queues i).isNone then s.complete q stBadCmd 0
    else if s.queueBusy i then s.complete q stBusy 0
    else ({ s with host := { s.host with queues := drop s.host.queues i } } : State).complete q 0 0)

/-- QUEUE0_CREATE: writing 1 makes queue 0 from 0x1100.10 with CTX zero, or is aborted (R436, R541). -/
def execQueue0Create (path : Path) (tid : Nat) (s : State) : Res :=
  .next (s.request path tid 0x1100 0x11 1 fun s =>
    let d := BitVec.ofNat 256 (s.od 0x1100 0x10)
    guardAct s.isReady abNotAvail (guardAct (find? s.host.queues 0).isNone abState
      (guardAct (qValid d && qCtx d == 0) abRange
        (.ok { s with host := { s.host with queues := put s.host.queues 0 (Queue.made d) } }))))

/-! ### Memory objects (R423, R424) -/

/-- The memory ID of a command. -/
def cMem (c : BitVec 512) : Nat := bits (cw c 1) 15 0

/-- A range that a memory object may cover: whole 64 KiB pieces of HBM or of the companion window. -/
def memRange (base len : Nat) : Bool :=
  base % 65536 == 0 && len % 65536 == 0 && len != 0
    && ((isHbm base && isHbm (base + len - 1)) || (isComp base && isComp (base + len - 1)))

/-- MEM_REGISTER (R423, R429). -/
def execMemRegister (q : Nat) (s : State) : Res :=
  .next (s.onHead q 0x27 fun c =>
    let base := bits (cw c 1) 47 0
    if !memRange base (cw c 2) then s.complete q stBadCmd 0
    else match freeId (fun i => (find? s.host.mems i).isSome) 0 65536 with
      | none => s.complete q stNoObject 0
      | some i =>
        ({ s with host := { s.host with
          mems := put s.host.mems i { MemObj.reset with base := base, len := cw c 2, host := 1 } } } : State).complete q 0 i)

/-- Change a memory object that exists, or refuse the command. -/
def State.onMem (s : State) (q opc : Nat) (ok : BitVec 512 → MemObj → Bool) (f : BitVec 512 → MemObj → MemObj) : State :=
  s.onHead q opc fun c =>
    match find? s.host.mems (cMem c) with
    | none => s.complete q stBadCmd 0
    | some m =>
      if ok c m then ({ s with host := { s.host with mems := put s.host.mems (cMem c) (f c m) } } : State).complete q 0 0
      else s.complete q stBadCmd 0

/-- MEM_HOLD (R423). -/
def execMemHold (q : Nat) (s : State) : Res :=
  .next (s.onMem q 0x28 (fun _ _ => true) fun _ m => { m with host := m.host + 1 })
/-- MEM_RELEASE: refused at zero; an object whose counts are both zero is freed (R423, R424). -/
def execMemRelease (q : Nat) (s : State) : Res :=
  .next (s.onMem q 0x29 (fun _ m => m.host != 0) fun _ m => { m with host := m.host - 1 })
/-- MEM_BIND (R423). -/
def execMemBind (q : Nat) (s : State) : Res :=
  .next (s.onMem q 0x2A (fun c _ => s.isCtx (cShareCtx c)) fun c m => { m with binds := addTo m.binds (cShareCtx c) })

/-- Whether an access of a context in a range, sent with a translation, has not yet been performed (R412). -/
def State.xlatBusy (s : State) (ctx base len : Nat) : Bool :=
  s.reqs.any fun r => r.ctx == ctx && r.agent.core?.isSome && (len == 0 || decide (r.va < base + len ∧ base < r.va + r.size))
    && (match r.stage with | .walk _ _ => false | .done => false | _ => true)

/-- MEM_UNBIND: the context's translations go first; the command waits for accesses that used them (R412, R423). -/
def execMemUnbind (q : Nat) (s : State) : Res :=
  .next (s.onHead q 0x2B fun c =>
    let ctx := cShareCtx c
    match find? s.host.mems (cMem c) with
    | none => s.complete q stBadCmd 0
    | some m =>
      if !m.binds.contains ctx then s.complete q stBadCmd 0
      else
        let t := s.dropXlat ctx 0 0
        if t.xlatBusy ctx 0 0 then t
        else ({ t with host := { t.host with
          mems := put t.host.mems (cMem c) { m with binds := m.binds.filter (· != ctx) } } } : State).complete q 0 0)

/-- INVALIDATE: translations of a context in a range go; it completes once every access that used one has been performed
(R412). -/
def execInvalidate (q : Nat) (s : State) : Res :=
  .next (s.onHead q 0x2C fun c =>
    let ctx := cw c 1
    if !s.isCtx ctx then s.complete q stBadCmd 0
    else
      let t := s.dropXlat ctx (cw c 2) (cw c 3)
      if t.xlatBusy ctx (cw c 2) (cw c 3) then t else t.complete q 0 0)

/-! ### Queries (R431, R432) -/

/-- Words of a query's result. -/
def words8 (l : List Nat) : List Byte := l.flatMap fun x => leBytes (x % 2 ^ 64) 8

/-- A QUERY of a kind: its result is written to the destination, which must lie in an object bound to the queue's context
(R429, R432). -/
def State.query (s : State) (q kind : Nat) (f : BitVec 512 → Except Nat (List Byte)) : State :=
  s.onHead q 0x38 fun c =>
    if bits (cw c 1) 3 0 ≠ kind then s
    else match f c with
      | .error e => s.complete q e 0
      | .ok d =>
        let pa := winAddr (cw c 2)
        if cw c 2 % 64 ≠ 0 ∨ !isComp pa ∨ !s.inBound (s.queueCtx q) pa d.length then s.complete q stBadCmd 0
        else (s.compStore (pa - 2 ^ 40) d).complete q 0 0

/-- QUERY_CAPABILITIES: the capability table (R431). -/
def execQueryCapabilities (q : Nat) (s : State) : Res :=
  .next (s.query q 0 fun _ => .ok (words8 ((List.range 16).map fun i => capWord (8 * i))))

/-- The utilisation record of a context (R432). -/
def State.utilisation (s : State) (i : Nat) : List Byte :=
  let mine := fun (x : Nat × Entry) => x.2.st != .free && x.2.ctx.toNat == i
  let held := (s.seq.frames.filter fun x => (s.entry x.2.1).ctx.toNat == i && (s.entry x.2.1).st != .free).length
  let flight := (s.host.queues.filter fun x => qCtx x.2.desc == i && x.2.cmd.isSome).length
    + (s.seq.cmdWait.filter fun x => s.queueCtx x.2.2.2 == i).length
  words8 [(s.seq.table.filter mine).length, held, if i = 0 then s.host.toks0 else (s.ctx i).toks,
    if i = 0 then s.host.steps0 else (s.ctx i).steps, flight,
    (s.host.queues.filter fun x => qCtx x.2.desc == i).length,
    (s.host.fences.filter fun x => x.2.holders.contains i).length,
    (s.host.mems.filter fun x => x.2.binds.contains i).length]

/-- QUERY_UTILISATION: a tenant queries only its own context (R432). -/
def execQueryUtilisation (q : Nat) (s : State) : Res :=
  .next (s.query q 1 fun c =>
    let i := cw c 3
    if !s.isCtx i ∨ (s.queueCtx q ≠ 0 ∧ s.queueCtx q ≠ i) then .error stBadCmd else .ok (s.utilisation i))

/-- QUERY_HANDLE: the entry of a handle; a tenant queries only its own (R305, R306, R432). -/
def execQueryHandle (q : Nat) (s : State) : Res :=
  .next (s.query q 2 fun c =>
    let slot := bits (cw c 3) 11 0
    let e := s.entry slot
    if e.gen.toNat ≠ bits (cw c 3) 27 12 then .error stStale
    else if s.queueCtx q ≠ 0 ∧ (e.st = .free ∨ e.ctx.toNat ≠ s.queueCtx q) then .error stBadCmd
    else .ok (e.bytes slot))

/-- The driver's module figures (R432). -/
def State.figures (s : State) : List Byte :=
  words8 [(s.seq.table.filter fun x => x.2.st != .free).length, s.freeFrames, s.inFlight, s.seq.step, s.od 0x7200 0x32,
    s.power.agreed, s.host.ctxs.length + 1, s.host.queues.length]

/-- QUERY_MODULE: for the driver only (R432). -/
def execQueryModule (q : Nat) (s : State) : Res :=
  .next (s.query q 3 fun _ => if q ≠ 0 then .error stPriv else .ok s.figures)

end Sys2Proof.Machine
end

