-- ==== Sys2Proof/Machine/PartOps.lean ====
section
/-!
DEFINITION. Machine/PartOps.lean: partitions: their creation, change, destruction and reset (R437 to R440, R444, R445).
-/

namespace Sys2Proof.Machine

/-! ### Creation and change (R438, R439) -/

/-- The partition that PART_SELECT names, staged or committed. -/
def State.partSelect (s : State) : Nat := s.groupVal 0x700008

/-- A carve-out entry: base and length in GiB. -/
def carveOf (v : Nat) : Nat × Nat := (bits v 25 16, bits v 9 0)

/-- The attributes that the group's members give. -/
def State.partWanted (s : State) : Part :=
  { get s.parts.parts s.partSelect Part.reset with
    seqMin := s.groupVal 0x700009, seqMax := s.groupVal 0x70000A, barrelMin := s.groupVal 0x70000B
    carves := [0x70000C, 0x70000D, 0x70000E, 0x70000F].map fun k => carveOf (s.groupVal k) }

/-- Frames that the allocator may use under the committed areas (R277, R439). -/
def State.committedFrames (s : State) : Nat :=
  let t := { s with hbm := { s.hbm with bbase := s.od 0x5000 5, blen := s.od 0x5000 6, parity := s.od 0x5000 7 != 0 } }
  let n := t.frameCount
  if t.hbm.spares.isEmpty then (if t.hbm.parity then n / 16 * 14 + min (n % 16) 14 else n)
  else ((List.range n).filter t.usable).length

/-- The ranges that no carve-out may meet: barrel area, weight area, spare pool, directory and step areas, Span window, rack
area, and other partitions' carve-outs. -/
def State.notGeneral (s : State) (part : Nat) : List (Nat × Nat) :=
  let plan := match s.host.plan with
    | some p => [(p.dirBase, p.dirLen), (p.area, 2 ^ 25)]
    | none => []
  [(s.hbm.bbase, s.hbm.blen), (s.cellar.wbase, warea s.cellar.wlen), (s.hbm.spool, 2 ^ 40 - s.hbm.spool),
    (s.span.wbase, s.span.wlen), (s.span.rbase, s.span.rlen)] ++ plan
    ++ (s.parts.parts.filter fun x => x.1 != part).flatMap fun x => x.2.carves.map fun c => (c.1 * 2 ^ 30, c.2 * 2 ^ 30)

/-- Whether carve-outs lie in HBM, apart from each other and from a list of ranges. -/
def carvesClear (blocks : List (Nat × Nat)) : List (Nat × Nat) → Bool
  | [] => true
  | c :: r =>
    decide (c.1 + c.2 ≤ 1024) && (blocks.all fun x => !meets (c.1 * 2 ^ 30) (c.2 * 2 ^ 30) x.1 x.2)
      && (r.all fun d => !meets c.1 c.2 d.1 d.2) && carvesClear blocks r

/-- The condition of the partition group (R439). -/
def State.partAgrees (s : State) : Bool :=
  let n := s.partSelect
  let x := s.partWanted
  let others := s.parts.parts.filter fun y => y.1 != n
  let old := (get s.parts.parts n Part.reset).carves.flatMap fun c => (List.range c.2).map (c.1 + ·)
  decide (x.seqMin ≤ x.seqMax ∧ x.seqMax ≤ 4096)
    && decide (x.seqMin + sumN (others.map fun y => y.2.seqMin) ≤ 4096)
    && decide (x.barrelMin + sumN (others.map fun y => y.2.barrelMin) ≤ s.committedFrames)
    && carvesClear (s.notGeneral n) x.carves
    && old.all fun g => x.carves.any fun c => decide (c.1 ≤ g ∧ g < c.1 + c.2)

/-- A commit of the partition group. -/
def State.partCommit (s : State) (path : Path) : Act :=
  guardAct (!s.foreign path 0x70001F) abClaimed (guardAct (decide (1 ≤ s.partSelect ∧ s.partSelect ≤ 63)) abRange
    (guardAct s.partAgrees abDisagree
      (.ok { s.commitVals 0x70001F with
        parts := { s.parts with parts := put s.parts.parts s.partSelect s.partWanted } })))

/-- PART_CREATE: writing 1 to PART_COMMIT (R439). -/
def execPartCreate (path : Path) (tid : Nat) (s : State) : Res :=
  .next (s.request path tid 0x7000 0x1F 1 fun s => s.partCommit path)

/-- PART_DESTROY: writing 2 to PART_COMMIT; refused while the partition holds a context (R439). -/
def State.partGone (s : State) (path : Path) : Act :=
  let n := s.partSelect
  guardAct (!s.foreign path 0x70001F) abClaimed (guardAct (decide (1 ≤ n ∧ n ≤ 63)) abRange
    (guardAct (find? s.parts.parts n).isSome abState
      (guardAct (!s.host.ctxs.any fun x => x.2.part == n) abInUse
        (.ok { s with parts := { s.parts with parts := drop s.parts.parts n } }))))

/-- PART_DESTROY (R439). -/
def execPartDestroy (path : Path) (tid : Nat) (s : State) : Res :=
  .next (s.request path tid 0x7000 0x1F 1 fun s => s.partGone path)

/-! ### Reset (R444, R445, R453) -/

/-- A migration ends abnormally (R453 to R455). -/
def State.migAborted (s : State) : State :=
  let ctxs := s.host.ctxs.map fun (x : Nat × Ctx) => (x.1, { x.2 with frozen := false })
  ((({ s with
    parts := { s.parts with mig := { Mig.reset with pass := 0 } }
    host := { s.host with ctxs := ctxs } }.setOd 0x7100 0x12 5).sticky 0x7100 1 0).report 0x1741 0 0)

/-- A partition is emptied: its contexts are torn down as under PROCESS_GONE, and the reset of its carve-outs begins. A migration
of it ends. -/
def State.startReset (s : State) (n : Nat) : State :=
  match find? s.parts.parts n with
  | none => s
  | some p =>
    if p.resetting then s
    else
      let t := { s with parts := { s.parts with
        parts := put s.parts.parts n { p with resetting := true, freed := false, zeroed := 0 } } }
      let t := if s.parts.mig.state ≠ 0 ∧ s.od 0x7100 3 = n then t.migAborted else t
      ((t.host.ctxs.filter fun x => x.2.part == n && !x.2.dying).map (·.1)).foldl (fun (t : State) c => t.beginGone c none) t

/-- PART_RESET: a write of a partition ID; a second during the reset has no effect (R444, R445). -/
def execPartReset (path : Path) (tid part : Nat) (s : State) : Res :=
  .next (s.request path tid 0x7000 0x1E 1 fun s =>
    guardAct (decide (1 ≤ part ∧ part ≤ 63)) abRange (guardAct (find? s.parts.parts part).isSome abState (.ok (s.startReset part))))

/-- The physical address of byte `o` of a partition's carve-outs, taken in CARVE order, and the bytes that follow it in the same
one. -/
def carveAt : List (Nat × Nat) → Nat → Option (Nat × Nat)
  | [], _ => none
  | c :: r, o => if o < c.2 * 2 ^ 30 then some (c.1 * 2 ^ 30 + o, c.2 * 2 ^ 30 - o) else carveAt r (o - c.2 * 2 ^ 30)

/-- Bytes of a partition's carve-outs. -/
def Part.carveLen (p : Part) : Nat := sumN (p.carves.map fun c => c.2 * 2 ^ 30)

/-- A piece of the zeroing of a partition under reset; with the last the partition accepts contexts again (R444, R454, R455). -/
def State.carveZero (s : State) (n bytes : Nat) : State :=
  match find? s.parts.parts n with
  | none => s
  | some p =>
    if !p.resetting ∨ !p.freed then s
    else
      let put' := fun (t : State) (x : Part) => { t with parts := { t.parts with parts := put t.parts.parts n x } }
      let finish := fun (t : State) =>
        ((put' t { p with resetting := false, freed := false, zeroed := 0 }).sticky 0x7000 1 1).report 0x0742 0 0 n
      match carveAt p.carves p.zeroed with
      | none => finish s
      | some (pa, room) =>
        let k := min bytes room
        let t := s.zeroRange pa k
        if p.zeroed + k = p.carveLen then finish t else put' t { p with zeroed := p.zeroed + k }

end Sys2Proof.Machine
end

