-- ==== Sys2Proof/Machine/Power.lean ====
section
/-!
DEFINITION. Machine/Power.lean: the commands of power, clocks, droop, ageing and background work (chapter 18), with the
telemetry samples of R591 and the stand-alone background pieces of R518.
-/

namespace Sys2Proof.Machine

/-! ### Power off and on (R494, R495, R526) -/

/-- Dictionary values kept in flash: the entries whose Reset column says so, and the ageing hours (R516, R570). -/
def flashKept (k : Nat) : Bool :=
  k == 0x500003 || decide (0x600010 ≤ k ∧ k ≤ 0x60001D) || decide (0xA00008 ≤ k ∧ k ≤ 0xA0000C) || k == 0x800020
    || k == 0x110025 || k == 0x110026 || k == 0x230001

/-- Powered hours, saturating (R516, R521). -/
def State.ageHours (s : State) : Nat := min (2 ^ 32 - 1) (s.od 0x2300 1 + s.now / 3600000000000)

/-- The module without power keeps only what is in its flash devices, and the condition of its feeds and phases; its memory
holds open values at the next power-up (R463, R470, R471, R481, R497, R516, R531, R546, R551, R558, R570). -/
def State.powerOff (s : State) : State :=
  let retired := s.cellar.retired ++ s.cellar.dead.filter fun p => !s.faults.diesOut.contains (p % 8)
  let spares := s.hbm.spares.map fun (x : Spare) => { x with copied := 2 ^ 23 }
  let wipes := (List.range 16).map fun n => Wipe.march n s.freeCtr
  { State.reset with
    pending := s.pending
    freeCtr := s.freeCtr + 1
    power := { Power.reset with
      feedA := s.power.feedA, feedB := s.power.feedB, phases := s.power.phases, tileLost := s.power.tileLost
      vcore := s.power.vcore, stayOff := s.power.stayOff }
    faults := { Faults.reset with flash := s.faults.flash, replace := s.faults.replace, recovery := s.faults.recovery }
    bring := { Bring.reset with
      pwrEn := s.bring.pwrEn, straps := s.bring.straps, maps := s.bring.maps
      recFactory := s.bring.recFactory, recService := s.bring.recService
      recCasks := sortUp (s.bring.recCasks ++ retired)
      recRouters := s.bring.recRouters ++ s.trellis.deadR.filter fun g => !s.bring.recRouters.contains g }
    hbm := { Hbm.reset with spares := spares, wipes := wipes, repaired := s.hbm.repaired }
    sec := { Sec.reset with
      epoch := s.sec.epoch, minSvn := s.sec.minSvn, inactive := s.sec.inactive, chain := s.sec.chain
      saturated := s.sec.saturated, zeroing := s.sec.zeroing }
    dict := { Dict.reset with vals := put (s.dict.vals.filter fun x => flashKept x.1) 0x230001 s.ageHours } }

/-- A feed lies in its range and is connected. -/
def Feed.good (f : Feed) : Bool := f.on && !f.reversed && !f.low && !f.overvolt && !f.fuse

/-- Bring-up starts at its first row, with the regulators on (R526, R527). -/
def State.startUp (s : State) : State :=
  { s with
    power := { s.power with regsOn := true, stayOff := false }
    bring := { s.bring with row := 0, state := 0, times := [] } }

/-- Bring-up starts where `PWR_EN` is asserted, a feed is in range and the regulators are off (R495, R526). -/
def State.mayStart (s : State) : State :=
  whenever (s.bring.pwrEn && !s.power.regsOn && !s.power.stayOff && (s.power.feedA.good || s.power.feedB.good)) s s.startUp

/-- Compute-die arithmetic clocks stop, and the regulators will follow (R495, R526). -/
def State.stopClocks (s : State) : State :=
  let t := s.stopKernels
  { t with power := { t.power with arith := false, lossSeq := true } }

/-- The power-loss sequence begins, and the loss is written to the flash fault log (R495). -/
def State.powerLoss (s : State) : State :=
  whenever (s.power.regsOn && !s.power.lossSeq) s (s.stopClocks.flashOnly 0x4089)

/-! ### Feeds (R494) -/

/-- The feed with a number, 0 for A and 1 for B. -/
def State.feed (s : State) (n : Nat) : Feed := if n = 0 then s.power.feedA else s.power.feedB
/-- Change a feed. -/
def State.onFeed (s : State) (n : Nat) (f : Feed → Feed) : State :=
  { s with power := if n = 0 then { s.power with feedA := f s.power.feedA } else { s.power with feedB := f s.power.feedB } }

/-- A powered module reports a feed event under a sticky bit; without any feed it loses power (R494, R495, R523). -/
def State.feedEvent (s : State) (code b : Nat) : State :=
  whenever s.power.regsOn s
    (let t := (s.sticky 0x2000 1 b).report code 0 0
     if s.power.feedA.on || s.power.feedB.on then t else t.powerLoss)

/-- FEED_REVERSED: the ideal diode of a reversed feed stays off (R494). -/
def execFeedReversed (feed : Nat) (s : State) : Res :=
  onPart "feed" 2 feed ((s.onFeed feed fun f => { f with on := false, reversed := true }).feedEvent 0x1083 3)

/-- FEED_LOST: an open, low or shorted feed is disconnected; a fuse that has tripped is closed again once power is removed
(R494). -/
def execFeedLost (feed : Nat) (s : State) : Res :=
  onPart "feed" 2 feed ((s.onFeed feed fun f =>
    { f with on := false, low := false, overvolt := false, fuse := false, trips := 0 }).feedEvent 0x1082 (1 + feed))

/-- FEED_LOW: a feed between 36 and 38 V serves on and is counted (R494). -/
def execFeedLow (feed : Nat) (s : State) : Res :=
  onPart "feed" 2 feed (whenever (s.feed feed).on s ((s.onFeed feed fun f => { f with low := true }).feedEvent 0x0081 0))

/-- FEED_OVERVOLT: the input switch opens (R494). -/
def execFeedOvervolt (feed : Nat) (s : State) : Res :=
  onPart "feed" 2 feed ((s.onFeed feed fun f => { f with on := false, low := false, overvolt := true }).feedEvent 0x1084 4)

/-- FEED_RETURN: a feed that has been in range for 100 ms is connected again unless its fuse is open (R494, R495). -/
def execFeedReturn (feed : Nat) (s : State) : Res :=
  onPart "feed" 2 feed ((s.onFeed feed fun f =>
    { f with on := !f.fuse, low := false, overvolt := false, reversed := false }).mayStart)

/-- FEED_TRIPPED: the fuse of a connected feed trips (R494). -/
def execFeedTripped (feed : Nat) (s : State) : Res :=
  onPart "feed" 2 feed (whenever (s.feed feed).on s
    ((s.onFeed feed fun f => { f with on := false, fuse := true, trips := f.trips + 1 }).feedEvent 0x1085 5))

/-- FUSE_RECLOSE: a fuse that has tripped once recloses after 100 ms (R494). -/
def execFuseReclose (feed : Nat) (s : State) : Res :=
  onPart "feed" 2 feed (whenever ((s.feed feed).fuse && decide ((s.feed feed).trips < 2)) s
    ((s.onFeed feed fun f => { f with fuse := false, on := !f.reversed && !f.overvolt }).mayStart))

/-- REGULATORS_OFF: 3 ms after a power loss or the deassertion of `PWR_EN` the module is off; it starts again where it may
(R495, R526). -/
def execRegulatorsOff (s : State) : Res := .next (whenever s.power.lossSeq s s.powerOff.mayStart)

/-! ### Regulation (R496, R497) -/

/-- Intermediate-bus phases in service. -/
def State.phasesLeft (s : State) : Nat := 28 - s.power.phases.length

/-- REG_PHASE_LOST: a phase is disconnected; the limits follow from the phases left (R497). -/
def execRegPhaseLost (bank phase : Nat) (s : State) : Res :=
  onPart "regulator bank" 2 bank (whenever (decide (phase < 14) && s.power.regsOn && !s.power.phases.contains (bank, phase)) s
    (let t := ({ s with power := { s.power with phases := s.power.phases ++ [(bank, phase)] } } : State).recorded
     let p := t.phasesLeft
     let loc := 16 * bank + phase
     if p < 2 then ({ t with power := { t.power with stayOff := true } } : State).powerOff
     else if p < 20 then
       let t := (t.sticky 0x2000 1 6).report 0x4088 10 loc
       if p < 6 then ({ t with power := { t.power with stayOff := true } } : State).powerLoss else t
     else
       let t := (t.sticky 0x2000 1 6).report 0x1086 10 loc
       if p < 24 then t.sticky 0x2000 1 8 else t))

/-- TILE_PHASE_LOST: a phase of a die's rails fails; a rail short of its rated load throttles a compute die at level 2 (R497,
R503). -/
def execTilePhaseLost (die : Nat) (short : Bool) (s : State) : Res :=
  onPart "die" 10 die (whenever s.power.regsOn s
    (let t := ({ s with power := { s.power with tileLost := s.power.tileLost + 1 } } : State).recorded
     let t := (t.sticky 0x2000 1 7).report 0x1087 6 die
     if short && decide (die < 8) then t.setThrot die fun x => { x with tile := 2 } else t))

/-! ### Clocks (R500) -/

/-- REFCLK_HOLDOVER: the PLLs hold their frequency without their reference (R500). -/
def execRefclkHoldover (s : State) : Res :=
  .next (whenever (!s.power.holdover) s
    (({ s.sticky 0x2100 8 5 with
      power := { (s.sticky 0x2100 8 5).power with holdover := true }
      bring := { s.bring with refclk := false } } : State).report 0x10CA 0 0))

/-- REFCLK_LOST: the reference has been absent for 10 ms (R500). -/
def execRefclkLost (s : State) : Res := .next (whenever s.power.holdover s (s.report 0x40CB 0 0))

/-- REFCLK_RETURN: the reference is back and the PLLs are locked, which clears the cause of the safe state (R500). -/
def execRefclkReturn (s : State) : Res :=
  .next ({ s with power := { s.power with holdover := false }, bring := { s.bring with refclk := true } } : State).dropCauses

/-! ### Droop and throttles (R501 to R506) -/

/-- The stretch of a trip of a depth, eighths of a period (R501). -/
def stretchOf (depth droop : Nat) : Nat := min 4 (1 + (depth - droop) / 15)

/-- DROOP_STRETCH: a detector trips at a depth in mV; the trip and the stretched cycles, which the model leaves free, are
counted (R501, R524). -/
def execDroopStretch (die depth : Nat) (s : State) : Res :=
  onPart "compute die" 8 die (whenever (decide (s.od 0x2100 0xB ≤ depth)) s
    (let k := stretchOf depth (s.od 0x2100 0xB)
     let n := s.freeVal.toNat
     let t := { s.drew with power := { s.power with
       throt := upd s.power.throt die Throt.reset fun x => { x with stretch := max x.stretch k } } }
     (((t.bumpLane 0x2100 0x10 0 1).bumpLane 0x2100 0x10 1 n)).report 0x00C1 6 die))

/-- STRETCH_THROTTLE: sustained droop throttles a die at level 1 (R503). -/
def execStretchThrottle (die : Nat) (s : State) : Res :=
  onPart "compute die" 8 die
    (((s.setThrot die fun x => { x with sustained := max 1 x.sustained }).sticky 0x2100 8 3).report 0x00C2 6 die)

/-- CURRENT_THROTTLE: peak feed current throttles every compute die at level 2; average power above its limit throttles them
at level 1, raised by one at each further 1 ms (R503). -/
def execCurrentThrottle (peak : Bool) (s : State) : Res :=
  .next (((s.setThrots fun x => { x with current := if peak then max 2 x.current else min 4 (x.current + 1) }).sticky
    0x2100 8 4).report 0x008A 0 0)

/-- The hottest sensor of a die reads a temperature. -/
def State.setTemp (s : State) (die : Nat) (temp : Int) : State := { s with power := { s.power with temps := put s.power.temps die temp } }

/-- TEMP_THROTTLE: a die at DIE_T_THROTTLE is throttled at level 1, raised by one at each further 1 ms (R503). -/
def execTempThrottle (die : Nat) (temp : Int) (s : State) : Res :=
  onPart "die" 10 die (whenever (decide ((s.od 0x2200 1 : Int) ≤ temp)) s
    (let t := s.setTemp die temp
     let t := if die < 8 then t.setThrot die fun x => { x with temp := min 4 (x.temp + 1) } else t
     t.report 0x00C4 6 die))

/-- DIE_OVERTEMP: a die at 110 °C enters the safe state (R503). -/
def execDieOvertemp (die : Nat) (temp : Int) (s : State) : Res :=
  onPart "die" 10 die (whenever (decide (110 ≤ temp)) s ((s.setTemp die temp).report 0x40CC 6 die))

/-- THROTTLE_DECAY: the throttles of a die whose causes have been absent for 1 ms fall by one level; a short rail, a cap that
lags and a temperature still at the limit keep theirs (R502, R511). -/
def execThrottleDecay (die : Nat) (s : State) : Res :=
  onPart "compute die" 8 die
    (let hot := decide ((s.od 0x2200 1 : Int) ≤ get s.power.temps die (-128))
     { s with power := { s.power with
       throt := upd s.power.throt die Throt.reset fun x =>
         { x with sustained := x.sustained - 1, current := x.current - 1, temp := if hot then x.temp else x.temp - 1 } } })

/-- THROTTLE_LONG: a throttle held for 20 ms lowers the member's request to its effective frequency (R506). -/
def execThrottleLong (die : Nat) (s : State) : Res :=
  onPart "compute die" 8 die (whenever (decide (0 < (s.throtOf die).level)) s
    (let f := max 1000 (s.power.agreed * (8 - (s.throtOf die).level) / 8 / 25 * 25)
     let t := ({ s with power := { s.power with longReq := f } } : State).refreshRequest
     (t.sticky 0x2100 8 2).report 0x10C7 6 die))

/-- REQUEST_RETURN: the throttle's cause has been absent for 1 s (R506). -/
def execRequestReturn (s : State) : Res :=
  .next (whenever (s.power.longReq != 0) s ({ s with power := { s.power with longReq := 0 } } : State).refreshRequest)

/-! ### The power cap (R510, R511) -/

/-- POWER_CAP: a new cap waits to be taken (R511, R524). -/
def execPowerCap (path : Path) (tid watts : Nat) (s : State) : Res :=
  .next (s.request path tid 0x2100 3 1 fun s =>
    guardAct (watts == 0 || decide (1500 ≤ watts ∧ watts ≤ 5000)) abRange
      (.ok { s.setOd 0x2100 3 watts with power := { s.power with capPending := some watts } }))

/-- CAP_TAKEN: at the first boundary, or 2 ms after the write, the cap is taken: the request is computed anew and flooded at the
boundary, and until its effective step the member throttles at the lowest level that meets the cap (R510, R511). -/
def execCapTaken (s : State) : Res :=
  .next (match s.power.capPending with
    | none => s
    | some w =>
      let pfix := s.od 0x2100 6
      let pavg := s.inputW
      let r := capRequest pfix pavg s.power.agreed w
      let idle := s.seq.phase == .idle
      let last := match s.seq.cur with | some r => r.num | none => s.seq.step
      let k := if w = 0 then 0 else lagLevel pfix pavg w
      let t := { s.drew with power := { s.power with
        capPending := none, cap := w, capReq := if w = 0 then 0 else r.1
        capStep := if w = 0 ∨ k = 0 ∨ !r.2 then 0 else last + 2
        throt := s.power.throt.map fun (x : Nat × Throt) => (x.1, { x.2 with cap := 0 }) } }
      let t := t.refreshRequest
      let t := if idle then t.boundaryRequest else t
      let t := if k = 0 then t
        else ((t.setThrots fun x => { x with cap := k }).sticky 0x2100 8 0).report 0x00C3 0 0
      if w ≠ 0 ∧ !r.2 then (t.sticky 0x2100 8 1).report 0x00C6 0 0 else t)

/-! ### Quiet slots and background work (R517 to R519) -/

/-- QUIET_SLOT_END: the quiet slot of a boundary ends; the quiet time used, which the model leaves free, is counted (R517,
R524). -/
def execQuietSlotEnd (s : State) : Res :=
  .next (whenever s.seq.quiet s
    ({ s.dropMarked.drew with seq := { s.dropMarked.seq with quiet := false } }.bumpLane 0x2100 0x10 4 s.freeVal.toNat))

/-- The slack of a die has been measured; a die short of margin has its core voltage raised by 2.5 mV, up to 0.850 V, and its
fixed power is measured again (R510, R513, R514). -/
def State.ageing (s : State) (die : Nat) (slack : Int) : State :=
  let v := get s.power.vcore die 6500
  let t := { s with power := { s.power with slack := put s.power.slack die slack } }
  let t := if s.power.mode = 1 then t.refreshRequest else t
  whenever (decide (slack < (s.od 0x2300 2 : Int) ∧ v < 8500)) t
    (let u := { t with power := { t.power with vcore := put t.power.vcore die (v + 25) } }
     let u := ((u.sticky 0x2300 3 0).report 0x00C5 6 die).setOd 0x2100 6 (t.freeVal.toNat % 2 ^ 16)
     (if 8500 ≤ v + 25 then u.sticky 0x2300 3 1 else u).drew.recorded)

/-- A die at 0.850 V with a core short of margin: the core is to be retired to a spare that meets it, or the die has none
(R515). -/
def State.marginLimit (s : State) (die core : Nat) : State :=
  let c := 10000 * die + core
  let loc := s.coreLoc c
  let t := (s.sticky 0x2300 3 1).report 0x10C8 1 loc
  let enough := match s.bestSpare die with
    | some p => decide ((s.od 0x2300 2 : Int) ≤ Config.coreSlack s.freeCtr die p)
    | none => false
  if enough then
    { t.sticky 0x2300 3 2 with faults := { t.faults with retiring := addTo t.faults.retiring c } }
  else t.report 0x3045 1 loc

/-- The armed injection inverts check bits, or strikes a die, if its place is there (R478, R479). -/
def State.applyInjection (s : State) : State :=
  match s.faults.injArmed with
  | some (1, a, m, 0) => whenever (s.cellar.line? (a / 128)).isSome s
      ({ s with cellar := s.cellar.setLine (a / 128) fun x => x.spoil (decide (64 ≤ a % 128)) (ones8 (m % 8)) } : State).injected
  | some (2, a, m, 0) =>
      ({ s with hbm := { s.hbm with ecc := put s.hbm.ecc (s.blockAt (s.store a)) (ones8 (m % 256)) } } : State).injected
  | some (3, a, m, 0) =>
    match s.coreOfLoc (a / 2 ^ 36) with
    | some c =>
      let w := a % 2 ^ 17 / 8 * 8
      let there := decide (w < 0x1C000) || ((s.core c).rcache.any fun x => x.2.any fun l =>
        4 * x.1 + l.way == (w - 0x1C000) / 128)
      whenever there s (s.onCoreState c fun k => { k with ecc := put k.ecc w (ones8 (m % 256)) }).injected
    | none => s
  | some (8, d, _, _) => s.injected.dieEvent (d % 8) 0x3043 true
  | some (9, d, _, _) => s.injected.dieEvent (d % 8) 0x3041 true
  | _ => s

/-- The bytes of a telemetry sample that the model can compute, with readings of sensors left free (R591). -/
def State.sample (s : State) : List Byte :=
  let throt := (List.range 8).foldl (fun a d => a + (s.throtOf d).level * 2 ^ (4 * d)) 0
  let active := (s.seq.table.filter fun x => x.2.st != .free).length
  let trips := s.od 0x2100 0x10 % 2 ^ 64
  leBytes s.now 8 ++ leBytes s.inputW 2 ++ leBytes s.power.agreed 2 ++ leBytes throt 4
    ++ (List.range 10).map (fun d => BitVec.ofInt 8 (get s.power.temps d 0))
    ++ (List.range 16).map (fun n => BitVec.ofInt 8 (s.stack n).temp)
    ++ leBytes active 2 ++ leBytes (s.od 0x7200 0x32) 4 ++ leBytes (s.od 0x7200 0x13 % 2 ^ 64) 8
    ++ leBytes ((trips + 2 ^ 64 - s.power.tripsAt) % 2 ^ 64) 4 ++ leBytes 0 4

/-- The hottest sensors of the dies read what they read. -/
def State.readTemps (s : State) : State :=
  let d := s.freeStr 10
  { s.drew with power := { s.power with
    temps := (List.range 10).map fun (i : Nat) => (i, (d.getD i 0).toInt) } }

/-- TELEMETRY_TICK: each 1 ms of the time base latches a sample (R591); a reading of the temperatures may clear the cause that
`DIE_OVERTEMP` set (R503). -/
def execTelemetryTick (s : State) : Res :=
  .next (whenever (decide (5 ≤ s.bring.row)) s
    (let t := s.tick.readTemps.dropCauses
     let n := t.freeVal.toNat % 1001
     let t := if t.throttle = 0 then t else (t.bumpLane 0x2100 0x10 2 n).drew
     let d := t.sample
     let t := t.drew.setOd 0x9000 2 (leNat d)
     { t with
       dict := { t.dict with samples := if t.od 0x9000 0x10 = 0 then t.dict.samples else t.dict.samples ++ [d] }
       power := { t.power with tripsAt := t.od 0x2100 0x10 % 2 ^ 64 } }))

/-- Latched samples are written to the ring in companion memory; a sample older than 10 ms has missed its deadline (R518,
R591). -/
def State.sendSamples (s : State) : State :=
  let ring := s.od 0x9000 0x10
  let log2 := s.od 0x9000 0x11
  let t := if ring = 0 then s else s.dict.samples.foldl (fun (t : State) d =>
    let k := t.od 0x9000 0x12
    let late := decide (leNat (slice d 0 8) + 10000000 < t.now)
    let t := (t.compStore (winAddr (ring + 64 * (k % 2 ^ log2)) - 2 ^ 40) d).setOd 0x9000 0x12 (k + 1)
    if late then t.sticky 0x9000 1 0 else t) s
  { t with dict := { t.dict with samples := [] } }

/-- A piece of background work (R518). -/
def State.background (s : State) (work : BgWork) : State :=
  match work with
  | .lastPour => s.dropMarked
  | .laneSpare edge group => whenever (decide (edge < 14 ∧ group < 16)) s (s.spareLane edge group)
  | .laneRetrain edge group ok => whenever (decide (edge < 14 ∧ group < 16)) s
      (if ok then s.onLanes edge group fun g => { g with retired := false } else s.retireGroup edge group)
  | .rowRepair spareLeft => s.repairRow spareLeft
  | .spareCopy slots => s.copySpare slots
  | .telemetry => s.sendSamples
  | .scrubCellar pos set => s.scrubSet pos set
  | .scrubHbm addr => s.scrubBlock addr
  | .refresh _ => s
  | .spanRetrain port group clean => whenever (clean && decide (port < 4 ∧ group < 4)) s (s.restoreSpan port group)
  | .sauCheck stack ok => whenever (decide (stack < 16)) s (s.sauCheck stack ok)
  | .ageing die slack => whenever (decide (die < 8)) s (s.ageing die slack)
  | .marginLimit die core => whenever (decide (die < 8 ∧ core < 10000) && get s.power.vcore die 6500 == 8500) s
      (s.marginLimit die core)
  | .collectorRestart => { s with faults := { s.faults with standby := true } }
  | .collectorResync _ => s
  | .carveZero part bytes => s.carveZero part bytes
  | .inject => s.applyInjection

/-- BACKGROUND_PIECE: a piece of background work runs in quiet time (R517, R518). -/
def execBackgroundPiece (work : BgWork) (s : State) : Res :=
  .next (whenever (s.seq.phase == .idle && s.power.regsOn && !s.faults.hwLatch) s (s.background work))

/-- BG_BEHIND: the quiet time of an hour falls short of BG_NEED (R519). -/
def execBgBehind (s : State) : Res := .next ((s.sticky 0x2100 8 6).report 0x10C9 0 0)

end Sys2Proof.Machine
end

