-- ==== Sys2Proof/Machine/Bring.lean ====
section
/-!
DEFINITION. Machine/Bring.lean: the commands of bring-up (chapter 19), with the boot chain and the identity as bring-up runs
them (R546, R547, R550).
-/

namespace Sys2Proof.Machine

/-! ### PWR_EN (R526) -/

/-- PWR_EN_ASSERT: the straps are latched, and bring-up starts from t = 0 where a feed is in range (R526). -/
def execPwrEnAssert (straps : Nat) (s : State) : Res :=
  .next (whenever (!s.bring.pwrEn) s
    (let t := if s.power.regsOn then s.powerOff else s
     ({ t with
       power := { t.power with stayOff := false }
       bring := { t.bring with pwrEn := true, straps := straps % 64 } } : State).mayStart))

/-- PWR_EN_DEASSERT: the arithmetic clocks stop, and the regulators switch off 3 ms later, without a flash record (R526). -/
def execPwrEnDeassert (s : State) : Res :=
  .next (let t := { s with bring := { s.bring with pwrEn := false } }
    whenever s.power.regsOn t t.stopClocks)

/-! ### The rows of R527 -/

/-- BRING_STATE while the row that follows `row` completed ones runs (R527). -/
def rowState (row : Nat) : Nat := [0, 0, 0, 1, 2, 2, 3, 3, 4, 5, 6, 6, 6, 7, 7].getD row 7

/-- Boot: the image chosen runs and is measured, bad copies are reported, and without any image the module answers only as
R476 permits (R546, R549). -/
def State.boot (s : State) (o : BringObs) : State :=
  let t := (List.range o.badImages).foldl (fun (t : State) _ => (t.sticky 0x8000 1 4).report 0x1802 0 0) s
  match o.image with
  | some (svn, version) =>
    let u := { t with sec := { t.sec with runSvn := svn % 2 ^ 16, runVersion := version % 2 ^ 32 } }
    let u := (u.extendFree 1).extendFree 2
    (if u.faults.replace then u.sticky 0x3100 1 1 else u).refreshN
  | none => (t.report 0x4801 0 0).safeCause 0 0x4801 0

/-- The identity is reconstructed, and a new nonce drawn (R550, R561). -/
def State.identity (s : State) (o : BringObs) : State :=
  let t := { s.drew with sec := { s.sec with nonce := s.freeStr 32, denied := 0 } }
  let t := if o.pufOk then t else t.report 0x4803 0 0
  if t.sec.saturated then t.report 0x4806 0 0 else t

/-- The vintage record is read and verified; the running image's SVN is held against MIN_SVN, and the configuration is measured
(R530, R547, R549). -/
def State.vintage (s : State) (o : BringObs) : State :=
  let t := { s with
    bring := { s.bring with flashOk := o.flash }
    sec := { s.sec with serial := slice Config.serial 0 16 } }
  let t := ([0, 1].filter fun d => !o.flash.contains d).foldl
    (fun (t : State) d => (t.sticky 0xA000 3 1).report 0x1842 11 d) t
  let t := if o.rewritten then (t.sticky 0xA000 3 0).report 0x0841 0 0 else t
  match o.record with
  | none => t.report 0x4844 0 0
  | some (f, n) =>
    let t := { t with bring := { t.bring with recFactory := f, recService := n } }
    let t := ((t.extendFree 4).extendFree 4).extendConfig
    if t.sec.runSvn < t.sec.minSvn then (t.report 0x4808 0 0).alarm 5 else t

/-- An unusable compute die is left out of service, lost, with its casks and stacks (R532). -/
def State.unusable (s : State) (die : Nat) : State :=
  whenever (decide (die < 8) && !s.faults.diesLost.contains die) s
    (let second := s.faults.diesOut.any fun d => decide (d < 8)
     let t := { s with
       trellis := { s.trellis with lost := addTo s.trellis.lost die }
       faults := { s.faults with diesOut := insertUp die s.faults.diesOut, diesLost := insertUp die s.faults.diesLost }
       bring := { s.bring with unusable := insertUp die s.bring.unusable }
       seq := { s.seq with fallback := some (s.seq.fallback.getD die) } }
     let t := (t.onStack (2 * die) fun k => { k with lost := true }).onStack (2 * die + 1) fun k => { k with lost := true }
     let t := (((t.sticky 0xA000 3 3).sticky 0x3100 1 2).sticky 0x3100 1 3).report 0x3044 6 die
     (if second then t.report 0x4047 6 die else t).refreshN)

/-- Dead positions and the home table follow the defect map (R177, R179, R533). -/
def State.laidCasks (s : State) (bad : List Nat) : State :=
  let dead := sortUp (bad ++ s.bring.unusable.flatMap casksOf)
  { s with cellar := { s.cellar with dead := dead, bringDead := dead, ht := homeTable dead } }

/-- The physical cores that a set of dead routers serves on a die (R529). -/
def coresBehind (dead : List (Nat × Nat)) (die : Nat) : List Nat :=
  ((List.range 640).filter fun i => dead.contains (plotRouter die i)).flatMap fun i => (List.range 16).map (16 * i + ·)

/-- The map of a die with defects added, built afresh (R531, R534). -/
def State.mapDie (s : State) (dead : List (Nat × Nat)) (o : BringObs) (die : Nat) : State :=
  let found := (o.badCores.filter fun x => x.1 == die && decide (x.2 < 10240)).map (·.2)
  let bad := sortUp ((s.dieMap die).bad ++ found ++ coresBehind dead die)
  let new := (o.newCores.filter (·.1 == die)).length
  let t := { s with bring := { s.bring with
    maps := put s.bring.maps die { bad := bad, moved := [] }, newDef := put s.bring.newDef die new } }
  let t := if new = 0 then t
    else (t.sticky 0xA000 3 2).recorded.report 0x1843 6 die new
  if 10240 < bad.length + 10000 then t.unusable die else t

/-- The defect map, the logical-to-physical maps, the home table and the routes are built (R531 to R534). -/
def State.buildMaps (s : State) (o : BringObs) : State :=
  let dead := s.bring.recRouters ++ (o.badRouters.filter fun g => !s.bring.recRouters.contains g)
  let t := (List.range 8).foldl (fun (t : State) d => t.mapDie dead o d) s
  let t := o.badDies.foldl State.unusable t
  let t := if o.badIo then (t.report 0x4048 6 (8 + t.freeVal.toNat % 2)).drew else t
  let bad := s.bring.recCasks ++ o.badCasks.filter (· < 512) ++ (List.range 512).filter fun p => dead.contains (caskRouter p)
  let t := { t with
    trellis := { t.trellis with deadR := dead, routed := dead, routedD := t.trellis.lost }
    bring := { t.bring with recCasks := sortUp bad, recRouters := dead } }
  t.laidCasks bad

/-- Dies found unusable after the maps were built leave the home table as well (R532). -/
def State.lateDies (s : State) (o : BringObs) : State :=
  (o.badDies.foldl State.unusable s).laidCasks s.bring.recCasks

/-- Firmware reaches the dies and the standby (R535, R536). -/
def State.firmware (s : State) (o : BringObs) : State :=
  let t := (s.extendFree 3).lateDies o
  let t := if o.firmwareOk then t else t.report 0x4846 0 0
  if o.standbyOk then t
  else ({ t.sticky 0x3100 1 4 with faults := { t.faults with standby := false } } : State).report 0x1006 12 4

/-- Edges are trained and their groups take their roles; defective lanes are replaced by spares, and a group that needs a fifth
is retired; the routes leave out the edges that carry nothing (R237, R240 to R242, R533, R537). -/
def State.edges (s : State) (o : BringObs) : State :=
  let t := s.lateDies o
  let t := { t with trellis := { t.trellis with roles := (List.range 14).map fun e => t.od 0x6000 (0x10 + e) } }
  let t := o.badLanes.foldl (fun (t : State) x =>
    whenever (decide (x.1 < 14 ∧ x.2.1 < 16)) t
      (t.onLanes x.1 x.2.1 fun g => { g with spares := min 4 x.2.2, retired := decide (4 < x.2.2) })) t
  ((List.range 14).foldl (fun (t : State) e => t.checkEdge e) t).installRoutes

/-- Stacks are trained and their repairs applied; what a response of the alarm had not finished zeroing is zeroed (R269, R270,
R274, R275, R277, R300, R538, R558). -/
def State.stacks (s : State) (o : BringObs) : State :=
  let t := { s with hbm := { s.hbm with spareGib := s.od 0x5000 3 } }
  let t := (o.badStacks.filter (· < 16)).foldl (fun (t : State) n =>
    (t.onStack n fun k => { k with lost := true }).report 0x150B 3 (32 * n)) t
  let t := (o.badChannels.filter (· < 512)).foldl (fun (t : State) c => t.spareChannel c) t
  let t := (o.badSaus.filter (· < 16)).foldl (fun (t : State) n => t.sauCheck n false) t
  if s.sec.zeroing then
    ({ t with sec := { t.sec with zeroing := false } } : State).zeroMem 0 (2 ^ 40) |>.flashOnly 0x4805
  else t

/-- The margin plan, P_FIX, the need of background time and the readings of sensors; the arithmetic clocks run (R510, R513,
R516, R519). -/
def State.margins (s : State) (o : BringObs) : State :=
  let d := s.freeStr 16
  let t := ((s.drew.setOd 0x2100 6 o.pfix).setOd 0x2100 0xA (s.freeVal.toNat % 2 ^ 32)).readTemps
  { t with power := { t.power with
    slack := (List.range 8).map fun (i : Nat) => (i, (BitVec.ofNat 16 (leNat (slice d (2 * i) 2))).toInt)
    arith := !t.faults.safe && !t.power.lossSeq } }

/-- Span ports are enabled and the Abius link is trained (R345, R397). -/
def State.links (s : State) (o : BringObs) : State :=
  let t := [0, 1, 2, 3].foldl (fun (t : State) p => t.enablePort p (o.ports.contains p)) s
  t.linkUp o.lanes o.modules

/-- What a row does when it completes. -/
def State.rowEffect (s : State) (o : BringObs) : State :=
  match s.bring.row with
  | 3 => { s with power := { s.power with holdover := false } }
  | 4 => s.boot o
  | 5 => s.identity o
  | 6 => s.vintage o
  | 8 => s.buildMaps o
  | 9 => s.firmware o
  | 10 => s.edges o
  | 11 => s.stacks o
  | 12 => s.margins o
  | 13 => s.links o
  | _ => s

/-- Whether bring-up runs. -/
def State.bringing (s : State) : Bool := s.bring.pwrEn && s.power.regsOn && !s.power.lossSeq && s.bring.state != 9

/-- The row completes at its time, and the next begins (R527, R544). -/
def State.nextRow (s : State) (ms : Nat) : State :=
  let row := s.bring.row + 1
  { s with bring := { s.bring with
    row := row, times := s.bring.times ++ [min ms 65535], state := if s.bring.state = 9 then 9 else rowState row } }

/-- BRING_UP_ROW: a row of R527 completes with what it observed. The PLL row holds until the reference arrives; the topology row
completes with its check, and the last row makes the module ready (R527, R539, R541). -/
def execBringUpRow (obs : BringObs) (s : State) : Res :=
  .next (whenever s.bringing s
    (if s.bring.row = 3 ∧ !obs.refclk then { s with bring := { s.bring with refclk := false } }
     else if s.bring.row = 14 then s.topoCheck
     else if s.bring.row = 15 then s.becomeReady
     else if 15 < s.bring.row then s
     else
       let t := (s.rowEffect obs).nextRow obs.ms
       let t := if s.bring.row = 3 then { t with bring := { t.bring with refclk := true } } else t
       if s.bring.row = 13 then t.topoCheck else t))

/-- BRING_TIMEOUT: a row other than the PLL row and the topology row exceeds its maximum (R527). -/
def execBringTimeout (s : State) : Res :=
  .next (whenever (s.bringing && decide (s.bring.row < 16) && s.bring.row != 3 && s.bring.row != 14) s (s.report 0x4845 0 0))

/-- DIE_TEST: a compute die is taken out of service for the stand-alone test, as by an injected `DIE_HUNG` (R538). -/
def execDieTest (path : Path) (tid die : Nat) (s : State) : Res :=
  .next (s.request path tid 0xA000 0x20 2 fun s =>
    guardAct (decide (die < 8)) abRange
      (guardAct (!s.faults.safe && !s.faults.diesOut.any fun d => decide (d < 8)) abState
        (.ok (({ s with bring := { s.bring with testing := some die } } : State).dieEvent die 0x3043 true))))

end Sys2Proof.Machine
end

