-- ==== Sys2Proof/Machine/Control.lean ====
section
/-!
DEFINITION. Machine/Control.lean: the integer, jump, branch, load and store instructions of the control core (R79 to
R81), one meaning each over the shared operations of Operands, and the steps that bring back what they ask for.
-/

namespace Sys2Proof.Machine

/-- 1 or 0 as a word. -/
def bool64 (b : Bool) : Word := if b then 1 else 0

/-- Unsigned quotient; division by zero gives all ones (R74). -/
def divU (a b : Word) : Word := if b = 0 then BitVec.allOnes 64 else a / b
/-- Unsigned remainder; division by zero gives the dividend (R74). -/
def remU (a b : Word) : Word := if b = 0 then a else a % b
/-- Signed quotient, towards zero; −2^63 / −1 wraps (R79). -/
def divS (a b : Word) : Word := if b = 0 then BitVec.allOnes 64 else a.sdiv b
/-- Signed remainder, with the sign of the dividend (R79). -/
def remS (a b : Word) : Word := if b = 0 then a else a.srem b

/-- `add` (R79). -/
def execAdd (c : Nat) (rd rs1 rs2 : Reg) (s : State) : Res := onCore c (s.alu c rd rs1 rs2 (· + ·))
/-- `sub` (R79). -/
def execSub (c : Nat) (rd rs1 rs2 : Reg) (s : State) : Res := onCore c (s.alu c rd rs1 rs2 (· - ·))
/-- `and` (R79). -/
def execAndr (c : Nat) (rd rs1 rs2 : Reg) (s : State) : Res := onCore c (s.alu c rd rs1 rs2 (· &&& ·))
/-- `or` (R79). -/
def execOrr (c : Nat) (rd rs1 rs2 : Reg) (s : State) : Res := onCore c (s.alu c rd rs1 rs2 (· ||| ·))
/-- `xor` (R79). -/
def execXorr (c : Nat) (rd rs1 rs2 : Reg) (s : State) : Res := onCore c (s.alu c rd rs1 rs2 (· ^^^ ·))
/-- `shl`: the amount is the low 6 bits (R79). -/
def execShl (c : Nat) (rd rs1 rs2 : Reg) (s : State) : Res := onCore c (s.alu c rd rs1 rs2 fun a b => a <<< (b.toNat % 64))
/-- `shr` (R79). -/
def execShr (c : Nat) (rd rs1 rs2 : Reg) (s : State) : Res := onCore c (s.alu c rd rs1 rs2 fun a b => a >>> (b.toNat % 64))
/-- `sar` (R79). -/
def execSar (c : Nat) (rd rs1 rs2 : Reg) (s : State) : Res :=
  onCore c (s.alu c rd rs1 rs2 fun a b => a.sshiftRight (b.toNat % 64))
/-- `slt` (R79). -/
def execSlt (c : Nat) (rd rs1 rs2 : Reg) (s : State) : Res := onCore c (s.alu c rd rs1 rs2 fun a b => bool64 (a.slt b))
/-- `sltu` (R79). -/
def execSltu (c : Nat) (rd rs1 rs2 : Reg) (s : State) : Res := onCore c (s.alu c rd rs1 rs2 fun a b => bool64 (a.ult b))
/-- `seq` (R79). -/
def execSeq (c : Nat) (rd rs1 rs2 : Reg) (s : State) : Res := onCore c (s.alu c rd rs1 rs2 fun a b => bool64 (a == b))
/-- `min` (R79). -/
def execMinS (c : Nat) (rd rs1 rs2 : Reg) (s : State) : Res :=
  onCore c (s.alu c rd rs1 rs2 fun a b => if b.slt a then b else a)
/-- `max` (R79). -/
def execMaxS (c : Nat) (rd rs1 rs2 : Reg) (s : State) : Res :=
  onCore c (s.alu c rd rs1 rs2 fun a b => if a.slt b then b else a)
/-- `minu` (R79). -/
def execMinu (c : Nat) (rd rs1 rs2 : Reg) (s : State) : Res :=
  onCore c (s.alu c rd rs1 rs2 fun a b => if b.ult a then b else a)
/-- `maxu` (R79). -/
def execMaxu (c : Nat) (rd rs1 rs2 : Reg) (s : State) : Res :=
  onCore c (s.alu c rd rs1 rs2 fun a b => if a.ult b then b else a)
/-- `sel`: rd ← rs1 if rd ≠ 0, else rs2 (R79). -/
def execSel (c : Nat) (rd rs1 rs2 : Reg) (s : State) : Res :=
  onCore c (s.ctlCore c 4 [rd, rs1, rs2] fun k => k.setReg rd (if k.reg rd ≠ 0 then k.reg rs1 else k.reg rs2))
/-- `mul`: low 64 bits (R79). -/
def execMul (c : Nat) (rd rs1 rs2 : Reg) (s : State) : Res := onCore c (s.alu c rd rs1 rs2 (· * ·))
/-- `mulh`: high 64 bits, signed (R79). -/
def execMulh (c : Nat) (rd rs1 rs2 : Reg) (s : State) : Res :=
  onCore c (s.alu c rd rs1 rs2 fun a b => BitVec.ofInt 64 (a.toInt * b.toInt / 2 ^ 64))
/-- `mulhu`: high 64 bits, unsigned (R79). -/
def execMulhu (c : Nat) (rd rs1 rs2 : Reg) (s : State) : Res :=
  onCore c (s.alu c rd rs1 rs2 fun a b => BitVec.ofNat 64 (a.toNat * b.toNat / 2 ^ 64))
/-- `div` (R74, R79). -/
def execDiv (c : Nat) (rd rs1 rs2 : Reg) (s : State) : Res := onCore c (s.alu c rd rs1 rs2 divS)
/-- `divu` (R74, R79). -/
def execDivu (c : Nat) (rd rs1 rs2 : Reg) (s : State) : Res := onCore c (s.alu c rd rs1 rs2 divU)
/-- `rem` (R74, R79). -/
def execRem (c : Nat) (rd rs1 rs2 : Reg) (s : State) : Res := onCore c (s.alu c rd rs1 rs2 remS)
/-- `remu` (R74, R79). -/
def execRemu (c : Nat) (rd rs1 rs2 : Reg) (s : State) : Res := onCore c (s.alu c rd rs1 rs2 remU)
/-- `sext8` (R79). -/
def execSext8 (c : Nat) (rd rs1 : Reg) (s : State) : Res :=
  onCore c (s.alu c rd rs1 0 fun a _ => (a.setWidth 8).signExtend 64)
/-- `sext16` (R79). -/
def execSext16 (c : Nat) (rd rs1 : Reg) (s : State) : Res :=
  onCore c (s.alu c rd rs1 0 fun a _ => (a.setWidth 16).signExtend 64)
/-- `sext32` (R79). -/
def execSext32 (c : Nat) (rd rs1 : Reg) (s : State) : Res :=
  onCore c (s.alu c rd rs1 0 fun a _ => (a.setWidth 32).signExtend 64)
/-- `zext32` (R79). -/
def execZext32 (c : Nat) (rd rs1 : Reg) (s : State) : Res :=
  onCore c (s.alu c rd rs1 0 fun a _ => (a.setWidth 32).setWidth 64)
/-- `addi` (R79). -/
def execAddi (c : Nat) (rd rs1 : Reg) (imm : BitVec 13) (s : State) : Res := onCore c (s.aluImm c rd rs1 imm (· + ·))
/-- `andi` (R79). -/
def execAndi (c : Nat) (rd rs1 : Reg) (imm : BitVec 13) (s : State) : Res := onCore c (s.aluImm c rd rs1 imm (· &&& ·))
/-- `ori` (R79). -/
def execOri (c : Nat) (rd rs1 : Reg) (imm : BitVec 13) (s : State) : Res := onCore c (s.aluImm c rd rs1 imm (· ||| ·))
/-- `xori` (R79). -/
def execXori (c : Nat) (rd rs1 : Reg) (imm : BitVec 13) (s : State) : Res := onCore c (s.aluImm c rd rs1 imm (· ^^^ ·))
/-- `shli`: the amount is IMM13[5:0] (R79). -/
def execShli (c : Nat) (rd rs1 : Reg) (imm : BitVec 13) (s : State) : Res :=
  onCore c (s.aluImm c rd rs1 imm fun a b => a <<< (b.toNat % 64))
/-- `shri` (R79). -/
def execShri (c : Nat) (rd rs1 : Reg) (imm : BitVec 13) (s : State) : Res :=
  onCore c (s.aluImm c rd rs1 imm fun a b => a >>> (b.toNat % 64))
/-- `sari` (R79). -/
def execSari (c : Nat) (rd rs1 : Reg) (imm : BitVec 13) (s : State) : Res :=
  onCore c (s.aluImm c rd rs1 imm fun a b => a.sshiftRight (b.toNat % 64))
/-- `slti` (R79). -/
def execSlti (c : Nat) (rd rs1 : Reg) (imm : BitVec 13) (s : State) : Res :=
  onCore c (s.aluImm c rd rs1 imm fun a b => bool64 (a.slt b))
/-- `sltiu`: sign-extended, then unsigned (R79). -/
def execSltiu (c : Nat) (rd rs1 : Reg) (imm : BitVec 13) (s : State) : Res :=
  onCore c (s.aluImm c rd rs1 imm fun a b => bool64 (a.ult b))
/-- `seqi` (R79). -/
def execSeqi (c : Nat) (rd rs1 : Reg) (imm : BitVec 13) (s : State) : Res :=
  onCore c (s.aluImm c rd rs1 imm fun a b => bool64 (a == b))

/-! ### Long immediates, jumps and branches (R80) -/

/-- `li` (R80). -/
def execLi (c : Nat) (rd : Reg) (imm : BitVec 32) (s : State) : Res :=
  onCore c (s.ctlCore c 8 [rd] fun k => k.setReg rd (imm32 imm))
/-- `liu` (R80). -/
def execLiu (c : Nat) (rd : Reg) (imm : BitVec 32) (s : State) : Res :=
  onCore c (s.ctlCore c 8 [rd] fun k => k.setReg rd (imm.setWidth 64))
/-- `lih` (R80). -/
def execLih (c : Nat) (rd : Reg) (imm : BitVec 32) (s : State) : Res :=
  onCore c (s.ctlCore c 8 [rd] fun k => k.setReg rd ((k.reg rd &&& 0xFFFFFFFF) ||| (imm.setWidth 64 <<< 32)))
/-- `addli` (R80). -/
def execAddli (c : Nat) (rd : Reg) (imm : BitVec 32) (s : State) : Res :=
  onCore c (s.ctlCore c 8 [rd] fun k => k.setReg rd (k.reg rd + imm32 imm))
/-- `jal`: rd ← PC + 8; PC ← PC + 4 × IMM32 (R80). -/
def execJal (c : Nat) (rd : Reg) (imm : BitVec 32) (s : State) : Res :=
  onCore c (s.ctl c 8 [rd] fun s => s.onCoreState c fun k => { k.setReg rd (k.pc + 8) with pc := k.pc + 4 * imm32 imm })

/-- A conditional branch by OFF13 instructions (R80). -/
def State.branch (s : State) (c : Nat) (rs1 rs2 : Reg) (off : BitVec 13) (p : Word → Word → Bool) : State :=
  s.ctl c 4 [rs1, rs2] fun s => s.onCoreState c fun k =>
    if p (k.reg rs1) (k.reg rs2) then { k with pc := k.pc + 4 * imm13 off } else k.next 4

/-- `beq` (R80). -/
def execBeq (c : Nat) (rs1 rs2 : Reg) (off : BitVec 13) (s : State) : Res := onCore c (s.branch c rs1 rs2 off (· == ·))
/-- `bne` (R80). -/
def execBne (c : Nat) (rs1 rs2 : Reg) (off : BitVec 13) (s : State) : Res := onCore c (s.branch c rs1 rs2 off (· != ·))
/-- `blt` (R80). -/
def execBlt (c : Nat) (rs1 rs2 : Reg) (off : BitVec 13) (s : State) : Res :=
  onCore c (s.branch c rs1 rs2 off fun a b => a.slt b)
/-- `bge` (R80). -/
def execBge (c : Nat) (rs1 rs2 : Reg) (off : BitVec 13) (s : State) : Res :=
  onCore c (s.branch c rs1 rs2 off fun a b => !a.slt b)
/-- `bltu` (R80). -/
def execBltu (c : Nat) (rs1 rs2 : Reg) (off : BitVec 13) (s : State) : Res :=
  onCore c (s.branch c rs1 rs2 off fun a b => a.ult b)
/-- `bgeu` (R80). -/
def execBgeu (c : Nat) (rs1 rs2 : Reg) (off : BitVec 13) (s : State) : Res :=
  onCore c (s.branch c rs1 rs2 off fun a b => !a.ult b)
/-- `jr`: rd ← PC + 4; PC ← rs1 + 4 × IMM13, with rs1 as it was (R80). -/
def execJr (c : Nat) (rd rs1 : Reg) (imm : BitVec 13) (s : State) : Res :=
  onCore c (s.ctl c 4 [rd, rs1] fun s => s.onCoreState c fun k =>
    { k.setReg rd (k.pc + 4) with pc := k.reg rs1 + 4 * imm13 imm })

/-! ### Loads and stores (R81) -/

/-- `ldl8` (R81). -/
def execLdl8 (c : Nat) (rd rs1 : Reg) (imm : BitVec 13) (s : State) : Res := onCore c (s.ldl c rd rs1 imm 1)
/-- `ldl16` (R81). -/
def execLdl16 (c : Nat) (rd rs1 : Reg) (imm : BitVec 13) (s : State) : Res := onCore c (s.ldl c rd rs1 imm 2)
/-- `ldl32` (R81). -/
def execLdl32 (c : Nat) (rd rs1 : Reg) (imm : BitVec 13) (s : State) : Res := onCore c (s.ldl c rd rs1 imm 4)
/-- `ldl64` (R81, R84). -/
def execLdl64 (c : Nat) (rd rs1 : Reg) (imm : BitVec 13) (s : State) : Res := onCore c (s.ldl c rd rs1 imm 8)
/-- `stl8` (R81). -/
def execStl8 (c : Nat) (rs2 rs1 : Reg) (imm : BitVec 13) (s : State) : Res := onCore c (s.stl c rs2 rs1 imm 1)
/-- `stl16` (R81). -/
def execStl16 (c : Nat) (rs2 rs1 : Reg) (imm : BitVec 13) (s : State) : Res := onCore c (s.stl c rs2 rs1 imm 2)
/-- `stl32` (R81). -/
def execStl32 (c : Nat) (rs2 rs1 : Reg) (imm : BitVec 13) (s : State) : Res := onCore c (s.stl c rs2 rs1 imm 4)
/-- `stl64` (R81, R84). -/
def execStl64 (c : Nat) (rs2 rs1 : Reg) (imm : BitVec 13) (s : State) : Res := onCore c (s.stl c rs2 rs1 imm 8)
/-- `ldg` (R81, R90). -/
def execLdg (c : Nat) (rd rs1 : Reg) (imm : BitVec 13) (s : State) : Res :=
  onCore c (s.ctl c 4 [rd, rs1] fun s => s.ldg c rd ((s.core c).reg rs1 + gOff imm) (gSize imm) true none)
/-- `ldgu` (R81, R90). -/
def execLdgu (c : Nat) (rd rs1 : Reg) (imm : BitVec 13) (s : State) : Res :=
  onCore c (s.ctl c 4 [rd, rs1] fun s => s.ldg c rd ((s.core c).reg rs1 + gOff imm) (gSize imm) false none)
/-- `stg` (R81, R90). -/
def execStg (c : Nat) (rs2 rs1 : Reg) (imm : BitVec 13) (s : State) : Res :=
  onCore c (s.ctl c 4 [rs2, rs1] fun s =>
    s.stg c ((s.core c).reg rs1 + gOff imm) (gSize imm) ((s.core c).reg rs2) none)

/-- The register a control core load or atomic writes with a returned value, if it still awaits this request. -/
def Core.deliver (k : Core) (rd tag : Nat) (v : Word) : Core :=
  if find? k.busy rd = some tag then { k.setReg (BitVec.ofNat 6 rd) v with busy := drop k.busy rd } else k

/-- The value a returned request delivers: the bytes of its address in the line, or the old value of an atomic. -/
def Req.value (r : Req) : Word :=
  match r.kind with
  | .atomic => (r.old.headD (0, 0)).2
  | _ => BitVec.ofNat 64 (num8 r.data (r.va % 128) r.size)

/-- GLOBAL_LOAD_RESULT: the value of a global load or atomic reaches its register; the load fills the read cache where
it may, poisoned data raises `CC_POISON` (R74, R90, R106, R169), and an acquire of plot scope or wider that rests on it
invalidates the read cache (R157). A load that set out behind an acquire delivers nothing before the acquire is
performed. -/
def execGlobalLoadResult (tag : Nat) (s : State) : Res :=
  .next (match s.here? tag with
    | some r =>
      match r.agent, r.stage with
      | .ctlLoad c rd fill, .done =>
        if find? (s.core c).busy rd != some tag && rd != 0 then s.dropReq tag
        else if !(s.pendingAcqs r.early).isEmpty then s
        else if r.poison then (s.dropReq tag).coreFault c 0x2106 r.va
        else
          ((((s.dropReq tag).onCoreState c fun k => (if fill then k.rfill r.va r.data else k)).acquired c r
            (s.core c).acqs).onCoreState c fun k => { k with acqs := k.acqs.filter fun x => x.1 != tag }).onCoreState c
            (·.deliver rd tag r.value)
      | _, _ => s
    | none => s)

/-- A code line arrives and replaces the least recent of a full set (R73). -/
def Core.fillCode (k : Core) (l : Nat) : Core :=
  { k with icache := upd k.icache (l % 16) [] fun ls => l :: (ls.filter (· != l)).take 3 }

/-- ICACHE_FILL: the oldest answered instruction fetch of core `c` fills its line, or, where the line is poisoned, raises
`CC_POISON` or `VE_POISON` (R73, R102, R106, R144). -/
def execIcacheFill (c : Nat) (s : State) : Res :=
  onCore c (match s.reqs.find? fun r => match r.agent with | .fetch k _ _ => k == c && r.stage == .done && !r.lost | _ => false with
    | some r =>
      match r.agent with
      | .fetch _ l vec =>
        let t := (s.dropReq r.tag).onCoreState c fun k => { k with fetching := k.fetching.filter (· != l) }
        if r.poison then t.coreFault c (if vec then 0x21C6 else 0x2106) (128 * l) else t.onCoreState c (·.fillCode l)
      | _ => s
    | none => s)

/-- CC_ILLEGAL: the control core meets an undefined instruction (R76, R106). -/
def execCcIllegal (c : Nat) (s : State) : Res :=
  onCore c (s.ctl c 4 [] fun s => s.coreFault c 0x2101 (s.core c).pc.toNat)

end Sys2Proof.Machine
end

