-- ==== Sys2Proof/Machine/DictTable.lean ====
section
/-!
DEFINITION. Machine/DictTable.lean: the entries of the object dictionary, their types, access, levels and ranges (chapter 21
and the dictionary tables of every other chapter).
-/

namespace Sys2Proof.Machine

/-- A run of entries of one row of a dictionary table: first subindex, number of entries, type code (R569), size in bytes and
access code (R572). -/
abbrev EntryRow := Nat × Nat × Nat × Nat × Nat

/-- Entries of 0x1000 (R588). -/
def rows1000 : List EntryRow :=
  [(0x01, 1, 2, 2, 0), (0x02, 1, 9, 16, 0), (0x03, 1, 1, 1, 0), (0x04, 1, 9, 16, 0), (0x05, 1, 1, 1, 0),
   (0x06, 1, 9, 32, 0)]

/-- Entries of 0x1100 (R436, R589). -/
def rows1100 : List EntryRow :=
  [(0x01, 1, 3, 4, 3), (0x02, 1, 1, 1, 0), (0x03, 1, 1, 1, 0), (0x04, 1, 4, 8, 0), (0x08, 1, 9, 48, 0),
   (0x10, 1, 9, 32, 1), (0x11, 1, 1, 1, 2), (0x20, 1, 1, 1, 1), (0x21, 1, 9, 192, 2), (0x22, 1, 2, 2, 1),
   (0x23, 1, 1, 1, 1), (0x24, 1, 3, 4, 3), (0x25, 1, 1, 1, 1), (0x26, 1, 9, 32, 1), (0x27, 1, 9, 32, 0)]

/-- Entries of 0x1200 (R590). -/
def rows1200 : List EntryRow :=
  [(0x01, 1, 4, 8, 0), (0x02, 1, 7, 4, 0), (0x03, 1, 1, 1, 0)]

/-- Entries of 0x2000 (R523). -/
def rows2000 : List EntryRow :=
  [(0x01, 1, 3, 4, 3), (0x02, 2, 2, 2, 0), (0x04, 2, 2, 2, 0), (0x06, 1, 2, 2, 0), (0x07, 1, 3, 4, 0), (0x08, 1, 2, 2, 0),
   (0x09, 1, 4, 8, 0)]

/-- Entries of 0x2100 (R524). -/
def rows2100 : List EntryRow :=
  [(0x01, 1, 1, 1, 1), (0x02, 1, 2, 2, 1), (0x03, 1, 2, 2, 1), (0x04, 1, 2, 2, 0), (0x05, 1, 2, 2, 0), (0x06, 1, 2, 2, 0),
   (0x07, 1, 3, 4, 0), (0x08, 1, 3, 4, 3), (0x09, 1, 3, 4, 1), (0x0A, 1, 3, 4, 0), (0x0B, 1, 1, 1, 1), (0x0F, 1, 1, 1, 2),
   (0x10, 1, 9, 40, 0)]

/-- Entries of 0x2200 (R525). -/
def rows2200 : List EntryRow :=
  [(0x01, 1, 5, 1, 1), (0x10, 10, 5, 1, 0)]

/-- Entries of 0x2300 (R525). -/
def rows2300 : List EntryRow :=
  [(0x01, 1, 3, 4, 0), (0x02, 1, 1, 1, 1), (0x03, 1, 3, 4, 3), (0x10, 8, 2, 2, 0), (0x20, 8, 6, 2, 0), (0x30, 8, 1, 1, 0)]

/-- Entries of 0x3000 (R482). -/
def rows3000 : List EntryRow :=
  [(0x01, 1, 3, 4, 1), (0x02, 1, 3, 4, 1), (0x03, 1, 1, 1, 1), (0x04, 1, 1, 1, 1), (0x05, 1, 1, 1, 1), (0x06, 1, 2, 2, 1),
   (0x07, 1, 4, 8, 1), (0x08, 1, 2, 2, 1), (0x09, 1, 2, 2, 1), (0x0E, 1, 1, 1, 2), (0x0F, 1, 1, 1, 2)]

/-- Entries of 0x3100 (R483). -/
def rows3100 : List EntryRow :=
  [(0x01, 1, 3, 4, 3), (0x02, 1, 2, 2, 0), (0x03, 1, 2, 2, 2), (0x04, 1, 3, 4, 0), (0x05, 1, 1, 1, 2), (0x06, 1, 3, 4, 0),
   (0x07, 1, 1, 1, 0), (0x08, 1, 2, 2, 0), (0x0F, 1, 1, 1, 2), (0x10, 1, 2, 2, 1), (0x11, 1, 9, 32, 0), (0x12, 1, 2, 2, 0),
   (0x13, 1, 1, 1, 1), (0x14, 1, 9, 32, 0), (0x40, 64, 4, 8, 0)]

/-- Entries of 0x3200 (R484). -/
def rows3200 : List EntryRow :=
  [(0x01, 1, 1, 1, 1), (0x02, 1, 4, 8, 1), (0x03, 1, 1, 1, 1), (0x04, 1, 1, 1, 1), (0x0F, 1, 1, 1, 2), (0x10, 1, 1, 1, 0),
   (0x11, 1, 3, 4, 0)]

/-- Entries of 0x4000 (R202). -/
def rows4000 : List EntryRow :=
  [(0x01, 1, 1, 1, 1), (0x02, 1, 1, 1, 0), (0x03, 1, 2, 2, 0), (0x04, 1, 4, 8, 0), (0x05, 1, 4, 8, 0), (0x06, 1, 9, 64, 0),
   (0x09, 7, 1, 1, 1), (0x10, 1, 1, 1, 1), (0x11, 1, 3, 4, 1), (0x12, 1, 1, 1, 1), (0x13, 1, 1, 1, 1), (0x1F, 1, 1, 1, 2)]

/-- Entries of 0x4100 (R202). -/
def rows4100 : List EntryRow :=
  [(0x01, 1, 3, 4, 3), (0x02, 1, 2, 2, 0), (0x03, 1, 1, 1, 0), (0x10, 64, 4, 8, 0), (0x50, 1, 2, 2, 0), (0x51, 1, 4, 8, 0)]

/-- Entries of 0x4200 (R228). -/
def rows4200 : List EntryRow :=
  [(0x01, 1, 3, 4, 1), (0x02, 1, 3, 4, 1), (0x03, 1, 1, 1, 1), (0x04, 1, 1, 1, 0), (0x05, 1, 1, 1, 0), (0x06, 1, 2, 2, 1),
   (0x07, 1, 3, 4, 0), (0x08, 1, 3, 4, 3), (0x0F, 1, 1, 1, 2), (0x10, 1, 4, 8, 0), (0x11, 1, 4, 8, 0), (0x12, 1, 4, 8, 0),
   (0x13, 1, 4, 8, 0), (0x14, 1, 4, 8, 0)]

/-- Entries of 0x5000 (R277). -/
def rows5000 : List EntryRow :=
  [(0x01, 1, 3, 4, 3), (0x02, 1, 2, 2, 0), (0x03, 1, 1, 1, 1), (0x04, 1, 1, 1, 0), (0x05, 1, 4, 8, 1), (0x06, 1, 4, 8, 1),
   (0x07, 1, 1, 1, 1), (0x08, 1, 2, 2, 1), (0x09, 1, 1, 1, 1), (0x0A, 1, 2, 2, 1), (0x0B, 1, 2, 2, 2), (0x0C, 1, 2, 2, 1),
   (0x0F, 1, 1, 1, 2), (0x10, 16, 5, 1, 0), (0x20, 16, 5, 1, 0), (0x30, 16, 1, 1, 0), (0x40, 1, 9, 64, 0),
   (0x41, 1, 3, 4, 0), (0x50, 16, 3, 4, 0)]

/-- Entries of 0x5100 (R303). -/
def rows5100 : List EntryRow :=
  [(0x01, 1, 3, 4, 3), (0x02, 1, 2, 2, 0), (0x10, 1, 4, 8, 0), (0x11, 1, 4, 8, 0), (0x12, 1, 4, 8, 0), (0x13, 1, 4, 8, 0),
   (0x14, 1, 4, 8, 0)]

/-- Entries of 0x6000 (R254). -/
def rows6000 : List EntryRow :=
  [(0x01, 1, 3, 4, 3), (0x02, 1, 3, 4, 0), (0x03, 1, 2, 2, 0), (0x04, 1, 2, 2, 1), (0x05, 1, 4, 8, 0), (0x06, 1, 4, 8, 0),
   (0x0F, 1, 1, 1, 2), (0x10, 14, 3, 4, 1), (0x20, 14, 3, 4, 0)]

/-- Entries of 0x6100 (R383). -/
def rows6100 : List EntryRow :=
  [(0x01, 1, 3, 4, 3), (0x02, 1, 2, 2, 0), (0x03, 1, 1, 1, 0), (0x04, 1, 2, 2, 0), (0x05, 1, 3, 4, 1), (0x06, 1, 2, 2, 1),
   (0x07, 1, 2, 2, 1), (0x08, 1, 2, 2, 1), (0x09, 1, 2, 2, 1), (0x0A, 4, 2, 2, 1), (0x0F, 1, 1, 1, 2), (0x10, 1, 4, 8, 1),
   (0x11, 1, 4, 8, 1), (0x18, 1, 1, 1, 1), (0x19, 1, 2, 2, 0), (0x1A, 1, 7, 4, 0), (0x1B, 1, 1, 1, 0), (0x1C, 1, 4, 8, 0),
   (0x1D, 1, 1, 1, 1), (0x20, 1, 9, 64, 0)]

/-- Entries of 0x6200 (R384). -/
def rows6200 : List EntryRow :=
  [(0x01, 1, 3, 4, 3), (0x02, 1, 4, 8, 1), (0x03, 1, 4, 8, 1), (0x04, 1, 2, 2, 1), (0x05, 1, 2, 2, 1), (0x06, 1, 2, 2, 1),
   (0x0F, 1, 1, 1, 2), (0x10, 1, 3, 4, 0), (0x11, 1, 2, 2, 0), (0x12, 1, 2, 2, 0), (0x13, 1, 9, 40, 0)]

/-- Entries of 0x7000 (R455). -/
def rows7000 : List EntryRow :=
  [(0x01, 1, 3, 4, 3), (0x02, 1, 4, 8, 0), (0x03, 1, 4, 8, 0), (0x04, 1, 2, 2, 0), (0x08, 3, 2, 2, 1), (0x0B, 5, 3, 4, 1),
   (0x1E, 1, 1, 1, 2), (0x1F, 1, 1, 1, 2), (0x20, 64, 9, 32, 0), (0x60, 1, 2, 2, 1), (0x61, 1, 4, 8, 0)]

/-- Entries of 0x7100 (R455). -/
def rows7100 : List EntryRow :=
  [(0x01, 1, 3, 4, 3), (0x02, 1, 1, 1, 0), (0x03, 1, 1, 1, 1), (0x04, 1, 4, 8, 1), (0x05, 1, 4, 8, 1), (0x06, 1, 4, 8, 1),
   (0x07, 1, 3, 4, 1), (0x08, 1, 2, 2, 1), (0x0F, 1, 1, 1, 2), (0x10, 1, 3, 4, 0), (0x11, 1, 4, 8, 0), (0x12, 1, 2, 2, 0),
   (0x13, 1, 2, 2, 0)]

/-- Entries of 0x7200 (R341, R396). -/
def rows7200 : List EntryRow :=
  [(0x01, 1, 3, 4, 3), (0x02, 1, 2, 2, 0), (0x03, 1, 4, 8, 0), (0x04, 1, 2, 2, 1), (0x05, 1, 2, 2, 1), (0x06, 1, 2, 2, 1),
   (0x07, 1, 2, 2, 1), (0x08, 1, 1, 1, 1), (0x09, 1, 2, 2, 1), (0x0A, 1, 1, 1, 1), (0x0F, 1, 1, 1, 2), (0x10, 1, 3, 4, 0),
   (0x11, 1, 2, 2, 0), (0x12, 1, 4, 8, 0), (0x13, 1, 9, 48, 0), (0x1F, 1, 2, 2, 1), (0x20, 1, 9, 64, 0),
   (0x30, 1, 3, 4, 1), (0x31, 1, 2, 2, 1), (0x32, 1, 3, 4, 0), (0x33, 1, 3, 4, 0), (0x34, 1, 3, 4, 3), (0x35, 1, 2, 2, 0),
   (0x36, 1, 3, 4, 0), (0x37, 1, 9, 24, 0)]

/-- Entries of 0x8000 (R564). -/
def rows8000 : List EntryRow :=
  [(0x01, 1, 3, 4, 3), (0x02, 1, 3, 4, 0), (0x03, 1, 2, 2, 0), (0x04, 1, 4, 8, 0), (0x05, 1, 1, 1, 0), (0x06, 1, 1, 1, 0),
   (0x08, 1, 1, 1, 2), (0x09, 1, 1, 1, 2), (0x0A, 1, 1, 1, 2), (0x10, 6, 1, 1, 1), (0x20, 1, 9, 32, 1),
   (0x21, 1, 9, 32, 0), (0x22, 1, 9, 192, 2), (0x30, 1, 10, 0, 2), (0x40, 1, 10, 0, 2), (0x41, 1, 10, 0, 0),
   (0x50, 1, 10, 0, 2), (0x51, 1, 1, 1, 2)]

/-- Entries of 0x9000 (R591). -/
def rows9000 : List EntryRow :=
  [(0x01, 1, 3, 4, 3), (0x02, 1, 9, 64, 0), (0x10, 1, 4, 8, 1), (0x11, 1, 1, 1, 1), (0x12, 1, 4, 8, 0), (0x1F, 1, 1, 1, 2)]

/-- Entries of 0xA000 (R544). -/
def rowsA000 : List EntryRow :=
  [(0x01, 1, 1, 1, 0), (0x02, 1, 1, 1, 0), (0x03, 1, 3, 4, 3), (0x04, 1, 9, 32, 0), (0x05, 1, 9, 16, 0),
   (0x08, 1, 2, 2, 1), (0x09, 1, 2, 2, 1), (0x0A, 1, 2, 2, 1), (0x0B, 1, 1, 1, 1), (0x0C, 1, 1, 1, 0), (0x0F, 1, 1, 1, 2),
   (0x10, 4, 3, 4, 0), (0x20, 1, 1, 1, 2)]

/-- Entries of 0xF000 (R592). -/
def rowsF000 : List EntryRow :=
  [(0x01, 1, 4, 8, 0), (0x02, 1, 3, 4, 0), (0x10, 8, 9, 1280, 0)]

/-- The index map (R587). -/
def dictIndex : Nat → Option (List EntryRow)
  | 0x1000 => some rows1000
  | 0x1100 => some rows1100
  | 0x1200 => some rows1200
  | 0x2000 => some rows2000
  | 0x2100 => some rows2100
  | 0x2200 => some rows2200
  | 0x2300 => some rows2300
  | 0x3000 => some rows3000
  | 0x3100 => some rows3100
  | 0x3200 => some rows3200
  | 0x4000 => some rows4000
  | 0x4100 => some rows4100
  | 0x4200 => some rows4200
  | 0x5000 => some rows5000
  | 0x5100 => some rows5100
  | 0x6000 => some rows6000
  | 0x6100 => some rows6100
  | 0x6200 => some rows6200
  | 0x7000 => some rows7000
  | 0x7100 => some rows7100
  | 0x7200 => some rows7200
  | 0x8000 => some rows8000
  | 0x9000 => some rows9000
  | 0xA000 => some rowsA000
  | 0xF000 => some rowsF000
  | _ => none

/-- A row of a list that covers a subindex: type code, size and access code. -/
def rowFor (l : List EntryRow) (sub : Nat) : Option (Nat × Nat × Nat) :=
  (l.find? fun r => decide (r.1 ≤ sub ∧ sub < r.1 + r.2.1)).map fun r => r.2.2

/-- The highest subindex of an index (R587). -/
def highSub (l : List EntryRow) : Nat := l.foldl (fun m r => max m (r.1 + r.2.1 - 1)) 0

/-- An entry: type code, size and access code; or the abort code of an index or subindex that does not exist (R582, R587). -/
def entryAt (idx sub : Nat) : Except Nat (Nat × Nat × Nat) :=
  match dictIndex idx with
  | none => .error abNoIndex
  | some l => if sub = 0 then .ok (1, 1, 0) else match rowFor l sub with
    | some r => .ok r
    | none => .error abNoSub

/-- The maximum of a DOMAIN entry: 4,096 for the SPDM messages (R554), open for the others (assumption 2). -/
def domMax (idx sub : Nat) : Nat := if idx = 0x8000 ∧ (sub = 0x40 ∨ sub = 0x41) then 4096 else Config.domainMax (odKey idx sub)

/-- The level that reading an entry needs (R566). -/
def readLevel (idx : Nat) : Nat := if idx = 0x3200 ∨ idx = 0xF000 then 2 else 0

/-- The level that writing an entry needs (R566 and the chapters' own sentences). -/
def writeLevel (idx sub : Nat) : Nat :=
  match idx with
  | 0x1100 => if sub = 0x20 ∨ sub = 0x21 then 0 else if sub = 0x25 ∨ sub = 0x26 then 2 else 1
  | 0x3000 => if sub = 0x0E ∨ sub = 0x0F then 2 else 1
  | 0x3100 => if sub = 0x0F then 2 else 1
  | 0x3200 => 2
  | 0x5000 => if sub = 0x0B then 2 else 1
  | 0x8000 => if sub = 0x40 then 0 else 2
  | 0xA000 => if sub = 0x20 then 2 else 1
  | _ => 1

/-- A value without the bits of reserved fields, which are dropped (R5, R570). -/
def keptBits (idx sub v : Nat) : Nat :=
  if idx = 0x3000 ∧ sub = 4 then v &&& 7
  else if idx = 0xA000 ∧ sub = 0xB then v &&& 0xF
  else if idx = 0x7000 ∧ 0xC ≤ sub ∧ sub ≤ 0xF then v &&& 0x03FF03FF
  else if idx = 0x1100 ∧ sub = 0x10 then v &&& 0xFFFF00FFFFFFFFFFFFFFFFFF000003FF1FFFFFFFFFFF001F000000FFFFFFFFFF
  else v

/-- `lo ≤ v ≤ hi`. -/
def within (lo hi v : Nat) : Bool := decide (lo ≤ v ∧ v ≤ hi)

/-- Whether a value is in the range that the table of its entry states (R570). -/
def inRange (idx sub v : Nat) : Bool :=
  match idx with
  | 0x1100 =>
    if sub = 0x22 then v == 0 || within 10 10000 v else if sub = 0x23 then within 1 5 v
    else if sub = 0x25 then within 0 1 v else true
  | 0x2100 =>
    if sub = 1 then within 0 1 v else if sub = 3 then v == 0 || within 1500 5000 v
    else if sub = 9 then within 2000 200000 v else if sub = 0xB then within 15 60 v else true
  | 0x2200 => if sub = 1 then within 85 105 v else true
  | 0x2300 => if sub = 2 then within 8 40 v else true
  | 0x3000 =>
    if sub = 1 then within 100 1000000 v else if sub = 2 then within 10 10000 v else if sub = 5 then within 1 16 v
    else if sub = 6 then within 250 10000 v else true
  | 0x3100 => if sub = 0x13 then within 0 63 v else true
  | 0x3200 => if sub = 4 then within 0 1 v else true
  | 0x4000 =>
    if sub = 1 then within 1 14 v else if 9 ≤ sub ∧ sub ≤ 0xF then within 1 16 v else if sub = 0x10 then within 16 30 v
    else if sub = 0x12 then within 1 99 v else if sub = 0x13 then within 1 255 v else true
  | 0x4200 =>
    if sub = 1 then within 5 10000 v else if sub = 2 then within 100 100000 v else if sub = 3 then within 0 2 v else true
  | 0x5000 =>
    if sub = 7 then within 0 1 v else if sub = 8 then within 1 1000 v else if sub = 9 then within 0 20 v
    else if sub = 0xA then within 10 10000 v else if sub = 0xC then within 1 1000 v else true
  | 0x6000 => if sub = 4 then within 8 1024 v else true
  | 0x6100 => if sub = 0x10 ∨ sub = 0x11 then v % 65536 == 0 else if sub = 0x1D then within 0 1 v else true
  | 0x6200 => if sub = 5 then within 1 1000 v else if sub = 6 then within 1 800 v else true
  | 0x7000 => if sub = 8 then within 1 63 v else if sub = 0x60 then within 0 1023 v else true
  | 0x7100 => if sub = 3 then within 1 63 v else if sub = 4 then v % 65536 == 0 else if sub = 8 then within 1 64 v else true
  | 0x7200 =>
    if sub = 9 then within 1 64 v else if sub = 0xA then within 0 3 v else if sub = 0x1F then within 0 4095 v else true
  | 0x8000 => if 0x10 ≤ sub ∧ sub ≤ 0x15 then within 0 3 v else true
  | 0x9000 => if sub = 0x11 then within 6 16 v else true
  | _ => true

/-- Whether an entry is kept in flash, so that a write of it is answered once the devices hold it (R570, R581). -/
def inFlash (idx sub : Nat) : Bool :=
  (idx == 0x1100 && (sub == 0x25 || sub == 0x26)) || (idx == 0x8000 && sub == 0x20)
    || (sub == 0x0F && (idx == 0x5000 || idx == 0x6000 || idx == 0xA000))

end Sys2Proof.Machine
end

