-- ==== Sys2Proof/Machine/Migration.lean ====
section
/-!
DEFINITION. Machine/Migration.lean: migration of a partition: dirty logging, passes, freeze and thaw, restore (R446 to R455).
-/

namespace Sys2Proof.Machine

/-! ### Granules and records (R448, R450, R451) -/

/-- MIG_PART. -/
def State.migPart (s : State) : Nat := s.od 0x7100 3
/-- The partition being migrated. -/
def State.migAttr (s : State) : Part := get s.parts.parts s.migPart Part.reset
/-- Whether MIG_PART names a partition that exists. -/
def State.migValid (s : State) : Bool := s.migPart != 0 && (find? s.parts.parts s.migPart).isSome

/-- The frames of the partition's sequences. -/
def State.migFrames (s : State) : List (Nat × (Nat × Nat × Nat)) :=
  s.seq.frames.filter fun x => (s.entry x.2.1).part.toNat == s.migPart && (s.entry x.2.1).st != .free

/-- Every granule of the partition. -/
def State.granules (s : State) : List Nat :=
  (s.migAttr.carves.flatMap fun c => (List.range (c.2 * 2 ^ 14)).map (c.1 * 2 ^ 14 + ·))
    ++ s.migFrames.map fun x => s.frameBase x.1 / 2 ^ 16

/-- Dirty granules: DIRTY counts them. -/
def State.dirtyNow (s : State) : List Nat := if s.parts.mig.logging then s.granules.filter (s.parts.mig.dirty.contains ·) else []

/-- A record (R450). -/
def record (kind pass key : Nat) (d : List Byte) : List Byte :=
  let n := (d.length + 63) / 64 * 64
  leBytes kind 1 ++ leBytes pass 1 ++ leBytes 0 2 ++ leBytes n 4 ++ leBytes key 8 ++ List.replicate 48 0 ++ slice d 0 n

/-- The offset within the carve-outs, taken in CARVE order, of an address. -/
def carveOffset : List (Nat × Nat) → Nat → Nat → Option Nat
  | [], _, _ => none
  | c :: r, before, pa =>
    if c.1 * 2 ^ 30 ≤ pa ∧ pa < (c.1 + c.2) * 2 ^ 30 then some (before + (pa - c.1 * 2 ^ 30))
    else carveOffset r (before + c.2 * 2 ^ 30) pa

/-- The chunk record of a granule. -/
def State.chunk (s : State) (g : Nat) : List Byte :=
  let d := (s.getBytes (2 ^ 16 * g) 65536).1
  match carveOffset s.migAttr.carves 0 (2 ^ 16 * g) with
  | some o => record 1 s.parts.mig.pass o d
  | none => match s.migFrames.find? fun x => s.frameBase x.1 / 2 ^ 16 == g with
    | some x => record 2 s.parts.mig.pass (s.handle x.2.1 * 2 ^ 32 + x.2.2.1 * 2 ^ 16 + x.2.2.2) d
    | none => []

/-- Bytes of a chunk record and of an END record. -/
def chunkLen : Nat := 65600
/-- Bytes of an END record. -/
def endLen : Nat := 128

/-- The contexts of the partition. -/
def State.migCtxs (s : State) : List (Nat × Ctx) := s.host.ctxs.filter fun x => x.2.part == s.migPart

/-- The metadata records of the final pass. -/
def State.metadata (s : State) : List (List Byte) :=
  let n := s.parts.mig.pass
  let ctxs := s.migCtxs
  let mine := fun (c : Nat) => ctxs.any (·.1 == c)
  let seqs := s.seq.table.filter fun x => x.2.st != .free && x.2.part.toNat == s.migPart
  (seqs.map fun x => record 3 n (s.handle x.1) (s.rackRecord x.1))
    ++ ((s.host.fences.filter fun x => x.2.holders.any mine).map fun x => record 4 n x.1 (leBytes x.2.value.toNat 8))
    ++ ((s.host.queues.filter fun x => mine (qCtx x.2.desc)).map fun x => record 5 n x.1 (leBytes x.2.rd 8))
    ++ (ctxs.map fun x => record 6 n x.1 (leBytes x.2.pasid 8))
    ++ ((s.host.mems.filter fun x => isHbm x.2.base && s.migAttr.covers x.2.base x.2.len).map fun x =>
        record 7 n x.1 (leBytes ((carveOffset s.migAttr.carves 0 x.2.base).getD 0) 8 ++ leBytes x.2.len 8))

/-! ### Actions (R446) -/

/-- Change the state of migration. -/
def State.onMig (s : State) (f : Mig → Mig) : State := { s with parts := { s.parts with mig := f s.parts.mig } }

/-- Whether transfers of the partition's sequences are under way, so that state 2 is not yet reported (R447). -/
def State.migDraining (s : State) : Bool :=
  let mine := fun (n : Nat) => (s.entry n).part.toNat == s.migPart
  s.seq.spills.any (fun x => mine x.1) || s.seq.resumes.any (fun x => mine x.1) || s.seq.exports.any (fun x => mine x.1)

/-- MIG_STATE as reported (R447). -/
def State.migState (s : State) : Nat :=
  if s.parts.mig.state = 2 ∧ s.migDraining then 1 else s.parts.mig.state

/-- A write to MIG_ACTION, valid in some states. -/
def State.migAction (s : State) (path : Path) (tid : Nat) (ok : State → Bool) (f : State → State) : State :=
  s.request path tid 0x7100 0x0F 1 fun s => guardAct (ok s) abState (.ok (f s))

/-- Logging starts with every granule dirty. -/
def State.startLog (s : State) (m : Mig) : State :=
  s.onMig fun _ => { m with logging := true, dirty := s.granules, pass := 0, saved := [], stream := [], count := 0, full := false }

/-- LOG (R446, R448). -/
def execMigLog (path : Path) (tid : Nat) (s : State) : Res :=
  .next (s.migAction path tid (fun s => s.parts.mig.state == 0 && !s.parts.mig.freezing && s.migValid) fun s =>
    s.startLog { s.parts.mig with state := 1 })

/-- FREEZE: takes effect at the next commit point; without LOG every granule is dirty (R446 to R448). -/
def execMigFreeze (path : Path) (tid : Nat) (s : State) : Res :=
  .next (s.migAction path tid (fun s => decide (s.parts.mig.state ≤ 1) && !s.parts.mig.freezing && s.parts.mig.running.isNone
      && s.migValid) fun s =>
    let m := { s.parts.mig with freezing := true }
    if s.parts.mig.logging then s.onMig fun _ => m else s.startLog m)

/-- Bytes are written to companion memory behind what the pass has written. -/
def State.migWrite (s : State) (d : List Byte) (n : Nat) : State :=
  let m := s.parts.mig
  let ca := winAddr (s.od 0x7100 4) - 2 ^ 40
  (s.compStore (ca + m.stream.length) d).onMig fun m => { m with stream := m.stream ++ d, count := m.count + n }

/-- Whether `n` more bytes and the END record fit. -/
def State.migFits (s : State) (n : Nat) : Bool := decide (s.parts.mig.stream.length + n + endLen ≤ s.od 0x7100 5)

/-- A pass saves the dirty granules in turn, as long as they fit, and clears their marks (R449). -/
def State.saveAll (s : State) : List Nat → State
  | [] => s
  | g :: r =>
    if s.migFits chunkLen then
      ((s.migWrite (s.chunk g) 1).onMig fun m => { m with dirty := m.dirty.filter (· != g), saved := m.saved ++ [g] }).saveAll r
    else s.onMig fun m => { m with full := true }

/-- A pass begins (R449). -/
def State.beginPass (s : State) (final : Bool) : State :=
  let todo := s.dirtyNow
  (s.onMig fun m => { m with running := some final, saved := [], stream := [], count := 0, full := false }).saveAll todo

/-- PASS (R446, R449). -/
def execMigPass (path : Path) (tid : Nat) (s : State) : Res :=
  .next (s.migAction path tid (fun s => s.parts.mig.state == 1 && s.parts.mig.running.isNone && s.host.link == 2) fun s => s.beginPass false)

/-- Whether a fence held by the partition has a holder outside it (R449). -/
def State.migShared (s : State) : Bool :=
  let mine := fun (c : Nat) => s.migCtxs.any (·.1 == c)
  s.host.fences.any fun x => x.2.holders.any mine && x.2.holders.any fun c => !mine c

/-- FINAL: refused with `MIG_SHARED` for a shared fence; else the remaining granules, then the metadata (R446, R449). -/
def execMigFinal (path : Path) (tid : Nat) (s : State) : Res :=
  .next (s.migAction path tid (fun s => s.migState == 2 && s.parts.mig.running.isNone && s.host.link == 2) fun s =>
    if s.migShared then s.setOd 0x7100 0x12 2
    else
      let t := s.beginPass true
      let meta' := t.metadata
      if t.parts.mig.full then t
      else if t.migFits meta'.flatten.length then t.migWrite meta'.flatten meta'.length
      else t.onMig fun m => { m with full := true })

/-- MIG_PASS_END: the END record and the result; a final pass that is whole ends logging (R446, R449, R451). -/
def execMigPassEnd (s : State) : Res :=
  .next (match s.parts.mig.running with
    | none => s
    | some final =>
      let m := s.parts.mig
      let whole := final && !m.full
      let plan := match s.host.plan with | some p => p.digest | none => List.replicate 32 0
      let t := s.migWrite (record 0x0F m.pass (b2n whole + m.count % 2 ^ 32 * 2 ^ 32) (sm3 m.stream ++ plan)) 1
      let t := (t.setOd 0x7100 0x11 t.parts.mig.stream.length).setOd 0x7100 0x12 (if m.full then 1 else 0)
      t.onMig fun m => { m with
        running := none, saved := [], stream := [], count := 0, full := false, pass := (m.pass + 1) % 256
        state := if whole then 3 else m.state, logging := m.logging && !whole, dirty := if whole then [] else m.dirty })

/-- The freeze of the partition is lifted, and its queues are read again. -/
def State.unfreeze (s : State) : State :=
  let ctxs := s.host.ctxs.map fun (x : Nat × Ctx) => if x.2.part = s.migPart then (x.1, { x.2 with frozen := false }) else x
  { s with host := { s.host with ctxs := ctxs } }

/-- THAW (R446). -/
def execMigThaw (path : Path) (tid : Nat) (s : State) : Res :=
  .next (s.migAction path tid (fun s => (s.parts.mig.state == 2 || s.parts.mig.state == 3) && s.parts.mig.running.isNone) fun s =>
    s.unfreeze.onMig fun _ => Mig.reset)

/-! ### Restore (R452) -/

/-- A record as read: kind, PASS, key, payload, and the bytes it takes. -/
structure MigRec where
  kind : Nat
  pass : Nat
  key : Nat
  data : List Byte
  size : Nat
  deriving DecidableEq, Repr

/-- The records of a byte string up to the first END, at most `n` of them. -/
def readRecords (d : List Byte) : Nat → List MigRec
  | 0 => []
  | n + 1 =>
    if d.length < 64 then []
    else
      let len := num8 d 4 4
      let r : MigRec := { kind := num8 d 0 1, pass := num8 d 1 1, key := num8 d 8 8, data := slice d 64 len, size := 64 + len }
      if r.kind = 0x0F then [r] else r :: readRecords (d.drop (64 + len)) n

/-- The new ID that the binding list gives an old one. -/
def boundTo (b : List Byte) (n kind old : Nat) : Option Nat :=
  (((List.range n).map fun i => num8 b (8 * i) 8).find? fun e => bits e 63 56 == kind && bits e 31 16 == old).map fun e => bits e 15 0

/-- The slot under which frames of a key are kept until the sequence is restored: above every slot of the table. -/
def chunkSlot (key : Nat) : Nat := 4096 + bits key 43 32

/-- A chunk is written: into the carve-outs, or into a frame for its key (R312, R452). -/
def State.applyChunk (s : State) (p : Plan) (r : MigRec) : Option State :=
  if r.kind = 1 then
    match carveAt s.migAttr.carves r.key with
    | some (pa, room) => if 65536 ≤ room then some (s.putBytes pa (slice r.data 0 65536)) else none
    | none => none
  else if r.kind = 2 then
    match find? s.parts.mig.chunks r.key with
    | some f => some (s.putBytes (s.frameBase f) (slice r.data 0 65536))
    | none =>
      let slot := chunkSlot r.key
      match (s.frameFor p.bps (bits r.key 43 32) (bits r.key 31 16) (bits r.key 15 0)).filter fun _ => s.mayDraw s.migPart 1 with
      | some f =>
        some (({ s with seq := { s.seq with frames := put s.seq.frames f (slot, bits r.key 31 16, bits r.key 15 0) } }.onMig fun m =>
          { m with chunks := m.chunks ++ [(r.key, f)] }).putBytes (s.frameBase f) (slice r.data 0 65536))
      | none => none
  else some s

/-- Every chunk of a pass in turn. -/
def State.applyChunks (s : State) (p : Plan) : List MigRec → Option State
  | [] => some s
  | r :: l => (s.applyChunk p r).bind fun t => t.applyChunks p l

/-- The frames kept for keys return to the free list. -/
def State.dropChunks (s : State) : State :=
  { s.onMig fun m => { m with chunks := [] } with
    seq := { s.seq with frames := s.seq.frames.filter fun x => decide (x.2.1 < 4096) } }

/-- A sequence is restored into the lowest free slot; its objects are mapped through the binding list; whether LASTTOK is yet to
be fed is not in the record's fields (R452; assumption 106). -/
def State.restoreSeq (s : State) (p : Plan) (b : List Byte) (n : Nat) (r : MigRec) : Option (State × Nat) :=
  let e := Entry.ofBytes r.data
  match boundTo b n 1 e.ctx.toNat, boundTo b n 2 e.queue.toNat, boundTo b n 3 e.fence.toNat,
      freeId (fun i => (s.entry i).st != .free) 0 4096 with
  | some ctx, some queue, some fence, some slot =>
    if s.isCtx ctx && (s.ctx ctx).part == s.migPart && (find? s.host.queues queue).isSome && s.queueCtx queue == ctx
        && s.holdsFence ctx fence then
      let gen := (s.entry slot).gen + 1
      let e' := { e with
        ctx := BitVec.ofNat 10 ctx, queue := BitVec.ofNat 12 queue, fence := BitVec.ofNat 16 fence
        part := BitVec.ofNat 6 s.migPart, racked := false, buddy := 0, gen := gen, cmdid := (s.freeVal).setWidth 32
        tree := treeOf (r.data.drop 64) e.nodes.toNat, treePos := e.pos
        feed := e.pfill != 0 && e.pos != 0 && Config.feedsLast r.data }
      let t := (s.setEntry slot e').drew
      let mine := s.parts.mig.chunks.filter fun x => bits x.1 59 32 == r.key && decide (bits x.1 31 16 < e.rows.toNat)
      some (mine.foldl (fun (t : State) x => t.takeFrame p slot (bits x.1 31 16) (bits x.1 15 0) x.2) t, slot)
    else none
  | _, _, _, _ => none

/-- The sequences of a final pass, with the entries of the handle map. -/
def State.restoreSeqs (s : State) (p : Plan) (b : List Byte) (n : Nat) : List MigRec → List Nat → Option (State × List Nat)
  | [], hs => some (s, hs)
  | r :: l, hs => match s.restoreSeq p b n r with
    | some (t, slot) => t.restoreSeqs p b n l (hs ++ [r.key % 2 ^ 28 * 2 ^ 32 + t.handle slot])
    | none => none

/-- Whether a MEMOBJ record's new object covers the same carve-out offsets. -/
def State.memCovered (s : State) (b : List Byte) (n : Nat) (r : MigRec) : Bool :=
  match boundTo b n 4 r.key with
  | some i => match find? s.host.mems i with
    | some m => carveOffset s.migAttr.carves 0 m.base == some (num8 r.data 0 8) && m.len == num8 r.data 8 8
    | none => false
  | none => false

/-- Whether a fence record's fence is bound to one that exists. -/
def State.fenceBound (s : State) (b : List Byte) (n : Nat) (r : MigRec) : Bool :=
  match boundTo b n 3 r.key with
  | some i => (find? s.host.fences i).isSome
  | none => false

/-- A restore fails: its result is reported, and nothing of the pass stands. -/
def State.restoreFailed (s : State) (code : Nat) : State := (s.setOd 0x7100 0x12 code).sticky 0x7100 1 1

/-- A final pass is applied to the objects that exist (R452). -/
def State.restoreFinal (s : State) (p : Plan) (rs : List MigRec) (b : List Byte) (n : Nat) : Option State :=
  let of := fun (k : Nat) => rs.filter fun r => r.kind == k
  if !(of 7).all (s.memCovered b n) || !(of 4).all (s.fenceBound b n) then none
  else match s.restoreSeqs p b n (of 3) [] with
    | none => none
    | some (t, hs) =>
      let t := (of 4).foldl (fun (t : State) r =>
        let v := num8 r.data 0 8
        match boundTo b n 3 r.key with
        | some i => if v = 2 ^ 64 - 1 then t else t.signal i v
        | none => t) t
      let at' := winAddr (s.od 0x7100 6) - 2 ^ 40 + 8 * n
      let t := (t.compStore at' (hs.flatMap fun h => leBytes h 8)).setOd 0x7100 0x13 hs.length
      some (t.dropChunks.onMig fun _ => Mig.reset)

/-- The records at MIG_ADDR are applied. -/
def State.restore (s : State) (records binding : List Byte) : State :=
  let rs := readRecords (records.take (s.od 0x7100 5)) (s.od 0x7100 5 / 64)
  let n := s.od 0x7100 7
  match rs.getLast?, s.host.plan with
  | some e, some p =>
    let body := rs.dropLast
    let bytes := sumN (body.map (·.size))
    let next := match s.parts.mig.applied with | some a => (a + 1) % 256 | none => 0
    if e.kind ≠ 0x0F ∨ e.pass ≠ next ∨ slice e.data 0 32 ≠ sm3 (records.take bytes) ∨ slice e.data 32 32 ≠ p.digest then
      s.restoreFailed 3
    else match s.applyChunks p body with
      | none => s.restoreFailed 3
      | some t =>
        let t := (t.onMig fun m => { m with state := 4, applied := some e.pass }).setOd 0x7100 0x11 (bytes + e.size)
        if e.key % 2 = 0 then t.setOd 0x7100 0x12 0
        else match t.restoreFinal p body binding n with
          | some u => u.setOd 0x7100 0x12 0
          | none => ((t.dropChunks.onMig fun _ => Mig.reset).restoreFailed 4).startReset s.migPart
  | _, _ => s.restoreFailed 3

/-- RESTORE: the target partition exists and holds no sequence (R446, R452). -/
def execMigRestore (path : Path) (tid : Nat) (records binding : List Byte) (s : State) : Res :=
  .next (s.migAction path tid (fun s => (s.parts.mig.state == 0 || s.parts.mig.state == 4) && !s.parts.mig.freezing && s.migValid
      && !s.migAttr.resetting && s.heldBy s.migPart == 0) fun s => s.restore records binding)

/-- ABORT: logging stops, or a partial restore is discarded and the target partition reset (R446). -/
def execMigAbort (path : Path) (tid : Nat) (s : State) : Res :=
  .next (s.migAction path tid (fun s => s.parts.mig.state == 1 || s.parts.mig.state == 4) fun s =>
    if s.parts.mig.state = 1 then s.onMig fun _ => Mig.reset
    else (s.dropChunks.onMig fun _ => Mig.reset).startReset s.migPart)

end Sys2Proof.Machine
end

