-- ==== Sys2Proof/Machine/Security.lean ====
section
/-!
DEFINITION. Machine/Security.lean: the commands of firmware updates, identity, attestation, the alarm and the debug port
(chapter 20).
-/

namespace Sys2Proof.Machine

/-! ### Firmware (R546 to R548) -/

/-- The SVN and version of an image whose signer, signature and digest verify (R546). -/
def imageOf (d : List Byte) : Option (Nat × Nat) :=
  let (digest, svn, version, key, signed, sig, body) := Config.imageFields d
  if sm3 key = Config.rootDigest ∧ Config.sm2Verify key signed sig ∧ sm3 body = digest then some (svn % 2 ^ 16, version % 2 ^ 32)
  else none

/-- SVN_COMMIT: MIN_SVN becomes the running SVN, and never falls (R547). -/
def execSvnCommit (path : Path) (tid : Nat) (s : State) : Res :=
  .next (s.request path tid 0x8000 0xA 2 fun s =>
    .ok ({ s with
      sec := { s.sec with minSvn := max s.sec.minSvn s.sec.runSvn } } : State).recorded.extendConfig)

/-- An image is stored in the inactive slot of both devices; the safe state takes none (R469, R548). -/
def State.storeImage (s : State) (image : List Byte) : Act :=
  let v := (imageOf image).getD (0, 0)
  guardAct (!s.faults.safe) abState (.ok { s with sec := { s.sec with
    inactive := some { svn := v.1, version := v.2, bytes := image }, update := false } })

/-- FW_IMAGE (R548). -/
def execFwImage (path : Path) (tid : Nat) (image : List Byte) (s : State) : Res :=
  .next (s.request path tid 0x8000 0x50 2 fun s => s.storeImage image)

/-- Whether the stored image verifies under R546 and R547. -/
def State.storedGood (s : State) : Bool :=
  match s.sec.inactive with
  | some x => (imageOf x.bytes).isSome && decide (s.sec.minSvn ≤ x.svn)
  | none => false

/-- FW_UPDATE: the stored image is verified, and the standby restarts from it (R548). -/
def execFwUpdate (path : Path) (tid : Nat) (s : State) : Res :=
  .next (s.request path tid 0x8000 0x51 2 fun s =>
    guardAct (s.storedGood && s.faults.standby && !(s.faults.diesOut.any fun d => decide (d < 8)) && !s.faults.safe) abState
      (.ok { s with sec := { s.sec with update := true } }))

/-- FW_HANDOVER: at a step boundary the active instance hands over to the updated standby, or the update is abandoned because
the new instance has failed (R548, R549). -/
def execFwHandover (ok : Bool) (s : State) : Res :=
  .next (match s.sec.update, s.sec.inactive with
    | true, some x =>
      let t := { s with sec := { s.sec with update := false } }
      if !ok then t
      else whenever (s.seq.phase == .idle) s
        (let t := { t with
           sec := { t.sec with runSvn := x.svn, runVersion := x.version, inactive := none }
           faults := { t.faults with activeX1 := !t.faults.activeX1 } }
         (((t.extend 2 (Config.imageFields x.bytes).1).sticky 0x8000 1 5).report 0x180A 0 0))
    | _, _ => s)

/-! ### The key epoch and certificates (R551, R552) -/

/-- EPOCH_ADVANCE: a write of 1 carries out response 3 (R551, R558, R564). -/
def execEpochAdvance (path : Path) (tid : Nat) (s : State) : Res :=
  .next (s.request path tid 0x8000 8 2 fun s =>
    .ok (({ s.sticky 0x8000 1 0 with sec := { s.sec with zeroing := true, advance := true } } : State).report 0x4805 0 0))

/-- A chain is installed if its leaf key is the identity key of the current epoch (R552). -/
def State.install (s : State) (chain : List Byte) : Act :=
  guardAct (Config.leafKey chain == Config.identityKey s.sec.epoch.toNat) abRange
    (.ok { s with sec := { s.sec with chain := some chain } })

/-- CERT_INSTALL (R552). -/
def execCertInstall (path : Path) (tid : Nat) (chain : List Byte) (s : State) : Res :=
  .next (s.request path tid 0x8000 0x30 2 fun s => s.install chain)

/-! ### Attestation (R554 to R556) -/

/-- The connection state of a path. -/
def State.spdmState (s : State) : Path → Nat
  | .can => s.sec.spdmC
  | .mailbox => s.sec.spdmM

/-- A path's connection state and its response. -/
def State.spdmPut (s : State) (p : Path) (st : Nat) (rsp : List Byte) : State :=
  match p with
  | .can => { s with sec := { s.sec with spdmC := st, rspC := rsp } }
  | .mailbox => { s with sec := { s.sec with spdmM := st, rspM := rsp } }

/-- A response: version, code and parameters, then the body (PRESUMED: the message formats of DMTF SPDM 1.2). -/
def spdmMsg (code p1 p2 : Nat) (body : List Byte) (version : Nat := 0x12) : List Byte :=
  [BitVec.ofNat 8 version, BitVec.ofNat 8 code, BitVec.ofNat 8 p1, BitVec.ofNat 8 p2] ++ body

/-- An ERROR response. -/
def State.spdmError (s : State) (p : Path) (code : Nat) : State := s.spdmPut p (s.spdmState p) (spdmMsg 0x7F code 0 [])

/-- Byte `i` of a message. -/
def byteAt (d : List Byte) (i : Nat) : Nat := (d.getD i 0).toNat

/-- The value of a measurement index and its DMTF value type (R549). -/
def State.measurement (s : State) (i : Nat) : Nat × List Byte :=
  if i = 7 then
    let active := s.sec.active.foldl (fun a x => a + 2 ^ x) 0
    (0x80, leBytes (s.sec.epoch.toNat + 2 ^ 32 * s.sec.debug + 2 ^ 40 * active) 8)
  else ([0, 0, 1, 1, 2, 3, 3].getD i 0, s.measured i)

/-- A measurement block in DMTF format (R555). -/
def State.block (s : State) (i : Nat) : List Byte :=
  let m := s.measurement i
  leBytes i 1 ++ leBytes 1 1 ++ leBytes (m.2.length + 3) 2 ++ leBytes m.1 1 ++ leBytes m.2.length 2 ++ m.2

/-- The blocks of a range of indices. -/
def State.blocks (s : State) (is : List Nat) : List Byte := is.flatMap s.block

/-- The answer to one supported request, in the connection state it needs; what follows 4 header bytes is read by the layout of
SPDM 1.2 (R555, R556). -/
def State.spdmAnswer (s : State) (p : Path) (req : List Byte) : State :=
  let st := s.spdmState p
  let out := fun (t : State) (rsp : List Byte) => t.spdmPut p st rsp
  match byteAt req 1 with
  | 0x84 => s.spdmPut p 1 (spdmMsg 0x04 0 0 [0, 1, 0, 0x12] 0x10)
  | 0xE1 =>
    if st ≠ 1 then s.spdmError p 4
    else s.spdmPut p 2 (spdmMsg 0x61 0 0 ([0, 14, 0, 0] ++ leBytes 0x16 4 ++ leBytes 4096 4 ++ leBytes 4096 4))
  | 0xE3 =>
    if st ≠ 2 then s.spdmError p 4
    else
      let asym := byteAt req 9 / 2 % 2
      let hash := byteAt req 12 / 64 % 2
      if asym = 0 ∧ hash = 0 then s.spdmError p 1
      else s.spdmPut p 3 (spdmMsg 0x63 0 0 (leBytes 36 2 ++ [1, 0] ++ leBytes 0x80 4 ++ leBytes (512 * asym) 4 ++ leBytes (64 * hash) 4
        ++ List.replicate 16 0))
  | 0x81 =>
    if st ≠ 3 then s.spdmError p 4
    else match s.sec.chain with
      | some c => out s (spdmMsg 0x01 0 1 (sm3 c))
      | none => out s (spdmMsg 0x01 0 0 [])
  | 0x82 =>
    if st ≠ 3 then s.spdmError p 4
    else match s.sec.chain with
      | none => s.spdmError p 1
      | some c =>
        let off := byteAt req 4 + 256 * byteAt req 5
        let len := min (byteAt req 6 + 256 * byteAt req 7) (min 4088 (c.length - off))
        if byteAt req 2 ≠ 0 ∨ c.length ≤ off then s.spdmError p 1
        else out s (spdmMsg 0x02 0 0 (leBytes len 2 ++ leBytes (c.length - off - len) 2 ++ slice c off len))
  | 0x83 =>
    if st ≠ 3 then s.spdmError p 4
    else match s.sec.chain with
      | none => s.spdmError p 1
      | some c =>
        let kind := byteAt req 3
        if byteAt req 2 ≠ 0 ∨ (kind ≠ 0 ∧ kind ≠ 1 ∧ kind ≠ 255) then s.spdmError p 1
        else
          let sum := if kind = 0 then [] else sm3 (s.blocks (if kind = 1 then [1, 2, 3, 4, 5] else [1, 2, 3, 4, 5, 6, 7]))
          out s.drew (spdmMsg 0x03 0 1 (sm3 c ++ slice (s.freeStr 96) 0 32 ++ sum ++ [0, 0] ++ slice (s.freeStr 96) 32 64))
  | 0xE0 =>
    if st ≠ 3 then s.spdmError p 4
    else
      let signed := byteAt req 2 % 2 = 1
      let op := byteAt req 3
      let is := if op = 0 then [] else if op = 255 then [1, 2, 3, 4, 5, 6, 7] else [op]
      if (signed ∧ s.sec.chain.isNone) ∨ (7 < op ∧ op ≠ 255) then s.spdmError p 1
      else
        let d := s.blocks is
        out s.drew (spdmMsg 0x60 (if op = 0 then 7 else 0) 0 (leBytes is.length 1 ++ leBytes d.length 3 ++ d
          ++ slice (s.freeStr 96) 0 32 ++ [0, 0] ++ (if signed then slice (s.freeStr 96) 32 64 else [])))
  | _ => s.spdmError p 7

/-- A whole request message written to SPDM_REQUEST is answered; one without a header is invalid (R554). -/
def State.spdm (s : State) (p : Path) (req : List Byte) : State :=
  if req.length < 4 then s.spdmError p 1 else s.spdmAnswer p req

/-- The request codes that the responder supports (R555). -/
def spdmCodes : List Nat := [0x84, 0xE1, 0xE3, 0x81, 0x82, 0x83, 0xE0]

/-- A request arrives that satisfies `ok`. -/
def State.spdmRow (s : State) (p : Path) (req : List Byte) (ok : Nat → Bool) : Res :=
  .next (whenever (s.answers p && !s.latchOnly && ok (byteAt req 1)) s (s.spdm p req))

/-- GET_VERSION (R555). -/
def execGetVersion (path : Path) (req : List Byte) (s : State) : Res := s.spdmRow path req (· == 0x84)
/-- GET_CAPABILITIES (R555). -/
def execGetCapabilities (path : Path) (req : List Byte) (s : State) : Res := s.spdmRow path req (· == 0xE1)
/-- NEGOTIATE_ALGORITHMS (R555). -/
def execNegotiateAlgorithms (path : Path) (req : List Byte) (s : State) : Res := s.spdmRow path req (· == 0xE3)
/-- GET_DIGESTS (R555). -/
def execGetDigests (path : Path) (req : List Byte) (s : State) : Res := s.spdmRow path req (· == 0x81)
/-- GET_CERTIFICATE (R555, R556). -/
def execGetCertificate (path : Path) (req : List Byte) (s : State) : Res := s.spdmRow path req (· == 0x82)
/-- CHALLENGE (R555, R556). -/
def execChallenge (path : Path) (req : List Byte) (s : State) : Res := s.spdmRow path req (· == 0x83)
/-- GET_MEASUREMENTS (R555, R556). -/
def execGetMeasurements (path : Path) (req : List Byte) (s : State) : Res := s.spdmRow path req (· == 0xE0)
/-- SPDM_UNSUPPORTED: any other request code (R555). -/
def execSpdmUnsupported (path : Path) (req : List Byte) (s : State) : Res :=
  s.spdmRow path req fun c => !spdmCodes.contains c

/-! ### The alarm (R557 to R559) -/

/-- TAMPER: `TAMPER_N` is low for 100 µs while the module is powered (R557). -/
def execTamper (s : State) : Res := .next (whenever s.power.regsOn s (s.alarm 0))
/-- VOLTAGE_GLITCH (R557). -/
def execVoltageGlitch (s : State) : Res := .next (whenever s.power.regsOn s (s.alarm 1))
/-- CLOCK_GLITCH (R557). -/
def execClockGlitch (s : State) : Res := .next (whenever s.power.regsOn s (s.alarm 2))
/-- COLD: a die sensor below −20 °C (R557). -/
def execCold (s : State) : Res := .next (whenever s.power.regsOn s (s.alarm 3))

/-- ALARM_SOURCE_INACTIVE: the condition of a source 0 to 3 ceases (R557). -/
def execAlarmSourceInactive (source : Nat) (s : State) : Res := onPart "alarm source" 4 source (s.calm (· == source))

/-- ALARM_CLEAR: sources 4 and 5 are no longer active; with no source active the alarm's cause of the safe state clears (R557,
R559). -/
def execAlarmClear (path : Path) (tid : Nat) (s : State) : Res :=
  .next (s.request path tid 0x8000 9 2 fun s =>
    let t := s.calm fun a => a == 4 || a == 5
    .ok (if t.sec.active.isEmpty then
      { t with faults := { t.faults with f4 := t.faults.f4.filter fun x => x.1 % 2 ^ 16 != 0x4805 } } else t))

/-! ### Tokens and the debug port (R560 to R562, R568) -/

/-- The digests of the keys that may sign a debug token (R561). -/
def State.debugKeys (s : State) : List (List Byte) :=
  let k := s.od 0x8000 0x20
  if k = 0 then [Config.debugDigest] else [Config.debugDigest, leBytes k 32]

/-- Whether a token is genuine: this module's serial and epoch, the current nonce, and a signature by one of the keys (R561). -/
def State.tokenGood (s : State) (keys : List (List Byte)) (token : List Byte) : Bool :=
  let key := slice token 64 64
  token.length == 192 && slice token 0 32 == s.sec.nonce && slice token 32 16 == s.sec.serial
    && leNat (slice token 48 4) == s.sec.epoch.toNat && (slice token 53 11).all (· == 0)
    && keys.contains (sm3 key) && Config.sm2Verify key (slice token 0 128) (slice token 128 64)

/-- A new nonce, after every token (R561). -/
def State.newNonce (s : State) : State := { s.drew with sec := { s.sec with nonce := s.freeStr 32 } }

/-- A rejected token is counted and reported; the third in one power-up is an alarm (R557, R561, R568). -/
def State.rejectToken (s : State) : State :=
  let n := s.sec.denied + 1
  let t := (({ s with sec := { s.sec with denied := n } } : State).sticky 0x8000 1 3).report 0x0807 0 0
  if n = 3 then t.alarm 4 else t

/-- A debug token opens its level: level 1 at once, level 2 once response 2 has been carried out; or it is rejected (R561, R562). -/
def State.debugToken (s : State) (token : List Byte) : State :=
  let level := byteAt token 52
  if !s.tokenGood s.debugKeys token ∨ (level ≠ 1 ∧ level ≠ 2) then s.rejectToken.newNonce
  else if level = 1 then
    ((({ s with sec := { s.sec with debug := max 1 s.sec.debug } } : State).sticky 0x8000 1 2).report 0x1809 0 0).newNonce
  else
    ((({ s with sec := { s.sec with zeroing := true, opening := true } } : State).sticky 0x8000 1 0).report 0x4805 0 0 4).newNonce

/-- DEBUG_TOKEN (R561). -/
def execDebugToken (path : Path) (tid : Nat) (token : List Byte) (s : State) : Res :=
  .next (s.request path tid 0x8000 0x22 2 fun s =>
    guardAct (token.length == 192) abLength (.ok (s.debugToken token)))

/-- What an access through the debug port does where level 2 is open; reads change nothing (R560). -/
def State.debugAct (s : State) (a : DebugReq) : State :=
  match a with
  | .halt c => { s with sec := { s.sec with halted := addTo s.sec.halted c } }
  | .resume c => { s with sec := { s.sec with
      halted := s.sec.halted.filter fun (x : Nat) => x != c, single := s.sec.single.filter fun (x : Nat) => x != c } }
  | .single c => whenever (s.sec.halted.contains c) s { s with sec := { s.sec with single := addTo s.sec.single c } }
  | .writeMem addr d => whenever (decide (addr + d.length ≤ 2 ^ 40)) s (s.putBytes addr d)
  | .writeLocal c addr d => whenever (decide (addr + d.length ≤ 0x1C000)) s (s.onCoreState c fun k => k.pokeChecked addr d)
  | .writeReg c r v => s.onCoreState c fun k => k.setReg r v
  | _ => s

/-- DEBUG_ACCESS: below level 2 the port changes nothing (R560). -/
def execDebugAccess (acc : DebugReq) (s : State) : Res :=
  .next (whenever (s.sec.debug == 2) s (s.debugAct acc))

end Sys2Proof.Machine
end

