-- ==== Sys2Proof/Machine/DictRead.lean ====
section
/-!
DEFINITION. Machine/DictRead.lean: what the entries of the object dictionary read as (chapter 21 and the dictionary tables of
every other chapter).
-/

namespace Sys2Proof.Machine

/-- A number with a bit set for each number of a list, below `n`, that satisfies a predicate. -/
def bitSet (n : Nat) (p : Nat → Bool) : Nat := ((List.range n).filter p).foldl (fun a i => a + 2 ^ i) 0

/-- Two's complement in `n` bits. -/
def twos (n : Nat) (i : Int) : Nat := (i % (2 ^ n : Int)).toNat

/-- THROTTLE: the level in force on each compute die (R524). -/
def State.throttleWord (s : State) : Nat := (List.range 8).foldl (fun a d => a + (s.throtOf d).level * 2 ^ (4 * d)) 0

/-- OBJECTS (R436): contexts with context 0, queues, memory objects and fences. -/
def State.objects (s : State) : Nat :=
  s.host.ctxs.length + 1 + 2 ^ 11 * s.host.queues.length + 2 ^ 24 * s.host.mems.length + 2 ^ 41 * s.host.fences.length

/-- LANES_Ee (R254). -/
def State.lanesWord (s : State) (e : Nat) : Nat :=
  let gs := (List.range 16).map fun g => get s.trellis.groups (16 * e + g) LaneGroup.reset
  let dead := (gs.filter (·.retired)).length
  2 ^ 16 * (16 - dead) + 2 ^ 8 * dead + sumN (gs.map (·.spares))

/-- PORT_GROUPS (R383). -/
def State.portGroups (s : State) : Nat :=
  ([0, 1, 2, 3] : List Nat).foldl (fun a p => a + (if s.portUp p then 4 - (s.sport p).retired.length else 0) * 16 ^ p) 0

/-- SAFE_CAUSE: one bit per row of R468 (R483). -/
def State.safeCauses (s : State) : Nat :=
  bitSet 5 fun r => (s.faults.f4.any fun x => x.1 / 2 ^ 16 == r) || (r == 1 && s.coh.dead) || (r == 2 && s.seq.instances == 0)
    || (r == 4 && s.faults.causes.contains 4)

/-- UNACKED: records that need an acknowledgement and have none (R464, R483). -/
def State.unacked (s : State) : Nat := (s.faults.recs.filter fun r => !r.ack && (r.timer || r.unh)).length

/-- POOL_GIB: the GiB that meet no carve-out and no area of the module (R438, R455). -/
def State.poolGib (s : State) : Nat :=
  ((List.range 1024).filter fun g => (s.notGeneral 0).all fun x => !meets (g * 2 ^ 30) (2 ^ 30) x.1 x.2).length

/-- SLICE_ENTRY of a context (R443). -/
def State.sliceEntry (s : State) (c : Nat) : Nat :=
  if !s.isCtx c then 0
  else
    let x := s.ctx c
    2 ^ 63 + 2 ^ 43 * (x.pasid % 2 ^ 20) + 2 ^ 37 * (x.part % 2 ^ 6) + 2 ^ 35 * (x.kind % 4) + 2 ^ 34 * b2n x.frozen + c % 2 ^ 10

/-- PART_p: attributes in the order of the group, then sequences and frames held; zero for a partition that does not exist
(R437, R438, R455). -/
def State.partBytes (s : State) (p : Nat) : List Byte :=
  let x := if p = 0 then { Part.reset with seqMax := 4096 } else get s.parts.parts p Part.reset
  if p ≠ 0 ∧ (find? s.parts.parts p).isNone then leBytes 0 32
  else leBytes p 2 ++ leBytes x.seqMin 2 ++ leBytes x.seqMax 2 ++ leBytes x.barrelMin 4
    ++ ((List.range 4).flatMap fun i => let c := x.carves.getD i (0, 0); leBytes (c.1 * 2 ^ 16 + c.2) 4)
    ++ leBytes (s.heldBy p) 2 ++ leBytes (s.framesHeld p) 4

/-- DEFECT_MAP_d: for each physical plot the lowest logical plot that uses one of its cores, or 0xFFFF (R545). -/
def State.defectMap (s : State) (d : Nat) : List Byte :=
  let m := s.dieMap d
  let phys := (List.range 10000).map fun k => (k, m.phys k)
  (List.range 640).flatMap fun i => leBytes (match phys.find? fun x => x.2 / 16 == i with | some x => x.1 / 16 | none => 0xFFFF) 2

/-- "CHD-8/1024-LQ" (R588). -/
def orderCode : Nat := leNat [67, 72, 68, 45, 56, 47, 49, 48, 50, 52, 45, 76, 81]

/-- The value of an entry that is read from the module's state, as a number; none for one that is stored. A value that the spec
leaves open, a sensor's reading among them, is free (assumption 2). -/
def State.liveNum (s : State) (p : Path) (idx sub : Nat) : Option Nat :=
  let free := s.freeVal.toNat
  match idx, sub with
  | 0x1000, 2 => some orderCode
  | 0x1000, 4 => some (leNat s.sec.serial)
  | 0x1000, 5 => some s.bring.straps
  | 0x1000, 6 => some (leNat (slice Config.fingerprint 0 32))
  | 0x1100, 2 => some s.host.width
  | 0x1100, 3 => some s.host.link
  | 0x1100, 4 => some s.objects
  | 0x1100, 0x20 => some (s.level p)
  | 0x1200, 1 => some s.now
  | 0x1200, 2 => some (if s.od 0x1200 3 = 1 then twos 32 ((free % 400001 : Nat) - 200000) else 0)
  | 0x2000, 2 => some free
  | 0x2000, 3 => some (free / 2 ^ 16)
  | 0x2000, 4 => some (free / 2 ^ 32)
  | 0x2000, 5 => some (free / 2 ^ 48)
  | 0x2000, 6 => some s.inputW
  | 0x2000, 7 => some (bitSet 14 (fun b => !s.power.phases.contains (0, b)) + 2 ^ 16 * bitSet 14 fun b => !s.power.phases.contains (1, b))
  | 0x2000, 8 => some s.power.tileLost
  | 0x2000, 9 => some free
  | 0x2100, 4 => some s.power.agreed
  | 0x2100, 5 => some s.power.request
  | 0x2100, 7 => some s.throttleWord
  | 0x2300, 1 => some s.ageHours
  | 0x3100, 2 => some s.faults.lastNum.toNat
  | 0x3100, 4 => some s.faults.recovery.toNat
  | 0x3100, 6 => some s.safeCauses
  | 0x3100, 7 => some (min 255 s.exits24)
  | 0x3100, 8 => some (bitSet 10 s.faults.diesOut.contains)
  | 0x3100, 0x11 => some (match s.faults.recs.find? fun r => r.num.toNat == s.od 0x3100 0x10 with
      | some r => leNat r.bytes
      | none => leNat (s.freeStr 32))
  | 0x3100, 0x12 => some s.unacked
  | 0x3100, 0x14 => some (leNat (s.faults.flash.getD (s.od 0x3100 0x13) (s.freeStr 32)))
  | 0x3200, 0x10 => some s.faults.injState
  | 0x4000, 2 => some s.cellar.ceiling
  | 0x4000, 3 => some s.cellar.live
  | 0x4000, 4 => some s.cellar.wbase
  | 0x4000, 5 => some s.cellar.wlen
  | 0x4000, 6 => some (bitSet 512 fun q => !s.cellar.dead.contains q)
  | 0x4100, 0x50 => some (s.cellar.lines.filter fun x => x.hold.isSome).length
  | 0x4200, 4 => some (if s.writeOp true = 5 then 1 else 2)
  | 0x4200, 7 => some (s.cellar.lines.filter fun x => x.dir != .di).length
  | 0x5000, 2 => some (bitSet 16 s.stackUp)
  | 0x5000, 4 => some (s.hbm.spareGib / 4 - s.hbm.spares.length)
  | 0x5000, 0x41 => some (match s.hbm.spares.getLast? with | some x => x.copied | none => 0)
  | 0x5100, 2 => some (bitSet 16 fun n => s.stackUp n && !(s.stack n).sauDown)
  | 0x6000, 3 => some s.trellis.deadR.length
  | 0x6100, 2 => some s.portGroups
  | 0x6100, 3 => some (b2n s.span.hold)
  | 0x6200, 0x10 => some s.rackFree
  | 0x6200, 0x11 => some s.span.racks.length
  | 0x6200, 0x12 => some (s.seq.table.filter fun x => x.2.st != .free && x.2.racked).length
  | 0x7000, 2 => some (bitSet 64 fun n => n == 0 || (find? s.parts.parts n).isSome)
  | 0x7000, 3 => some (bitSet 64 fun n => n == 0 || (match find? s.parts.parts n with | some x => !x.resetting | none => false))
  | 0x7000, 4 => some s.poolGib
  | 0x7000, 0x61 => some (s.sliceEntry (s.od 0x7000 0x60))
  | 0x7100, 2 => some s.migState
  | 0x7100, 0x10 => some s.dirtyNow.length
  | 0x7200, 2 => some s.slotsUsed
  | 0x7200, 3 => some s.seq.step
  | 0x7200, 0x10 => some s.freeFrames
  | 0x7200, 0x11 => some s.inFlight
  | 0x7200, 0x12 => some (match s.host.plan with | some x => x.dirBase | none => 0)
  | 0x7200, 0x20 => some (leNat ((s.entry (s.od 0x7200 0x1F)).bytes (s.od 0x7200 0x1F)))
  | 0x8000, 2 => some s.sec.epoch.toNat
  | 0x8000, 3 => some s.sec.minSvn
  | 0x8000, 4 => some (s.sec.runSvn * 2 ^ 32 + s.sec.runVersion)
  | 0x8000, 5 => some s.sec.debug
  | 0x8000, 6 => some (bitSet 6 s.sec.active.contains)
  | 0x8000, 0x21 => some (leNat s.sec.nonce)
  | 0xA000, 1 => some s.bring.state
  | 0xA000, 2 => some s.bring.straps
  | 0xA000, 4 => some (leNat ((List.range 16).flatMap fun i => leBytes (min 65535 (s.bring.times.getD i 0)) 2))
  | 0xA000, 5 => some (leNat ((List.range 8).flatMap fun d => leBytes (get s.bring.newDef d 0) 2))
  | 0xF000, 1 => some (s.bring.recFactory * 2 ^ 32 + s.bring.recService)
  | 0xF000, 2 => some (bitSet 2 s.bring.flashOk.contains)
  | _, _ => none

/-- The same for entries that come in numbered runs. -/
def State.liveRun (s : State) (idx sub : Nat) : Option Nat :=
  match idx with
  | 0x2200 => if 0x10 ≤ sub then some (twos 8 (get s.power.temps (sub - 0x10) 0)) else none
  | 0x2300 =>
    if 0x30 ≤ sub then some (s.spareCores (sub - 0x30)).length
    else if 0x20 ≤ sub then some (twos 16 (get s.power.slack (sub - 0x20) 12))
    else if 0x10 ≤ sub then some (get s.power.vcore (sub - 0x10) 6500)
    else none
  | 0x5000 =>
    if 0x50 ≤ sub then some (s.stack (sub - 0x50)).loop
    else if sub = 0x40 ∨ sub < 0x10 then none
    else if 0x30 ≤ sub then some (s.stack (sub - 0x30)).level
    else if 0x20 ≤ sub then some (twos 8 (s.stack (sub - 0x20)).thresh)
    else some (twos 8 (s.stack (sub - 0x10)).temp)
  | 0x6000 => if 0x20 ≤ sub then some (s.lanesWord (sub - 0x20)) else none
  | 0x7000 => if 0x20 ≤ sub ∧ sub < 0x60 then some (leNat (s.partBytes (sub - 0x20))) else none
  | 0xA000 =>
    if 0x10 ≤ sub ∧ sub < 0x14 then
      let x := s.sport (sub - 0x10)
      some (x.seenId * 2 ^ 16 + x.seenPort * 2 ^ 14 + b2n x.ok)
    else none
  | 0xF000 => if 0x10 ≤ sub then some (leNat (s.defectMap (sub - 0x10))) else none
  | _ => none

/-- The value of an entry: staged where asked for and staged, else live, else the committed one (R583). -/
def State.entryNum (s : State) (p : Path) (idx sub : Nat) (staged : Bool) : Nat :=
  match s.liveNum p idx sub with
  | some v => v
  | none => match s.liveRun idx sub with
    | some v => v
    | none => if staged then s.groupVal (odKey idx sub) else s.od idx sub

/-- The bytes that a read of an entry returns: its value in its size; zeros, or an empty DOMAIN, for a write-only entry; the
highest subindex at subindex 0 (R6, R569, R570, R587). -/
def State.readBytes (s : State) (p : Path) (idx sub : Nat) (staged : Bool) (r : Nat × Nat × Nat) : List Byte :=
  if sub = 0 then leBytes (highSub ((dictIndex idx).getD [])) 1
  else if r.2.2 = 2 then leBytes 0 r.2.1
  else if r.1 = 10 then (match p with | .can => s.sec.rspC | .mailbox => s.sec.rspM)
  else leBytes (s.entryNum p idx sub staged) r.2.1

end Sys2Proof.Machine
end

