-- ==== Sys2Proof/Machine/Dictionary.lean ====
section
/-!
DEFINITION. Machine/Dictionary.lean: the commands of the object dictionary (chapter 21): reads, writes, agreement groups,
segmented transfers, levels, and what the CAN FD port does on its own.
-/

namespace Sys2Proof.Machine

/-! ### Capacities (R573, R575, R580) -/

/-- Data bytes of an expedited message. -/
def capacity : Path → Nat | .can => 56 | .mailbox => 2032
/-- Data bytes of a full segment. -/
def segBytes : Path → Nat | .can => 62 | .mailbox => 2038
/-- W: the segments that a sender may run ahead of the last acknowledged one. -/
def windowOf : Path → Nat | .can => 16 | .mailbox => 1
/-- The segments of a transfer. -/
def Xfer.count (x : Xfer) (p : Path) : Nat := max 1 ((x.total + segBytes p - 1) / segBytes p)

/-! ### Sticky bits that name a condition (R480) -/

/-- The bits of a W1C entry whose condition still holds. -/
def State.heldBits (s : State) (idx sub : Nat) : Nat :=
  let on := fun (l : List (Nat × Bool)) => l.foldl (fun a x => if x.2 then a + 2 ^ x.1 else a) 0
  let feeds := [s.power.feedA, s.power.feedB]
  let hbms := (List.range 16).map s.stack
  let ports := ([0, 1, 2, 3] : List Nat).filter fun p => s.expected p && decide (15 ≤ s.bring.row)
  match idx, sub with
  | 0x1100, 1 => on [(1, s.host.link == 0), (2, s.host.width == 8)]
  | 0x1100, 0x24 => on [(0, s.dict.busOff), (1, s.dict.passive), (3, s.dict.silent)]
  | 0x2000, 1 => on [(0, feeds.any (·.low)), (1, !s.power.feedA.on), (2, !s.power.feedB.on), (3, feeds.any (·.reversed)),
      (4, feeds.any (·.overvolt)), (5, feeds.any (·.fuse)), (6, !s.power.phases.isEmpty), (7, s.power.tileLost != 0),
      (8, decide (20 ≤ s.phasesLeft ∧ s.phasesLeft < 24))]
  | 0x2100, 8 => on [(5, s.power.holdover)]
  | 0x2300, 3 => on [(1, s.power.vcore.any fun x => decide (8500 ≤ x.2))]
  | 0x3100, 1 => on [(0, s.faults.safe), (1, s.faults.replace), (2, !s.faults.diesOut.isEmpty), (3, !s.faults.diesLost.isEmpty),
      (4, !s.faults.standby), (5, s.faults.recs.any fun r => r.unh && !r.ack), (6, s.faults.latched),
      (8, s.faults.injArmed.isSome)]
  | 0x4100, 1 => on [(1, !fits s.cellar.wlen s.cellar.live s.cellar.ceiling)]
  | 0x4200, 8 => on [(1, s.coh.dead)]
  | 0x5000, 1 => on [(4, hbms.any fun k => decide (2 ≤ k.level)), (5, hbms.any fun k => !k.avail),
      (6, hbms.any (·.lost)), (8, !s.hbm.torn.isEmpty)]
  | 0x5100, 1 => on [(0, hbms.any (·.sauDown))]
  | 0x6000, 1 => on [(0, !s.trellis.deadR.isEmpty), (1, s.trellis.groups.any fun x => x.2.retired), (2, !s.trellis.lost.isEmpty),
      (5, !s.trellis.deadE.isEmpty)]
  | 0x6100, 1 => on [(0, s.span.ports.any fun x => !x.2.retired.isEmpty), (1, ports.any fun p => !s.portUp p),
      (2, ports.any fun p => (s.sport p).seen && !s.helloOk p), (3, !s.span.lost.isEmpty), (4, s.od 0x1200 3 == 3)]
  | 0xA000, 3 => on [(1, !([0, 1] : List Nat).all s.bring.flashOk.contains), (3, !s.bring.unusable.isEmpty)]
  | _, _ => 0

/-- A write of ones to sticky bits clears those whose condition no longer holds (R6, R480). -/
def State.clearSticky (s : State) (idx sub mask : Nat) : State :=
  let v := s.od idx sub
  s.setOd idx sub (v - (v &&& mask) + (v &&& mask &&& s.heldBits idx sub))

/-! ### Agreement (R585) -/

/-- The form of INJ_ADDR for a target, and the masks permitted for it (R478). -/
def injForm (target addr mask : Nat) : Bool :=
  match target with
  | 1 => decide (addr < 2 ^ 40 ∧ mask < 8) && within 1 2 (ones8 mask)
  | 2 => decide (addr < 2 ^ 40 ∧ mask < 256) && within 1 5 (ones8 mask)
  | 3 =>
    let loc := addr / 2 ^ 36
    decide (addr < 2 ^ 53 ∧ addr % 2 ^ 36 < 0x1E000 ∧ addr % 8 = 0 ∧ loc / 2 ^ 9 % 2 ^ 5 < 20) && within 1 2 (ones8 mask)
  | 4 => decide (addr < 256 ∧ addr % 16 < 14 ∧ mask = 0)
  | 5 => decide (addr < 16 ∧ mask = 0)
  | 6 => decide (addr = 0 ∧ mask = 0)
  | 7 => decide (addr < 512 ∧ mask = 0)
  | 8 => decide (addr < 8 ∧ mask = 0)
  | 9 => decide (addr < 8 ∧ mask = 0)
  | _ => false

/-- Whether the members of a group agree, the staged ones with the unchanged ones (R197, R224, R242, R277, R339, R383, R384,
R477, R524, R540, R585). -/
def State.agrees (s : State) (c : Nat) : Bool :=
  let v := s.groupVal
  match c with
  | 0x21000F => v 0x210002 % 25 == 0 && within 1000 (if v 0x210001 = 0 then 4000 else 4400) (v 0x210002)
  | 0x32000F => injForm (v 0x320001) (v 0x320002) (v 0x320003)
  | 0x40001F => decide (v 0x400011 ≤ 512 * 2 ^ v 0x400010)
  | 0x42000F => decide (10 * v 0x420001 ≤ v 0x420002)
  | 0x50000F => v 0x500003 % 4 == 0 && decide (v 0x500003 ≤ 32) && v 0x500005 % 2 ^ 30 == 0 && v 0x500006 % 2 ^ 30 == 0
      && decide (v 0x500005 + v 0x500006 ≤ (1024 - v 0x500003) * 2 ^ 30)
  | 0x60000F => (List.range 14).all fun e =>
      let r := v (0x600010 + e)
      r / 2 ^ 24 % 256 + r / 2 ^ 16 % 256 + r / 2 ^ 8 % 256 + r % 256 == 16 && decide (2 ≤ r % 256)
  | 0x61000F => within 1 256 (v 0x610006) && within 1 256 (v 0x610007) && decide (v 0x610006 * v 0x610007 ≤ 32768)
      && decide (v 0x610008 < v 0x610006 ∧ v 0x610009 < v 0x610007)
  | 0x62000F => v 0x620002 % 2 ^ 30 == 0 && v 0x620003 % 2 ^ 30 == 0 && decide (v 0x620004 ≤ 16384)
  | 0x72000F => decide (v 0x720006 ≤ v 0x720007 ∧ v 0x720007 ≤ v 0x720005 ∧ v 0x720005 ≤ v 0x720004 ∧ v 0x720004 ≤ 16384)
      && within 1 64 (v 0x720008)
  | 0x90001F => v 0x900010 % (64 * 2 ^ v 0x900011) == 0
  | 0xA0000F =>
    let nx := v 0xA00009
    let ny := v 0xA0000A
    let x := v 0xA00008 / 256
    let y := v 0xA00008 % 256
    let mask := v 0xA0000B
    within 1 256 nx && within 1 256 ny && decide (nx * ny ≤ 32768) && decide (x < nx ∧ y < ny)
      && (nx != 1 || mask % 4 == 0) && (ny != 1 || mask / 4 % 4 == 0)
  | _ => true

/-- Whether the injection of the staged group is refused in the current state (R477). -/
def State.injRefused (s : State) : Bool :=
  let target := s.groupVal 0x320001
  let addr := s.groupVal 0x320002
  let coded := fun (sa : Nat) => (s.codeChunks sa).isSome && decide (2 ≤ s.erasures sa)
  s.faults.safe || ((target == 8 || target == 9) && s.faults.diesOut.any fun d => decide (d < 8))
    || ((target == 1 || target == 2) && coded (s.store addr)) || (target == 3 && (s.coreOfLoc (addr / 2 ^ 36)).isNone)

/-- The injection of the committed group is armed and replaces any other (R477, R484). -/
def State.armInjection (s : State) : State :=
  let target := s.od 0x3200 1
  let addr := s.od 0x3200 2
  let mask := s.od 0x3200 3
  let late := s.od 0x3200 4
  let t := s.disarm.sticky 0x3100 1 8
  let t := { t with faults := { t.faults with injArmed := some (target, addr, mask, late), injState := 1 } }
  match target, late, t.coreOfLoc (addr / 2 ^ 36) with
  | 3, 1, some c => t.onCoreState c fun k => { k with injNext := some (addr % 2 ^ 17, ones8 mask) }
  | _, _, _ => t

/-- What a committed group does at once (R585): a request of the clocks, an injection, a job in the job hold, a topology. -/
def State.groupEffect (s : State) (c : Nat) : State :=
  match c with
  | 0x21000F => ({ s with power := { s.power with mode := s.od 0x2100 1, limit := s.od 0x2100 2 } } : State).refreshRequest
  | 0x32000F => s.armInjection
  | 0x61000F =>
    let job := (List.range 9).map fun i => s.od 0x6100 (5 + i)
    whenever s.span.hold s
      (let moved := job.take 5 != s.span.job.take 5
       let t : State := { s with span := { s.span with job := job, tabled := true, replacing := s.span.replacing || moved } }
       t.floodDigest.compareDigests t.ringTargets)
  | 0xA0000F =>
    let t := ([0, 1, 2, 3] : List Nat).foldl (fun (t : State) p => t.checkPort p) (s.setOd 0xA000 0xC 1)
    t.topoCheck
  | _ => s

/-- A commit: checked, and carried out or, for a group kept in flash, written there first (R242, R477, R540, R570, R583). -/
def State.commitGroup (s : State) (p : Path) (c : Nat) : Act :=
  if c = 0x70001F then s.partCommit p
  else guardAct (!s.foreign p c) abClaimed (guardAct (s.agrees c) abDisagree (guardAct (c != 0x32000F || !s.injRefused) abState
    (.ok ((s.commitVals c).groupEffect c))))

/-! ### Writes (R570, R574) -/

/-- A value is written to a plain entry, with what the entry's rule says happens then (R549, R570). -/
def State.putEntry (s : State) (idx sub v : Nat) : State :=
  let t := s.setOd idx sub v
  if idx = 0x8000 then t.extendConfig else t

/-- The write of an entry kept in flash begins: it is answered once the devices hold the values (R570, R581). -/
def State.flashWrite (s : State) (p : Path) (tid key : Nat) (vals : List (Nat × Nat)) : State :=
  { s with dict := { s.dict with flashWait := s.dict.flashWait ++ [(p, tid, key, vals)] } }

/-- The commands of the boot, power, fault, engine, link and partition entries (R570). -/
def State.actionLow (s : State) (p : Path) (tid idx sub : Nat) (d : List Byte) : Option (Except Nat Res) :=
  let v := leNat d
  let one := fun (r : Res) => some (if v = 1 then Except.ok r else .error abRange)
  match idx, sub with
  | 0x1100, 0x11 => one (execQueue0Create p tid s)
  | 0x2100, 3 => some (.ok (execPowerCap p tid v s))
  | 0x3000, 0xE => one (execSafeEnter p tid s)
  | 0x3000, 0xF => one (execSafeExit p tid s)
  | 0x3100, 3 => some (.ok (execFaultAck p tid v s))
  | 0x3100, 5 => some (match v with
      | 1 => .ok (execAdmitResume p tid s)
      | 2 => .ok (execAdmitFresh p tid s)
      | _ => .error abRange)
  | 0x5000, 0xB => some (.ok (execLoopback p tid v (s.freeVal.toNat % 2 ^ 32) s.drew))
  | 0x7000, 0x1E => some (.ok (execPartReset p tid v s))
  | 0x7000, 0x1F => if v = 2 then some (.ok (execPartDestroy p tid s)) else none
  | _, _ => none

/-- The commands of the migration, domain, security and bring-up entries (R570). -/
def State.actionHigh (s : State) (p : Path) (tid idx sub : Nat) (d : List Byte) : Option (Except Nat Res) :=
  let v := leNat d
  let one := fun (r : Res) => some (if v = 1 then Except.ok r else .error abRange)
  match idx, sub with
  | 0x7100, 0xF => some (match v with
      | 1 => .ok (execMigLog p tid s)
      | 2 => .ok (execMigPass p tid s)
      | 3 => .ok (execMigFreeze p tid s)
      | 4 => .ok (execMigFinal p tid s)
      | 5 => .ok (execMigThaw p tid s)
      | 6 => .ok (execMigRestore p tid (Config.freeBytes s.freeCtr) (Config.freeBytes (s.freeCtr + 1)) s.drew.drew)
      | 7 => .ok (execMigAbort p tid s)
      | _ => .error abRange)
  | 0x7200, 0x30 => some (.ok (execBoundNs p tid v s))
  | 0x8000, 8 => one (execEpochAdvance p tid s)
  | 0x8000, 9 => some (.ok (execAlarmClear p tid s))
  | 0x8000, 0xA => some (.ok (execSvnCommit p tid s))
  | 0x8000, 0x22 => some (.ok (execDebugToken p tid d s))
  | 0x8000, 0x30 => some (.ok (execCertInstall p tid d s))
  | 0x8000, 0x50 => some (.ok (execFwImage p tid d s))
  | 0x8000, 0x51 => one (execFwUpdate p tid s)
  | 0xA000, 0x20 => some (.ok (execDieTest p tid v s))
  | _, _ => none

/-- A write to an entry that triggers an action has the effect of the action's own row; none for an entry of another kind, and an
abort code for a value that names no action. -/
def State.action (s : State) (p : Path) (tid idx sub : Nat) (d : List Byte) : Option (Except Nat Res) :=
  if idx ≤ 0x7000 then s.actionLow p tid idx sub d else s.actionHigh p tid idx sub d

/-- The next state of a command, or the present one. -/
def State.took (s : State) : Res → State
  | .next t => t
  | _ => s

/-- Lower levels only: DTP_LEVEL (R567, R589). -/
def State.dropLevel (s : State) (p : Path) (level : Nat) : Act := guardAct (decide (level ≤ s.level p)) abState (.ok (s.setLevel p level))

/-- The keys that may sign a token for the manager level (R568). -/
def State.managerKeys (s : State) : List (List Byte) :=
  let k := s.od 0x1100 0x26
  if k = 0 then s.debugKeys else s.debugKeys ++ [leBytes k 32]

/-- A grant token raises the path to the level that it names, or is rejected; the nonce is renewed after every token (R567,
R568, R593). -/
def State.grantLevel (s : State) (p : Path) (token : List Byte) : State :=
  let raise := fun (n code : Nat) => if s.level p < n then (s.setLevel p n).report code 0 0 else s
  (match byteAt token 52 with
    | 0x11 => if s.tokenGood s.managerKeys token then raise 1 0x0883 else s.rejectToken
    | 0x12 => if s.tokenGood s.debugKeys token then raise 2 0x1885 else s.rejectToken
    | _ => s.rejectToken).newNonce

/-- The checks of a write that need only its length: the entry, its access, the level, the length, and a DOMAIN entry that the
other path is writing (R566, R570, R582). -/
def State.mayWrite (s : State) (p : Path) (idx sub len : Nat) : Except Nat (Nat × Nat × Nat) :=
  match entryAt idx sub with
  | .error e => .error e
  | .ok (typ, size, acc) =>
    let other := s.xfer (match p with | .can => .mailbox | .mailbox => .can)
    let busy := match other with | some x => x.write && x.idx == idx && x.sub == sub && typ == 10 | none => false
    if acc = 0 then .error abReadOnly
    else if s.level p < writeLevel idx sub then .error abLevel
    else if idx = 0x1100 ∧ sub = 0x11 ∧ !s.isReady then .error abNotAvail
    else if (typ = 10 ∧ domMax idx sub < len) ∨ (typ ≠ 10 ∧ len ≠ size) then .error abLength
    else if busy then .error abClaimed
    else .ok (typ, size, acc)

/-- The effect of a whole value written to an entry that has passed `mayWrite`: an action, a commit, a staged member, sticky
bits, or a plain value (R6, R570, R574, R583). -/
def State.writeValue (s : State) (p : Path) (tid idx sub : Nat) (d : List Byte) (acc : Nat) : State :=
  let v := keptBits idx sub (leNat d)
  let key := odKey idx sub
  let fin := fun (a : Act) => s.finishWrite p tid idx sub a
  match s.action p tid idx sub d with
  | some (.ok r) => s.took r
  | some (.error e) => s.abortReq p tid idx sub e
  | none =>
    if idx = 0x1100 ∧ sub = 0x20 then fin (s.dropLevel p v)
    else if idx = 0x1100 ∧ sub = 0x21 then fin (.ok (s.grantLevel p d))
    else if idx = 0x3100 ∧ sub = 0xF then
      let t := if v.testBit 0 then s.clearRecovery else s
      let t := if v.testBit 1 then t.clearReplace else t
      fin (.ok (if v.testBit 2 then t.clearLatched else t))
    else if idx = 0x8000 ∧ sub = 0x40 then fin (.ok (s.spdm p d))
    else if agreementGroups.any (·.1 == key) then
      if v = 0 then fin (guardAct (!s.foreign p key) abClaimed (.ok (s.clearGroup key)))
      else if v ≠ 1 then fin (.error abRange)
      else match s.commitGroup p key with
        | .ok t =>
          if inFlash idx sub then s.flashWrite p tid key ((groupMembers key).map fun k => (k, s.groupVal k)) else fin (.ok t)
        | .error e => fin (.error e)
    else if acc = 3 then fin (.ok (s.clearSticky idx sub v))
    else if !inRange idx sub v then fin (.error abRange)
    else match groupOf key with
      | some c => fin (guardAct (!s.foreign p c) abClaimed (.ok (s.stage p c key v)))
      | none =>
        if idx = 0x7100 ∧ s.migState ≠ 0 then fin (.error abState)
        else if inFlash idx sub then s.flashWrite p tid key [(key, v)]
        else fin (.ok (s.putEntry idx sub v))

/-- A request of a path: not answered before boot, answered only as R476 permits when latched, and refused while a transfer is
open (R573, R586). -/
def State.onPath (s : State) (p : Path) (tid idx sub : Nat) (f : State → State) : State :=
  if !s.answers p then s
  else if s.latchOnly then s.abortReq p tid idx sub abNotAvail
  else if (s.xfer p).isSome then s.abortReq p tid idx sub abBusy
  else f s

/-- A write of a whole value in one message. -/
def State.write (s : State) (p : Path) (tid idx sub : Nat) (d : List Byte) : State :=
  s.onPath p tid idx sub fun s =>
    match s.mayWrite p idx sub d.length with
    | .error e => s.abortReq p tid idx sub e
    | .ok r => s.writeValue p tid idx sub d r.2.2

/-- DTP_WRITE (R570 to R574). -/
def execDtpWrite (path : Path) (tid idx sub : Nat) (data : List Byte) (s : State) : Res :=
  .next (if capacity path < data.length then s.onPath path tid idx sub fun s => s.abortReq path tid idx sub abLength
    else s.settleInj.write path tid idx sub data)

/-- GROUP_COMMIT: a write of 1 to a commit entry (R583 to R585). -/
def execGroupCommit (path : Path) (tid idx sub : Nat) (s : State) : Res := .next (s.settleInj.write path tid idx sub [1])
/-- GROUP_DISCARD: a write of 0 to a commit entry (R583). -/
def execGroupDiscard (path : Path) (tid idx sub : Nat) (s : State) : Res := .next (s.write path tid idx sub [0])
/-- STAGING_TIMEOUT: a group untouched for 60 s loses its staged values and its claim (R583). -/
def execStagingTimeout (idx sub : Nat) (s : State) : Res := .next (s.clearGroup (odKey idx sub))

/-- REGISTER_WRITE: an entry without a row of its own takes the value; read-only entries and values out of range change nothing,
and members of a group change only by its commit (R5, R6, R570, R583). -/
def execRegisterWrite (idx sub value : Nat) (s : State) : Res :=
  .next (match entryAt idx sub with
    | .error _ => s
    | .ok (_, size, acc) =>
      let v := keptBits idx sub value
      let own := (s.action .can 0 idx sub (leBytes value size)).isSome || (idx == 0x1100 && sub == 0x20)
        || (groupOf (odKey idx sub)).isSome
      whenever (acc == 1 && !own && decide (value < 256 ^ size ∧ 5 ≤ s.bring.row) && inRange idx sub v
        && !(idx == 0x7100 && s.migState != 0)) s (s.putEntry idx sub v))

/-- STICKY_CLEAR (R480). -/
def execStickyClear (idx sub mask : Nat) (s : State) : Res :=
  .next (match entryAt idx sub with
    | .ok (_, _, 3) => s.settleInj.clearSticky idx sub mask
    | _ => s)

/-- FLASH_WRITE_COMPLETE: the oldest flash write ends: it takes effect and is answered, a device that failed is reported, and a
write that failed on both devices is aborted (R530, R570, R581, R582). -/
def execFlashWriteComplete (okA okB : Bool) (s : State) : Res :=
  .next (match s.dict.flashWait with
    | [] => s
    | (p, tid, key, vals) :: rest =>
      let t := { s with dict := { s.dict with flashWait := rest } }
      let bad := (if okA then [] else [0]) ++ if okB then [] else [1]
      let fails := bad.filter s.bring.flashOk.contains
      let left := s.bring.flashOk.filter fun d => !bad.contains d
      let t := { t with bring := { t.bring with flashOk := left } }
      let t := fails.foldl (fun (t : State) d => (t.sticky 0xA000 3 1).report 0x1842 11 d) t
      let u := vals.foldl (fun (t : State) x => t.putEntry (x.1 / 256) (x.1 % 256) x.2) t
      let u := if agreementGroups.any (·.1 == key) then (u.clearGroup key).groupEffect key else u
      t.finishWrite p tid (key / 256) (key % 256) (if left.isEmpty then .error abInternal else .ok u))

/-! ### Reads (R571 to R574, R583, R587) -/

/-- The segments that may run ahead of the last acknowledged one are sent (R573). -/
def State.sendSegs (s : State) (p : Path) : State :=
  match s.xfer p with
  | none => s
  | some x =>
    let upTo := min (x.count p) (x.acked + windowOf p)
    let t := (List.range (upTo - x.acked)).foldl (fun (t : State) i =>
      let n := x.acked + i
      t.reply p 0x86 (n % 256) 0 0 (slice x.data (segBytes p * n) (min (segBytes p) (x.total - segBytes p * n)))) s
    t.setXfer p (some { x with seq := upTo })

/-- A read: the value as it stands, in one message or as an upload (R573, R574, R580). -/
def State.read (s : State) (p : Path) (tid idx sub : Nat) (staged : Bool) : State :=
  if !s.answers p then s
  else if s.latchOnly && idx != 0x1000 && !(idx == 0x3100 && sub == 1) then s.abortReq p tid idx sub abNotAvail
  else if staged && (s.xfer p).isSome then s.abortReq p tid idx sub abBusy
  else match entryAt idx sub with
    | .error e => s.abortReq p tid idx sub e
    | .ok r =>
      if s.level p < readLevel idx then s.abortReq p tid idx sub abLevel
      else
        let s := s.settleInj.tick
        let d := s.readBytes p idx sub staged r
        let s := s.drew
        if d.length ≤ capacity p then (s.reply p 0x81 tid idx sub d).dtpCount 0
        else if (s.xfer p).isSome then s.abortReq p tid idx sub abBusy
        else
          let x : Xfer := { Xfer.reset with idx := idx, sub := sub, tid := tid, total := d.length, data := d }
          let t := ((s.reply p 0x84 tid idx sub (leBytes d.length 4)).dtpCount 0).setXfer p (some x)
          match p with
          | .can => t.sendSegs .can
          | .mailbox => t

/-- DTP_READ (R573). -/
def execDtpRead (path : Path) (tid idx sub : Nat) (s : State) : Res := .next (s.read path tid idx sub true)
/-- DTP_READ_COMMITTED (R583). -/
def execDtpReadCommitted (path : Path) (tid idx sub : Nat) (s : State) : Res := .next (s.read path tid idx sub false)

/-- DTP_INFO: type, access, levels, size, commit entry and flags of an entry (R572). -/
def execDtpInfo (path : Path) (tid idx sub : Nat) (s : State) : Res :=
  .next (if !s.answers path then s
    else if s.latchOnly then s.abortReq path tid idx sub abNotAvail
    else match entryAt idx sub with
      | .error e => s.abortReq path tid idx sub e
      | .ok (typ, size, acc) =>
        let key := odKey idx sub
        let c := if agreementGroups.any (·.1 == key) then some key else groupOf key
        let staged := match c with | some c => (groupMembers c).any fun k => (find? s.dict.staged k).isSome | none => false
        let mine := match c with | some c => find? s.dict.claims c == some path | none => false
        (s.reply path 0x85 tid idx sub (leBytes typ 1 ++ leBytes acc 1 ++ leBytes (readLevel idx) 1 ++ leBytes (writeLevel idx sub) 1
          ++ leBytes (if typ = 10 then domMax idx sub else size) 4 ++ leBytes (c.getD 0 / 256) 2 ++ leBytes (c.getD 0 % 256) 1
          ++ leBytes (b2n staged + 2 * b2n mine) 1)).dtpCount 0)

/-! ### Segmented transfers (R573, R580) -/

/-- DTP_WRITE_INIT: a segmented write begins (R573). -/
def execDtpWriteInit (path : Path) (tid idx sub total : Nat) (s : State) : Res :=
  .next (s.onPath path tid idx sub fun s =>
    match s.mayWrite path idx sub total with
    | .error e => s.abortReq path tid idx sub e
    | .ok _ => ((s.setXfer path (some { Xfer.reset with
        write := true, idx := idx, sub := sub, tid := tid, total := total })).reply path 0x83 tid idx sub []))

/-- A transfer is aborted by the module with a code (R573, R593). -/
def State.failXfer (s : State) (p : Path) (x : Xfer) (code : Nat) : State := (s.dropXfer p).abortReq p x.tid x.idx x.sub code

/-- A segment or ACK without a transfer of its direction: its sequence is lost (R582). -/
def State.strayMsg (s : State) (p : Path) : State :=
  if s.latchOnly then s.abortReq p 0 0 0 abNotAvail else s.abortReq p 0 0 0 abSeq

/-- The whole value of a segmented write has arrived: it is written (R574). -/
def State.endWrite (s : State) (p : Path) (x : Xfer) (d : List Byte) : State :=
  (s.setXfer p none).write p x.tid x.idx x.sub d

/-- A segment of a write arrives: in order it is taken, and every W-th and the last is acknowledged; out of order it is discarded
with an ACK of the last in order, and after three resends of one segment without progress the transfer is aborted (R573, R580,
R582). -/
def State.takeSegment (s : State) (p : Path) (x : Xfer) (seq : Nat) (d : List Byte) : State :=
  let last := x.seq + 1 == x.count p
  let want := if last then x.total - segBytes p * x.seq else segBytes p
  if seq % 256 = x.seq % 256 then
    if d.length ≠ want then s.failXfer p x abLength
    else if last then
      let t := match p with | .can => s.reply p 0x87 (seq % 256) 0 0 [] | .mailbox => s
      t.endWrite p x (x.data ++ d)
    else
      let t := s.setXfer p (some { x with data := x.data ++ d, seq := x.seq + 1, acked := 0, fails := 0 })
      if (x.seq + 1) % windowOf p = 0 then t.reply p 0x87 (seq % 256) 0 0 [] else t
  else
    let run := x.fails != 0 && x.acked == seq % 256
    let fails := if run then x.fails else x.fails + 1
    if fails = 4 then s.failXfer p x abSeq
    else (s.setXfer p (some { x with fails := fails, acked := (seq + 1) % 256 })).reply p 0x87 ((x.seq + 255) % 256) 0 0 []

/-- DTP_SEGMENT (R573). -/
def execDtpSegment (path : Path) (seq : Nat) (data : List Byte) (s : State) : Res :=
  .next (if !s.answers path then s
    else if s.latchOnly then s.strayMsg path
    else match s.xfer path with
      | some x => if x.write then s.takeSegment path x seq data else s.strayMsg path
      | none => s.strayMsg path)

/-- The mailbox reads idle with a response length of 0 (R580). -/
def State.mbIdle (s : State) (p : Path) : State :=
  match p with
  | .can => s
  | .mailbox => { s with dict := { s.dict with mbRsp := [], mbState := 0 } }

/-- An ACK of an upload arrives: it moves the window on, ends the transfer, or has the segments from the next one sent again; three
resends of one segment without progress abort the transfer (R573, R580). -/
def State.takeAck (s : State) (p : Path) (x : Xfer) (seq : Nat) : State :=
  let step := (seq + 1 + 256 - x.acked % 256) % 256
  let ahead := x.seq - x.acked
  if step = 0 ∧ ahead = 0 then (s.setXfer p (some x)).sendSegs p
  else if step = 0 ∨ ahead < step then
    if x.fails = 3 then s.failXfer p x abSeq else (s.setXfer p (some { x with fails := x.fails + 1 })).sendSegs p
  else if x.acked + step = x.count p then (s.setXfer p none).mbIdle p
  else (s.setXfer p (some { x with acked := x.acked + step, fails := 0 })).sendSegs p

/-- DTP_ACK (R573). -/
def execDtpAck (path : Path) (seq : Nat) (s : State) : Res :=
  .next (if !s.answers path then s
    else if s.latchOnly then s.strayMsg path
    else match s.xfer path with
      | some x => if x.write then s.strayMsg path else s.takeAck path x seq
      | none => s.strayMsg path)

/-- DTP_ABORT: a client ABORT ends the open transfer and receives no response (R573, R580). -/
def execDtpAbort (path : Path) (_tid _code : Nat) (s : State) : Res :=
  .next (whenever (s.answers path) s ((s.dropXfer path).mbIdle path))

/-- DTP_TRANSFER_TIMEOUT: a transfer with no message from the client for 1 s is aborted (R573). -/
def execDtpTransferTimeout (path : Path) (s : State) : Res :=
  .next (match s.xfer path with
    | some x => s.failXfer path x abTimeout
    | none => s)

/-- AB_CMD: a message with an unknown CMD, or a non-zero byte 5, is aborted (R572, R582). -/
def execAbCmd (path : Path) (tid cmd byte5 : Nat) (s : State) : Res :=
  let known := (1 ≤ cmd && cmd ≤ 7) || cmd == 0xF
  .next (whenever (s.answers path && (!known || (byte5 != 0 && cmd != 6 && cmd != 7))) s
    (s.abortReq path tid 0 0 (if s.latchOnly then abNotAvail else abCmdCode)))

/-! ### Levels (R566 to R568) -/

/-- DTP_LEVEL: a path drops to a lower level (R567, R589). -/
def execDtpLevel (path : Path) (tid level : Nat) (s : State) : Res :=
  .next (s.request path tid 0x1100 0x20 0 fun s => s.dropLevel path level)

/-- LEVEL_GRANT (R568). -/
def execLevelGrant (path : Path) (tid : Nat) (token : List Byte) (s : State) : Res :=
  .next (s.request path tid 0x1100 0x21 0 fun s => guardAct (token.length == 192) abLength (.ok (s.grantLevel path token)))

/-- PATH_IDLE_TIMEOUT: a path that has carried no request for 600 s falls to its opening level (R567). -/
def execPathIdleTimeout (path : Path) (s : State) : Res := .next (s.setLevel path (s.openLevel path))

/-! ### The CAN FD port (R575 to R578, R593) -/

/-- HEARTBEAT: time base, BRING_STATE, level, LAST_NUM and FAULT_STATUS (R577). -/
def execHeartbeat (s : State) : Res :=
  .next (whenever (decide (5 ≤ s.bring.row) && s.od 0x1100 0x22 != 0 && !s.dict.silent && !s.dict.busOff) s
    (let t := s.tick
     let d := leBytes t.now 8 ++ leBytes t.bring.state 1 ++ leBytes (t.level .can) 1 ++ leBytes t.faults.lastNum.toNat 2
       ++ leBytes (t.od 0x3100 1) 4
     { t with dict := { t.dict with beats := t.dict.beats ++ [d] } }))

/-- DTP_BUS_OFF: at bus-off, and at the recovery after it, the CAN FD path is reset (R578, R593). -/
def execDtpBusOff (recovered : Bool) (s : State) : Res :=
  .next (whenever (decide (5 ≤ s.bring.row) && s.dict.busOff == recovered) s
    (let t := { s with dict := { s.dict with busOff := !recovered, passive := s.dict.passive && !recovered } }
     (if recovered then t else (t.sticky 0x1100 0x24 0).report 0x1884 0 0).resetPath .can))

/-- DTP_ADDR_CLASH: another node uses this module's identifiers: the CAN FD path sends nothing more until a power cycle (R578,
R593). -/
def execDtpAddrClash (s : State) : Res :=
  .next (whenever (decide (5 ≤ s.bring.row)) s
    (({ s with dict := { s.dict with silent := true } } : State).sticky 0x1100 0x24 3 |>.report 0x1886 0 0))

/-- CAN_ERROR_FRAME: an error frame is counted, and the controller is error passive or not (R589, R593). -/
def execCanErrorFrame (passive : Bool) (s : State) : Res :=
  .next (whenever (decide (5 ≤ s.bring.row)) s
    (let t := (({ s with dict := { s.dict with passive := passive } } : State).dtpCount 2).report 0x0881 0 0
     if passive then t.sticky 0x1100 0x24 1 else t))

end Sys2Proof.Machine
end

