-- ==== Sys2Proof/Machine/Dispatch.lean ====
section
/-!
DEFINITION. Machine/Dispatch.lean: one arm per command, each a direct call of its meaning.
-/

namespace Sys2Proof.Machine

/-- The effect of a command on everything but the queue. -/
def exec (i : Instr) (s : State) : Host.Outcome State Fault Refusal :=
  match i with
  | .registerWrite idx sub value => Sys2Proof.Machine.execRegisterWrite idx sub value s
  | .stickyClear idx sub mask => Sys2Proof.Machine.execStickyClear idx sub mask s
  | .planLoad q image => Sys2Proof.Machine.execPlanLoad q image s
  | .planUnload q => Sys2Proof.Machine.execPlanUnload q s
  | .add c rd rs1 rs2 => Sys2Proof.Machine.execAdd c rd rs1 rs2 s
  | .sub c rd rs1 rs2 => Sys2Proof.Machine.execSub c rd rs1 rs2 s
  | .andr c rd rs1 rs2 => Sys2Proof.Machine.execAndr c rd rs1 rs2 s
  | .orr c rd rs1 rs2 => Sys2Proof.Machine.execOrr c rd rs1 rs2 s
  | .xorr c rd rs1 rs2 => Sys2Proof.Machine.execXorr c rd rs1 rs2 s
  | .shl c rd rs1 rs2 => Sys2Proof.Machine.execShl c rd rs1 rs2 s
  | .shr c rd rs1 rs2 => Sys2Proof.Machine.execShr c rd rs1 rs2 s
  | .sar c rd rs1 rs2 => Sys2Proof.Machine.execSar c rd rs1 rs2 s
  | .slt c rd rs1 rs2 => Sys2Proof.Machine.execSlt c rd rs1 rs2 s
  | .sltu c rd rs1 rs2 => Sys2Proof.Machine.execSltu c rd rs1 rs2 s
  | .seq c rd rs1 rs2 => Sys2Proof.Machine.execSeq c rd rs1 rs2 s
  | .minS c rd rs1 rs2 => Sys2Proof.Machine.execMinS c rd rs1 rs2 s
  | .maxS c rd rs1 rs2 => Sys2Proof.Machine.execMaxS c rd rs1 rs2 s
  | .minu c rd rs1 rs2 => Sys2Proof.Machine.execMinu c rd rs1 rs2 s
  | .maxu c rd rs1 rs2 => Sys2Proof.Machine.execMaxu c rd rs1 rs2 s
  | .sel c rd rs1 rs2 => Sys2Proof.Machine.execSel c rd rs1 rs2 s
  | .mul c rd rs1 rs2 => Sys2Proof.Machine.execMul c rd rs1 rs2 s
  | .mulh c rd rs1 rs2 => Sys2Proof.Machine.execMulh c rd rs1 rs2 s
  | .mulhu c rd rs1 rs2 => Sys2Proof.Machine.execMulhu c rd rs1 rs2 s
  | .div c rd rs1 rs2 => Sys2Proof.Machine.execDiv c rd rs1 rs2 s
  | .divu c rd rs1 rs2 => Sys2Proof.Machine.execDivu c rd rs1 rs2 s
  | .rem c rd rs1 rs2 => Sys2Proof.Machine.execRem c rd rs1 rs2 s
  | .remu c rd rs1 rs2 => Sys2Proof.Machine.execRemu c rd rs1 rs2 s
  | .sext8 c rd rs1 => Sys2Proof.Machine.execSext8 c rd rs1 s
  | .sext16 c rd rs1 => Sys2Proof.Machine.execSext16 c rd rs1 s
  | .sext32 c rd rs1 => Sys2Proof.Machine.execSext32 c rd rs1 s
  | .zext32 c rd rs1 => Sys2Proof.Machine.execZext32 c rd rs1 s
  | .addi c rd rs1 imm => Sys2Proof.Machine.execAddi c rd rs1 imm s
  | .andi c rd rs1 imm => Sys2Proof.Machine.execAndi c rd rs1 imm s
  | .ori c rd rs1 imm => Sys2Proof.Machine.execOri c rd rs1 imm s
  | .xori c rd rs1 imm => Sys2Proof.Machine.execXori c rd rs1 imm s
  | .shli c rd rs1 imm => Sys2Proof.Machine.execShli c rd rs1 imm s
  | .shri c rd rs1 imm => Sys2Proof.Machine.execShri c rd rs1 imm s
  | .sari c rd rs1 imm => Sys2Proof.Machine.execSari c rd rs1 imm s
  | .slti c rd rs1 imm => Sys2Proof.Machine.execSlti c rd rs1 imm s
  | .sltiu c rd rs1 imm => Sys2Proof.Machine.execSltiu c rd rs1 imm s
  | .seqi c rd rs1 imm => Sys2Proof.Machine.execSeqi c rd rs1 imm s
  | .li c rd imm => Sys2Proof.Machine.execLi c rd imm s
  | .liu c rd imm => Sys2Proof.Machine.execLiu c rd imm s
  | .lih c rd imm => Sys2Proof.Machine.execLih c rd imm s
  | .addli c rd imm => Sys2Proof.Machine.execAddli c rd imm s
  | .jal c rd imm => Sys2Proof.Machine.execJal c rd imm s
  | .beq c rs1 rs2 off => Sys2Proof.Machine.execBeq c rs1 rs2 off s
  | .bne c rs1 rs2 off => Sys2Proof.Machine.execBne c rs1 rs2 off s
  | .blt c rs1 rs2 off => Sys2Proof.Machine.execBlt c rs1 rs2 off s
  | .bge c rs1 rs2 off => Sys2Proof.Machine.execBge c rs1 rs2 off s
  | .bltu c rs1 rs2 off => Sys2Proof.Machine.execBltu c rs1 rs2 off s
  | .bgeu c rs1 rs2 off => Sys2Proof.Machine.execBgeu c rs1 rs2 off s
  | .jr c rd rs1 imm => Sys2Proof.Machine.execJr c rd rs1 imm s
  | .ldl8 c rd rs1 imm => Sys2Proof.Machine.execLdl8 c rd rs1 imm s
  | .ldl16 c rd rs1 imm => Sys2Proof.Machine.execLdl16 c rd rs1 imm s
  | .ldl32 c rd rs1 imm => Sys2Proof.Machine.execLdl32 c rd rs1 imm s
  | .ldl64 c rd rs1 imm => Sys2Proof.Machine.execLdl64 c rd rs1 imm s
  | .stl8 c rs2 rs1 imm => Sys2Proof.Machine.execStl8 c rs2 rs1 imm s
  | .stl16 c rs2 rs1 imm => Sys2Proof.Machine.execStl16 c rs2 rs1 imm s
  | .stl32 c rs2 rs1 imm => Sys2Proof.Machine.execStl32 c rs2 rs1 imm s
  | .stl64 c rs2 rs1 imm => Sys2Proof.Machine.execStl64 c rs2 rs1 imm s
  | .ldg c rd rs1 imm => Sys2Proof.Machine.execLdg c rd rs1 imm s
  | .ldgu c rd rs1 imm => Sys2Proof.Machine.execLdgu c rd rs1 imm s
  | .stg c rs2 rs1 imm => Sys2Proof.Machine.execStg c rs2 rs1 imm s
  | .globalLoadResult tag => Sys2Proof.Machine.execGlobalLoadResult tag s
  | .icacheFill c => Sys2Proof.Machine.execIcacheFill c s
  | .tis c rs1 => Sys2Proof.Machine.execTis c rs1 s
  | .pressCommandStart c => Sys2Proof.Machine.execPressCommandStart c s
  | .pressReadDone c => Sys2Proof.Machine.execPressReadDone c s
  | .pressLastProduct c => Sys2Proof.Machine.execPressLastProduct c s
  | .pressDrainComplete c => Sys2Proof.Machine.execPressDrainComplete c s
  | .cpy c rd rs1 => Sys2Proof.Machine.execCpy c rd rs1 s
  | .dmaRequest c ch => Sys2Proof.Machine.execDmaRequest c ch s
  | .dmaResponse tag => Sys2Proof.Machine.execDmaResponse tag s
  | .awaitArr c k rs1 imm => Sys2Proof.Machine.execAwaitArr c k rs1 imm s
  | .awaitReturn c => Sys2Proof.Machine.execAwaitReturn c s
  | .pwait c rs1 imm => Sys2Proof.Machine.execPwait c rs1 imm s
  | .pwaitReturn c => Sys2Proof.Machine.execPwaitReturn c s
  | .rcinv c => Sys2Proof.Machine.execRcinv c s
  | .kend c => Sys2Proof.Machine.execKend c s
  | .kendDone c => Sys2Proof.Machine.execKendDone c s
  | .kernelStart c => Sys2Proof.Machine.execKernelStart c s
  | .ccWatchdog c => Sys2Proof.Machine.execCcWatchdog c s
  | .vgo c rd rs1 rs2 => Sys2Proof.Machine.execVgo c rd rs1 rs2 s
  | .vjoin c rs1 => Sys2Proof.Machine.execVjoin c rs1 s
  | .vjoinReturn c => Sys2Proof.Machine.execVjoinReturn c s
  | .vbc c k rs1 => Sys2Proof.Machine.execVbc c k rs1 s
  | .srd c rd k => Sys2Proof.Machine.execSrd c rd k s
  | .srdReturn c => Sys2Proof.Machine.execSrdReturn c s
  | .sstat c rd => Sys2Proof.Machine.execSstat c rd s
  | .fadd v => Sys2Proof.Machine.execFadd v s
  | .fsub v => Sys2Proof.Machine.execFsub v s
  | .fmul v => Sys2Proof.Machine.execFmul v s
  | .ffma v => Sys2Proof.Machine.execFfma v s
  | .fmin v => Sys2Proof.Machine.execFmin v s
  | .fmax v => Sys2Proof.Machine.execFmax v s
  | .fcmp v => Sys2Proof.Machine.execFcmp v s
  | .vecSel v => Sys2Proof.Machine.execVecSel v s
  | .fexp2 v => Sys2Proof.Machine.execFexp2 v s
  | .frcp v => Sys2Proof.Machine.execFrcp v s
  | .frsqrt v => Sys2Proof.Machine.execFrsqrt v s
  | .iadd v => Sys2Proof.Machine.execIadd v s
  | .isub v => Sys2Proof.Machine.execIsub v s
  | .imul v => Sys2Proof.Machine.execImul v s
  | .vecAnd v => Sys2Proof.Machine.execVecAnd v s
  | .vecOr v => Sys2Proof.Machine.execVecOr v s
  | .vecXor v => Sys2Proof.Machine.execVecXor v s
  | .vecShl v => Sys2Proof.Machine.execVecShl v s
  | .vecShr v => Sys2Proof.Machine.execVecShr v s
  | .vecSar v => Sys2Proof.Machine.execVecSar v s
  | .imin v => Sys2Proof.Machine.execImin v s
  | .imax v => Sys2Proof.Machine.execImax v s
  | .icmp v => Sys2Proof.Machine.execIcmp v s
  | .cvtF32I32 v => Sys2Proof.Machine.execCvtF32I32 v s
  | .cvtI32F32 v => Sys2Proof.Machine.execCvtI32F32 v s
  | .cvtBf16F32 v => Sys2Proof.Machine.execCvtBf16F32 v s
  | .cvtF32Bf16 v => Sys2Proof.Machine.execCvtF32Bf16 v s
  | .mxcvt v => Sys2Proof.Machine.execMxcvt v s
  | .mxld v => Sys2Proof.Machine.execMxld v s
  | .sadd v => Sys2Proof.Machine.execSadd v s
  | .saddw v => Sys2Proof.Machine.execSaddw v s
  | .scvt v => Sys2Proof.Machine.execScvt v s
  | .sclr v => Sys2Proof.Machine.execSclr v s
  | .vld v => Sys2Proof.Machine.execVld v s
  | .vst v => Sys2Proof.Machine.execVst v s
  | .vgld v => Sys2Proof.Machine.execVgld v s
  | .vgldReturn tag => Sys2Proof.Machine.execVgldReturn tag s
  | .vgst v => Sys2Proof.Machine.execVgst v s
  | .vectorStoreResponse tag => Sys2Proof.Machine.execVectorStoreResponse tag s
  | .vatom v => Sys2Proof.Machine.execVatom v s
  | .vatomReturn tag => Sys2Proof.Machine.execVatomReturn tag s
  | .vlatom v => Sys2Proof.Machine.execVlatom v s
  | .vtld v => Sys2Proof.Machine.execVtld v s
  | .vthdr v => Sys2Proof.Machine.execVthdr v s
  | .vtrel v => Sys2Proof.Machine.execVtrel v s
  | .vbr v => Sys2Proof.Machine.execVbr v s
  | .vbar v => Sys2Proof.Machine.execVbar v s
  | .veBarrier c g bar => Sys2Proof.Machine.execVeBarrier c g bar s
  | .vexit v => Sys2Proof.Machine.execVexit v s
  | .vsum v => Sys2Proof.Machine.execVsum v s
  | .vawait v => Sys2Proof.Machine.execVawait v s
  | .vawaitReturn c g => Sys2Proof.Machine.execVawaitReturn c g s
  | .vfence v => Sys2Proof.Machine.execVfence v s
  | .fence c kind sc => Sys2Proof.Machine.execFence c kind sc s
  | .ldacq c rd rs1 w sc => Sys2Proof.Machine.execLdacq c rd rs1 w sc s
  | .strel c rs2 rs1 w sc => Sys2Proof.Machine.execStrel c rs2 rs1 w sc s
  | .aaddW c rd rs1 rs2 sc ord => Sys2Proof.Machine.execAaddW c rd rs1 rs2 sc ord s
  | .aaddD c rd rs1 rs2 sc ord => Sys2Proof.Machine.execAaddD c rd rs1 rs2 sc ord s
  | .afaddW c rd rs1 rs2 sc ord => Sys2Proof.Machine.execAfaddW c rd rs1 rs2 sc ord s
  | .aandD c rd rs1 rs2 sc ord => Sys2Proof.Machine.execAandD c rd rs1 rs2 sc ord s
  | .aorD c rd rs1 rs2 sc ord => Sys2Proof.Machine.execAorD c rd rs1 rs2 sc ord s
  | .axorD c rd rs1 rs2 sc ord => Sys2Proof.Machine.execAxorD c rd rs1 rs2 sc ord s
  | .asminD c rd rs1 rs2 sc ord => Sys2Proof.Machine.execAsminD c rd rs1 rs2 sc ord s
  | .asmaxD c rd rs1 rs2 sc ord => Sys2Proof.Machine.execAsmaxD c rd rs1 rs2 sc ord s
  | .auminD c rd rs1 rs2 sc ord => Sys2Proof.Machine.execAuminD c rd rs1 rs2 sc ord s
  | .aumaxD c rd rs1 rs2 sc ord => Sys2Proof.Machine.execAumaxD c rd rs1 rs2 sc ord s
  | .axchgW c rd rs1 rs2 sc ord => Sys2Proof.Machine.execAxchgW c rd rs1 rs2 sc ord s
  | .axchgD c rd rs1 rs2 sc ord => Sys2Proof.Machine.execAxchgD c rd rs1 rs2 sc ord s
  | .acasW c rd rs1 rs2 sc ord => Sys2Proof.Machine.execAcasW c rd rs1 rs2 sc ord s
  | .acasD c rd rs1 rs2 sc ord => Sys2Proof.Machine.execAcasD c rd rs1 rs2 sc ord s
  | .caskRead tag => Sys2Proof.Machine.execCaskRead tag s
  | .caskWrite tag => Sys2Proof.Machine.execCaskWrite tag s
  | .caskAtomic tag => Sys2Proof.Machine.execCaskAtomic tag s
  | .backingFill tag => Sys2Proof.Machine.execBackingFill tag s
  | .backingWriteAck tag => Sys2Proof.Machine.execBackingWriteAck tag s
  | .commitList pos => Sys2Proof.Machine.execCommitList pos s
  | .caskCommitComplete pos => Sys2Proof.Machine.execCaskCommitComplete pos s
  | .redContributionHome tag => Sys2Proof.Machine.execRedContributionHome tag s
  | .thrashWindow => Sys2Proof.Machine.execThrashWindow s
  | .reserveRelaid => Sys2Proof.Machine.execReserveRelaid s
  | .unfold => Sys2Proof.Machine.execUnfold s
  | .rdShared h => Sys2Proof.Machine.execRdShared h s
  | .rdOwn h => Sys2Proof.Machine.execRdOwn h s
  | .rdOwnNoData h => Sys2Proof.Machine.execRdOwnNoData h s
  | .rdCur h => Sys2Proof.Machine.execRdCur h s
  | .wrLine h data => Sys2Proof.Machine.execWrLine h data s
  | .wrStash h target data => Sys2Proof.Machine.execWrStash h target data s
  | .wrPart h mask data => Sys2Proof.Machine.execWrPart h mask data s
  | .atomicReq h op size operand compare => Sys2Proof.Machine.execAtomicReq h op size operand compare s
  | .evictDirty h data => Sys2Proof.Machine.execEvictDirty h data s
  | .evictClean h => Sys2Proof.Machine.execEvictClean h s
  | .snpRspI h => Sys2Proof.Machine.execSnpRspI h s
  | .snpRspS h => Sys2Proof.Machine.execSnpRspS h s
  | .snpRspIData h data => Sys2Proof.Machine.execSnpRspIData h data s
  | .snpRspSData h data => Sys2Proof.Machine.execSnpRspSData h data s
  | .snpRspIWbPend h => Sys2Proof.Machine.execSnpRspIWbPend h s
  | .snpFlushDone h => Sys2Proof.Machine.execSnpFlushDone h s
  | .cmpAck h => Sys2Proof.Machine.execCmpAck h s
  | .snoop h shr => Sys2Proof.Machine.execSnoop h shr s
  | .cmpS h data => Sys2Proof.Machine.execCmpS h data s
  | .cmpE h data => Sys2Proof.Machine.execCmpE h data s
  | .cmpI h data => Sys2Proof.Machine.execCmpI h data s
  | .cmp h old => Sys2Proof.Machine.execCmp h old s
  | .cmpErr h reason => Sys2Proof.Machine.execCmpErr h reason s
  | .homeTimeout line => Sys2Proof.Machine.execHomeTimeout line s
  | .cohHomeTimeout tag => Sys2Proof.Machine.execCohHomeTimeout tag s
  | .cohFlushTimeout => Sys2Proof.Machine.execCohFlushTimeout s
  | .trellisPacket gx gy hdr => Sys2Proof.Machine.execTrellisPacket gx gy hdr s
  | .rsend c rs1 => Sys2Proof.Machine.execRsend c rs1 s
  | .rrecv c rd rs1 => Sys2Proof.Machine.execRrecv c rd rs1 s
  | .rstat c rd => Sys2Proof.Machine.execRstat c rd s
  | .rsendLineAccept c => Sys2Proof.Machine.execRsendLineAccept c s
  | .redCombine tag => Sys2Proof.Machine.execRedCombine tag s
  | .redFlush gx gy rid line => Sys2Proof.Machine.execRedFlush gx gy rid line s
  | .redSubscription tag => Sys2Proof.Machine.execRedSubscription tag s
  | .redResultArrival tag => Sys2Proof.Machine.execRedResultArrival tag s
  | .treeHeaderRead rid line => Sys2Proof.Machine.execTreeHeaderRead rid line s
  | .redWriteback rid line => Sys2Proof.Machine.execRedWriteback rid line s
  | .routeChange => Sys2Proof.Machine.execRouteChange s
  | .e2eResend => Sys2Proof.Machine.execE2eResend s
  | .trLost tag => Sys2Proof.Machine.execTrLost tag s
  | .trRouterDead gx gy => Sys2Proof.Machine.execTrRouterDead gx gy s
  | .d2dCrcFail edge group bad => Sys2Proof.Machine.execD2dCrcFail edge group bad s
  | .dclkLoss die => Sys2Proof.Machine.execDclkLoss die s
  | .hbmRead tag => Sys2Proof.Machine.execHbmRead tag s
  | .hbmWrite tag => Sys2Proof.Machine.execHbmWrite tag s
  | .parityUpdate tag => Sys2Proof.Machine.execParityUpdate tag s
  | .hbmForced stack => Sys2Proof.Machine.execHbmForced stack s
  | .hclkLoss stack => Sys2Proof.Machine.execHclkLoss stack s
  | .stackResume stack pass => Sys2Proof.Machine.execStackResume stack pass s
  | .thermalReport stack temp thresh => Sys2Proof.Machine.execThermalReport stack temp thresh s
  | .stackHoldExpiry stack => Sys2Proof.Machine.execStackHoldExpiry stack s
  | .loopback path tid value fails => Sys2Proof.Machine.execLoopback path tid value fails s
  | .asend c rd rs1 => Sys2Proof.Machine.execAsend c rd rs1 s
  | .astat c rd => Sys2Proof.Machine.execAstat c rd s
  | .sauRequest tag => Sys2Proof.Machine.execSauRequest tag s
  | .sauBoundsDone tag => Sys2Proof.Machine.execSauBoundsDone tag s
  | .sauBarrelFinish tag j => Sys2Proof.Machine.execSauBarrelFinish tag j s
  | .sauResponseArrival tag => Sys2Proof.Machine.execSauResponseArrival tag s
  | .commandFetch q entry => Sys2Proof.Machine.execCommandFetch q entry s
  | .submit q => Sys2Proof.Machine.execSubmit q s
  | .admission q => Sys2Proof.Machine.execAdmission q s
  | .append q => Sys2Proof.Machine.execAppend q s
  | .draft q nodes => Sys2Proof.Machine.execDraft q nodes s
  | .park q => Sys2Proof.Machine.execPark q s
  | .spill q => Sys2Proof.Machine.execSpill q s
  | .spillDone slot => Sys2Proof.Machine.execSpillDone slot s
  | .resume q => Sys2Proof.Machine.execResume q s
  | .resumeDone slot data => Sys2Proof.Machine.execResumeDone slot data s
  | .cancel q => Sys2Proof.Machine.execCancel q s
  | .exportSeq q => Sys2Proof.Machine.execExportSeq q s
  | .importSeq q => Sys2Proof.Machine.execImportSeq q s
  | .gather => Sys2Proof.Machine.execGather s
  | .broadcast => Sys2Proof.Machine.execBroadcast s
  | .completionRecord c => Sys2Proof.Machine.execCompletionRecord c s
  | .commitComplete => Sys2Proof.Machine.execCommitComplete s
  | .commitPoint tokens => Sys2Proof.Machine.execCommitPoint tokens s
  | .seqTakeover => Sys2Proof.Machine.execSeqTakeover s
  | .barrelMove slot row k => Sys2Proof.Machine.execBarrelMove slot row k s
  | .helloFrame f => Sys2Proof.Machine.execHelloFrame f s
  | .linkFrame f => Sys2Proof.Machine.execLinkFrame f s
  | .spanCrcFail port => Sys2Proof.Machine.execSpanCrcFail port s
  | .spanWrite f => Sys2Proof.Machine.execSpanWrite f s
  | .sealFrame f => Sys2Proof.Machine.execSealFrame f s
  | .ackFrame f => Sys2Proof.Machine.execAckFrame f s
  | .redFrame f => Sys2Proof.Machine.execRedFrame f s
  | .ringLine rid line => Sys2Proof.Machine.execRingLine rid line s
  | .rackFrame f => Sys2Proof.Machine.execRackFrame f s
  | .rackOpen f => Sys2Proof.Machine.execRackOpen f s
  | .rackGrant f => Sys2Proof.Machine.execRackGrant f s
  | .rackMap f => Sys2Proof.Machine.execRackMap f s
  | .rackClose f => Sys2Proof.Machine.execRackClose f s
  | .rackFetch f => Sys2Proof.Machine.execRackFetch f s
  | .xferFrame f => Sys2Proof.Machine.execXferFrame f s
  | .freqFrame f => Sys2Proof.Machine.execFreqFrame f s
  | .timeFrame f => Sys2Proof.Machine.execTimeFrame f s
  | .joinDigest f => Sys2Proof.Machine.execJoinDigest f s
  | .memberLost f => Sys2Proof.Machine.execMemberLost f s
  | .memberJoined f => Sys2Proof.Machine.execMemberJoined f s
  | .stepFrame f => Sys2Proof.Machine.execStepFrame f s
  | .helloTimer port => Sys2Proof.Machine.execHelloTimer port s
  | .linkIdleTimer port => Sys2Proof.Machine.execLinkIdleTimer port s
  | .portSilence port => Sys2Proof.Machine.execPortSilence port s
  | .streamResend dst => Sys2Proof.Machine.execStreamResend dst s
  | .ackTimer src => Sys2Proof.Machine.execAckTimer src s
  | .laneLockLoss port group => Sys2Proof.Machine.execLaneLockLoss port group s
  | .fecWindow port group symErr uncor => Sys2Proof.Machine.execFecWindow port group symErr uncor s
  | .portEnable port trained => Sys2Proof.Machine.execPortEnable port trained s
  | .portRetry port trained => Sys2Proof.Machine.execPortRetry port trained s
  | .spanRequestSubmit lc word3 => Sys2Proof.Machine.execSpanRequestSubmit lc word3 s
  | .helloTimeout member => Sys2Proof.Machine.execHelloTimeout member s
  | .jobHoldEnd => Sys2Proof.Machine.execJobHoldEnd s
  | .timeTimer port => Sys2Proof.Machine.execTimeTimer port s
  | .tsyncEdge => Sys2Proof.Machine.execTsyncEdge s
  | .rackTimeout buddy => Sys2Proof.Machine.execRackTimeout buddy s
  | .boundNs path tid value => Sys2Proof.Machine.execBoundNs path tid value s
  | .flit fseq ack nak ackseq credits crcOk => Sys2Proof.Machine.execFlit fseq ack nak ackseq credits crcOk s
  | .flitSilence => Sys2Proof.Machine.execFlitSilence s
  | .linkUp lanes modules => Sys2Proof.Machine.execLinkUp lanes modules s
  | .abiusDown => Sys2Proof.Machine.execAbiusDown s
  | .regRd h => Sys2Proof.Machine.execRegRd h s
  | .regWr h value => Sys2Proof.Machine.execRegWr h value s
  | .cmdTail h value => Sys2Proof.Machine.execCmdTail h value s
  | .cplHead h value => Sys2Proof.Machine.execCplHead h value s
  | .noticePost => Sys2Proof.Machine.execNoticePost s
  | .tableReadReturn tag => Sys2Proof.Machine.execTableReadReturn tag s
  | .fenceSignal q => Sys2Proof.Machine.execFenceSignal q s
  | .fenceWait q => Sys2Proof.Machine.execFenceWait q s
  | .ctxCreate q => Sys2Proof.Machine.execCtxCreate q s
  | .ctxDestroy q => Sys2Proof.Machine.execCtxDestroy q s
  | .processGone q => Sys2Proof.Machine.execProcessGone q s
  | .queueCreate q => Sys2Proof.Machine.execQueueCreate q s
  | .queueDestroy q => Sys2Proof.Machine.execQueueDestroy q s
  | .fenceCreate q => Sys2Proof.Machine.execFenceCreate q s
  | .fenceShareGrant q => Sys2Proof.Machine.execFenceShareGrant q s
  | .fenceShareRelease q => Sys2Proof.Machine.execFenceShareRelease q s
  | .memRegister q => Sys2Proof.Machine.execMemRegister q s
  | .memHold q => Sys2Proof.Machine.execMemHold q s
  | .memRelease q => Sys2Proof.Machine.execMemRelease q s
  | .memBind q => Sys2Proof.Machine.execMemBind q s
  | .memUnbind q => Sys2Proof.Machine.execMemUnbind q s
  | .invalidate q => Sys2Proof.Machine.execInvalidate q s
  | .queryCapabilities q => Sys2Proof.Machine.execQueryCapabilities q s
  | .queryUtilisation q => Sys2Proof.Machine.execQueryUtilisation q s
  | .queryHandle q => Sys2Proof.Machine.execQueryHandle q s
  | .queryModule q => Sys2Proof.Machine.execQueryModule q s
  | .queue0Create path tid => Sys2Proof.Machine.execQueue0Create path tid s
  | .partCreate path tid => Sys2Proof.Machine.execPartCreate path tid s
  | .partDestroy path tid => Sys2Proof.Machine.execPartDestroy path tid s
  | .partReset path tid part => Sys2Proof.Machine.execPartReset path tid part s
  | .migLog path tid => Sys2Proof.Machine.execMigLog path tid s
  | .migPass path tid => Sys2Proof.Machine.execMigPass path tid s
  | .migFreeze path tid => Sys2Proof.Machine.execMigFreeze path tid s
  | .migFinal path tid => Sys2Proof.Machine.execMigFinal path tid s
  | .migPassEnd => Sys2Proof.Machine.execMigPassEnd s
  | .migThaw path tid => Sys2Proof.Machine.execMigThaw path tid s
  | .migRestore path tid records binding => Sys2Proof.Machine.execMigRestore path tid records binding s
  | .migAbort path tid => Sys2Proof.Machine.execMigAbort path tid s
  | .faultReport => Sys2Proof.Machine.execFaultReport s
  | .reportResend => Sys2Proof.Machine.execReportResend s
  | .escalationTimeout num => Sys2Proof.Machine.execEscalationTimeout num s
  | .faultAck path tid num => Sys2Proof.Machine.execFaultAck path tid num s
  | .safeEnter path tid => Sys2Proof.Machine.execSafeEnter path tid s
  | .safeExit path tid => Sys2Proof.Machine.execSafeExit path tid s
  | .safeStateExit => Sys2Proof.Machine.execSafeStateExit s
  | .admitResume path tid => Sys2Proof.Machine.execAdmitResume path tid s
  | .admitFresh path tid => Sys2Proof.Machine.execAdmitFresh path tid s
  | .clearRecoveryCounter path tid => Sys2Proof.Machine.execClearRecoveryCounter path tid s
  | .clearReplacementFlag path tid => Sys2Proof.Machine.execClearReplacementFlag path tid s
  | .clearLatched path tid => Sys2Proof.Machine.execClearLatched path tid s
  | .fcVote core => Sys2Proof.Machine.execFcVote core s
  | .fcLatch => Sys2Proof.Machine.execFcLatch s
  | .injExpiry => Sys2Proof.Machine.execInjExpiry s
  | .weightReload image => Sys2Proof.Machine.execWeightReload image s
  | .dieLockstep die => Sys2Proof.Machine.execDieLockstep die s
  | .dieHung die => Sys2Proof.Machine.execDieHung die s
  | .dieReady die => Sys2Proof.Machine.execDieReady die s
  | .dieLost die => Sys2Proof.Machine.execDieLost die s
  | .ioDieLost die => Sys2Proof.Machine.execIoDieLost die s
  | .feedReversed feed => Sys2Proof.Machine.execFeedReversed feed s
  | .feedLost feed => Sys2Proof.Machine.execFeedLost feed s
  | .regulatorsOff => Sys2Proof.Machine.execRegulatorsOff s
  | .feedLow feed => Sys2Proof.Machine.execFeedLow feed s
  | .feedOvervolt feed => Sys2Proof.Machine.execFeedOvervolt feed s
  | .feedReturn feed => Sys2Proof.Machine.execFeedReturn feed s
  | .feedTripped feed => Sys2Proof.Machine.execFeedTripped feed s
  | .fuseReclose feed => Sys2Proof.Machine.execFuseReclose feed s
  | .regPhaseLost bank phase => Sys2Proof.Machine.execRegPhaseLost bank phase s
  | .tilePhaseLost die short => Sys2Proof.Machine.execTilePhaseLost die short s
  | .refclkHoldover => Sys2Proof.Machine.execRefclkHoldover s
  | .refclkLost => Sys2Proof.Machine.execRefclkLost s
  | .refclkReturn => Sys2Proof.Machine.execRefclkReturn s
  | .droopStretch die depth => Sys2Proof.Machine.execDroopStretch die depth s
  | .stretchThrottle die => Sys2Proof.Machine.execStretchThrottle die s
  | .currentThrottle peak => Sys2Proof.Machine.execCurrentThrottle peak s
  | .tempThrottle die temp => Sys2Proof.Machine.execTempThrottle die temp s
  | .dieOvertemp die temp => Sys2Proof.Machine.execDieOvertemp die temp s
  | .throttleDecay die => Sys2Proof.Machine.execThrottleDecay die s
  | .throttleLong die => Sys2Proof.Machine.execThrottleLong die s
  | .powerCap path tid watts => Sys2Proof.Machine.execPowerCap path tid watts s
  | .capTaken => Sys2Proof.Machine.execCapTaken s
  | .quietSlotEnd => Sys2Proof.Machine.execQuietSlotEnd s
  | .backgroundPiece work => Sys2Proof.Machine.execBackgroundPiece work s
  | .telemetryTick => Sys2Proof.Machine.execTelemetryTick s
  | .bgBehind => Sys2Proof.Machine.execBgBehind s
  | .pwrEnAssert straps => Sys2Proof.Machine.execPwrEnAssert straps s
  | .pwrEnDeassert => Sys2Proof.Machine.execPwrEnDeassert s
  | .bringUpRow obs => Sys2Proof.Machine.execBringUpRow obs s
  | .bringTimeout => Sys2Proof.Machine.execBringTimeout s
  | .dieTest path tid die => Sys2Proof.Machine.execDieTest path tid die s
  | .svnCommit path tid => Sys2Proof.Machine.execSvnCommit path tid s
  | .fwImage path tid image => Sys2Proof.Machine.execFwImage path tid image s
  | .fwUpdate path tid => Sys2Proof.Machine.execFwUpdate path tid s
  | .fwHandover ok => Sys2Proof.Machine.execFwHandover ok s
  | .epochAdvance path tid => Sys2Proof.Machine.execEpochAdvance path tid s
  | .certInstall path tid chain => Sys2Proof.Machine.execCertInstall path tid chain s
  | .getVersion path req => Sys2Proof.Machine.execGetVersion path req s
  | .getCapabilities path req => Sys2Proof.Machine.execGetCapabilities path req s
  | .negotiateAlgorithms path req => Sys2Proof.Machine.execNegotiateAlgorithms path req s
  | .getDigests path req => Sys2Proof.Machine.execGetDigests path req s
  | .getCertificate path req => Sys2Proof.Machine.execGetCertificate path req s
  | .challenge path req => Sys2Proof.Machine.execChallenge path req s
  | .getMeasurements path req => Sys2Proof.Machine.execGetMeasurements path req s
  | .spdmUnsupported path req => Sys2Proof.Machine.execSpdmUnsupported path req s
  | .tamper => Sys2Proof.Machine.execTamper s
  | .voltageGlitch => Sys2Proof.Machine.execVoltageGlitch s
  | .clockGlitch => Sys2Proof.Machine.execClockGlitch s
  | .cold => Sys2Proof.Machine.execCold s
  | .alarmClear path tid => Sys2Proof.Machine.execAlarmClear path tid s
  | .debugToken path tid token => Sys2Proof.Machine.execDebugToken path tid token s
  | .dtpRead path tid idx sub => Sys2Proof.Machine.execDtpRead path tid idx sub s
  | .dtpWrite path tid idx sub data => Sys2Proof.Machine.execDtpWrite path tid idx sub data s
  | .groupCommit path tid idx sub => Sys2Proof.Machine.execGroupCommit path tid idx sub s
  | .groupDiscard path tid idx sub => Sys2Proof.Machine.execGroupDiscard path tid idx sub s
  | .stagingTimeout idx sub => Sys2Proof.Machine.execStagingTimeout idx sub s
  | .dtpWriteInit path tid idx sub total => Sys2Proof.Machine.execDtpWriteInit path tid idx sub total s
  | .dtpReadCommitted path tid idx sub => Sys2Proof.Machine.execDtpReadCommitted path tid idx sub s
  | .dtpInfo path tid idx sub => Sys2Proof.Machine.execDtpInfo path tid idx sub s
  | .dtpSegment path seq data => Sys2Proof.Machine.execDtpSegment path seq data s
  | .dtpAck path seq => Sys2Proof.Machine.execDtpAck path seq s
  | .dtpAbort path tid code => Sys2Proof.Machine.execDtpAbort path tid code s
  | .dtpTransferTimeout path => Sys2Proof.Machine.execDtpTransferTimeout path s
  | .dtpLevel path tid level => Sys2Proof.Machine.execDtpLevel path tid level s
  | .levelGrant path tid token => Sys2Proof.Machine.execLevelGrant path tid token s
  | .pathIdleTimeout path => Sys2Proof.Machine.execPathIdleTimeout path s
  | .heartbeat => Sys2Proof.Machine.execHeartbeat s
  | .dtpBusOff recovered => Sys2Proof.Machine.execDtpBusOff recovered s
  | .dtpAddrClash => Sys2Proof.Machine.execDtpAddrClash s
  | .evictAck h => Sys2Proof.Machine.execEvictAck h s
  | .ccIllegal c => Sys2Proof.Machine.execCcIllegal c s
  | .veIllegal v => Sys2Proof.Machine.execVeIllegal v s
  | .frameForward f visits => Sys2Proof.Machine.execFrameForward f visits s
  | .reservedFrameType f => Sys2Proof.Machine.execReservedFrameType f s
  | .abCmd path tid cmd byte5 => Sys2Proof.Machine.execAbCmd path tid cmd byte5 s
  | .debugAccess acc => Sys2Proof.Machine.execDebugAccess acc s
  | .alarmSourceInactive source => Sys2Proof.Machine.execAlarmSourceInactive source s
  | .canErrorFrame passive => Sys2Proof.Machine.execCanErrorFrame passive s
  | .flashWriteComplete okA okB => Sys2Proof.Machine.execFlashWriteComplete okA okB s
  | .requestReturn => Sys2Proof.Machine.execRequestReturn s

end Sys2Proof.Machine
end

