-- ==== Sys2Proof/Machine/Connectors.lean ====
section
/-!
DEFINITION. Machine/Connectors.lean: the pins of the carrier's connectors, the order in which they mate, and the thermal bound
of the cold plate (chapter 22): facts of the part that no command changes.
-/

namespace Sys2Proof.Machine

/-- The signal connectors of the rear edge (R594). -/
inductive Connector
  /-- HOST: the Abius link, the reference clocks, CAN FD, the discrete signals and the debug port -/
  | host
  /-- SPAN-W: ports S0 and S2 -/
  | spanW
  /-- SPAN-E: ports S1 and S3 -/
  | spanE
  deriving DecidableEq, Repr

/-- What a pin carries (R597, R598). -/
inductive PinSignal
  /-- ground -/
  | gnd
  /-- one leg of a transmit or receive pair of a lane; no Span port: the Abius link -/
  | pair (port : Option Nat) (receive negative : Bool) (lane : Nat)
  /-- a single signal by name -/
  | named (name : String)
  /-- left unconnected (R599) -/
  | reserved
  deriving DecidableEq, Repr

/-- The signal of a row in column `c`, counted from 1, of a port's columns; rows are A to H and J to N, counted from 0 (R597). -/
def pairPin (port : Option Nat) (c row : Nat) : PinSignal :=
  match row with
  | 1 => .pair port false false (2 * c - 2)
  | 2 => .pair port false true (2 * c - 2)
  | 4 => .pair port true false (2 * c - 2)
  | 5 => .pair port true true (2 * c - 2)
  | 7 => .pair port false false (2 * c - 1)
  | 8 => .pair port false true (2 * c - 1)
  | 10 => .pair port true false (2 * c - 1)
  | 11 => .pair port true true (2 * c - 1)
  | _ => .gnd

/-- HOST columns 9 to 12, row by row (R598). -/
def hostSignals : List (List PinSignal) :=
  [[.gnd, .gnd, .gnd, .gnd],
   [.named "REFCLK_CORE_P", .named "CANH", .named "ADDR[0]", .named "DBG_TCK"],
   [.named "REFCLK_CORE_N", .named "CANL", .named "ADDR[1]", .named "DBG_TMS"],
   [.gnd, .gnd, .named "ADDR[2]", .named "DBG_TDI"],
   [.named "REFCLK_ABIUS_P", .named "PWR_EN", .named "ADDR[3]", .named "DBG_TDO"],
   [.named "REFCLK_ABIUS_N", .named "FAULT_N", .named "ADDR[4]", .named "DBG_TRST_N"],
   [.gnd, .gnd, .named "ADDR[5]", .gnd],
   [.named "REFCLK_SPAN_P", .named "TAMPER_N", .gnd, .reserved],
   [.named "REFCLK_SPAN_N", .named "TSYNC", .reserved, .reserved],
   [.gnd, .gnd, .reserved, .reserved],
   [.reserved, .reserved, .reserved, .reserved],
   [.reserved, .reserved, .reserved, .reserved],
   [.gnd, .gnd, .gnd, .gnd]]

/-- The signal of a pin: the column counts from 1, the row from 0; none where the connector has no such pin (R594, R597, R598). -/
def pinSignal (k : Connector) (row col : Nat) : Option PinSignal :=
  if 13 ≤ row ∨ col = 0 then none
  else match k with
    | .host => if col ≤ 8 then some (pairPin none col row)
        else if col ≤ 12 then some ((hostSignals.getD row []).getD (col - 9) .reserved) else none
    | .spanW => if col ≤ 16 then some (pairPin (some 0) col row)
        else if col ≤ 32 then some (pairPin (some 2) (col - 16) row) else none
    | .spanE => if col ≤ 16 then some (pairPin (some 1) col row)
        else if col ≤ 32 then some (pairPin (some 3) (col - 16) row) else none

/-- The lane group of a Span lane (R342, R597). -/
def laneGroup (lane : Nat) : Nat := lane / 8

/-- The level at which a pin of a signal connector mates: grounds before signals (R595). -/
def PinSignal.mateLevel : PinSignal → Nat
  | .gnd => 2
  | _ => 3

/-- The level of a position of PWR: blades 1 to 5 and pin 6 (R595, R596). -/
def pwrMateLevel (position : Nat) : Nat := [1, 3, 2, 2, 3, 4].getD (position - 1) 4

/-- Travel from the seated position at which a level mates, in tenths of a millimetre (R595). -/
def mateTravel (level : Nat) : Nat := [80, 60, 45, 30, 10].getD level 10

/-- The input of an ADDR pin: 1 open, 0 tied to ground (R603). -/
def addrStraps (tied : Nat → Bool) : Nat := ((List.range 6).filter fun i => !tied i).foldl (fun a i => a + 2 ^ i) 0

/-- The bound on the hottest compute-die sensor in millikelvin above the inlet, for an input power in watts and a coolant flow
in tenths of a litre a minute: θ at 3.0 L/min, and from 4.0 L/min on; none where R609 gives no figure (R609, R610). -/
def dieRise (flow power : Nat) : Option Nat :=
  if 40 ≤ flow ∧ flow ≤ 60 then some (10 * power) else if flow = 30 then some (12 * power) else none

/-- The bound on the hottest die of a stack in millikelvin above the inlet (R610). -/
def stackRise (power : Nat) : Nat := 8 * power

end Sys2Proof.Machine
end

