-- ==== Sys2Proof/Machine/Latency.lean ====
section
/-!
DEFINITION. Machine/Latency.lean: the times that the spec gives as formulas over counts: a ring (R363), a scan (R300, R301) and
the bound of a step (R386 to R390, R395). They are in ns, and exact; no step of the machine depends on them, since its time
base advances by open amounts (assumption 3).
-/

namespace Sys2Proof.Machine

/-- t_ring: `f` frames and `l` lines in a ring of `n` members (R363). -/
def ringTime (n f l : Nat) : Rat := 2 * (ringHalf n : Rat) * 150 + (20 * (f : Rat) + 128 * l) / 800

/-- t_b: the scan of a barrel with `c` chunks and `ntok` tokens, for `nq` queries of head dimension `d`; the data rate halves at
thermal level 2 (R300). -/
def scanTime (c ntok d nq level : Nat) : Rat :=
  max (256 * (c : Rat) / (if level = 2 then 1225 / 2 else 1225)) (2 * (ntok : Rat) * d * nq / 8192)

/-- The time by which the bounds of `nb` entries are complete, after the scan starts (R301). -/
def boundsTime (nb d : Nat) : Rat := 2 * 256 * (nb : Rat) * ((4 * d + 255) / 256 : Nat) / 1225

/-- p: the cycles of a row of the cost record, for a step's tokens, sequences, prefill tokens and draft nodes (R388). -/
def costCycles (row t sq tp n : Nat) : Nat :=
  bits row 31 0 + bits row 63 32 * t + bits row 95 64 * sq + bits row 127 96 * tp + bits row 159 128 * n

/-- NRED of a row: reductions of the layer on the critical path (R388). -/
def costNred (row : Nat) : Nat := bits row 191 184
/-- SAU of a row: the layer makes stack attention requests (R388). -/
def costSau (row : Nat) : Bool := bit row 183

/-- d_pkg, the longest trellis path (R387). -/
def dPkg : Rat := 343 / 2

/-- a_l: the attention term of a layer with quad load `w`, `b` list entries on one stack and a scan time `tb` for a full barrel;
in selective mode the bounds of the entries are added (R389). -/
def attTerm (w b nq d : Nat) (tb : Rat) (selective : Bool) : Rat :=
  40 + (w : Rat) * (tb + 60) + (b : Rat) * nq * (16 + 4 * d) / 128 + 60 + 2 * dPkg + (if selective then boundsTime b d else 0)

/-- g_j: the reduction term of `l` lines under a DELIVER code, with the times of its rings (R390). -/
def redTerm (flush l deliver : Nat) (rings : List Rat) : Rat :=
  (10 + 2 * (flush : Rat) + 3 * l + 686 * (if deliver = 2 then 2 else 1)) / 2 + (if deliver = 2 then rings.sum else 0)

/-- t_work: `e` work-list entries, the batch counts of the step, `l` tentative lines in one cask at most, a frequency `f` in cycles
per ns, and for each layer its attention term and its reduction terms (R386, R387). -/
def Plan.workBound (p : Plan) (e t sq tp n l : Nat) (f : Rat) (layers : List (Rat × List Rat)) : Rat :=
  (270 + 3 * (e : Rat)) / 2 + dPkg
    + 102 / 100 * ((p.costs.map fun r => ((costCycles r t sq tp n : Nat) : Rat)).sum / f)
    + (layers.map fun x => x.1 + x.2.sum).sum + (7000 + (l : Rat) / 2) + 3000

/-- t_period: the bound of a step period for a quiet slot of `q` ns (R386). -/
def periodBound (work q : Rat) : Rat := max 12000 (work + max q 3000) + 200

/-- The time after B_n by which a sequence's completion record is posted: one that is not racked, or one whose buddy is some hops
away (R395). -/
def postBound (work : Rat) (hops : Option Nat) : Rat :=
  match hops with
  | none => work + 2000
  | some h => work + 4000 + 300 * h

end Sys2Proof.Machine
end

