-- ==== Sys2Proof/WellFormed.lean ====
section
/-!
DEFINITION. WellFormed.lean: which commands name parts that the module has and fields of their width: 80,000 logical cores of
eight groups (R2, R110), 8 compute dies and 2 I/O dies (R461), 16 stacks (R255), 512 casks (R177), 92 by 64 routers (R229), 14 edges
(R239), 4 Span ports (R342), 2 feeds (R494), 2 regulator banks (R497), 8 collector cores (R474), 4 alarm sources with a condition
of their own (R557), 4,096 queues (R415), and the 16-bit index, 8-bit subindex and 8-bit TID of a dictionary message (R571).
-/

namespace Sys2Proof

/-- Whether a command names only parts that exist, with fields that fit. -/
def Instr.wf : Instr → Bool
  | .registerWrite idx sb _ => decide (idx < 65536 ∧ sb < 256)
  | .stickyClear idx sb _ => decide (idx < 65536 ∧ sb < 256)
  | .planLoad q _ => decide (q < 4096)
  | .planUnload q => decide (q < 4096)
  | .add c _ _ _ => decide (c < 80000)
  | .sub c _ _ _ => decide (c < 80000)
  | .andr c _ _ _ => decide (c < 80000)
  | .orr c _ _ _ => decide (c < 80000)
  | .xorr c _ _ _ => decide (c < 80000)
  | .shl c _ _ _ => decide (c < 80000)
  | .shr c _ _ _ => decide (c < 80000)
  | .sar c _ _ _ => decide (c < 80000)
  | .slt c _ _ _ => decide (c < 80000)
  | .sltu c _ _ _ => decide (c < 80000)
  | .seq c _ _ _ => decide (c < 80000)
  | .minS c _ _ _ => decide (c < 80000)
  | .maxS c _ _ _ => decide (c < 80000)
  | .minu c _ _ _ => decide (c < 80000)
  | .maxu c _ _ _ => decide (c < 80000)
  | .sel c _ _ _ => decide (c < 80000)
  | .mul c _ _ _ => decide (c < 80000)
  | .mulh c _ _ _ => decide (c < 80000)
  | .mulhu c _ _ _ => decide (c < 80000)
  | .div c _ _ _ => decide (c < 80000)
  | .divu c _ _ _ => decide (c < 80000)
  | .rem c _ _ _ => decide (c < 80000)
  | .remu c _ _ _ => decide (c < 80000)
  | .sext8 c _ _ => decide (c < 80000)
  | .sext16 c _ _ => decide (c < 80000)
  | .sext32 c _ _ => decide (c < 80000)
  | .zext32 c _ _ => decide (c < 80000)
  | .addi c _ _ _ => decide (c < 80000)
  | .andi c _ _ _ => decide (c < 80000)
  | .ori c _ _ _ => decide (c < 80000)
  | .xori c _ _ _ => decide (c < 80000)
  | .shli c _ _ _ => decide (c < 80000)
  | .shri c _ _ _ => decide (c < 80000)
  | .sari c _ _ _ => decide (c < 80000)
  | .slti c _ _ _ => decide (c < 80000)
  | .sltiu c _ _ _ => decide (c < 80000)
  | .seqi c _ _ _ => decide (c < 80000)
  | .li c _ _ => decide (c < 80000)
  | .liu c _ _ => decide (c < 80000)
  | .lih c _ _ => decide (c < 80000)
  | .addli c _ _ => decide (c < 80000)
  | .jal c _ _ => decide (c < 80000)
  | .beq c _ _ _ => decide (c < 80000)
  | .bne c _ _ _ => decide (c < 80000)
  | .blt c _ _ _ => decide (c < 80000)
  | .bge c _ _ _ => decide (c < 80000)
  | .bltu c _ _ _ => decide (c < 80000)
  | .bgeu c _ _ _ => decide (c < 80000)
  | .jr c _ _ _ => decide (c < 80000)
  | .ldl8 c _ _ _ => decide (c < 80000)
  | .ldl16 c _ _ _ => decide (c < 80000)
  | .ldl32 c _ _ _ => decide (c < 80000)
  | .ldl64 c _ _ _ => decide (c < 80000)
  | .stl8 c _ _ _ => decide (c < 80000)
  | .stl16 c _ _ _ => decide (c < 80000)
  | .stl32 c _ _ _ => decide (c < 80000)
  | .stl64 c _ _ _ => decide (c < 80000)
  | .ldg c _ _ _ => decide (c < 80000)
  | .ldgu c _ _ _ => decide (c < 80000)
  | .stg c _ _ _ => decide (c < 80000)
  | .globalLoadResult _ => true
  | .icacheFill c => decide (c < 80000)
  | .tis c _ => decide (c < 80000)
  | .pressCommandStart c => decide (c < 80000)
  | .pressReadDone c => decide (c < 80000)
  | .pressLastProduct c => decide (c < 80000)
  | .pressDrainComplete c => decide (c < 80000)
  | .cpy c _ _ => decide (c < 80000)
  | .dmaRequest c _ => decide (c < 80000)
  | .dmaResponse _ => true
  | .awaitArr c _ _ _ => decide (c < 80000)
  | .awaitReturn c => decide (c < 80000)
  | .pwait c _ _ => decide (c < 80000)
  | .pwaitReturn c => decide (c < 80000)
  | .rcinv c => decide (c < 80000)
  | .kend c => decide (c < 80000)
  | .kendDone c => decide (c < 80000)
  | .kernelStart c => decide (c < 80000)
  | .ccWatchdog c => decide (c < 80000)
  | .vgo c _ _ _ => decide (c < 80000)
  | .vjoin c _ => decide (c < 80000)
  | .vjoinReturn c => decide (c < 80000)
  | .vbc c _ _ => decide (c < 80000)
  | .srd c _ _ => decide (c < 80000)
  | .srdReturn c => decide (c < 80000)
  | .sstat c _ => decide (c < 80000)
  | .fadd v => decide (v.core < 80000 ∧ v.group < 8)
  | .fsub v => decide (v.core < 80000 ∧ v.group < 8)
  | .fmul v => decide (v.core < 80000 ∧ v.group < 8)
  | .ffma v => decide (v.core < 80000 ∧ v.group < 8)
  | .fmin v => decide (v.core < 80000 ∧ v.group < 8)
  | .fmax v => decide (v.core < 80000 ∧ v.group < 8)
  | .fcmp v => decide (v.core < 80000 ∧ v.group < 8)
  | .vecSel v => decide (v.core < 80000 ∧ v.group < 8)
  | .fexp2 v => decide (v.core < 80000 ∧ v.group < 8)
  | .frcp v => decide (v.core < 80000 ∧ v.group < 8)
  | .frsqrt v => decide (v.core < 80000 ∧ v.group < 8)
  | .iadd v => decide (v.core < 80000 ∧ v.group < 8)
  | .isub v => decide (v.core < 80000 ∧ v.group < 8)
  | .imul v => decide (v.core < 80000 ∧ v.group < 8)
  | .vecAnd v => decide (v.core < 80000 ∧ v.group < 8)
  | .vecOr v => decide (v.core < 80000 ∧ v.group < 8)
  | .vecXor v => decide (v.core < 80000 ∧ v.group < 8)
  | .vecShl v => decide (v.core < 80000 ∧ v.group < 8)
  | .vecShr v => decide (v.core < 80000 ∧ v.group < 8)
  | .vecSar v => decide (v.core < 80000 ∧ v.group < 8)
  | .imin v => decide (v.core < 80000 ∧ v.group < 8)
  | .imax v => decide (v.core < 80000 ∧ v.group < 8)
  | .icmp v => decide (v.core < 80000 ∧ v.group < 8)
  | .cvtF32I32 v => decide (v.core < 80000 ∧ v.group < 8)
  | .cvtI32F32 v => decide (v.core < 80000 ∧ v.group < 8)
  | .cvtBf16F32 v => decide (v.core < 80000 ∧ v.group < 8)
  | .cvtF32Bf16 v => decide (v.core < 80000 ∧ v.group < 8)
  | .mxcvt v => decide (v.core < 80000 ∧ v.group < 8)
  | .mxld v => decide (v.core < 80000 ∧ v.group < 8)
  | .sadd v => decide (v.core < 80000 ∧ v.group < 8)
  | .saddw v => decide (v.core < 80000 ∧ v.group < 8)
  | .scvt v => decide (v.core < 80000 ∧ v.group < 8)
  | .sclr v => decide (v.core < 80000 ∧ v.group < 8)
  | .vld v => decide (v.core < 80000 ∧ v.group < 8)
  | .vst v => decide (v.core < 80000 ∧ v.group < 8)
  | .vgld v => decide (v.core < 80000 ∧ v.group < 8)
  | .vgldReturn _ => true
  | .vgst v => decide (v.core < 80000 ∧ v.group < 8)
  | .vectorStoreResponse _ => true
  | .vatom v => decide (v.core < 80000 ∧ v.group < 8)
  | .vatomReturn _ => true
  | .vlatom v => decide (v.core < 80000 ∧ v.group < 8)
  | .vtld v => decide (v.core < 80000 ∧ v.group < 8)
  | .vthdr v => decide (v.core < 80000 ∧ v.group < 8)
  | .vtrel v => decide (v.core < 80000 ∧ v.group < 8)
  | .vbr v => decide (v.core < 80000 ∧ v.group < 8)
  | .vbar v => decide (v.core < 80000 ∧ v.group < 8)
  | .veBarrier c _ _ => decide (c < 80000)
  | .vexit v => decide (v.core < 80000 ∧ v.group < 8)
  | .vsum v => decide (v.core < 80000 ∧ v.group < 8)
  | .vawait v => decide (v.core < 80000 ∧ v.group < 8)
  | .vawaitReturn c _ => decide (c < 80000)
  | .vfence v => decide (v.core < 80000 ∧ v.group < 8)
  | .fence c _ _ => decide (c < 80000)
  | .ldacq c _ _ _ _ => decide (c < 80000)
  | .strel c _ _ _ _ => decide (c < 80000)
  | .aaddW c _ _ _ _ _ => decide (c < 80000)
  | .aaddD c _ _ _ _ _ => decide (c < 80000)
  | .afaddW c _ _ _ _ _ => decide (c < 80000)
  | .aandD c _ _ _ _ _ => decide (c < 80000)
  | .aorD c _ _ _ _ _ => decide (c < 80000)
  | .axorD c _ _ _ _ _ => decide (c < 80000)
  | .asminD c _ _ _ _ _ => decide (c < 80000)
  | .asmaxD c _ _ _ _ _ => decide (c < 80000)
  | .auminD c _ _ _ _ _ => decide (c < 80000)
  | .aumaxD c _ _ _ _ _ => decide (c < 80000)
  | .axchgW c _ _ _ _ _ => decide (c < 80000)
  | .axchgD c _ _ _ _ _ => decide (c < 80000)
  | .acasW c _ _ _ _ _ => decide (c < 80000)
  | .acasD c _ _ _ _ _ => decide (c < 80000)
  | .caskRead _ => true
  | .caskWrite _ => true
  | .caskAtomic _ => true
  | .backingFill _ => true
  | .backingWriteAck _ => true
  | .commitList pos => decide (pos < 512)
  | .caskCommitComplete pos => decide (pos < 512)
  | .redContributionHome _ => true
  | .thrashWindow => true
  | .reserveRelaid => true
  | .unfold => true
  | .rdShared _ => true
  | .rdOwn _ => true
  | .rdOwnNoData _ => true
  | .rdCur _ => true
  | .wrLine _ _ => true
  | .wrStash _ _ _ => true
  | .wrPart _ _ _ => true
  | .atomicReq _ _ _ _ _ => true
  | .evictDirty _ _ => true
  | .evictClean _ => true
  | .snpRspI _ => true
  | .snpRspS _ => true
  | .snpRspIData _ _ => true
  | .snpRspSData _ _ => true
  | .snpRspIWbPend _ => true
  | .snpFlushDone _ => true
  | .cmpAck _ => true
  | .snoop _ _ => true
  | .cmpS _ _ => true
  | .cmpE _ _ => true
  | .cmpI _ _ => true
  | .cmp _ _ => true
  | .cmpErr _ _ => true
  | .homeTimeout _ => true
  | .cohHomeTimeout _ => true
  | .cohFlushTimeout => true
  | .trellisPacket gx gy _ => decide (gx < 92 ∧ gy < 64)
  | .rsend c _ => decide (c < 80000)
  | .rrecv c _ _ => decide (c < 80000)
  | .rstat c _ => decide (c < 80000)
  | .rsendLineAccept c => decide (c < 80000)
  | .redCombine _ => true
  | .redFlush gx gy _ _ => decide (gx < 92 ∧ gy < 64)
  | .redSubscription _ => true
  | .redResultArrival _ => true
  | .treeHeaderRead _ _ => true
  | .redWriteback _ _ => true
  | .routeChange => true
  | .e2eResend => true
  | .trLost _ => true
  | .trRouterDead gx gy => decide (gx < 92 ∧ gy < 64)
  | .d2dCrcFail edge _ _ => decide (edge < 14)
  | .dclkLoss die => decide (die < 8)
  | .hbmRead _ => true
  | .hbmWrite _ => true
  | .parityUpdate _ => true
  | .hbmForced stack => decide (stack < 16)
  | .hclkLoss stack => decide (stack < 16)
  | .stackResume stack _ => decide (stack < 16)
  | .thermalReport stack _ _ => decide (stack < 16)
  | .stackHoldExpiry stack => decide (stack < 16)
  | .loopback _ tid _ _ => decide (tid < 256)
  | .asend c _ _ => decide (c < 80000)
  | .astat c _ => decide (c < 80000)
  | .sauRequest _ => true
  | .sauBoundsDone _ => true
  | .sauBarrelFinish _ _ => true
  | .sauResponseArrival _ => true
  | .commandFetch q _ => decide (q < 4096)
  | .submit q => decide (q < 4096)
  | .admission q => decide (q < 4096)
  | .append q => decide (q < 4096)
  | .draft q _ => decide (q < 4096)
  | .park q => decide (q < 4096)
  | .spill q => decide (q < 4096)
  | .spillDone _ => true
  | .resume q => decide (q < 4096)
  | .resumeDone _ _ => true
  | .cancel q => decide (q < 4096)
  | .exportSeq q => decide (q < 4096)
  | .importSeq q => decide (q < 4096)
  | .gather => true
  | .broadcast => true
  | .completionRecord c => decide (c < 80000)
  | .commitComplete => true
  | .commitPoint _ => true
  | .seqTakeover => true
  | .barrelMove _ _ _ => true
  | .helloFrame f => decide (f.port < 4)
  | .linkFrame f => decide (f.port < 4)
  | .spanCrcFail port => decide (port < 4)
  | .spanWrite f => decide (f.port < 4)
  | .sealFrame f => decide (f.port < 4)
  | .ackFrame f => decide (f.port < 4)
  | .redFrame f => decide (f.port < 4)
  | .ringLine _ _ => true
  | .rackFrame f => decide (f.port < 4)
  | .rackOpen f => decide (f.port < 4)
  | .rackGrant f => decide (f.port < 4)
  | .rackMap f => decide (f.port < 4)
  | .rackClose f => decide (f.port < 4)
  | .rackFetch f => decide (f.port < 4)
  | .xferFrame f => decide (f.port < 4)
  | .freqFrame f => decide (f.port < 4)
  | .timeFrame f => decide (f.port < 4)
  | .joinDigest f => decide (f.port < 4)
  | .memberLost f => decide (f.port < 4)
  | .memberJoined f => decide (f.port < 4)
  | .stepFrame f => decide (f.port < 4)
  | .helloTimer port => decide (port < 4)
  | .linkIdleTimer port => decide (port < 4)
  | .portSilence port => decide (port < 4)
  | .streamResend _ => true
  | .ackTimer _ => true
  | .laneLockLoss port _ => decide (port < 4)
  | .fecWindow port _ _ _ => decide (port < 4)
  | .portEnable port _ => decide (port < 4)
  | .portRetry port _ => decide (port < 4)
  | .spanRequestSubmit lc _ => decide (lc < 80000)
  | .helloTimeout _ => true
  | .jobHoldEnd => true
  | .timeTimer port => decide (port < 4)
  | .tsyncEdge => true
  | .rackTimeout _ => true
  | .boundNs _ tid _ => decide (tid < 256)
  | .flit _ _ _ _ _ _ => true
  | .flitSilence => true
  | .linkUp _ _ => true
  | .abiusDown => true
  | .regRd _ => true
  | .regWr _ _ => true
  | .cmdTail _ _ => true
  | .cplHead _ _ => true
  | .noticePost => true
  | .tableReadReturn _ => true
  | .fenceSignal q => decide (q < 4096)
  | .fenceWait q => decide (q < 4096)
  | .ctxCreate q => decide (q < 4096)
  | .ctxDestroy q => decide (q < 4096)
  | .processGone q => decide (q < 4096)
  | .queueCreate q => decide (q < 4096)
  | .queueDestroy q => decide (q < 4096)
  | .fenceCreate q => decide (q < 4096)
  | .fenceShareGrant q => decide (q < 4096)
  | .fenceShareRelease q => decide (q < 4096)
  | .memRegister q => decide (q < 4096)
  | .memHold q => decide (q < 4096)
  | .memRelease q => decide (q < 4096)
  | .memBind q => decide (q < 4096)
  | .memUnbind q => decide (q < 4096)
  | .invalidate q => decide (q < 4096)
  | .queryCapabilities q => decide (q < 4096)
  | .queryUtilisation q => decide (q < 4096)
  | .queryHandle q => decide (q < 4096)
  | .queryModule q => decide (q < 4096)
  | .queue0Create _ tid => decide (tid < 256)
  | .partCreate _ tid => decide (tid < 256)
  | .partDestroy _ tid => decide (tid < 256)
  | .partReset _ tid _ => decide (tid < 256)
  | .migLog _ tid => decide (tid < 256)
  | .migPass _ tid => decide (tid < 256)
  | .migFreeze _ tid => decide (tid < 256)
  | .migFinal _ tid => decide (tid < 256)
  | .migPassEnd => true
  | .migThaw _ tid => decide (tid < 256)
  | .migRestore _ tid _ _ => decide (tid < 256)
  | .migAbort _ tid => decide (tid < 256)
  | .faultReport => true
  | .reportResend => true
  | .escalationTimeout _ => true
  | .faultAck _ tid _ => decide (tid < 256)
  | .safeEnter _ tid => decide (tid < 256)
  | .safeExit _ tid => decide (tid < 256)
  | .safeStateExit => true
  | .admitResume _ tid => decide (tid < 256)
  | .admitFresh _ tid => decide (tid < 256)
  | .clearRecoveryCounter _ tid => decide (tid < 256)
  | .clearReplacementFlag _ tid => decide (tid < 256)
  | .clearLatched _ tid => decide (tid < 256)
  | .fcVote core => decide (core < 8)
  | .fcLatch => true
  | .injExpiry => true
  | .weightReload _ => true
  | .dieLockstep die => decide (die < 8)
  | .dieHung die => decide (die < 8)
  | .dieReady die => decide (die < 8)
  | .dieLost die => decide (die < 8)
  | .ioDieLost die => decide (die < 10)
  | .feedReversed feed => decide (feed < 2)
  | .feedLost feed => decide (feed < 2)
  | .regulatorsOff => true
  | .feedLow feed => decide (feed < 2)
  | .feedOvervolt feed => decide (feed < 2)
  | .feedReturn feed => decide (feed < 2)
  | .feedTripped feed => decide (feed < 2)
  | .fuseReclose feed => decide (feed < 2)
  | .regPhaseLost bank _ => decide (bank < 2)
  | .tilePhaseLost die _ => decide (die < 10)
  | .refclkHoldover => true
  | .refclkLost => true
  | .refclkReturn => true
  | .droopStretch die _ => decide (die < 8)
  | .stretchThrottle die => decide (die < 8)
  | .currentThrottle _ => true
  | .tempThrottle die _ => decide (die < 10)
  | .dieOvertemp die _ => decide (die < 10)
  | .throttleDecay die => decide (die < 8)
  | .throttleLong die => decide (die < 8)
  | .powerCap _ tid _ => decide (tid < 256)
  | .capTaken => true
  | .quietSlotEnd => true
  | .backgroundPiece _ => true
  | .telemetryTick => true
  | .bgBehind => true
  | .pwrEnAssert _ => true
  | .pwrEnDeassert => true
  | .bringUpRow _ => true
  | .bringTimeout => true
  | .dieTest _ tid _ => decide (tid < 256)
  | .svnCommit _ tid => decide (tid < 256)
  | .fwImage _ tid _ => decide (tid < 256)
  | .fwUpdate _ tid => decide (tid < 256)
  | .fwHandover _ => true
  | .epochAdvance _ tid => decide (tid < 256)
  | .certInstall _ tid _ => decide (tid < 256)
  | .getVersion _ _ => true
  | .getCapabilities _ _ => true
  | .negotiateAlgorithms _ _ => true
  | .getDigests _ _ => true
  | .getCertificate _ _ => true
  | .challenge _ _ => true
  | .getMeasurements _ _ => true
  | .spdmUnsupported _ _ => true
  | .tamper => true
  | .voltageGlitch => true
  | .clockGlitch => true
  | .cold => true
  | .alarmClear _ tid => decide (tid < 256)
  | .debugToken _ tid _ => decide (tid < 256)
  | .dtpRead _ tid idx sb => decide (tid < 256 ∧ idx < 65536 ∧ sb < 256)
  | .dtpWrite _ tid idx sb _ => decide (tid < 256 ∧ idx < 65536 ∧ sb < 256)
  | .groupCommit _ tid idx sb => decide (tid < 256 ∧ idx < 65536 ∧ sb < 256)
  | .groupDiscard _ tid idx sb => decide (tid < 256 ∧ idx < 65536 ∧ sb < 256)
  | .stagingTimeout idx sb => decide (idx < 65536 ∧ sb < 256)
  | .dtpWriteInit _ tid idx sb _ => decide (tid < 256 ∧ idx < 65536 ∧ sb < 256)
  | .dtpReadCommitted _ tid idx sb => decide (tid < 256 ∧ idx < 65536 ∧ sb < 256)
  | .dtpInfo _ tid idx sb => decide (tid < 256 ∧ idx < 65536 ∧ sb < 256)
  | .dtpSegment _ _ _ => true
  | .dtpAck _ _ => true
  | .dtpAbort _ tid _ => decide (tid < 256)
  | .dtpTransferTimeout _ => true
  | .dtpLevel _ tid _ => decide (tid < 256)
  | .levelGrant _ tid _ => decide (tid < 256)
  | .pathIdleTimeout _ => true
  | .heartbeat => true
  | .dtpBusOff _ => true
  | .dtpAddrClash => true
  | .evictAck _ => true
  | .ccIllegal c => decide (c < 80000)
  | .veIllegal v => decide (v.core < 80000 ∧ v.group < 8)
  | .frameForward f _ => decide (f.port < 4)
  | .reservedFrameType f => decide (f.port < 4)
  | .abCmd _ tid _ _ => decide (tid < 256)
  | .debugAccess _ => true
  | .alarmSourceInactive source => decide (source < 4)
  | .canErrorFrame _ => true
  | .flashWriteComplete _ _ => true
  | .requestReturn => true

end Sys2Proof
end

