-- ==== Sys2Proof/Safety.lean ====
section
/-!
DEFINITION. Safety.lean: what counts as a state and a run of the block in good order, and the terms in which the statements
about commands are made: which pieces of the state a command may change, and what a step of a core changes.
-/

namespace Sys2Proof.Machine

/-! ### States in good order -/

/-- Every waiting command names parts that the module has. -/
def State.queueOk (s : State) : Prop := ∀ c ∈ s.pending, c.wf = true

/-- Memory is in its canonical form: addresses strictly rising, no byte listed that reads as unwritten memory does. -/
def State.memOk (s : State) : Prop := Mem.wf s.mem

/-- The state is in good order. -/
def State.Inv (s : State) : Prop := s.memOk ∧ s.queueOk

/-- An outcome that is a next state. -/
def goesOn (r : Res) : Prop := ∃ t, r = .next t

/-! ### Pieces of the state -/

/-- The pieces of the state beside the queue. -/
inductive Piece where
  | mem | cores | reqs | nextTag | accepts | writers | cellar | coh | trellis | hbm | sau | seq | host | span | parts | faults | power | bring
  | sec | dict | time | freeCtr
  deriving DecidableEq, Repr

/-- A piece is the same in two states. -/
def Piece.same (s t : State) : Piece → Prop
  | .mem => t.mem = s.mem
  | .cores => t.cores = s.cores
  | .reqs => t.reqs = s.reqs
  | .nextTag => t.nextTag = s.nextTag
  | .accepts => t.accepts = s.accepts
  | .writers => t.writers = s.writers
  | .cellar => t.cellar = s.cellar
  | .coh => t.coh = s.coh
  | .trellis => t.trellis = s.trellis
  | .hbm => t.hbm = s.hbm
  | .sau => t.sau = s.sau
  | .seq => t.seq = s.seq
  | .host => t.host = s.host
  | .span => t.span = s.span
  | .parts => t.parts = s.parts
  | .faults => t.faults = s.faults
  | .power => t.power = s.power
  | .bring => t.bring = s.bring
  | .sec => t.sec = s.sec
  | .dict => t.dict = s.dict
  | .time => t.time = s.time
  | .freeCtr => t.freeCtr = s.freeCtr

/-- Only the listed pieces of the state differ; the queue is the same. -/
def State.onlyChanges (l : List Piece) (s t : State) : Prop := t.pending = s.pending ∧ ∀ p, p ∉ l → p.same s t

/-- The pieces of the state that a command may change. -/
def changes : Instr → List Piece
  | .registerWrite .. | .dtpWrite .. | .groupCommit .. | .groupDiscard .. | .dtpSegment .. =>
    [.mem, .cores, .reqs, .nextTag, .writers, .cellar, .coh, .trellis, .hbm, .sau, .seq, .host, .span, .parts, .faults, .power, .bring, .sec, .dict, .freeCtr]
  | .stickyClear .. | .hbmForced .. | .faultAck .. | .safeExit .. | .clearRecoveryCounter .. | .clearReplacementFlag ..
    | .fcVote .. | .bgBehind | .dtpAck .. | .dtpAbort .. | .dtpTransferTimeout .. | .dtpBusOff .. | .dtpAddrClash
    | .canErrorFrame .. =>
    [.faults, .dict]
  | .planLoad .. =>
    [.mem, .reqs, .nextTag, .accepts, .cellar, .coh, .hbm, .host, .span, .faults, .sec, .dict, .freeCtr]
  | .planUnload .. =>
    [.mem, .reqs, .nextTag, .cellar, .coh, .hbm, .seq, .host, .span, .sec, .dict]
  | .add .. | .sub .. | .andr .. | .orr .. | .xorr .. | .shl .. | .shr .. | .sar .. | .slt .. | .sltu .. | .seq ..
    | .minS .. | .maxS .. | .minu .. | .maxu .. | .sel .. | .mul .. | .mulh .. | .mulhu .. | .div .. | .divu .. | .rem ..
    | .remu .. | .sext8 .. | .sext16 .. | .sext32 .. | .zext32 .. | .addi .. | .andi .. | .ori .. | .xori .. | .shli ..
    | .shri .. | .sari .. | .slti .. | .sltiu .. | .seqi .. | .li .. | .liu .. | .lih .. | .addli .. | .jal .. | .beq ..
    | .bne .. | .blt .. | .bge .. | .bltu .. | .bgeu .. | .jr .. | .stl8 .. | .stl16 .. | .stl32 .. | .stl64 .. | .ldg ..
    | .ldgu .. | .stg .. | .tis .. | .cpy .. | .awaitArr .. | .pwait .. | .rcinv .. | .kend .. | .vgo .. | .vjoin ..
    | .vbc .. | .srd .. | .sstat .. | .fadd .. | .fsub .. | .fmul .. | .ffma .. | .fmin .. | .fmax .. | .fcmp ..
    | .vecSel .. | .fexp2 .. | .frcp .. | .frsqrt .. | .iadd .. | .isub .. | .imul .. | .vecAnd .. | .vecOr .. | .vecXor ..
    | .vecShl .. | .vecShr .. | .vecSar .. | .imin .. | .imax .. | .icmp .. | .cvtF32I32 .. | .cvtI32F32 .. | .cvtBf16F32 ..
    | .cvtF32Bf16 .. | .mxcvt .. | .mxld .. | .sadd .. | .saddw .. | .scvt .. | .sclr .. | .vld .. | .vst .. | .vgld ..
    | .vgst .. | .vatom .. | .vlatom .. | .vtld .. | .vthdr .. | .vtrel .. | .vbr .. | .vbar .. | .vexit .. | .vsum ..
    | .vawait .. | .vfence .. | .fence .. | .ldacq .. | .strel .. | .aaddW .. | .aaddD .. | .afaddW .. | .aandD ..
    | .aorD .. | .axorD .. | .asminD .. | .asmaxD .. | .auminD .. | .aumaxD .. | .axchgW .. | .axchgD .. | .acasW ..
    | .acasD .. | .rsend .. | .rstat .. | .astat .. | .ccIllegal .. | .veIllegal .. =>
    [.cores, .reqs, .nextTag, .faults, .sec, .freeCtr]
  | .ldl8 .. | .ldl16 .. | .ldl32 .. | .ldl64 .. =>
    [.cores, .reqs, .nextTag, .faults, .sec, .time, .freeCtr]
  | .globalLoadResult .. | .icacheFill .. | .pressCommandStart .. | .ccWatchdog .. | .srdReturn .. | .veBarrier ..
    | .cmpErr .. =>
    [.cores, .reqs, .faults]
  | .pressReadDone .. | .dmaResponse .. | .vgldReturn .. | .vectorStoreResponse .. | .vatomReturn .. =>
    [.cores, .reqs, .faults, .freeCtr]
  | .pressLastProduct .. | .pressDrainComplete .. | .awaitReturn .. | .pwaitReturn .. | .kendDone .. | .vjoinReturn ..
    | .vawaitReturn .. =>
    [.cores]
  | .dmaRequest .. =>
    [.cores, .reqs, .nextTag, .faults, .freeCtr]
  | .kernelStart .. =>
    [.cores, .reqs, .cellar, .trellis, .sau, .seq, .faults, .dict, .time, .freeCtr]
  | .caskRead .. | .caskWrite .. | .caskAtomic .. | .backingFill .. | .rdShared .. | .rdOwn .. | .rdOwnNoData .. | .rdCur ..
    | .wrLine .. | .wrStash .. | .wrPart .. | .atomicReq .. | .evictDirty .. | .evictClean .. | .snpRspI .. | .snpRspS ..
    | .snpRspIData .. | .snpRspSData .. | .snpRspIWbPend .. =>
    [.cores, .reqs, .nextTag, .accepts, .writers, .cellar, .coh, .parts, .faults, .dict]
  | .backingWriteAck .. =>
    [.cores, .reqs, .coh, .faults]
  | .commitList .. | .cmpAck .. =>
    [.reqs, .nextTag, .accepts, .cellar, .coh, .parts, .faults, .dict]
  | .caskCommitComplete .. =>
    [.cellar]
  | .redContributionHome .. =>
    [.reqs, .nextTag, .accepts, .cellar, .coh, .trellis, .span, .faults, .dict]
  | .thrashWindow =>
    [.cellar, .seq, .faults, .dict]
  | .reserveRelaid =>
    [.reqs, .nextTag, .accepts, .cellar, .coh, .faults, .dict]
  | .unfold =>
    [.cores, .reqs, .nextTag, .accepts, .cellar, .coh, .trellis, .seq, .faults, .dict]
  | .snpFlushDone .. | .evictAck .. =>
    [.coh, .faults]
  | .snoop .. =>
    [.reqs, .cellar, .coh, .faults]
  | .cmpS .. | .cmpE .. | .cmpI .. =>
    [.cores, .reqs, .cellar, .coh, .faults]
  | .cmp .. =>
    [.cores, .reqs, .writers, .cellar, .coh, .faults, .dict]
  | .homeTimeout .. | .cohHomeTimeout .. =>
    [.cores, .reqs, .cellar, .coh, .seq, .faults, .dict]
  | .cohFlushTimeout =>
    [.cores, .reqs, .cellar, .coh, .hbm, .seq, .faults, .dict]
  | .trellisPacket .. =>
    [.trellis, .faults]
  | .rrecv .. =>
    [.cores, .reqs, .nextTag, .trellis, .faults, .sec, .freeCtr]
  | .rsendLineAccept .. =>
    [.cores, .reqs, .nextTag, .trellis, .faults, .freeCtr]
  | .redCombine .. =>
    [.nextTag, .trellis, .dict]
  | .redFlush .. =>
    [.nextTag, .trellis]
  | .redSubscription .. =>
    [.reqs, .nextTag, .accepts, .cellar, .coh, .trellis, .faults, .dict]
  | .redResultArrival .. =>
    [.cores, .reqs, .trellis, .faults, .freeCtr]
  | .treeHeaderRead .. =>
    [.reqs, .cellar, .trellis, .span]
  | .redWriteback .. =>
    [.cellar, .trellis, .span]
  | .routeChange =>
    [.cores, .reqs, .cellar, .coh, .trellis, .sau, .seq, .faults, .dict, .freeCtr]
  | .e2eResend =>
    [.reqs, .trellis, .sau, .dict]
  | .trLost .. =>
    [.cores, .reqs, .trellis, .sau, .faults, .dict]
  | .trRouterDead .. =>
    [.cores, .reqs, .cellar, .coh, .trellis, .sau, .seq, .faults, .dict]
  | .d2dCrcFail .. =>
    [.trellis, .faults, .dict]
  | .dclkLoss .. | .dieLockstep .. | .dieHung .. =>
    [.cores, .reqs, .cellar, .coh, .trellis, .hbm, .sau, .seq, .faults, .dict, .freeCtr]
  | .hbmRead .. =>
    [.reqs, .hbm, .faults, .bring, .dict]
  | .hbmWrite .. =>
    [.mem, .cores, .reqs, .coh, .hbm, .span, .faults, .bring, .dict]
  | .parityUpdate .. =>
    [.mem, .reqs, .hbm, .faults, .bring, .dict]
  | .hclkLoss .. | .stackResume .. =>
    [.hbm]
  | .thermalReport .. =>
    [.hbm, .seq, .faults, .dict, .freeCtr]
  | .stackHoldExpiry .. =>
    [.hbm, .faults, .bring, .dict]
  | .loopback .. =>
    [.mem, .hbm, .faults, .bring, .dict, .freeCtr]
  | .asend .. =>
    [.cores, .reqs, .nextTag, .sau, .faults, .sec, .freeCtr]
  | .sauRequest .. =>
    [.cores, .reqs, .sau, .faults, .freeCtr]
  | .sauBoundsDone .. | .sauBarrelFinish .. =>
    [.hbm, .sau, .faults, .bring, .dict, .freeCtr]
  | .sauResponseArrival .. =>
    [.cores, .reqs, .sau, .seq, .faults, .dict, .freeCtr]
  | .commandFetch .. | .append .. | .park .. | .spill .. | .exportSeq .. | .importSeq .. =>
    [.mem, .reqs, .nextTag, .cellar, .coh, .hbm, .seq, .host, .span, .dict]
  | .submit .. | .admission .. =>
    [.mem, .reqs, .nextTag, .cellar, .coh, .hbm, .seq, .host, .span, .dict, .freeCtr]
  | .draft .. =>
    [.mem, .reqs, .nextTag, .cellar, .coh, .hbm, .seq, .host, .span, .faults, .dict]
  | .spillDone .. | .resumeDone .. | .helloFrame .. | .linkFrame .. | .ackFrame .. | .helloTimer .. | .portSilence ..
    | .laneLockLoss .. | .fecWindow .. | .helloTimeout .. | .rackTimeout .. =>
    [.mem, .reqs, .nextTag, .writers, .cellar, .coh, .hbm, .seq, .host, .span, .faults, .bring, .dict]
  | .resume .. | .spanWrite .. | .sealFrame .. | .rackFrame .. | .rackOpen .. | .rackGrant .. | .rackMap .. | .rackClose ..
    | .rackFetch .. | .xferFrame .. | .ackTimer .. =>
    [.mem, .reqs, .nextTag, .writers, .cellar, .coh, .hbm, .seq, .host, .span, .parts, .faults, .bring, .dict]
  | .cancel .. | .processGone .. | .admitFresh .. =>
    [.mem, .cores, .reqs, .nextTag, .cellar, .coh, .hbm, .seq, .host, .span, .dict]
  | .gather =>
    [.mem, .writers, .cellar, .coh, .hbm, .seq, .host, .span, .parts, .faults, .bring, .dict]
  | .broadcast =>
    [.cores, .reqs, .cellar, .trellis, .hbm, .sau, .seq, .span, .faults, .power, .dict, .time, .freeCtr]
  | .completionRecord .. =>
    [.mem, .cores, .reqs, .nextTag, .writers, .cellar, .coh, .trellis, .hbm, .sau, .seq, .host, .span, .parts, .faults, .bring, .dict]
  | .commitComplete =>
    [.mem, .cores, .reqs, .nextTag, .writers, .cellar, .coh, .trellis, .hbm, .seq, .host, .span, .faults, .bring, .dict, .freeCtr]
  | .commitPoint .. =>
    [.mem, .cores, .reqs, .nextTag, .writers, .cellar, .coh, .hbm, .seq, .host, .span, .parts, .faults, .power, .bring, .dict, .freeCtr]
  | .seqTakeover | .escalationTimeout .. | .safeEnter .. | .ioDieLost .. =>
    [.mem, .cores, .reqs, .nextTag, .writers, .cellar, .coh, .trellis, .hbm, .sau, .seq, .host, .span, .faults, .power, .bring, .dict]
  | .barrelMove .. =>
    [.mem, .writers, .cellar, .coh, .hbm, .seq, .span, .parts, .faults, .bring, .dict]
  | .spanCrcFail .. | .linkIdleTimer .. | .frameForward .. | .reservedFrameType .. =>
    [.span, .dict]
  | .redFrame .. | .ringLine .. | .streamResend .. =>
    [.span, .faults, .dict]
  | .freqFrame .. =>
    [.seq, .span, .faults, .dict, .time, .freeCtr]
  | .timeFrame .. | .joinDigest .. | .memberJoined .. | .stepFrame .. | .timeTimer .. =>
    [.span, .faults, .dict, .time, .freeCtr]
  | .memberLost .. =>
    [.mem, .reqs, .nextTag, .writers, .cellar, .coh, .hbm, .seq, .host, .span, .faults, .bring, .dict, .time, .freeCtr]
  | .portEnable .. | .portRetry .. =>
    [.span]
  | .spanRequestSubmit .. =>
    [.cellar, .coh, .host, .span, .faults, .dict]
  | .jobHoldEnd =>
    [.cores, .reqs, .cellar, .trellis, .sau, .seq, .span, .dict]
  | .tsyncEdge =>
    [.span, .dict, .time, .freeCtr]
  | .boundNs .. | .reportResend | .stagingTimeout .. | .dtpWriteInit .. | .dtpInfo .. | .dtpLevel .. | .pathIdleTimeout ..
    | .abCmd .. =>
    [.dict]
  | .flit .. =>
    [.host, .faults, .dict, .freeCtr]
  | .flitSilence =>
    [.host]
  | .linkUp .. =>
    [.host, .faults, .dict]
  | .abiusDown =>
    [.cores, .reqs, .cellar, .coh, .seq, .host, .parts, .faults, .dict]
  | .regRd .. =>
    [.coh, .faults, .dict]
  | .regWr .. | .cmdTail .. | .cplHead .. =>
    [.reqs, .nextTag, .cellar, .coh, .seq, .host, .faults, .dict]
  | .noticePost =>
    [.reqs, .nextTag, .cellar, .coh, .host]
  | .tableReadReturn .. =>
    [.cores, .reqs, .nextTag, .accepts, .cellar, .coh, .hbm, .faults, .bring, .dict]
  | .fenceSignal .. | .fenceWait .. | .ctxCreate .. | .queueCreate .. | .queueDestroy .. | .fenceCreate ..
    | .fenceShareGrant .. | .fenceShareRelease .. | .memRegister .. | .memHold .. | .memRelease .. | .memBind ..
    | .queryCapabilities .. | .queryUtilisation .. | .queryHandle .. | .queryModule .. =>
    [.mem, .reqs, .nextTag, .cellar, .coh, .hbm, .host, .span, .dict]
  | .ctxDestroy .. | .memUnbind .. | .invalidate .. =>
    [.mem, .cores, .reqs, .nextTag, .cellar, .coh, .hbm, .host, .span, .dict]
  | .queue0Create .. =>
    [.host, .dict]
  | .partCreate .. | .partDestroy .. | .migLog .. | .migFreeze .. =>
    [.parts, .dict]
  | .partReset .. | .migAbort .. =>
    [.mem, .cores, .reqs, .nextTag, .cellar, .coh, .hbm, .seq, .host, .span, .parts, .faults, .dict]
  | .migPass .. | .migFinal .. | .migPassEnd =>
    [.reqs, .nextTag, .cellar, .coh, .host, .parts, .dict]
  | .migThaw .. =>
    [.host, .parts, .dict]
  | .migRestore .. =>
    [.mem, .cores, .reqs, .nextTag, .writers, .cellar, .coh, .hbm, .seq, .host, .span, .parts, .faults, .bring, .dict, .freeCtr]
  | .faultReport =>
    [.mem, .cores, .reqs, .nextTag, .writers, .cellar, .coh, .trellis, .hbm, .sau, .seq, .host, .span, .faults, .power, .bring, .sec, .dict, .time, .freeCtr]
  | .safeStateExit =>
    [.host, .span, .faults, .power, .bring, .dict]
  | .admitResume .. =>
    [.coh, .dict]
  | .clearLatched .. =>
    [.host, .span, .faults, .power, .dict]
  | .fcLatch =>
    [.faults, .bring, .dict, .freeCtr]
  | .injExpiry =>
    [.cores, .faults, .dict]
  | .weightReload .. =>
    [.mem, .reqs, .nextTag, .accepts, .cellar, .coh, .hbm, .faults, .dict]
  | .dieReady .. =>
    [.cellar, .trellis, .faults, .bring]
  | .dieLost .. =>
    [.hbm, .faults, .dict]
  | .feedReversed .. | .feedLost .. | .feedLow .. | .feedOvervolt .. | .feedTripped .. =>
    [.cores, .reqs, .sau, .faults, .power, .dict, .freeCtr]
  | .regulatorsOff | .regPhaseLost .. | .pwrEnAssert .. =>
    [.mem, .cores, .reqs, .nextTag, .accepts, .writers, .cellar, .coh, .trellis, .hbm, .sau, .seq, .host, .span, .parts, .faults, .power, .bring, .sec, .dict, .time, .freeCtr]
  | .feedReturn .. | .fuseReclose .. =>
    [.power, .bring]
  | .tilePhaseLost .. =>
    [.seq, .span, .faults, .power, .bring, .dict]
  | .refclkHoldover =>
    [.faults, .power, .bring, .dict]
  | .refclkLost | .bringTimeout =>
    [.faults]
  | .refclkReturn =>
    [.faults, .power, .bring]
  | .droopStretch .. =>
    [.faults, .power, .dict, .freeCtr]
  | .stretchThrottle .. | .currentThrottle .. | .tempThrottle .. =>
    [.seq, .span, .faults, .power, .dict]
  | .dieOvertemp .. =>
    [.faults, .power]
  | .throttleDecay .. | .requestReturn =>
    [.power]
  | .throttleLong .. =>
    [.faults, .power, .dict]
  | .powerCap .. =>
    [.power, .dict]
  | .capTaken =>
    [.seq, .span, .faults, .power, .dict, .freeCtr]
  | .quietSlotEnd =>
    [.cellar, .coh, .seq, .dict, .freeCtr]
  | .backgroundPiece .. =>
    [.mem, .cores, .reqs, .nextTag, .accepts, .cellar, .coh, .trellis, .hbm, .sau, .seq, .host, .span, .parts, .faults, .power, .bring, .dict, .freeCtr]
  | .telemetryTick =>
    [.faults, .power, .dict, .time, .freeCtr]
  | .pwrEnDeassert =>
    [.cores, .reqs, .sau, .power, .bring]
  | .bringUpRow .. =>
    [.mem, .cores, .reqs, .nextTag, .writers, .cellar, .coh, .trellis, .hbm, .sau, .seq, .host, .span, .faults, .power, .bring, .sec, .dict, .freeCtr]
  | .dieTest .. =>
    [.cores, .reqs, .cellar, .coh, .trellis, .hbm, .sau, .seq, .faults, .bring, .dict, .freeCtr]
  | .svnCommit .. =>
    [.bring, .sec, .dict]
  | .fwImage .. | .fwUpdate .. | .certInstall .. =>
    [.sec, .dict]
  | .fwHandover .. | .epochAdvance .. | .tamper | .voltageGlitch | .clockGlitch | .cold | .alarmClear .. =>
    [.faults, .sec, .dict]
  | .getVersion .. | .getCapabilities .. | .negotiateAlgorithms .. | .getDigests .. | .getCertificate .. | .challenge ..
    | .getMeasurements .. | .spdmUnsupported .. =>
    [.sec, .freeCtr]
  | .debugToken .. | .levelGrant .. =>
    [.faults, .sec, .dict, .freeCtr]
  | .dtpRead .. | .dtpReadCommitted .. =>
    [.faults, .dict, .time, .freeCtr]
  | .heartbeat =>
    [.dict, .time, .freeCtr]
  | .debugAccess .. =>
    [.mem, .cores, .writers, .cellar, .coh, .hbm, .span, .faults, .bring, .sec, .dict]
  | .alarmSourceInactive .. =>
    [.sec]
  | .flashWriteComplete .. =>
    [.mem, .cores, .reqs, .nextTag, .writers, .cellar, .coh, .hbm, .seq, .host, .span, .faults, .power, .bring, .sec, .dict]

/-! ### Steps of a core -/

/-- The control core of `c` has an instruction of `len` bytes that names registers `rs` at its program counter and waits for
nothing: a kernel runs, no named register awaits a load, the core is not halted, and the code lines are in its instruction cache. -/
def State.ctlGo (s : State) (c len : Nat) (rs : List Reg) : Prop :=
  c < 80000 ∧ s.ctlReady c rs = true ∧ s.fetched c len = true

/-- Beside core `c` a step of that core changes nothing but its single-step mark, which is used up, and the count of free
values drawn. -/
structure OnlyCore (c : Nat) (s t : State) : Prop where
  others : ∀ d, d ≠ c → t.core d = s.core d
  single : ∀ d, d ∈ t.sec.single ↔ d ∈ s.sec.single ∧ d ≠ c
  rest : t = { s with cores := t.cores, freeCtr := t.freeCtr, sec := { s.sec with single := t.sec.single } }

/-- The step of core `c` writes `v` to register `rd` (nothing, if that is s0), leaves the program counter at `pc`, and
changes nothing else but the order of use in the instruction cache and the draw that decides racing accesses. -/
structure RegStep (c : Nat) (rd : Reg) (v pc : Word) (s t : State) : Prop extends OnlyCore c s t where
  dest : (t.core c).reg rd = if rd = 0 then 0 else v
  regs : ∀ r, r ≠ rd → (t.core c).reg r = (s.core c).reg r
  pcIs : (t.core c).pc = pc
  code : ∀ a, (t.core c).hasCode a = (s.core c).hasCode a
  core : t.core c = { s.core c with regs := (t.core c).regs, pc := pc, icache := (t.core c).icache, rdraw := (t.core c).rdraw }

/-- Core `c` keeps its registers, and its program counter is `pc`. -/
def GoesTo (c : Nat) (pc : Word) (s t : State) : Prop :=
  (∀ r, (t.core c).reg r = (s.core c).reg r) ∧ (t.core c).pc = pc

/-- The kernel on core `c` ends by the fault `code` (R108): its waits, groups, copies and press commands are gone, the counts
stay, DONE is set at once if no request of its DMA engine is outstanding, and the collector gets one report that names the
core and the context. -/
structure KernelFault (c code : Nat) (s t : State) : Prop where
  fault : (t.core c).ksFault = BitVec.ofNat 16 code
  waits : (t.core c).wait = .none ∧ (t.core c).busy = []
  copies : (t.core c).chan0 = [] ∧ (t.core c).chan1 = [] ∧ (t.core c).items = []
  cancelled : (t.core c).ksCancel = ((s.core c).ksCancel || (s.core c).items.any fun i => i.kind == .copy && !i.complete)
  counts : (t.core c).issued = (s.core c).issued ∧ (t.core c).arrived = (s.core c).arrived
  press : (t.core c).press = { Press.reset with rdone := (s.core c).press.rdone }
  groups : (t.core c).groups = [] ∧ (t.core c).summ = []
  done : if s.dmaOut c = [] then (t.core c).ksDone = true ∧ (t.core c).run = false
    else (t.core c).ksDone = (s.core c).ksDone ∧ (t.core c).run = true ∧ (t.core c).stopping = true
  stays : GoesTo c (s.core c).pc s t ∧ (t.core c).ldst = (s.core c).ldst
  report : ∃ r : Report, t.faults = { s.faults with reports := s.faults.reports ++ [r] } ∧ r.code = BitVec.ofNat 16 code ∧
    r.ctx = (s.core c).ctx ∧ r.part = (s.core c).part ∧ r.lockind = 1 ∧ r.loc = s.coreLoc c ∧ r.time = s.time
  requests : t.reqs.map (·.tag) = s.reqs.map (·.tag)
  others : ∀ d, d ≠ c → t.core d = s.core d
  rest : t = { s with
    cores := t.cores, reqs := t.reqs, faults := t.faults, freeCtr := t.freeCtr, sec := { s.sec with single := t.sec.single } }

/-- A local read by the control core or a thread may find `b` in the byte at `a`: its value, or one of the values `os` that
racing writes leave possible (R101). -/
def Core.mayFind (k : Core) (os : List Cell) (a : Nat) (b : Byte) : Prop := b = Mem.read k.ldst a ∨ (a, b) ∈ os

/-- No access to the local memory of a core races with another, and no broadcast value is on its way. -/
def State.settled (s : State) (c : Nat) : Prop := (s.core c).contended = false

/-- After a local write the commands and copies in flight are the same, but for the old values that they may still read. -/
structure SameButOlds (k q : Core) : Prop where
  press : q.press = { k.press with olds := q.press.olds }
  items : (q.items.map fun i => { i with olds := [] }) = k.items.map fun i => { i with olds := [] }
  redq : (q.redq.map fun x => { x with olds := [] }) = k.redq.map fun x => { x with olds := [] }

/-- A request is an instruction fetch of core `c`. -/
def Agent.fetchOf (c : Nat) : Agent → Bool
  | .fetch k _ _ => k == c
  | _ => false

/-- The form in which a request of core `c` sets out: untranslated under context 0, at once where its translation is cached, and
to the walk of the page table otherwise (R409, R412); none where the page or the context does not permit the access
(R410, R441). A request of the DMA engine that may not be made is answered with its fault (R107). -/
def State.setsOut (s : State) (c : Nat) (r : Req) : Option Req :=
  let k := s.core c
  if k.ctx = 0 then
    if s.permits r 0 0 r.va true then some (r.atPa r.va) else none
  else match xlatHit k.xlat k.ctx r.va with
    | some e =>
      if s.permits r k.ctx k.part (e.pa + r.va % 2 ^ e.log2) e.w then
        some (r.atPa (e.pa + r.va % 2 ^ e.log2))
      else none
    | none => some { r with stage := .walk 3 (s.ctx k.ctx).root }

/-- One request is sent: `r`, under the next tag. -/
def State.sends (s t : State) (r : Req) : Prop :=
  t.reqs = s.reqs ++ [{ r with tag := s.nextTag, born := s.od 0x6000 2 }] ∧ t.nextTag = s.nextTag + 1

/-- A request but for what it is known to come before and whether it fills the read cache of core `c`. -/
def Req.bare (c : Nat) (r : Req) : Req := { r with vis := [], agent := r.agent.noFill c }

/-- Request `r` is sent under the next tag; of those already sent only what `Req.bare` leaves out may change. -/
def State.adds (s : State) (c : Nat) (t : State) (r : Req) : Prop :=
  (∃ l, t.reqs = l ++ [{ r with tag := s.nextTag, born := s.od 0x6000 2 }] ∧ l.map (Req.bare c) = s.reqs.map (Req.bare c)) ∧
    t.nextTag = s.nextTag + 1

/-! ### Steps of a group of vector threads -/

/-- The threads that execute a group instruction: those ready at it, but for those that its predicate masks (R117). -/
def State.vecExec (s : State) (v : VInstr) (u : VUse) (ready : Nat → Bool) : List Nat :=
  (s.vready v u ready).filter fun i => !v.pen || ((s.core v.core).thread v.group i).preds.getLsbD v.pidx.toNat

/-- A group instruction can issue: its kernel runs, is not halted and is not stalled, at least one thread is ready at it, its
code is in the plan and in the instruction cache, the scheduler takes no other candidate before it, it is not reserved, and
nothing races with its local accesses (R117, R118, R193). -/
structure State.vecGo (s : State) (v : VInstr) (u : VUse) (ready : Nat → Bool) : Prop where
  core : v.core < 80000
  run : (s.core v.core).run = true ∧ (s.core v.core).stopping = false ∧ s.stopped v.core = false
  flows : s.redStalled v.core = false
  some : s.vready v u ready ≠ []
  code : s.inCode 8 v.pc 8 = true ∧ (s.core v.core).hasCode v.pc = true
  turn : (s.core v.core).overtaken v.group v.pc (s.vready v u ready) = false
  legal : u.illegal v = false
  settled : s.settled v.core

/-- No check bits are wrong under the operand cache bytes that an instruction reads (R88). -/
def State.vecGood (s : State) (v : VInstr) (u : VUse) (ready : Nat → Bool) : Prop :=
  (s.core v.core).worst (u.slotReads (s.vecExec v u ready)) = 0

/-- An issue of a group instruction whose ready threads are `ts`: threads that are not ready, other groups, other cores and the
control core's own state stay. The record of who wrote which local byte, the values that commands and copies in flight may
still read, and the cycles that the engine has been occupied go on. -/
structure VecStep (v : VInstr) (ts : List Nat) (s t : State) : Prop extends OnlyCore v.core s t where
  slots : ∀ g, g ≠ v.group → (t.core v.core).group g = (s.core v.core).group g
  idle : ∀ i, i ∉ ts → (t.core v.core).thread v.group i = (s.core v.core).thread v.group i
  flight : SameButOlds { s.core v.core with press := { (s.core v.core).press with queue := (t.core v.core).press.queue } } (t.core v.core)
  core : t.core v.core = { s.core v.core with
    groups := (t.core v.core).groups, ldst := (t.core v.core).ldst, ecc := (t.core v.core).ecc,
    injNext := (t.core v.core).injNext, press := (t.core v.core).press, items := (t.core v.core).items,
    redq := (t.core v.core).redq, races := (t.core v.core).races, writes := (t.core v.core).writes,
    summ := (t.core v.core).summ, summKnows := (t.core v.core).summKnows, vcycles := (t.core v.core).vcycles,
    rcache := (t.core v.core).rcache, icache := (t.core v.core).icache }

/-- The ready threads go on to the next instruction; predicates, exits and waits stay. -/
def GoOn (v : VInstr) (ts : List Nat) (s t : State) : Prop :=
  ∀ i, ((t.core v.core).thread v.group i).pc = (if i ∈ ts then v.pc + 8 else ((s.core v.core).thread v.group i).pc) ∧
    ((t.core v.core).thread v.group i).live = ((s.core v.core).thread v.group i).live ∧
    ((t.core v.core).thread v.group i).wait = ((s.core v.core).thread v.group i).wait

/-- No byte of the local memory of the core changes outside the `n` bytes at each address of a list. -/
def BytesOutside (c : Nat) (l : List Nat) (n : Nat) (s t : State) : Prop :=
  ∀ b, (∀ a ∈ l, b < a ∨ a + n ≤ b) → Mem.read (t.core c).ldst b = Mem.read (s.core c).ldst b

/-- Every executing thread `i` of `e` gets `f i` in the register or operand cache slot that DST names, and nothing else of any
thread or of local memory changes. -/
structure LaneStep (v : VInstr) (ts e : List Nat) (f : Nat → BitVec 32) (s t : State) : Prop extends VecStep v ts s t where
  on : GoOn v ts s t
  result : ∀ i ∈ e, (t.core v.core).vsrc v.group i 0 false v.dst = f i
  regs : ∀ i n, (i ∉ e ∨ n ≠ v.dst.toNat) → ((t.core v.core).thread v.group i).reg n = ((s.core v.core).thread v.group i).reg n
  preds : ∀ i, ((t.core v.core).thread v.group i).preds = ((s.core v.core).thread v.group i).preds
  bytes : BytesOutside v.core (if v.dst.toNat < 0x40 then [] else e.map (slotAddr v.dst)) 4 s t

/-- Every executing thread `i` of `e` gets the solera word `f i` in the six registers from DST on. -/
structure SoleraStep (v : VInstr) (ts e : List Nat) (f : Nat → Solera) (s t : State) : Prop extends VecStep v ts s t where
  on : GoOn v ts s t
  result : ∀ i ∈ e, (t.core v.core).vsol v.group i v.dst = f i
  regs : ∀ i n, (i ∉ e ∨ n < v.dst.toNat ∨ v.dst.toNat + 6 ≤ n) →
    ((t.core v.core).thread v.group i).reg n = ((s.core v.core).thread v.group i).reg n
  preds : ∀ i, ((t.core v.core).thread v.group i).preds = ((s.core v.core).thread v.group i).preds
  bytes : (t.core v.core).ldst = (s.core v.core).ldst

/-! ### Requests, reports and lines -/

/-- The sender of a request waits for a result that a later command delivers. -/
def Agent.waits : Agent → Bool
  | .engine => false
  | .ctlStore _ => false
  | .comp _ _ _ => false
  | _ => true

/-- Request `tag` has come to its home, nothing holds it back there, no transaction of its line is open, and the check symbols of
its line are good. -/
structure AtHome (s : State) (tag : Nat) (r : Req) (k : ReqKind) : Prop where
  req : s.here? tag = some r
  stage : r.stage = .home
  kind : r.kind = k
  order : s.heldBack r = false
  free : s.waits r = false
  alone : s.txn? (r.pa / 128) = none
  good : ∀ x, s.cellar.line? (r.pa / 128) = some x → x.ecc = 0 ∧ x.ecc2 = 0

/-- Request `tag` has its result, of which `p` holds. -/
def State.result (t : State) (tag : Nat) (p : Req → Prop) : Prop := ∃ q, t.req? tag = some q ∧ q.stage = .done ∧ p q

/-- One report is sent: the code, what it locates, and the time of the event. -/
def Reported (code lockind loc : Nat) (s t : State) : Prop :=
  ∃ r : Report, t.faults.reports = s.faults.reports ++ [r] ∧ r.code = BitVec.ofNat 16 code ∧ r.lockind = lockind ∧ r.loc = loc ∧
    r.time = s.time

/-- Lines with a last-pour mark that the companion does not hold leave the cellar; every other line stays. -/
def Unmarks (s t : State) : Prop :=
  ∀ x : Line, x ∈ t.cellar.lines ↔ x ∈ s.cellar.lines ∧ ¬ (x.mark = true ∧ x.dir = .di ∧ s.txn? x.addr = none)

/-- Every line but those listed is as it was in the cellar. -/
def LinesKept (ls : List Nat) (s t : State) : Prop := ∀ l, l ∉ ls → t.cellar.line? l = s.cellar.line? l

/-! ### Requests on a path of the dictionary, and bytes of memory -/

/-- A write of a level on a path is let through: the path answers, the collector's latch does not hold, no transfer is open on the
path, and its level suffices (R566, R573, R586). -/
def State.lets (s : State) (p : Path) (lvl : Nat) : Prop :=
  s.answers p = true ∧ s.latchOnly = false ∧ s.xfer p = none ∧ lvl ≤ s.level p

/-- The path is answered: one message with the command, the transfer number, the entry and the data of the request. -/
def Answered (p : Path) (cmd tid idx sub : Nat) (data : List Byte) (s t : State) : Prop :=
  (p = .can → s.dict.silent = false) →
    t.dict.out = s.dict.out ++ [{ path := p, cmd := cmd, tid := tid, idx := idx, sub := sub, data := data }]

/-- The path is answered with an abort code, and nothing but the dictionary's counts and answers changes. -/
def Aborted (p : Path) (tid idx sub code : Nat) (s t : State) : Prop :=
  Answered p 0x8F tid idx sub (leBytes code 4) s t ∧ t = { s with dict := t.dict } ∧ t.dict.staged = s.dict.staged ∧
    ∀ i j, j < 256 → (i, j) ≠ (0x1100, 0x27) → t.od i j = s.od i j

/-- Every byte of memory outside the `n` storage addresses from `a` on reads as before. -/
def MemOutside (a n : Nat) (s t : State) : Prop := ∀ b, (b < a ∨ a + n ≤ b) → t.peek b 1 = s.peek b 1

/-! ### Span frames -/

/-- A report with a code and location is among those sent. -/
def ReportedAmong (code lockind loc : Nat) (s t : State) : Prop :=
  ∃ (l m : List Report) (r : Report), t.faults.reports = s.faults.reports ++ l ++ r :: m ∧ r.code = BitVec.ofNat 16 code ∧
    r.lockind = lockind ∧ r.loc = loc ∧ r.time = s.time

/-- The `i`-th count of 0x6100.20: 0 sent, 1 received, 2 forwarded, 3 replayed, 4 re-sent, 5 corrected, 6 uncorrectable, 7 refused. -/
def State.spanCnt (s : State) (i : Nat) : Nat := s.od 0x6100 0x20 / 2 ^ (64 * i) % 2 ^ 64

/-- A count goes on by `n`, modulo 2^64. -/
def SpanCounts (i n : Nat) (s t : State) : Prop := t.spanCnt i = (s.spanCnt i + n) % 2 ^ 64

/-- A frame of a type arrives with a good CRC at a port in service. -/
structure Arrives (s : State) (f : SpanFrame) (typ : Nat) : Prop where
  port : f.port < 4
  up : s.portUp f.port = true
  kind : f.typ = typ
  inj : s.faults.injArmed = none

/-- The port has counted the frame. -/
def Took (f : SpanFrame) (s t : State) : Prop :=
  (t.sport f.port).rx = ((s.sport f.port).rx + 1) % 2 ^ 32 ∧ SpanCounts 1 1 s t

/-- A frame handed to a port would leave it at once: no frame that may leave waits there, none of its class waits, and the port
has the credit. -/
def State.leaves (s : State) (p : Nat) (f : SpanFrame) : Prop :=
  (s.sport p).nextOut = none ∧ (∀ g ∈ (s.sport p).queue, spanClass g.typ ≠ spanClass f.typ) ∧ (s.sport p).mayLeave f = true

/-- A frame has left a port, or waits there. -/
def State.handed (t : State) (p : Nat) (f : SpanFrame) : Prop := (p, f) ∈ t.span.out ∨ f ∈ (t.sport p).queue

/-- One frame is handed to a port: it leaves at once, is counted and kept for replay, or waits for its turn and its credit. -/
structure SendsFrame (p : Nat) (f : SpanFrame) (s t : State) : Prop where
  port : f.port = p
  handed : t.handed p f
  leaves : s.leaves p f → t.span.out = s.span.out ++ [(p, f)] ∧ (t.sport p).buf = (s.sport p).buf ++ [f] ∧
    (t.sport p).queue = (s.sport p).queue ∧ SpanCounts 0 1 s t
  waits : (s.sport p).nextOut = none → ¬ s.leaves p f → t.span.out = s.span.out ∧ (t.sport p).queue = (s.sport p).queue ++ [f]

/-- A frame that is the next of its stream arrives for this module; no other frame of the stream is held, no line that it writes
is held back by the companion, and it is not one whose performance an ACK follows at once. -/
structure NextInStream (s : State) (f : SpanFrame) (typ : Nat) : Prop extends Arrives s f typ where
  dst : f.dst = s.modId
  last : (s.rxOf f.src).last < 2 ^ 24
  turn : f.seq = ((s.rxOf f.src).last + 1) % 2 ^ 24
  alone : (s.rxOf f.src).heldF = []
  noAck : f.seq % 16 ≠ 15
  home : s.frameWaits f = []

/-- One frame enters the stream to a destination, under the stream's next SEQ; it waits where the stream takes no more. -/
def Streams (dst typ tag : Nat) (payload : List Byte) (s t : State) : Prop :=
  ∃ f : SpanFrame, f.typ = typ ∧ f.tag = tag ∧ f.payload = payload ∧ f.dst = dst ∧ f.seq = (s.txTo dst).next ∧
    (t.txTo dst).next = ((s.txTo dst).next + 1) % 2 ^ 24 ∧
    if s.txRoom dst 1 = true then (t.txTo dst).unacked = (s.txTo dst).unacked ++ [f] ∧ (t.txTo dst).waiting = (s.txTo dst).waiting
    else (t.txTo dst).unacked = (s.txTo dst).unacked ∧ (t.txTo dst).waiting = (s.txTo dst).waiting ++ [f]

/-- Bytes at a physical address lie in one line, which no cellar holds, in memory without parity and with good check bytes, and not
in a frame that is mirrored. -/
structure BareLine (s : State) (pa n : Nat) : Prop where
  one : pa % 128 + n ≤ 128
  gone : s.cellar.line? (pa / 128) = none
  parity : s.hbm.parity = false
  plain : s.marked (128 * (pa / 128)) = none
  good : ∀ i, i < 2 → s.eccAt (s.store (128 * (pa / 128)) + 64 * i) = 0

/-- The bytes are stored at a physical address, and every other byte of memory reads as before. -/
def StoredAt (pa : Nat) (d : List Byte) (s t : State) : Prop :=
  let a := s.store (128 * (pa / 128)) + pa % 128
  ∀ b, t.peek b 1 = if a ≤ b ∧ b < a + d.length then [d.getD (b - a) 0] else s.peek b 1

/-- A flooded frame that this module has not seen in the last second arrives. -/
structure FloodIn (s : State) (f : SpanFrame) (typ : Nat) : Prop extends Arrives s f typ where
  other : f.src ≠ s.modId
  fresh : s.tick.floodSeen f = false

/-! ### Commands of the host -/

/-- Command `c`, with operation code `opc` and no reserved bit set, stands at the head of queue `q`, which may give it; the module is
not in the safe state, and no rack is being opened for the queue. -/
structure HasCommand (s : State) (q opc : Nat) (c : BitVec 512) : Prop where
  head : s.head? q = some c
  code : opcOf c = opc
  safe : s.faults.safe = false
  clean : cmdClean c = true
  may : isDriver opc = true → q = 0
  noOpen : (s.queue q).slot = none

/-- The command names a sequence by its current handle, and its queue may act on it. -/
structure NamesSeq (s : State) (q opc : Nat) (c : BitVec 512) : Prop extends HasCommand s q opc c where
  gen : (s.entry (hSlot c)).gen.toNat = hGen c
  own : (s.entry (hSlot c)).st = .free ∨ s.queueCtx q = 0 ∨ (s.entry (hSlot c)).ctx.toNat = s.queueCtx q

/-- The command at the head of queue `q` is completed: one entry of 64 bytes with its CMDID, the status and the ID is posted, the head
is free, and its reservation is used. Memory changes only where an object with a host count of zero is freed. -/
structure Completes (q : Nat) (c : BitVec 512) (status id : Nat) (s t : State) : Prop where
  entry : ∃ e : List Byte, t.host.posted = s.host.posted ++ [(q, e)] ∧ e.length = 64 ∧ num8 e 0 4 = cmdidOf c ∧
    num8 e 4 2 = status % 2 ^ 16 ∧ num8 e 8 4 = id % 2 ^ 32
  free : (t.queue q).cmd = none
  ring : (t.queue q).wr = ((s.queue q).wr + 1) % 2 ^ 32 ∧ (t.queue q).resv = (s.queue q).resv - 1
  mem : (∀ x ∈ s.host.mems, x.2.host ≠ 0) → t.mem = s.mem

/-- The command at the head of queue `q` has left it and will be completed later. -/
structure Deferred (q key : Nat) (c : BitVec 512) (s t : State) : Prop where
  waits : t.seq.cmdWait = s.seq.cmdWait ++ [(opcOf c, key, BitVec.ofNat 32 (cmdidOf c), q)]
  free : (t.queue q).cmd = none
  quiet : t.host.posted = s.host.posted

/-- Every entry of the sequence table but that of one slot is as it was. -/
def SlotsKept (slot : Nat) (s t : State) : Prop := ∀ n, n ≠ slot → t.entry n = s.entry n

/-- Nothing beside the sequences waits for a step boundary: no buddy given up, no context being removed, no partition, no core to be
retired, no freeze, no power cap, and no next step gathered. -/
structure QuietBoundary (s : State) : Prop where
  buddies : s.span.buddyGone = []
  gone : s.host.gone = []
  parts : s.parts.parts = []
  cores : s.faults.retiring = []
  freeze : s.parts.mig.freezing = false
  torn : s.seq.torn = []
  next : s.seq.nxt = none
  cap : s.power.cap = 0

/-! ### Security -/

/-- SPDM_RESPONSE of a path. -/
def State.spdmRsp (s : State) : Path → List Byte
  | .can => s.sec.rspC
  | .mailbox => s.sec.rspM

/-- A path has an SPDM request answered: its connection state and response; the other path's stay. -/
structure SpdmAnswers (p : Path) (st : Nat) (rsp : List Byte) (s t : State) : Prop where
  state : t.spdmState p = st
  rsp : t.spdmRsp p = rsp
  other : ∀ q, q ≠ p → t.spdmState q = s.spdmState q ∧ t.spdmRsp q = s.spdmRsp q
  rest : ∃ n, t = { s with
    sec := { s.sec with spdmC := t.sec.spdmC, spdmM := t.sec.spdmM, rspC := t.sec.rspC, rspM := t.sec.rspM }
    freeCtr := n }

/-- An alarm source becomes active with response `r`: the higher of it and the response in force is in force, zeroing and the
advance of the key epoch are asked for where it is the higher and calls for them, and the event is reported. -/
structure AlarmRaised (source r : Nat) (s t : State) : Prop where
  active : ∀ a, a ∈ t.sec.active ↔ a = source ∨ a ∈ s.sec.active
  inForce : t.sec.inForce = some (max (s.sec.inForce.getD 0) r)
  zeroing : t.sec.zeroing = true ↔ s.sec.zeroing = true ∨ (s.sec.inForce.getD 0 < r ∧ 2 ≤ r)
  advance : t.sec.advance = true ↔ s.sec.advance = true ∨ (s.sec.inForce.getD 0 < r ∧ 3 ≤ r)
  report : Reported (if r = 0 then 0x1804 else 0x4805) 0 0 s t
  status : (t.od 0x8000 1).testBit 0 = true
  rest : t = { s with sec := t.sec, faults := t.faults, dict := t.dict }

/-- A token is rejected: it is counted and reported, the third in one power-up is an alarm, and the nonce is new. -/
structure TokenRejected (s t : State) : Prop where
  count : t.sec.denied = s.sec.denied + 1
  report : ReportedAmong 0x0807 0 0 s t
  status : (t.od 0x8000 1).testBit 3 = true
  third : s.sec.denied = 2 → 4 ∈ t.sec.active
  before : s.sec.denied ≠ 2 → t.sec.active = s.sec.active
  nonce : t.sec.nonce = s.freeStr 32
  closed : t.sec.debug = s.sec.debug ∧ t.sec.opening = s.sec.opening ∧ t.mem = s.mem

end Sys2Proof.Machine
end

