-- ==== Sys2Proof/Certificates/Slice0/Obligations.lean ====
section
/-!
DEFINITION. Certificates/Slice0/Obligations.lean: the statements about the model.
-/

open Sys2Proof Sys2Proof.Machine

/-- A step takes the command at the front of the queue and runs it on the state with the queue's rest (the block's queue is the model's: assumption 1). -/
def Obligations.StepRunsFront : Prop :=
  ∀ (s : State) (c : Instr) (rest : List Instr), s.pending = c :: rest → step s = exec c { s with pending := rest }

/-- With no command waiting the block idles: the model's choice (assumption 1), no rule of the spec. -/
def Obligations.EmptyQueueIdles : Prop :=
  ∀ s : State, s.pending = [] → step s = .next s

/-- The effect of a command is on everything but the queue. -/
def Obligations.ExecLeavesQueue : Prop :=
  ∀ (i : Instr) (s t : State), exec i s = .next t → t.pending = s.pending

/-- No command that names parts of the module is refused or stops, in any state. -/
def Obligations.WellFormedAnswers : Prop :=
  ∀ (i : Instr) (s : State), i.wf = true → ∃ t, exec i s = .next t

/-- Nothing is refused, and a fault names a missing part. -/
def Obligations.OnlyMissingPartsStop : Prop :=
  ∀ (i : Instr) (s : State), (∀ r, exec i s ≠ .refused r) ∧
    ∀ f, exec i s = .fault f → i.wf = false ∧ ∃ kind n, f = .noSuchPart kind n

/-- Every step keeps the good order of the state; the canonical form of memory makes equal memories equal data. -/
def Obligations.StepKeepsGoodOrder : Prop :=
  ∀ s t : State, s.Inv → step s = .next t → t.Inv

/-- The state after reset is in good order, and no command waits. -/
def Obligations.ResetInGoodOrder : Prop :=
  State.reset.Inv ∧ State.reset.pending = []

/-- The frame of every command, piece by piece. -/
def Obligations.EveryCommandFrame : Prop :=
  ∀ (i : Instr) (s t : State), exec i s = .next t → s.onlyChanges (changes i) t

/-- The register forms of the class 0x00 (R79, R74), each with its whole next state. -/
def Obligations.IntegerOperations : Prop :=
  ∀ (s : State) (c : Nat) (rd rs1 rs2 : Reg), s.ctlGo c 4 [rd, rs1, rs2] →
    ∀ op f, (op, f) ∈ ([
        (Instr.add, fun a b => BitVec.ofInt 64 (a.toInt + b.toInt)),
        (Instr.sub, fun a b => BitVec.ofInt 64 (a.toInt - b.toInt)),
        (Instr.andr, fun a b => a &&& b),
        (Instr.orr, fun a b => a ||| b),
        (Instr.xorr, fun a b => a ^^^ b),
        (Instr.shl, fun a b => BitVec.ofNat 64 (a.toNat * 2 ^ (b.toNat % 64))),
        (Instr.shr, fun a b => BitVec.ofNat 64 (a.toNat / 2 ^ (b.toNat % 64))),
        (Instr.sar, fun a b => BitVec.ofInt 64 (a.toInt / 2 ^ (b.toNat % 64))),
        (Instr.slt, fun a b => if a.toInt < b.toInt then 1 else 0),
        (Instr.sltu, fun a b => if a.toNat < b.toNat then 1 else 0),
        (Instr.seq, fun a b => if a = b then 1 else 0),
        (Instr.minS, fun a b => BitVec.ofInt 64 (min a.toInt b.toInt)),
        (Instr.maxS, fun a b => BitVec.ofInt 64 (max a.toInt b.toInt)),
        (Instr.minu, fun a b => BitVec.ofNat 64 (min a.toNat b.toNat)),
        (Instr.maxu, fun a b => BitVec.ofNat 64 (max a.toNat b.toNat)),
        (Instr.mul, fun a b => BitVec.ofInt 64 (a.toInt * b.toInt)),
        (Instr.mulh, fun a b => BitVec.ofInt 64 (a.toInt * b.toInt / 2 ^ 64)),
        (Instr.mulhu, fun a b => BitVec.ofNat 64 (a.toNat * b.toNat / 2 ^ 64)),
        (Instr.div, fun a b => if b = 0 then BitVec.allOnes 64 else BitVec.ofInt 64 (a.toInt.tdiv b.toInt)),
        (Instr.divu, fun a b => if b = 0 then BitVec.allOnes 64 else BitVec.ofNat 64 (a.toNat / b.toNat)),
        (Instr.rem, fun a b => if b = 0 then a else BitVec.ofInt 64 (a.toInt.tmod b.toInt)),
        (Instr.remu, fun a b => if b = 0 then a else BitVec.ofNat 64 (a.toNat % b.toNat))] :
          List ((Nat → Reg → Reg → Reg → Instr) × (Word → Word → Word))) →
    ∃ t, exec (op c rd rs1 rs2) s = .next t ∧
      RegStep c rd (f ((s.core c).reg rs1) ((s.core c).reg rs2)) ((s.core c).pc + 4) s t

/-- The immediate, unary and long forms (R79, R80), each with its whole next state. -/
def Obligations.ImmediateAndUnaryOperations : Prop :=
  (∀ (s : State) (c : Nat) (rd rs1 : Reg) (imm : BitVec 13), s.ctlGo c 4 [rd, rs1] →
    ∀ op f, (op, f) ∈ ([
        (Instr.addi, fun a i => BitVec.ofInt 64 (a.toInt + i)),
        (Instr.andi, fun a i => a &&& BitVec.ofInt 64 i),
        (Instr.ori, fun a i => a ||| BitVec.ofInt 64 i),
        (Instr.xori, fun a i => a ^^^ BitVec.ofInt 64 i),
        (Instr.shli, fun a i => BitVec.ofNat 64 (a.toNat * 2 ^ (i % 64).toNat)),
        (Instr.shri, fun a i => BitVec.ofNat 64 (a.toNat / 2 ^ (i % 64).toNat)),
        (Instr.sari, fun a i => BitVec.ofInt 64 (a.toInt / 2 ^ (i % 64).toNat)),
        (Instr.slti, fun a i => if a.toInt < i then 1 else 0),
        (Instr.sltiu, fun a i => if a.toNat < (BitVec.ofInt 64 i).toNat then 1 else 0),
        (Instr.seqi, fun a i => if a.toInt = i then 1 else 0)] :
          List ((Nat → Reg → Reg → BitVec 13 → Instr) × (Word → Int → Word))) →
    ∃ t, exec (op c rd rs1 imm) s = .next t ∧ RegStep c rd (f ((s.core c).reg rs1) imm.toInt) ((s.core c).pc + 4) s t) ∧
  (∀ (s : State) (c : Nat) (rd rs1 : Reg), s.ctlGo c 4 [rd, rs1, 0] →
    ∀ op f, (op, f) ∈ ([
        (Instr.sext8, fun a => BitVec.ofInt 64 ((a.toNat : Int).bmod (2 ^ 8))),
        (Instr.sext16, fun a => BitVec.ofInt 64 ((a.toNat : Int).bmod (2 ^ 16))),
        (Instr.sext32, fun a => BitVec.ofInt 64 ((a.toNat : Int).bmod (2 ^ 32))),
        (Instr.zext32, fun a => BitVec.ofNat 64 (a.toNat % 2 ^ 32))] : List ((Nat → Reg → Reg → Instr) × (Word → Word))) →
    ∃ t, exec (op c rd rs1) s = .next t ∧ RegStep c rd (f ((s.core c).reg rs1)) ((s.core c).pc + 4) s t) ∧
  (∀ (s : State) (c : Nat) (rd rs1 rs2 : Reg), s.ctlGo c 4 [rd, rs1, rs2] →
    ∃ t, exec (.sel c rd rs1 rs2) s = .next t ∧
      RegStep c rd (if (s.core c).reg rd ≠ 0 then (s.core c).reg rs1 else (s.core c).reg rs2) ((s.core c).pc + 4) s t) ∧
  (∀ (s : State) (c : Nat) (rd : Reg) (imm : BitVec 32), s.ctlGo c 8 [rd] →
    ∀ op f, (op, f) ∈ ([
        (Instr.li, fun _ i => BitVec.ofInt 64 i.toInt),
        (Instr.liu, fun _ i => BitVec.ofNat 64 i.toNat),
        (Instr.lih, fun a i => BitVec.ofNat 64 (a.toNat % 2 ^ 32 + i.toNat * 2 ^ 32)),
        (Instr.addli, fun a i => BitVec.ofInt 64 (a.toInt + i.toInt))] :
          List ((Nat → Reg → BitVec 32 → Instr) × (Word → BitVec 32 → Word))) →
    ∃ t, exec (op c rd imm) s = .next t ∧ RegStep c rd (f ((s.core c).reg rd) imm) ((s.core c).pc + 8) s t)

/-- Jumps and branches (R80), each with its whole next state; a register step on s0 writes no register. -/
def Obligations.JumpsAndBranches : Prop :=
  (∀ (s : State) (c : Nat) (rs1 rs2 : Reg) (off : BitVec 13), s.ctlGo c 4 [rs1, rs2] →
    ∀ op (p : Word → Word → Prop) (_ : ∀ a b, Decidable (p a b)),
      (op = Instr.beq ∧ p = fun a b => a = b) ∨ (op = Instr.bne ∧ p = fun a b => a ≠ b) ∨
      (op = Instr.blt ∧ p = fun a b => a.toInt < b.toInt) ∨ (op = Instr.bge ∧ p = fun a b => b.toInt ≤ a.toInt) ∨
      (op = Instr.bltu ∧ p = fun a b => a.toNat < b.toNat) ∨ (op = Instr.bgeu ∧ p = fun a b => b.toNat ≤ a.toNat) →
    ∃ t, exec (op c rs1 rs2 off) s = .next t ∧
      RegStep c 0 0 (if p ((s.core c).reg rs1) ((s.core c).reg rs2) then (s.core c).pc + BitVec.ofInt 64 (4 * off.toInt)
        else (s.core c).pc + 4) s t) ∧
  (∀ (s : State) (c : Nat) (rd : Reg) (imm : BitVec 32), s.ctlGo c 8 [rd] →
    ∃ t, exec (.jal c rd imm) s = .next t ∧
      RegStep c rd ((s.core c).pc + 8) ((s.core c).pc + BitVec.ofInt 64 (4 * imm.toInt)) s t) ∧
  ∀ (s : State) (c : Nat) (rd rs1 : Reg) (imm : BitVec 13), s.ctlGo c 4 [rd, rs1] →
    ∃ t, exec (.jr c rd rs1 imm) s = .next t ∧
      RegStep c rd ((s.core c).pc + 4) ((s.core c).reg rs1 + BitVec.ofInt 64 (4 * imm.toInt)) s t

/-- Local loads and stores (R81 to R84, R88, R101; the order of the checks is the model's choice, assumption 83): what each address gives. The bytes of a load are read, and those of a store written, at the address that the statement computes. -/
def Obligations.LocalLoadsAndStores : Prop :=
  ∀ (s : State) (c : Nat) (rd rs1 : Reg) (imm : BitVec 13) (n : Nat), s.ctlGo c 4 [rd, rs1] →
    ∀ ld st, (n, ld, st) ∈ ([(1, Instr.ldl8, Instr.stl8), (2, Instr.ldl16, Instr.stl16), (4, Instr.ldl32, Instr.stl32),
        (8, Instr.ldl64, Instr.stl64)] : List (Nat × (Nat → Reg → Reg → BitVec 13 → Instr) × (Nat → Reg → Reg → BitVec 13 → Instr))) →
    let k := s.core c
    let a := (k.reg rs1 + BitVec.ofInt 64 imm.toInt).toNat
    (a % n = 0 → a < 0x1C000 →
      let may := fun (i : Nat) (b : Byte) => k.mayFind (k.others 16 k.knows) (a + i) b
      let d := leBytes (k.reg rd).toNat n
      (k.check a n = 0 → ∃ t bs, exec (ld c rd rs1 imm) s = .next t ∧ bs.length = n ∧ (∀ i, i < n → may i (bs.getD i 0)) ∧
        (s.settled c → bs = k.peek a n) ∧ RegStep c rd (BitVec.ofNat 64 (leNat bs)) (k.pc + 4) s t) ∧
      ∃ t, exec (st c rd rs1 imm) s = .next t ∧ OnlyCore c s t ∧ GoesTo c (k.pc + 4) s t ∧
        (s.settled c → (t.core c).peek a n = d) ∧
        (∀ i, i < n → Mem.read (t.core c).ldst (a + i) = d.getD i 0 ∨
          ((∃ r ∈ k.foes 16 k.knows, r.addr = a + i) ∧ Mem.read (t.core c).ldst (a + i) = Mem.read k.ldst (a + i))) ∧
        (∀ b, b < a ∨ a + n ≤ b → (t.core c).peek b 1 = k.peek b 1) ∧ SameButOlds k (t.core c) ∧
        t.core c = { k with
          pc := (t.core c).pc, icache := (t.core c).icache, ldst := (t.core c).ldst, ecc := (t.core c).ecc,
          injNext := (t.core c).injNext, press := (t.core c).press, items := (t.core c).items, redq := (t.core c).redq,
          races := (t.core c).races, writes := (t.core c).writes, rdraw := (t.core c).rdraw }) ∧
    (a % n = 0 → n = 8 → 0x1F000 ≤ a → a < 0x20000 →
      (a ≠ 0x1F030 → a ≠ 0x1F038 → ∃ t, exec (ld c rd rs1 imm) s = .next t ∧ RegStep c rd (s.coreReg c (a - 0x1F000)) (k.pc + 4) s t) ∧
      (a = 0x1F030 ∨ a = 0x1F038 → ∃ t, exec (ld c rd rs1 imm) s = .next t ∧ (t.core c).pc = k.pc + 4 ∧
        (t.core c).reg rd = (if rd = 0 then 0 else if a = 0x1F038 then t.time else (t.core c).cycle) ∧
        (∀ r, r ≠ rd → (t.core c).reg r = k.reg r) ∧ ∀ d, d ≠ c → t.core d = s.core d) ∧
      ∃ t, exec (st c rd rs1 imm) s = .next t ∧ OnlyCore c s t ∧ GoesTo c (k.pc + 4) s t ∧
        (t.core c).gclass = (if a = 0x1F028 then (k.reg rd).setWidth 3 else k.gclass) ∧
        t.core c = { k with pc := (t.core c).pc, icache := (t.core c).icache, gclass := (t.core c).gclass, rdraw := (t.core c).rdraw }) ∧
    (a % n ≠ 0 → a < 2 ^ 17 → ∀ op, op = ld ∨ op = st → ∃ t, exec (op c rd rs1 imm) s = .next t ∧ KernelFault c 0x2102 s t) ∧
    (2 ^ 17 ≤ a ∨ (a % n = 0 ∧ ((0x1C000 ≤ a ∧ a < 0x1F000) ∨ (0x1F000 ≤ a ∧ n ≠ 8))) → ∀ op, op = ld ∨ op = st →
      ∃ t, exec (op c rd rs1 imm) s = .next t ∧ KernelFault c 0x2103 s t)

/-- Global loads and stores (R81, R89, R90, R156, R157, R166, R355, R406; the order of the checks is the model's choice, assumption 84): the request each one sends and where it is turned away. -/
def Obligations.GlobalLoadsAndStores : Prop :=
  ∀ (s : State) (c : Nat) (rd rs1 : Reg) (imm : BitVec 13), s.ctlGo c 4 [rd, rs1] →
    let k := s.core c
    let n := 2 ^ (imm.toNat / 2048)
    let a := (k.reg rs1 + (imm.setWidth 11).signExtend 64).toNat
    let load := fun (cached : Bool) => { Req.reset with
      agent := .ctlLoad c rd.toNat cached, ctx := k.ctx, kind := .read, va := a, size := n, cls := k.gclass.toNat,
      bypass := !cached, draft := k.draft, early := s.pendingAcqs k.acqs }
    let store := { Req.reset with
      agent := .ctlStore c, ctx := k.ctx, kind := .write, va := a, size := n, cls := k.gclass.toNat,
      data := leBytes (k.reg rd).toNat n, draft := k.draft, rsc := widest k.fences }
    let rest := fun (t : State) => (∀ d, d ≠ c → t.core d = s.core d) ∧ t = { s with
      cores := t.cores, reqs := t.reqs, nextTag := t.nextTag, freeCtr := t.freeCtr, sec := { s.sec with single := t.sec.single } }
    let sent := fun (r : Req) (b : List (Nat × Nat)) (t : State) => s.sends t r ∧ GoesTo c (k.pc + 4) s t ∧
      (t.core c).busy = b ∧ rest t
    (2 ^ 48 ≤ a → ∀ op, op = Instr.ldg ∨ op = Instr.ldgu ∨ op = Instr.stg →
      ∃ t, exec (op c rd rs1 imm) s = .next t ∧ KernelFault c 0x2104 s t) ∧
    (a < 2 ^ 48 → a % n ≠ 0 → ∀ op, op = Instr.ldg ∨ op = Instr.ldgu ∨ op = Instr.stg →
      ∃ t, exec (op c rd rs1 imm) s = .next t ∧ KernelFault c 0x2102 s t) ∧
    (a < 2 ^ 48 → a % n = 0 → isReg a = false →
      (∀ x, s.openAcqs k.acqs = [] → k.rline? a = some x → k.check (x.checkAddr a) n < 2 → ∃ t, exec (.ldg c rd rs1 imm) s = .next t ∧
        (k.check (x.checkAddr a) n = 0 → OnlyCore c s t) ∧
        (t.core c).reg rd = (if rd = 0 then 0 else BitVec.ofNat 64 (num8 x.data (a % 128) n)) ∧
        (∀ r, r ≠ rd → (t.core c).reg r = k.reg r) ∧ (t.core c).pc = k.pc + 4) ∧
      (∀ op cached, (op = Instr.ldg ∧ cached = true ∧ (k.rline? a = none ∨ s.openAcqs k.acqs ≠ [] ∨
          ∃ x, k.rline? a = some x ∧ 2 ≤ k.check (x.checkAddr a) n)) ∨ (op = Instr.ldgu ∧ cached = false) →
        (∀ r, s.setsOut c (load cached) = some r → ∃ t, exec (op c rd rs1 imm) s = .next t ∧
          sent r (if rd = 0 then k.busy else put k.busy rd.toNat s.nextTag) t) ∧
        (s.setsOut c (load cached) = none → ∃ t, exec (op c rd rs1 imm) s = .next t ∧ KernelFault c 0x2105 s t)) ∧
      (k.gclass ≠ 0 → k.gclass ≠ 3 → k.gclass ≠ 7 → s.mayRelease c = true →
        (∀ r, s.setsOut c store = some r → ∃ t, exec (.stg c rd rs1 imm) s = .next t ∧ rest t ∧ GoesTo c (k.pc + 4) s t ∧
          (t.core c).busy = k.busy ∧ s.adds c t r ∧
          (t.core c).rline? a = (k.rline? a).map fun x => { x with data := patch x.data (a % 128) store.data }) ∧
        (s.setsOut c store = none → ∃ t, exec (.stg c rd rs1 imm) s = .next t ∧ KernelFault c 0x2105 s t))) ∧
    (a < 2 ^ 48 → a % n = 0 → isReg a = true →
      (∀ op, op = Instr.ldg ∨ op = Instr.ldgu →
        (∀ v, s.regLoad k.ctx a n = some v → ∃ t, exec (op c rd rs1 imm) s = .next t ∧ RegStep c rd v (k.pc + 4) s t) ∧
        (s.regLoad k.ctx a n = none → ∃ t, exec (op c rd rs1 imm) s = .next t ∧ KernelFault c 0x2105 s t)) ∧
      (k.gclass ≠ 0 → k.gclass ≠ 3 → k.gclass ≠ 7 → s.mayRelease c = true →
        (∀ p w, n = 8 → (s.ctx k.ctx).kind = 1 → spanPage a = some (p, w) → ∃ t, exec (.stg c rd rs1 imm) s = .next t ∧
          GoesTo c (k.pc + 4) s t ∧ find? (t.core p).spanw w = some (k.reg rd) ∧ (∀ d, d ≠ c → d ≠ p → t.core d = s.core d) ∧
          t = { s with cores := t.cores, freeCtr := t.freeCtr, sec := { s.sec with single := t.sec.single } }) ∧
        (n ≠ 8 ∨ (s.ctx k.ctx).kind ≠ 1 ∨ spanPage a = none →
          ∃ t, exec (.stg c rd rs1 imm) s = .next t ∧ KernelFault c 0x2105 s t))) ∧
    (a < 2 ^ 48 → a % n = 0 →
      (k.gclass ≠ 0 → k.gclass ≠ 3 → k.gclass ≠ 7 → s.mayRelease c = false → ∃ t, exec (.stg c rd rs1 imm) s = .next t ∧
        OnlyCore c s t ∧ GoesTo c k.pc s t) ∧
      (k.gclass = 0 ∨ k.gclass = 3 ∨ k.gclass = 7 → ∃ t, exec (.stg c rd rs1 imm) s = .next t ∧ KernelFault c 0x2105 s t))

/-- What comes back to the control core (R73, R74, R102, R106, R144, R157), the fault of an undefined instruction (R76), and words of instructions (R75 to R81, R115). -/
def Obligations.LoadResultsAndFetches : Prop :=
  (∀ (s : State) (tag c rd : Nat) (fill : Bool) (r : Req), s.here? tag = some r → r.agent = .ctlLoad c rd fill → r.stage = .done →
    r.kind = .read → rd < 64 → rd ≠ 0 → find? (s.core c).busy rd = some tag →
    (s.pendingAcqs r.early ≠ [] → exec (.globalLoadResult tag) s = .next s) ∧
    (s.pendingAcqs r.early = [] → r.poison = false → ∃ t, exec (.globalLoadResult tag) s = .next t ∧
      (t.core c).reg (BitVec.ofNat 6 rd) = BitVec.ofNat 64 (num8 r.data (r.va % 128) r.size) ∧
      find? (t.core c).busy rd = none ∧ (∀ q : Reg, q.toNat ≠ rd → (t.core c).reg q = (s.core c).reg q) ∧
      (t.core c).pc = (s.core c).pc ∧ (∀ d, d ≠ c → t.core d = s.core d) ∧
      (let acquires := r.acq = true ∨ ∃ x ∈ (s.core c).acqs, x.1 = tag ∧ 2 ≤ x.2
       (acquires → (t.core c).rcache = []) ∧ (¬ acquires → t.reqs = s.reqs.filter (fun x => x.tag != tag))) ∧
      t.reqs.map (·.tag) = (s.reqs.filter fun x => x.tag != tag).map (·.tag) ∧ t = { s with cores := t.cores, reqs := t.reqs }) ∧
    (s.pendingAcqs r.early = [] → r.poison = true → (s.core c).run = true → (s.core c).stopping = false →
      ∃ t, exec (.globalLoadResult tag) s = .next t ∧ (t.core c).ksFault = 0x2106 ∧ t.mem = s.mem)) ∧
  (∀ (s : State) (c l : Nat) (vec : Bool) (r : Req), c < 80000 → r.agent = .fetch c l vec →
    s.reqs.find? (fun q => q.agent.fetchOf c && q.stage == .done && !q.lost) = some r →
    (r.poison = false → ∃ t, exec (.icacheFill c) s = .next t ∧ (t.core c).hasCode (128 * l) = true ∧
      t.core c = { s.core c with fetching := (s.core c).fetching.filter (· != l), icache := (t.core c).icache } ∧
      (∀ d, d ≠ c → t.core d = s.core d) ∧ t = { s with cores := t.cores, reqs := s.reqs.filter fun q => q.tag != r.tag }) ∧
    (r.poison = true → (s.core c).run = true → (s.core c).stopping = false → ∃ t, exec (.icacheFill c) s = .next t ∧
      (t.core c).ksFault = (if vec then 0x21C6 else 0x2106) ∧ t.mem = s.mem)) ∧
  (∀ (s : State) (c : Nat), s.ctlGo c 4 [] → ∃ t, exec (.ccIllegal c) s = .next t ∧ KernelFault c 0x2101 s t) ∧
  (∀ (c : Nat) (w x : BitVec 32), let op := wordOp w
    (op = 1 ∨ (0x0C ≤ op ∧ op ≤ 0x0F) ∨ (0x12 ≤ op ∧ op ≤ 0x17) ∨ op = 0x1F ∨ (0x2B ≤ op ∧ op ≤ 0x2F) ∨ (0x34 ≤ op ∧ op ≤ 0x37) ∨
      (0x3B ≤ op ∧ op ≤ 0x3F) ∨ (0x45 ≤ op ∧ op ≤ 0x4F) ∨ (0x53 ≤ op ∧ op ≤ 0x5F) ∨ (0x62 ≤ op ∧ op ≤ 0x6F) ∨ 0x76 ≤ op →
      decodeScalar c w x = .ccIllegal c) ∧
    (op = 0x02 → decodeScalar c w x = .addi c (w.extractLsb' 19 6) (w.extractLsb' 13 6) (w.extractLsb' 0 13))) ∧
  (∀ (c : Nat) (x : BitVec 32), decodeScalar c 0x00084180 x = .add c 1 2 3 ∧ decodeScalar c 0x0418BFFF x = .addi c 3 5 0x1FFF ∧
    decodeScalar c 0x20200000 x = .li c 4 x ∧ decodeScalar c 0x30085FFC x = .beq c 1 2 0x1FFC ∧ scalarBytes 0x20200000 = 8 ∧
    scalarBytes 0x30085FFC = 4) ∧
  ∀ c g pc : Nat, decodeVector c g pc 0x0105060700AABCDE =
    .fadd { core := c, group := g, pc := pc, dst := 5, sa := 6, sb := 7, sc := 0, pen := true, pidx := 2, imm := 0xABCDE }

/-- R38: solera words add exactly and without flags lost, and the order and the grouping of the additions cannot change the result. -/
def Obligations.SoleraAdditionIsOrderFree : Prop :=
  (∀ a b : Solera, (a.add b).value = (a.value + b.value).bmod (2 ^ 184) ∧ (a.add b).n = (a.n || b.n) ∧
      (a.add b).v = (a.v || b.v) ∧ (a.add b).x = (a.x || b.x) ∧ ((a.add b) >>> 184).setWidth 5 = (0 : BitVec 5)) ∧
  (∀ a b : Solera, a.add b = b.add a) ∧ (∀ a b c : Solera, (a.add b).add c = a.add (b.add c)) ∧
  ∀ (l l' : List Solera) (w : Solera), l.Perm l' → l.foldl Solera.add w = l'.foldl Solera.add w

/-- R35 to R37 and R39: one rounding for each term, saturation to the term range, and exact sums. -/
def Obligations.SoleraTermsAndSums : Prop :=
  (∀ (eb : Int) (neg : Bool) (m : Nat) (e : Int),
    let w := Solera.term eb (.fin neg m e)
    let k := (eb - e).toNat
    let up := (e - eb).toNat
    ∃ i : Int,
      2 * |i * 2 ^ k - sgn neg m * 2 ^ up| ≤ 2 ^ k ∧ (2 * |i * 2 ^ k - sgn neg m * 2 ^ up| = 2 ^ k → k ≠ 0 → i % 2 = 0) ∧
      w.n = false ∧ w.x = decide (i * 2 ^ k ≠ sgn neg m * 2 ^ up) ∧ w.v = decide (2 ^ 159 - 1 < |i|) ∧
      w.value = max (-(2 ^ 159 - 1)) (min (2 ^ 159 - 1) i)) ∧
  (∀ (eb : Int) (v : FV), v = .nan ∨ (∃ g, v = .inf g) ∨ (∃ g h e, v = FV.mul (.inf g) (.fin h 0 e) ∨ v = FV.mul (.fin h 0 e) (.inf g)) ∨
      (∃ x, v = scaled 255 x) → (Solera.term eb v).n = true ∧ (Solera.term eb v).value = 0) ∧
  (∀ (eb : Int) (l : List FV), let sum := (l.map fun v => (Solera.term eb v).value).sum
    let w := (l.map (Solera.term eb)).foldl Solera.add 0
    w.value = sum.bmod (2 ^ 184) ∧ (-2 ^ 183 ≤ sum → sum ≤ 2 ^ 183 - 1 → w.value = sum) ∧ (l.length ≤ 2 ^ 24 → w.value = sum))

/-- Press commands are issued, and their read-done count awaited, by the control core (R52, R70, R77, R78, R99). -/
def Obligations.PressCommandIssue : Prop :=
  (∀ (s : State) (c : Nat) (rs1 : Reg), s.ctlGo c 4 [rs1, rs1 + 1, rs1 + 2, rs1 + 3] →
    let k := s.core c
    let d := k.reg (rs1 + 3) ++ k.reg (rs1 + 2) ++ k.reg (rs1 + 1) ++ k.reg rs1
    (rs1.toNat % 4 ≠ 0 → ∃ t, exec (.tis c rs1) s = .next t ∧ KernelFault c 0x2101 s t) ∧
    (rs1.toNat % 4 = 0 → 4 ≤ k.press.waiting.length → ∃ t, exec (.tis c rs1) s = .next t ∧ OnlyCore c s t ∧
      GoesTo c k.pc s t ∧ (t.core c).press = k.press) ∧
    (rs1.toNat % 4 = 0 → k.press.waiting.length < 4 →
      (tileCheck d ≠ 0 → ∃ t, exec (.tis c rs1) s = .next t ∧ KernelFault c (tileCheck d) s t) ∧
      (tileCheck d = 0 → ∃ t, exec (.tis c rs1) s = .next t ∧ OnlyCore c s t ∧ GoesTo c (k.pc + 4) s t ∧
        t.core c = { k with
          press := { k.press with waiting := k.press.waiting ++ [d], olds := k.press.olds ++ [k.others 16 k.knows] }
          pc := k.pc + 4, icache := (t.core c).icache, rdraw := (t.core c).rdraw }))) ∧
  (∀ (s : State) (c : Nat) (rs1 : Reg) (imm : BitVec 13), s.ctlGo c 4 [rs1] →
    let k := s.core c
    let target : Nat := (k.reg rs1 + BitVec.ofInt 64 imm.toInt).toNat % 2 ^ 16
    let gap : Int := ((target : Int) - (k.press.rdone.toNat : Int)) % 2 ^ 16
    let owed : Int := k.press.waiting.length + (k.press.runs.filter fun r => !r.readDone).length
    (1 ≤ gap → gap ≤ 2 ^ 15 - 1 → owed < gap → ∃ t, exec (.pwait c rs1 imm) s = .next t ∧ KernelFault c 0x2109 s t) ∧
    (¬ (1 ≤ gap ∧ gap ≤ 2 ^ 15 - 1 ∧ owed < gap) → ∃ t, exec (.pwait c rs1 imm) s = .next t ∧ OnlyCore c s t ∧ GoesTo c k.pc s t ∧
      t.core c = { k with wait := .pwait target, icache := (t.core c).icache, rdraw := (t.core c).rdraw })) ∧
  ∀ (s : State) (c target : Nat), c < 80000 → (s.core c).wait = .pwait target → target < 2 ^ 16 →
    ((((s.core c).press.rdone.toNat : Int) - (target : Int)) % 2 ^ 16 < 2 ^ 15 → ∃ t, exec (.pwaitReturn c) s = .next t ∧
      t = s.setCore c { s.core c with wait := .none, pc := (s.core c).pc + 4 }) ∧
    (2 ^ 15 ≤ (((s.core c).press.rdone.toNat : Int) - (target : Int)) % 2 ^ 16 → exec (.pwaitReturn c) s = .next s)

/-- The life of a press command (R52, R55 to R60, R64, R65, R68 to R70), with its frame: only the press of the core changes. -/
def Obligations.PressRunsCommands : Prop :=
  ∀ (s : State) (c : Nat), c < 80000 →
    let k := s.core c
    let p := k.press
    let only := fun (t : State) => (∀ d, d ≠ c → t.core d = s.core d) ∧ t.core c = { k with press := (t.core c).press }
    (∀ d rest, p.waiting = d :: rest → (∀ r ∈ p.runs, r.readDone = true ∧ ¬ (tBank r.desc = tBank d ∧ tFinish r.desc = true)) →
      (p.bank (tBank d)).st ≠ .draining →
      (tInit d = 0 → (p.bank (tBank d)).st ≠ .valid → k.run = true → k.stopping = false →
        ∃ t, exec (.pressCommandStart c) s = .next t ∧ (t.core c).ksFault = 0x2186) ∧
      (tInit d = 0 → (p.bank (tBank d)).st = .valid → (p.bank (tBank d)).fp ≠ tMode d → k.run = true → k.stopping = false →
        ∃ t, exec (.pressCommandStart c) s = .next t ∧ (t.core c).ksFault = 0x2187) ∧
      ((tInit d ≠ 0 ∨ ((p.bank (tBank d)).st = .valid ∧ (p.bank (tBank d)).fp = tMode d)) →
        ∃ t, exec (.pressCommandStart c) s = .next t ∧ only t ∧ t = { s with cores := t.cores } ∧ (t.core c).press.waiting = rest ∧
          (t.core c).press.runs = p.runs ++ [{ desc := d, readDone := false, snap := [] }] ∧
          ((t.core c).press.bank (tBank d)).st = (if tOp d = 2 ∧ tFinish d = true then .draining else .valid) ∧ ((t.core c).press.bank (tBank d)).fp = tMode d ∧
          (t.core c).press.bank (!tBank d) = p.bank (!tBank d) ∧ (t.core c).press.queue = p.queue ∧ (t.core c).press.rdone = p.rdone)) ∧
    (∀ r, p.runs.find? (fun r => !r.readDone) = some r → k.worst (tReads r.desc) = 0 → ∃ t, exec (.pressReadDone c) s = .next t ∧ only t ∧
      t = { s with cores := t.cores, freeCtr := t.freeCtr } ∧
      (let q := (t.core c).press
       q.rdone = p.rdone + 1 ∧ q.waiting = p.waiting ∧ q.queue = p.queue ∧
       q.runs.map (·.desc) = (p.runs.map (·.desc)).dropWhile (fun d => tOp d == 2) ∧ (∀ x ∈ q.runs, x.readDone = true) ∧
       (∀ x ∈ q.runs, x ∈ p.runs ∨ ∀ a, k.mayFind (p.olds.headD []) a (Mem.read x.snap a)) ∧
       ((∀ x, p.runs.head? = some x → tOp x.desc ≠ 2) → q.bank0 = p.bank0 ∧ q.bank1 = p.bank1 ∧ q.drains = p.drains))) ∧
    (∀ r rest, p.runs = r :: rest → r.readDone = true → ∃ t, exec (.pressLastProduct c) s = .next t ∧ only t ∧
      t = { s with cores := t.cores } ∧ (t.core c).press.runs = rest.dropWhile (fun x => tOp x.desc == 2 && x.readDone) ∧
      (t.core c).press.rdone = p.rdone ∧ ((∀ x, rest.head? = some x → tOp x.desc ≠ 2 ∨ x.readDone = false) →
      (let b := (p.bank (tBank r.desc)).run r.desc r.snap
       if tFinish r.desc then (t.core c).press.bank (tBank r.desc) = { b with st := .draining } ∧
          (t.core c).press.drains = p.drains ++ [(tBank r.desc, b.tile r.desc)]
        else (t.core c).press.bank (tBank r.desc) = b ∧ (t.core c).press.drains = p.drains) ∧
      (t.core c).press.bank (!tBank r.desc) = p.bank (!tBank r.desc))) ∧
    ∀ b tile rest, p.drains = (b, tile) :: rest →
      (p.queue.length < 8 → ∃ t, exec (.pressDrainComplete c) s = .next t ∧ only t ∧ t = { s with cores := t.cores } ∧
        (t.core c).press.queue = p.queue ++ [tile] ∧ (t.core c).press.drains = rest ∧ ((t.core c).press.bank b).st = .invalid ∧
        (t.core c).press.bank (!b) = p.bank (!b)) ∧
      (8 ≤ p.queue.length → exec (.pressDrainComplete c) s = .next s)

/-- Asynchronous copies (R77, R92 to R98, R101, R107). -/
def Obligations.CopiesAndArrivalCounters : Prop :=
  (∀ (s : State) (c : Nat) (rd rs1 : Reg), s.ctlGo c 4 [rd, rs1, rs1 + 1, rs1 + 2, rs1 + 3] →
    let k := s.core c
    let d := k.reg (rs1 + 3) ++ k.reg (rs1 + 2) ++ k.reg (rs1 + 1) ++ k.reg rs1
    let n := cnt k.issued (cActr d)
    (rs1.toNat % 4 ≠ 0 → ∃ t, exec (.cpy c rd rs1) s = .next t ∧ KernelFault c 0x2101 s t) ∧
    (rs1.toNat % 4 = 0 → 8 ≤ (k.chan (cChan d)).length → ∃ t, exec (.cpy c rd rs1) s = .next t ∧ OnlyCore c s t ∧ GoesTo c k.pc s t ∧
      t.core c = { k with icache := (t.core c).icache, rdraw := (t.core c).rdraw }) ∧
    (rs1.toNat % 4 = 0 → (k.chan (cChan d)).length < 8 → copyCheck d ≠ 0 →
      ∃ t, exec (.cpy c rd rs1) s = .next t ∧ KernelFault c (copyCheck d) s t) ∧
    (rs1.toNat % 4 = 0 → (k.chan (cChan d)).length < 8 → copyCheck d = 0 → n = 0xFFFFFFFF →
      ∃ t, exec (.cpy c rd rs1) s = .next t ∧ KernelFault c 0x2147 s t) ∧
    (rs1.toNat % 4 = 0 → copyCheck d = 0 → n ≠ 0xFFFFFFFF → (k.chan (cChan d)).length < 8 →
      ∃ t, exec (.cpy c rd rs1) s = .next t ∧ cnt (t.core c).issued (cActr d) = n + 1 ∧
        (t.core c).reg rd = (if rd = 0 then 0 else BitVec.ofNat 64 (n + 1)) ∧ (∀ r, r ≠ rd → (t.core c).reg r = k.reg r) ∧
        (t.core c).pc = k.pc + 4 ∧ (t.core c).chan (cChan d) = k.chan (cChan d) ++ [{ id := s.nextTag, desc := d, next := 0 }] ∧
        (t.core c).items = k.items ++ [{ ctr := cActr d, id := s.nextTag, left := 1, complete := false, kind := .copy, chan := cChan d
                                         no := n + 1, olds := k.others 16 k.knows }] ∧
        (∀ j, j ≠ cActr d → cnt (t.core c).issued j = cnt k.issued j) ∧ (∀ e, e ≠ c → t.core e = s.core e) ∧
        t = { s with cores := t.cores, nextTag := s.nextTag + 1, freeCtr := t.freeCtr, sec := { s.sec with single := t.sec.single } })) ∧
  (∀ (s : State) (c k : Nat) (rs1 : Reg) (imm : BitVec 13), s.ctlGo c 4 [rs1] → k < 16 →
    let x := s.core c
    let target := (x.reg rs1 + BitVec.ofInt 64 imm.toInt).toNat % 2 ^ 32
    (cnt x.issued k < target → ∃ t, exec (.awaitArr c k rs1 imm) s = .next t ∧ KernelFault c 0x2109 s t) ∧
    (target ≤ cnt x.issued k → ∃ t, exec (.awaitArr c k rs1 imm) s = .next t ∧ OnlyCore c s t ∧ GoesTo c x.pc s t ∧
      t.core c = { x with wait := .await k target, icache := (t.core c).icache, rdraw := (t.core c).rdraw })) ∧
  (∀ (s : State) (c k target : Nat), c < 80000 → (s.core c).wait = .await k target →
    (target ≤ cnt (s.core c).arrived k → ∃ t, exec (.awaitReturn c) s = .next t ∧ t = s.setCore c { s.core c with
      wait := .none, pc := (s.core c).pc + 4, knows := (t.core c).knows, races := (t.core c).races } ∧
      cnt (t.core c).knows k = max (cnt (s.core c).knows k) (cnt (s.core c).arrived k)) ∧
    (cnt (s.core c).arrived k < target → exec (.awaitReturn c) s = .next s)) ∧
  (∀ (s : State) (c ch : Nat) (x : Copy) (rest : List Copy), c < 80000 → ch < 2 → (s.core c).chan ch = x :: rest →
    s.chanReady c ch = true →
    let k := s.core c
    let g := cGaddr x.desc + x.next / 2 ^ 17 * cGstride x.desc + x.next % 2 ^ 17
    let l := cLaddr x.desc + x.next / 2 ^ 17 * cLstride x.desc + x.next % 2 ^ 17
    let n := min (cLen x.desc - x.next % 2 ^ 17) (128 - g % 128)
    let os := ((k.items.find? (·.id == x.id)).map (·.olds)).getD []
    let r := fun (d : List Byte) => { Req.reset with
      agent := (if cOp x.desc = 1 then .dmaRead c x.id l else .dmaWrite c x.id), ctx := k.ctx,
      kind := (if cOp x.desc = 1 then .read else .write), va := g, size := n, cls := cClass x.desc, bypass := true,
      draft := k.draft, data := (if cOp x.desc = 1 then [] else d) }
    (cOp x.desc ≠ 1 → k.check l n = 0) → ∃ t d, exec (.dmaRequest c ch) s = .next t ∧ d.length = n ∧
      (∀ i, i < n → k.mayFind os (l + i) (d.getD i 0)) ∧ (s.settled c → d = k.peek l n) ∧ (t.core c).ldst = k.ldst ∧
      (∀ e, e ≠ c → t.core e = s.core e) ∧ t = { s with cores := t.cores, reqs := t.reqs, nextTag := t.nextTag, freeCtr := t.freeCtr } ∧
      (g < 2 ^ 48 → isReg g = false → (∀ q, s.setsOut c (r d) = some q → s.sends t q) ∧
        (s.setsOut c (r d) = none → s.sends t { r d with stage := .done, err := 0x2145 })) ∧
      (g < 2 ^ 48 → isReg g = true → s.sends t { r d with stage := .done, err := 0x2145 }) ∧
      (2 ^ 48 ≤ g → s.sends t { r d with stage := .done, err := 0x2144 })) ∧
  ∀ (s : State) (tag c i : Nat) (r : Req), s.here? tag = some r → r.stage = .done → (s.core c).stopping = false →
    let k := s.core c
    let os := ((k.items.find? (·.id == i)).map (·.olds)).getD []
    let bare := fun (x : AItem) => ({ x with olds := [] } : AItem)
    (r.poison = false → r.err = 0 → ∀ l, r.agent = .dmaRead c i l → ∃ t, exec (.dmaResponse tag) s = .next t ∧
      (∀ b, b < l ∨ l + r.size ≤ b → Mem.read (t.core c).ldst b = Mem.read k.ldst b) ∧
      (let d := slice r.data (r.va % 128) r.size
       (∀ j, j < r.size → Mem.read (t.core c).ldst (l + j) = d.getD j 0 ∨
         ((∃ x ∈ os, x.1 = l + j) ∧ Mem.read (t.core c).ldst (l + j) = Mem.read k.ldst (l + j))) ∧
       (s.settled c → (t.core c).ldst = Mem.writeN k.ldst l d)) ∧
      (t.core c).items.map bare = (k.itemBack i).items.map bare ∧ (t.core c).arrived = (k.itemBack i).arrived ∧
      t.reqs = s.reqs.filter (fun x => x.tag != tag) ∧ t.mem = s.mem ∧ ∀ d, d ≠ c → t.core d = s.core d) ∧
    (r.poison = false → r.err = 0 → r.agent = .dmaWrite c i → ∃ t, exec (.dmaResponse tag) s = .next t ∧
      t.core c = { k.itemBack i with rdraw := (t.core c).rdraw } ∧
      t.reqs = s.reqs.filter (fun x => x.tag != tag) ∧ t.mem = s.mem ∧ ∀ d, d ≠ c → t.core d = s.core d) ∧
    ((r.err ≠ 0 ∨ r.poison = true) → (r.agent = .dmaWrite c i ∨ ∃ l, r.agent = .dmaRead c i l) → k.run = true →
      ∃ t, exec (.dmaResponse tag) s = .next t ∧ (t.core c).ksFault = BitVec.ofNat 16 (if r.err ≠ 0 then r.err else 0x2148) ∧
        (t.core c).ldst = k.ldst ∧ t.mem = s.mem)

/-- R97: completed items raise their counter's arrived count in issue order, whichever channel they use; other counters do not matter. -/
def Obligations.ArrivalsInIssueOrder : Prop :=
  ∀ (s : State) (tag c i : Nat) (r : Req), s.here? tag = some r → r.stage = .done → r.poison = false → r.err = 0 →
    (r.agent = .dmaWrite c i ∨ ∃ l, r.agent = .dmaRead c i l) → (s.core c).stopping = false →
    ∃ t, exec (.dmaResponse tag) s = .next t ∧ ∀ j : Nat,
      let back := (s.core c).items.map fun x => if x.id = i then { x with left := x.left - 1, complete := decide (x.left ≤ 1) } else x
      let mine := back.filter fun x => x.ctr == j
      let ready := mine.takeWhile (·.complete)
      let bare := fun (x : AItem) => ({ x with olds := [] } : AItem)
      cnt (t.core c).arrived j = cnt (s.core c).arrived j + ready.length ∧
      ((t.core c).items.filter fun x => x.ctr == j).map bare = (mine.drop ready.length).map bare

/-- The end of a kernel (R72, R77, R91, R104, R105, R193, R366). -/
def Obligations.KernelEnds : Prop :=
  (∀ (s : State) (c : Nat), s.ctlGo c 4 [] →
    (∃ t, exec (.rcinv c) s = .next t ∧ GoesTo c ((s.core c).pc + 4) s t ∧ (∀ d, d ≠ c → t.core d = s.core d) ∧
      t.core c = { s.core c with rcache := [], pc := (s.core c).pc + 4, icache := (t.core c).icache, rdraw := (t.core c).rdraw } ∧
      t = { s with cores := t.cores, freeCtr := t.freeCtr, sec := { s.sec with single := t.sec.single }
                   reqs := s.reqs.map fun r => { r with agent := r.agent.noFill c } }) ∧
    ∃ t, exec (.kend c) s = .next t ∧ OnlyCore c s t ∧
      t.core c = { s.core c with wait := .kend, icache := (t.core c).icache, rdraw := (t.core c).rdraw }) ∧
  (∀ (s : State) (c : Nat), c < 80000 → (s.core c).wait = .kend →
    let k := s.core c
    (k.items = [] → k.press.waiting = [] → k.press.runs = [] → k.press.drains = [] → k.groups = [] →
      s.redStalled c = false → exec (.kendDone c) s = .next (s.setCore c { k with
        wait := .none, run := false, ksDone := true, unposted := true,
        ksDropped := k.ksDropped || !k.press.queue.isEmpty, press := { k.press with queue := [] } })) ∧
    (¬ (k.items = [] ∧ k.press.waiting = [] ∧ k.press.runs = [] ∧ k.press.drains = [] ∧ k.groups = [] ∧
        s.redStalled c = false) → exec (.kendDone c) s = .next s)) ∧
  ∀ (s : State) (c : Nat), c < 80000 → (s.core c).run = true → (s.core c).stopping = false →
    (¬ (s.span.hold = true ∧ (s.ctx (s.core c).ctx).kind = 1) →
      ∃ t, exec (.ccWatchdog c) s = .next t ∧ KernelFault c 0x2108 s t) ∧
    (s.span.hold = true → (s.ctx (s.core c).ctx).kind = 1 → exec (.ccWatchdog c) s = .next s)

/-- R30 and R31: subnormals are kept, and the only NaN produced is the canonical one. -/
def Obligations.Fp32AndBf16Codes : Prop :=
  (∀ b : BitVec 32, (FV.of32 b).to32 = if isNaN32 b then 0x7FC00000 else b) ∧
  (∀ b : BitVec 16, (FV.of16 b).to16 = if 0x7F80 < b.toNat % 2 ^ 15 then 0x7FC0 else b) ∧
  ∀ v : FV, (isNaN32 v.to32 = true → v.to32 = 0x7FC00000) ∧ (0x7F80 < v.to16.toNat % 2 ^ 15 → v.to16 = 0x7FC0)

/-- The lane operations (R117, R120 to R125), each with its frame. -/
def Obligations.VectorLaneOperations : Prop :=
  ∀ (s : State) (v : VInstr), let k := s.core v.core
    let all := fun _ : Nat => true
    (∀ op fp f, (op, fp, f) ∈ ([
        (Instr.fadd, true, f32add), (Instr.fsub, true, f32sub), (Instr.fmul, true, f32mul), (Instr.fmin, true, f32min),
        (Instr.fmax, true, f32max), (Instr.iadd, false, fun a b => BitVec.ofInt 32 (a.toInt + b.toInt)),
        (Instr.isub, false, fun a b => BitVec.ofInt 32 (a.toInt - b.toInt)), (Instr.imul, false, fun a b => BitVec.ofInt 32 (a.toInt * b.toInt)),
        (Instr.vecAnd, false, fun a b => a &&& b), (Instr.vecOr, false, fun a b => a ||| b), (Instr.vecXor, false, fun a b => a ^^^ b),
        (Instr.vecShl, false, fun a b => BitVec.ofNat 32 (a.toNat * 2 ^ (b.toNat % 32))),
        (Instr.vecShr, false, fun a b => BitVec.ofNat 32 (a.toNat / 2 ^ (b.toNat % 32))),
        (Instr.vecSar, false, fun a b => BitVec.ofInt 32 (a.toInt / 2 ^ (b.toNat % 32))),
        (Instr.imin, false, fun a b => BitVec.ofInt 32 (min a.toInt b.toInt)), (Instr.imax, false, fun a b => BitVec.ofInt 32 (max a.toInt b.toInt))] :
          List ((VInstr → Instr) × Bool × (BitVec 32 → BitVec 32 → BitVec 32))) →
      let u : VUse := { src := [v.sa, v.sb], fp := fp, dst := [v.dst] }
      s.vecGo v u all → s.vecGood v u all → ∃ t, exec (op v) s = .next t ∧ LaneStep v (s.vready v u all) (s.vecExec v u all)
        (fun i => f (k.vsrc v.group i v.imm fp v.sa) (k.vsrc v.group i v.imm fp v.sb)) s t) ∧
    (∀ op fp imm f, (op, fp, imm, f) ∈ ([
        (Instr.fexp2, true, 0, f32exp2), (Instr.frcp, true, 0, f32rcp), (Instr.frsqrt, true, 0, f32rsqrt),
        (Instr.cvtF32I32, false, 0, intToF32), (Instr.cvtI32F32, true, 1, f32toInt (v.imm.getLsbD 0)),
        (Instr.cvtBf16F32, true, 0, fun a => (FV.of32 a).to16.setWidth 32), (Instr.cvtF32Bf16, false, 0, fun a => (FV.of16 (a.setWidth 16)).to32)] :
          List ((VInstr → Instr) × Bool × BitVec 20 × (BitVec 32 → BitVec 32))) →
      let u : VUse := { src := [v.sa], fp := fp, dst := [v.dst], imm := imm }
      s.vecGo v u all → s.vecGood v u all → ∃ t, exec (op v) s = .next t ∧ LaneStep v (s.vready v u all) (s.vecExec v u all)
        (fun i => f (k.vsrc v.group i v.imm fp v.sa)) s t) ∧
    ( let u : VUse := { src := [v.sa, v.sb, v.sc], fp := true, dst := [v.dst] }
      s.vecGo v u all → s.vecGood v u all → ∃ t, exec (.ffma v) s = .next t ∧ LaneStep v (s.vready v u all) (s.vecExec v u all)
        (fun i => f32fma (k.vsrc v.group i v.imm true v.sa) (k.vsrc v.group i v.imm true v.sb) (k.vsrc v.group i v.imm true v.sc)) s t) ∧
    ( let u : VUse := { src := [v.sa, v.sb], dst := [v.dst], imm := 0x7 }
      s.vecGo v u all → s.vecGood v u all → ∃ t, exec (.vecSel v) s = .next t ∧ LaneStep v (s.vready v u all) (s.vecExec v u all)
        (fun i => if (k.thread v.group i).preds.getLsbD (v.imm.toNat % 8) then k.vsrc v.group i v.imm false v.sa
          else k.vsrc v.group i v.imm false v.sb) s t) ∧
    ( let u : VUse := { sol := [v.sa], dst := [v.dst], imm := 0x7FF }
      s.vecGo v u all → ∃ t, exec (.scvt v) s = .next t ∧ LaneStep v (s.vready v u all) (s.vecExec v u all)
        (fun i => if v.imm.getLsbD 10 then ((k.vsol v.group i v.sa).toFV (v.imm.setWidth 10).toInt).to16.setWidth 32
          else ((k.vsol v.group i v.sa).toFV (v.imm.setWidth 10).toInt).to32) s t) ∧
    (∀ op u f, (op, u, f) ∈ ([
        (Instr.sadd, { src := [v.sa], fp := true, sol := [v.dst], imm := 0x3FF },
          fun i => (k.vsol v.group i v.dst).add (Solera.term (v.imm.setWidth 10).toInt (FV.of32 (k.vsrc v.group i v.imm true v.sa)))),
        (Instr.saddw, { sol := [v.dst, v.sa] }, fun i => (k.vsol v.group i v.dst).add (k.vsol v.group i v.sa)),
        (Instr.sclr, { sol := [v.dst] }, fun _ => 0)] : List ((VInstr → Instr) × VUse × (Nat → Solera))) →
      s.vecGo v u all → s.vecGood v u all → ∃ t, exec (op v) s = .next t ∧
        SoleraStep v (s.vready v u all) (s.vecExec v u all) f s t)

/-- Control flow of vector threads (R111, R117, R121, R124, R131, R133, R136, R138, R144). -/
def Obligations.VectorComparesAndFlow : Prop :=
  ∀ (s : State) (v : VInstr), let k := s.core v.core
    let all := fun _ : Nat => true
    (∀ op u r, (op, u, r) ∈ ([
        (Instr.fcmp, { src := [v.sa, v.sb], fp := true, imm := 0x7, bad := decide (4 < v.imm.toNat % 8) || decide (8 ≤ v.dst.toNat) },
          fun i => fcmpRel (v.imm.toNat % 8) (k.vsrc v.group i v.imm true v.sa) (k.vsrc v.group i v.imm true v.sb)),
        (Instr.icmp, { src := [v.sa, v.sb], imm := 0xF, bad := decide (3 < v.imm.toNat % 8) || decide (8 ≤ v.dst.toNat) },
          fun i => icmpRel (v.imm.toNat % 8) (v.imm.getLsbD 3) (k.vsrc v.group i v.imm false v.sa) (k.vsrc v.group i v.imm false v.sb))] :
          List ((VInstr → Instr) × VUse × (Nat → Bool))) →
      s.vecGo v u all → s.vecGood v u all → ∃ t, exec (op v) s = .next t ∧ VecStep v (s.vready v u all) s t ∧ GoOn v (s.vready v u all) s t ∧
        (t.core v.core).ldst = k.ldst ∧ ∀ i, ((t.core v.core).thread v.group i).regs = (k.thread v.group i).regs ∧
          ∀ n < 8, ((t.core v.core).thread v.group i).preds.getLsbD n =
            if i ∈ s.vecExec v u all ∧ n = v.dst.toNat then r i else (k.thread v.group i).preds.getLsbD n) ∧
    ( let u : VUse := { imm := 0xFFFFF }
      s.vecGo v u all → ∃ t, exec (.vbr v) s = .next t ∧ VecStep v (s.vready v u all) s t ∧ (t.core v.core).ldst = k.ldst ∧
        ∀ i, (t.core v.core).thread v.group i = { k.thread v.group i with
          since := ((t.core v.core).thread v.group i).since, usable := ((t.core v.core).thread v.group i).usable
          passed := ((t.core v.core).thread v.group i).passed
          pc := if i ∈ s.vecExec v u all then (((v.pc : Int) + 8 * v.imm.toInt) % 2 ^ 48).toNat
            else if i ∈ s.vready v u all then v.pc + 8 else (k.thread v.group i).pc }) ∧
    ( let u : VUse := { src := [v.sa], imm := 0xF }
      s.vecGo v u all → s.vecGood v u all →
      ((∀ i ∈ s.vecExec v u all, (k.vsrc v.group i v.imm false v.sa).toNat ≤ cnt k.issued (v.imm.toNat % 16)) →
        ∃ t, exec (.vawait v) s = .next t ∧ VecStep v (s.vready v u all) s t ∧ (t.core v.core).ldst = k.ldst ∧
          ∀ i ∈ s.vecExec v u all, ((t.core v.core).thread v.group i).pc = v.pc + 8 ∧
            ((t.core v.core).thread v.group i).wait = .arrival (v.imm.toNat % 16) (k.vsrc v.group i v.imm false v.sa).toNat) ∧
      ((∃ i ∈ s.vecExec v u all, cnt k.issued (v.imm.toNat % 16) < (k.vsrc v.group i v.imm false v.sa).toNat) →
        ∃ t, exec (.vawait v) s = .next t ∧ KernelFault v.core 0x21CA s t)) ∧
    ( let ready := fun i => (find? k.summ (v.dst.toNat % 16)).isNone && s.storesDone v.core v.group i
          && (s.pendingAcqs (k.thread v.group i).acqs).isEmpty;
      let u : VUse := { src := [v.sa], imm := 0xF, bad := v.pen || decide (9 < v.imm.toNat % 16) }
      s.vecGo v u ready → s.vecGood v u ready → ∃ t, exec (.vsum v) s = .next t ∧ VecStep v (s.vready v u ready) s t ∧
        GoOn v (s.vready v u ready) s t ∧ (t.core v.core).ldst = k.ldst ∧
        (t.core v.core).summ = put k.summ (v.dst.toNat % 16) (vsumOp (v.imm.toNat % 16)
          ((s.vecExec v u ready).map fun i => (i, k.vsrc v.group i v.imm false v.sa)))) ∧
    (v.core < 80000 → k.run = true → k.stopping = false → s.stopped v.core = false → s.vready v { bad := true } all ≠ [] →
      s.inCode 8 v.pc 8 = true → k.hasCode v.pc = true → s.redStalled v.core = false →
      k.overtaken v.group v.pc (s.vready v { bad := true } all) = false → ∃ t, exec (.veIllegal v) s = .next t ∧ KernelFault v.core 0x21C1 s t) ∧
    ( let u : VUse := { imm := 0x3, bad := v.pen }
      s.vecGo v u all → ∃ t, exec (.vbar v) s = .next t ∧ t.mem = s.mem ∧ ∀ i, i ∈ s.vecExec v u all →
        find? (t.core v.core).groups v.group ≠ none → ((t.core v.core).thread v.group i).pc = v.pc + 8 ∧
          (((t.core v.core).thread v.group i).wait = .barrier (v.imm.toNat % 4) ∨ ((t.core v.core).thread v.group i).wait = .none)) ∧
    (s.vecGo v {} all → ∃ t, exec (.vexit v) s = .next t ∧ t.mem = s.mem ∧ ∀ i, i ∈ s.vecExec v {} all →
      ((t.core v.core).thread v.group i).live = false) ∧
    (∀ c g x, c < 80000 → find? (s.core c).groups g = some x → ∃ t, exec (.vawaitReturn c g) s = .next t ∧ t = { s with cores := t.cores } ∧
      (∀ d, d ≠ c → t.core d = s.core d) ∧ ∀ i, (t.core c).thread g i = { (s.core c).thread g i with
        since := ((t.core c).thread g i).since, usable := ((t.core c).thread g i).usable, passed := ((t.core c).thread g i).passed
        knows := ((t.core c).thread g i).knows
        wait := match ((s.core c).thread g i).wait with
          | .arrival a target => if target ≤ cnt (s.core c).arrived a then .none else .arrival a target
          | w => w }) ∧
    ∀ c g b i, c < 80000 → i < 32 → ((s.core c).thread g i).wait = .barrier b → (s.core c).run = true → (s.core c).stopping = false →
      ∃ t, exec (.veBarrier c g b) s = .next t ∧ KernelFault c 0x21C7 s t

/-- Local memory and finished tiles (R59, R126, R129, R132, R139 to R141): the bytes stored are at the addresses that the statement computes. -/
def Obligations.VectorLocalMemoryAndTiles : Prop :=
  ∀ (s : State) (v : VInstr), let k := s.core v.core
    let c := v.core
    let all := fun _ : Nat => true
    let src := fun (i : Nat) (code : BitVec 8) => k.vsrc v.group i v.imm false code
    let addr := fun i => (src i v.sa + v.imm.signExtend 32).toNat
    ( let u : VUse := { src := [v.sa], dst := [v.dst], imm := 0xFFFFF }
      s.vecGo v u all → (∀ i ∈ s.vecExec v u all, addr i % 4 = 0 ∧ addr i + 4 ≤ 0x1C000) →
      k.worst (u.slotReads (s.vecExec v u all) ++ (s.vecExec v u all).map fun i => (addr i, 4)) = 0 →
      (v.dst.toNat < 0x40 → ∃ t, exec (.vld v) s = .next t ∧ LaneStep v (s.vready v u all) (s.vecExec v u all)
        (fun i => BitVec.ofNat 32 (leNat (k.peek (addr i) 4))) s t)) ∧
    ( let u : VUse := { src := [v.sa, v.sb], imm := 0xFFFFF }
      s.vecGo v u all → s.vecGood v u all → v.sa.toNat < 0x80 →
      ((∀ i ∈ s.vecExec v u all, addr i % 4 = 0 ∧ addr i + 4 ≤ 0x1C000) →
        ∃ t, exec (.vst v) s = .next t ∧ VecStep v (s.vready v u all) s t ∧ GoOn v (s.vready v u all) s t ∧
          BytesOutside c ((s.vecExec v u all).map addr) 4 s t ∧
          ((∀ i ∈ s.vecExec v u all, ∀ j ∈ s.vecExec v u all, addr i = addr j → i = j) →
            (∀ i ∈ s.vecExec v u all, 0x80 ≤ v.sb.toNat → ∀ j ∈ s.vecExec v u all, addr j ≠ slotAddr v.sb i) →
            ∀ i ∈ s.vecExec v u all, (t.core c).peek (addr i) 4 = leBytes (src i v.sb).toNat 4)) ∧
      ((∃ i ∈ s.vecExec v u all, addr i % 4 ≠ 0) → (∀ i ∈ s.vecExec v u all, addr i + 4 ≤ 0x1C000) →
        ∃ t, exec (.vst v) s = .next t ∧ KernelFault c 0x21C2 s t)) ∧
    ( let fmt := v.imm.toNat % 8
      let u : VUse := { src := [v.sa, v.sb, v.sc], fp := true, imm := 0x7, bad := decide (5 < fmt) }
      ∀ low rest, s.vecExec v u all = low :: rest → s.vecGo v u all → s.vecGood v u all →
      let da := (k.vsrc v.group low v.imm true v.sb).toNat
      let sa := (k.vsrc v.group low v.imm true v.sc).toNat
      da % 8 = 0 → da + blockBytes fmt ≤ 0x1C000 → sa + 1 ≤ 0x1C000 → (sa < da ∨ da + blockBytes fmt ≤ sa) →
      let r := mxConvert fmt ((List.range 32).map fun i =>
        if i ∈ low :: rest then FV.of32 (k.vsrc v.group i v.imm true v.sa) else .fin false 0 0)
      ∃ t, exec (.mxcvt v) s = .next t ∧ VecStep v (s.vready v u all) s t ∧ GoOn v (s.vready v u all) s t ∧
        (t.core c).peek da (blockBytes fmt) = mxPack fmt r.2 ∧ (t.core c).peek sa 1 = [BitVec.ofNat 8 r.1] ∧
        ∀ b, (b < da ∨ da + blockBytes fmt ≤ b) → b ≠ sa → Mem.read (t.core c).ldst b = Mem.read k.ldst b) ∧
    ( let fmt := v.imm.toNat % 8
      let u : VUse := { src := [v.sa, v.sb], dst := [v.dst], imm := 0x7, bad := decide (5 < fmt) }
      ∀ low rest, s.vecExec v u all = low :: rest → s.vecGo v u all →
      let da := (src low v.sa).toNat
      let sa := (src low v.sb).toNat
      da % 8 = 0 → da + blockBytes fmt ≤ 0x1C000 → sa + 1 ≤ 0x1C000 →
      k.worst (u.slotReads (low :: rest) ++ (low :: rest).flatMap fun _ => [(da, blockBytes fmt), (sa, 1)]) = 0 →
      ∃ t, exec (.mxld v) s = .next t ∧ LaneStep v (s.vready v u all) (low :: rest)
        (fun i => (blockElem fmt (Mem.read k.ldst sa).toNat (k.peek da (blockBytes fmt)) i).to32) s t) ∧
    ( let op := v.imm.toNat % 16
      let u := atomUse v [v.sa, v.sb, v.sc] [] 0xF false
      op < 10 → v.dst.toNat < 0x40 → v.sa.toNat < 0x40 → v.sb.toNat < 0x40 → v.sc.toNat < 0x40 → s.vecGo v u all →
      (∀ i ∈ s.vecExec v u all, (src i v.sa).toNat % 4 = 0 ∧ (src i v.sa).toNat + 4 ≤ 0x1C000) →
      (∀ i ∈ s.vecExec v u all, ∀ j ∈ s.vecExec v u all, src i v.sa = src j v.sa → i = j) →
      k.worst ((s.vecExec v u all).map fun i => ((src i v.sa).toNat, 4)) = 0 →
      ∃ t, exec (.vlatom v) s = .next t ∧ VecStep v (s.vready v u all) s t ∧ GoOn v (s.vready v u all) s t ∧
        BytesOutside c ((s.vecExec v u all).map fun i => (src i v.sa).toNat) 4 s t ∧
        ∀ i ∈ s.vecExec v u all, let old := BitVec.ofNat 64 (leNat (k.peek (src i v.sa).toNat 4));
          (t.core c).peek (src i v.sa).toNat 4 = leBytes (atomStep op 4 old ((src i v.sb).setWidth 64) ((src i v.sc).setWidth 64)).toNat 4 ∧
          ((t.core c).thread v.group i).reg v.dst.toNat = old.setWidth 32) ∧
    (k.press.queue = [] → c < 80000 → ∀ op, op = Instr.vtld ∨ op = Instr.vthdr → ∃ t, exec (op v) s = .next t ∧
      (∀ d, d ≠ c → t.core d = s.core d) ∧ t = { s with cores := t.cores } ∧ t.core c = { k with groups := (t.core c).groups } ∧
      ∀ g i, (t.core c).thread g i = { k.thread g i with passed := ((t.core c).thread g i).passed }) ∧
    (∀ tile rest, k.press.queue = tile :: rest →
      (tile.fmt ≠ 0 → let u : VUse := { dst := [v.dst], imm := 1 }
        s.vecGo v u all → ∃ t, exec (.vtld v) s = .next t ∧ LaneStep v (s.vready v u all) (s.vecExec v u all)
          (fun i => let w := tile.vals.getD (32 * (v.imm.toNat % 2) + i) 0;
            if tile.fmt = 1 then w.setWidth 32 else (FV.of16 (w.setWidth 16)).to32) s t) ∧
      (tile.fmt = 0 → let u : VUse := { sol := [v.dst], imm := 1 }
        s.vecGo v u all → ∃ t, exec (.vtld v) s = .next t ∧ SoleraStep v (s.vready v u all) (s.vecExec v u all)
          (fun i => tile.vals.getD (32 * (v.imm.toNat % 2) + i) 0) s t) ∧
      ( let u : VUse := { dst := [v.dst, v.dst + 1], bad := v.dst.toNat % 2 == 1 }
        s.vecGo v u all → v.dst.toNat < 0x40 → ∃ t, exec (.vthdr v) s = .next t ∧ VecStep v (s.vready v u all) s t ∧
          GoOn v (s.vready v u all) s t ∧ ∀ i ∈ s.vecExec v u all,
            ((t.core c).thread v.group i).reg v.dst.toNat = tile.hdr.setWidth 32 ∧
            ((t.core c).thread v.group i).reg (v.dst.toNat + 1) = (tile.hdr >>> 32).setWidth 32) ∧
      (s.vecGo v {} all → s.vecExec v {} all ≠ [] → ∃ t, exec (.vtrel v) s = .next t ∧ VecStep v (s.vready v {} all) s t ∧
        (t.core c).press = { k.press with queue := rest })) ∧
    (k.press.queue = [] → s.vecGo v {} all → s.vecExec v {} all ≠ [] → ∃ t, exec (.vtrel v) s = .next t ∧ KernelFault c 0x21CB s t)

/-- The control core's side of the vector engine (R112 to R114, R127, R134, R135). -/
def Obligations.GroupsAndSummaries : Prop :=
  (∀ (s : State) (c : Nat) (rd rs1 rs2 : Reg), s.ctlGo c 4 [rd, rs1, rs2] →
    let k := s.core c
    let w := (k.reg rs2).toNat
    let n := w % 16
    let th := w / 16 % 64
    let entry := (k.reg rs1).toNat % 2 ^ 48
    let bad := n = 0 ∨ 8 < n ∨ th = 0 ∨ 32 < th ∨ entry % 8 ≠ 0
    (bad → ∃ t, exec (.vgo c rd rs1 rs2) s = .next t ∧ KernelFault c 0x21C8 s t) ∧
    (¬ bad → k.freeSlots.length < n → ∃ t, exec (.vgo c rd rs1 rs2) s = .next t ∧ OnlyCore c s t ∧ GoesTo c k.pc s t ∧
      (t.core c).groups = k.groups) ∧
    (¬ bad → n ≤ k.freeSlots.length → ∃ t, exec (.vgo c rd rs1 rs2) s = .next t ∧ OnlyCore c s t ∧ (t.core c).pc = k.pc + 4 ∧
      (t.core c).reg rd = (if rd = 0 then 0 else BitVec.ofNat 64 ((k.freeSlots.take n).map (2 ^ ·)).sum) ∧
      (∀ r, r ≠ rd → (t.core c).reg r = k.reg r) ∧
      (∀ g, g ∉ k.freeSlots.take n → find? (t.core c).groups g = find? k.groups g) ∧
      ∀ j g, (k.freeSlots.take n)[j]? = some g → ((t.core c).group g).cls = w / 2 ^ 12 % 8 ∧ ∀ i < 32,
        ((t.core c).thread g i).live = decide (i < th) ∧ (i < th → ((t.core c).thread g i).pc = entry ∧
          ((t.core c).thread g i).reg 0 = BitVec.ofNat 32 (32 * j + i) ∧ ((t.core c).thread g i).reg 1 = BitVec.ofNat 32 j ∧
          ((t.core c).thread g i).reg 2 = BitVec.ofNat 32 i ∧ ((t.core c).thread g i).preds = 0))) ∧
  (∀ (s : State) (c n : Nat) (rd rs1 : Reg), n < 32 →
    (s.ctlGo c 4 [rs1] → (∃ t, exec (.vbc c n rs1) s = .next t ∧ OnlyCore c s t ∧ GoesTo c ((s.core c).pc + 4) s t ∧
        t.core c = { s.core c with
          bcast := put (s.core c).bcast n (((s.core c).reg rs1).setWidth 32), groups := (t.core c).groups, pc := (s.core c).pc + 4
          icache := (t.core c).icache, rdraw := (t.core c).rdraw } ∧
        ∀ g, (t.core c).group g = { (s.core c).group g with late := ((t.core c).group g).late }) ∧
      ∃ t, exec (.vjoin c rs1) s = .next t ∧ OnlyCore c s t ∧
        t.core c = { s.core c with wait := .vjoin (((s.core c).reg rs1).toNat % 256), icache := (t.core c).icache, rdraw := (t.core c).rdraw }) ∧
    (s.ctlGo c 4 [rd] → (∃ t, exec (.sstat c rd) s = .next t ∧ RegStep c rd (BitVec.ofNat 64
        (((s.core c).summ.map fun x => 2 ^ x.1).sum + 2 ^ 16 * ((s.core c).groups.map fun x => 2 ^ x.1).sum)) ((s.core c).pc + 4) s t) ∧
      (n < 16 → find? (s.core c).summ n = none → (s.core c).groups = [] → ∃ t, exec (.srd c rd n) s = .next t ∧ KernelFault c 0x2109 s t) ∧
      (n < 16 → (find? (s.core c).summ n ≠ none ∨ (s.core c).groups ≠ []) → ∃ t, exec (.srd c rd n) s = .next t ∧ OnlyCore c s t ∧
        t.core c = { s.core c with wait := .srd rd.toNat n, icache := (t.core c).icache, rdraw := (t.core c).rdraw }))) ∧
  ∀ (s : State) (c : Nat), c < 80000 →
    (∀ m, (s.core c).wait = .vjoin m →
      ((∀ x ∈ (s.core c).groups, m.testBit x.1 = false) →
        ∃ t, exec (.vjoinReturn c) s = .next t ∧ t = s.setCore c { s.core c with
          wait := .none, pc := (s.core c).pc + 4, knows := (t.core c).knows, races := (t.core c).races }) ∧
      ((∃ x ∈ (s.core c).groups, m.testBit x.1 = true) → exec (.vjoinReturn c) s = .next s)) ∧
    ∀ (rd : Reg) (n : Nat) (w : Word), (s.core c).wait = .srd rd.toNat n → find? (s.core c).summ n = some w →
      ∃ t, exec (.srdReturn c) s = .next t ∧ find? (t.core c).summ n = none ∧ (t.core c).wait = .none ∧
        (t.core c).reg rd = (if rd = 0 then 0 else w) ∧ (∀ r, r ≠ rd → (t.core c).reg r = (s.core c).reg r) ∧
        (t.core c).pc = (s.core c).pc + 4 ∧ (∀ d, d ≠ c → t.core d = s.core d) ∧ t = { s with cores := t.cores }

/-- The vector engine's global accesses (R130, R139 to R142, R154 to R158, R173). -/
def Obligations.VectorGlobalAccesses : Prop :=
  (∀ (s : State) (v : VInstr), let k := s.core v.core
    let c := v.core
    let all := fun _ : Nat => true
    let addr := fun (off : BitVec 64) i =>
      (((k.thread v.group i).reg (v.sa.toNat + 1) ++ (k.thread v.group i).reg v.sa.toNat : BitVec 64) + off).toNat
    let off : BitVec 64 := (v.imm.setWidth 16).signExtend 64
    let cls := (k.group v.group).cls
    let good := fun (a n : Nat) => a % n = 0 ∧ a < 2 ^ 48 ∧ isReg a = false
    let tagged := fun (r : Nat → Req) (l : List Nat) => l.zipIdx.map fun x =>
      { (s.setsOut c (r x.1)).getD (r x.1) with tag := s.nextTag + x.2, born := s.od 0x6000 2 }
    let bare := fun (q : Req) => ({ q.bare c with early := [] } : Req)
    let sent := fun (t : State) (r : Nat → Req) (l : List Nat) => t.reqs.map bare = (s.reqs ++ tagged r l).map bare ∧
      t.nextTag = s.nextTag + l.length ∧ t.mem = s.mem ∧ (t.core c).ldst = k.ldst ∧ ∀ d, d ≠ c → t.core d = s.core d
    let hand := (k.group v.group).hand
    ( let u : VUse := { pair := [v.sa], dst := [v.dst], imm := 0x1FFFF }
      let r := fun i => { Req.reset with
        agent := .vecLoad c v.group i v.dst.toNat false, ctx := k.ctx, kind := .read, va := addr off i, size := 4, cls := cls,
        bypass := true, draft := k.draft, hand := hand }
      s.vecGo v u all → v.imm.getLsbD 16 = true →
      ((∀ i ∈ s.vecExec v u all, good (addr off i) 4 ∧ (s.setsOut c (r i)).isSome) →
        ∃ t, exec (.vgld v) s = .next t ∧ sent t r (s.vecExec v u all) ∧ ∀ i j, (s.vecExec v u all)[j]? = some i → find? ((t.core c).thread v.group i).busy v.dst.toNat = some (s.nextTag + j)) ∧
      ((∃ i ∈ s.vecExec v u all, addr off i % 4 ≠ 0) → (∀ i ∈ s.vecExec v u all, addr off i < 2 ^ 48 ∧ isReg (addr off i) = false) →
        ∃ t, exec (.vgld v) s = .next t ∧ KernelFault c 0x21C2 s t)) ∧
    ( let u : VUse := { pair := [v.sa], src := [v.sb], imm := 0xFFFF }
      let ready := s.threadMayWrite c v.group
      let r := fun i => { Req.reset with
        agent := .vecStore c v.group i, ctx := k.ctx, kind := .write, va := addr off i, size := 4, cls := cls,
        data := leBytes (k.vsrc v.group i v.imm false v.sb).toNat 4, draft := k.draft, hand := hand
        rsc := widest (k.thread v.group i).fences }
      s.vecGo v u ready → s.vecGood v u ready → cls ≠ 0 → cls ≠ 3 → cls ≠ 7 →
      (∀ i ∈ s.vecExec v u ready, good (addr off i) 4 ∧ (s.setsOut c (r i)).isSome) →
        ∃ t, exec (.vgst v) s = .next t ∧ sent t r (s.vecExec v u ready) ∧ GoOn v (s.vready v u ready) s t) ∧
    ( let op := v.imm.toNat % 16
      let ord := v.imm.toNat / 128 % 4
      let scope := v.imm.toNat / 16 % 8
      let u := atomUse v [v.sb, v.sc] [v.sa] 0x1FF (scope == 7)
      let ready := fun i => s.threadMayWrite c v.group i && (decide (ord < 2) || s.threadReleased c v.group i scope)
      let e := s.vecExec v u ready
      let r := fun a => { Req.reset with
        agent := .vecAtom c v.group v.dst.toNat, ctx := k.ctx, kind := .atomic, va := a, size := (if op = 11 then 32 else 4),
        cls := cls, op := op, ebase := v.imm.extractLsb' 10 10, draft := k.draft,
        ops := (e.filter fun i => addr 0 i == a).map fun i =>
          ⟨i, (k.vsrc v.group i v.imm false v.sb).setWidth 64, (k.vsrc v.group i v.imm false v.sc).setWidth 64⟩,
        acq := decide (ord % 2 = 1) && decide (2 ≤ scope), rel := decide (2 ≤ ord) && decide (5 ≤ scope)
        asc := if ord % 2 = 1 then some scope else none
        rsc := if 2 ≤ ord then some scope
          else (e.filter fun i => addr 0 i == a).foldl (fun x i => max x (widest (k.thread v.group i).fences)) none
        hand := hand, grp := s.nextTag }
      s.vecGo v u ready → s.vecGood v u ready → cls ≠ 0 → cls ≠ 3 → cls ≠ 7 →
      (∀ i ∈ e, good (addr 0 i) (if op = 11 then 32 else 4) ∧ (s.setsOut c (r (addr 0 i))).isSome) →
        ∃ t, exec (.vatom v) s = .next t ∧ sent t r (distinct (addr 0) e)) ∧
    ( let kind := v.imm.toNat / 8 % 4
      let scope := v.imm.toNat % 8
      let u : VUse := { imm := 0x1F, bad := kind == 0 || scope == 7 }
      let ready := fun i => !(kind == 3 && decide (4 ≤ scope)) || s.threadReleased c v.group i scope
      s.vecGo v u ready → ∃ t, exec (.vfence v) s = .next t ∧ GoOn v (s.vready v u ready) s t ∧ sent t (fun _ => Req.reset) [] ∧
        t.core c = { k with
          groups := (t.core c).groups, vcycles := (t.core c).vcycles, icache := (t.core c).icache
          rcache := if s.vecExec v u ready ≠ [] ∧ kind % 2 = 1 ∧ 2 ≤ scope then [] else k.rcache } ∧
        ∀ i ∈ s.vecExec v u ready,
          ((t.core c).thread v.group i).acqs = (if kind % 2 = 1 then s.pendingAcqs (k.thread v.group i).acqs ++
            s.fenceAcqs (ownThread c v.group i) scope else (k.thread v.group i).acqs) ∧
          ((t.core c).thread v.group i).fences = if 2 ≤ kind then put (k.thread v.group i).fences scope s.nextTag
            else (k.thread v.group i).fences)) ∧
  ∀ (s : State) (tag c g : Nat) (r : Req), s.here? tag = some r → r.stage = .done → r.poison = false →
    let back := fun (t : State) => t.reqs.map (Req.bare c) = (s.reqs.filter fun y => y.tag != tag).map (Req.bare c) ∧ t.mem = s.mem ∧
      ∀ d, d ≠ c → t.core d = s.core d
    (∀ i dst x, r.agent = .vecLoad c g i dst false → dst < 0x40 → find? ((s.core c).thread g i).busy dst = some tag →
      find? (s.core c).groups g = some x → ((s.core c).thread g i).live = true → i < 32 →
      (s.pendingAcqs r.early ≠ [] → exec (.vgldReturn tag) s = .next s) ∧
      (s.pendingAcqs r.early = [] → ∃ t, exec (.vgldReturn tag) s = .next t ∧ back t ∧
        ((t.core c).thread g i).reg dst = BitVec.ofNat 32 (num8 r.data (r.va % 128) 4) ∧
        find? ((t.core c).thread g i).busy dst = none)) ∧
    (∀ i, r.agent = .vecStore c g i → ∃ t, exec (.vectorStoreResponse tag) s = .next t ∧ back t ∧
      t.reqs = s.reqs.filter (fun y => y.tag != tag)) ∧
    ∀ i dst old x, r.agent = .vecAtom c g dst → dst < 0x40 → r.op ≠ 11 → r.old = [(i, old)] → i < 32 →
      find? ((s.core c).thread g i).busy dst = some tag →
      find? (s.core c).groups g = some x → ((s.core c).thread g i).live = true → ∀ op, op = Instr.vatomReturn ∨ op = Instr.vectorStoreResponse →
      ∃ t, exec (op tag) s = .next t ∧ back t ∧
        ((t.core c).thread g i).reg dst = old.setWidth 32 ∧ find? ((t.core c).thread g i).busy dst = none

/-- Ordering and atomics of the control core (R154 to R159, R165 to R169, R173; the order of the checks is the model's choice, assumption 84). -/
def Obligations.FencesAndScalarAtomics : Prop :=
  (∀ (s : State) (c kind sc : Nat), s.ctlGo c 4 [] → kind < 4 → sc < 8 →
    let k := s.core c
    let done := ¬ (kind = 3 ∧ 4 ≤ sc) ∨ s.releaseReady c sc = true
    (kind = 0 ∨ sc = 7 → ∃ t, exec (.fence c kind sc) s = .next t ∧ KernelFault c 0x2101 s t) ∧
    (kind ≠ 0 → sc ≠ 7 → ∃ t, exec (.fence c kind sc) s = .next t ∧
      (¬ done → OnlyCore c s t ∧ GoesTo c k.pc s t ∧ t.core c = { k with icache := (t.core c).icache, rdraw := (t.core c).rdraw }) ∧
      (done → GoesTo c (k.pc + 4) s t ∧ (∀ d, d ≠ c → t.core d = s.core d) ∧ t.reqs.map (Req.bare c) = s.reqs.map (Req.bare c) ∧
        t = { s with cores := t.cores, reqs := t.reqs, freeCtr := t.freeCtr, sec := { s.sec with single := t.sec.single } } ∧
        t.core c = { k with
          pc := k.pc + 4, icache := (t.core c).icache, rdraw := (t.core c).rdraw
          acqs := if kind % 2 = 1 then s.pendingAcqs k.acqs ++ s.fenceAcqs (ownCtl c) sc else k.acqs
          fences := if 2 ≤ kind then put k.fences sc s.nextTag else k.fences
          rcache := if kind % 2 = 1 ∧ 2 ≤ sc then [] else k.rcache }))) ∧
  (∀ (s : State) (c sc : Nat) (w : Bool) (rd rs1 : Reg), s.ctlGo c 4 [rd, rs1] → sc < 8 →
    let k := s.core c
    let a := (k.reg rs1).toNat
    let n := if w then 8 else 4
    let r := { Req.reset with
      agent := .ctlLoad c rd.toNat false, ctx := k.ctx, kind := .read, va := a, size := n, cls := k.gclass.toNat,
      bypass := true, draft := k.draft, acq := decide (2 ≤ sc), asc := some sc, early := s.pendingAcqs k.acqs }
    let wr := { Req.reset with
      agent := .ctlStore c, ctx := k.ctx, kind := .write, va := a, size := n, cls := k.gclass.toNat,
      data := leBytes (k.reg rd).toNat n, draft := k.draft, rel := decide (5 ≤ sc), rsc := some sc }
    let rest := fun (t : State) => (∀ d, d ≠ c → t.core d = s.core d) ∧ t = { s with
      cores := t.cores, reqs := t.reqs, nextTag := t.nextTag, freeCtr := t.freeCtr, sec := { s.sec with single := t.sec.single } }
    (sc = 7 → ∀ op, op = Instr.ldacq ∨ op = Instr.strel → ∃ t, exec (op c rd rs1 w sc) s = .next t ∧ KernelFault c 0x2101 s t) ∧
    (sc ≠ 7 → a % n = 0 → a < 2 ^ 48 → isReg a = false →
      (∀ q, s.setsOut c r = some q → ∃ t, exec (.ldacq c rd rs1 w sc) s = .next t ∧ s.sends t q ∧ GoesTo c (k.pc + 4) s t ∧ rest t ∧
        (t.core c).acqs = k.acqs ++ [(s.nextTag, sc)] ∧ (rd ≠ 0 → find? (t.core c).busy rd.toNat = some s.nextTag)) ∧
      (s.setsOut c r = none → ∃ t, exec (.ldacq c rd rs1 w sc) s = .next t ∧ KernelFault c 0x2105 s t) ∧
      (k.gclass ≠ 0 → k.gclass ≠ 3 → k.gclass ≠ 7 →
        (∀ q, s.setsOut c wr = some q → s.releaseReady c sc = true → s.mayRelease c = true →
          ∃ t, exec (.strel c rd rs1 w sc) s = .next t ∧ s.adds c t q ∧ GoesTo c (k.pc + 4) s t ∧ rest t) ∧
        (s.releaseReady c sc = false ∨ s.mayRelease c = false →
          ∃ t, exec (.strel c rd rs1 w sc) s = .next t ∧ OnlyCore c s t ∧ GoesTo c k.pc s t)))) ∧
  ∀ (s : State) (c : Nat) (rd rs1 rs2 : Reg) (sc ord : Nat), s.ctlGo c 4 [rd, rs1, rs2] → sc < 8 → ord < 4 →
    ∀ op code n, (op, code, n) ∈ ([
        (Instr.aaddW, 0, 4), (Instr.aaddD, 0, 8), (Instr.afaddW, 10, 4), (Instr.aandD, 1, 8), (Instr.aorD, 2, 8), (Instr.axorD, 3, 8),
        (Instr.asminD, 4, 8), (Instr.asmaxD, 5, 8), (Instr.auminD, 6, 8), (Instr.aumaxD, 7, 8), (Instr.axchgW, 8, 4),
        (Instr.axchgD, 8, 8), (Instr.acasW, 9, 4), (Instr.acasD, 9, 8)] : List ((Nat → Reg → Reg → Reg → Nat → Nat → Instr) × Nat × Nat)) →
    let k := s.core c
    let a := (k.reg rs1).toNat
    let r := { Req.reset with
      agent := .ctlLoad c rd.toNat false, ctx := k.ctx, kind := .atomic, va := a, size := n, cls := k.gclass.toNat, op := code,
      ops := [⟨0, k.reg rs2, k.reg rd⟩], draft := k.draft,
      acq := decide (ord % 2 = 1) && decide (2 ≤ sc), rel := decide (2 ≤ ord) && decide (5 ≤ sc)
      asc := if ord % 2 = 1 then some sc else none, rsc := if 2 ≤ ord then some sc else widest k.fences }
    (sc = 7 → ∃ t, exec (op c rd rs1 rs2 sc ord) s = .next t ∧ KernelFault c 0x2101 s t) ∧
    (sc ≠ 7 → a % n ≠ 0 → a < 2 ^ 48 → ∃ t, exec (op c rd rs1 rs2 sc ord) s = .next t ∧ KernelFault c 0x2102 s t) ∧
    (sc ≠ 7 → 2 ^ 48 ≤ a → ∃ t, exec (op c rd rs1 rs2 sc ord) s = .next t ∧ KernelFault c 0x2104 s t) ∧
    (sc ≠ 7 → a % n = 0 → a < 2 ^ 48 → (k.gclass = 0 ∨ k.gclass = 3 ∨ k.gclass = 7 ∨ isReg a = true) →
      ∃ t, exec (op c rd rs1 rs2 sc ord) s = .next t ∧ KernelFault c 0x2105 s t) ∧
    (sc ≠ 7 → a % n = 0 → a < 2 ^ 48 → k.gclass ≠ 0 → k.gclass ≠ 3 → k.gclass ≠ 7 → isReg a = false →
      (¬ (s.mayRelease c = true ∧ (ord < 2 ∨ s.releaseReady c sc = true)) →
        ∃ t, exec (op c rd rs1 rs2 sc ord) s = .next t ∧ OnlyCore c s t ∧ GoesTo c k.pc s t) ∧
      (s.mayRelease c = true → (ord < 2 ∨ s.releaseReady c sc = true) →
      (∀ q, s.setsOut c r = some q → ∃ t, exec (op c rd rs1 rs2 sc ord) s = .next t ∧ s.adds c t q ∧ GoesTo c (k.pc + 4) s t ∧
        (rd ≠ 0 → find? (t.core c).busy rd.toNat = some s.nextTag) ∧
        (t.core c).acqs = (if ord % 2 = 1 then k.acqs ++ [(s.nextTag, sc)] else k.acqs) ∧ (∀ d, d ≠ c → t.core d = s.core d) ∧
        t = { s with
          cores := t.cores, reqs := t.reqs, nextTag := t.nextTag, freeCtr := t.freeCtr, sec := { s.sec with single := t.sec.single } }) ∧
      (s.setsOut c r = none → ∃ t, exec (op c rd rs1 rs2 sc ord) s = .next t ∧ KernelFault c 0x2105 s t)))

/-- Requests at their home cask (R139, R167, R178 to R184, R188, R194, R214), with their frame. -/
def Obligations.CaskAccesses : Prop :=
  (∀ (s : State) (tag : Nat) (r : Req), isHbm r.pa = true → r.agent.waits = true →
    let l := r.pa / 128
    let same := fun (t : State) => t.mem = s.mem ∧ t.cores = s.cores ∧ t.hbm = s.hbm
    (AtHome s tag r .read →
      (∀ x, s.cellar.line? l = some x → x.dir ≠ .dO → ∃ t, exec (.caskRead tag) s = .next t ∧ same t ∧ LinesKept [] s t ∧
        t.result tag fun q => q.data = x.data ∧ q.poison = x.poison) ∧
      (∀ x, s.cellar.line? l = some x → x.dir = .dO → ∃ t, exec (.caskRead tag) s = .next t ∧ same t ∧ t.cellar = s.cellar ∧
        t.reqs = s.reqs ∧ t.coh.out = s.coh.out ++ [{ abMsg 0x20 l 0 (128 * l) with shr := true }] ∧
        t.coh.txns = s.coh.txns ++ [{ Txn.reset with line := l, shr := true, rsp := true, waiter := some tag }]) ∧
      (s.cellar.line? l = none → ∃ t, exec (.caskRead tag) s = .next t ∧ same t ∧ t.cellar = s.cellar ∧
        t.req? tag = some { r with stage := .hbm, acc := s.accepts + 1 })) ∧
    (AtHome s tag r .write → s.faults.injArmed = none →
      (∀ x, s.cellar.line? l = some x → x.dir = .di → x.mark = false → x.tent = false → x.data.length = 128 →
        let draft := r.draft = true ∧ s.kls r = 1
        let back := x.cls = 2 ∨ x.cls = 6
        ∃ t y, exec (.caskWrite tag) s = .next t ∧ same t ∧ LinesKept [l] s t ∧ t.cellar.line? l = some y ∧
          (∀ i, i < 128 → y.data.getD i 0 = if r.wmask.testBit i then r.wdata.getD i 0 else x.data.getD i 0) ∧
          y = { x with data := y.data, poison := r.poison || (x.poison && !r.full), dirty := y.dirty, tent := y.tent } ∧
          (y.tent = true ↔ draft) ∧ (y.dirty = true ↔ x.dirty = true ∨ (¬ draft ∧ back)) ∧
          t.req? tag = some (if draft ∨ back then { r with stage := .done } else { r with stage := .hbmW, acc := s.accepts + 1 })) ∧
      (s.cellar.line? l = none → ∃ t, exec (.caskWrite tag) s = .next t ∧ same t ∧ t.cellar = s.cellar ∧
        t.req? tag = some { r with
          stage := if s.kls r = 4 then .hbmW else if r.full = true then .filled else .hbm, acc := s.accepts + 1 })) ∧
    (AtHome s tag r .atomic → s.faults.injArmed = none → ∀ x o, s.cellar.line? l = some x → x.dir = .di → x.mark = false →
      x.tent = false → x.poison = false → (x.cls = 2 ∨ x.cls = 6) → ¬ (r.draft = true ∧ s.kls r = 1) → x.data.length = 128 →
      r.ops = [o] → r.op < 10 → (r.size = 4 ∨ r.size = 8) → r.pa % r.size = 0 →
      let n := 8 * r.size
      let old := num8 x.data (r.pa % 128) r.size
      let v := o.operand.toNat % 2 ^ n
      let new := [(old + v) % 2 ^ n, old &&& v, old ||| v, old ^^^ v, if sextN v n < sextN old n then v else old,
        if sextN old n < sextN v n then v else old, min old v, max old v, v, if old = o.compare.toNat % 2 ^ n then v else old]
      ∃ t y, exec (.caskAtomic tag) s = .next t ∧ same t ∧ LinesKept [l] s t ∧ t.cellar.line? l = some y ∧
        y = { x with data := y.data, dirty := true } ∧ num8 y.data (r.pa % 128) r.size = new.getD r.op 0 ∧
        (∀ i, (i < r.pa % 128 ∨ r.pa % 128 + r.size ≤ i) → y.data.getD i 0 = x.data.getD i 0) ∧
        t.result tag fun q => q.old = [(o.thread, BitVec.ofNat 64 old)])) ∧
  ∀ (s : State) (tag : Nat) (r : Req), s.here? tag = some r → r.stage = .hbmAck → r.kind = .write →
    (r.agent.waits = true → exec (.backingWriteAck tag) s = .next (s.setReq tag fun q => { q with stage := .done, poison := false })) ∧
    ((r.agent = .engine ∨ ∃ c, r.agent = .ctlStore c) → exec (.backingWriteAck tag) s = .next (s.dropReq tag))

/-- Fills, replacement, commit, the thrash monitor and folding (R181 to R201, R491). -/
def Obligations.FillsCommitsAndFolds : Prop :=
  (∀ (s : State) (tag : Nat) (r : Req), s.here? tag = some r → r.stage = .filled → r.kind = .read → r.agent.waits = true →
    r.noAlloc = false → isHbm r.pa = true → s.cellar.inWeights (128 * (r.pa / 128)) = false → s.faults.injArmed = none →
    s.coh.txns.any (fun t => t.line == r.pa / 128) = false → s.cellar.line? (r.pa / 128) = none →
    let l := r.pa / 128
    let ls := s.cellar.setOf l
    let d := s.peek (128 * l) 128
    let bad := r.poison || s.hbmPoison (128 * l) 128
    let served := fun (t : State) => t.mem = s.mem ∧ t.cores = s.cores ∧ t.result tag fun q => q.data = d ∧ q.poison = bad
    let line := { Line.reset with addr := l, data := d, cls := s.kls r, poison := bad, dir := s.dirOf l }
    (ls.length < 16 → ∃ t, exec (.backingFill tag) s = .next t ∧ served t ∧ LinesKept [l] s t ∧
      t.cellar.line? l = some line) ∧
    (16 ≤ ls.length → ∀ x, s.victim ls (s.kls r) = some x → (ls.map (·.addr)).Nodup → (∀ y ∈ ls, s.cellar.setKey y.addr = s.cellar.setKey l) →
      (x.pinned = false ∧ x.hold = none ∧ x.tent = false) ∧
      (x.dir = .di → x.dirty = true → x.mark = false → isComp (128 * x.addr) = false → x.ecc = 0 → x.ecc2 = 0 →
        ∃ t, exec (.backingFill tag) s = .next t ∧
        served t ∧ LinesKept [l, x.addr] s t ∧ t.cellar.line? x.addr = none ∧
        t.cellar.line? l = some line ∧
        ∃ q ∈ t.reqs, q.agent = .engine ∧ q.kind = .write ∧ q.pa = 128 * x.addr ∧ q.data = x.data ∧ q.mask = 2 ^ 128 - 1 ∧ q.stage = .hbmW)) ∧
    (16 ≤ ls.length → s.victim ls (s.kls r) = none → ∃ t, exec (.backingFill tag) s = .next t ∧ served t ∧ t.cellar = s.cellar)) ∧
  (∀ (s : State) (pos : Nat), pos < 512 → s.cellar.dead.contains pos = false →
    (s.seq.phase = .committing → s.cellar.kept.contains pos = false → (∀ x ∈ s.cellar.lines, x.ecc = 0 ∧ x.ecc2 = 0) → ∃ t, exec (.commitList pos) s = .next t ∧
      t.mem = s.mem ∧ t.cellar.kept = s.cellar.kept ++ [pos] ∧
      (∀ k, get t.cellar.sets k [] = if k / 2048 = pos then (get s.cellar.sets k []).map fun x =>
          if x.tent = true then { x with tent := false, mark := x.mark || !lineIn s.keptRanges x.addr }
          else if x.dirty = true ∧ x.cls = 2 ∧ x.hold = none ∧ lineIn s.drops x.addr = true then { x with mark := true } else x
        else get s.cellar.sets k []) ∧
      ∀ k x, k / 2048 = pos → x ∈ get s.cellar.sets k [] → x.tent = true → lineIn s.keptRanges x.addr = true →
        ∃ q ∈ t.reqs, q.kind = .write ∧ q.pa = 128 * x.addr ∧ q.data = x.data ∧ q.cls = 1 ∧ q.stage = .hbmW) ∧
    (s.cellar.kept.contains pos = true → s.cellar.reported.contains pos = false →
      ((∃ r ∈ s.reqs, s.unpoured pos r = true) → exec (.caskCommitComplete pos) s = .next s) ∧
      ((∀ r ∈ s.reqs, s.unpoured pos r = false) → exec (.caskCommitComplete pos) s = .next
        { s with cellar := { s.cellar with reported := s.cellar.reported ++ [pos] } }))) ∧
  (∀ s : State, let look := s.unpinned 0 - s.cellar.winLook
    let miss := s.unpinned 0 - s.unpinned 1 - s.cellar.winMiss
    let above := s.od 0x4000 0x11 ≤ look ∧ s.od 0x4000 0x12 * look < 100 * miss
    let run := if above then min 255 (s.od 0x4100 3 + 1) else 0
    ∃ t, exec .thrashWindow s = .next t ∧ t.od 0x4100 3 = run ∧ t.od 0x4100 2 = (if look = 0 then 0 else 1000 * miss / look) ∧
      t.cellar = { s.cellar with winLook := s.unpinned 0, winMiss := s.unpinned 0 - s.unpinned 1 } ∧ t.mem = s.mem ∧ t.cores = s.cores ∧
      (if above ∧ s.od 0x4000 0x13 ≤ run then Reported 0x1205 2 0 s t ∧ (t.od 0x4100 1).testBit 0 = true else t.faults = s.faults)) ∧
  (∀ (s : State) (l : Nat), s.cellar.relaid = false → s.cellar.folding = true → s.faults.injArmed = none →
    (s.cellar.reserve.filter fun x => (s.cellar.line? x).isNone) = [l] → (s.cellar.setOf l).length < 16 →
    ∃ t, exec .reserveRelaid s = .next t ∧ t.cellar.relaid = true ∧ t.cellar.folding = false ∧ LinesKept [l] s t ∧ t.mem = s.mem ∧
      t.cellar.line? l = some { Line.reset with
        addr := l, data := s.peek (s.store (128 * l)) 128, pinned := true, poison := s.hbmPoison (s.store (128 * l)) 128,
        dir := s.dirOf l }) ∧
  ∀ (s : State) (back : List Nat), s.faults.diesBack = back →
    (s.seq.phase ≠ .idle → exec .unfold s = .next s) ∧
    (s.seq.phase = .idle → back ≠ [] → ∃ t, exec .unfold s = .next t ∧ t.mem = s.mem ∧ t.faults.diesBack = [] ∧
      t.faults.diesOut = s.faults.diesOut.filter (fun d => !back.contains d) ∧
      t.trellis.lost = s.trellis.lost.filter (fun d => !back.contains d) ∧
      t.cellar.dead = sortUp (s.cellar.bringDead ++ s.cellar.dead.filter fun p => !back.contains (p % 8) || s.cellar.retired.contains p) ∧
      t.seq.fallback = ((s.faults.diesOut.filter fun d => !back.contains d).filter (· < 8)).head?)

/-- The companion's requests at the module home (R207, R208, R211 to R214, R222). -/
def Obligations.CompanionRequests : Prop :=
  ∀ (s : State) (h : AbHdr), s.coh.dead = false →
    let a := h.addr.toNat
    let l := a / 128
    let tag := s.nextTag
    let from_ := fun (op n : Nat) (kind : ReqKind) (d : List Byte) (mask o : Nat) (ops : List AtomOp) => ({ Req.reset with
      agent := .comp op h.tag.toNat h.pasid.toNat, ctx := (s.ctxOfPasid h.pasid.toNat).getD 0, kind := kind, va := a, pa := a,
      size := n, cls := 5, stage := .home, acq := h.ord == 1, rel := h.ord == 2, data := d, mask := mask, op := o, ops := ops,
      tag := tag, born := s.od 0x6000 2 } : Req)
    let here := fun (r : Req) => AtHome (s.addReq r) tag r r.kind
    let msg := fun (op : Nat) (d : List Byte) (p : Bool) => abMsg op h.tag.toNat h.pasid.toNat (128 * l) d p
    let opened := s.coh.txns ++ [{ Txn.reset with line := l, ack := true }]
    let done := fun (t : State) => t.mem = s.mem ∧ t.cores = s.cores ∧ t.reqs = s.reqs.filter fun q => q.tag != tag
    let asks := fun (t : State) (r : Req) => t.mem = s.mem ∧ t.cores = s.cores ∧ t.cellar = s.cellar ∧ t.reqs = s.reqs ++ [r] ∧
      t.coh.out = s.coh.out ++ [abMsg 0x20 l 0 (128 * l)] ∧
      t.coh.txns = s.coh.txns ++ [{ Txn.reset with line := l, rsp := true, waiter := some tag }]
    (isHbm a = true → a % 128 = 0 →
      (∀ x, s.cellar.line? l = some x →
        (s.compReason h 128 false false = 0 → here (from_ 0x01 128 .read [] 0 0 []) →
          (x.dir ≠ .dO → ∃ t, exec (.rdShared h) s = .next t ∧ done t ∧ LinesKept [l] s t ∧
            t.cellar.line? l = some { x with dir := .ds } ∧ t.coh.out = s.coh.out ++ [msg 0x60 x.data x.poison] ∧ t.coh.txns = opened) ∧
          (x.dir = .dO → ∃ t, exec (.rdShared h) s = .next t ∧ asks t (from_ 0x01 128 .read [] 0 0 []))) ∧
        (s.compReason h 128 false true = 0 → here (from_ 0x02 128 .read [] 0 0 []) →
          (x.dir = .di → ∃ t, exec (.rdOwn h) s = .next t ∧ done t ∧ LinesKept [l] s t ∧
            t.cellar.line? l = some { x with dir := .dO } ∧ t.coh.out = s.coh.out ++ [msg 0x61 x.data x.poison] ∧ t.coh.txns = opened) ∧
          (x.dir ≠ .di → ∃ t, exec (.rdOwn h) s = .next t ∧ asks t (from_ 0x02 128 .read [] 0 0 []))) ∧
        (s.compReason h 128 false true = 0 → here (from_ 0x03 128 .read [] 0 0 []) → x.dir ≠ .dO → ∃ t, exec (.rdOwnNoData h) s = .next t ∧
          done t ∧ LinesKept [l] s t ∧ t.cellar.line? l = some { x with dir := .dO } ∧ t.coh.txns = opened ∧
          t.coh.out = s.coh.out ++ [if x.dir = .ds then msg 0x66 [] x.poison else msg 0x61 x.data x.poison]) ∧
        (s.compReason h 128 false false = 0 → here (from_ 0x04 128 .read [] 0 0 []) → x.dir ≠ .dO → ∃ t, exec (.rdCur h) s = .next t ∧
          done t ∧ LinesKept [] s t ∧ t.coh.out = s.coh.out ++ [msg 0x62 x.data x.poison] ∧ t.coh.txns = s.coh.txns) ∧
        (x.dir = .di → x.mark = false → x.tent = false → (x.cls = 2 ∨ x.cls = 6) → x.data.length = 128 → s.faults.injArmed = none →
          h.poison = false →
          let wrote := fun (t : State) (mask : Nat) (d : List Byte) => done t ∧ LinesKept [l] s t ∧ t.coh.out = s.coh.out ++ [msg 0x63 [] false] ∧
            t.coh.txns = s.coh.txns ∧ ∃ y, t.cellar.line? l = some { x with
              data := y, dirty := true, poison := x.poison && mask != 2 ^ 128 - 1 } ∧
              ∀ i, i < 128 → y.getD i 0 = if mask.testBit i then d.getD i 0 else x.data.getD i 0
          (∀ d : List Byte, d.length = 128 → s.compReason h 128 true false = 0 →
            (here (from_ 0x05 128 .write d (2 ^ 128 - 1) 0 []) → ∃ t, exec (.wrLine h d) s = .next t ∧ wrote t (2 ^ 128 - 1) d) ∧
            (∀ target, here (from_ 0x06 128 .write d (2 ^ 128 - 1) 0 []) → ∃ t, exec (.wrStash h target d) s = .next t ∧ wrote t (2 ^ 128 - 1) d) ∧
            (∀ m, 0 < m → m < 2 ^ 128 → here (from_ 0x07 128 .write d m 0 []) → ∃ t, exec (.wrPart h m d) s = .next t ∧ wrote t m d)))) ∧
      (∀ d : List Byte, d.length = 128 → s.compReason h 128 true false = 0 → ∃ t, exec (.wrPart h 0 d) s = .next t ∧
        t = { s with coh := { s.coh with out := s.coh.out ++ [abMsg 0x63 h.tag.toNat h.pasid.toNat a] } })) ∧
    (∀ x (n : Nat) (v w : BitVec 64), (n = 4 ∨ n = 8) → a % n = 0 → isHbm a = true → s.compReason h n true false = 0 →
      here (from_ 0x08 n .atomic [] 0 0 [⟨0, v, w⟩]) → s.cellar.line? l = some x → x.dir = .di → x.mark = false → x.tent = false →
      (x.cls = 2 ∨ x.cls = 6) → x.poison = false → x.data.length = 128 → s.faults.injArmed = none →
      let old := num8 x.data (a % 128) n
      ∃ t y, exec (.atomicReq h 0 n v w) s = .next t ∧ done t ∧ LinesKept [l] s t ∧
        t.cellar.line? l = some { x with data := y, dirty := true } ∧ num8 y (a % 128) n = (old + v.toNat) % 2 ^ (8 * n) ∧
        (∀ i, (i < a % 128 ∨ a % 128 + n ≤ i) → y.getD i 0 = x.data.getD i 0) ∧
        t.coh.out = s.coh.out ++ [abMsg 0x63 h.tag.toNat h.pasid.toNat a (leBytes old 8 ++ List.replicate 8 0)]) ∧
    ∀ op own, (op, own) ∈ ([(Instr.rdShared, false), (Instr.rdOwn, true), (Instr.rdOwnNoData, true), (Instr.rdCur, false)] :
        List ((AbHdr → Instr) × Bool)) →
      (a % 128 ≠ 0 → ∃ t, exec (op h) s = .next t ∧ Reported 0x4403 0 0 s t ∧ t = { s with faults := t.faults }) ∧
      (a % 128 = 0 → s.compReason h 128 false own ≠ 0 → isReg a = false → ∃ t, exec (op h) s = .next t ∧ t.cellar = s.cellar ∧
        t.reqs = s.reqs ∧ t.mem = s.mem ∧ t.coh.out = s.coh.out ++
          [abMsg 0x65 h.tag.toNat h.pasid.toNat a (leBytes (s.compReason h 128 false own) 16)])

/-- Evictions, snoop responses and transactions (R213 to R217, R222, R223). -/
def Obligations.EvictionsAndSnoopResponses : Prop :=
  ∀ (s : State) (h : AbHdr), s.coh.dead = false →
    let a := h.addr.toNat
    let l := a / 128
    let same := fun (t : State) => t.mem = s.mem ∧ t.cores = s.cores ∧ LinesKept [l] s t
    let acked := s.coh.out ++ [abMsg 0x64 h.tag.toNat h.pasid.toNat a]
    let error := fun (i : Instr) => ∃ t, exec i s = .next t ∧ Reported 0x4403 0 0 s t ∧ t = { s with faults := t.faults }
    let into := fun (x : Line) (mine : Nat) (d : List Byte) (dir : DirState) (t : State) =>
      let keep := !x.mark && (x.tent || x.cls == 2 || x.cls == 6)
      ∃ y : List Byte, (∀ i, i < 128 → y.getD i 0 = if mine.testBit i then x.data.getD i 0 else d.getD i 0) ∧
      t.cellar.line? l = some { x with
        data := y, poison := h.poison && mine != 2 ^ 128 - 1, ecc := 0, ecc2 := 0, mark := false, dir := dir
        dirty := (x.dirty && !x.mark) || keep } ∧
      (keep = true → t.reqs = s.reqs) ∧
      (keep = false → ∃ q, t.reqs = s.reqs ++ [q] ∧ q.kind = .write ∧ q.stage = .hbmW ∧ q.pa = 128 * l ∧ q.data = y)
    (s.txn? l = none → isHbm a = true → a % 128 = 0 →
      (∀ x d, s.cellar.line? l = some x → x.dir = .dO → d.length = 128 →
        (∃ t, exec (.evictDirty h d) s = .next t ∧ same t ∧ t.coh.out = acked ∧ into x 0 d .di t) ∧
        (∃ t, exec (.evictClean h) s = .next t ∧ same t ∧ t.coh.out = acked ∧ t.reqs = s.reqs ∧
          t.cellar.line? l = some { x with dir := .di })) ∧
      (s.cellar.line? l = none → s.flushNames l = false → ∃ t, exec (.evictClean h) s = .next t ∧ same t ∧ t.coh.out = acked ∧
        t.cellar.line? l = none ∧ Reported 0x0405 0 0 s t ∧ t.od 0x4200 0x14 = (s.od 0x4200 0x14 + 1) % 2 ^ 64)) ∧
    (∀ x u d, isHbm a = true → a % 128 = 0 → s.cellar.line? l = some x → s.txn? l = some u → u.rsp = true → u.wb = false → u.ack = false → u.held = none →
      u.toss = false → u.waiter = none → d.length = 128 →
      let closed := fun (t : State) => t.coh.txns = s.coh.txns.filter (fun u => u.line != l) ∧ t.coh.out = s.coh.out
      (∃ t, exec (.snpRspI h) s = .next t ∧ same t ∧ closed t ∧ t.reqs = s.reqs ∧ t.cellar.line? l =
        if u.backInv = true ∧ u.room = none ∧ x.mark = true then none else some { x with dir := .di }) ∧
      (∃ t, exec (.snpRspIData h d) s = .next t ∧ same t ∧ closed t ∧ into x u.mine d .di t) ∧
      (u.shr = true → (∃ t, exec (.snpRspS h) s = .next t ∧ same t ∧ closed t ∧ t.reqs = s.reqs ∧
          t.cellar.line? l = some { x with dir := .ds }) ∧
        ∃ t, exec (.snpRspSData h d) s = .next t ∧ same t ∧ closed t ∧ into x u.mine d .ds t) ∧
      (u.shr = false → error (.snpRspS h) ∧ error (.snpRspSData h d)) ∧
      ∃ t, exec (.snpRspIWbPend h) s = .next t ∧ same t ∧ t.cellar = s.cellar ∧ t.reqs = s.reqs ∧ t.coh.out = s.coh.out ∧
        t.txn? l = some { u with rsp := false, wb := true }) ∧
    (∀ x u d, s.cellar.line? l = some x → s.txn? l = some u → u.rsp = false → u.wb = true → u.ack = false → u.toss = false →
      u.waiter = none → d.length = 128 → isHbm a = true → a % 128 = 0 → ∃ t, exec (.evictDirty h d) s = .next t ∧ same t ∧
        t.coh.txns = s.coh.txns.filter (fun u => u.line != l) ∧ t.coh.out = acked ∧ into x u.mine d .di t) ∧
    (∀ u, isHbm a = true → a % 128 = 0 → s.txn? l = some u → u.ack = true → u.held = none → u.backInv = false → exec (.cmpAck h) s = .next
      { s with coh := { s.coh with txns := s.coh.txns.filter fun u => u.line != l } }) ∧
    (s.txn? l = none ∨ a % 128 ≠ 0 ∨ isHbm a = false → ∀ i, i = Instr.snpRspI h ∨ i = .snpRspS h ∨ i = .snpRspIWbPend h ∨ i = .cmpAck h → error i) ∧
    (∀ e rest, s.coh.flush = e :: rest → exec (.snpFlushDone h) s = .next
      { s with coh := { s.coh with flush := rest, flushed := if rest = [] then [] else s.coh.flushed } }) ∧
    (s.coh.flush = [] → error (.snpFlushDone h))

/-- The module as an agent of companion lines, and the loss of the companion (R203 to R205, R213, R215, R218 to R224). -/
def Obligations.ModuleRequestsAtTheCompanion : Prop :=
  (∀ (s : State) (h : AbHdr), s.coh.dead = false →
    let a := h.addr.toNat
    let l := (a + 2 ^ 40) / 128
    let same := fun (t : State) => t.mem = s.mem ∧ t.cores = s.cores
    (a % 128 = 0 → a < 2 ^ 40 → (∃ t, exec (.snoop h false) s = .next t ∧ same t ∧ LinesKept [l] s t ∧ t.cellar.line? l = none ∧
      t.coh.out = s.coh.out ++ [abMsg 0x40 h.tag.toNat h.pasid.toNat a]) ∧
    (∃ t, exec (.snoop h true) s = .next t ∧ t.cellar = s.cellar ∧ t.reqs = s.reqs ∧ same t ∧ t.coh.out = s.coh.out ++
      [abMsg (if ((s.cellar.line? l).isSome = true ∨ ∃ r ∈ s.reqs, r.pa / 128 = l ∧ r.stage = .filled ∧ r.noAlloc = false) ∧
        find? s.coh.evicting l = none then 0x41 else 0x40) h.tag.toNat h.pasid.toNat a]) ∧
    ((find? s.coh.evicting l).isSome = true → ∃ t, exec (.evictAck h) s = .next t ∧ find? t.coh.evicting l = none ∧
      t = { s with coh := { s.coh with evicting := t.coh.evicting } })) ∧
    (∀ r, s.compReq? h = some r → s.req? r.tag = some r → (s.reqs.map (·.tag)).Nodup →
      (∀ d : List Byte, r.kind = .read → d.length = 128 →
        (∀ op, op = Instr.cmpS ∨ op = .cmpE → ∃ t, exec (op h d) s = .next t ∧ same t ∧ t.cellar = s.cellar ∧
          t.coh.out = s.coh.out ++ [abMsg 0x46 h.tag.toNat h.pasid.toNat a] ∧
          t.req? r.tag = some { r with stage := .filled, data := d, poison := h.poison }) ∧
        (r.agent.waits = true → ∃ t, exec (.cmpI h d) s = .next t ∧ same t ∧ t.cellar = s.cellar ∧ t.coh = s.coh ∧
          t.result r.tag fun q => q.data = d ∧ q.poison = h.poison)) ∧
      (r.agent.waits = true → ∀ old : BitVec 64,
        (r.kind = .write → ∃ t, exec (.cmp h old) s = .next t ∧ same t ∧ t.req? r.tag = some { r with stage := .done, poison := false }) ∧
        (∀ o, r.kind = .atomic → r.sent = true → h.poison = false → r.ops = [o] → r.old = [] → ∃ t, exec (.cmp h old) s = .next t ∧
          same t ∧ t.result r.tag fun q => q.old = [(o.thread, BitVec.ofNat 64 (old.toNat % 2 ^ (8 * r.size)))])) ∧
      (∀ c reason, r.agent.core? = some c → r.agent.unit = 1 → exec (.cmpErr h reason) s = .next
        (s.setReq r.tag fun q => { q with stage := .done, err := r.agent.accessCode })) ∧
      (∀ c reason, r.agent.core? = some c → r.agent.unit ≠ 1 → (s.core c).run = true → (s.core c).stopping = false → ∃ t, exec (.cmpErr h reason) s = .next t ∧
        KernelFault c r.agent.accessCode (s.dropReq r.tag) t))) ∧
  ∀ s : State, s.coh.dead = false →
    let gone := fun (code : Nat) (t : State) => t.coh.dead = true ∧ t.coh.txns = [] ∧ t.coh.evicting = [] ∧ t.coh.flush = [] ∧
      t.mem = s.mem ∧ (∀ r ∈ t.reqs, r.stage ≠ .comp) ∧ (∃ r, t.faults.reports.getLast? = some r ∧ r.code = BitVec.ofNat 16 code) ∧
      (∀ l x, t.cellar.line? l = some x → x.dir = .di ∧ isComp (128 * l) = false) ∧
      ∀ l x, s.cellar.line? l = some x → x.dir = .dO → isComp (128 * l) = false → ∃ y, t.cellar.line? l = some y ∧ y.poison = true ∧
        y.dirty = true ∧ y.data = x.data
    (s.host.link ≠ 1 →
      (∀ l u, s.txn? l = some u → u.rsp = true ∨ u.wb = true ∨ u.ack = true → ∃ t, exec (.homeTimeout l) s = .next t ∧ gone 0x4401 t ∧ ∀ x, s.cellar.line? l = some x →
        isComp (128 * l) = false → ∃ y, t.cellar.line? l = some y ∧ y.poison = true ∧ y.dirty = true ∧ y.data = x.data) ∧
      ∀ tag r, s.req? tag = some r → r.stage = .comp → ∃ t, exec (.cohHomeTimeout tag) s = .next t ∧ gone 0x4402 t) ∧
    (s.coh.flush ≠ [] → ∃ t, exec .cohFlushTimeout s = .next t ∧ gone 0x4404 t ∧ ∀ l x, s.cellar.line? l = some x →
      s.flushNames l = true → s.coh.flushed.contains l = false → isComp (128 * l) = false → ∃ y, t.cellar.line? l = some y ∧ y.poison = true)

/-- Reductions from the core to the home (R243, R244, R246). -/
def Obligations.ReductionsOnTheirWay : Prop :=
  (∀ (s : State) (c : Nat) (rs1 rd : Reg), s.ctlGo c 4 [rs1] → s.ctlGo c 4 [rd, rs1] →
    let k := s.core c
    let d := k.reg rs1
    let fmt := bits d.toNat 51 50
    let lines := bits d.toNat 49 46 + 1
    let la := bits d.toNat 45 29
    let a := bits d.toNat 61 58
    let sendBad := 2 ≤ fmt ∨ la % 128 ≠ 0 ∨ 0x1C000 < la + (if fmt = 0 then 128 else 16) * lines
    let size := if fmt = 0 then 128 else if fmt = 1 then 16 else 8
    let recvBad := fmt = 3 ∨ la % 128 ≠ 0 ∨ 0x1C000 < la + size * lines
    (sendBad → ∃ t, exec (.rsend c rs1) s = .next t ∧ KernelFault c 0x2101 s t) ∧
    (¬ sendBad → ∃ t, exec (.rsend c rs1) s = .next t ∧ OnlyCore c s t ∧ GoesTo c (k.pc + 4) s t ∧
      t.core c = { k with
        redq := k.redq ++ [{ desc := d, sent := 0, ctx := k.ctx, olds := k.others 16 k.knows }], pc := k.pc + 4
        icache := (t.core c).icache, rdraw := (t.core c).rdraw }) ∧
    (recvBad → ∃ t, exec (.rrecv c rd rs1) s = .next t ∧ KernelFault c 0x2101 s t) ∧
    (¬ recvBad → cnt k.issued a = 0xFFFFFFFF → ∃ t, exec (.rrecv c rd rs1) s = .next t ∧ KernelFault c 0x2147 s t) ∧
    (¬ recvBad → cnt k.issued a ≠ 0xFFFFFFFF → ∃ t, exec (.rrecv c rd rs1) s = .next t ∧ (∀ e, e ≠ c → t.core e = s.core e) ∧
      (t.core c).reg rd = (if rd = 0 then 0 else BitVec.ofNat 64 (cnt k.issued a + 1)) ∧ (∀ r, r ≠ rd → (t.core c).reg r = k.reg r) ∧
      cnt (t.core c).issued a = cnt k.issued a + 1 ∧ (∀ b, b ≠ a → cnt (t.core c).issued b = cnt k.issued b) ∧
      t.core c = { k with
        regs := (t.core c).regs, pc := k.pc + 4, icache := (t.core c).icache, issued := (t.core c).issued, rdraw := (t.core c).rdraw
        items := k.items ++ [{ ctr := a, id := s.nextTag, left := lines, complete := false, kind := .rrecv, chan := 0
                               no := cnt k.issued a + 1, olds := k.others 16 k.knows }] } ∧
      t = { s with
        cores := t.cores, nextTag := s.nextTag + 1 + lines, freeCtr := t.freeCtr, sec := { s.sec with single := t.sec.single }
        trellis := { s.trellis with subs := s.trellis.subs ++ (List.range lines).map fun i => { Sub.reset with
          tag := s.nextTag + 1 + i, core := c, ctx := k.ctx, rid := bits d.toNat 11 0, line := bits d.toNat 28 12 + i
          laddr := la + size * i, fmt := fmt, item := s.nextTag, born := s.od 0x6000 2 } } })) ∧
  (∀ (s : State) (c : Nat) (rd : Reg), s.ctlGo c 4 [rd] → ∃ t, exec (.rstat c rd) s = .next t ∧
    RegStep c rd (BitVec.ofNat 64 (((s.core c).redq.map fun x => bits x.desc.toNat 49 46 + 1 - x.sent).sum % 256)) ((s.core c).pc + 4) s t) ∧
  (∀ (s : State) (c : Nat) (x : RSend) (rest : List RSend), c < 80000 → (s.core c).redq = x :: rest →
    let k := s.core c
    let d := x.desc.toNat
    let fmt := bits d 51 50
    let n := if fmt = 0 then 128 else 16
    let a := bits d 45 29 + n * x.sent
    (Config.redCredits < s.atPlot (s.coreRouter c) → exec (.rsendLineAccept c) s = .next s) ∧
    (s.atPlot (s.coreRouter c) ≤ Config.redCredits → k.check a n = 0 → ∃ t y b, exec (.rsendLineAccept c) s = .next t ∧
      t = { s with
        cores := t.cores, freeCtr := t.freeCtr, nextTag := s.nextTag + 1
        trellis := { s.trellis with contribs := s.trellis.contribs ++ [y] } } ∧
      (∀ e, e ≠ c → t.core e = s.core e) ∧
      t.core c = { k with
        rdraw := (t.core c).rdraw, redq := if x.sent + 1 < bits d 49 46 + 1 then { x with sent := x.sent + 1 } :: rest else rest } ∧
      b.length = n ∧ (∀ i, i < n → k.mayFind x.olds (a + i) (b.getD i 0)) ∧ (s.settled c → b = k.peek a n) ∧
      y = { Contrib.reset with
        tag := s.nextTag, core := c, cores := [c], ctx := x.ctx, rid := bits d 11 0, line := bits d 28 12 + x.sent
        words := y.words } ∧
      ∀ j, j < 4 → word4 y.words j = if fmt = 0 then Solera.add 0 (Solera.ofBytes (slice b (32 * j) 32))
        else Solera.term (sextN (bits d 61 52) 10) (FV.of32 (BitVec.ofNat 32 (num8 b (4 * j) 4))))) ∧
  ∀ (s : State), (∀ (tag tr : Nat) (x : Contrib), s.contrib? tag = some x → x.stop < 2 → s.tree? x.rid = some tr →
      let die := x.core / 10000
      let g := if x.stop = 0 then s.coreRouter x.core else ((treeDie tr die).1, (treeDie tr die).2.1)
      let full := if x.stop = 0 then 16 else (treeDie tr die).2.2
      let next := if x.stop = 0 ∧ (treeDie tr die).2.2 ≠ 0 then 1 else 2
      let others := s.trellis.contribs.filter fun y => y.tag != tag
      let busy := (s.trellis.bufs.filter fun b => b.gx == g.1 && b.gy == g.2).length
      (∀ b, s.trellis.bufs.find? (·.is g x.stop x.rid x.line) = some b → ∃ t w, exec (.redCombine tag) s = .next t ∧
        t.mem = s.mem ∧ t.cores = s.cores ∧ t.cellar = s.cellar ∧ (∀ j, j < 4 → word4 w j = Solera.add (word4 b.words j) (word4 x.words j)) ∧
        (b.leaves + x.leaves < full → t.trellis.contribs = others ∧
          t.trellis.bufs = s.trellis.bufs.map fun y => if y = b then
            { b with leaves := b.leaves + x.leaves, words := w, cores := dedup (b.cores ++ x.cores) } else y) ∧
        (full ≤ b.leaves + x.leaves → t.trellis.contribs = others ++ [{ Contrib.reset with
            tag := s.nextTag, core := b.core, cores := dedup (b.cores ++ x.cores), ctx := b.ctx, rid := b.rid, line := b.line
            leaves := b.leaves + x.leaves, words := w, stop := next }] ∧
          ∀ y ∈ t.trellis.bufs, y ∈ s.trellis.bufs ∧ y ≠ b)) ∧
      (s.trellis.bufs.find? (·.is g x.stop x.rid x.line) = none →
        (16 ≤ busy → ∃ t, exec (.redCombine tag) s = .next t ∧ t.trellis.bufs = s.trellis.bufs ∧ t.contrib? tag = some { x with stop := next } ∧
          t.od 0x6000 5 = (s.od 0x6000 5 + 1) % 2 ^ 64 ∧ t.mem = s.mem ∧ t.cores = s.cores ∧ t.cellar = s.cellar) ∧
        (busy < 16 → x.leaves < full → ∃ t, exec (.redCombine tag) s = .next t ∧
          t = { s with trellis := { s.trellis with contribs := others, bufs := s.trellis.bufs ++ [{ LBuf.reset with
            gx := g.1, gy := g.2, rid := x.rid, line := x.line, stop := x.stop, core := x.core, cores := x.cores, ctx := x.ctx
            leaves := x.leaves, words := x.words }] } }))) ∧
    ∀ (gx gy rid line : Nat) (b : LBuf) (tr : Nat), s.tree? rid = some tr →
      s.trellis.bufs.find? (fun b => b.gx == gx && b.gy == gy && b.rid == rid && b.line == line) = some b →
      exec (.redFlush gx gy rid line) s = .next { s with
        nextTag := s.nextTag + 1
        trellis := { s.trellis with
          bufs := s.trellis.bufs.filter (· != b)
          contribs := s.trellis.contribs ++ [{ Contrib.reset with
            tag := s.nextTag, core := b.core, cores := b.cores, ctx := b.ctx, rid := b.rid, line := b.line, leaves := b.leaves, words := b.words
            stop := if b.stop = 0 ∧ (treeDie tr (b.core / 10000)).2.2 ≠ 0 then 1 else 2 }] } }

/-- Reductions at the home and at the subscriber (R192, R193, R247, R362). -/
def Obligations.ReductionsAtTheirHome : Prop :=
  (∀ (s : State) (tag tr l : Nat) (x : Contrib), s.contrib? tag = some x → x.stop = 2 →
    (s.tree? x.rid = none → ∃ t, exec (.redContributionHome tag) s = .next t ∧ Reported 0x248A 8 x.rid s t ∧ t.cellar = s.cellar ∧
      t.mem = s.mem ∧ t.trellis.contribs = s.trellis.contribs.filter fun y => y.tag != tag) ∧
    (s.tree? x.rid = some tr → s.resultLine x.rid x.line = some l →
      let same := fun (t : State) => t.mem = s.mem ∧ t.cores = s.cores ∧ LinesKept [l] s t ∧
        t.trellis.contribs = s.trellis.contribs.filter fun y => y.tag != tag
      (∀ y h, s.cellar.line? l = some y → y.hold = some h → h.rid = x.rid → h.done = false → h.got ≠ treeLeaves tr →
        (h.got + x.leaves ≤ treeLeaves tr → (h.got + x.leaves < treeLeaves tr ∨ h.hdr = false) →
          ∃ t d, exec (.redContributionHome tag) s = .next t ∧ same t ∧ t.faults = s.faults ∧
            t.cellar.line? l = some { y with data := d, dirty := true, hold := some { h with got := h.got + x.leaves } } ∧
            ∀ j, j < 4 → word4 (fourWords d) j = Solera.add (word4 (fourWords y.data) j) (word4 x.words j)) ∧
        (treeLeaves tr < h.got + x.leaves → ∃ t, exec (.redContributionHome tag) s = .next t ∧ same t ∧
          Reported 0x2485 8 x.rid s t ∧ t.cellar.line? l = some { y with poison := true })) ∧
      (s.cellar.line? l = none → s.waitsBefore l x = false → (s.cellar.setOf l).length < 16 → s.faults.injArmed = none →
        (s.reqs.any fun q => q.pa / 128 == l && (match q.stage with | .hbm => true | .filled => true | _ => false)) = false →
        x.leaves ≤ treeLeaves tr → ∃ t d, exec (.redContributionHome tag) s = .next t ∧ same t ∧
          (∃ r, t.reqs = s.reqs ++ [r] ∧ r.agent = .header x.rid x.line ∧ r.kind = .read ∧ r.cls = 3 ∧ r.pa = s.treeAddr x.rid) ∧
          t.cellar.line? l = some { Line.reset with
            addr := l, data := d, cls := 6, dirty := true, hold := some { Hold.reset with rid := x.rid, idx := x.line, got := x.leaves } } ∧
          ∀ j, j < 4 → word4 (fourWords d) j = Solera.add 0 (word4 x.words j)) ∧
      (∀ y h, s.cellar.line? l = some y → y.hold = some h → h.rid = x.rid → h.done = true →
        ∃ t, exec (.redContributionHome tag) s = .next t ∧ t.cellar = s.cellar ∧ t.mem = s.mem ∧ t.cores = s.cores ∧
          (x.waited = false → t.trellis.contribs =
            (s.trellis.contribs.filter fun y => y.tag != tag) ++ [{ x with waited := true }])))) ∧
  (∀ (s : State) (rid line l tr : Nat) (y : Line) (h : Hold) (q : Req), s.headerBack rid line = some q → s.resultLine rid line = some l → s.tree? rid = some tr →
    s.cellar.line? l = some y → y.hold = some h → h.rid = rid →
    let same := fun (t : State) => t.mem = s.mem ∧ t.cores = s.cores ∧ LinesKept [l] s t ∧ t.reqs = s.reqs.filter fun r => r.tag != q.tag
    (h.done = true ∨ h.got ≠ treeLeaves tr → ∃ t, exec (.treeHeaderRead rid line) s = .next t ∧ same t ∧ t.span = s.span ∧
      t.trellis = s.trellis ∧ t.cellar.line? l = some { y with hold := some { h with hdr := true } }) ∧
    (h.done = false → h.got = treeLeaves tr →
      (treeDeliver tr = 0 → ∃ t, exec (.treeHeaderRead rid line) s = .next t ∧ same t ∧ t.span = s.span ∧ t.trellis = s.trellis ∧
        t.cellar.line? l = some { y with hold := none }) ∧
      (treeDeliver tr = 1 → h.subs = [] → h.served < treeSubs tr → ∃ t, exec (.treeHeaderRead rid line) s = .next t ∧ same t ∧
        t.span = s.span ∧ t.trellis = s.trellis ∧ t.cellar.line? l = some { y with hold := some { h with hdr := true, done := true } }) ∧
      (2 ≤ treeDeliver tr → ∃ t, exec (.treeHeaderRead rid line) s = .next t ∧ same t ∧ t.trellis = s.trellis ∧
        t.cellar.line? l = some { y with hold := some { h with hdr := true, done := true, ring := true } } ∧
        ∃ z ∈ t.span.ring, z.rid = rid ∧ z.line = h.idx ∧ z.own = some (fourWords y.data)))) ∧
  (∀ (s : State) (rid line l tr : Nat) (y : Line) (h : Hold), s.resultLine rid line = some l → s.tree? rid = some tr →
    s.cellar.line? l = some y → y.hold = some h → h.rid = rid →
    (∀ z w, h.ring = true → h.subs = [] → h.served < treeSubs tr →
      s.span.ring.find? (fun x => x.rid == rid && x.line == line && x.final) = some z → z.sum = some w →
      ∃ t, exec (.redWriteback rid line) s = .next t ∧ t.mem = s.mem ∧ t.cores = s.cores ∧ LinesKept [l] s t ∧ t.trellis = s.trellis ∧
        t.span = { s.span with ring := s.span.ring.filter fun y => !(y.rid == rid && y.line == line) } ∧
        t.cellar.line? l = some { y with data := bytes4 w, poison := false, dirty := true, hold := some { h with ring := false } })) ∧
  (∀ (s : State) (tag l tr : Nat) (x : Sub), s.sub? tag = some x → x.res = none → x.lost = false → s.tree? x.rid = some tr →
    s.resultLine x.rid x.line = some l →
    (treeDeliver tr = 0 → ∃ t, exec (.redSubscription tag) s = .next t ∧ Reported 0x2489 8 x.rid s t ∧ t.cellar = s.cellar ∧
      t.trellis = { s.trellis with subs := s.trellis.subs.filter fun x => x.tag != tag }) ∧
    (treeDeliver tr ≠ 0 → ∀ y h, s.cellar.line? l = some y → y.hold = some h → h.rid = x.rid → h.subs.contains tag = false →
      let same := fun (t : State) => t.mem = s.mem ∧ t.cores = s.cores ∧ LinesKept [l] s t
      (h.done = true → h.ring = false → h.served < treeSubs tr → ∃ t, exec (.redSubscription tag) s = .next t ∧ same t ∧
        t.sub? tag = some { x with res := some (fourWords y.data), poison := y.poison } ∧
        (h.served + 1 < treeSubs tr → t.cellar.line? l = some { y with
          hold := some { h with served := h.served + 1, subs := h.subs.filter (· != tag) } }) ∧
        (h.served + 1 = treeSubs tr → t.cellar.line? l = some { y with hold := none })) ∧
      (h.done = false ∨ h.ring = true → ∃ t, exec (.redSubscription tag) s = .next t ∧ same t ∧ t.trellis = s.trellis ∧
        t.cellar.line? l = some { y with hold := some { h with subs := addTo h.subs tag } })) ∧
    (treeDeliver tr ≠ 0 → s.cellar.line? l = none → (s.cellar.setOf l).length < 16 → s.faults.injArmed = none →
      (s.reqs.any fun q => q.pa / 128 == l && (match q.stage with | .hbm => true | .filled => true | _ => false)) = false →
      ∃ t, exec (.redSubscription tag) s = .next t ∧ t.mem = s.mem ∧ t.cores = s.cores ∧ LinesKept [l] s t ∧ t.trellis = s.trellis ∧
        t.cellar.line? l = some { Line.reset with
          addr := l, data := List.replicate 128 0, cls := 6, dirty := true
          hold := some { Hold.reset with rid := x.rid, idx := x.line, subs := [tag] } })) ∧
  ∀ (s : State) (tag : Nat) (x : Sub) (w : BitVec 768), s.sub? tag = some x → x.res = some w → x.lost = false → x.core < 80000 →
    (s.core x.core).items.any (·.id == x.item) = true →
    let c := x.core
    let gone := { s.trellis with subs := s.trellis.subs.filter fun y => y.tag != tag }
    (x.poison = false → ∃ t, exec (.redResultArrival tag) s = .next t ∧ t = { s with cores := t.cores, freeCtr := t.freeCtr, trellis := gone } ∧
      (∀ d, d ≠ c → t.core d = s.core d) ∧
      (let b := subBytes x.fmt (treeEbase ((s.tree? x.rid).getD 0)) w
       (∀ j, j < b.length → Mem.read (t.core c).ldst (x.laddr + j) = b.getD j 0 ∨
         ((∃ i ∈ (s.core c).items, i.id = x.item ∧ ∃ o ∈ i.olds, o.1 = x.laddr + j) ∧
           Mem.read (t.core c).ldst (x.laddr + j) = Mem.read (s.core c).ldst (x.laddr + j))) ∧
       (s.settled c → (t.core c).peek x.laddr b.length = b) ∧ BytesOutside c [x.laddr] b.length s t) ∧
      (t.core c).issued = (s.core c).issued ∧ (t.core c).regs = (s.core c).regs) ∧
    (x.poison = true → (s.core c).run = true → (s.core c).stopping = false →
      ∃ t, exec (.redResultArrival tag) s = .next t ∧ KernelFault c 0x2106 { s with trellis := gone } t)

/-- Routers, routes, end-to-end delivery and die-to-die lanes (R229 to R241, R249, R251). The outputs' clock, the credits of a link and the packets that are malformed are the model's choices (log entries 91 and 96). -/
def Obligations.PacketsRoutesAndLanes : Prop :=
  (∀ (s : State) (gx gy hdr : Nat), gx < 92 → gy < 64 →
    let g := (gx, gy)
    let h := BitVec.ofNat 80 hdr
    let n := h.toNat
    let dx := bits n 59 53
    let dy := bits n 52 47
    let gone := s.trellis.deadR.contains g = true ∨ s.trellis.lost.contains (ownerDie g) = true
    let odd := 6 ≤ bits n 63 60 ∨ 5 ≤ bits n 33 31 ∨ 92 ≤ dx ∨ 64 ≤ dy
    let cast := n.testBit 30 = true ∧ bits n 63 60 = 4
    let port := if gx < dx then RPort.xPlus else if dx < gx then .xMinus else if gy < dy then .yPlus else if dy < gy then .yMinus else .deliver
    let whole := s.trellis.routed = [] ∧ s.trellis.routedE = [] ∧ s.trellis.routedD = []
    let since := fun (t : State) (p : RPort) => (get t.trellis.outs (5 * (64 * gx + gy) + p.no) (0, 0)).1
    (gone → exec (.trellisPacket gx gy hdr) s = .next s) ∧
    (¬ gone → odd → ∃ t, exec (.trellisPacket gx gy hdr) s = .next t ∧ Reported 0x2486 9 (64 * gx + gy) s t ∧ t.trellis = s.trellis) ∧
    (¬ gone → ¬ odd → whole → ¬ cast →
      (s.trellis.pkts.find? (·.arrives g h) = none →
        (s.credit g .deliver (if n.testBit 29 then 1 else 0) n = false → exec (.trellisPacket gx gy hdr) s = .next s) ∧
        (s.credit g .deliver (if n.testBit 29 then 1 else 0) n = true →
          exec (.trellisPacket gx gy hdr) s = .next { s with trellis := { s.trellis with
            pkts := s.trellis.pkts ++ [{ gx := gx, gy := gy, port := port, inp := .deliver, since := since s port, via := none
                                         vc := if n.testBit 29 then 1 else 0, hdr := h }] } })) ∧
      (∀ p, s.trellis.pkts.find? (·.arrives g h) = some p →
        (s.granted? (p.gx, p.gy) p.port ≠ some p → exec (.trellisPacket gx gy hdr) s = .next s) ∧
        (s.granted? (p.gx, p.gy) p.port = some p → p.via = none → ∃ t, exec (.trellisPacket gx gy hdr) s = .next t ∧
          (let k := 5 * (64 * p.gx + p.gy) + p.port.no
           (get t.trellis.outs k (0, 0)).1 = (get s.trellis.outs k (0, 0)).1 + (1 + bits n 33 31) ∧
             ∀ j, j ≠ k → get t.trellis.outs j (0, 0) = get s.trellis.outs j (0, 0)) ∧
          t = { s with trellis := { s.trellis with
            outs := t.trellis.outs
            pkts := s.trellis.pkts.erase p ++ [{ gx := gx, gy := gy, port := port, inp := p.port.facing, since := since t port, via := none
                                                 vc := if n.testBit 29 then 1 else 0, hdr := h }] } }))) ∧
    (¬ gone → ¬ odd → cast → bits n 46 40 = 0 → bits n 39 34 = 31 → s.trellis.pkts.find? (·.arrives g h) = none →
      s.credit g .deliver (if n.testBit 29 then 1 else 0) n = true →
      let row := gy = 31 ∨ gy = 32
      let compute := 2 ≤ gx ∧ gx ≤ 89
      ∃ t, exec (.trellisPacket gx gy hdr) s = .next t ∧ t = { s with trellis := { s.trellis with pkts := t.trellis.pkts } } ∧
        ∀ q, q ∈ t.trellis.pkts ↔ q ∈ s.trellis.pkts ∨
          (q = { gx := gx, gy := gy, port := q.port, inp := .deliver, since := since s q.port, via := none
                 vc := if n.testBit 29 then 1 else 0, hdr := h } ∧
            ((q.port = .xPlus ∧ row ∧ gx < 89) ∨ (q.port = .yMinus ∧ compute ∧ gy ≤ 31 ∧ 0 < gy) ∨
             (q.port = .yPlus ∧ (g = (0, 31) ∨ (compute ∧ 32 ≤ gy ∧ gy < 63))) ∨
             (q.port = .deliver ∧ ∃ x, (routerServes gx gy).1 = some x))))) ∧
  (∀ s : State,
    (∃ t, exec .routeChange s = .next t ∧ t.trellis.resend = 1 ∧ t.od 0x6000 2 = (s.od 0x6000 2 + 1) % 2 ^ 32 ∧
      (t.od 0x6000 1).testBit 3 = true) ∧
    (s.installRoutes.cutOff = [] → ∃ t, exec .routeChange s = .next t ∧
      t = { s with trellis := t.trellis, dict := t.dict, freeCtr := s.freeCtr + 1 } ∧
      t.trellis = { s.trellis with
        routed := s.trellis.deadR, routedE := t.trellis.routedE, routedD := s.trellis.lost, tables := s.freeCtr, resend := 1 } ∧
      ∀ e, e ∈ t.trellis.routedE ↔ e < 14 ∧ (e ∈ s.trellis.deadE ∨ ∃ d ∈ edgeEnds e, d ∈ s.trellis.lost)) ∧
    (1 ≤ s.trellis.resend → s.trellis.resend ≤ 3 → ∃ t, exec .e2eResend s = .next t ∧
      let old := fun (b : Nat) => b ≠ s.od 0x6000 2
      t = { s with trellis := t.trellis, reqs := t.reqs, sau := t.sau, dict := t.dict } ∧
      t.trellis = { s.trellis with
        resend := s.trellis.resend + 1
        subs := s.trellis.subs.map fun x => if old x.born then { x with resend := min 3 (x.resend + 1), lost := false } else x } ∧
      t.sau = (s.sau.map fun x => if old x.born then { x with resend := min 3 (x.resend + 1), lost := false } else x) ∧
      t.reqs = (s.reqs.map fun r => if s.unanswered r = true then { r with resend := min 3 (r.resend + 1), lost := false } else r) ∧
      t.od 0x6000 6 = (s.od 0x6000 6 + ((s.reqs.filter s.unanswered).length + (s.sau.filter fun x => old x.born).length
        + (s.trellis.subs.filter fun x => old x.born).length)) % 2 ^ 64) ∧
    (∀ tag, let late := fun (n b : Nat) => n = 3 ∧ b ≠ s.od 0x6000 2 ∧ 3 < s.trellis.resend
      (∀ r, s.req? tag = some r → s.unanswered r = true → (∀ c, r.agent.core? = some c → (s.core c).stopping = false) →
        (late r.resend r.born → ∃ t, exec (.trLost tag) s = .next t ∧ Reported 0x2484 0 0 s t ∧
          t.reqs = s.reqs.filter (fun q => q.tag != tag) ∧ (t.od 0x6000 1).testBit 4 = true ∧ t.mem = s.mem ∧ t.cores = s.cores) ∧
        (¬ late r.resend r.born → exec (.trLost tag) s = .next s)) ∧
      (∀ x, s.req? tag = none → s.sub? tag = some x → late x.resend x.born → ∃ t, exec (.trLost tag) s = .next t ∧
        Reported 0x2484 0 0 s t ∧ t.trellis = { s.trellis with subs := s.trellis.subs.filter fun y => y.tag != tag } ∧
        (t.od 0x6000 1).testBit 4 = true ∧ t.mem = s.mem ∧ t.cores = s.cores) ∧
      (∀ x, s.req? tag = none → s.sub? tag = none → s.sau.find? (·.tag == tag) = some x → late x.resend x.born →
        ∃ t, exec (.trLost tag) s = .next t ∧ Reported 0x2484 0 0 s t ∧ t.sau = s.sau.filter (fun y => y.tag != tag) ∧
          (t.od 0x6000 1).testBit 4 = true ∧ t.mem = s.mem ∧ t.cores = s.cores))) ∧
  (∀ (s : State) (gx gy : Nat), gx < 92 → gy < 64 →
    (s.trellis.deadR.contains (gx, gy) = true → exec (.trRouterDead gx gy) s = .next s) ∧
    (s.trellis.deadR.contains (gx, gy) = false →
      (∀ d p, routerServes gx gy = (some (d, p), none) → ∃ t,
        exec (.trRouterDead gx gy) s = .next t ∧ t.trellis = { s.trellis with deadR := s.trellis.deadR ++ [(gx, gy)] } ∧
        Reported 0x1483 9 (64 * gx + gy) s t ∧ (∀ c ∈ s.coresOfPlot d p, c ∈ t.faults.retiring) ∧ t.mem = s.mem ∧ t.cores = s.cores) ∧
      (routerServes gx gy = (none, none) → ∃ t,
        exec (.trRouterDead gx gy) s = .next t ∧ t.trellis = { s.trellis with deadR := s.trellis.deadR ++ [(gx, gy)] } ∧
        Reported 0x1483 9 (64 * gx + gy) s t ∧ t.faults.retiring = s.faults.retiring ∧ t.mem = s.mem ∧ t.cores = s.cores) ∧
      (∀ pos, routerServes gx gy = (none, some pos) → s.losesWork [pos] = false → ∃ t,
        exec (.trRouterDead gx gy) s = .next t ∧ t.trellis.deadR = s.trellis.deadR ++ [(gx, gy)] ∧
        ReportedAmong 0x1483 9 (64 * gx + gy) s t ∧ t.mem = s.mem ∧
        (s.cellar.dead.contains pos = false → pos ∈ t.cellar.retired ∧ pos ∈ t.cellar.dead ∧ ReportedAmong 0x1204 2 pos s t)))) ∧
  ∀ (s : State) (e g : Nat) (bad : Bool), e < 14 → g < 16 → s.faults.injArmed = none → ∃ t, exec (.d2dCrcFail e g bad) s = .next t ∧
    t = { s with trellis := { s.trellis with groups := t.trellis.groups } } ∧
    ∀ k, get t.trellis.groups k LaneGroup.reset = if k = 16 * e + g ∧ bad = true then
      { get s.trellis.groups k LaneGroup.reset with erring := (get s.trellis.groups k LaneGroup.reset).erring + 1 }
      else get s.trellis.groups k LaneGroup.reset

/-- Memory accesses at the channel ports (R258 to R267, R274), with what each leaves of every byte of memory. -/
def Obligations.HbmReadsAndWrites : Prop :=
  (∀ (s : State) (tag : Nat) (r : Req), s.here? tag = some r → r.stage = .hbm → r.kind = .read → s.writeAhead r = false →
    s.faults.injArmed = none →
    let sa := s.store (128 * (r.pa / 128))
    let a := sa / 128 * 128
    let b := a + 64
    (s.channelUp (s.place sa).1 = true →
      (s.hbm.poison.contains (a / 64) = false → s.hbm.poison.contains (b / 64) = false → s.eccAt a = 0 → s.eccAt b = 0 →
        ∃ t, exec (.hbmRead tag) s = .next t ∧ t.req? tag = some { r with stage := .filled, poison := false } ∧
          t = { s with reqs := t.reqs }) ∧
      ((s.hbm.poison.contains (a / 64) = true ∨ s.hbm.poison.contains (b / 64) = true) → s.eccAt a = 0 → s.eccAt b = 0 →
        ∃ t, exec (.hbmRead tag) s = .next t ∧ t.req? tag = some { r with stage := .filled, poison := true } ∧
          t = { s with reqs := t.reqs }) ∧
      (s.hbm.poison.contains (a / 64) = false → s.hbm.poison.contains (b / 64) = false → 1 ≤ s.eccAt a → s.eccAt a ≤ 3 →
        s.eccAt b = 0 → ∃ t, exec (.hbmRead tag) s = .next t ∧ t.req? tag = some { r with stage := .filled, poison := false } ∧
          Reported 0x0501 3 (s.place a).1 s t ∧ t.mem = s.mem)) ∧
    (s.channelUp (s.place sa).1 = false → s.codeChunks sa = none → (s.hbm.parity && s.hbm.inBarrels sa) = false →
      ((s.stack (s.stackAt sa)).lost = false → exec (.hbmRead tag) s = .next s) ∧
      ((s.stack (s.stackAt sa)).lost = true → exec (.hbmRead tag) s = .next (s.setReq tag fun q =>
        { q with stage := .filled, poison := if q.kind = .write then q.poison else true })))) ∧
  (∀ (s : State) (tag : Nat) (r : Req), s.here? tag = some r → r.stage = .hbmW → s.writeAhead r = false → s.faults.injArmed = none →
    s.marked (128 * (r.pa / 128)) = none →
    let l := r.pa / 128
    let sa := s.store (128 * l)
    let stored := fun (t : State) => t.cores = s.cores ∧ t.cellar = s.cellar ∧ t.coh = s.coh ∧
      ∀ b, t.peek b 1 = if sa ≤ b ∧ b < sa + 128 ∧ r.wmask.testBit (b - sa) = true then [r.wdata.getD (b - sa) 0] else s.peek b 1
    ((s.stack (s.stackAt sa)).lost = true → r.agent.waits = true → exec (.hbmWrite tag) s =
      .next (s.setReq tag fun q => { q with stage := .done, poison := true })) ∧
    ((s.stack (s.stackAt sa)).lost = false → s.channelUp (s.place sa).1 = false → exec (.hbmWrite tag) s = .next s) ∧
    ((s.stack (s.stackAt sa)).lost = false → s.channelUp (s.place sa).1 = true → (∀ i, i < 2 → s.eccAt (sa + 64 * i) = 0) →
      (s.coded l = false → ∃ t, exec (.hbmWrite tag) s = .next t ∧ stored t ∧
        t.req? tag = some { r with stage := .hbmAck } ∧ t.hbm.parUps = s.hbm.parUps) ∧
      (s.coded l = true →
        let o := 128 * l - s.hbm.bbase
        let f := o / 2 ^ 16
        ∃ t d, exec (.hbmWrite tag) s = .next t ∧ stored t ∧ t.req? tag = some { r with stage := .parity } ∧
          t.hbm.parUps = s.hbm.parUps ++
            [{ tag := tag, pa := s.hbm.bbase + (f / 16 * 16 + 14) * 2 ^ 16 + o % 2 ^ 16, coef := g14 (f % 16), diff := d },
             { tag := tag, pa := s.hbm.bbase + (f / 16 * 16 + 15) * 2 ^ 16 + o % 2 ^ 16, coef := g15 (f % 16), diff := d }] ∧
          d.length = 128 ∧ ∀ i, i < 128 → [d.getD i 0] = List.zipWith (· ^^^ ·) (s.peek (sa + i) 1) (t.peek (sa + i) 1)))) ∧
  ∀ (s : State) (tag : Nat) (p : ParUp) (rest : List ParUp), s.hbm.parUps = p :: rest → p.tag = tag → p.diff.length = 128 →
    s.channelUp (s.place p.pa).1 = true → s.faults.injArmed = none → s.eccAt p.pa = 0 → s.eccAt (p.pa + 64) = 0 →
    ∃ t, exec (.parityUpdate tag) s = .next t ∧ t.hbm = { s.hbm with parUps := rest, ecc := t.hbm.ecc, poison := t.hbm.poison } ∧
      (∀ b, b ∈ t.hbm.poison ↔ b ∈ s.hbm.poison) ∧ (∀ b, cnt t.hbm.ecc b = cnt s.hbm.ecc b) ∧
      (∀ i, i < 128 → t.peek (p.pa + i) 1 = (s.peek (p.pa + i) 1).map fun b => b ^^^ gfMul p.coef (p.diff.getD i 0)) ∧
      MemOutside p.pa 128 s t ∧ t = { s with mem := t.mem, hbm := t.hbm, reqs := t.reqs } ∧
      (rest.any (·.tag == tag) = true → t.reqs = s.reqs) ∧
      (rest.any (·.tag == tag) = false → t.reqs = s.reqs.map fun q => if q.tag = tag ∧ q.stage = .parity then { q with stage := .hbmAck } else q)

/-- Stacks out of service (R272 to R275, R465), with their frame. -/
def Obligations.StacksOfMemory : Prop :=
  ∀ (s : State) (n : Nat), n < 16 →
    let k := s.stack n
    let only := fun (t : State) => t.mem = s.mem ∧ t.cores = s.cores ∧ ∀ m, m ≠ n → t.stack m = s.stack m
    (∃ t, exec (.hbmForced n) s = .next t ∧ Reported 0x0503 3 (32 * n) s t ∧ (t.od 0x5000 1).testBit 7 = true ∧
      t = { s with faults := t.faults, dict := t.dict }) ∧
    (∃ t, exec (.hclkLoss n) s = .next t ∧ only t ∧ t.stack n = { k with refresh := true } ∧
      t = { s with hbm := { s.hbm with stk := t.hbm.stk } }) ∧
    (k.lost = false → k.level ≠ 3 → ∃ t, exec (.stackResume n true) s = .next t ∧ only t ∧
      t.stack n = { k with inServ := true, refresh := false, test := false, loop := 0 } ∧ t = { s with hbm := { s.hbm with stk := t.hbm.stk } }) ∧
    exec (.stackResume n false) s = .next s ∧
    (∀ temp thresh : Int, let p := thresh - (s.od 0x5000 9 : Int)
      (k.level = 0 → p - 10 ≤ temp → temp < p → ∃ t, exec (.thermalReport n temp thresh) s = .next t ∧ only t ∧
        (t.stack n).level = 1 ∧ (t.stack n).inServ = k.inServ ∧ (t.stack n).temp = temp ∧ Reported 0x0504 3 (32 * n) s t) ∧
      (k.level ≤ 1 → p ≤ temp → temp < p + 5 → ∃ t, exec (.thermalReport n temp thresh) s = .next t ∧ only t ∧
        (t.stack n).level = 2 ∧ (t.stack n).inServ = k.inServ ∧ Reported 0x1509 3 (32 * n) s t ∧ (t.od 0x5000 1).testBit 4 = true) ∧
      (k.level ≤ 2 → p + 5 ≤ temp → 9 ≤ k.hot → ∃ t, exec (.thermalReport n temp thresh) s = .next t ∧ only t ∧
        (t.stack n).level = 3 ∧ (t.stack n).inServ = false ∧ (t.stack n).refresh = true ∧ Reported 0x150A 3 (32 * n) s t) ∧
      (k.level = 2 → temp ≤ p - 3 → p - 10 ≤ temp → (∃ t, exec (.thermalReport n temp thresh) s = .next t ∧ only t ∧ t.faults = s.faults ∧
        (k.cool < 99 → (t.stack n).level = 2 ∧ (t.stack n).cool = k.cool + 1) ∧
        (99 ≤ k.cool → (t.stack n).level = 1 ∧ (t.stack n).cool = 0)))) ∧
    (k.inServ = false → k.lost = false → k.test = false → ∃ t, exec (.stackHoldExpiry n) s = .next t ∧ only t ∧
      t.stack n = { k with lost := true } ∧ Reported 0x150B 3 (32 * n) s t ∧ t.faults.replace = true) ∧
    ∀ (path : Path) (tid value fails : Nat), s.lets path 2 → bits value 11 8 = n → bits value 1 0 ≠ 0 →
      ∃ t, exec (.loopback path tid value fails) s = .next t ∧ Answered path 0x82 tid 0x5000 0x0B [] s t ∧
        t.stack n = { k with test := true, loop := fails % 2 ^ 32 } ∧ (∀ m, m ≠ n → t.stack m = s.stack m) ∧
        (bits value 1 0 ≠ 3 → t.mem = s.mem ∧ ∀ b, t.peek b 1 = s.peek b 1) ∧
        (bits value 1 0 = 3 → ∀ b, s.channel b / 32 ≠ n → t.peek b 1 = s.peek b 1)

/-- Stack attention (R282 to R296, R300, R301). -/
def Obligations.StackAttention : Prop :=
  (∀ (s : State) (c : Nat) (rd rs1 : Reg), s.ctlGo c 4 [rd, rs1, rs1 + 1, rs1 + 2, rs1 + 3] →
    let k := s.core c
    let d := k.reg (rs1 + 3) ++ k.reg (rs1 + 2) ++ k.reg (rs1 + 1) ++ k.reg rs1
    let a := aActr d
    let fields := aMode d = 3 ∨ aDsel d = 3 ∨ (aFmt d ≠ 0 ∧ aFmt d ≠ 1 ∧ aFmt d ≠ 6) ∨ fld d 239 132 ≠ 0 ∨ fld d 127 125 ≠ 0 ∨
      fld d 63 51 ≠ 0 ∨ (aMode d ≠ 1 ∧ aKsel d ≠ 1)
    let align := aQaddr d % 8 ≠ 0 ∨ aLaddr d % 8 ≠ 0 ∨ aRaddr d % 16 ≠ 0
    let range := 0x1C000 < aQaddr d + 2 * aDim d * aNq d ∨ 0x1C000 < aLaddr d + 8 * aNb d ∨ 0x1C000 < aRaddr d + aBytes d
    let faults := fun (code : Nat) => ∃ t, exec (.asend c rd rs1) s = .next t ∧ KernelFault c code s t
    (rs1.toNat % 4 ≠ 0 ∨ fields → faults 0x2101) ∧ (rs1.toNat % 4 = 0 → ¬ fields → align → faults 0x2102) ∧
    (rs1.toNat % 4 = 0 → ¬ fields → ¬ align → range → faults 0x2103) ∧
    (rs1.toNat % 4 = 0 → ¬ fields → ¬ align → ¬ range →
      (cnt k.issued a = 0xFFFFFFFF → faults 0x2147) ∧
      (cnt k.issued a ≠ 0xFFFFFFFF → 16 ≤ (k.items.filter (·.kind == .asend)).length → ∃ t, exec (.asend c rd rs1) s = .next t ∧
        OnlyCore c s t ∧ GoesTo c k.pc s t ∧ (t.core c).items = k.items) ∧
      (cnt k.issued a ≠ 0xFFFFFFFF → (k.items.filter (·.kind == .asend)).length < 16 → ∃ t, exec (.asend c rd rs1) s = .next t ∧
        (∀ e, e ≠ c → t.core e = s.core e) ∧ (t.core c).reg rd = (if rd = 0 then 0 else BitVec.ofNat 64 (cnt k.issued a + 1)) ∧
        (∀ r, r ≠ rd → (t.core c).reg r = k.reg r) ∧ cnt (t.core c).issued a = cnt k.issued a + 1 ∧ (t.core c).pc = k.pc + 4 ∧
        (t.core c).items = k.items ++ [{ ctr := a, id := s.nextTag, left := 1, complete := false, kind := .asend, chan := 0
                                         no := cnt k.issued a + 1, olds := k.others 16 k.knows }] ∧
        t = { s with
          cores := t.cores, nextTag := s.nextTag + 1, freeCtr := t.freeCtr, sec := { s.sec with single := t.sec.single }
          sau := s.sau ++ [{ SauReq.reset with
            tag := s.nextTag, core := c, ctx := k.ctx, desc := d, item := s.nextTag, born := s.od 0x6000 2 }] }))) ∧
  (∀ (s : State) (c : Nat) (rd : Reg), s.ctlGo c 4 [rd] → ∃ t, exec (.astat c rd) s = .next t ∧
    RegStep c rd (BitVec.ofNat 64 ((s.core c).items.filter (·.kind == .asend)).length) ((s.core c).pc + 4) s t) ∧
  (∀ (s : State) (tag : Nat) (r : SauReq), s.sau? tag = some r → r.queued = false → r.lost = false →
    (s.sau.filter fun q => q.queued && aStack q.desc == aStack r.desc).length < 64 → s.trellis.lost.contains (aStack r.desc / 2) = false →
    let k := s.core r.core
    let d := r.desc
    let os := ((k.items.find? (·.id == r.item)).map (·.olds)).getD []
    k.worst [(aLaddr d, 8 * aNb d), (aQaddr d, 2 * aDim d * aNq d)] = 0 →
    ∃ t q, exec (.sauRequest tag) s = .next t ∧
      t = { s with cores := t.cores, freeCtr := t.freeCtr, sau := (s.sau.filter fun x => x.tag != tag) ++ [q] } ∧
      (∀ c, c ≠ r.core → t.core c = s.core c) ∧ t.core r.core = { k with rdraw := (t.core r.core).rdraw } ∧
      q = { r with queued := true, ents := q.ents, qs := q.qs, begun := aMode d == 0, sel := q.sel } ∧
      (q.sel = if aMode d = 0 then List.range (aNb d) else []) ∧ q.ents.length = aNb d ∧ q.qs.length = aNq d ∧
      (∀ j i, j < aNb d → i < 8 → k.mayFind os (aLaddr d + 8 * j + i) ((leBytes (q.ents.getD j 0).toNat 8).getD i 0)) ∧
      (s.settled r.core → ∀ j, j < aNb d → leBytes (q.ents.getD j 0).toNat 8 = k.peek (aLaddr d + 8 * j) 8) ∧
      ∀ n i, n < aNq d → i < aDim d →
        let a := aQaddr d + 2 * aDim d * n + 2 * i
        let b := leBytes ((q.qs.getD n []).getD i 0).toNat 2
        (∀ j, j < 2 → k.mayFind os (a + j) (b.getD j 0)) ∧ (s.settled r.core → b = k.peek a 2)) ∧
  (∀ (s : State) (tag : Nat) (r : SauReq), s.sau? tag = some r → r.queued = true → r.begun = false → r.done = [] → r.recs = [] →
    r.ents.length = aNb r.desc → s.stackUp (aStack r.desc) = true → s.hbm.ecc = [] → s.hbm.poison = [] →
    let d := r.desc
    let ent := fun j => r.ents.getD j 0
    let st := fun j => s.entryStatus d (ent j)
    ∃ (t : State) (q : SauReq) (bound : Nat → BitVec 32), exec (.sauBoundsDone tag) s = .next t ∧ t = { s with sau := t.sau, dict := t.dict, freeCtr := t.freeCtr } ∧
      t.sau? tag = some q ∧ q.begun = true ∧
      (∀ j, j < aNb d → (st j ≠ 0 → bound j = 0xFF800000) ∧
        (st j = 0 → s.hbm.olds = [] → bound j = s.bound d (s.hbm.bbase + eFrame (ent j) * 2 ^ 16) r.qs)) ∧
      (aMode d = 2 → ∀ j, j < aNb d → j ∈ q.done ∧
        find? q.recs j = some (leBytes (bound j).toNat 4 ++ leBytes (eBidx (ent j)) 2 ++ leBytes (st j) 1 ++ [0])) ∧
      (aMode d ≠ 2 →
        (∀ j ∈ q.sel, j < aNb d ∧ st j = 0) ∧ (∀ j, j < aNb d → st j = 0 → ePin (ent j) = true → j ∈ q.sel) ∧
        (q.sel.filter fun j => !ePin (ent j)).length ≤ aKsel d ∧
        (∀ i j, i ∈ q.sel → ePin (ent i) = false → j < aNb d → st j = 0 → j ∉ q.sel →
          selBefore (i, eBidx (ent i), bound i) (j, eBidx (ent j), bound j) = true) ∧
        ∀ j, j < aNb d → (j ∈ q.done ↔ j ∉ q.sel))) ∧
  (∀ (s : State) (tag j : Nat) (r : SauReq), s.sau? tag = some r → r.begun = true → r.sel.contains j = true → r.done.contains j = false →
    s.quadTurn r j = true → s.stackUp (aStack r.desc) = true → s.hbm.ecc = [] → s.hbm.poison = [] →
    let d := r.desc
    let e := r.ents.getD j 0
    let base := s.hbm.bbase + eFrame e * 2 ^ 16
    ∃ t q, exec (.sauBarrelFinish tag j) s = .next t ∧ t = { s with sau := t.sau, dict := t.dict, freeCtr := t.freeCtr } ∧ t.sau? tag = some q ∧
      q.done = r.done ++ [j] ∧ (∀ i, i ≠ j → find? q.recs i = find? r.recs i) ∧
      (s.entryStatus d e = 0 → q.bad = r.bad ∧ find? q.recs j = some (r.qs.flatMap fun x =>
        partialRec d (eBidx e) x (s.barrelVecs d base 0 0xF000 (eNtok e)) (s.barrelVecs d base 0x7800 0xF400 (eNtok e)))) ∧
      (s.entryStatus d e ≠ 0 → find? q.recs j =
        some (List.replicate (aNq d) (emptyRec d (eBidx e) (s.entryStatus d e))).flatten)) ∧
  ∀ (s : State) (tag : Nat) (r : SauReq), s.sau? tag = some r → r.begun = true → r.lost = false → aNb r.desc ≤ r.done.length → r.core < 80000 →
    (s.core r.core).items.any (·.id == r.item) = true →
    let d := r.desc
    let n := if aMode d = 2 then 8 else aNq d * (16 + 4 * aDim d)
    (r.recs.map (·.1)).Nodup → (∀ x ∈ r.recs, x.1 < aNb d ∧ x.2.length = n) →
    ∃ t, exec (.sauResponseArrival tag) s = .next t ∧ t.sau = s.sau.filter (fun q => q.tag != tag) ∧ t.mem = s.mem ∧
      (∀ c, c ≠ r.core → t.core c = s.core c) ∧
      (s.settled r.core → ∀ x ∈ r.recs, (t.core r.core).peek (aRaddr d + n * x.1) n = x.2) ∧
      (∀ x ∈ r.recs, ∀ i, i < n → Mem.read (t.core r.core).ldst (aRaddr d + n * x.1 + i) = x.2.getD i 0 ∨
        ((∃ y ∈ (s.core r.core).items, y.id = r.item ∧ ∃ o ∈ y.olds, o.1 = aRaddr d + n * x.1 + i) ∧
          Mem.read (t.core r.core).ldst (aRaddr d + n * x.1 + i) = Mem.read (s.core r.core).ldst (aRaddr d + n * x.1 + i))) ∧
      BytesOutside r.core [aRaddr d] (n * aNb d) s t ∧
      (r.bad = none → t.faults = s.faults) ∧
      (∀ j st, r.bad = some (j, st) → (s.core r.core).run = true → (s.core r.core).stopping = false →
        (t.core r.core).ksFault = 0x2541 ∧ t.seq.sauBad = s.seq.sauBad ++ [(r.core, aTag d % 4096, st)])

/-- Sequence commands that change an entry (R305 to R310, R322, R334). -/
def Obligations.SequencesEnterAndChange : Prop :=
  (∀ (s : State) (q : Nat) (c : BitVec 512), HasCommand s q 0x01 c → (s.queue q).posted = false →
    let n := subN c
    (s.host.plan = none → ∃ t, exec (.submit q) s = .next t ∧ Completes q c 0x0104 0 s t ∧ t.seq.table = s.seq.table) ∧
    (∀ p, s.host.plan = some p →
      (n = 0 ∨ subFval c = 2 ^ 64 - 1 ∨ isComp (subAddr c) = false → ∃ t, exec (.submit q) s = .next t ∧ Completes q c 0x0105 0 s t ∧
        t.seq.table = s.seq.table) ∧
      (n ≠ 0 → subFval c ≠ 2 ^ 64 - 1 → isComp (subAddr c) = true → s.inBound (s.queueCtx q) (subAddr c) (4 * n) = true →
        (find? s.host.queues (subQueue c)).isSome = true → s.queueCtx (subQueue c) = s.queueCtx q →
        (s.holdsFence (s.queueCtx q) (subFence c) = false → ∃ t, exec (.submit q) s = .next t ∧ Completes q c 0x0203 0 s t) ∧
        (s.holdsFence (s.queueCtx q) (subFence c) = true →
          (subMaxpos c ≤ n ∨ p.dirRows * p.tpb - 64 < subMaxpos c → ∃ t, exec (.submit q) s = .next t ∧ Completes q c 0x0103 0 s t) ∧
          (n < subMaxpos c → subMaxpos c ≤ p.dirRows * p.tpb - 64 → subRacked c = false → ∃ t, exec (.submit q) s = .next t ∧
            t = { s with host := { s.host with queues := t.host.queues } } ∧ t.queue q = { s.queue q with posted := true } ∧
            ∀ r, r ≠ q → t.queue r = s.queue r))))) ∧
  (∀ (s : State) (q : Nat) (c : BitVec 512) (p : Plan), HasCommand s q 0x01 c → (s.queue q).posted = true → s.host.plan = some p →
    s.frozenCtx (s.queueCtx q) = false → subRacked c = false →
    (s.slotFor c = none ∨ s.admits (s.ctx (s.queueCtx q)).part = false ∨ s.visitsNext q = false → exec (.admission q) s = .next s) ∧
    (∀ n, s.slotFor c = some n → s.admits (s.ctx (s.queueCtx q)).part = true → s.visitsNext q = true → n < 4096 ∧ (s.entry n).st = .free ∧
      ∃ t, exec (.admission q) s = .next t ∧ Completes q c 0 ((s.entry n).gen.toNat * 2 ^ 12 + n) s t ∧ SlotsKept n s t ∧
        t.entry n = { Entry.reset with
          seed := (t.entry n).seed, fval := BitVec.ofNat 64 (subFval c), addr := BitVec.ofNat 48 (subAddr c)
          buddy := BitVec.ofNat 16 (subBuddy c), maxpos := BitVec.ofNat 32 (subMaxpos c), pfill := BitVec.ofNat 32 (subN c)
          fence := BitVec.ofNat 16 (subFence c), queue := BitVec.ofNat 12 (subQueue c), ctx := BitVec.ofNat 10 (s.queueCtx q)
          part := BitVec.ofNat 6 (s.ctx (s.queueCtx q)).part, prio := BitVec.ofNat 2 (subPrio c), gen := (s.entry n).gen
          st := .prefill, cmdid := BitVec.ofNat 32 (cmdidOf c) } ∧
        (subSeed c ≠ 0 → (t.entry n).seed = BitVec.ofNat 64 (subSeed c)))) ∧
  (∀ (s : State) (q : Nat) (c : BitVec 512), NamesSeq s q 0x02 c → let n := hSlot c
    let e := s.entry n
    let k := bits (cw c 3) 31 0
    let a := bits (cw c 2) 47 0
    (e.st ≠ .decode → e.st ≠ .parked → ∃ t, exec (.append q) s = .next t ∧ Completes q c 0x0102 (s.handle n) s t ∧ SlotsKept n s t) ∧
    ((e.st = .decode ∨ e.st = .parked) → s.copying n = false → isComp a = true → s.inBound e.ctx.toNat a (4 * k) = true →
      (e.maxpos.toNat ≤ k → ∃ t, exec (.append q) s = .next t ∧ Completes q c 0x0103 (s.handle n) s t ∧
        t.entry n = { e with err := 0x0103 } ∧ SlotsKept n s t) ∧
      (k < e.maxpos.toNat → ∃ t, exec (.append q) s = .next t ∧ Completes q c 0 (s.handle n) s t ∧ SlotsKept n s t ∧
        t.entry n = { e with
          addr := BitVec.ofNat 48 a, pfill := BitVec.ofNat 32 (k + 1), feed := true
          st := if e.st = .decode then .prefill else e.st }))) ∧
  (∀ (s : State) (q : Nat) (c : BitVec 512) (d : List Byte), NamesSeq s q 0x03 c → let n := hSlot c
    let e := s.entry n
    let k := bits (cw c 4) 6 0
    let a := winAddr (cw c 3)
    let tree := (List.range k).map fun i => BitVec.ofNat 64 (num8 d (8 * i) 8)
    (e.st ≠ .decode → ∃ t, exec (.draft q d) s = .next t ∧ Completes q c 0x0102 (s.handle n) s t ∧ SlotsKept n s t) ∧
    (e.st = .decode → 1 ≤ k → k ≤ 64 → s.inBound e.ctx.toNat a (8 * k) = true → isComp a = true →
      ((∀ i, 1 ≤ i → i < k → nodeParent (tree.getD i 0) < i) → ∃ t, exec (.draft q d) s = .next t ∧ Completes q c 0 (s.handle n) s t ∧
        SlotsKept n s t ∧ t.faults = s.faults ∧ t.entry n = { e with
          tree := tree, nodes := BitVec.ofNat 7 k, treePos := BitVec.ofNat 32 (bits (cw c 2) 31 0), treeHost := true, fresh := true }) ∧
      ((∃ i, 1 ≤ i ∧ i < k ∧ i ≤ nodeParent (tree.getD i 0)) → ∃ t, exec (.draft q d) s = .next t ∧ Completes q c 0 (s.handle n) s t ∧
        SlotsKept n s t ∧ Reported 0x0601 7 n s t ∧ (t.entry n).tree = [] ∧ (t.entry n).nodes = 0))) ∧
  (∀ (s : State) (q : Nat) (c : BitVec 512), NamesSeq s q 0x04 c → let n := hSlot c
    let e := s.entry n
    ((e.st = .prefill ∨ e.st = .decode) → ∃ t, exec (.park q) s = .next t ∧ Completes q c 0 (s.handle n) s t ∧ SlotsKept n s t ∧
      t.entry n = { e with parkReq := true }) ∧
    (e.st ≠ .prefill → e.st ≠ .decode → ∃ t, exec (.park q) s = .next t ∧ Completes q c 0x0102 (s.handle n) s t ∧ SlotsKept n s t)) ∧
  ∀ (s : State) (q : Nat) (c : BitVec 512), NamesSeq s q 0x07 c → let n := hSlot c
    let e := s.entry n
    (e.st = .free → ∃ t, exec (.cancel q) s = .next t ∧ Completes q c 0x0102 (s.handle n) s t ∧ t.seq.table = s.seq.table) ∧
    (e.st ≠ .free → e.cancelReq = false →
      ((s.ctx e.ctx.toNat).kind ≠ 0 → ∃ t, exec (.cancel q) s = .next t ∧ Completes q c 0 (s.handle n) s t ∧ SlotsKept n s t ∧
        t.entry n = { e with cancelReq := true, leaveErr := 0x0112 }) ∧
      ((s.ctx e.ctx.toNat).kind = 0 → e.ctx ≠ 0 → (find? s.host.ctxs e.ctx.toNat).isSome = true →
        (∀ x ∈ s.seq.table, x.1 ≠ n → x.2.st = .free ∨ x.2.ctx ≠ e.ctx ∨ x.2.cancelReq = true) → (s.seq.table.map (·.1)).Nodup →
        ∃ t, exec (.cancel q) s = .next t ∧ e.ctx.toNat ∈ t.seq.torn ∧ SlotsKept n s t ∧
          t.entry n = { e with cancelReq := true, leaveErr := 0x0112 }))

/-- Sequences that move, and the replica (R304, R307, R313, R314, R337, R374, R379, R380). -/
def Obligations.SequencesMove : Prop :=
  (∀ (s : State) (q : Nat) (c : BitVec 512) (p : Plan), NamesSeq s q 0x05 c → s.host.plan = some p → let n := hSlot c
    let e := s.entry n
    let a := winAddr (cw c 2)
    e.st = .parked → e.pfill = 0 → s.copying n = false →
    (a % 65536 ≠ 0 → ∃ t, exec (.spill q) s = .next t ∧ Completes q c 0x0105 (s.handle n) s t) ∧
    (a % 65536 = 0 → isComp a = true → s.inBound e.ctx.toNat a (p.spillSize e.rows.toNat) = true → ∃ t, exec (.spill q) s = .next t ∧
      Deferred q n c s t ∧ t.seq.spills = s.seq.spills ++ [(n, a)] ∧ t.seq.table = s.seq.table ∧ t.mem = s.mem)) ∧
  (∀ (s : State) (n a : Nat) (p : Plan), s.host.plan = some p → (s.seq.spills.find? fun x => x.1 == n) = some (n, a) → s.waitsMove n = false →
    (∀ l y, s.cellar.line? l = some y → y.dir ≠ .dO) →
    let rows := (s.entry n).rows.toNat
    ∃ t, exec (.spillDone n) s = .next t ∧ t.framesOf n = [] ∧ (∀ x ∈ t.seq.spills, x.1 ≠ n) ∧ SlotsKept n s t ∧
      t.entry n = { s.entry n with st := .spilled, addr := BitVec.ofNat 48 a } ∧
      ∀ i, i < rows * p.bps → ∀ f, (s.barrelsOf p n rows)[i]? = some f →
        (a - 2 ^ 40 + p.spillDir rows + 65536 * i, (s.getBytes (s.hbm.bbase + f * 2 ^ 16) 65536).1) ∈ t.host.compWr) ∧
  (∀ (s : State) (q : Nat) (c : BitVec 512), NamesSeq s q 0x06 c → let n := hSlot c
    let e := s.entry n
    s.copying n = false →
    (e.st = .parked → ∃ t, exec (.resume q) s = .next t ∧ Completes q c 0 (s.handle n) s t ∧ SlotsKept n s t ∧
      t.entry n = { e with st := if e.pfill = 0 then .decode else .prefill }) ∧
    (e.st = .spilled → (s.allocRows n e.rows.toNat = none → exec (.resume q) s = .next s) ∧
      ∀ u, s.allocRows n e.rows.toNat = some u → ∃ t, exec (.resume q) s = .next t ∧ t.seq.frames = u.seq.frames ∧ t.mem = u.mem ∧
        (t.queue q).cmd = none ∧ t.seq.resumes = s.seq.resumes ++ [(n, e.addr.toNat)]) ∧
    (e.st ≠ .parked → e.st ≠ .spilled → ∃ t, exec (.resume q) s = .next t ∧ Completes q c 0x0102 (s.handle n) s t ∧ SlotsKept n s t)) ∧
  (∀ (s : State) (n : Nat) (x : Nat × Nat) (d : List Byte) (p : Plan), s.host.plan = some p → (s.seq.resumes.find? fun x => x.1 == n) = some x →
    s.waitsMove n = false → ∃ t, exec (.resumeDone n d) s = .next t ∧ SlotsKept n s t ∧ (∀ y ∈ t.seq.resumes, y.1 ≠ n) ∧
      t.seq.frames = s.seq.frames ∧ t.entry n = { s.entry n with st := if (s.entry n).pfill = 0 then .decode else .prefill }) ∧
  (∀ (s : State) (q : Nat) (c : BitVec 512) (p : Plan), NamesSeq s q 0x08 c → s.host.plan = some p → let n := hSlot c
    let e := s.entry n
    let m := bits (cw c 2) 15 0
    (e.st = .prefill ∨ e.st = .decode ∨ e.st = .parked) → s.copying n = false → (∀ x ∈ s.seq.exports, x.1 ≠ n) →
    (m = s.modId ∨ s.routePort m = none → ∃ t, exec (.exportSeq q) s = .next t ∧ Completes q c 0x0106 (s.handle n) s t) ∧
    (m ≠ s.modId → (s.routePort m).isSome = true → ∃ t, exec (.exportSeq q) s = .next t ∧ Deferred q n c s t ∧
      t.seq.exports = s.seq.exports ++ [(n, m, q)] ∧ (n, m, 3) ∈ t.span.opens ∧ t.seq.table = s.seq.table ∧
      (s.txTo m).unacked.length + (s.txTo m).waiting.length + 1 = (t.txTo m).unacked.length + (t.txTo m).waiting.length)) ∧
  (∀ (s : State) (q : Nat) (c : BitVec 512), HasCommand s q 0x09 c → s.importRefusal q c = none → let n := hSlot c
    let buddy := bits (cw c 1) 63 48
    ∃ t, exec (.importSeq q) s = .next t ∧ Deferred q n c s t ∧ SlotsKept n s t ∧ (n, buddy, bits (cw c 1) 47 32) ∈ t.span.imports ∧
      (t.entry n).st = .importing ∧ (t.entry n).gen = BitVec.ofNat 16 (hGen c) ∧ (t.entry n).buddy = BitVec.ofNat 16 buddy ∧
      (t.entry n).ctx = BitVec.ofNat 10 (bits (cw c 5) 9 0) ∧ (t.entry n).fval = BitVec.ofNat 64 (cw c 3) ∧
      (s.txTo buddy).unacked.length + (s.txTo buddy).waiting.length + 1 = (t.txTo buddy).unacked.length + (t.txTo buddy).waiting.length) ∧
  (∀ (s : State) (n row k f g : Nat) (p : Plan), s.host.plan = some p → ((s.framesOf n).find? fun x => x.2.2 == (row, k)) = some (f, n, row, k) →
    (s.stepping = true → exec (.barrelMove n row k) s = .next s) ∧
    (s.stepping = false → s.moveDue n f = true → (s.entry n).st ≠ .importing → (s.readFrame f).2 = (false, false) → s.frameFor p.bps n row k = some g →
    ∃ t, exec (.barrelMove n row k) s = .next t ∧ find? t.seq.frames g = some (n, row, k) ∧ find? t.seq.frames f = none ∧
      (∀ h, h ≠ f → h ≠ g → find? t.seq.frames h = find? s.seq.frames h) ∧ t.seq.table = s.seq.table)) ∧
  ∀ s : State,
    (2 ≤ s.seq.instances → ∃ t, exec .seqTakeover s = .next t ∧ t.seq.instances = 1 ∧ t.seq.onX1 = !s.seq.onX1 ∧ Reported 0x1602 0 0 s t ∧
      (s.stepping = true → s.seq.retrying = 0 → t.seq.phase = .committing ∧ t.seq.retrying = 1 ∧ t.seq.commits = []) ∧
      (s.stepping = false → t.seq.phase = s.seq.phase)) ∧
    (s.seq.instances = 1 → s.faults.safe = false → ∃ t, exec .seqTakeover s = .next t ∧ t.faults.safe = true ∧ t.seq.instances = 0 ∧
      t.power.arith = false)

/-- The life of a step (R103, R304, R315 to R319, R324 to R328, R334). -/
def Obligations.TheStep : Prop :=
  (∀ (s : State) (p : Plan) (n : Nat) (e : Entry), s.host.plan = some p → s.seq.nxt = none → s.mayGather = true → s.seq.cur = none →
    s.seq.table = [(n, e)] → e.st = .decode → e.nodes = 0 → s.canRun n = true → e.parkReq = false → 5 ≤ (s.queue e.queue.toNat).free →
    1 ≤ s.stepTokens p → (s.allocRows n (p.rowsFor (e.pos.toNat + 1))).isSome = true → ∃ t r, exec .gather s = .next t ∧
      t.seq.nxt = some r ∧ r.num = s.seq.step + 1 ∧ r.ready = false ∧ r.grants = [{ Grant.reset with
        slot := n, gen := e.gen.toNat, n := 1, kind := 0, pos := e.pos.toNat, ctx := e.ctx.toNat, part := e.part.toNat }] ∧
      (t.queue e.queue.toNat).resv = (s.queue e.queue.toNat).resv + 5) ∧
  (∀ (s : State) (r : StepRun), (s.seq.phase = .idle ∧ s.seq.nxt = some r ∧ r.ready = true ∨ s.seq.phase = .again ∧ s.seq.cur = some r) →
    (s.mayBroadcast = false ∨ (∃ g ∈ r.grants, s.waitsMove g.slot = true) → exec .broadcast s = .next s) ∧
    (s.mayBroadcast = true → (∀ g ∈ r.grants, s.waitsMove g.slot = false) → r.wl ≠ [] → ∃ t b, exec .broadcast s = .next t ∧
      t.seq.phase = .running ∧ t.seq.cur = some { r with began := b, started := [], ended := 0 } ∧ t.seq.commits = [] ∧ t.seq.results = [] ∧
      t.seq.nxt = (if s.seq.phase = .idle then none else s.seq.nxt) ∧ t.seq.table = s.seq.table ∧ t.mem = s.mem ∧ t.cores = s.cores)) ∧
  (∀ (s : State) (c : Nat) (r : StepRun) (e : WlEntry), c < 80000 → s.seq.cur = some r → r.nextEntry c = some e → s.seq.phase = .running →
    (s.core c).run = false → (s.core c).unposted = false → s.faults.safe = false → s.power.arith = true → s.seq.torn.contains e.ctx = false →
    ∃ t, exec (.kernelStart c) s = .next t ∧ t.seq.cur = some { r with started := t.seq.cur.elim [] (·.started) } ∧
      cnt (t.seq.cur.elim [] (·.started)) c = cnt r.started c + 1 ∧ (∀ d, d ≠ c → t.core d = s.core d) ∧ t.mem = s.mem ∧
      (let k := t.core c
       (∀ x : Reg, k.reg x = if 1 ≤ x.toNat ∧ x.toNat ≤ 8 then e.args.getD (x.toNat - 1) 0 else 0) ∧ k.pc = e.entry.setWidth 64 ∧
       k.run = true ∧ k.wait = .none ∧ k.ctx = e.ctx ∧ k.part = e.part ∧ k.draft = e.draft ∧ k.gclass = 2 ∧ k.cycle = 0 ∧
       k.kid = BitVec.ofNat 64 (e.kid.toNat + 2 ^ 32 * (r.num % 2 ^ 32)) ∧ k.ksFault = 0 ∧ k.ksDone = false ∧ k.press = Press.reset ∧
       k.items = [] ∧ k.groups = [] ∧ k.rcache = [] ∧ k.watchdog = (if e.watchdog = 0 then 2000 else e.watchdog) ∧
       k.ldst = if (s.core c).prevCtx = some e.ctx then (s.core c).ldst else [])) ∧
  (∀ (s : State) (c : Nat) (r : StepRun), c < 80000 → (s.core c).unposted = true → (∀ q ∈ s.reqs, q.agent.core? ≠ some c) →
    s.seq.phase = .running → s.seq.cur = some r → (s.core c).run = false →
    ((s.core c).ksFault = 0 →
      (r.ended + 1 < kernelsOf r.wl → ∃ t, exec (.completionRecord c) s = .next t ∧ t.core c = { s.core c with unposted := false } ∧
        t.seq = { s.seq with cur := some { r with ended := r.ended + 1 } } ∧ t.mem = s.mem) ∧
      (kernelsOf r.wl ≤ r.ended + 1 → (∀ l y, s.cellar.line? l = some y → y.dir ≠ .dO) → ∀ p rs, s.host.plan = some p → s.allResults p { r with ended := r.ended + 1 } = some rs →
        ∃ t, exec (.completionRecord c) s = .next t ∧ t.seq.phase = .committing ∧ t.seq.results = rs ∧
          t.seq.commits = rs.map (fun x => (x.slot, (s.entry x.slot).pos.toNat, x.accept)) ∧ t.cellar.kept = [] ∧ t.cellar.reported = [])) ∧
    ((s.core c).ksFault ≠ 0 → (s.ctx (s.core c).ctx).kind ≠ 1 → (s.core c).ctx ≠ 0 → (find? s.host.ctxs (s.core c).ctx).isSome = true →
      r.ended + 1 < kernelsOf r.wl → ∃ t, exec (.completionRecord c) s = .next t ∧ (s.core c).ctx ∈ t.seq.torn ∧
        (t.core c).unposted = false ∧ t.seq.cur = some { r with ended := r.ended + 1 })) ∧
  (∀ s : State, s.seq.phase = .committing →
    (∀ p, p < 512 → s.cellar.dead.contains p = false → s.cellar.reported.contains p = false → exec .commitComplete s = .next s) ∧
    ((∀ p, p < 512 → s.cellar.dead.contains p = true ∨ s.cellar.reported.contains p = true) → s.seq.retrying = 0 →
      exec .commitComplete s = .next { s with seq := { s.seq with phase := .committed } })) ∧
  (∀ (s : State) (r : StepRun) (n : Nat) (e : Entry) (g : Grant) (x : ResRec) (toks : List (Nat × List Byte)), QuietBoundary s →
    s.seq.phase = .committed → s.seq.cur = some r → r.grants = [g] → s.seq.results = [x] → s.seq.table = [(n, e)] → g.slot = n → x.slot = n →
    s.liveGrant g = true → e.racked = false → e.parkReq = false → e.skip = 0 → g.kind ≠ 1 → x.reads = true → x.toks.length ≤ 10 →
    (find? s.host.queues e.queue.toNat).isSome = true → n < 4096 →
    let pos := (e.pos.toNat + x.accept) % 2 ^ 32
    let record := fun (t : State) (status : Nat) => ∃ b, (e.queue.toNat, b) ∈ t.host.posted ∧ num8 b 4 2 = status ∧
      num8 b 8 4 = s.handle n ∧ num8 b 12 4 = pos ∧ num8 b 16 1 = x.toks.length
    ∃ t, exec (.commitPoint toks) s = .next t ∧ t.seq.cur = none ∧ t.seq.phase = .idle ∧ t.seq.step = r.num ∧ t.seq.results = [] ∧
      (x.fin = false → pos < e.maxpos.toNat → record t 0 ∧ (t.entry n).pos.toNat = pos ∧ (t.entry n).lasttok = x.next ∧
        (t.entry n).st = e.st ∧ (t.entry n).gen = e.gen ∧ (e.steps ≠ BitVec.allOnes 32 → (t.entry n).steps = e.steps + 1)) ∧
      (x.fin = true → record t 0x0110 ∧ (t.entry n).st = .free ∧ (t.entry n).gen = e.gen + 1) ∧
      (x.fin = false → e.maxpos.toNat ≤ pos → record t 0x0111 ∧ (t.entry n).st = .free ∧ (t.entry n).gen = e.gen + 1)) ∧
  ∀ (s : State) (n : Nat) (e : Entry) (toks : List (Nat × List Byte)), QuietBoundary s → s.seq.phase = .idle → s.seq.table = [(n, e)] →
    e.cancelReq = false → (e.st = .prefill ∨ e.st = .decode) → e.parkReq = true → ∃ t, exec (.commitPoint toks) s = .next t ∧
      t.entry n = { e with parkReq := false, st := .parked } ∧ t.seq.step = s.seq.step ∧ t.mem = s.mem

/-- Span ports (R344 to R349, R351 to R354, R383). -/
def Obligations.PortsAndTheirFrames : Prop :=
  (∀ (s : State) (p : Nat) (f : SpanFrame), ((s.emit p f).sport p).nextOut = none) ∧
  (∀ (s : State) (p : Nat), p < 4 → s.portUp p = false → exec (.spanCrcFail p) s = .next s ∧ exec (.linkIdleTimer p) s = .next s ∧
    exec (.portSilence p) s = .next s) ∧
  (∀ (s : State) (p : Nat), p < 4 → s.portUp p = true →
    let returns := fun (f : SpanFrame) => f.payload.length = 16 ∧
      ∀ i, i < 3 → num8 f.payload (8 + 2 * i) 2 = min 65535 (get (s.sport p).owed (i + 2) 0)
    (∃ t f, exec (.spanCrcFail p) s = .next t ∧ SendsFrame p f s t ∧ f.typ = 1 ∧ num8 f.payload 0 4 = (s.sport p).rx % 2 ^ 32 ∧
      num8 f.payload 4 1 = 1 ∧ returns f ∧ t = { s with span := t.span, dict := t.dict }) ∧
    (∃ t f, exec (.linkIdleTimer p) s = .next t ∧ SendsFrame p f s t ∧ f.typ = 1 ∧ num8 f.payload 0 4 = (s.sport p).rx % 2 ^ 32 ∧
      num8 f.payload 4 1 = 0 ∧ returns f ∧ t = { s with span := t.span, dict := t.dict }) ∧
    (∃ t, exec (.portSilence p) s = .next t ∧ t.portUp p = false ∧ (t.sport p).buf = [] ∧ (t.od 0x6100 1).testBit 1 = true ∧
      ReportedAmong 0x1684 5 p s t) ∧
    (∀ g, g < 4 → g ∉ (s.sport p).retired → ∃ t, exec (.laneLockLoss p g) s = .next t ∧ g ∈ (t.sport p).retired ∧
      (t.od 0x6100 1).testBit 0 = true ∧ ReportedAmong 0x1683 5 (4 * g + p) s t ∧
      ((s.sport p).retired.length ≤ 1 → ∃ f, SendsFrame p f s t ∧ f.typ = 1 ∧ num8 f.payload 4 1 = 2 + 8 * g ∧ t.portUp p = true) ∧
      (2 ≤ (s.sport p).retired.length → t.portUp p = false ∧ ReportedAmong 0x1684 5 p s t)) ∧
    (∀ g sym unc, g < 4 → g ∉ (s.sport p).retired → ∃ t, exec (.fecWindow p g sym unc) s = .next t ∧ SpanCounts 5 sym s t ∧
      SpanCounts 6 unc s t ∧ (sym ≤ 200 → unc ≤ 10 → t = { s with dict := t.dict }) ∧
      (200 < sym ∨ 10 < unc → g ∈ (t.sport p).retired ∧ ReportedAmong 0x1683 5 (4 * g + p) s t))) ∧
  (∀ (s : State) (f : SpanFrame), Arrives s f 1 →
    let p := f.port
    let x := s.sport p
    let n := (num8 f.payload 0 4 + 2 ^ 32 - x.base) % 2 ^ 32
    let flags := num8 f.payload 4 1
    n ≤ x.buf.length → bit flags 1 = false → ∃ t l, exec (.linkFrame f) s = .next t ∧ Took f s t ∧ (t.sport p).buf = x.buf.drop n ++ l ∧
      (t.sport p).base = (x.base + n) % 2 ^ 32 ∧ (∀ q, q ≠ p → t.sport q = s.sport q) ∧
      (∀ g ∈ l, g ∈ x.queue) ∧ (t.sport p).queue.length + l.length = x.queue.length ∧ (t.sport p).nextOut = none ∧
      (∀ c, 2 ≤ c → c ≤ 4 → get (t.sport p).credits c 0 + sumN ((l.filter fun g => spanClass g.typ == c).map frameUnits) =
        get x.credits c 0 + num8 f.payload (8 + 2 * (c - 2)) 2) ∧
      (bit flags 0 = false → t.span.out = s.span.out ++ l.map (fun g => (p, g)) ∧ t.faults = s.faults) ∧
      (bit flags 0 = true → t.span.out = s.span.out ++ (x.buf.drop n ++ l).map (fun g => (p, g)) ∧ Reported 0x0681 5 p s t ∧
        SpanCounts 3 (x.buf.length - n) s t)) ∧
  (∀ (s : State) (f : SpanFrame), f.port < 4 → f.typ = 0 → (s.sport f.port).enabled = false → exec (.helloFrame f) s = .next s) ∧
  (∀ (s : State) (f : SpanFrame), f.port < 4 → f.typ = 0 → (s.sport f.port).enabled = true → s.expected f.port = true →
    let p := f.port
    let x := s.sport p
    let id := num8 f.payload 0 2
    let q := num8 f.payload 2 1 % 4
    ∃ t, exec (.helloFrame f) s = .next t ∧ (t.sport p).seen = true ∧ (t.sport p).seenId = id ∧ (t.sport p).seenPort = q ∧
      (id = s.expectId p → q = facing p → (t.sport p).ok = true ∧ t.faults = s.faults ∧ (x.up = true → t.portUp p = true) ∧
        (x.up = false → x.retired.length ≤ 2 → t.portUp p = true ∧ (t.sport p).rx = 0 ∧ (t.sport p).buf = [] ∧ (t.sport p).queue = []) ∧
        (x.up = false → 2 < x.retired.length → t.portUp p = false)) ∧
      (id ≠ s.expectId p ∨ q ≠ facing p → (t.sport p).ok = false ∧ t.portUp p = false ∧ ReportedAmong 0x1685 5 p s t ∧
        (t.od 0x6100 1).testBit 2 = true ∧ (t.od 0xA000 3).testBit 4 = true)) ∧
  (∀ (s : State) (p : Nat), p < 4 → (s.sport p).enabled = true →
    ((s.sport p).seen = false ∨ (s.helloOk p = true ∧ s.portUp p = true)) → ∃ t f, exec (.helloTimer p) s = .next t ∧
    SendsFrame p f s t ∧ f.typ = 0 ∧ num8 f.payload 0 2 = s.modId % 2 ^ 16 ∧ num8 f.payload 2 1 = p ∧
    num8 f.payload 4 4 = s.job 0 % 2 ^ 32 ∧ f.payload.length = 16 ∧ t.faults = s.faults) ∧
  (∀ (s : State) (p : Nat) (trained : Bool), p < 4 → 13 ≤ s.bring.row →
    let anew := fun (t : State) => t = { s with span := { s.span with ports := t.span.ports } } ∧ (∀ q, q ≠ p → t.sport q = s.sport q) ∧
      t.sport p = { s.sport p with
        enabled := trained && s.expected p, up := false, ok := false, seen := false, retired := [], buf := [], base := 0, rx := 0
        queue := [], owed := [] }
    ((s.sport p).enabled = false → ∃ t, exec (.portEnable p trained) s = .next t ∧ anew t) ∧
    (s.portUp p = false → ∃ t, exec (.portRetry p trained) s = .next t ∧ anew t)) ∧
  (∀ (s : State) (f : SpanFrame) (visits : Nat), f.port < 4 → s.portUp f.port = true → f.dst ≠ s.modId → 2 ≤ f.typ → f.typ ≤ 8 →
    ∃ t, exec (.frameForward f visits) s = .next t ∧ (t.sport f.port).rx = ((s.sport f.port).rx + 1) % 2 ^ 32 ∧
      t = { s with span := t.span, dict := t.dict } ∧ SpanCounts 1 1 s t ∧
      (2 * (s.nxt + s.nyt) ≤ visits → t.span.out = s.span.out ∧ SpanCounts 7 1 s t) ∧
      (visits < 2 * (s.nxt + s.nyt) →
        (∀ p, s.routePort f.dst = some p → SendsFrame p { f with port := p } s t ∧ SpanCounts 2 1 s t) ∧
        (s.routePort f.dst = none → t.span.out = s.span.out))) ∧
  (∀ (s : State) (f : SpanFrame), f.port < 4 → s.portUp f.port = true → 13 ≤ f.typ → ∃ t, exec (.reservedFrameType f) s = .next t ∧
    SpanCounts 7 1 s t ∧ SpanCounts 1 1 s t ∧ t.span.out = s.span.out ∧ t = { s with span := t.span, dict := t.dict }) ∧
  pinSignal .spanE 10 20 = some (.pair (some 3) true false 7) ∧ laneGroup 7 = 0 ∧
  ∀ (k : Connector) (row col : Nat) (x : PinSignal), pinSignal k row col = some x →
    row < 13 ∧ 1 ≤ col ∧ col ≤ (if k = .host then 12 else 32) ∧ (x = .gnd → x.mateLevel = 2) ∧ (x ≠ .gnd → x.mateLevel = 3)

/-- Streams and racks (R350, R355 to R358, R373 to R380). -/
def Obligations.StreamsAndRacks : Prop :=
  (∀ (s : State) (f : SpanFrame),
    (s.windowBad f.offset f.payload.length = true →
      let refused := fun (t : State) => (t.rxOf f.src).last = f.seq ∧ (t.rxOf f.src).refused = ((s.rxOf f.src).refused + 1) % 2 ^ 32 ∧
        (t.rxOf f.src).newRef = true ∧ SpanCounts 7 1 s t ∧ Reported 0x2689 0 f.src s t ∧ t.mem = s.mem ∧ t.cellar = s.cellar
      (NextInStream s f 2 → ∃ t, exec (.spanWrite f) s = .next t ∧ Took f s t ∧ refused t) ∧
      (NextInStream s f 3 → f.payload.length ≠ 576 → ∃ t, exec (.sealFrame f) s = .next t ∧ Took f s t ∧ refused t)) ∧
    (s.windowBad f.offset f.payload.length = false → BareLine s f.offset f.payload.length →
      let wrote := fun (t : State) => (t.rxOf f.src).last = f.seq ∧ StoredAt f.offset f.payload s t ∧ t.faults = s.faults
      (NextInStream s f 2 → ∃ t, exec (.spanWrite f) s = .next t ∧ Took f s t ∧ wrote t) ∧
      (NextInStream s f 3 → f.payload.length ≠ 576 → ∃ t, exec (.sealFrame f) s = .next t ∧ Took f s t ∧ wrote t)) ∧
    (∀ (r : Rack) (n : Nat), NextInStream s f 6 →
      (s.span.racks.find? fun r => r.owner f.src && r.rows.any fun x => x.2.2 == f.offset / 2 ^ 16) = some r →
      find? r.frames (f.offset / 2 ^ 16) = some n → BareLine s (s.span.rbase + 65536 * n + f.offset % 65536) f.payload.length →
      ∃ t, exec (.rackFrame f) s = .next t ∧ Took f s t ∧ StoredAt (s.span.rbase + 65536 * n + f.offset % 65536) f.payload s t ∧
        t.span.racks = s.span.racks)) ∧
  (∀ (s : State) (f : SpanFrame), NextInStream s f 7 →
    let k := rackKey f.payload
    let rid := rackId k.1 k.2.1 k.2.2
    let others := s.span.racks.filter fun r => !r.is k
    let older := s.span.racks.filter fun r => !r.replacedBy k
    (f.tag = 1 → k.1 ≠ s.modId → (s.span.deferred = [] ∨ older = s.span.racks) →
      let n := num8 f.payload 8 4
      let room := n ≤ s.rackTotal - sumN (older.map (·.resv)) ∧ older.length < s.span.rackSlots
      (s.span.rlen = 0 → ∃ t, exec (.rackOpen f) s = .next t ∧ Streams k.1 7 2 (rid ++ leBytes 1 8) s t ∧
        t.span.racks = s.span.racks) ∧
      (s.span.rlen ≠ 0 → s.faults.safe = false →
        (room → ∃ t, exec (.rackOpen f) s = .next t ∧ Streams k.1 7 2 (rid ++ leBytes 0 8) s t ∧ t.span.racks = older ++
          [{ Rack.reset with origin := k.1, slot := k.2.1, gen := k.2.2, resv := n }] ∧ t.span.deferred = s.span.deferred) ∧
        (¬ room → ∃ t, exec (.rackOpen f) s = .next t ∧ Streams k.1 7 2 (rid ++ leBytes 2 8) s t ∧ t.span.racks = older ∧
          t.span.deferred = s.span.deferred ++ [(k.1, k.2.1, k.2.2, n)] ∧ Reported 0x06C3 0 k.1 s t))) ∧
    (f.tag = 2 → (k.2.1, f.src) ∈ s.span.opens.map (fun x => (x.1, x.2.1)) → (s.entry k.2.1).gen.toNat = k.2.2 →
      let result := num8 f.payload 8 1
      (∀ q x c, result = 1 → s.host.queues.find? (fun x => x.2.slot == some k.2.1) = some (q, x) → s.head? q = some c →
        ∃ t, exec (.rackGrant f) s = .next t ∧ Completes q c 0x0106 0 s t ∧ ∀ x ∈ t.span.opens, x.1 ≠ k.2.1) ∧
      (result ≠ 1 → (∀ x ∈ s.seq.exports, x.1 ≠ k.2.1) → ∃ t, exec (.rackGrant f) s = .next t ∧ t.seq = s.seq ∧
        t.span.opens = s.span.opens.map fun x => if x.1 = k.2.1 then (x.1, x.2.1, result) else x)) ∧
    (∀ r : Rack, f.tag = 3 → s.span.racks = [r] → r.is k = true → r.rows = [] → f.payload.length = 24 → num8 f.payload 20 4 = 0 →
      let o := num8 f.payload 16 4
      ∃ t, exec (.rackMap f) s = .next t ∧ t.span.racks =
        [{ r with rows := [(num8 f.payload 8 4, num8 f.payload 12 4, o)], frames := drop r.frames o }]) ∧
    (f.tag = 4 → s.span.deferred = [] → ∃ t, exec (.rackClose f) s = .next t ∧ t.span.racks = others ∧ t.mem = s.mem) ∧
    (∀ r : Rack, f.tag = 5 → s.span.racks.find? (·.is k) = some r → r.record.length = 576 → r.rows = [] →
      let dst := num8 f.payload 8 2
      ∃ t, exec (.rackFetch f) s = .next t ∧ Streams dst 8 0 (leBytes 3 2 ++ leBytes k.2.1 2 ++ leBytes 0 4 ++ r.record) s t ∧
        t.span.racks = s.span.racks.map fun x => if x.is k then { x with adopter := some dst } else x)) ∧
  (∀ (s : State) (f : SpanFrame) (origin : Nat), NextInStream s f 8 → num8 f.payload 0 1 = 3 → s.members ≤ 1 →
    let slot := num8 f.payload 2 2
    let e := Entry.ofBytes ((f.payload.drop 8).take 64)
    s.span.imports = [(slot, f.src, origin)] → s.framesOf slot = [] → ∃ t, exec (.xferFrame f) s = .next t ∧ t.span.imports = [] ∧
      SlotsKept slot s t ∧ (∀ st, find? s.span.returns slot = some st → t.entry slot = { s.entry slot with st := st }) ∧
      (find? s.span.returns slot = none → (t.entry slot).st = (if e.pfill = 0 then .decode else .prefill) ∧ (t.entry slot).pos = e.pos ∧
      (t.entry slot).lasttok = e.lasttok ∧ (t.entry slot).racked = true ∧ (t.entry slot).buddy = BitVec.ofNat 16 f.src ∧
      (t.entry slot).gen = (s.entry slot).gen)) ∧
  (∀ (s : State) (f : SpanFrame), Arrives s f 4 → f.dst = s.modId → bit (num8 f.payload 0 1) 0 = false →
    (∀ x ∈ s.span.sealReq, x.1 ≠ f.src) →
    ((∀ x ∈ s.span.seals, x.1 ≠ f.src) → ∃ t l, exec (.ackFrame f) s = .next t ∧ Took f s t ∧
      (t.txTo f.src).unacked = ((s.txTo f.src).unacked.filter fun x => !covered f.seq x.seq) ++ l ∧
      l ++ (t.txTo f.src).waiting = (s.txTo f.src).waiting ∧ t.seq = s.seq ∧ t.faults = s.faults) ∧
    (∀ slot pos, s.span.seals = [(f.src, f.seq, slot, pos)] → s.seq.exports = [] → s.seq.held = [] → ∃ t,
      exec (.ackFrame f) s = .next t ∧ t.span.seals = [] ∧ SlotsKept slot s t ∧
      t.entry slot = { s.entry slot with sealpos := BitVec.ofNat 32 pos })) ∧
  (∀ (s : State) (f : SpanFrame) (pa val : Nat), Arrives s f 4 → f.dst = s.modId → s.span.seals = [] → pa ≠ 0 →
    s.span.sealReq = [(f.src, f.seq, pa, val)] → ∃ t r, exec (.ackFrame f) s = .next t ∧ t.span.sealReq = [] ∧ s.sends t r ∧
      r.kind = .write ∧ r.pa = pa ∧ r.data = leBytes val 8 ∧
      (bit (num8 f.payload 0 1) 0 = true → (t.od 0x6100 1).testBit 6 = true ∧ Reported 0x2689 0 f.src s t)) ∧
  (∀ (s : State) (m p : Nat), s.routePort m = some p →
    ((s.txTo m).unacked ≠ [] → (∀ f ∈ (s.txTo m).unacked, f.dst = m) → ∃ t, exec (.streamResend m) s = .next t ∧
      let fs := (s.txTo m).unacked.map fun f => ({ f with port := p } : SpanFrame)
      (∀ f ∈ fs, t.handed p f) ∧ (∀ q, q ≠ p → t.sport q = s.sport q) ∧
      ((s.sport p).queue = [] → (∀ f ∈ fs, spanClass f.typ = 4) → sumN (fs.map frameUnits) ≤ get (s.sport p).credits 4 0 →
        t.span.out = s.span.out ++ fs.map fun f => (p, f)) ∧
      Reported 0x0682 0 m s t ∧ SpanCounts 4 fs.length s t ∧ t.span.tx = s.span.tx) ∧
    ((find? s.span.rx m).isSome = true → (∀ g ∈ (s.rxOf m).heldF, g.seq ≠ ((s.rxOf m).last + 1) % 2 ^ 24) →
      ∃ t f, exec (.ackTimer m) s = .next t ∧ SendsFrame p f s t ∧ f.typ = 4 ∧
      f.dst = m ∧ f.seq = (s.rxOf m).last ∧ num8 f.payload 0 4 = b2n (s.rxOf m).newRef ∧
      num8 f.payload 4 4 = (s.rxOf m).refused % 2 ^ 32 ∧ (t.rxOf m).newRef = false)) ∧
  (∀ (s : State) (c : Nat) (w3 : BitVec 64), c < 80000 →
    let k := s.core c
    let w := ((List.range 3).map fun i => get k.spanw i 0) ++ [w3]
    let len := bits (w.getD 2 0).toNat 16 0
    let target := bits (w.getD 1 0).toNat 55 40
    let off := bits (w.getD 1 0).toNat 39 0
    ((s.ctx k.ctx).kind ≠ 1 ∨ spanBad w = true → ∃ t, exec (.spanRequestSubmit c w3) s = .next t ∧ Reported 0x2689 0 c s t ∧
      (t.od 0x6100 1).testBit 6 = true ∧ t.span = s.span) ∧
    (∀ pa, (s.ctx k.ctx).kind = 1 → spanBad w = false → s.xlatRange s.host.xlatS k.ctx (bits (w.getD 0 0).toNat 47 0) len = some [(pa, len)] →
      isHbm pa = true → bits w3.toNat 47 0 = 0 →
      (∀ l y, s.cellar.line? l = some y → y.dir ≠ .dO) → s.txRoom target 1 = true → len ≤ 2048 →
      ∃ t f, exec (.spanRequestSubmit c w3) s = .next t ∧ (t.txTo target).unacked = (s.txTo target).unacked ++ [f] ∧ f.offset = off ∧
        f.payload = (s.getBytes pa len).1 ∧ f.typ = 2 + bits (w.getD 2 0).toNat 21 20 ∧ t.mem = s.mem ∧
        t.span.sealReq = s.span.sealReq ++ (if f.typ = 3 then [(target, f.seq, 0, bits (w.getD 2 0).toNat 63 32)] else []))) ∧
  ∀ (s : State) (buddy slot : Nat),
    ((∀ x ∈ s.span.opens, x.2.1 ≠ buddy) → (∀ x ∈ s.span.imports, x.2.1 ≠ buddy) → ∃ t, exec (.rackTimeout buddy) s = .next t ∧
      t.seq = s.seq ∧ t.host = s.host ∧ (buddy ∈ t.span.buddyGone ↔
        buddy ∈ s.span.buddyGone ∨ buddy ∈ s.span.seals.map (·.1))) ∧
    (∀ origin c q, (∀ x ∈ s.span.opens, x.2.1 ≠ buddy) → s.span.imports = [(slot, buddy, origin)] → (0x09, slot, c, q) ∈ s.seq.cmdWait →
      ∃ t, exec (.rackTimeout buddy) s = .next t ∧ t.span.imports = [] ∧ SlotsKept slot s t ∧ ReportedAmong 0x16C2 7 slot s t ∧
        t.entry slot = { Entry.reset with gen := (s.entry slot).gen + 1, err := 0x0114 }) ∧
    (∀ q x c, s.span.opens = [(slot, buddy, 3)] → (∀ x ∈ s.span.imports, x.2.1 ≠ buddy) →
      s.host.queues.find? (fun x => x.2.slot == some slot) = some (q, x) → s.head? q = some c →
      ∃ t, exec (.rackTimeout buddy) s = .next t ∧ Completes q c 0x0106 0 s t ∧ t.span.opens = [])

/-- Rings, the job and time (R12, R361, R364 to R372, R386 to R390, R393, R395, R396, R604). -/
def Obligations.RingsJobAndTime : Prop :=
  (∀ (s : State) (rid line : Nat) (x : RingLine) (w : BitVec 768), s.span.hold = false → s.joined = true → s.span.early = [] →
    (s.span.ring.find? fun x => x.rid == rid && x.line == line) = some x → x.final = false → x.sum = none → x.own = some w →
    (∀ t, s.tree? rid = some t → ¬ (x.ring = 0 ∧ treeDims t = 3)) →
    let n := s.ringLen x.ring
    let d := s.ringDist x.ring line
    let now := fun (t : State) (y : RingLine) => (t.span.ring.find? fun x => x.rid == rid && x.line == line) = some y
    (n ≤ 1 → ∃ t, exec (.ringLine rid line) s = .next t ∧ now t { x with sum := some w, final := true } ∧ t.span.out = s.span.out) ∧
    (∀ a p, n = 2 → d = 0 → x.plus = some a → x.minus = none → s.routePort (s.ringPlus x.ring) = some p → ∃ t f,
      exec (.ringLine rid line) s = .next t ∧ now t { x with sum := some (add4 w a), final := true } ∧ SendsFrame p f s t ∧
      f.typ = 5 ∧ f.tag = rid ∧ f.offset = line ∧ f.payload = bytes4 (add4 w a) ∧ f.dst = s.ringPlus x.ring) ∧
    (∀ a b p q, 3 ≤ n → d = 0 → x.plus = some a → x.minus = some b → s.routePort (s.ringPlus x.ring) = some p →
      s.routePort (s.ringMinus x.ring) = some q → ∃ t f g, exec (.ringLine rid line) s = .next t ∧
      now t { x with sum := some (add4 w (add4 a b)), final := true } ∧ t.handed p f ∧ t.handed q g ∧
      (p ≠ q → s.leaves p f → s.leaves q g → t.span.out = s.span.out ++ [(p, f), (q, g)]) ∧ f.typ = 5 ∧ g.typ = 5 ∧
      f.payload = bytes4 (add4 w (add4 a b)) ∧ g.payload = bytes4 (add4 w (add4 a b)) ∧ f.dst = s.ringPlus x.ring ∧
      g.dst = s.ringMinus x.ring) ∧
    (∀ p, 2 ≤ n → d = n / 2 → s.routePort (s.ringMinus x.ring) = some p → ∃ t f, exec (.ringLine rid line) s = .next t ∧
      now t { x with own := none } ∧ SendsFrame p f s t ∧ f.typ = 5 ∧ f.payload = bytes4 w ∧ f.dst = s.ringMinus x.ring)) ∧
  (∀ (s : State) (f : SpanFrame), Arrives s f 5 → f.dst = s.modId → s.span.early = [] → s.span.hold = false → s.joined = true →
    (f.payload = [] →
      (f.seq = (s.ringStep + 1) % 2 ^ 24 → f.seq ≠ s.ringStep → ∃ t, exec (.redFrame f) s = .next t ∧ Took f s t ∧ t.span.early = [f] ∧
        t.span.ring = s.span.ring) ∧
      (f.seq ≠ (s.ringStep + 1) % 2 ^ 24 → f.seq ≠ s.ringStep → ∃ t, exec (.redFrame f) s = .next t ∧ Took f s t ∧ t.span.early = [] ∧
        t.span.ring = s.span.ring ∧ Reported 0x1688 0 0 s t ∧ (t.od 0x6100 1).testBit 5 = true)) ∧
    (f.payload.length = 128 → f.seq = s.ringStep → s.seq.cur.isSome = true →
      let x := s.ringLine f.tag f.offset
      let n := s.ringLen x.ring
      let d := s.ringDist x.ring f.offset
      let w := fourWords (slice f.payload 0 128)
      let now := fun (t : State) (y : RingLine) => t.ringLine f.tag f.offset = y
      x.sum = none → x.own = none → x.final = false → 2 ≤ n →
      (d = 0 → f.src = s.ringPlus x.ring → x.plus = none → ∃ t, exec (.redFrame f) s = .next t ∧ Took f s t ∧
        now t { x with plus := some w } ∧ t.span.out = s.span.out) ∧
      (1 ≤ d → d ≤ n / 2 → f.src = s.ringMinus x.ring → (∀ t, s.tree? x.rid = some t → ¬ (x.ring = 0 ∧ treeDims t = 3)) →
        ∃ t, exec (.redFrame f) s = .next t ∧ Took f s t ∧ now t { x with sum := some w, final := true } ∧
          (d = n / 2 → t.span.out = s.span.out) ∧
          (∀ p, d < n / 2 → s.routePort (s.ringPlus x.ring) = some p → ∃ g, SendsFrame p g s t ∧
            g.payload = bytes4 w ∧ g.dst = s.ringPlus x.ring)))) ∧
  (∀ (s : State) (f : SpanFrame), FloodIn s f 11 → num8 f.payload 34 4 = s.job 0 →
    (f.tag = 1 → ∃ t, exec (.joinDigest f) s = .next t ∧ Took f s t ∧ find? t.span.digests f.src = some (slice f.payload 0 32) ∧
      (∀ m, m ≠ f.src → find? t.span.digests m = find? s.span.digests m) ∧
      (s.host.plan = none → t.span.mismatch = false ∧ t.faults = s.faults) ∧
      ∀ p, s.host.plan = some p →
        (t.span.mismatch = true ↔ ∃ m ∈ s.ringTargets, ∃ d, find? t.span.digests m = some d ∧ d ≠ p.digest) ∧
        (f.src ∈ s.ringTargets → slice f.payload 0 32 ≠ p.digest → Reported 0x1605 0 f.src s t) ∧
        (f.src ∉ s.ringTargets ∨ slice f.payload 0 32 = p.digest → t.faults = s.faults)) ∧
    (f.tag = 2 → 1 < s.members →
      let m := num8 f.payload 32 2
      ∃ t, exec (.memberLost f) s = .next t ∧ (11, f.src, f.seq, s.tick.now) ∈ t.span.seen ∧
        (m = s.modId → t.span.hold = true ∧ t.span.lost = s.span.lost) ∧
        (m ≠ s.modId → m ∉ s.span.lost → t.span.hold = true ∧ t.span.lost = s.span.lost ++ [m] ∧ ReportedAmong 0x1686 0 m s t) ∧
        (m ≠ s.modId → m ∈ s.span.lost → t.span.hold = s.span.hold ∧ t.span.lost = s.span.lost ∧ t.faults = s.faults)) ∧
    (f.tag = 3 → ∃ t, exec (.memberJoined f) s = .next t ∧ (11, f.src, f.seq, s.tick.now) ∈ t.span.seen ∧
      t.span.lost = (s.span.lost.filter fun m => m != num8 f.payload 32 2) ∧ t.span.hold = s.span.hold)) ∧
  (∀ (s : State) (m : Nat), 1 < s.members → m ≠ s.modId → m ∉ s.span.lost → ∃ t, exec (.helloTimeout m) s = .next t ∧
    t.span.hold = true ∧ t.span.lost = s.span.lost ++ [m] ∧ ReportedAmong 0x1686 0 m s t ∧ (t.od 0x6100 1).testBit 3 = true ∧
    t.od 0x6100 4 = m ∧ ((s.seq.table.any fun x => x.2.racked && x.2.buddy.toNat == m) = true → m ∈ t.span.buddyGone)) ∧
  (∀ (s : State) (f : SpanFrame), FloodIn s f 12 → ∃ t, exec (.stepFrame f) s = .next t ∧ (12, f.src, f.seq, s.tick.now) ∈ t.span.seen ∧
    (∀ p, p < 4 → p ≠ f.port → s.portUp p = true → t.handed p { f with port := p }) ∧
    t.span.steps = s.span.steps ++ (List.range (f.payload.length / 8)).map fun i =>
      (num8 f.payload (8 * i) 4 % 2 ^ 28, num8 f.payload (8 * i + 4) 4)) ∧
  (∀ s : State,
    let may := s.span.hold = true ∧ s.span.tabled = true ∧ s.joined = true ∧ s.span.imports = [] ∧ (∀ m ∈ s.ringTargets, m ∉ s.span.lost) ∧
      s.span.gone ≤ (s.span.came.filter (· != s.modId)).length + b2n s.span.replacing
    (¬ may → exec .jobHoldEnd s = .next s) ∧
    (may → ∃ t, exec .jobHoldEnd s = .next t ∧ t.span.hold = false ∧ t.span.steps = [] ∧
      (s.stepping = true → s.seq.retrying = 0 → t.seq.phase = .committing ∧ t.seq.retrying = 1) ∧ ∀ n,
        ((s.entry n).st = .free → t.entry n = s.entry n) ∧
        ((s.entry n).st ≠ .free → (s.entry n).racked = false → (t.entry n).cancelReq = true ∧
          ((s.entry n).cancelReq = false → (t.entry n).leaveErr = 0x0114)) ∧
        ((s.entry n).st ≠ .free → (s.entry n).racked = true →
          (∀ pos, s.span.steps = [(s.handle n, pos)] → pos < (s.entry n).pos.toNat → (t.entry n).pos.toNat = pos % 2 ^ 32) ∧
          (s.span.steps = [] → t.entry n = s.entry n)))) ∧
  (∀ (s : State) (f : SpanFrame), FloodIn s f 9 →
    let w := num8 f.payload 0 8
    let own := match s.seq.cur with | some r => r.num | none => s.seq.step
    (bit w 32 = true → s.seq.cur.isSome = true → ∃ t, exec (.freqFrame f) s = .next t ∧ t.seq.voided = true ∧
      t.span.versions = s.span.versions) ∧
    (bit w 32 = false → ∃ t, exec (.freqFrame f) s = .next t ∧ t.span.versions = s.span.versions ++
        [(f.src, num8 f.payload 8 4, bits w 15 0, num8 f.payload 12 4)] ∧
      (serialLe (num8 f.payload 12 4) (own % 2 ^ 32) = false → t.seq = s.seq) ∧
      (serialLe (num8 f.payload 12 4) (own % 2 ^ 32) = true → (t.od 0x6100 1).testBit 7 = true))) ∧
  (∀ (s : State) (f : SpanFrame), Arrives s f 10 →
    let x := s.sport f.port
    ∃ t, exec (.timeFrame f) s = .next t ∧ t.time = s.tick.time ∧ (t.sport f.port).rxTs = t.now ∧
      (t.sport f.port).nbTs = num8 f.payload 0 8 ∧ (t.sport f.port).gmId = num8 f.payload 24 2 ∧
      (t.sport f.port).gmPrio = num8 f.payload 26 1 ∧ (t.sport f.port).gmHops = num8 f.payload 27 1 ∧
      (num8 f.payload 8 8 = 0 → (t.sport f.port).offset = x.offset) ∧
      (num8 f.payload 8 8 ≠ 0 → (t.sport f.port).offset = (((num8 f.payload 16 8 : Int) - num8 f.payload 8 8) +
        ((num8 f.payload 0 8 : Int) - t.now)) / 2) ∧
      ∀ g, t.grandmaster = some g → t.od 0x6100 0x19 = g.1 ∧ t.od 0x6100 0x1B = g.2.2.1 ∧ (g.2.2.2 = none → t.od 0x1200 3 = 2) ∧
        (g.2.2.2 ≠ none → t.od 0x1200 3 = 1)) ∧
  (∀ (s : State) (p : Nat), p < 4 → s.portUp p = true → ∃ t f, exec (.timeTimer p) s = .next t ∧ t.time = s.tick.time ∧
    SendsFrame p f s t ∧ f.typ = 10 ∧ num8 f.payload 0 8 = t.now ∧ num8 f.payload 8 8 = (s.sport p).nbTs % 2 ^ 64 ∧
    num8 f.payload 16 8 = (s.sport p).rxTs % 2 ^ 64) ∧
  (∀ s : State,
    ((∀ a, s.span.tsyncAt = some a → a + 1000 ≤ s.tick.now) → ∃ t, exec .tsyncEdge s = .next t ∧ t.time = s.tick.time ∧
      t.span.tsyncAt = some t.now ∧ t.od 0x6100 0x1C = t.now) ∧
    ((∃ a, s.span.tsyncAt = some a ∧ s.tick.now < a + 1000) → exec .tsyncEdge s = .next s.tick)) ∧
  (∀ (s : State) (path : Path) (tid v : Nat), s.lets path 1 → v < 2 ^ 32 → ∃ t, exec (.boundNs path tid v) s = .next t ∧
    Answered path 0x82 tid 0x7200 0x30 [] s t ∧ t.od 0x7200 0x30 = v ∧ t.od 0x7200 0x33 = 0 ∧ t.od 0x7200 0x35 = 0 ∧
    t.od 0x7200 0x36 = 0 ∧ t.od 0x7200 0x37 = 0 ∧ t.od 0x7200 0x34 = s.od 0x7200 0x34) ∧
  ∀ p : Plan, p.costs = (8000 + 12 * 2 ^ 64) :: List.replicate 60 (4000 + 6 * 2 ^ 64 + 2 ^ 183 + 2 * 2 ^ 184) →
    let ring := ringTime 8 8 64
    let layer := (attTerm 20 126 4 128 (5183 / 100) false, [redTerm 64 64 2 [ring, ring], redTerm 64 64 2 [ring, ring]])
    let work := p.workBound 250 0 1000 0 0 0 4 (List.replicate 60 layer)
    work = 8469231 / 10 ∧ periodBound work 20000 = 8671231 / 10 ∧ postBound work (some 3) = 8518231 / 10

/-- The Abius engine towards the companion (R398 to R406, R409 to R412, R416 to R420, R432, R435, R612). -/
def Obligations.TheLinkAndItsRegisters : Prop :=
  (∀ (s : State) (fseq ackseq credits : Nat) (ack nak ok : Bool), s.host.link = 2 → s.flitInjected = false →
    (ok = false → ∃ t, exec (.flit fseq ack nak ackseq credits ok) s = .next t ∧ t.host.rxSeq = s.host.rxSeq ∧ Reported 0x0701 0 0 s t ∧
      (s.host.fails ≠ 8 → t.host.link = 2 ∧ t.host.fails = s.host.fails + 1 ∧ t.host.nakDue = true) ∧
      (s.host.fails = 8 → t.host.link = 1 ∧ t.host.fails = 0)) ∧
    (ok = true → fseq % 1024 ≠ s.host.rxSeq → ∃ t, exec (.flit fseq ack nak ackseq credits ok) s = .next t ∧
      t = { s with host := { s.host with txSeq := t.host.txSeq }, dict := t.dict, freeCtr := s.freeCtr + 1 }) ∧
    (ok = true → fseq % 1024 = s.host.rxSeq → ∃ t, exec (.flit fseq ack nak ackseq credits ok) s = .next t ∧
      t.host.rxSeq = (s.host.rxSeq + 1) % 1024 ∧ t.host.fails = 0 ∧ t.host.acked = (if ack then ackseq % 1024 else s.host.acked) ∧
      (∀ c, c < 5 → get t.host.credits c 0 = get s.host.credits c 0 + bits credits (12 * c + 11) (12 * c)) ∧
      (nak = false → t.host.link = 2 ∧ t.host.naks = 0 ∧ t.faults = s.faults) ∧
      (nak = true → Reported 0x0701 0 0 s t ∧
        let n := if ack && s.host.acked == ackseq % 1024 then s.host.naks + 1 else 1
        (n ≠ 9 → t.host.link = 2 ∧ t.host.naks = n) ∧ (n = 9 → t.host.link = 1)))) ∧
  (∀ s : State, s.host.link = 2 → ∃ t, exec .flitSilence s = .next t ∧ t = { s with host := t.host } ∧ t.host.link = 1 ∧
    t.host.fails = 0 ∧ t.host.naks = 0 ∧ t.host.queues = s.host.queues) ∧
  (∀ (s : State) (lanes modules : Nat), s.host.link ≠ 2 → (lanes = 8 ∨ lanes = 16) → 1 ≤ modules → modules ≤ 4 →
    ∃ t, exec (.linkUp lanes modules) s = .next t ∧ t.host.link = 2 ∧ t.host.width = lanes ∧ t.host.txSeq = 0 ∧ t.host.rxSeq = 0 ∧
      (∀ c, c < 5 → get t.host.credits c 0 = unitsOf c s.linkSent) ∧ t.od 0x4200 5 = modules ∧ (lanes = 16 → t.faults = s.faults) ∧
      (lanes = 8 → Reported 0x1703 0 0 s t ∧ (t.od 0x1100 1).testBit 2 = true)) ∧
  (∀ s : State, s.host.link = 1 → ∃ t, exec .abiusDown s = .next t ∧ t.host.link = 0 ∧ t.coh.dead = true ∧
    ReportedAmong 0x1704 0 0 s t ∧ (t.od 0x1100 1).testBit 1 = true ∧ t.level .mailbox = 1 ∧ t.xfer .mailbox = none ∧
    (s.parts.mig.running.isSome = true → t.parts.mig.running = none ∧ t.od 0x7100 0x12 = 5 ∧ ReportedAmong 0x1741 0 0 s t)) ∧
  (∀ (s : State) (h : AbHdr), s.coh.dead = false → h.ord ≠ 3 →
    let a := h.addr.toNat
    let p := h.pasid.toNat
    let gets := fun (v : Nat) => exec (.regRd h) s =
      .next { s with coh := { s.coh with out := s.coh.out ++ [abMsg 0x82 h.tag.toNat p a (leBytes v 16)] } }
    let bad := fun (t : State) => t.coh = { s.coh with out := s.coh.out ++ [abMsg 0x84 h.tag.toNat p a (leBytes 3 16)] } ∧
      Reported 0x0702 0 0 s t ∧ t = { s with coh := t.coh, faults := t.faults, dict := t.dict }
    (∀ q, a = 0x20000000000 + 4096 * q + 0x10 → q < 4096 →
      (s.mayRing q p = true → gets (s.queue q).qstatus) ∧
      (s.mayRing q p = false → ∃ t, exec (.regRd h) s = .next t ∧ bad t)) ∧
    (∀ i, i < 16 → a = 0x20200000000 + 8 * i → gets (capWord (8 * i))) ∧
    (∀ (i c : Nat) (f : Fence), a = 0x20300000000 + 8 * i → i < 65536 → find? s.host.fences i = some f → s.ctxOfPasid p = some c →
      (p = 0 ∨ c ∈ f.holders → gets f.value.toNat) ∧
      (p ≠ 0 → c ∉ f.holders → ∃ t, exec (.regRd h) s = .next t ∧ bad t))) ∧
  (∀ (s : State) (h : AbHdr) (v : BitVec 64) (i : Nat), h.ord ≠ 3 → h.pasid = 0 → i < 255 → h.addr.toNat = 0x20100000000 + 8 * i →
    exec (.regWr h v) s = .next { s with
      dict := { s.dict with mbReq := put s.dict.mbReq i v }
      coh := { s.coh with out := s.coh.out ++ [abMsg 0x83 h.tag.toNat 0 h.addr.toNat] } }) ∧
  (∀ (s : State) (h : AbHdr) (v : BitVec 64) (q : Nat), s.coh.dead = false → h.ord ≠ 3 → s.mayRing q h.pasid.toNat = true → q < 4096 →
    let answered := fun (t : State) => t.coh.out = s.coh.out ++ [abMsg 0x83 h.tag.toNat h.pasid.toNat h.addr.toNat]
    let others := fun (t : State) => ∀ r, r ≠ q → t.queue r = s.queue r
    let x := s.queue q
    let n := v.toNat % 2 ^ 32
    let ahead := fun (i : Nat) => (i + 2 ^ 32 - x.rd) % 2 ^ 32
    let good := ahead x.tail ≤ ahead n ∧ ahead n ≤ 2 ^ qClog2 x.desc
    (h.addr.toNat = 0x20000000000 + 4096 * q → ∃ t, exec (.cmdTail h v) s = .next t ∧ answered t ∧ others t ∧
      (x.stopped = true → t.queue q = x) ∧ (x.stopped = false → good → t.queue q = { x with tail := n }) ∧
      (x.stopped = false → ¬ good → t.queue q = { x with stopped := true, status := 0x0208 } ∧ (t.od 0x1100 1).testBit 3 = true ∧
        ((find? s.host.queues 0).isSome = true → t.host.notices = s.host.notices ++ [{ Notice.reset with status := 0x0208, subj := q }]))) ∧
    (h.addr.toNat = 0x20000000000 + 4096 * q + 8 → s.seq.late = [] → (x.stopped = false ∨ x.status ≠ 0x0113) →
      ∃ t, exec (.cplHead h v) s = .next t ∧ answered t ∧ others t ∧ t.queue q = { x with head := n })) ∧
  (∀ (s : State) (n : Notice) (rest : List Notice), s.host.notices = n :: rest → n.body.length ≤ 40 → (find? s.host.queues 0).isSome = true →
    ((s.queue 0).free = 0 → exec .noticePost s = .next s) ∧
    ((s.queue 0).free ≠ 0 → ∃ t e, exec .noticePost s = .next t ∧ t.host.notices = rest ∧ t.host.posted = s.host.posted ++ [(0, e)] ∧
      e.length = 64 ∧ num8 e 4 2 = n.status % 2 ^ 16 ∧ num8 e 8 4 = n.subj % 2 ^ 32 ∧ slice e 24 40 = slice n.body 0 40 ∧
      (t.queue 0).wr = ((s.queue 0).wr + 1) % 2 ^ 32)) ∧
  (∀ (s : State) (q e : Nat), let c := BitVec.ofNat 512 e
    let known := (cmdFields (opcOf c)).isSome = true ∧ (opcOf c = 0x38 → bits (cw c 1) 3 0 ≤ 3)
    (s.mayFetch q = false ∨ s.visitsNext q = false → exec (.commandFetch q e) s = .next s) ∧
    (s.mayFetch q = true → s.visitsNext q = true → known → ∃ t, exec (.commandFetch q e) s = .next t ∧
      t = { s with host := { s.host with queues := t.host.queues }, seq := { s.seq with visit := q } } ∧
      (∀ r, r ≠ q → t.queue r = s.queue r) ∧
      t.queue q = { s.queue q with
        cmd := some c, posted := false, rd := ((s.queue q).rd + 1) % 2 ^ 32, resv := (s.queue q).resv + 1 }) ∧
    (s.mayFetch q = true → s.visitsNext q = true → ¬ known → ∃ t d, exec (.commandFetch q e) s = .next t ∧
      t.host.posted = s.host.posted ++ [(q, d)] ∧ num8 d 4 2 = 0x0201 ∧ num8 d 0 4 = cmdidOf c ∧ (t.queue q).cmd = none ∧ t.seq.visit = q ∧
      (t.queue q).rd = ((s.queue q).rd + 1) % 2 ^ 32 ∧ (t.queue q).resv = (s.queue q).resv)) ∧
  ∀ (s : State) (tag level table c : Nat) (r : Req), s.req? tag = some r → r.tag = tag → r.stage = .walk level table →
    r.agent.core? = some c → let a := pteAddr level table r.va
    (s.readCached (a / 128) 3 = none → exec (.tableReadReturn tag) s = .next (s.whenShared [a / 128] s)) ∧
    (∀ x, s.cellar.line? (a / 128) = some x → x.ecc = 0 → x.ecc2 = 0 → x.dir ≠ .dO → s.txn? (a / 128) = none →
      ∃ u, s.readCached (a / 128) 3 = some u ∧ u = { s with cellar := u.cellar, dict := u.dict } ∧
        u.cellar.line? (a / 128) = some x ∧ (∀ i, i ∈ [0x13, 0x1B] → u.od 0x4100 i = (s.od 0x4100 i + 1) % 2 ^ 64)) ∧
    (∀ u, s.readCached (a / 128) 3 = some u → u.req? tag = some r → let d := u.physRead a 8
      let code := if d.2 then r.agent.poisonCode else r.agent.xlateCode
      (∀ n, d.2 = false → pteOf level (leNat d.1) = .next n → ∃ t, exec (.tableReadReturn tag) s = .next t ∧
        t.req? tag = some { r with stage := .walk (level - 1) n } ∧ t = { u with reqs := t.reqs }) ∧
      (∀ pa l w, d.2 = false → pteOf level (leNat d.1) = .leaf pa l w → let at_ := pa + r.va % 2 ^ l
        u.permits r r.ctx (u.partOf c r) at_ w = true → ∃ t, exec (.tableReadReturn tag) s = .next t ∧
          t.req? tag = some (r.atPa at_) ∧ t = { u with reqs := t.reqs, cores := t.cores } ∧
          { ctx := r.ctx, va := r.va / 2 ^ l * 2 ^ l, pa := pa, log2 := l, w := w } ∈ (t.core c).xlat ∧
          (∀ k, k ≠ c → t.core k = u.core k)) ∧
      (d.2 = true ∨ pteOf level (leNat d.1) = .bad →
        (r.agent.unit = 1 → ∃ t, exec (.tableReadReturn tag) s = .next t ∧ t = { u with reqs := t.reqs } ∧
          t.req? tag = some { r with stage := .done, err := code }) ∧
        (r.agent.unit ≠ 1 → (u.core c).run = true → (u.core c).stopping = false → (u.core c).ctx = r.ctx →
          ∃ t, exec (.tableReadReturn tag) s = .next t ∧ t.req? tag = none ∧ (t.core c).ksFault = BitVec.ofNat 16 code ∧
            Reported code 1 (u.coreLoc c) u t)))

/-- Fences, contexts and translations (R412 to R414, R425 to R430). -/
def Obligations.FencesAndContexts : Prop :=
  (∀ (s : State) (q : Nat) (c : BitVec 512), HasCommand s q 0x10 c → let id := bits (cw c 1) 15 0
    (s.holdsFence (s.queueCtx q) id = false → ∃ t, exec (.fenceSignal q) s = .next t ∧ Completes q c 0x0203 0 s t) ∧
    (∀ f, find? s.host.fences id = some f → s.queueCtx q ∈ f.holders →
      (cw c 2 = 2 ^ 64 - 1 → ∃ t, exec (.fenceSignal q) s = .next t ∧ Completes q c 0x0204 0 s t ∧ find? t.host.fences id = some f) ∧
      (cw c 2 ≠ 2 ^ 64 - 1 → f.value.toNat < cw c 2 → ∃ t, exec (.fenceSignal q) s = .next t ∧ Completes q c 0 0 s t ∧
        find? t.host.fences id = some { f with value := BitVec.ofNat 64 (cw c 2), err := 0 }) ∧
      (cw c 2 ≠ 2 ^ 64 - 1 → cw c 2 ≤ f.value.toNat → ∃ t, exec (.fenceSignal q) s = .next t ∧ Completes q c 0 0 s t ∧
        find? t.host.fences id = some f ∧ (t.od 0x1100 1).testBit 0 = true))) ∧
  (∀ (s : State) (q : Nat) (c : BitVec 512), HasCommand s q 0x11 c → let id := bits (cw c 1) 15 0
    (s.holdsFence (s.queueCtx q) id = false → ∃ t, exec (.fenceWait q) s = .next t ∧ Completes q c 0x0203 0 s t) ∧
    (∀ f, find? s.host.fences id = some f → s.queueCtx q ∈ f.holders →
      (cw c 2 = 0 ∨ (cw c 2 ≤ f.value.toNat ∧ f.err ≠ 0x0205) → ∃ t, exec (.fenceWait q) s = .next t ∧ Completes q c 0 0 s t) ∧
      (cw c 2 ≤ f.value.toNat → f.err = 0x0205 → cw c 2 ≠ 0 → ∃ t, exec (.fenceWait q) s = .next t ∧ Completes q c 0x0205 0 s t) ∧
      (f.value.toNat < cw c 2 → f.err ≠ 0 → ∃ t, exec (.fenceWait q) s = .next t ∧ Completes q c f.err 0 s t) ∧
      (f.value.toNat < cw c 2 → f.err = 0 → exec (.fenceWait q) s = .next s))) ∧
  (∀ (s : State) (q : Nat) (c : BitVec 512), HasCommand s q 0x25 c → let owner := bits (cw c 1) 9 0
    (s.isCtx owner = false → ∃ t, exec (.fenceCreate q) s = .next t ∧ Completes q c 0x0201 0 s t) ∧
    (s.isCtx owner = true → (s.ctx owner).dying = false →
      (∀ i, i < 65536 → find? s.host.fences i = none → (∀ j, j < i → (find? s.host.fences j).isSome = true) →
        ∃ t, exec (.fenceCreate q) s = .next t ∧ Completes q c 0 i s t ∧
          find? t.host.fences i = some { Fence.reset with owner := owner, holders := [owner] }) ∧
      ((∀ j, j < 65536 → (find? s.host.fences j).isSome = true) → ∃ t, exec (.fenceCreate q) s = .next t ∧ Completes q c 0x0206 0 s t))) ∧
  (∀ (s : State) (q : Nat) (c : BitVec 512) (f : Fence), HasCommand s q 0x26 c → let id := bits (cw c 1) 15 0
    let ctx := bits (cw c 1) 25 16
    s.isCtx ctx = true → find? s.host.fences id = some f →
    (bit (cw c 1) 31 = true → ∃ t, exec (.fenceShareGrant q) s = .next t ∧ Completes q c 0 0 s t ∧
      find? t.host.fences id = some { f with holders := addTo f.holders ctx }) ∧
    (bit (cw c 1) 31 = false → (∃ x ∈ f.holders, x ≠ ctx) → ∃ t, exec (.fenceShareRelease q) s = .next t ∧ Completes q c 0 0 s t ∧
      find? t.host.fences id = some { f with holders := f.holders.filter (· != ctx) })) ∧
  (∀ (s : State) (q : Nat) (c : BitVec 512), HasCommand s q 0x20 c → let x := ctxOf (ctxDesc c)
    (s.ctxRefusal x ≠ 0 → ∃ t, exec (.ctxCreate q) s = .next t ∧ Completes q c (s.ctxRefusal x) 0 s t ∧ t.host.ctxs = s.host.ctxs) ∧
    (s.ctxRefusal x = 0 → ∀ i, 1 ≤ i → i < 1024 → find? s.host.ctxs i = none →
      (∀ j, 1 ≤ j → j < i → (find? s.host.ctxs j).isSome = true) → ∃ t y, exec (.ctxCreate q) s = .next t ∧ Completes q c 0 i s t ∧
        find? t.host.ctxs i = some y ∧ y.pasid = bits (cw c 1) 31 12 ∧ y.part = bits (cw c 1) 37 32 ∧ y.kind = bits (cw c 1) 11 10 ∧
        y.root = 4096 * bits (cw c 1 + 2 ^ 64 * cw c 2) 76 48 ∧ y.barrier = bits (cw c 1) 47 38 ∧ y.dying = false ∧
        (y.frozen = true ↔ (s.parts.mig.state = 2 ∨ s.parts.mig.state = 3) ∧ y.part ≠ 0 ∧ y.part = s.od 0x7100 3) ∧
        ∀ j, j ≠ i → find? t.host.ctxs j = find? s.host.ctxs j)) ∧
  (∀ (s : State) (q : Nat) (c : BitVec 512), HasCommand s q 0x21 c → let i := cw c 1
    (s.isCtx i = false → ∃ t, exec (.ctxDestroy q) s = .next t ∧ Completes q c 0x0201 0 s t) ∧
    (s.isCtx i = true → s.ctxBusy i = true → ∃ t, exec (.ctxDestroy q) s = .next t ∧ Completes q c 0x0207 0 s t ∧ t.host.ctxs = s.host.ctxs) ∧
    (s.isCtx i = true → s.ctxBusy i = false → ∃ t, exec (.ctxDestroy q) s = .next t ∧ Completes q c 0 0 s t ∧
      find? t.host.ctxs i = none ∧ (∀ j, j ≠ i → find? t.host.ctxs j = find? s.host.ctxs j) ∧
      (∀ x ∈ t.host.fences, i ∉ x.2.holders) ∧ (∀ x ∈ t.cores, ∀ e ∈ x.2.xlat, e.ctx ≠ i) ∧
      ∀ e ∈ t.host.xlatA ++ t.host.xlatS, e.ctx ≠ i)) ∧
  (∀ (s : State) (q i : Nat) (c : BitVec 512) (x : Ctx), HasCommand s q 0x22 c → i ≠ 0 →
    (s.host.ctxs.find? fun x => x.2.pasid == bits (cw c 1) 19 0) = some (i, x) →
    (x.dying = true → ∃ t, exec (.processGone q) s = .next t ∧ Completes q c 0x0207 0 s t) ∧
    (x.dying = false → ∃ t, exec (.processGone q) s = .next t ∧ (i, some (BitVec.ofNat 32 (cmdidOf c))) ∈ t.host.gone ∧
      (t.queue q).cmd = none ∧ i ∈ t.seq.torn ∧ (∀ y ∈ t.host.queues, qCtx y.2.desc = i → y.2.stopped = true ∧ y.2.status = 0x0113) ∧
      (∀ y ∈ t.host.ctxs, y.1 = i → y.2.dying = true))) ∧
  ∀ (s : State) (q : Nat) (c : BitVec 512), HasCommand s q 0x2C c → let ctx := cw c 1
    let base := cw c 2
    let len := cw c 3
    let outside := fun (e : XEntry) => e.ctx = ctx → len ≠ 0 ∧ (base + len ≤ e.va ∨ e.va + 2 ^ e.log2 ≤ base)
    let dropped := fun (t : State) => (∀ x ∈ t.cores, ∀ e ∈ x.2.xlat, outside e) ∧ ∀ e ∈ t.host.xlatA ++ t.host.xlatS, outside e
    (s.isCtx ctx = false → ∃ t, exec (.invalidate q) s = .next t ∧ Completes q c 0x0201 0 s t) ∧
    (s.isCtx ctx = true → s.xlatBusy ctx base len = true → ∃ t, exec (.invalidate q) s = .next t ∧ dropped t ∧
      t.host.queues = s.host.queues ∧ t.host.posted = s.host.posted) ∧
    (s.isCtx ctx = true → s.xlatBusy ctx base len = false → ∃ t, exec (.invalidate q) s = .next t ∧ dropped t ∧ Completes q c 0 0 s t)

/-- Queues, memory objects and queries (R415, R423, R424, R431, R432, R435, R436). -/
def Obligations.QueuesMemoryAndQueries : Prop :=
  (∀ (s : State) (q : Nat) (c : BitVec 512), HasCommand s q 0x23 c → let d := queueDesc c
    (qValid d = false ∨ s.isCtx (qCtx d) = false → ∃ t, exec (.queueCreate q) s = .next t ∧ Completes q c 0x0201 0 s t) ∧
    (qValid d = true → s.isCtx (qCtx d) = true → (s.ctx (qCtx d)).dying = false → ∀ i, 1 ≤ i → i < 4096 → find? s.host.queues i = none →
      (∀ j, 1 ≤ j → j < i → (find? s.host.queues j).isSome = true) → ∃ t, exec (.queueCreate q) s = .next t ∧ Completes q c 0 i s t ∧
        find? t.host.queues i = some { Queue.reset with desc := d })) ∧
  (∀ (s : State) (q : Nat) (c : BitVec 512), HasCommand s q 0x24 c → let i := cw c 1
    (find? s.host.queues i = none → ∃ t, exec (.queueDestroy q) s = .next t ∧ Completes q c 0x0201 0 s t) ∧
    ((find? s.host.queues i).isSome = true → s.queueBusy i = true → ∃ t, exec (.queueDestroy q) s = .next t ∧ Completes q c 0x0207 0 s t ∧
      (find? t.host.queues i).isSome = true) ∧
    ((find? s.host.queues i).isSome = true → s.queueBusy i = false → ∃ t, exec (.queueDestroy q) s = .next t ∧ Completes q c 0 0 s t ∧
      find? t.host.queues i = none)) ∧
  (∀ (s : State) (path : Path) (tid : Nat), s.lets path 1 → let d := BitVec.ofNat 256 (s.od 0x1100 0x10)
    (s.isReady = false → ∃ t, exec (.queue0Create path tid) s = .next t ∧ t.host = s.host ∧
      Answered path 0x8F tid 0x1100 0x11 (leBytes 0x00040001 4) s t) ∧
    (s.isReady = true → find? s.host.queues 0 = none → qValid d = true → qCtx d = 0 → ∃ t, exec (.queue0Create path tid) s = .next t ∧
      find? t.host.queues 0 = some { Queue.reset with desc := d } ∧ Answered path 0x82 tid 0x1100 0x11 [] s t)) ∧
  (∀ (s : State) (q : Nat) (c : BitVec 512), HasCommand s q 0x27 c → let base := bits (cw c 1) 47 0
    (memRange base (cw c 2) = false → ∃ t, exec (.memRegister q) s = .next t ∧ Completes q c 0x0201 0 s t) ∧
    (memRange base (cw c 2) = true → ∀ i, i < 65536 → find? s.host.mems i = none → (∀ j, j < i → (find? s.host.mems j).isSome = true) →
      ∃ t, exec (.memRegister q) s = .next t ∧ Completes q c 0 i s t ∧
        find? t.host.mems i = some { MemObj.reset with base := base, len := cw c 2, host := 1 })) ∧
  (∀ (s : State) (q : Nat) (c : BitVec 512) (m : MemObj), let id := bits (cw c 1) 15 0
    let ctx := bits (cw c 1) 25 16
    find? s.host.mems id = some m →
    (HasCommand s q 0x28 c → ∃ t, exec (.memHold q) s = .next t ∧ Completes q c 0 0 s t ∧
      find? t.host.mems id = some { m with host := m.host + 1 }) ∧
    (HasCommand s q 0x29 c → (m.host = 0 → ∃ t, exec (.memRelease q) s = .next t ∧ Completes q c 0x0201 0 s t) ∧
      (2 ≤ m.host → ∃ t, exec (.memRelease q) s = .next t ∧ Completes q c 0 0 s t ∧
        find? t.host.mems id = some { m with host := m.host - 1 }) ∧
      (m.host = 1 → m.binds = [] → s.seq.table = [] → s.seq.spills = [] → (∀ x ∈ s.host.queues, x.1 ≠ q → x.2.cmd = none) →
        s.host.mems = [(id, m)] → isHbm m.base = true → m.base % 128 = 0 → m.len % 128 = 0 → s.cellar.wbase % 256 = 0 →
        s.cellar.wlen % 128 = 0 → ∃ t, exec (.memRelease q) s = .next t ∧ t.host.mems = [] ∧
          (∀ a, m.base ≤ a → a < m.base + m.len → t.peek (s.store a) 1 = [0]) ∧
          (∀ b, (∀ a, m.base ≤ a → a < m.base + m.len → s.store a ≠ b) → t.peek b 1 = s.peek b 1) ∧ (t.queue q).cmd = none ∧
          ((find? s.host.queues 0).isSome = true → t.host.notices = s.host.notices ++ [{ Notice.reset with status := 0x0303, subj := id }]))) ∧
    (HasCommand s q 0x2A c → s.isCtx ctx = true → ∃ t, exec (.memBind q) s = .next t ∧ Completes q c 0 0 s t ∧
      find? t.host.mems id = some { m with binds := addTo m.binds ctx }) ∧
    (HasCommand s q 0x2B c →
      (ctx ∉ m.binds → ∃ t, exec (.memUnbind q) s = .next t ∧ Completes q c 0x0201 0 s t) ∧
      (ctx ∈ m.binds → s.xlatBusy ctx 0 0 = true → ∃ t, exec (.memUnbind q) s = .next t ∧ t.host.mems = s.host.mems ∧
        t.host.queues = s.host.queues ∧ ∀ x ∈ t.cores, ∀ e ∈ x.2.xlat, e.ctx ≠ ctx) ∧
      (ctx ∈ m.binds → s.xlatBusy ctx 0 0 = false → m.host ≠ 0 → ∃ t, exec (.memUnbind q) s = .next t ∧ Completes q c 0 0 s t ∧
        find? t.host.mems id = some { m with binds := m.binds.filter (· != ctx) } ∧ ∀ x ∈ t.cores, ∀ e ∈ x.2.xlat, e.ctx ≠ ctx))) ∧
  ∀ (s : State) (q : Nat) (c : BitVec 512), HasCommand s q 0x38 c → let kind := bits (cw c 1) 3 0
    let pa := winAddr (cw c 2)
    let own := s.queueCtx q
    let writes := fun (t : State) (d : List Byte) => ∃ l, t.host.compWr = s.host.compWr ++ (pa - 2 ^ 40, d) :: l
    let fits := fun (n : Nat) => cw c 2 % 64 = 0 ∧ isComp pa = true ∧ s.inBound own pa n = true
    (kind = 0 → (cw c 2 % 64 ≠ 0 ∨ isComp pa = false ∨ s.inBound own pa 128 = false → ∃ t, exec (.queryCapabilities q) s = .next t ∧
        Completes q c 0x0201 0 s t) ∧
      (fits 128 → ∃ t d, exec (.queryCapabilities q) s = .next t ∧ Completes q c 0 0 s t ∧ writes t d ∧ d.length = 128 ∧
        ∀ i, i < 16 → num8 d (8 * i) 8 = capWord (8 * i))) ∧
    (kind = 1 → let i := cw c 3
      (own ≠ 0 → own ≠ i → ∃ t, exec (.queryUtilisation q) s = .next t ∧ Completes q c 0x0201 0 s t) ∧
      (s.isCtx i = true → (own = 0 ∨ own = i) → i ≠ 0 → fits 64 → ∃ t d, exec (.queryUtilisation q) s = .next t ∧ Completes q c 0 0 s t ∧
        writes t d ∧ d.length = 64 ∧
        num8 d 0 8 = (s.seq.table.filter fun x => x.2.st != .free && x.2.ctx.toNat == i).length % 2 ^ 64 ∧
        num8 d 16 8 = (s.ctx i).toks % 2 ^ 64 ∧ num8 d 24 8 = (s.ctx i).steps % 2 ^ 64 ∧
        num8 d 40 8 = (s.host.queues.filter fun x => qCtx x.2.desc == i).length % 2 ^ 64 ∧
        num8 d 48 8 = (s.host.fences.filter fun x => x.2.holders.contains i).length % 2 ^ 64 ∧
        num8 d 56 8 = (s.host.mems.filter fun x => x.2.binds.contains i).length % 2 ^ 64)) ∧
    (kind = 2 → let e := s.entry (bits (cw c 3) 11 0)
      (e.gen.toNat ≠ bits (cw c 3) 27 12 → ∃ t, exec (.queryHandle q) s = .next t ∧ Completes q c 0x0101 0 s t) ∧
      (e.gen.toNat = bits (cw c 3) 27 12 → own ≠ 0 → e.ctx.toNat ≠ own → ∃ t, exec (.queryHandle q) s = .next t ∧ Completes q c 0x0201 0 s t) ∧
      (e.gen.toNat = bits (cw c 3) 27 12 → (own = 0 ∨ e.st ≠ .free ∧ e.ctx.toNat = own) → fits 64 → ∃ t d, exec (.queryHandle q) s = .next t ∧
        Completes q c 0 0 s t ∧ writes t d ∧ Entry.ofBytes d = { Entry.ofBytes d with
          seed := e.seed, fval := e.fval, addr := e.addr, maxpos := e.maxpos, pos := e.pos, ctx := e.ctx })) ∧
    (kind = 3 → (q ≠ 0 → ∃ t, exec (.queryModule q) s = .next t ∧ Completes q c 0x0202 0 s t) ∧
      (q = 0 → fits 64 → ∃ t d, exec (.queryModule q) s = .next t ∧ Completes q c 0 0 s t ∧ writes t d ∧ d.length = 64 ∧
        num8 d 0 8 = (s.seq.table.filter fun x => x.2.st != .free).length % 2 ^ 64 ∧ num8 d 24 8 = s.seq.step % 2 ^ 64 ∧
        num8 d 48 8 = (s.host.ctxs.length + 1) % 2 ^ 64 ∧ num8 d 56 8 = s.host.queues.length % 2 ^ 64))

/-- Partitions and migration (R437 to R440, R444 to R452). -/
def Obligations.PartitionsAndMigration : Prop :=
  ∀ (s : State) (path : Path) (tid : Nat), s.lets path 1 →
    let n := s.partSelect
    (s.foreign path 0x70001F = false → 1 ≤ n → n ≤ 63 →
      (s.partAgrees = true → ∃ t x, exec (.partCreate path tid) s = .next t ∧ Answered path 0x82 tid 0x7000 0x1F [] s t ∧
        find? t.parts.parts n = some x ∧ x.seqMin = s.groupVal 0x700009 ∧ x.seqMax = s.groupVal 0x70000A ∧
        x.barrelMin = s.groupVal 0x70000B ∧ x.carves = [carveOf (s.groupVal 0x70000C), carveOf (s.groupVal 0x70000D),
          carveOf (s.groupVal 0x70000E), carveOf (s.groupVal 0x70000F)] ∧
        (∀ m, m ≠ n → find? t.parts.parts m = find? s.parts.parts m) ∧ t.parts.mig = s.parts.mig ∧
        (∀ k ∈ groupMembers 0x70001F, find? t.dict.staged k = none ∧ t.od (k / 256) (k % 256) = s.groupVal k) ∧
        find? t.dict.claims 0x70001F = none) ∧
      (s.partAgrees = false → ∃ t, exec (.partCreate path tid) s = .next t ∧ Aborted path tid 0x7000 0x1F 0x00030002 s t) ∧
      (find? s.parts.parts n = none → ∃ t, exec (.partDestroy path tid) s = .next t ∧ Aborted path tid 0x7000 0x1F 0x00030003 s t) ∧
      ((find? s.parts.parts n).isSome = true →
        ((∀ x ∈ s.host.ctxs, x.2.part ≠ n) → ∃ t, exec (.partDestroy path tid) s = .next t ∧
          Answered path 0x82 tid 0x7000 0x1F [] s t ∧ find? t.parts.parts n = none ∧
          (∀ m, m ≠ n → find? t.parts.parts m = find? s.parts.parts m)) ∧
        ((∃ x ∈ s.host.ctxs, x.2.part = n) → ∃ t, exec (.partDestroy path tid) s = .next t ∧
          Aborted path tid 0x7000 0x1F 0x00030004 s t))) ∧
    (∀ m p, 1 ≤ m → m ≤ 63 → find? s.parts.parts m = some p →
      (p.resetting = true → ∃ t, exec (.partReset path tid m) s = .next t ∧ t.parts = s.parts ∧ t.host = s.host) ∧
      (p.resetting = false → ∃ t, exec (.partReset path tid m) s = .next t ∧ Answered path 0x82 tid 0x7000 0x1E [] s t ∧
        find? t.parts.parts m = some { p with resetting := true, freed := false, zeroed := 0 } ∧
        (∀ x ∈ s.host.ctxs, x.2.part = m → x.1 ≠ 0 → x.2.dying = false → (x.1, none) ∈ t.host.gone) ∧
        (s.parts.mig.state ≠ 0 → s.migPart = m → t.parts.mig = Mig.reset ∧ t.od 0x7100 0x12 = 5 ∧ ReportedAmong 0x1741 0 0 s t) ∧
        (s.parts.mig.state = 0 → t.parts.mig = s.parts.mig))) ∧
    let g := s.parts.mig
    let refused := fun (c : Instr) => ∃ t, exec c s = .next t ∧ Aborted path tid 0x7100 0x0F 0x00030003 s t
    let did := fun (t : State) => Answered path 0x82 tid 0x7100 0x0F [] s t
    (g.state ≠ 0 → refused (.migLog path tid)) ∧
    (g.state = 0 → g.freezing = false → s.migValid = true → ∃ t, exec (.migLog path tid) s = .next t ∧ did t ∧ t.parts.mig =
      { g with state := 1, logging := true, dirty := s.granules, pass := 0, saved := [], stream := [], count := 0, full := false }) ∧
    (2 ≤ g.state → refused (.migFreeze path tid)) ∧
    (g.state ≤ 1 → g.freezing = false → g.running = none → s.migValid = true → ∃ t, exec (.migFreeze path tid) s = .next t ∧ did t ∧
      t.parts.mig.freezing = true ∧ t.parts.mig.state = g.state ∧ t.parts.mig.logging = true ∧ t.host = s.host ∧
      t.parts.mig.dirty = if g.logging then g.dirty else s.granules) ∧
    (g.state ≠ 1 → refused (.migPass path tid)) ∧
    (g.state = 1 → g.running = none → s.host.link = 2 →
      (s.dirtyNow = [] → ∃ t, exec (.migPass path tid) s = .next t ∧ did t ∧ t.parts.mig = { g with
        running := some false, saved := [], stream := [], count := 0, full := false }) ∧
      (∀ k, s.dirtyNow = [k] → 65600 + 128 ≤ s.od 0x7100 5 → ∃ t, exec (.migPass path tid) s = .next t ∧ did t ∧ t.parts.mig = { g with
        running := some false, saved := [k], stream := s.chunk k, count := 1, full := false
        dirty := g.dirty.filter fun x => x != k } ∧
        t.host.compWr = s.host.compWr ++ [(winAddr (s.od 0x7100 4) - 2 ^ 40, s.chunk k)]) ∧
      (∀ k r, s.dirtyNow = k :: r → s.od 0x7100 5 < 65600 + 128 → ∃ t, exec (.migPass path tid) s = .next t ∧ did t ∧ t.parts.mig = { g with
        running := some false, saved := [], stream := [], count := 0, full := true })) ∧
    (s.migState ≠ 2 → refused (.migFinal path tid)) ∧
    (s.migState = 2 → g.running = none → s.host.link = 2 →
      (s.migShared = true → ∃ t, exec (.migFinal path tid) s = .next t ∧ did t ∧ t.od 0x7100 0x12 = 2 ∧ t.parts = s.parts) ∧
      (s.migShared = false → s.dirtyNow = [] → s.metadata.flatten.length + 128 ≤ s.od 0x7100 5 → ∃ t, exec (.migFinal path tid) s = .next t ∧
        did t ∧ t.parts.mig = { g with
          running := some true, saved := [], stream := s.metadata.flatten, count := s.metadata.length, full := false })) ∧
    (g.running = none → exec .migPassEnd s = .next s) ∧
    (∀ final, g.running = some final → ∃ t d, exec .migPassEnd s = .next t ∧ t.parts.mig.running = none ∧
      t.parts.mig.pass = (g.pass + 1) % 256 ∧ t.host.compWr = s.host.compWr ++ [(winAddr (s.od 0x7100 4) - 2 ^ 40 + g.stream.length, d)] ∧
      num8 d 0 1 = 0x0F ∧ num8 d 1 1 = g.pass % 256 ∧ t.od 0x7100 0x11 = g.stream.length + d.length ∧
      t.od 0x7100 0x12 = (if g.full then 1 else 0) ∧
      ((final && !g.full) = true → t.parts.mig.state = 3 ∧ t.parts.mig.logging = false ∧ t.parts.mig.dirty = []) ∧
      ((final && !g.full) = false → t.parts.mig.state = g.state ∧ t.parts.mig.logging = g.logging ∧ t.parts.mig.dirty = g.dirty)) ∧
    (g.state ≠ 2 → g.state ≠ 3 → refused (.migThaw path tid)) ∧
    ((g.state = 2 ∨ g.state = 3) → g.running = none → ∃ t, exec (.migThaw path tid) s = .next t ∧ did t ∧ t.parts.mig = Mig.reset ∧
      t.host.ctxs.map (·.1) = s.host.ctxs.map (·.1) ∧ (∀ x ∈ t.host.ctxs, x.2.part = s.migPart → x.2.frozen = false) ∧
      t.host.queues = s.host.queues) ∧
    (∀ records binding, (g.state = 0 ∨ g.state = 4) → g.freezing = false → s.migValid = true → s.migAttr.resetting = false →
      s.heldBy s.migPart = 0 →
      (records.length < 64 → ∃ t, exec (.migRestore path tid records binding) s = .next t ∧ did t ∧ t.od 0x7100 0x12 = 3 ∧
        (t.od 0x7100 1).testBit 1 = true ∧ t = { s with dict := t.dict }) ∧
      (∀ p body e, s.host.plan = some p → readRecords (records.take (s.od 0x7100 5)) (s.od 0x7100 5 / 64) = body ++ [e] → e.kind = 0x0F →
        e.pass = (match g.applied with | some a => (a + 1) % 256 | none => 0) →
        slice e.data 0 32 = sm3 (records.take (sumN (body.map (·.size)))) → slice e.data 32 32 = p.digest →
        (∀ u, e.key % 2 = 0 → s.applyChunks p body = some u → ∃ t, exec (.migRestore path tid records binding) s = .next t ∧ did t ∧
          t.mem = u.mem ∧ t.seq = u.seq ∧ t.od 0x7100 0x12 = 0 ∧ t.parts.mig = { u.parts.mig with state := 4, applied := some e.pass } ∧
          t.od 0x7100 0x11 = sumN (body.map (·.size)) + e.size) ∧
        (e.key % 2 = 1 → body = [] → ∃ t, exec (.migRestore path tid records binding) s = .next t ∧ did t ∧ t.parts.mig = Mig.reset ∧
          t.od 0x7100 0x12 = 0 ∧ t.od 0x7100 0x13 = 0 ∧ t.mem = s.mem ∧ t.seq.table = s.seq.table))) ∧
    (g.state ≠ 1 → g.state ≠ 4 → refused (.migAbort path tid)) ∧
    (g.state = 1 → ∃ t, exec (.migAbort path tid) s = .next t ∧ did t ∧ t.parts.mig = Mig.reset ∧ t.parts.parts = s.parts.parts ∧
      t.mem = s.mem) ∧
    (∀ p, g.state = 4 → find? s.parts.parts s.migPart = some p → ∃ t, exec (.migAbort path tid) s = .next t ∧ did t ∧
      t.parts.mig = Mig.reset ∧ (get t.parts.parts s.migPart Part.reset).resetting = true ∧ ∀ x ∈ t.seq.frames, x.2.1 < 4096)

/-- Fault handling (R456, R457, R460 to R465, R470, R471, R474, R476, R478). -/
def Obligations.FaultsAreRecorded : Prop :=
  (∀ s : State, (s.faults.hwLatch = true ∨ s.bring.row < 5 ∨ s.faults.reports = [] → exec .faultReport s = .next s)) ∧
  (∀ (s : State) (r : Report) (rest : List Report), s.faults.reports = r :: rest → s.faults.hwLatch = false → 5 ≤ s.bring.row →
    let level := levelOf r.code.toNat
    let src := sourceOf r.code.toNat
    let good := level ≤ 4 ∧ src ∈ faultSources
    let fresh := ∀ x ∈ s.faults.recs, x.merges r s.tick.now = false
    let opened := fun (x : Rec) => x.num = s.faults.lastNum + 1 ∧ x.time = r.time ∧ x.lockind = BitVec.ofNat 4 r.lockind ∧
      x.loc = BitVec.ofNat 20 r.loc ∧ x.detail = r.detail ∧ x.ctx = BitVec.ofNat 10 r.ctx ∧ x.ack = false ∧ x.repeats = 0
    (good → src ≠ 0 → ∃ t, exec .faultReport s = .next t ∧ t.od 0x3100 (0x40 + src) = (s.od 0x3100 (0x40 + src) + 1) % 2 ^ 64) ∧
    (good → level = 0 → (s.od 0x3000 7).testBit src = false → r.code ≠ 0x010B → r.code ≠ 0x0201 → ∃ t, exec .faultReport s = .next t ∧
      t.faults = { s.faults with reports := rest } ∧ t.time = s.tick.time) ∧
    (good → (level = 1 ∨ level = 3) → r.code ≠ 0x1704 → r.code ≠ 0x3045 → fresh → s.faults.recs.length < 1024 →
      ∃ t x, exec .faultReport s = .next t ∧ t.faults.recs = s.faults.recs ++ [x] ∧ opened x ∧ x.code = r.code ∧
        t.faults.lastNum = s.faults.lastNum + 1 ∧ t.faults.reports = rest ∧ x.timer = true ∧
        (level = 1 → t.faults.flash = s.faults.flash ∧ t.faults.lastF34 = s.faults.lastF34) ∧
        (level = 3 → t.faults.flash = (x.bytes :: s.faults.flash).take 64 ∧ t.faults.lastF34 = t.now) ∧
        ((find? s.host.queues 0).isSome = true → t.host.notices = s.host.notices ++
          [{ Notice.reset with status := 0x0300, subj := x.num.toNat, body := x.bytes }])) ∧
    (∀ x, good → level = 1 → r.code ≠ 0x1704 → s.faults.recs = [x] → x.merges r s.tick.now = true → ∃ t, exec .faultReport s = .next t ∧
      t.faults.recs = [x.again] ∧ t.faults.lastNum = s.faults.lastNum ∧ t.faults.reports = rest) ∧
    (¬ good → (∀ x ∈ s.faults.recs, x.merges { r with code := 0x0003 } s.tick.now = false) → s.faults.recs.length < 1024 →
      ∃ t x, exec .faultReport s = .next t ∧ t.faults.recs = s.faults.recs ++ [x] ∧ opened x ∧ x.code = 0x0003) ∧
    (good → level = 2 → fresh → r.lockind ≠ 1 → r.model = false → r.code ≠ 0x210A → r.code ≠ 0x2604 → r.code ≠ 0x2008 → r.ctx ≠ 0 →
      s.isCtx r.ctx = true → ∃ t, exec .faultReport s = .next t ∧ r.ctx ∈ t.seq.torn) ∧
    (good → level = 4 → ∃ t, exec .faultReport s = .next t ∧ t.faults.safe = true)) ∧
  (∀ s : State, (s.faults.reports = [] → exec .reportResend s = .next s) ∧
    (s.faults.reports ≠ [] → ∃ t, exec .reportResend s = .next t ∧ t.od 0x3100 0x40 = (s.od 0x3100 0x40 + 1) % 2 ^ 64 ∧
      t = { s with dict := t.dict })) ∧
  (∀ (s : State) (x : Rec) (num : Nat), s.faults.recs = [x] → x.num.toNat = num →
    (x.timer = false ∨ x.ack = true ∨ s.faults.hwLatch = true → exec (.escalationTimeout num) s = .next s) ∧
    (x.timer = true → x.ack = false → s.faults.hwLatch = false → ∃ t, exec (.escalationTimeout num) s = .next t ∧ (t.od 0x3100 1).testBit 5 = true ∧
      ((s.od 0x3000 4).testBit (escBit (levelOf x.code.toNat)) = false → t.faults.recs = [{ x with unh := true, timer := false }] ∧
        t.faults.faultN = true ∧ t.faults.safe = s.faults.safe) ∧
      ((s.od 0x3000 4).testBit (escBit (levelOf x.code.toNat)) = true → t.faults.safe = true ∧
        t.faults.recs.head? = some { x with unh := true, timer := false, esc := true }))) ∧
  (∀ (s : State) (path : Path) (tid num : Nat), s.lets path 1 →
    (num < 4096 ∨ num = 0xFFFF → ∃ t, exec (.faultAck path tid num) s = .next t ∧ Answered path 0x82 tid 0x3100 3 [] s t ∧
      t.faults.recs = s.faults.recs.map fun x => if num = 0xFFFF ∨ x.num.toNat = num then { x with ack := true, timer := false } else x) ∧
    (4096 ≤ num → num ≠ 0xFFFF → ∃ t, exec (.faultAck path tid num) s = .next t ∧ Aborted path tid 0x3100 3 0x00030001 s t)) ∧
  (∀ (s : State) (k : Nat), k < 8 → (k % 4 = 3 ∨ k ∈ s.faults.removed ∨ s.faults.hwLatch = true) → exec (.fcVote k) s = .next s) ∧
  (∀ (s : State) (k : Nat), k < 8 → k % 4 ≠ 3 → k ∉ s.faults.removed → s.faults.hwLatch = false →
    ((∀ c ∈ s.faults.removed, c / 4 ≠ k / 4) → ∃ t, exec (.fcVote k) s = .next t ∧ Reported 0x1004 12 k s t ∧
      ((∀ x ∈ s.faults.dissent, x.1 ≠ k) → t.faults.removed = s.faults.removed ∧ (k, s.now) ∈ t.faults.dissent) ∧
      ((∃ x ∈ s.faults.dissent, x.1 = k ∧ s.now < x.2 + dayNs) → t.faults.removed = s.faults.removed ++ [k])) ∧
    ((∃ c ∈ s.faults.removed, c / 4 = k / 4) →
      (s.faults.activeX1 = (k / 4 == 1) → s.faults.standby = true → ∃ t, exec (.fcVote k) s = .next t ∧
        t.faults.activeX1 = !s.faults.activeX1 ∧ t.faults.standby = false ∧ (t.od 0x3100 1).testBit 4 = true ∧
        Reported 0x1005 12 (4 * (k / 4)) s t) ∧
      (s.faults.activeX1 = (k / 4 == 1) → s.faults.standby = false → exec (.fcVote k) s = .next s) ∧
      (s.faults.activeX1 ≠ (k / 4 == 1) → ∃ t, exec (.fcVote k) s = .next t ∧ t.faults = { s.faults with standby := false } ∧
        (t.od 0x3100 1).testBit 4 = true))) ∧
  (∀ s : State, (s.faults.hwLatch = true → exec .fcLatch s = .next s) ∧
    (s.faults.hwLatch = false → ∃ t, exec .fcLatch s = .next t ∧ t.faults.hwLatch = true ∧ t.faults.faultN = true ∧ t.faults.replace = true ∧
      t.mayGather = false ∧ t.faults.recs = s.faults.recs ∧ t.faults.flash.tail = s.faults.flash.take 63)) ∧
  (∀ (s : State) (a b c d : Nat), s.faults.injArmed = some (a, b, c, d) →
    (a ≠ 3 ∨ d ≠ 1 ∨ ∃ x ∈ s.cores, x.2.injNext.isSome = true) → ∃ t, exec .injExpiry s = .next t ∧
    t.faults.injArmed = none ∧ t.faults.injState = 3 ∧ t.cores.map (·.1) = s.cores.map (·.1) ∧ ∀ x ∈ t.cores, x.2.injNext = none) ∧
  ∀ (s : State) (path : Path) (tid : Nat), s.lets path 2 →
    let did := fun (t : State) => Answered path 0x82 tid 0x3100 0x0F [] s t
    (∃ t, exec (.clearRecoveryCounter path tid) s = .next t ∧ did t ∧ t.faults = { s.faults with recovery := 0 }) ∧
    (∃ t, exec (.clearReplacementFlag path tid) s = .next t ∧ did t ∧ t.faults.replace = false ∧ t.faults.recs = s.faults.recs ∧
      (t.faults.faultN = false ↔ s.faults.safe = false ∧ s.faults.hwLatch = false ∧ (∀ d ∈ s.faults.diesOut, 8 ≤ d) ∧
        ∀ r ∈ s.faults.recs, r.unh = false ∨ r.ack = true)) ∧
    (∃ t, exec (.clearLatched path tid) s = .next t ∧ did t ∧ t.faults.latched = false ∧
      (s.faults.latched = false → t.faults = s.faults) ∧
      (s.faults.latched = true → t.faults.exits = [] ∧ t.faults.safe = (s.faults.safe && !s.exitReady)))

/-- The safe state and die events (R468 to R473, R487 to R491). -/
def Obligations.SafeStateAndDies : Prop :=
  (∀ (s : State) (path : Path) (tid : Nat), s.lets path 2 →
    (s.faults.safe = false → (s.stepping = false ∨ s.seq.retrying = 0) → ∃ t, exec (.safeEnter path tid) s = .next t ∧
      Answered path 0x82 tid 0x3000 0x0E [] s t ∧ t.faults.safe = true ∧ t.faults.causes = [4] ∧ t.power.arith = false ∧
      (∀ c, (t.core c).run = false) ∧ (∀ q, (t.queue q).cmd = none) ∧ (t.od 0x3100 1).testBit 0 = true ∧ t.faults.faultN = true ∧
      ReportedAmong 0x400C 0 0 s t) ∧
    (∃ t, exec (.safeExit path tid) s = .next t ∧ Answered path 0x82 tid 0x3000 0x0F [] s t ∧
      t = { s with dict := t.dict, faults := { s.faults with causes := s.faults.causes.filter fun c => c != 4 } })) ∧
  (∀ s : State,
    (s.exitReady = false ∨ s.faults.latched = true → exec .safeStateExit s = .next s) ∧
    (s.exitReady = true → s.faults.latched = false →
      (s.od 0x3000 3 ≤ s.exits24 → ∃ t, exec .safeStateExit s = .next t ∧ t.faults.latched = true ∧ t.faults.safe = true ∧
        t.faults.replace = true ∧ (t.od 0x3100 1).testBit 6 = true) ∧
      (s.exits24 < s.od 0x3000 3 → ∃ t, exec .safeStateExit s = .next t ∧ t.faults.safe = false ∧ t.faults.causes = [] ∧
        t.faults.exits = s.faults.exits ++ [s.now] ∧
        t.faults.recovery = (if s.faults.recovery = BitVec.allOnes 32 then s.faults.recovery else s.faults.recovery + 1) ∧
        t.power.arith = (s.bring.pwrEn && !s.power.lossSeq && !s.faults.hwLatch) ∧ (1 < s.members → t.span.hold = true)))) ∧
  (∀ (s : State) (path : Path) (tid : Nat), s.lets path 1 →
    ((s.coh.dead = false ∨ s.host.link ≠ 2) → (∃ t, exec (.admitResume path tid) s = .next t ∧ Aborted path tid 0x3100 5 0x00030003 s t) ∧
      ∃ t, exec (.admitFresh path tid) s = .next t ∧ Aborted path tid 0x3100 5 0x00030003 s t) ∧
    (s.coh.dead = true → s.host.link = 2 →
      (∃ t, exec (.admitResume path tid) s = .next t ∧ Answered path 0x82 tid 0x3100 5 [] s t ∧ t.coh = { s.coh with dead := false } ∧
        t.host.queues = s.host.queues) ∧
      ∃ t, exec (.admitFresh path tid) s = .next t ∧ Answered path 0x82 tid 0x3100 5 [] s t ∧ t.coh.dead = false ∧
        find? t.host.queues 0 = none ∧ ∀ x ∈ s.host.ctxs, x.1 ≠ 0 → x.2.kind ≠ 1 → x.2.dying = false → (x.1, none) ∈ t.host.gone)) ∧
  (∀ (s : State) (p : Plan) (image : List Byte), s.host.plan = some p → s.faults.reload = true → s.faults.safe = false → s.seq.phase = .idle →
    let w := sect (sectionsOf image) 6
    (image.length = p.len → planDigest image = p.digest → ∃ t, exec (.weightReload image) s = .next t ∧ t.faults.reload = false ∧
      t.mem = (s.layWeights (slice image w.off w.len)).mem) ∧
    ((image.length ≠ p.len ∨ planDigest image ≠ p.digest) → ∃ t, exec (.weightReload image) s = .next t ∧ Reported 0x400B 0 0 s t ∧
      t = { s with faults := t.faults } ∧ t.faults.reload = true)) ∧
  (∀ (s : State) (d : Nat), d < 8 → s.faults.diesOut.contains d = false →
    let out := fun (code : Nat) (t : State) => d ∈ t.faults.diesOut ∧ d ∈ t.trellis.lost ∧ t.stackUp (2 * d) = false ∧
      t.stackUp (2 * d + 1) = false ∧ (s.seq.fallback = none → t.seq.fallback = some d) ∧ (t.od 0x3100 1).testBit 2 = true ∧
      t.faults.faultN = true ∧ ReportedAmong code 6 d s t ∧
      d ∉ t.faults.diesBack ∧ (t.od 0x6000 1).testBit 2 = true ∧
      (∀ e ∈ edgesOf d, (∀ x ∈ edgeEnds e, x ∉ s.trellis.lost) → ReportedAmong 0x3488 4 e s t) ∧
      ((∃ x ∈ s.faults.diesOut, x < 8) → ReportedAmong 0x4047 6 d s t) ∧
      ((∀ x ∈ s.faults.rejoined, x.1 ≠ d) → t.faults.diesLost = s.faults.diesLost) ∧
      ((∃ x ∈ s.faults.rejoined, x.1 = d ∧ s.now < x.2 + 3600000000000) → d ∈ t.faults.diesLost)
    (∃ t, exec (.dclkLoss d) s = .next t ∧ out 0x3041 t) ∧ (∃ t, exec (.dieLockstep d) s = .next t ∧ out 0x3042 t) ∧
      ∃ t, exec (.dieHung d) s = .next t ∧ out 0x3043 t) ∧
  (∀ (s : State) (d : Nat), d < 8 →
    (s.dieAway d = false → exec (.dieReady d) s = .next s ∧ exec (.dieLost d) s = .next s) ∧
    (s.dieAway d = true →
      (∃ t, exec (.dieReady d) s = .next t ∧ d ∈ t.faults.diesBack ∧ t.faults.diesOut = s.faults.diesOut ∧ t.faults.diesLost = s.faults.diesLost ∧
        t = { s with faults := t.faults, bring := t.bring, trellis := t.trellis, cellar := { s.cellar with retired := t.cellar.retired } } ∧
        (∀ g, g ∈ t.trellis.deadR ↔ g ∈ s.trellis.deadR ∧ (ownerDie g ≠ d ∨ g ∈ s.bring.recRouters)) ∧
        (∀ p ∈ t.trellis.pkts, ownerDie (p.gx, p.gy) ≠ d) ∧ (∀ b ∈ t.trellis.bufs, ownerDie (b.gx, b.gy) ≠ d) ∧
        ∀ p, p ∈ t.cellar.retired ↔ p ∈ s.cellar.retired ∧ (caskRouter p ∉ s.trellis.deadR ∨ caskRouter p ∈ t.trellis.deadR)) ∧
      ∃ t, exec (.dieLost d) s = .next t ∧ d ∈ t.faults.diesLost ∧ (t.stack (2 * d)).lost = true ∧ (t.stack (2 * d + 1)).lost = true ∧
        Reported 0x3044 6 d s t ∧ (t.od 0x3100 1).testBit 3 = true ∧ t.mem = s.mem)) ∧
  ∀ (s : State) (d : Nat), (d = 8 ∨ d = 9) →
    (d ∈ s.faults.diesOut → exec (.ioDieLost d) s = .next s) ∧
    (d ∉ s.faults.diesOut → ∃ t, exec (.ioDieLost d) s = .next t ∧ d ∈ t.faults.diesOut ∧ ReportedAmong 0x4048 6 d s t ∧
      (s.seq.instances = 2 → t.seq.instances = 1 ∧ t.seq.onX1 = (d == 8) ∧
        (s.seq.onX1 = (d == 9) → ReportedAmong 0x1602 0 0 s t ∧ (t.od 0x7200 1).testBit 1 = true)) ∧
      (s.seq.instances ≠ 2 → s.seq.onX1 = (d == 9) → t.seq.instances = 0 ∧ t.faults.safe = true) ∧
      (s.seq.instances ≠ 2 → s.seq.onX1 ≠ (d == 9) → t.seq = s.seq) ∧
      (s.faults.activeX1 = (d == 9) → s.faults.standby = true → t.faults.activeX1 = !s.faults.activeX1 ∧ t.faults.standby = false))

/-- Power and clocks (R494, R495, R497, R500, R503, R523, R526). -/
def Obligations.FeedsPhasesAndClocks : Prop :=
  (∀ (s : State) (n : Nat), n < 2 →
    let f := s.feed n
    let other := s.feed (1 - n)
    let event := fun (code b : Nat) (g : Feed) (t : State) => t.feed n = g ∧ t.feed (1 - n) = other ∧ t.mem = s.mem ∧
      (s.power.regsOn = false → t = { s with power := t.power } ∧ t.power.regsOn = false) ∧
      (s.power.regsOn = true → (t.od 0x2000 1).testBit b = true ∧
        (g.on = true ∨ other.on = true → Reported code 0 0 s t ∧ t = { s with power := t.power, faults := t.faults, dict := t.dict } ∧
          t.power.lossSeq = s.power.lossSeq) ∧
        (g.on = false → other.on = false → s.power.lossSeq = false → t.power.lossSeq = true ∧ t.power.arith = false ∧
          ReportedAmong code 0 0 s t ∧ ∀ c, (t.core c).run = false))
    (∃ t, exec (.feedReversed n) s = .next t ∧ event 0x1083 3 { f with on := false, reversed := true } t) ∧
    (∃ t, exec (.feedLost n) s = .next t ∧
      event 0x1082 (1 + n) { f with on := false, low := false, overvolt := false, fuse := false, trips := 0 } t) ∧
    (f.on = false → exec (.feedLow n) s = .next s ∧ exec (.feedTripped n) s = .next s) ∧
    (f.on = true → (∃ t, exec (.feedLow n) s = .next t ∧ event 0x0081 0 { f with low := true } t) ∧
      ∃ t, exec (.feedTripped n) s = .next t ∧ event 0x1085 5 { f with on := false, fuse := true, trips := f.trips + 1 } t) ∧
    (∃ t, exec (.feedOvervolt n) s = .next t ∧ event 0x1084 4 { f with on := false, low := false, overvolt := true } t) ∧
    let back := fun (g : Feed) (t : State) => t.feed n = g ∧ t.feed (1 - n) = other ∧ t.faults = s.faults ∧ t.mem = s.mem ∧
      (s.power.regsOn = true ∨ s.bring.pwrEn = false → t = { s with power := t.power } ∧ t.power.regsOn = s.power.regsOn) ∧
      (s.power.regsOn = false → s.bring.pwrEn = true → s.power.stayOff = false → g.good = true → t.power.regsOn = true ∧
        t.bring.row = 0 ∧ t.bring.state = 0 ∧ t.bring.times = [])
    (∃ t, exec (.feedReturn n) s = .next t ∧ back { f with on := !f.fuse, low := false, overvolt := false, reversed := false } t) ∧
    (f.fuse = true → f.trips < 2 → ∃ t, exec (.fuseReclose n) s = .next t ∧
      back { f with fuse := false, on := !f.reversed && !f.overvolt } t) ∧
    (f.fuse = false ∨ 2 ≤ f.trips → exec (.fuseReclose n) s = .next s)) ∧
  (∀ s : State, (s.power.lossSeq = false → exec .regulatorsOff s = .next s) ∧
    (s.power.lossSeq = true → ∃ t, exec .regulatorsOff s = .next t ∧ t.pending = s.pending ∧ t.mem = [] ∧ t.cores = [] ∧ t.reqs = [] ∧
      t.cellar = Cellar.reset ∧ t.seq = SeqEng.reset ∧ t.host = AbHost.reset ∧ t.span = Span.reset ∧ t.time = 0 ∧
      t.faults = { Faults.reset with flash := s.faults.flash, replace := s.faults.replace, recovery := s.faults.recovery } ∧
      t.sec.epoch = s.sec.epoch ∧ t.sec.minSvn = s.sec.minSvn ∧ t.bring.maps = s.bring.maps ∧ t.bring.pwrEn = s.bring.pwrEn ∧
      (∀ i j, j < 256 → flashKept (odKey i j) = false → t.od i j = odReset (odKey i j)) ∧
      (∀ i j, j < 256 → flashKept (odKey i j) = true → (i, j) ≠ (0x2300, 1) → t.od i j = s.od i j) ∧ t.od 0x2300 1 = s.ageHours ∧
      (t.power.regsOn = true ↔ s.bring.pwrEn = true ∧ s.power.stayOff = false ∧ (s.power.feedA.good = true ∨ s.power.feedB.good = true)))) ∧
  (∀ (s : State) (bank phase : Nat), bank < 2 → phase < 14 → s.power.regsOn = true → (bank, phase) ∉ s.power.phases →
    let left := 28 - (s.power.phases.length + 1)
    let loc := 16 * bank + phase
    let noted := fun (code : Nat) (t : State) => Reported code 10 loc s t ∧ (t.od 0x2000 1).testBit 6 = true ∧
      t.power.phases = s.power.phases ++ [(bank, phase)] ∧ t = { s with
        power := t.power, faults := t.faults, dict := t.dict
        bring := { s.bring with recService := (s.bring.recService + 1) % 2 ^ 32 } }
    ∃ t, exec (.regPhaseLost bank phase) s = .next t ∧
      (24 ≤ left → noted 0x1086 t ∧ t.od 0x2000 1 = s.od 0x2000 1 ||| 2 ^ 6) ∧
      (20 ≤ left → left < 24 → noted 0x1086 t ∧ (t.od 0x2000 1).testBit 8 = true) ∧
      (6 ≤ left → left < 20 → noted 0x4088 t) ∧
      (2 ≤ left → left < 6 → s.power.lossSeq = false → t.power.lossSeq = true ∧ t.power.arith = false ∧ t.power.stayOff = true ∧
        ReportedAmong 0x4088 10 loc s t) ∧
      (left < 2 → t.power.regsOn = false ∧ t.power.stayOff = true ∧ t.mem = [] ∧ t.cores = [])) ∧
  (∀ (s : State) (d : Nat) (short : Bool), d < 10 →
    (s.power.regsOn = false → exec (.tilePhaseLost d short) s = .next s) ∧
    (s.power.regsOn = true → ∃ t, exec (.tilePhaseLost d short) s = .next t ∧ t.power.tileLost = s.power.tileLost + 1 ∧
      t.bring.recService = (s.bring.recService + 1) % 2 ^ 32 ∧ Reported 0x1087 6 d s t ∧ (t.od 0x2000 1).testBit 7 = true ∧
      (short = true → d < 8 → (t.throtOf d).tile = 2 ∧ 2 ≤ (t.throtOf d).level) ∧
      ∀ e, e ≠ d ∨ short = false → t.throtOf e = s.throtOf e)) ∧
  ∀ s : State,
    (s.power.holdover = true → exec .refclkHoldover s = .next s) ∧
    (s.power.holdover = false → exec .refclkLost s = .next s ∧ ∃ t, exec .refclkHoldover s = .next t ∧ Reported 0x10CA 0 0 s t ∧
      t.power = { s.power with holdover := true } ∧ t.bring.refclk = false ∧ (t.od 0x2100 8).testBit 5 = true) ∧
    (s.power.holdover = true → ∃ t, exec .refclkLost s = .next t ∧ Reported 0x40CB 0 0 s t ∧ t = { s with faults := t.faults }) ∧
    ∃ t, exec .refclkReturn s = .next t ∧ t.power = { s.power with holdover := false } ∧ t.bring = { s.bring with refclk := true } ∧
      (∀ x ∈ t.faults.f4, x ∈ s.faults.f4 ∧ x.1 % 2 ^ 16 ≠ 0x40CB)

/-- Throttles, the cap and background work (R501 to R506, R510, R511, R514, R517 to R519, R591). -/
def Obligations.ThrottlesCapsAndBackground : Prop :=
  (∀ (s : State) (d : Nat), d < 8 →
    let x := s.throtOf d
    let othersKept := fun (t : State) => ∀ e, e ≠ d → t.throtOf e = s.throtOf e
    (∀ depth, (depth < s.od 0x2100 0xB → exec (.droopStretch d depth) s = .next s) ∧
      (s.od 0x2100 0xB ≤ depth → ∃ t, exec (.droopStretch d depth) s = .next t ∧ Reported 0x00C1 6 d s t ∧ othersKept t ∧
        t.throtOf d = { x with stretch := max x.stretch (min 4 (1 + (depth - s.od 0x2100 0xB) / 15)) } ∧
        t.od 0x2100 0x10 % 2 ^ 64 = (s.od 0x2100 0x10 + 1) % 2 ^ 64)) ∧
    (∃ t, exec (.stretchThrottle d) s = .next t ∧ Reported 0x00C2 6 d s t ∧ othersKept t ∧ (t.od 0x2100 8).testBit 3 = true ∧
      t.throtOf d = { x with sustained := max 1 x.sustained }) ∧
    (∃ t, exec (.throttleDecay d) s = .next t ∧ t = { s with power := t.power } ∧ othersKept t ∧ t.throtOf d = { x with
      sustained := x.sustained - 1, current := x.current - 1
      temp := if (s.od 0x2200 1 : Int) ≤ get s.power.temps d (-128) then x.temp else x.temp - 1 }) ∧
    (x.level = 0 → exec (.throttleLong d) s = .next s) ∧
    (0 < x.level → ∃ t, exec (.throttleLong d) s = .next t ∧ Reported 0x10C7 6 d s t ∧ (t.od 0x2100 8).testBit 2 = true ∧
      t.power.longReq = max 1000 (s.power.agreed * (8 - x.level) / 8 / 25 * 25) ∧ t.power.request = t.requestTerms)) ∧
  (∀ s : State,
    (∀ peak, ∃ t, exec (.currentThrottle peak) s = .next t ∧ Reported 0x008A 0 0 s t ∧ (t.od 0x2100 8).testBit 4 = true ∧
      ∀ d, d < 8 → t.throtOf d = { s.throtOf d with
        current := if peak then max 2 (s.throtOf d).current else min 4 ((s.throtOf d).current + 1) }) ∧
    (∀ (d : Nat) (temp : Int), d < 10 →
      (temp < s.od 0x2200 1 → exec (.tempThrottle d temp) s = .next s) ∧
      ((s.od 0x2200 1 : Int) ≤ temp → ∃ t, exec (.tempThrottle d temp) s = .next t ∧ Reported 0x00C4 6 d s t ∧
        get t.power.temps d 0 = temp ∧ (d < 8 → t.throtOf d = { s.throtOf d with temp := min 4 ((s.throtOf d).temp + 1) })) ∧
      (temp < 110 → exec (.dieOvertemp d temp) s = .next s) ∧
      (110 ≤ temp → ∃ t, exec (.dieOvertemp d temp) s = .next t ∧ Reported 0x40CC 6 d s t ∧ get t.power.temps d 0 = temp ∧
        t = { s with power := t.power, faults := t.faults })) ∧
    (s.power.longReq = 0 → exec .requestReturn s = .next s) ∧
    (s.power.longReq ≠ 0 → ∃ t, exec .requestReturn s = .next t ∧ t.power.longReq = 0 ∧ t.power.request = t.requestTerms ∧
      (t.power.request ≠ s.power.request → t.power.freqDirty = true) ∧ t = { s with power := t.power })) ∧
  (∀ (s : State) (path : Path) (tid w : Nat), s.lets path 1 →
    (w = 0 ∨ (1500 ≤ w ∧ w ≤ 5000) → ∃ t, exec (.powerCap path tid w) s = .next t ∧ Answered path 0x82 tid 0x2100 3 [] s t ∧
      t.power = { s.power with capPending := some w } ∧ t.od 0x2100 3 = w) ∧
    (w ≠ 0 → (w < 1500 ∨ 5000 < w) → ∃ t, exec (.powerCap path tid w) s = .next t ∧ Aborted path tid 0x2100 3 0x00030001 s t)) ∧
  (∀ s : State, (s.power.capPending = none → exec .capTaken s = .next s) ∧
    (∀ w, s.power.capPending = some w → ∃ t, exec .capTaken s = .next t ∧ t.power.capPending = none ∧
      t.power.cap = w ∧ t.power.request = t.requestTerms ∧
      (w = 0 → t.power.capReq = 0 ∧ t.power.capStep = 0 ∧ (∀ d, (t.throtOf d).cap = 0) ∧ t.faults = s.faults) ∧
      (w ≠ 0 → let r := capRequest (s.od 0x2100 6) s.inputW s.power.agreed w
        t.power.capReq = r.1 ∧ (lagLevel (s.od 0x2100 6) s.inputW w = 0 ∨ r.2 = false → t.power.capStep = 0) ∧
        (lagLevel (s.od 0x2100 6) s.inputW w ≠ 0 → r.2 = true →
          t.power.capStep = (match s.seq.cur with | some x => x.num | none => s.seq.step) + 2) ∧
        (lagLevel (s.od 0x2100 6) s.inputW w ≠ 0 → (t.od 0x2100 8).testBit 0 = true ∧ ReportedAmong 0x00C3 0 0 s t) ∧
        (r.2 = false → (t.od 0x2100 8).testBit 1 = true ∧ ReportedAmong 0x00C6 0 0 s t) ∧
        ∀ d, d < 8 → (t.throtOf d).cap = lagLevel (s.od 0x2100 6) s.inputW w))) ∧
  (∀ s : State, (s.seq.quiet = false → exec .quietSlotEnd s = .next s) ∧
    (s.seq.quiet = true → ∃ t, exec .quietSlotEnd s = .next t ∧ t.seq = { s.seq with quiet := false } ∧ Unmarks s t ∧
      t = { s with seq := t.seq, cellar := t.cellar, coh := t.coh, dict := t.dict, freeCtr := s.freeCtr + 1 }) ∧
    (∃ t, exec .bgBehind s = .next t ∧ Reported 0x10C9 0 0 s t ∧ (t.od 0x2100 8).testBit 6 = true ∧ t = { s with faults := t.faults, dict := t.dict })) ∧
  (∀ s : State, (s.bring.row < 5 → exec .telemetryTick s = .next s) ∧
    (5 ≤ s.bring.row → ∃ t d, exec .telemetryTick s = .next t ∧ t.time = s.tick.time ∧ d.length = 64 ∧ num8 d 0 8 = t.now ∧
      t.od 0x9000 2 = leNat d ∧ t.dict.samples = (if s.od 0x9000 0x10 = 0 then s.dict.samples else s.dict.samples ++ [d]) ∧
      num8 d 10 2 = s.power.agreed % 2 ^ 16 ∧ t.mem = s.mem ∧ t.cores = s.cores)) ∧
  ∀ s : State,
    (∀ w, s.seq.phase ≠ .idle ∨ s.power.regsOn = false ∨ s.faults.hwLatch = true → exec (.backgroundPiece w) s = .next s) ∧
    (s.seq.phase = .idle → s.power.regsOn = true → s.faults.hwLatch = false →
      let works := fun (w : BgWork) (p : State → Prop) => ∃ t, exec (.backgroundPiece w) s = .next t ∧ p t
      (∀ die, exec (.backgroundPiece (.refresh die)) s = .next s) ∧ (∀ k, exec (.backgroundPiece (.collectorResync k)) s = .next s) ∧
      (works .lastPour fun t => Unmarks s t ∧ t = { s with cellar := t.cellar, coh := t.coh, dict := t.dict }) ∧
      (∀ e g, e < 14 → g < 16 → let x := get s.trellis.groups (16 * e + g) LaneGroup.reset
        let now := fun (t : State) => get t.trellis.groups (16 * e + g) LaneGroup.reset
        let retires := fun (t : State) => now t = { x with retired := true, erring := 0 } ∧ ReportedAmong 0x1482 4 (16 * g + e) s t ∧
          (t.od 0x6000 1).testBit 1 = true
        (x.erring = 0 ∨ x.retired = true → exec (.backgroundPiece (.laneSpare e g)) s = .next s) ∧
        (x.erring ≠ 0 → x.retired = false → works (.laneSpare e g) fun t => if 4 ≤ x.spares then retires t
          else now t = { x with spares := x.spares + 1, erring := x.erring - 1 } ∧ Reported 0x0481 4 (16 * g + e) s t) ∧
        (works (.laneRetrain e g true) fun t => now t = { x with retired := false } ∧ t = { s with trellis := t.trellis }) ∧
        works (.laneRetrain e g false) retires) ∧
      (s.hbm.rows = [] → ∀ left, exec (.backgroundPiece (.rowRepair left)) s = .next s) ∧
      (∀ row rest, s.hbm.rows = row :: rest → (works (.rowRepair true) fun t => t.hbm.rows = rest ∧ row ∈ t.hbm.repaired ∧
          (∀ x ∈ t.hbm.ecc, rowOf x.1 ≠ row) ∧ ReportedAmong 0x1507 3 (row / 2 ^ 21) s t ∧ t.mem = s.mem) ∧
        exec (.backgroundPiece (.rowRepair false)) s =
          .next (({ s with hbm := { s.hbm with rows := rest } } : State).spareChannel (row / 2 ^ 21))) ∧
      (∀ n x, (s.hbm.spares.find? fun x => decide (x.copied < 2 ^ 23)) = some x → works (.spareCopy n) fun t =>
        ∀ y ∈ t.hbm.spares, y.ch = x.ch → y.copied = min (2 ^ 23) (x.copied + n)) ∧
      (∀ sa, (s.channelUp (s.place sa).1 = false → exec (.backgroundPiece (.scrubHbm sa)) s = .next s) ∧
        (s.channelUp (s.place sa).1 = true → works (.scrubHbm sa) fun t => t = ((s.linkRetry (s.place sa).1).readBlock (sa / 64 * 64)).1)) ∧
      (∀ pos i, (∀ x ∈ get s.cellar.sets (2048 * pos + i) [], x.ecc = 0 ∧ x.ecc2 = 0 ∧ x.pinned = false) →
        exec (.backgroundPiece (.scrubCellar pos i)) s = .next s) ∧
      (∀ p g, p < 4 → g < 4 → exec (.backgroundPiece (.spanRetrain p g false)) s = .next s ∧
        works (.spanRetrain p g true) fun t => (t.sport p).retired = (s.sport p).retired.filter (· != g) ∧ t = { s with span := t.span } ∧
          ∀ q, q ≠ p → t.sport q = s.sport q) ∧
      (∀ n, n < 16 → exec (.backgroundPiece (.sauCheck n true)) s = .next s ∧
        ((s.stack n).sauDown = false → works (.sauCheck n false) fun t => (t.stack n).sauDown = true ∧ Reported 0x1542 3 (32 * n) s t ∧
          (t.od 0x5100 1).testBit 0 = true)) ∧
      (∀ die core, die < 8 → core < 10000 → let c := 10000 * die + core
        (get s.power.vcore die 6500 ≠ 8500 → exec (.backgroundPiece (.marginLimit die core)) s = .next s) ∧
        (get s.power.vcore die 6500 = 8500 → works (.marginLimit die core) fun t => ReportedAmong 0x10C8 1 (s.coreLoc c) s t ∧
          (t.od 0x2300 3).testBit 1 = true ∧
          (c ∈ t.faults.retiring ∧ (t.od 0x2300 3).testBit 2 = true ∨ ReportedAmong 0x3045 1 (s.coreLoc c) s t))) ∧
      (s.faults.injArmed = none → exec (.backgroundPiece .inject) s = .next s) ∧
      (∀ a m, s.faults.injArmed = some (2, a, m, 0) → works .inject fun t => t.faults.injArmed = none ∧ t.faults.injState = 2 ∧
        t.hbm = { s.hbm with ecc := put s.hbm.ecc (s.blockAt (s.store a)) (ones8 (m % 256)) } ∧ t.mem = s.mem) ∧
      (∃ t, exec (.backgroundPiece .collectorRestart) s = .next t ∧ t = { s with faults := { s.faults with standby := true } }) ∧
      (∀ d, s.dict.samples = [d] → s.od 0x9000 0x10 ≠ 0 → ∃ t, exec (.backgroundPiece .telemetry) s = .next t ∧ t.dict.samples = [] ∧
        t.host.compWr = s.host.compWr ++ [(winAddr (s.od 0x9000 0x10 + 64 * (s.od 0x9000 0x12 % 2 ^ s.od 0x9000 0x11)) - 2 ^ 40, d)] ∧
        t.od 0x9000 0x12 = s.od 0x9000 0x12 + 1) ∧
      (∀ (die : Nat) (slack : Int), die < 8 → slack < s.od 0x2300 2 → get s.power.vcore die 6500 < 8500 →
        ∃ t, exec (.backgroundPiece (.ageing die slack)) s = .next t ∧ get t.power.vcore die 6500 = get s.power.vcore die 6500 + 25 ∧
          get t.power.slack die 0 = slack ∧ Reported 0x00C5 6 die s t ∧ (t.od 0x2300 3).testBit 0 = true) ∧
      (∀ (n bytes pa room : Nat) (p : Part), find? s.parts.parts n = some p → p.resetting = true → p.freed = true →
        carveAt p.carves p.zeroed = some (pa, room) → let k := min bytes room
        pa + k ≤ s.cellar.wbase ∨ s.cellar.wbase + s.cellar.wlen ≤ pa →
        ∃ t, exec (.backgroundPiece (.carveZero n bytes)) s = .next t ∧
          (∀ b, t.peek b 1 = if pa ≤ b ∧ b < pa + k then [0] else s.peek b 1) ∧
          (p.zeroed + k ≠ p.carveLen → find? t.parts.parts n = some { p with zeroed := p.zeroed + k }) ∧
          (p.zeroed + k = p.carveLen → find? t.parts.parts n = some { p with resetting := false, freed := false, zeroed := 0 } ∧
            ReportedAmong 0x0742 0 0 s t ∧ (t.od 0x7000 1).testBit 1 = true)))

/-- Bring-up (R526, R527, R530 to R536, R538, R539, R541, R546, R547, R549, R550). -/
def Obligations.BringUpRowsInOrder : Prop :=
  (∀ (s : State) (straps : Nat), (s.bring.pwrEn = true → exec (.pwrEnAssert straps) s = .next s) ∧
    (s.bring.pwrEn = false → ∃ t, exec (.pwrEnAssert straps) s = .next t ∧ t.bring.pwrEn = true ∧ t.bring.straps = straps % 64 ∧
      ((s.power.feedA.good = true ∨ s.power.feedB.good = true) → t.power.regsOn = true ∧ t.bring.row = 0 ∧ t.bring.state = 0 ∧ t.bring.times = []) ∧
      (s.power.feedA.good = false → s.power.feedB.good = false → t.power.regsOn = false) ∧
      (s.power.regsOn = true → t.mem = [] ∧ t.cores = [] ∧ t.sec.epoch = s.sec.epoch) ∧
      (s.power.regsOn = false → t = { s with power := t.power, bring := t.bring }))) ∧
  (∀ s : State, (s.power.regsOn = false → exec .pwrEnDeassert s = .next { s with bring := { s.bring with pwrEn := false } }) ∧
    (s.power.regsOn = true → ∃ t, exec .pwrEnDeassert s = .next t ∧ t.bring = { s.bring with pwrEn := false } ∧ t.power.arith = false ∧
      t.power.lossSeq = true ∧ (∀ c, (t.core c).run = false) ∧ t.mem = s.mem ∧ t.faults = s.faults)) ∧
  (∀ (s : State) (o : BringObs), s.bringing = false ∨ 15 < s.bring.row → exec (.bringUpRow o) s = .next s) ∧
  (∀ (s : State) (o : BringObs), s.bringing = true → s.bring.row < 13 → s.bring.state ≠ 8 → s.faults.safe = false →
    let r := s.bring.row
    (r = 3 → o.refclk = false → exec (.bringUpRow o) s = .next { s with bring := { s.bring with refclk := false } }) ∧
    (r ≠ 3 ∨ o.refclk = true → ∃ t, exec (.bringUpRow o) s = .next t ∧ t.bring.row = r + 1 ∧ t.bring.times = s.bring.times ++ [min o.ms 65535] ∧
      (r ≠ 4 ∨ o.image.isSome = true → t.bring.state = rowState (r + 1) ∧ t.faults.safe = false) ∧
      (r < 3 ∨ r = 7 → t = { s with bring := t.bring }) ∧
      (r = 3 → t.power = { s.power with holdover := false } ∧ t.bring.refclk = true) ∧
      (r = 4 → (o.image = none → t.bring.state = 9 ∧ t.faults.safe = true ∧ t.latchOnly = true ∧ ReportedAmong 0x4801 0 0 s t) ∧
        (∀ v w, o.image = some (v, w) → t.sec.runSvn = v % 2 ^ 16 ∧ t.sec.runVersion = w % 2 ^ 32 ∧
          t.faults.reports.length = s.faults.reports.length + o.badImages ∧
          (0 < o.badImages → ReportedAmong 0x1802 0 0 s t ∧ (t.od 0x8000 1).testBit 4 = true))) ∧
      (r = 5 → t.sec.nonce = s.freeStr 32 ∧ t.sec.denied = 0 ∧ (o.pufOk = true → s.sec.saturated = false → t.faults = s.faults) ∧
        (o.pufOk = false → ReportedAmong 0x4803 0 0 s t) ∧ (s.sec.saturated = true → ReportedAmong 0x4806 0 0 s t)) ∧
      (r = 6 → t.bring.flashOk = o.flash ∧ (∀ d, d < 2 → d ∉ o.flash → ReportedAmong 0x1842 11 d s t) ∧
        (o.rewritten = true → ReportedAmong 0x0841 0 0 s t) ∧ (o.record = none → ReportedAmong 0x4844 0 0 s t) ∧
        ∀ f n, o.record = some (f, n) → t.bring.recFactory = f ∧ t.bring.recService = n ∧
          (s.sec.runSvn < s.sec.minSvn → 5 ∈ t.sec.active ∧ ReportedAmong 0x4808 0 0 s t) ∧
          (s.sec.minSvn ≤ s.sec.runSvn → t.sec.active = s.sec.active)) ∧
      (r = 8 → (∀ d, d < 8 → (∀ x ∈ (s.dieMap d).bad, x ∈ (t.dieMap d).bad) ∧ (∀ x, x < 10240 → (d, x) ∈ o.badCores → x ∈ (t.dieMap d).bad) ∧
          get t.bring.newDef d 0 = (o.newCores.filter (·.1 == d)).length ∧ (d ∈ o.newCores.map (·.1) → ReportedAmong 0x1843 6 d s t) ∧
          (240 < (t.dieMap d).bad.length ∨ d ∈ o.badDies → d ∈ t.faults.diesLost ∧
            (d ∉ s.faults.diesLost → ReportedAmong 0x3044 6 d s t ∧ d ∈ t.bring.unusable))) ∧
        (∀ p, p < 512 → p ∈ o.badCasks → p ∈ t.cellar.dead) ∧ t.cellar.ht = homeTable t.cellar.dead ∧ (∀ g ∈ o.badRouters, g ∈ t.trellis.deadR) ∧
        (o.badIo = true → ∃ x, x < 2 ∧ ReportedAmong 0x4048 6 (8 + x) s t)) ∧
      (r = 9 → (o.firmwareOk = false → ReportedAmong 0x4846 0 0 s t) ∧
        (o.standbyOk = false → t.faults.standby = false ∧ ReportedAmong 0x1006 12 4 s t)) ∧
      (r = 10 → t.trellis.roles = (List.range 14).map fun e => s.od 0x6000 (0x10 + e)) ∧
      (r = 11 → t.hbm.spareGib = s.od 0x5000 3 ∧ (∀ n, n < 16 → n ∈ o.badStacks → (t.stack n).lost = true ∧ ReportedAmong 0x150B 3 (32 * n) s t) ∧
        (s.sec.zeroing = true → t.sec.zeroing = false ∧ ∀ b, b < 2 ^ 40 → t.peek b 1 = [0])) ∧
      (r = 12 → t.od 0x2100 6 = o.pfix ∧ t.power.arith = !s.power.lossSeq))) ∧
  (∀ (s : State) (o : BringObs), s.bringing = true → s.bring.row = 13 →
    ∃ t, exec (.bringUpRow o) s = .next t ∧ 14 ≤ t.bring.row ∧ (∃ l, t.bring.times = s.bring.times ++ min o.ms 65535 :: l) ∧
      (∀ p, p < 4 → (t.sport p).enabled = (o.ports.contains p && s.expected p)) ∧
      (s.host.link ≠ 2 → (o.lanes = 8 ∨ o.lanes = 16) → 1 ≤ o.modules → o.modules ≤ 4 → t.host.link = 2 ∧ t.host.width = o.lanes)) ∧
  (∀ (s : State) (o : BringObs), s.bringing = true → s.bring.row = 14 →
    let passed := s.od 0xA000 0xC = 1 ∧ ∀ p, p < 4 → s.expected p = true → s.portUp p = true ∧ s.helloOk p = true
    (¬ passed → exec (.bringUpRow o) s = .next s) ∧
    (passed → ∃ t, exec (.bringUpRow o) s = .next t ∧ t.bring.topoOk = true ∧ t.faults = s.faults ∧
      (s.faults.safe = false → t.isReady = true ∧ t.bring.row = 16) ∧ (s.faults.safe = true → t.bring.state = s.bring.state ∧ t.bring.row = 15))) ∧
  (∀ (s : State) (o : BringObs), s.bringing = true → s.bring.row = 15 → (s.faults.safe = true → exec (.bringUpRow o) s = .next s) ∧
    (s.faults.safe = false → ∃ t, exec (.bringUpRow o) s = .next t ∧ t.isReady = true ∧ t.bring.row = 16 ∧
      t = { s with bring := t.bring, host := t.host } ∧ t.host = { s.host with notices := t.host.notices } ∧
      t.host.notices = s.host.notices ++ (if (find? s.host.queues 0).isSome then [{ Notice.reset with status := 0x0301 }] else []))) ∧
  (∀ s : State, (s.bringing = false ∨ 16 ≤ s.bring.row ∨ s.bring.row = 3 ∨ s.bring.row = 14 → exec .bringTimeout s = .next s) ∧
    (s.bringing = true → s.bring.row < 16 → s.bring.row ≠ 3 → s.bring.row ≠ 14 → ∃ t, exec .bringTimeout s = .next t ∧
      Reported 0x4845 0 0 s t ∧ t = { s with faults := t.faults })) ∧
  ∀ (s : State) (path : Path) (tid d : Nat), s.lets path 2 →
    (8 ≤ d → ∃ t, exec (.dieTest path tid d) s = .next t ∧ Aborted path tid 0xA000 0x20 0x00030001 s t) ∧
    (d < 8 → (s.faults.safe = true ∨ ∃ e ∈ s.faults.diesOut, e < 8) →
      ∃ t, exec (.dieTest path tid d) s = .next t ∧ Aborted path tid 0xA000 0x20 0x00030003 s t) ∧
    (d < 8 → s.faults.safe = false → (∀ e ∈ s.faults.diesOut, 8 ≤ e) → ∃ t, exec (.dieTest path tid d) s = .next t ∧
      Answered path 0x82 tid 0xA000 0x20 [] s t ∧ t.bring.testing = some d ∧ d ∈ t.faults.diesOut ∧ ReportedAmong 0x3043 6 d s t ∧
      (t.od 0x3100 1).testBit 2 = true ∧ t.mem = s.mem)

/-- Plans (R11, R13, R14, R186, R260, R421, R422, R549). -/
def Obligations.PlansLoadAndUnload : Prop :=
  (∀ (s : State) (q : Nat) (c : BitVec 512) (d : List Byte), HasCommand s q 0x30 c →
    let addr := winAddr (cw c 1)
    let model := cw c 3
    let p := planOf d addr model
    let placed := addr % 4096 = 0 ∧ isComp addr = true ∧ isComp (addr + cw c 2 - 1) = true ∧ model ≠ 0 ∧ (s.ctx model).kind = 1
    let checked := imageOk d (cw c 2) = true ∧ templatesOk p.templates = true ∧ (∀ v ∈ p.fbTemplates, templatesOk v = true) ∧
      (∀ x ∈ p.trees, treeOk' x = true) ∧ ∀ v ∈ p.fbTrees, ∀ x ∈ v, treeOk' x = true
    let wlen := (sect (sectionsOf d) 6).len
    let refused := fun (status : Nat) => ∃ t, exec (.planLoad q d) s = .next t ∧ Completes q c status 0 s t ∧ t.host.plan = s.host.plan ∧
      t.span = s.span ∧ t.sec = s.sec ∧ t.hbm.bbase = s.hbm.bbase ∧ t.hbm.blen = s.hbm.blen ∧
      ((∀ x ∈ s.host.mems, x.2.host ≠ 0) → t.cellar = { s.cellar with sets := t.cellar.sets } ∧
        ∀ l, isHbm (128 * l) = true → t.cellar.line? l = s.cellar.line? l)
    (s.host.plan.isSome = true → refused 0x0209) ∧
    (s.host.plan = none → ¬ placed → refused 0x0201) ∧
    (s.host.plan = none → placed → ¬ checked → refused 0x020D) ∧
    (s.host.plan = none → placed → checked → (s.hbm.spool < warea wlen ∨ fits wlen s.cellar.live (s.od 0x4000 1) = false) → refused 0x020A) ∧
    (s.host.plan = none → placed → checked → warea wlen ≤ s.hbm.spool → fits wlen s.cellar.live (s.od 0x4000 1) = true →
      let wb := (s.hbm.spool - warea wlen) / 4096 * 4096
      (s.areasClash wb wlen = true → refused 0x020A) ∧
      (∀ u, s.areasClash wb wlen = false → s.loadPlan d p = .ok u → ∃ t y e, exec (.planLoad q d) s = .next t ∧ t.host.plan = some y ∧
        t.host.posted = s.host.posted ++ [(q, e)] ∧ e.length = 64 ∧ num8 e 0 4 = cmdidOf c ∧ num8 e 4 2 = 0 ∧ (t.queue q).cmd = none ∧
        y.digest = slice d 32 32 ∧ y.addr = addr ∧ y.model = model ∧ y.layers = num8 d 64 2 ∧ y.dsel = num8 d 66 1 ∧ y.fmt = num8 d 67 1 ∧
        y.codeLen = (sect (sectionsOf d) 1).len ∧ y.templates = p.templates ∧ y.costs = p.costs ∧ y.trees = p.trees ∧
        t.cellar.wbase = wb ∧ t.cellar.wlen = wlen ∧ t.cellar.ceiling = s.od 0x4000 1 ∧ t.hbm.bbase = s.od 0x5000 5 ∧ t.hbm.blen = s.od 0x5000 6 ∧
        t.span.rbase = s.od 0x6200 2 ∧ t.span.job = (List.range 9).map (fun i => s.od 0x6100 (5 + i)) ∧ t.measured 6 = slice d 32 32 ∧
        ((∀ x ∈ s.host.mems, x.2.host ≠ 0) → ∀ i, i < wlen →
          t.peek (wb + 4096 * (i / 3584) + i % 3584) 1 = [d.getD ((sect (sectionsOf d) 6).off + i) 0])))) ∧
  ∀ (s : State) (q : Nat) (c : BitVec 512), HasCommand s q 0x31 c →
    (s.host.plan = none → ∃ t, exec (.planUnload q) s = .next t ∧ Completes q c 0x0104 0 s t) ∧
    (s.host.plan.isSome = true → (∃ x ∈ s.seq.table, x.2.st ≠ .free) → ∃ t, exec (.planUnload q) s = .next t ∧
      Completes q c 0x0207 0 s t ∧ t.host.plan = s.host.plan ∧ t.cellar.wbase = s.cellar.wbase ∧ t.cellar.wlen = s.cellar.wlen) ∧
    (s.host.plan.isSome = true → (∀ x ∈ s.seq.table, x.2.st = .free) → ∃ t, exec (.planUnload q) s = .next t ∧ Completes q c 0 0 s t ∧
      t.host.plan = none ∧ t.cellar.wbase = 0 ∧ t.cellar.wlen = 0 ∧ t.seq.nxt = none ∧ t.measured 6 = List.replicate 32 0 ∧
      ∀ l, s.cellar.inWeights (128 * l) = true → t.cellar.line? l = none)

/-- Firmware, keys and attestation (R546 to R549, R551 to R556, R558). -/
def Obligations.FirmwareKeysAndAttestation : Prop :=
  (∀ (s : State) (path : Path) (tid : Nat), s.lets path 2 →
    ( let m := max s.sec.minSvn s.sec.runSvn
      ∃ t, exec (.svnCommit path tid) s = .next t ∧ Answered path 0x82 tid 0x8000 0xA [] s t ∧ t.sec = { s.sec with minSvn := m, meas := t.sec.meas } ∧
        t.bring.recService = (s.bring.recService + 1) % 2 ^ 32 ∧
        t.measured 5 = sm3 (s.measured 5 ++ sm3 (leBytes m 2 ++ leBytes (s.od 0x8000 0x20) 32 ++
          (List.range 6).map fun i => BitVec.ofNat 8 (s.od 0x8000 (0x10 + i)))) ∧
        ∀ i, i ≠ 5 → t.measured i = s.measured i) ∧
    (∀ d, (s.faults.safe = true → ∃ t, exec (.fwImage path tid d) s = .next t ∧ Aborted path tid 0x8000 0x50 0x00030003 s t) ∧
      (s.faults.safe = false → ∃ t x, exec (.fwImage path tid d) s = .next t ∧ Answered path 0x82 tid 0x8000 0x50 [] s t ∧
        t.sec = { s.sec with inactive := some x, update := false } ∧ x.bytes = d ∧ ∀ v, imageOf d = some v → (x.svn, x.version) = v)) ∧
    ( let may := s.storedGood = true ∧ s.faults.standby = true ∧ (∀ e ∈ s.faults.diesOut, 8 ≤ e) ∧ s.faults.safe = false
      (may → ∃ t, exec (.fwUpdate path tid) s = .next t ∧ Answered path 0x82 tid 0x8000 0x51 [] s t ∧ t.sec = { s.sec with update := true }) ∧
      (¬ may → ∃ t, exec (.fwUpdate path tid) s = .next t ∧ Aborted path tid 0x8000 0x51 0x00030003 s t)) ∧
    (∃ t, exec (.epochAdvance path tid) s = .next t ∧ Answered path 0x82 tid 0x8000 8 [] s t ∧
      t.sec = { s.sec with zeroing := true, advance := true } ∧ Reported 0x4805 0 0 s t ∧ (t.od 0x8000 1).testBit 0 = true) ∧
    (∀ d, (Config.leafKey d = Config.identityKey s.sec.epoch.toNat → ∃ t, exec (.certInstall path tid d) s = .next t ∧
        Answered path 0x82 tid 0x8000 0x30 [] s t ∧ t.sec = { s.sec with chain := some d }) ∧
      (Config.leafKey d ≠ Config.identityKey s.sec.epoch.toNat → ∃ t, exec (.certInstall path tid d) s = .next t ∧
        Aborted path tid 0x8000 0x30 0x00030001 s t))) ∧
  (∀ (s : State) (ok : Bool), (s.sec.update = false ∨ s.sec.inactive = none → exec (.fwHandover ok) s = .next s)) ∧
  (∀ (s : State) (x : Image), s.sec.update = true → s.sec.inactive = some x →
    exec (.fwHandover false) s = .next { s with sec := { s.sec with update := false } } ∧
    (s.seq.phase ≠ .idle → exec (.fwHandover true) s = .next s) ∧
    (s.seq.phase = .idle → ∃ t, exec (.fwHandover true) s = .next t ∧ t.sec.runSvn = x.svn ∧ t.sec.runVersion = x.version ∧
      t.sec.inactive = none ∧ t.sec.update = false ∧ t.faults.activeX1 = !s.faults.activeX1 ∧ Reported 0x180A 0 0 s t ∧
      t.measured 2 = sm3 (s.measured 2 ++ (Config.imageFields x.bytes).1) ∧ (t.od 0x8000 1).testBit 5 = true)) ∧
  (∀ (s : State) (r : Report) (rest : List Report), s.faults.reports = r :: rest → r.code = 0x4805 → s.faults.hwLatch = false → 5 ≤ s.bring.row →
    s.sec.zeroing = true → ∃ t, exec .faultReport s = .next t ∧ t.faults.safe = true ∧ t.sec.zeroing = false ∧ t.sec.advance = false ∧
      (∀ b, b < 2 ^ 40 → t.peek b 1 = [0]) ∧ t.host.plan = none ∧ (∀ c, (t.core c).ldst = []) ∧ t.cellar.lines = [] ∧
      (∀ y ∈ t.host.ctxs, y.1 ≠ 0 → y.2.dying = true) ∧
      (s.sec.advance = false → t.sec.epoch = s.sec.epoch ∧ t.sec.chain = s.sec.chain) ∧
      (s.sec.advance = true → s.sec.saturated = true → t.sec.epoch = s.sec.epoch) ∧
      (s.sec.advance = true → s.sec.saturated = false → t.sec.epoch = s.sec.epoch + 1 ∧ t.sec.chain = none ∧ (t.od 0x8000 1).testBit 1 = true ∧
        (s.od 0x3000 3 ≠ 0 → t.bring.recService = (s.bring.recService + 1) % 2 ^ 32) ∧
        (s.sec.epoch = 0xFFFFFFFE → t.sec.saturated = true ∧ ∃ x ∈ t.faults.reports, x.code = 0x4806)) ∧
      (s.sec.opening = true → t.sec.debug = 2 ∧ ∃ x ∈ t.faults.reports, x.code = 0x1809)) ∧
  (∀ (s : State) (p : Path) (req : List Byte) (x : Nat × Instr),
    x ∈ [(0x84, Instr.getVersion p req), (0xE1, .getCapabilities p req), (0xE3, .negotiateAlgorithms p req), (0x81, .getDigests p req),
      (0x82, .getCertificate p req), (0x83, .challenge p req), (0xE0, .getMeasurements p req)] →
    (s.answers p = false ∨ s.latchOnly = true ∨ byteAt req 1 ≠ x.1 → exec x.2 s = .next s) ∧
    (s.answers p = true → s.latchOnly = false → byteAt req 1 = x.1 → req.length < 4 →
      ∃ t, exec x.2 s = .next t ∧ SpdmAnswers p (s.spdmState p) [0x12, 0x7F, 1, 0] s t)) ∧
  (∀ (s : State) (p : Path) (req : List Byte), s.answers p = true → s.latchOnly = false → 4 ≤ req.length →
    let st := s.spdmState p
    let gets := fun (c : Instr) (n : Nat) (rsp : List Byte) => ∃ t, exec c s = .next t ∧ SpdmAnswers p n rsp s t
    let fails := fun (c : Instr) (code : Nat) => gets c st [0x12, 0x7F, BitVec.ofNat 8 code, 0]
    let code := byteAt req 1
    (code = 0x84 → gets (.getVersion p req) 1 [0x10, 0x04, 0, 0, 0, 1, 0, 0x12]) ∧
    (code = 0xE1 → (st ≠ 1 → fails (.getCapabilities p req) 4) ∧
      (st = 1 → gets (.getCapabilities p req) 2 ([0x12, 0x61, 0, 0, 0, 14, 0, 0, 0x16, 0, 0, 0] ++ leBytes 4096 4 ++ leBytes 4096 4))) ∧
    (code = 0xE3 → (st ≠ 2 → fails (.negotiateAlgorithms p req) 4) ∧
      ( let asym := byteAt req 9 / 2 % 2
        let hash := byteAt req 12 / 64 % 2
        (st = 2 → asym = 0 → hash = 0 → fails (.negotiateAlgorithms p req) 1) ∧
        (st = 2 → asym = 1 ∨ hash = 1 → gets (.negotiateAlgorithms p req) 3 ([0x12, 0x63, 0, 0, 36, 0, 1, 0] ++ leBytes 0x80 4 ++
          leBytes (512 * asym) 4 ++ leBytes (64 * hash) 4 ++ List.replicate 16 0)))) ∧
    (code = 0x81 → (st ≠ 3 → fails (.getDigests p req) 4) ∧
      (st = 3 → (s.sec.chain = none → gets (.getDigests p req) 3 [0x12, 0x01, 0, 0]) ∧
        ∀ c, s.sec.chain = some c → gets (.getDigests p req) 3 ([0x12, 0x01, 0, 1] ++ sm3 c))) ∧
    (code = 0x82 → (st ≠ 3 → fails (.getCertificate p req) 4) ∧
      (st = 3 → (s.sec.chain = none → fails (.getCertificate p req) 1) ∧
        ∀ c, s.sec.chain = some c → let off := byteAt req 4 + 256 * byteAt req 5
          let n := min (byteAt req 6 + 256 * byteAt req 7) (min 4088 (c.length - off))
          (byteAt req 2 ≠ 0 ∨ c.length ≤ off → fails (.getCertificate p req) 1) ∧
          (byteAt req 2 = 0 → off < c.length → gets (.getCertificate p req) 3
            ([0x12, 0x02, 0, 0] ++ leBytes n 2 ++ leBytes (c.length - off - n) 2 ++ slice c off n)))) ∧
    (code = 0x83 → (st ≠ 3 → fails (.challenge p req) 4) ∧
      (st = 3 → (s.sec.chain = none → fails (.challenge p req) 1) ∧
        ∀ c, s.sec.chain = some c → let kind := byteAt req 3
          (byteAt req 2 ≠ 0 ∨ (kind ≠ 0 ∧ kind ≠ 1 ∧ kind ≠ 255) → fails (.challenge p req) 1) ∧
          (byteAt req 2 = 0 → kind = 0 ∨ kind = 1 ∨ kind = 255 → ∃ nonce sig, gets (.challenge p req) 3 ([0x12, 0x03, 0, 1] ++ sm3 c ++ nonce ++
            (if kind = 0 then [] else sm3 (s.blocks (if kind = 1 then [1, 2, 3, 4, 5] else [1, 2, 3, 4, 5, 6, 7]))) ++ [0, 0] ++ sig) ∧
            nonce.length = 32 ∧ sig.length = 64))) ∧
    (code = 0xE0 → (st ≠ 3 → fails (.getMeasurements p req) 4) ∧
      (st = 3 → let signed := byteAt req 2 % 2 = 1
        let op := byteAt req 3
        let is := if op = 0 then [] else if op = 255 then [1, 2, 3, 4, 5, 6, 7] else [op]
        let bad := (signed ∧ s.sec.chain = none) ∨ (7 < op ∧ op ≠ 255)
        (bad → fails (.getMeasurements p req) 1) ∧
        (¬ bad → ∃ nonce sig, nonce.length = 32 ∧ (signed → sig.length = 64) ∧ (¬ signed → sig = []) ∧
          gets (.getMeasurements p req) 3 ([0x12, 0x60, if op = 0 then 7 else 0, 0] ++ leBytes is.length 1 ++
            leBytes (s.blocks is).length 3 ++ s.blocks is ++ nonce ++ [0, 0] ++ sig)))) ∧
    (code ∉ [0x84, 0xE1, 0xE3, 0x81, 0x82, 0x83, 0xE0] → fails (.spdmUnsupported p req) 7)) ∧
  ∀ s : State, s.block 7 = [7, 1, 11, 0, 0x80, 8, 0] ++ leBytes (s.sec.epoch.toNat + 2 ^ 32 * s.sec.debug +
    2 ^ 40 * s.sec.active.foldl (fun a x => a + 2 ^ x) 0) 8

/-- The alarm, tokens and the debug port (R557 to R562, R567, R568). -/
def Obligations.AlarmsTokensAndTheDebugPort : Prop :=
  (∀ (s : State) (x : Nat) (c : Instr), (x, c) ∈ [(0, Instr.tamper), (1, .voltageGlitch), (2, .clockGlitch), (3, .cold)] →
    (s.power.regsOn = false ∨ x ∈ s.sec.active → exec c s = .next s) ∧
    (s.power.regsOn = true → x ∉ s.sec.active → ∃ t, exec c s = .next t ∧ AlarmRaised x (s.od 0x8000 (0x10 + x)) s t)) ∧
  (∀ (s : State) (x : Nat), x < 4 → let left := s.sec.active.filter (· != x)
    exec (.alarmSourceInactive x) s = .next { s with sec := { s.sec with
      active := left, inForce := if left = [] then none else s.sec.inForce } }) ∧
  (∀ (s : State) (path : Path) (tid : Nat), s.lets path 2 → let left := s.sec.active.filter fun a => a != 4 && a != 5
    ∃ t, exec (.alarmClear path tid) s = .next t ∧ Answered path 0x82 tid 0x8000 9 [] s t ∧ t.sec.active = left ∧
      (left ≠ [] → t.faults = s.faults ∧ t.sec.inForce = s.sec.inForce) ∧
      (left = [] → t.sec.inForce = none ∧ ∀ y, y ∈ t.faults.f4 ↔ y ∈ s.faults.f4 ∧ y.1 % 2 ^ 16 ≠ 0x4805)) ∧
  (∀ (s : State) (path : Path) (tid : Nat) (d : List Byte), s.lets path 2 →
    let done := fun (t : State) => exec (.debugToken path tid d) s = .next t ∧ Answered path 0x82 tid 0x8000 0x22 [] s t
    (d.length ≠ 192 → ∃ t, exec (.debugToken path tid d) s = .next t ∧ Aborted path tid 0x8000 0x22 0x00010004 s t) ∧
    (d.length = 192 → (s.tokenGood s.debugKeys d = false ∨ (byteAt d 52 ≠ 1 ∧ byteAt d 52 ≠ 2) → ∃ t, done t ∧ TokenRejected s t) ∧
      (s.tokenGood s.debugKeys d = true → byteAt d 52 = 1 → ∃ t, done t ∧ t.sec.debug = max 1 s.sec.debug ∧ t.sec.zeroing = s.sec.zeroing ∧
        t.sec.nonce = s.freeStr 32 ∧ t.sec.denied = s.sec.denied ∧ Reported 0x1809 0 0 s t ∧ (t.od 0x8000 1).testBit 2 = true) ∧
      (s.tokenGood s.debugKeys d = true → byteAt d 52 = 2 → ∃ t, done t ∧ t.sec.debug = s.sec.debug ∧ t.sec.zeroing = true ∧
        t.sec.opening = true ∧ t.sec.nonce = s.freeStr 32 ∧ Reported 0x4805 0 0 s t))) ∧
  (∀ (s : State) (path : Path) (tid : Nat) (d : List Byte), s.lets path 0 →
    let done := fun (t : State) => exec (.levelGrant path tid d) s = .next t ∧ Answered path 0x82 tid 0x1100 0x21 [] s t ∧
      t.sec.debug = s.sec.debug ∧ t.sec.zeroing = s.sec.zeroing ∧ (∀ q, q ≠ path → t.level q = s.level q)
    let named := fun (n code : Nat) (t : State) => done t ∧ t.sec.nonce = s.freeStr 32 ∧ t.sec.denied = s.sec.denied ∧
      t.level path = max n (s.level path) ∧ (s.level path < n → Reported code 0 0 s t) ∧ (n ≤ s.level path → t.faults = s.faults)
    let good := (byteAt d 52 = 0x11 ∧ s.tokenGood s.managerKeys d = true) ∨ (byteAt d 52 = 0x12 ∧ s.tokenGood s.debugKeys d = true)
    (d.length ≠ 192 → ∃ t, exec (.levelGrant path tid d) s = .next t ∧ Aborted path tid 0x1100 0x21 0x00010004 s t) ∧
    (d.length = 192 → (byteAt d 52 = 0x11 → s.tokenGood s.managerKeys d = true → ∃ t, named 1 0x0883 t) ∧
      (byteAt d 52 = 0x12 → s.tokenGood s.debugKeys d = true → ∃ t, named 2 0x1885 t) ∧
      (¬ good → ∃ t, exec (.levelGrant path tid d) s = .next t ∧ Answered path 0x82 tid 0x1100 0x21 [] s t ∧
        (∀ q, t.level q = s.level q) ∧ TokenRejected s t))) ∧
  (∀ (s : State) (keys : List (List Byte)) (d : List Byte), s.tokenGood keys d = true → slice d 0 32 = s.sec.nonce ∧
    slice d 32 16 = s.sec.serial ∧ num8 d 48 4 = s.sec.epoch.toNat ∧ sm3 (slice d 64 64) ∈ keys ∧
    Config.sm2Verify (slice d 64 64) (slice d 0 128) (slice d 128 64) = true) ∧
  (∀ (s : State) (a : DebugReq), s.sec.debug ≠ 2 → exec (.debugAccess a) s = .next s) ∧
  ∀ (s : State) (c : Nat), s.sec.debug = 2 →
    (∀ a, a ∈ [DebugReq.idRegister, .nonce, .trace] ∨ (∃ i j, a = .readEntry i j) ∨ (∃ i j, a = .readMem i j) ∨ (∃ i j, a = .readLocal c i j) ∨
      (∃ r, a = .readReg c r) → exec (.debugAccess a) s = .next s) ∧
    (∃ t, exec (.debugAccess (.halt c)) s = .next t ∧ t = { s with sec := { s.sec with halted := t.sec.halted } } ∧
      ∀ d, d ∈ t.sec.halted ↔ d = c ∨ d ∈ s.sec.halted) ∧
    (∃ t, exec (.debugAccess (.resume c)) s = .next t ∧ t = { s with sec := { s.sec with halted := t.sec.halted, single := t.sec.single } } ∧
      (∀ d, d ∈ t.sec.halted ↔ d ≠ c ∧ d ∈ s.sec.halted) ∧ c ∉ t.sec.single) ∧
    (c ∉ s.sec.halted → exec (.debugAccess (.single c)) s = .next s) ∧
    (c ∈ s.sec.halted → ∃ t, exec (.debugAccess (.single c)) s = .next t ∧ t = { s with sec := { s.sec with single := t.sec.single } } ∧ c ∈ t.sec.single) ∧
    (∀ (pa : Nat) (d : List Byte), d ≠ [] → pa + d.length ≤ 2 ^ 40 → BareLine s pa d.length → ∃ t,
      exec (.debugAccess (.writeMem pa d)) s = .next t ∧ StoredAt pa d s t) ∧
    (∀ (a : Nat) (d : List Byte), a + d.length ≤ 0x1C000 → ∃ t, exec (.debugAccess (.writeLocal c a d)) s = .next t ∧
      (∀ b, Mem.read (t.core c).ldst b = if a ≤ b ∧ b < a + d.length then d.getD (b - a) 0 else Mem.read (s.core c).ldst b) ∧
      (∀ e, e ≠ c → t.core e = s.core e) ∧ t.mem = s.mem) ∧
    ∀ (r : Reg) (v : Word), ∃ t, exec (.debugAccess (.writeReg c r v)) s = .next t ∧ (t.core c).reg r = (if r = 0 then 0 else v) ∧
      (∀ q, q ≠ r → (t.core c).reg q = (s.core c).reg q) ∧ (t.core c).pc = (s.core c).pc ∧ ∀ e, e ≠ c → t.core e = s.core e

/-- Entries (R5, R6, R480, R566, R569 to R574, R581 to R583, R585). -/
def Obligations.ReadsWritesAndGroups : Prop :=
  (∀ (s : State) (p : Path) (tid i j : Nat) (staged : Bool), s.lets p 0 → s.faults.injArmed = none →
    let cmd := if staged then Instr.dtpRead p tid i j else .dtpReadCommitted p tid i j
    (∀ e, entryAt i j = .error e → ∃ t, exec cmd s = .next t ∧ Aborted p tid i j e s t) ∧
    (∀ r, entryAt i j = .ok r →
      (s.level p < readLevel i → ∃ t, exec cmd s = .next t ∧ Aborted p tid i j 0x00020004 s t) ∧
      (readLevel i ≤ s.level p → let d := s.tick.readBytes p i j staged r
        (d.length ≤ capacity p → ∃ t, exec cmd s = .next t ∧ Answered p 0x81 tid i j d s t ∧ t.time = s.tick.time ∧
          t = { s with dict := t.dict, time := t.time, freeCtr := t.freeCtr }) ∧
        (capacity p < d.length → ∃ t x, exec cmd s = .next t ∧ t.xfer p = some x ∧ x.write = false ∧ x.data = d ∧ x.total = d.length ∧
          (p = .mailbox → Answered p 0x84 tid i j (leBytes d.length 4) s t) ∧
          (p = .can → s.dict.silent = false → ∃ l : List DtpMsg, t.dict.out = s.dict.out ++
            { path := p, cmd := 0x84, tid := tid, idx := i, sub := j, data := leBytes d.length 4 } :: l ∧
            l.length = min 16 ((d.length + 61) / 62) ∧ l.flatMap (·.data) = slice d 0 (min (16 * 62) d.length)))))) ∧
  (∀ (s : State) (p : Path) (i j : Nat) (staged : Bool) (r : Nat × Nat × Nat),
    (s.readBytes p i 0 staged r).length = 1 ∧ (j ≠ 0 → r.2.2 = 2 → s.readBytes p i j staged r = leBytes 0 r.2.1) ∧
    (j ≠ 0 → r.2.2 ≠ 2 → r.1 ≠ 10 → s.liveNum p i j = none → s.liveRun i j = none →
      s.readBytes p i j staged r = leBytes (if staged then s.groupVal (odKey i j) else s.od i j) r.2.1)) ∧
  (∀ (s : State) (p : Path) (tid i j : Nat) (d : List Byte), s.lets p 0 → s.faults.injArmed = none →
    let done := fun (t : State) => exec (.dtpWrite p tid i j d) s = .next t ∧ Answered p 0x82 tid i j [] s t
    let fails := fun (code : Nat) => ∃ t, exec (.dtpWrite p tid i j d) s = .next t ∧ Aborted p tid i j code s t
    let v := keptBits i j (leNat d)
    let key := odKey i j
    (capacity p < d.length → fails 0x00010004) ∧
    (d.length ≤ capacity p → (∀ e, entryAt i j = .error e → fails e) ∧
      (∀ typ size acc, entryAt i j = .ok (typ, size, acc) →
        (acc = 0 → fails 0x00020003) ∧
        (acc ≠ 0 → s.level p < writeLevel i j → fails 0x00020004) ∧
        (acc ≠ 0 → writeLevel i j ≤ s.level p → typ ≠ 10 → (i, j) ≠ (0x1100, 0x11) → (i, j) ≠ (0x1100, 0x20) →
          (d.length ≠ size → fails 0x00010004) ∧
          (d.length = size → acc = 1 → s.action p tid i j d = none → (inRange i j v = false → fails 0x00030001) ∧
            (inRange i j v = true → i = 0x7100 → s.migState ≠ 0 → fails 0x00030003) ∧
            (inRange i j v = true → (i = 0x7100 → s.migState = 0) → (groupOf key = none → inFlash i j = false → ∃ t, done t ∧ t.od i j = v ∧ t.dict.staged = s.dict.staged ∧
                (i ≠ 0x8000 → t = { s with dict := t.dict }) ∧ ∀ k l, l < 256 → (k, l) ≠ (i, j) → (k, l) ≠ (0x1100, 0x27) → t.od k l = s.od k l) ∧
              (∀ c, groupOf key = some c → (s.foreign p c = true → fails 0x00030005) ∧
                (s.foreign p c = false → ∃ t, done t ∧ t.groupVal key = v ∧ find? t.dict.claims c = some p ∧ t.od i j = s.od i j ∧
                  t = { s with dict := t.dict })) ∧
              (groupOf key = none → inFlash i j = true → exec (.dtpWrite p tid i j d) s =
                .next { s with dict := { s.dict with flashWait := s.dict.flashWait ++ [(p, tid, key, [(key, v)])] } }))))))) ∧
  (∀ (s : State) (p : Path) (tid i j : Nat) (ms : List Nat), (odKey i j, ms) ∈ agreementGroups → j < 256 → s.lets p (writeLevel i j) →
    let key := odKey i j
    let cleared := fun (t : State) => find? t.dict.claims key = none ∧ ∀ k ∈ ms, find? t.dict.staged k = none
    (s.foreign p key = true → i ≠ 0x7000 → s.faults.injArmed = none →
      (∃ t, exec (.groupCommit p tid i j) s = .next t ∧ Aborted p tid i j 0x00030005 s t) ∧
      ∃ t, exec (.groupDiscard p tid i j) s = .next t ∧ Aborted p tid i j 0x00030005 s t) ∧
    (s.foreign p key = false →
      (∃ t, exec (.groupDiscard p tid i j) s = .next t ∧ Answered p 0x82 tid i j [] s t ∧ cleared t ∧ t = { s with dict := t.dict } ∧
        ∀ k ∈ ms, t.od (k / 256) (k % 256) = s.od (k / 256) (k % 256)) ∧
      (i ≠ 0x7000 → s.faults.injArmed = none → (s.agrees key = false → ∃ t, exec (.groupCommit p tid i j) s = .next t ∧ Aborted p tid i j 0x00030002 s t) ∧
        (s.agrees key = true → (i = 0x3200 → s.injRefused = false) → inFlash i j = false → ∃ t, exec (.groupCommit p tid i j) s = .next t ∧
          Answered p 0x82 tid i j [] s t ∧ cleared t ∧ ∀ k ∈ ms, t.od (k / 256) (k % 256) = s.groupVal k) ∧
        (s.agrees key = true → inFlash i j = true → exec (.groupCommit p tid i j) s = .next { s with
          dict := { s.dict with flashWait := s.dict.flashWait ++ [(p, tid, key, ms.map fun k => (k, s.groupVal k))] } })))) ∧
  (∀ (s : State) (i j : Nat), ∃ t, exec (.stagingTimeout i j) s = .next t ∧ find? t.dict.claims (odKey i j) = none ∧
    (∀ k ∈ groupMembers (odKey i j), find? t.dict.staged k = none) ∧ t = { s with dict := { s.dict with staged := t.dict.staged, claims := t.dict.claims } }) ∧
  (∀ s : State, s.dict.flashWait = [] → ∀ a b, exec (.flashWriteComplete a b) s = .next s) ∧
  (∀ (s : State) (p : Path) (tid k v : Nat) (rest : List (Path × Nat × Nat × List (Nat × Nat))) (a b : Bool),
    s.dict.flashWait = (p, tid, k, [(k, v)]) :: rest → (∀ x ∈ agreementGroups, x.1 ≠ k) → k ≠ 0xA00003 → k ≠ 0x110027 →
    ∃ t, exec (.flashWriteComplete a b) s = .next t ∧ t.dict.flashWait = rest ∧
      (∀ d, d ∈ t.bring.flashOk ↔ d ∈ s.bring.flashOk ∧ (a = false → d ≠ 0) ∧ (b = false → d ≠ 1)) ∧
      (t.bring.flashOk ≠ [] → t.od (k / 256) (k % 256) = v ∧ Answered p 0x82 tid (k / 256) (k % 256) [] s t) ∧
      (t.bring.flashOk = [] → t.od (k / 256) (k % 256) = s.od (k / 256) (k % 256) ∧
        Answered p 0x8F tid (k / 256) (k % 256) (leBytes 0x00040002 4) s t) ∧
      (a = false → 0 ∈ s.bring.flashOk → ReportedAmong 0x1842 11 0 s t) ∧ (b = false → 1 ∈ s.bring.flashOk → ReportedAmong 0x1842 11 1 s t)) ∧
  (∀ (s : State) (p : Path) (tid c : Nat) (vals : List (Nat × Nat)) (rest : List (Path × Nat × Nat × List (Nat × Nat))),
    s.dict.flashWait = (p, tid, c, vals) :: rest → (c, vals.map (·.1)) ∈ agreementGroups → inFlash (c / 256) (c % 256) = true →
    s.bring.flashOk ≠ [] → ∃ t, exec (.flashWriteComplete true true) s = .next t ∧ t.dict.flashWait = rest ∧
      t.bring.flashOk = s.bring.flashOk ∧ (∀ x ∈ vals, t.od (x.1 / 256) (x.1 % 256) = x.2 ∧ find? t.dict.staged x.1 = none) ∧
      find? t.dict.claims c = none ∧ Answered p 0x82 tid (c / 256) (c % 256) [] s t ∧ (c = 0xA0000F → t.od 0xA000 0xC = 1)) ∧
  (∀ (s : State) (p : Path) (tid i j : Nat), s.answers p = true → s.latchOnly = false →
    (∀ e, entryAt i j = .error e → ∃ t, exec (.dtpInfo p tid i j) s = .next t ∧ Aborted p tid i j e s t) ∧
    (∀ typ size acc, entryAt i j = .ok (typ, size, acc) → ∃ t d, exec (.dtpInfo p tid i j) s = .next t ∧ Answered p 0x85 tid i j d s t ∧
      d.length = 12 ∧ num8 d 0 1 = typ % 256 ∧ num8 d 1 1 = acc % 256 ∧ num8 d 2 1 = readLevel i ∧ num8 d 3 1 = writeLevel i j ∧
      num8 d 4 4 = (if typ = 10 then domMax i j else size) % 2 ^ 32 ∧ t = { s with dict := t.dict })) ∧
  (∀ (s : State) (i j v : Nat), let u := keptBits i j v
    (∀ e, entryAt i j = .error e → exec (.registerWrite i j v) s = .next s) ∧
    (∀ typ size acc, entryAt i j = .ok (typ, size, acc) → (acc ≠ 1 ∨ groupOf (odKey i j) ≠ none ∨ inRange i j u = false ∨ 256 ^ size ≤ v ∨ s.bring.row < 5 →
        exec (.registerWrite i j v) s = .next s) ∧
      (acc = 1 → groupOf (odKey i j) = none → inRange i j u = true → v < 256 ^ size → 5 ≤ s.bring.row → (i = 0x7100 → s.migState = 0) → (i, j) ≠ (0x1100, 0x20) →
        s.action .can 0 i j (leBytes v size) = none → ∃ t, exec (.registerWrite i j v) s = .next t ∧ t.od i j = u ∧
          t = { s with dict := t.dict, sec := t.sec } ∧ (i ≠ 0x8000 → t.sec = s.sec) ∧
          ∀ k l, l < 256 → (k, l) ≠ (i, j) → t.od k l = s.od k l))) ∧
  ∀ (s : State) (i j mask : Nat), s.faults.injArmed = none → j < 256 →
    (∀ typ size, entryAt i j = .ok (typ, size, 3) → ∃ t, exec (.stickyClear i j mask) s = .next t ∧ t = { s with dict := t.dict } ∧
      (∀ b, (t.od i j).testBit b = ((s.od i j).testBit b && (!mask.testBit b || (s.heldBits i j).testBit b))) ∧
      ∀ k l, l < 256 → (k, l) ≠ (i, j) → t.od k l = s.od k l) ∧
    ((∀ typ size, entryAt i j ≠ .ok (typ, size, 3)) → exec (.stickyClear i j mask) s = .next s)

/-- Transfers, levels and the CAN FD port (R567, R571 to R573, R575, R577, R578, R580, R582, R589, R593). -/
def Obligations.TransfersLevelsAndTheCanPort : Prop :=
  (∀ (s : State) (p : Path) (tid i j n : Nat), s.lets p 0 →
    (∀ e, s.mayWrite p i j n = .error e → ∃ t, exec (.dtpWriteInit p tid i j n) s = .next t ∧ Aborted p tid i j e s t) ∧
    (∀ r, s.mayWrite p i j n = .ok r → ∃ t, exec (.dtpWriteInit p tid i j n) s = .next t ∧ Answered p 0x83 tid i j [] s t ∧
      t.xfer p = some { Xfer.reset with write := true, idx := i, sub := j, tid := tid, total := n } ∧ t = { s with dict := t.dict })) ∧
  (∀ (s : State) (p : Path) (seq : Nat) (d : List Byte), s.answers p = true → s.latchOnly = false →
    (s.xfer p = none → (∃ t, exec (.dtpSegment p seq d) s = .next t ∧ Aborted p 0 0 0 0x00010002 s t) ∧
      ∃ t, exec (.dtpAck p seq) s = .next t ∧ Aborted p 0 0 0 0x00010002 s t) ∧
    ∀ x, s.xfer p = some x → let w := windowOf p
      let ends := fun (c : Instr) (code : Nat) => ∃ t, exec c s = .next t ∧ t.xfer p = none ∧ Reported 0x0882 0 0 s t ∧
        Answered p 0x8F x.tid x.idx x.sub (leBytes code 4) s t
      (x.write = true → (∃ t, exec (.dtpAck p seq) s = .next t ∧ Aborted p 0 0 0 0x00010002 s t) ∧
        ( let last := x.seq + 1 = x.count p
          let want := if x.seq + 1 = x.count p then x.total - segBytes p * x.seq else segBytes p
          (seq % 256 = x.seq % 256 → d.length ≠ want → ends (.dtpSegment p seq d) 0x00010004) ∧
          (seq % 256 = x.seq % 256 → d.length = want → ¬ last → ∃ t, exec (.dtpSegment p seq d) s = .next t ∧
            t.xfer p = some { x with data := x.data ++ d, seq := x.seq + 1, acked := 0, fails := 0 } ∧ t = { s with dict := t.dict } ∧
            ((x.seq + 1) % w = 0 → Answered p 0x87 (seq % 256) 0 0 [] s t) ∧ ((x.seq + 1) % w ≠ 0 → t.dict.out = s.dict.out)) ∧
          (seq % 256 = x.seq % 256 → d.length = want → last → x.idx = 0x8000 → x.sub = 0x40 → (x.data ++ d).length ≤ 4096 →
            (∀ q y, q ≠ p → s.xfer q = some y → y.write = false) → ∃ t, exec (.dtpSegment p seq d) s = .next t ∧ t.xfer p = none ∧
              t.sec = (s.spdm p (x.data ++ d)).sec ∧
              ((p = .can → s.dict.silent = false) → ∃ l, t.dict.out = s.dict.out ++ l ++ [{ path := p, cmd := 0x82, tid := x.tid, idx := 0x8000, sub := 0x40, data := [] }])) ∧
          (seq % 256 = x.seq % 256 → d.length = want → last → exec (.dtpSegment p seq d) s =
            .next ((match p with | .can => s.reply p 0x87 (seq % 256) 0 0 [] | .mailbox => s).endWrite p x (x.data ++ d))) ∧
          (seq % 256 ≠ x.seq % 256 → x.fails = 3 → ¬ (x.acked = seq % 256) → ends (.dtpSegment p seq d) 0x00010002) ∧
          (seq % 256 ≠ x.seq % 256 → x.fails < 3 → ∃ t y, exec (.dtpSegment p seq d) s = .next t ∧ t.xfer p = some y ∧ y.data = x.data ∧ y.seq = x.seq ∧
            y.fails ≤ x.fails + 1 ∧ Answered p 0x87 ((x.seq + 255) % 256) 0 0 [] s t ∧ t = { s with dict := t.dict }))) ∧
      (x.write = false → (∃ t, exec (.dtpSegment p seq d) s = .next t ∧ Aborted p 0 0 0 0x00010002 s t) ∧
        ( let step := (seq + 1 + 256 - x.acked % 256) % 256
          (0 < step → step ≤ x.seq - x.acked → x.acked + step = x.count p → ∃ t, exec (.dtpAck p seq) s = .next t ∧ t.xfer p = none ∧
            t.dict.out = s.dict.out ∧ t.faults = s.faults ∧ (p = .mailbox → t.dict.mbState = 0 ∧ t.dict.mbRsp = [])) ∧
          (0 < step → step ≤ x.seq - x.acked → x.acked + step ≠ x.count p → ∃ t y, exec (.dtpAck p seq) s = .next t ∧ t.xfer p = some y ∧
            y.acked = x.acked + step ∧ y.fails = 0 ∧ y.data = x.data ∧ y.seq = min (x.count p) (x.acked + step + w)) ∧
          (step = 0 → x.seq ≤ x.acked → ∃ t y, exec (.dtpAck p seq) s = .next t ∧ t.xfer p = some y ∧ y.acked = x.acked ∧ y.fails = x.fails ∧
            y.data = x.data ∧ y.seq = min (x.count p) (x.acked + w)) ∧
          (step = 0 ∨ x.seq - x.acked < step → (0 < x.seq - x.acked ∨ 0 < step) → (x.fails = 3 → ends (.dtpAck p seq) 0x00010002) ∧
            (x.fails ≠ 3 → ∃ t y, exec (.dtpAck p seq) s = .next t ∧ t.xfer p = some y ∧ y.acked = x.acked ∧ y.fails = x.fails + 1 ∧
              y.data = x.data ∧ y.seq = min (x.count p) (x.acked + w)))))) ∧
  (∀ (s : State) (p : Path) (tid code : Nat), s.answers p = true → ∃ t, exec (.dtpAbort p tid code) s = .next t ∧ t.xfer p = none ∧
    t.dict.out = s.dict.out ∧ (∀ q, q ≠ p → t.xfer q = s.xfer q) ∧ (s.xfer p = none → t.faults = s.faults) ∧
    ((s.xfer p).isSome = true → Reported 0x0882 0 0 s t ∧ (p = .can → (t.od 0x1100 0x24).testBit 2 = true)) ∧ (p = .mailbox → t.dict.mbState = 0)) ∧
  (∀ (s : State) (p : Path), (s.xfer p = none → exec (.dtpTransferTimeout p) s = .next s) ∧
    (∀ x, s.xfer p = some x → ∃ t, exec (.dtpTransferTimeout p) s = .next t ∧ t.xfer p = none ∧ Reported 0x0882 0 0 s t ∧
      Answered p 0x8F x.tid x.idx x.sub (leBytes 0x00010003 4) s t ∧ t = { s with dict := t.dict, faults := t.faults })) ∧
  (∀ (s : State) (p : Path) (tid cmd b : Nat), s.answers p = true → s.latchOnly = false → let known := cmd ∈ [1, 2, 3, 4, 5, 6, 7, 0xF]
    (known → (b = 0 ∨ cmd = 6 ∨ cmd = 7) → exec (.abCmd p tid cmd b) s = .next s) ∧
    (¬ known ∨ (b ≠ 0 ∧ cmd ≠ 6 ∧ cmd ≠ 7) → ∃ t, exec (.abCmd p tid cmd b) s = .next t ∧ Aborted p tid 0 0 0x00010001 s t)) ∧
  (∀ (s : State) (p : Path) (tid n : Nat), s.lets p 0 →
    (s.level p < n → ∃ t, exec (.dtpLevel p tid n) s = .next t ∧ Aborted p tid 0x1100 0x20 0x00030003 s t) ∧
    (n ≤ s.level p → ∃ t, exec (.dtpLevel p tid n) s = .next t ∧ Answered p 0x82 tid 0x1100 0x20 [] s t ∧ t.level p = n ∧
      (∀ q, q ≠ p → t.level q = s.level q) ∧ t = { s with dict := t.dict })) ∧
  (∀ (s : State) (p : Path), ∃ t, exec (.pathIdleTimeout p) s = .next t ∧ t.level .can = (if p = .can then s.od 0x1100 0x25 else s.level .can) ∧
    t.level .mailbox = (if p = .mailbox then 1 else s.level .mailbox) ∧
    t = { s with dict := { s.dict with levelC := t.dict.levelC, levelM := t.dict.levelM } }) ∧
  (∀ s : State, let sent := 5 ≤ s.bring.row ∧ s.od 0x1100 0x22 ≠ 0 ∧ s.dict.silent = false ∧ s.dict.busOff = false
    (¬ sent → exec .heartbeat s = .next s) ∧
    (sent → ∃ t d, exec .heartbeat s = .next t ∧ t.time = s.tick.time ∧ t.dict = { s.dict with beats := s.dict.beats ++ [d] } ∧ d.length = 16 ∧
      num8 d 0 8 = t.now ∧ num8 d 8 1 = s.bring.state % 256 ∧ num8 d 9 1 = s.level .can % 256 ∧ num8 d 10 2 = s.faults.lastNum.toNat ∧
      num8 d 12 4 = s.od 0x3100 1 % 2 ^ 32)) ∧
  (∀ s : State, (s.bring.row < 5 → exec .dtpAddrClash s = .next s ∧ (∀ b, exec (.dtpBusOff b) s = .next s) ∧ ∀ b, exec (.canErrorFrame b) s = .next s) ∧
    (5 ≤ s.bring.row →
      (∃ t, exec .dtpAddrClash s = .next t ∧ t.dict.silent = true ∧ Reported 0x1886 0 0 s t ∧ (t.od 0x1100 0x24).testBit 3 = true ∧
        t.level = s.level ∧ t.xfer = s.xfer ∧ t = { s with dict := t.dict, faults := t.faults }) ∧
      (∀ b, ∃ t, exec (.canErrorFrame b) s = .next t ∧ t.dict.passive = b ∧ Reported 0x0881 0 0 s t ∧
        t.od 0x1100 0x27 / 2 ^ 128 % 2 ^ 64 = (s.od 0x1100 0x27 / 2 ^ 128 % 2 ^ 64 + 1) % 2 ^ 64 ∧
        (b = true → (t.od 0x1100 0x24).testBit 1 = true) ∧ t = { s with dict := t.dict, faults := t.faults }) ∧
      (∀ b, s.dict.busOff ≠ b → exec (.dtpBusOff b) s = .next s) ∧
      (∀ b, s.dict.busOff = b → ∃ t, exec (.dtpBusOff b) s = .next t ∧ t.dict.busOff = !b ∧ t.xfer .can = none ∧ t.level .can = s.od 0x1100 0x25 ∧
        (∀ x ∈ t.dict.claims, x.2 ≠ .can) ∧ (∀ c, find? s.dict.claims c = some .can → ∀ k ∈ groupMembers c, find? t.dict.staged k = none) ∧
        t.level .mailbox = s.level .mailbox ∧ t.xfer .mailbox = s.xfer .mailbox ∧
        (b = false → ReportedAmong 0x1884 0 0 s t ∧ (t.od 0x1100 0x24).testBit 0 = true) ∧ ((s.xfer .can).isSome = true → ReportedAmong 0x0882 0 0 s t) ∧
        t = { s with dict := t.dict, faults := t.faults })))

/-- Reset values (the Reset columns of R202, R228, R254, R277, R341, R383, R384, R455, R482, R524, R525, R564, R588, R589, R591; R544, R549, R557, R560). -/
def Obligations.ResetValuesOfTheSpec : Prop :=
  let s := State.reset
  s.power.regsOn = false ∧ s.bring.row = 0 ∧ s.bring.state = 0 ∧ s.sec.debug = 0 ∧ s.sec.active = [] ∧ s.faults.safe = false ∧ s.faults.recs = [] ∧
    s.host.plan = none ∧ (∀ i, s.measured i = List.replicate 32 0) ∧ s.reqs = [] ∧ s.dict.out = [] ∧
    (∀ c, (s.core c).run = false) ∧
    (∀ x ∈ [(0x1000, 1, 1), (0x1000, 3, 0xB0), (0x1100, 0x22, 100), (0x1100, 0x23, 1), (0x2100, 2, 4000), (0x2100, 9, 20000), (0x2100, 0xB, 30),
      (0x2200, 1, 100), (0x2300, 2, 12), (0x3000, 1, 1000), (0x3000, 2, 100), (0x3000, 3, 3), (0x3000, 5, 3), (0x3000, 6, 250), (0x3000, 8, 16),
      (0x3000, 9, 64), (0x4000, 1, 12), (0x4000, 0xC, 4), (0x4000, 0xB, 16), (0x4000, 0x10, 20), (0x4000, 0x11, 1000000), (0x4000, 0x12, 40),
      (0x4000, 0x13, 4), (0x4200, 1, 50), (0x4200, 2, 5000), (0x5000, 6, 960 * 2 ^ 30), (0x5000, 8, 16), (0x5000, 0xA, 100), (0x5000, 0xC, 8),
      (0x6000, 4, 64), (0x6100, 6, 1), (0x6100, 7, 1), (0x6200, 4, 4096), (0x6200, 5, 10), (0x6200, 6, 200), (0x7100, 8, 16), (0x7200, 4, 16384),
      (0x7200, 5, 4096), (0x7200, 6, 256), (0x7200, 7, 2048), (0x7200, 8, 64), (0x7200, 9, 16), (0x7200, 0xA, 1), (0x8000, 0x10, 2),
      (0x8000, 0x11, 1), (0x8000, 0x15, 1), (0x9000, 0x11, 10)], s.od x.1 x.2.1 = x.2.2)
end

