-- ==== Sys2Proof/Laws/Keeps.lean ====
section
/-!
SUPPORT. Laws/Keeps.lean: what an operation may change. `Keeps m s t`: from `s` to `t` the queue is the same, memory keeps its
canonical form, and every part of the state whose bit is not in the mask `m` is the same.
-/

namespace Sys2Proof.Machine

/-- From `s` to `t` only parts in the mask `m` change; the bits number the fields of State after `pending`, `mem` being bit 0. -/
structure Keeps (m : Nat) (s t : State) : Prop where
  pending : t.pending = s.pending
  memOk : Mem.wf s.mem → Mem.wf t.mem
  mem : m.testBit 0 = false → t.mem = s.mem
  cores : m.testBit 1 = false → t.cores = s.cores
  reqs : m.testBit 2 = false → t.reqs = s.reqs
  nextTag : m.testBit 3 = false → t.nextTag = s.nextTag
  accepts : m.testBit 4 = false → t.accepts = s.accepts
  writers : m.testBit 5 = false → t.writers = s.writers
  cellar : m.testBit 6 = false → t.cellar = s.cellar
  coh : m.testBit 7 = false → t.coh = s.coh
  trellis : m.testBit 8 = false → t.trellis = s.trellis
  hbm : m.testBit 9 = false → t.hbm = s.hbm
  sau : m.testBit 10 = false → t.sau = s.sau
  seq : m.testBit 11 = false → t.seq = s.seq
  host : m.testBit 12 = false → t.host = s.host
  span : m.testBit 13 = false → t.span = s.span
  parts : m.testBit 14 = false → t.parts = s.parts
  faults : m.testBit 15 = false → t.faults = s.faults
  power : m.testBit 16 = false → t.power = s.power
  bring : m.testBit 17 = false → t.bring = s.bring
  sec : m.testBit 18 = false → t.sec = s.sec
  dict : m.testBit 19 = false → t.dict = s.dict
  time : m.testBit 20 = false → t.time = s.time
  freeCtr : m.testBit 21 = false → t.freeCtr = s.freeCtr

theorem Keeps.refl (m : Nat) (s : State) : Keeps m s s := by
  constructor <;> intros <;> first | rfl | assumption

theorem Nat.testBit_of_sub {a b i : Nat} (h : a ||| b = b) (hb : b.testBit i = false) : a.testBit i = false := by
  rw [← h, Nat.testBit_or] at hb
  exact (Bool.or_eq_false_iff.mp hb).1

/-- A further operation that changes no more than the mask allows. -/
theorem Keeps.step {a b : Nat} {s0 s t : State} (h1 : Keeps a s t) (hm : a ||| b = b) (h0 : Keeps b s0 s) : Keeps b s0 t := by
  constructor
  · exact h1.pending.trans h0.pending
  · exact fun h => h1.memOk (h0.memOk h)
  all_goals intro hb; have hb' := Nat.testBit_of_sub hm hb
  · exact (h1.mem hb').trans (h0.mem hb)
  · exact (h1.cores hb').trans (h0.cores hb)
  · exact (h1.reqs hb').trans (h0.reqs hb)
  · exact (h1.nextTag hb').trans (h0.nextTag hb)
  · exact (h1.accepts hb').trans (h0.accepts hb)
  · exact (h1.writers hb').trans (h0.writers hb)
  · exact (h1.cellar hb').trans (h0.cellar hb)
  · exact (h1.coh hb').trans (h0.coh hb)
  · exact (h1.trellis hb').trans (h0.trellis hb)
  · exact (h1.hbm hb').trans (h0.hbm hb)
  · exact (h1.sau hb').trans (h0.sau hb)
  · exact (h1.seq hb').trans (h0.seq hb)
  · exact (h1.host hb').trans (h0.host hb)
  · exact (h1.span hb').trans (h0.span hb)
  · exact (h1.parts hb').trans (h0.parts hb)
  · exact (h1.faults hb').trans (h0.faults hb)
  · exact (h1.power hb').trans (h0.power hb)
  · exact (h1.bring hb').trans (h0.bring hb)
  · exact (h1.sec hb').trans (h0.sec hb)
  · exact (h1.dict hb').trans (h0.dict hb)
  · exact (h1.time hb').trans (h0.time hb)
  · exact (h1.freeCtr hb').trans (h0.freeCtr hb)

/-! ### Answers that hold a state -/

/-- An optional state. -/
def KeepsO (m : Nat) (s : State) (o : Option State) : Prop := ∀ t, o = some t → Keeps m s t
/-- The outcome of a dictionary action, or of a plan load. -/
def KeepsE (m : Nat) (s : State) (o : Except Nat State) : Prop := ∀ t, o = .ok t → Keeps m s t
/-- The outcome of a command. -/
def KeepsR (m : Nat) (s : State) (o : Res) : Prop := ∀ t, o = .next t → Keeps m s t
/-- A state with a value. -/
def KeepsP {α : Type} (m : Nat) (s : State) (o : State × α) : Prop := Keeps m s o.1
/-- An optional state with a value. -/
def KeepsQ {α : Type} (m : Nat) (s : State) (o : Option (State × α)) : Prop := ∀ t, o = some t → Keeps m s t.1

variable {m : Nat} {s0 s t : State}

theorem KeepsO.some (h : Keeps m s0 s) : KeepsO m s0 (some s) := fun _ e => by cases e; exact h
theorem KeepsO.none : KeepsO m s0 none := fun _ e => nomatch e
theorem KeepsO.get {o : Option State} (h : KeepsO m s0 o) (e : o = Option.some t) : Keeps m s0 t := h t e
theorem KeepsO.bind {o : Option State} {f : State → Option State} (h : KeepsO m s0 o)
    (hf : ∀ u, Keeps m s0 u → KeepsO m s0 (f u)) : KeepsO m s0 (o.bind f) := by
  cases o with
  | none => exact KeepsO.none
  | some u => exact hf u (h u rfl)
theorem KeepsO.getD {o : Option State} (h : KeepsO m s0 o) (hs : Keeps m s0 s) : Keeps m s0 (o.getD s) := by
  cases o with
  | none => exact hs
  | some u => exact h u rfl
theorem KeepsE.ok (h : Keeps m s0 s) : KeepsE m s0 (.ok s) := fun _ e => by cases e; exact h
theorem KeepsE.error {n : Nat} : KeepsE m s0 (.error n) := fun _ e => nomatch e
theorem KeepsE.get {o : Except Nat State} (h : KeepsE m s0 o) (e : o = .ok t) : Keeps m s0 t := h t e
theorem KeepsR.next (h : Keeps m s0 s) : KeepsR m s0 (.next s) := fun _ e => by cases e; exact h
theorem KeepsR.fault {f : Fault} : KeepsR m s0 (.fault f) := fun _ e => nomatch e
theorem KeepsR.onPart {k : String} {l n : Nat} (h : Keeps m s0 s) : KeepsR m s0 (onPart k l n s) := by
  unfold Sys2Proof.Machine.onPart; split
  · exact KeepsR.next h
  · exact KeepsR.fault
theorem KeepsR.onCore {c : Nat} (h : Keeps m s0 s) : KeepsR m s0 (onCore c s) := KeepsR.onPart h
theorem KeepsR.get {o : Res} (h : KeepsR m s0 o) (e : o = .next t) : Keeps m s0 t := h t e
theorem KeepsP.mk {α : Type} {a : α} (h : Keeps m s0 s) : KeepsP m s0 (s, a) := h
theorem KeepsP.fst {α : Type} {o : State × α} (h : KeepsP m s0 o) : Keeps m s0 o.1 := h
theorem KeepsP.get {α : Type} {o : State × α} {a : α} (h : KeepsP m s0 o) (e : o = (t, a)) : Keeps m s0 t := by
  subst e; exact h
theorem KeepsQ.some {α : Type} {a : α} (h : Keeps m s0 s) : KeepsQ m s0 (some (s, a)) := fun _ e => by cases e; exact h
theorem KeepsQ.none {α : Type} : KeepsQ (α := α) m s0 none := fun _ e => nomatch e
theorem KeepsQ.get {α : Type} {o : Option (State × α)} {a : α} (h : KeepsQ m s0 o) (e : o = Option.some (t, a)) : Keeps m s0 t :=
  h _ e

theorem KeepsO.step {a : Nat} {o : Option State} (h1 : KeepsO a s o) (hm : a ||| m = m) (h0 : Keeps m s0 s) : KeepsO m s0 o :=
  fun _ e => (h1 _ e).step hm h0
theorem KeepsE.step {a : Nat} {o : Except Nat State} (h1 : KeepsE a s o) (hm : a ||| m = m) (h0 : Keeps m s0 s) : KeepsE m s0 o :=
  fun _ e => (h1 _ e).step hm h0
theorem KeepsR.step {a : Nat} {o : Res} (h1 : KeepsR a s o) (hm : a ||| m = m) (h0 : Keeps m s0 s) : KeepsR m s0 o :=
  fun _ e => (h1 _ e).step hm h0
theorem KeepsP.step {α : Type} {a : Nat} {o : State × α} (h1 : KeepsP a s o) (hm : a ||| m = m) (h0 : Keeps m s0 s) :
    KeepsP m s0 o := Keeps.step h1 hm h0
theorem KeepsQ.step {α : Type} {a : Nat} {o : Option (State × α)} (h1 : KeepsQ a s o) (hm : a ||| m = m) (h0 : Keeps m s0 s) :
    KeepsQ m s0 o := fun _ e => (h1 _ e).step hm h0

/-- A mask within a mask within the mask. -/
theorem Keeps.sub {a b m : Nat} (hm : b ||| m = m) (h : a ||| b = b) : a ||| m = m := by
  rw [← hm, ← Nat.or_assoc, h]
/-- A bit of a mask within the mask. -/
theorem Keeps.bit {b m i : Nat} (hm : b ||| m = m) (h : b.testBit i = true) : m.testBit i = true := by
  rw [← hm, Nat.testBit_or, h, Bool.true_or]

theorem KeepsQ.map {α β : Type} {o : Option β} {f : β → State × α} (hf : ∀ b, Keeps m s0 (f b).1) : KeepsQ m s0 (o.map f) := by
  intro t e
  cases o with
  | none => exact nomatch e
  | some b => cases e; exact hf b
theorem KeepsO.map {β : Type} {o : Option β} {f : β → State} (hf : ∀ b, Keeps m s0 (f b)) : KeepsO m s0 (o.map f) := by
  intro t e
  cases o with
  | none => exact nomatch e
  | some b => cases e; exact hf b

/-! ### Control -/

theorem keeps_whenever {b : Bool} (h1 : Keeps m s0 s) (h2 : Keeps m s0 t) : Keeps m s0 (whenever b s t) := by
  unfold whenever; split <;> assumption

theorem keeps_ite {c : Prop} [Decidable c] (h1 : Keeps m s0 s) (h2 : Keeps m s0 t) : Keeps m s0 (if c then s else t) := by
  split <;> assumption

theorem keeps_foldl {α : Type} (f : State → α → State) (hf : ∀ u x, Keeps m s0 u → Keeps m s0 (f u x)) (l : List α)
    (h : Keeps m s0 s) : Keeps m s0 (l.foldl f s) := by
  induction l generalizing s with
  | nil => exact h
  | cons x r ih => exact ih (hf s x h)

theorem keepsP_foldl {α β : Type} (f : State × β → α → State × β) (hf : ∀ u x, KeepsP m s0 u → KeepsP m s0 (f u x)) (l : List α)
    {p : State × β} (h : KeepsP m s0 p) : KeepsP m s0 (l.foldl f p) := by
  induction l generalizing p with
  | nil => exact h
  | cons x r ih => exact ih (hf p x h)

theorem keepsP_ite {α : Type} {c : Prop} [Decidable c] {a b : State × α} (h1 : KeepsP m s0 a) (h2 : KeepsP m s0 b) :
    KeepsP m s0 (if c then a else b) := by split <;> assumption

theorem keepsE_guardAct {b : Bool} {n : Nat} {a : Except Nat State} (h : KeepsE m s0 a) : KeepsE m s0 (if b then a else .error n) := by
  split
  · exact h
  · exact KeepsE.error

end Sys2Proof.Machine
end

