-- ==== Sys2Proof/Laws/Mem.lean ====
section
/-!
SUPPORT. Laws/Mem.lean: maps keyed by numbers, memory reads after writes, and the canonical form of memory.
-/

namespace Sys2Proof.Machine

variable {α : Type}

/-! ### Maps -/

/-- Every key of a map is beyond `k`. -/
def beyond (k : Nat) (m : List (Nat × α)) : Prop := ∀ x ∈ m, k < x.1

/-- A map's keys rise. -/
def rising (m : List (Nat × α)) : Prop := m.Pairwise fun x y => x.1 < y.1

theorem mem_put {m : List (Nat × α)} {k : Nat} {v : α} {x : Nat × α} (h : x ∈ put m k v) : x = (k, v) ∨ x ∈ m := by
  induction m with
  | nil => simp [put] at h; exact Or.inl h
  | cons y r ih =>
    obtain ⟨a, w⟩ := y
    unfold put at h
    split at h
    · rcases List.mem_cons.mp h with h | h
      · exact Or.inl h
      · exact Or.inr h
    · split at h
      · rcases List.mem_cons.mp h with h | h
        · exact Or.inl h
        · exact Or.inr (List.mem_cons_of_mem _ h)
      · rcases List.mem_cons.mp h with h | h
        · exact Or.inr (h ▸ List.mem_cons_self)
        · rcases ih h with h | h
          · exact Or.inl h
          · exact Or.inr (List.mem_cons_of_mem _ h)

theorem rising_put {m : List (Nat × α)} (k : Nat) (v : α) (h : rising m) : rising (put m k v) := by
  induction m with
  | nil => simp [put, rising]
  | cons y r ih =>
    obtain ⟨a, w⟩ := y
    obtain ⟨hy, hr⟩ := List.pairwise_cons.mp h
    unfold put
    split
    · rename_i hk
      refine List.pairwise_cons.mpr ⟨fun x hx => ?_, h⟩
      rcases List.mem_cons.mp hx with rfl | hx
      · exact hk
      · exact Nat.lt_trans hk (hy x hx)
    · split
      · rename_i hk; subst hk
        exact List.pairwise_cons.mpr ⟨hy, hr⟩
      · rename_i h1 h2
        refine List.pairwise_cons.mpr ⟨fun x hx => ?_, ih hr⟩
        rcases mem_put hx with rfl | hx
        · simp only; omega
        · exact hy x hx

/-- Reading the entry that was put. -/
@[simp] theorem find?_put_same (m : List (Nat × α)) (k : Nat) (v : α) : find? (put m k v) k = some v := by
  induction m with
  | nil => simp [put, find?]
  | cons y r ih =>
    obtain ⟨a, w⟩ := y
    unfold put
    split
    · simp [find?]
    · split
      · simp [find?]
      · rename_i h1 h2
        simp [find?, Ne.symm h2, ih]

/-- Putting one entry leaves the others, in a map whose keys rise or not. -/
@[simp] theorem find?_put_other {m : List (Nat × α)} {k j : Nat} {v : α} (h : j ≠ k) : find? (put m k v) j = find? m j := by
  induction m with
  | nil => simp [put, find?, Ne.symm h]
  | cons y r ih =>
    obtain ⟨a, w⟩ := y
    unfold put
    split
    · simp [find?, Ne.symm h]
    · split
      · rename_i h1 h2; subst h2
        simp [find?, Ne.symm h]
      · simp [find?, ih]

@[simp] theorem get_put_same (m : List (Nat × α)) (k : Nat) (v d : α) : get (put m k v) k d = v := by simp [get]
@[simp] theorem get_put_other {m : List (Nat × α)} {k j : Nat} {v d : α} (h : j ≠ k) : get (put m k v) j d = get m j d := by
  simp [get, h]

theorem find?_drop_other {m : List (Nat × α)} {k j : Nat} (h : j ≠ k) : find? (drop m k) j = find? m j := by
  induction m with
  | nil => rfl
  | cons y r ih =>
    obtain ⟨a, w⟩ := y
    unfold drop at ih ⊢
    by_cases ha : a = k
    · subst ha
      simp [find?, Ne.symm h, ih]
    · simp [find?, ha, ih]

theorem find?_drop_same (m : List (Nat × α)) (k : Nat) : find? (drop m k) k = none := by
  induction m with
  | nil => rfl
  | cons y r ih =>
    obtain ⟨a, w⟩ := y
    unfold drop at ih ⊢
    by_cases ha : a = k
    · simp [ha, ih]
    · simp [find?, ha, ih]

/-! ### Memory -/

theorem Mem.wf_nil : Mem.wf [] := ⟨List.Pairwise.nil, fun _ h => absurd h List.not_mem_nil⟩

/-- Leaving entries out keeps the canonical form. -/
theorem Mem.wf_filter {m : List (Nat × BitVec 8)} (p : Nat × BitVec 8 → Bool) (h : Mem.wf m) : Mem.wf (m.filter p) :=
  ⟨h.1.sublist List.filter_sublist, fun x hx => h.2 x (List.mem_of_mem_filter hx)⟩

/-- Writing one byte keeps the canonical form. -/
theorem Mem.wf_write {m : List (Nat × BitVec 8)} (a : Nat) (b : BitVec 8) (h : Mem.wf m) : Mem.wf (Mem.write m a b) := by
  unfold Mem.write
  split
  · exact Mem.wf_filter _ h
  · rename_i hb
    refine ⟨rising_put a b h.1, fun x hx => ?_⟩
    rcases mem_put hx with rfl | hx
    · exact hb
    · exact h.2 x hx

/-- Writing bytes keeps the canonical form. -/
theorem Mem.wf_writeN {m : List (Nat × BitVec 8)} (a : Nat) (d : List (BitVec 8)) (h : Mem.wf m) : Mem.wf (Mem.writeN m a d) := by
  induction d generalizing m a with
  | nil => exact h
  | cons b r ih => exact ih (a + 1) (Mem.wf_write a b h)

/-- Reading the byte that was written. -/
@[simp] theorem Mem.read_write_same (m : List (Nat × BitVec 8)) (a : Nat) (b : BitVec 8) : Mem.read (Mem.write m a b) a = b := by
  unfold Mem.read Mem.write get
  split
  · rename_i hb; simp [find?_drop_same, hb]
  · simp

/-- Writing one byte leaves every other address. -/
@[simp] theorem Mem.read_write_other {m : List (Nat × BitVec 8)} {a k : Nat} {b : BitVec 8} (h : k ≠ a) :
    Mem.read (Mem.write m a b) k = Mem.read m k := by
  unfold Mem.read Mem.write get
  split
  · rw [find?_drop_other h]
  · rw [find?_put_other h]

/-- Writing bytes leaves every address outside them. -/
theorem Mem.read_writeN_other {m : List (Nat × BitVec 8)} {a k : Nat} (d : List (BitVec 8)) (h : k < a ∨ a + d.length ≤ k) :
    Mem.read (Mem.writeN m a d) k = Mem.read m k := by
  induction d generalizing m a with
  | nil => rfl
  | cons b r ih =>
    simp only [List.length_cons] at h
    unfold Mem.writeN
    rw [ih (by omega), Mem.read_write_other (by omega)]

/-- Reading a byte that was written. -/
theorem Mem.read_writeN {m : List (Nat × BitVec 8)} {a i : Nat} (d : List (BitVec 8)) (h : i < d.length) :
    Mem.read (Mem.writeN m a d) (a + i) = d[i] := by
  induction d generalizing m a i with
  | nil => simp at h
  | cons b r ih =>
    unfold Mem.writeN
    cases i with
    | zero => rw [Mem.read_writeN_other _ (by omega)]; simp
    | succ j =>
      have := ih (m := Mem.write m a b) (a := a + 1) (i := j) (by simpa using h)
      rw [show a + (j + 1) = a + 1 + j by omega, this]
      simp

/-- Reading back the bytes that were written. -/
theorem Mem.readN_writeN (m : List (Nat × BitVec 8)) (a : Nat) (d : List (BitVec 8)) :
    Mem.readN (Mem.writeN m a d) a d.length = d := by
  induction d generalizing m a with
  | nil => rfl
  | cons b r ih =>
    have h0 : Mem.read (Mem.writeN m a (b :: r)) a = b := by
      have := Mem.read_writeN (m := m) (a := a) (i := 0) (b :: r) (by simp)
      simpa using this
    simp only [List.length_cons, Mem.readN, h0]
    unfold Mem.writeN
    rw [ih]

end Sys2Proof.Machine
end

