-- ==== Sys2Proof/Laws/Parts.lean ====
section
/-!
SUPPORT. Laws/Parts.lean: commands on a part that exists answer a next state; the step takes the front of the queue.
-/

namespace Sys2Proof.Machine

/-- A command on a part that exists answers the state it gives. -/
theorem onPart_next {kind : String} {lim n : Nat} {t : State} (h : n < lim) : onPart kind lim n t = .next t := if_pos h

/-- A command on a part that does not exist stops. -/
theorem onPart_fault {kind : String} {lim n : Nat} {t : State} (h : ¬ n < lim) : onPart kind lim n t = .fault (.noSuchPart kind n) :=
  if_neg h

/-- A command on a logical core answers the state it gives. -/
theorem onCore_next {c : Nat} {t : State} (h : c < 80000) : onCore c t = .next t := onPart_next h

/-- Where its condition holds, a step takes effect. -/
theorem whenever_pos {b : Bool} {s t : State} (h : b = true) : whenever b s t = t := if_pos h

/-- Where its condition does not hold, a step finds nothing to do. -/
theorem whenever_neg {b : Bool} {s t : State} (h : b = false) : whenever b s t = s := by simp [whenever, h]

/-- A step takes the command at the front of the queue. -/
theorem step_cons {s : State} {c : Instr} {rest : List Instr} (h : s.pending = c :: rest) :
    step s = exec c { s with pending := rest } := by simp [step, h]

end Sys2Proof.Machine
end

