-- ==== Sys2Proof/Laws/State.lean ====
section
/-!
SUPPORT. Laws/State.lean: what the basic updates of the state leave alone, field by field, and what they write.
-/

namespace Sys2Proof.Machine

set_option Elab.async false

@[simp] theorem State.setCore_pending (s : State) (c : Nat) (k : Core) : (s.setCore c k).pending = s.pending := rfl
@[simp] theorem State.setCore_mem (s : State) (c : Nat) (k : Core) : (s.setCore c k).mem = s.mem := rfl
@[simp] theorem State.setCore_reqs (s : State) (c : Nat) (k : Core) : (s.setCore c k).reqs = s.reqs := rfl
@[simp] theorem State.setCore_nextTag (s : State) (c : Nat) (k : Core) : (s.setCore c k).nextTag = s.nextTag := rfl
@[simp] theorem State.setCore_accepts (s : State) (c : Nat) (k : Core) : (s.setCore c k).accepts = s.accepts := rfl
@[simp] theorem State.setCore_writers (s : State) (c : Nat) (k : Core) : (s.setCore c k).writers = s.writers := rfl
@[simp] theorem State.setCore_cellar (s : State) (c : Nat) (k : Core) : (s.setCore c k).cellar = s.cellar := rfl
@[simp] theorem State.setCore_coh (s : State) (c : Nat) (k : Core) : (s.setCore c k).coh = s.coh := rfl
@[simp] theorem State.setCore_trellis (s : State) (c : Nat) (k : Core) : (s.setCore c k).trellis = s.trellis := rfl
@[simp] theorem State.setCore_hbm (s : State) (c : Nat) (k : Core) : (s.setCore c k).hbm = s.hbm := rfl
@[simp] theorem State.setCore_sau (s : State) (c : Nat) (k : Core) : (s.setCore c k).sau = s.sau := rfl
@[simp] theorem State.setCore_seq (s : State) (c : Nat) (k : Core) : (s.setCore c k).seq = s.seq := rfl
@[simp] theorem State.setCore_host (s : State) (c : Nat) (k : Core) : (s.setCore c k).host = s.host := rfl
@[simp] theorem State.setCore_span (s : State) (c : Nat) (k : Core) : (s.setCore c k).span = s.span := rfl
@[simp] theorem State.setCore_parts (s : State) (c : Nat) (k : Core) : (s.setCore c k).parts = s.parts := rfl
@[simp] theorem State.setCore_faults (s : State) (c : Nat) (k : Core) : (s.setCore c k).faults = s.faults := rfl
@[simp] theorem State.setCore_power (s : State) (c : Nat) (k : Core) : (s.setCore c k).power = s.power := rfl
@[simp] theorem State.setCore_bring (s : State) (c : Nat) (k : Core) : (s.setCore c k).bring = s.bring := rfl
@[simp] theorem State.setCore_sec (s : State) (c : Nat) (k : Core) : (s.setCore c k).sec = s.sec := rfl
@[simp] theorem State.setCore_dict (s : State) (c : Nat) (k : Core) : (s.setCore c k).dict = s.dict := rfl
@[simp] theorem State.setCore_time (s : State) (c : Nat) (k : Core) : (s.setCore c k).time = s.time := rfl
@[simp] theorem State.setCore_freeCtr (s : State) (c : Nat) (k : Core) : (s.setCore c k).freeCtr = s.freeCtr := rfl

@[simp] theorem State.onCoreState_pending (s : State) (c : Nat) (f : Core → Core) : (s.onCoreState c f).pending = s.pending := rfl
@[simp] theorem State.onCoreState_mem (s : State) (c : Nat) (f : Core → Core) : (s.onCoreState c f).mem = s.mem := rfl
@[simp] theorem State.onCoreState_reqs (s : State) (c : Nat) (f : Core → Core) : (s.onCoreState c f).reqs = s.reqs := rfl
@[simp] theorem State.onCoreState_nextTag (s : State) (c : Nat) (f : Core → Core) : (s.onCoreState c f).nextTag = s.nextTag := rfl
@[simp] theorem State.onCoreState_accepts (s : State) (c : Nat) (f : Core → Core) : (s.onCoreState c f).accepts = s.accepts := rfl
@[simp] theorem State.onCoreState_writers (s : State) (c : Nat) (f : Core → Core) : (s.onCoreState c f).writers = s.writers := rfl
@[simp] theorem State.onCoreState_cellar (s : State) (c : Nat) (f : Core → Core) : (s.onCoreState c f).cellar = s.cellar := rfl
@[simp] theorem State.onCoreState_coh (s : State) (c : Nat) (f : Core → Core) : (s.onCoreState c f).coh = s.coh := rfl
@[simp] theorem State.onCoreState_trellis (s : State) (c : Nat) (f : Core → Core) : (s.onCoreState c f).trellis = s.trellis := rfl
@[simp] theorem State.onCoreState_hbm (s : State) (c : Nat) (f : Core → Core) : (s.onCoreState c f).hbm = s.hbm := rfl
@[simp] theorem State.onCoreState_sau (s : State) (c : Nat) (f : Core → Core) : (s.onCoreState c f).sau = s.sau := rfl
@[simp] theorem State.onCoreState_seq (s : State) (c : Nat) (f : Core → Core) : (s.onCoreState c f).seq = s.seq := rfl
@[simp] theorem State.onCoreState_host (s : State) (c : Nat) (f : Core → Core) : (s.onCoreState c f).host = s.host := rfl
@[simp] theorem State.onCoreState_span (s : State) (c : Nat) (f : Core → Core) : (s.onCoreState c f).span = s.span := rfl
@[simp] theorem State.onCoreState_parts (s : State) (c : Nat) (f : Core → Core) : (s.onCoreState c f).parts = s.parts := rfl
@[simp] theorem State.onCoreState_faults (s : State) (c : Nat) (f : Core → Core) : (s.onCoreState c f).faults = s.faults := rfl
@[simp] theorem State.onCoreState_power (s : State) (c : Nat) (f : Core → Core) : (s.onCoreState c f).power = s.power := rfl
@[simp] theorem State.onCoreState_bring (s : State) (c : Nat) (f : Core → Core) : (s.onCoreState c f).bring = s.bring := rfl
@[simp] theorem State.onCoreState_sec (s : State) (c : Nat) (f : Core → Core) : (s.onCoreState c f).sec = s.sec := rfl
@[simp] theorem State.onCoreState_dict (s : State) (c : Nat) (f : Core → Core) : (s.onCoreState c f).dict = s.dict := rfl
@[simp] theorem State.onCoreState_time (s : State) (c : Nat) (f : Core → Core) : (s.onCoreState c f).time = s.time := rfl
@[simp] theorem State.onCoreState_freeCtr (s : State) (c : Nat) (f : Core → Core) : (s.onCoreState c f).freeCtr = s.freeCtr := rfl

@[simp] theorem State.setOd_pending (s : State) (i j v : Nat) : (s.setOd i j v).pending = s.pending := rfl
@[simp] theorem State.setOd_mem (s : State) (i j v : Nat) : (s.setOd i j v).mem = s.mem := rfl
@[simp] theorem State.setOd_cores (s : State) (i j v : Nat) : (s.setOd i j v).cores = s.cores := rfl
@[simp] theorem State.setOd_reqs (s : State) (i j v : Nat) : (s.setOd i j v).reqs = s.reqs := rfl
@[simp] theorem State.setOd_nextTag (s : State) (i j v : Nat) : (s.setOd i j v).nextTag = s.nextTag := rfl
@[simp] theorem State.setOd_accepts (s : State) (i j v : Nat) : (s.setOd i j v).accepts = s.accepts := rfl
@[simp] theorem State.setOd_writers (s : State) (i j v : Nat) : (s.setOd i j v).writers = s.writers := rfl
@[simp] theorem State.setOd_cellar (s : State) (i j v : Nat) : (s.setOd i j v).cellar = s.cellar := rfl
@[simp] theorem State.setOd_coh (s : State) (i j v : Nat) : (s.setOd i j v).coh = s.coh := rfl
@[simp] theorem State.setOd_trellis (s : State) (i j v : Nat) : (s.setOd i j v).trellis = s.trellis := rfl
@[simp] theorem State.setOd_hbm (s : State) (i j v : Nat) : (s.setOd i j v).hbm = s.hbm := rfl
@[simp] theorem State.setOd_sau (s : State) (i j v : Nat) : (s.setOd i j v).sau = s.sau := rfl
@[simp] theorem State.setOd_seq (s : State) (i j v : Nat) : (s.setOd i j v).seq = s.seq := rfl
@[simp] theorem State.setOd_host (s : State) (i j v : Nat) : (s.setOd i j v).host = s.host := rfl
@[simp] theorem State.setOd_span (s : State) (i j v : Nat) : (s.setOd i j v).span = s.span := rfl
@[simp] theorem State.setOd_parts (s : State) (i j v : Nat) : (s.setOd i j v).parts = s.parts := rfl
@[simp] theorem State.setOd_faults (s : State) (i j v : Nat) : (s.setOd i j v).faults = s.faults := rfl
@[simp] theorem State.setOd_power (s : State) (i j v : Nat) : (s.setOd i j v).power = s.power := rfl
@[simp] theorem State.setOd_bring (s : State) (i j v : Nat) : (s.setOd i j v).bring = s.bring := rfl
@[simp] theorem State.setOd_sec (s : State) (i j v : Nat) : (s.setOd i j v).sec = s.sec := rfl
@[simp] theorem State.setOd_time (s : State) (i j v : Nat) : (s.setOd i j v).time = s.time := rfl
@[simp] theorem State.setOd_freeCtr (s : State) (i j v : Nat) : (s.setOd i j v).freeCtr = s.freeCtr := rfl

@[simp] theorem State.bump_pending (s : State) (i j n : Nat) : (s.bump i j n).pending = s.pending := rfl
@[simp] theorem State.bump_mem (s : State) (i j n : Nat) : (s.bump i j n).mem = s.mem := rfl
@[simp] theorem State.bump_cores (s : State) (i j n : Nat) : (s.bump i j n).cores = s.cores := rfl
@[simp] theorem State.bump_reqs (s : State) (i j n : Nat) : (s.bump i j n).reqs = s.reqs := rfl
@[simp] theorem State.bump_nextTag (s : State) (i j n : Nat) : (s.bump i j n).nextTag = s.nextTag := rfl
@[simp] theorem State.bump_accepts (s : State) (i j n : Nat) : (s.bump i j n).accepts = s.accepts := rfl
@[simp] theorem State.bump_writers (s : State) (i j n : Nat) : (s.bump i j n).writers = s.writers := rfl
@[simp] theorem State.bump_cellar (s : State) (i j n : Nat) : (s.bump i j n).cellar = s.cellar := rfl
@[simp] theorem State.bump_coh (s : State) (i j n : Nat) : (s.bump i j n).coh = s.coh := rfl
@[simp] theorem State.bump_trellis (s : State) (i j n : Nat) : (s.bump i j n).trellis = s.trellis := rfl
@[simp] theorem State.bump_hbm (s : State) (i j n : Nat) : (s.bump i j n).hbm = s.hbm := rfl
@[simp] theorem State.bump_sau (s : State) (i j n : Nat) : (s.bump i j n).sau = s.sau := rfl
@[simp] theorem State.bump_seq (s : State) (i j n : Nat) : (s.bump i j n).seq = s.seq := rfl
@[simp] theorem State.bump_host (s : State) (i j n : Nat) : (s.bump i j n).host = s.host := rfl
@[simp] theorem State.bump_span (s : State) (i j n : Nat) : (s.bump i j n).span = s.span := rfl
@[simp] theorem State.bump_parts (s : State) (i j n : Nat) : (s.bump i j n).parts = s.parts := rfl
@[simp] theorem State.bump_faults (s : State) (i j n : Nat) : (s.bump i j n).faults = s.faults := rfl
@[simp] theorem State.bump_power (s : State) (i j n : Nat) : (s.bump i j n).power = s.power := rfl
@[simp] theorem State.bump_bring (s : State) (i j n : Nat) : (s.bump i j n).bring = s.bring := rfl
@[simp] theorem State.bump_sec (s : State) (i j n : Nat) : (s.bump i j n).sec = s.sec := rfl
@[simp] theorem State.bump_time (s : State) (i j n : Nat) : (s.bump i j n).time = s.time := rfl
@[simp] theorem State.bump_freeCtr (s : State) (i j n : Nat) : (s.bump i j n).freeCtr = s.freeCtr := rfl

@[simp] theorem State.sticky_pending (s : State) (i j b : Nat) : (s.sticky i j b).pending = s.pending := rfl
@[simp] theorem State.sticky_mem (s : State) (i j b : Nat) : (s.sticky i j b).mem = s.mem := rfl
@[simp] theorem State.sticky_cores (s : State) (i j b : Nat) : (s.sticky i j b).cores = s.cores := rfl
@[simp] theorem State.sticky_reqs (s : State) (i j b : Nat) : (s.sticky i j b).reqs = s.reqs := rfl
@[simp] theorem State.sticky_nextTag (s : State) (i j b : Nat) : (s.sticky i j b).nextTag = s.nextTag := rfl
@[simp] theorem State.sticky_accepts (s : State) (i j b : Nat) : (s.sticky i j b).accepts = s.accepts := rfl
@[simp] theorem State.sticky_writers (s : State) (i j b : Nat) : (s.sticky i j b).writers = s.writers := rfl
@[simp] theorem State.sticky_cellar (s : State) (i j b : Nat) : (s.sticky i j b).cellar = s.cellar := rfl
@[simp] theorem State.sticky_coh (s : State) (i j b : Nat) : (s.sticky i j b).coh = s.coh := rfl
@[simp] theorem State.sticky_trellis (s : State) (i j b : Nat) : (s.sticky i j b).trellis = s.trellis := rfl
@[simp] theorem State.sticky_hbm (s : State) (i j b : Nat) : (s.sticky i j b).hbm = s.hbm := rfl
@[simp] theorem State.sticky_sau (s : State) (i j b : Nat) : (s.sticky i j b).sau = s.sau := rfl
@[simp] theorem State.sticky_seq (s : State) (i j b : Nat) : (s.sticky i j b).seq = s.seq := rfl
@[simp] theorem State.sticky_host (s : State) (i j b : Nat) : (s.sticky i j b).host = s.host := rfl
@[simp] theorem State.sticky_span (s : State) (i j b : Nat) : (s.sticky i j b).span = s.span := rfl
@[simp] theorem State.sticky_parts (s : State) (i j b : Nat) : (s.sticky i j b).parts = s.parts := rfl
@[simp] theorem State.sticky_faults (s : State) (i j b : Nat) : (s.sticky i j b).faults = s.faults := rfl
@[simp] theorem State.sticky_power (s : State) (i j b : Nat) : (s.sticky i j b).power = s.power := rfl
@[simp] theorem State.sticky_bring (s : State) (i j b : Nat) : (s.sticky i j b).bring = s.bring := rfl
@[simp] theorem State.sticky_sec (s : State) (i j b : Nat) : (s.sticky i j b).sec = s.sec := rfl
@[simp] theorem State.sticky_time (s : State) (i j b : Nat) : (s.sticky i j b).time = s.time := rfl
@[simp] theorem State.sticky_freeCtr (s : State) (i j b : Nat) : (s.sticky i j b).freeCtr = s.freeCtr := rfl

@[simp] theorem State.drew_pending (s : State) : (s.drew).pending = s.pending := rfl
@[simp] theorem State.drew_mem (s : State) : (s.drew).mem = s.mem := rfl
@[simp] theorem State.drew_cores (s : State) : (s.drew).cores = s.cores := rfl
@[simp] theorem State.drew_reqs (s : State) : (s.drew).reqs = s.reqs := rfl
@[simp] theorem State.drew_nextTag (s : State) : (s.drew).nextTag = s.nextTag := rfl
@[simp] theorem State.drew_accepts (s : State) : (s.drew).accepts = s.accepts := rfl
@[simp] theorem State.drew_writers (s : State) : (s.drew).writers = s.writers := rfl
@[simp] theorem State.drew_cellar (s : State) : (s.drew).cellar = s.cellar := rfl
@[simp] theorem State.drew_coh (s : State) : (s.drew).coh = s.coh := rfl
@[simp] theorem State.drew_trellis (s : State) : (s.drew).trellis = s.trellis := rfl
@[simp] theorem State.drew_hbm (s : State) : (s.drew).hbm = s.hbm := rfl
@[simp] theorem State.drew_sau (s : State) : (s.drew).sau = s.sau := rfl
@[simp] theorem State.drew_seq (s : State) : (s.drew).seq = s.seq := rfl
@[simp] theorem State.drew_host (s : State) : (s.drew).host = s.host := rfl
@[simp] theorem State.drew_span (s : State) : (s.drew).span = s.span := rfl
@[simp] theorem State.drew_parts (s : State) : (s.drew).parts = s.parts := rfl
@[simp] theorem State.drew_faults (s : State) : (s.drew).faults = s.faults := rfl
@[simp] theorem State.drew_power (s : State) : (s.drew).power = s.power := rfl
@[simp] theorem State.drew_bring (s : State) : (s.drew).bring = s.bring := rfl
@[simp] theorem State.drew_sec (s : State) : (s.drew).sec = s.sec := rfl
@[simp] theorem State.drew_dict (s : State) : (s.drew).dict = s.dict := rfl
@[simp] theorem State.drew_time (s : State) : (s.drew).time = s.time := rfl

@[simp] theorem State.tick_pending (s : State) : (s.tick).pending = s.pending := rfl
@[simp] theorem State.tick_mem (s : State) : (s.tick).mem = s.mem := rfl
@[simp] theorem State.tick_cores (s : State) : (s.tick).cores = s.cores := rfl
@[simp] theorem State.tick_reqs (s : State) : (s.tick).reqs = s.reqs := rfl
@[simp] theorem State.tick_nextTag (s : State) : (s.tick).nextTag = s.nextTag := rfl
@[simp] theorem State.tick_accepts (s : State) : (s.tick).accepts = s.accepts := rfl
@[simp] theorem State.tick_writers (s : State) : (s.tick).writers = s.writers := rfl
@[simp] theorem State.tick_cellar (s : State) : (s.tick).cellar = s.cellar := rfl
@[simp] theorem State.tick_coh (s : State) : (s.tick).coh = s.coh := rfl
@[simp] theorem State.tick_trellis (s : State) : (s.tick).trellis = s.trellis := rfl
@[simp] theorem State.tick_hbm (s : State) : (s.tick).hbm = s.hbm := rfl
@[simp] theorem State.tick_sau (s : State) : (s.tick).sau = s.sau := rfl
@[simp] theorem State.tick_seq (s : State) : (s.tick).seq = s.seq := rfl
@[simp] theorem State.tick_host (s : State) : (s.tick).host = s.host := rfl
@[simp] theorem State.tick_span (s : State) : (s.tick).span = s.span := rfl
@[simp] theorem State.tick_parts (s : State) : (s.tick).parts = s.parts := rfl
@[simp] theorem State.tick_faults (s : State) : (s.tick).faults = s.faults := rfl
@[simp] theorem State.tick_power (s : State) : (s.tick).power = s.power := rfl
@[simp] theorem State.tick_bring (s : State) : (s.tick).bring = s.bring := rfl
@[simp] theorem State.tick_sec (s : State) : (s.tick).sec = s.sec := rfl
@[simp] theorem State.tick_dict (s : State) : (s.tick).dict = s.dict := rfl

@[simp] theorem State.sendReport_pending (s : State) (r : Report) : (s.sendReport r).pending = s.pending := rfl
@[simp] theorem State.sendReport_mem (s : State) (r : Report) : (s.sendReport r).mem = s.mem := rfl
@[simp] theorem State.sendReport_cores (s : State) (r : Report) : (s.sendReport r).cores = s.cores := rfl
@[simp] theorem State.sendReport_reqs (s : State) (r : Report) : (s.sendReport r).reqs = s.reqs := rfl
@[simp] theorem State.sendReport_nextTag (s : State) (r : Report) : (s.sendReport r).nextTag = s.nextTag := rfl
@[simp] theorem State.sendReport_accepts (s : State) (r : Report) : (s.sendReport r).accepts = s.accepts := rfl
@[simp] theorem State.sendReport_writers (s : State) (r : Report) : (s.sendReport r).writers = s.writers := rfl
@[simp] theorem State.sendReport_cellar (s : State) (r : Report) : (s.sendReport r).cellar = s.cellar := rfl
@[simp] theorem State.sendReport_coh (s : State) (r : Report) : (s.sendReport r).coh = s.coh := rfl
@[simp] theorem State.sendReport_trellis (s : State) (r : Report) : (s.sendReport r).trellis = s.trellis := rfl
@[simp] theorem State.sendReport_hbm (s : State) (r : Report) : (s.sendReport r).hbm = s.hbm := rfl
@[simp] theorem State.sendReport_sau (s : State) (r : Report) : (s.sendReport r).sau = s.sau := rfl
@[simp] theorem State.sendReport_seq (s : State) (r : Report) : (s.sendReport r).seq = s.seq := rfl
@[simp] theorem State.sendReport_host (s : State) (r : Report) : (s.sendReport r).host = s.host := rfl
@[simp] theorem State.sendReport_span (s : State) (r : Report) : (s.sendReport r).span = s.span := rfl
@[simp] theorem State.sendReport_parts (s : State) (r : Report) : (s.sendReport r).parts = s.parts := rfl
@[simp] theorem State.sendReport_power (s : State) (r : Report) : (s.sendReport r).power = s.power := rfl
@[simp] theorem State.sendReport_bring (s : State) (r : Report) : (s.sendReport r).bring = s.bring := rfl
@[simp] theorem State.sendReport_sec (s : State) (r : Report) : (s.sendReport r).sec = s.sec := rfl
@[simp] theorem State.sendReport_dict (s : State) (r : Report) : (s.sendReport r).dict = s.dict := rfl
@[simp] theorem State.sendReport_time (s : State) (r : Report) : (s.sendReport r).time = s.time := rfl
@[simp] theorem State.sendReport_freeCtr (s : State) (r : Report) : (s.sendReport r).freeCtr = s.freeCtr := rfl

@[simp] theorem State.report_pending (s : State) (code lk loc d : Nat) (i : Bool) : (s.report code lk loc d i).pending = s.pending := rfl
@[simp] theorem State.report_mem (s : State) (code lk loc d : Nat) (i : Bool) : (s.report code lk loc d i).mem = s.mem := rfl
@[simp] theorem State.report_cores (s : State) (code lk loc d : Nat) (i : Bool) : (s.report code lk loc d i).cores = s.cores := rfl
@[simp] theorem State.report_reqs (s : State) (code lk loc d : Nat) (i : Bool) : (s.report code lk loc d i).reqs = s.reqs := rfl
@[simp] theorem State.report_nextTag (s : State) (code lk loc d : Nat) (i : Bool) : (s.report code lk loc d i).nextTag = s.nextTag := rfl
@[simp] theorem State.report_accepts (s : State) (code lk loc d : Nat) (i : Bool) : (s.report code lk loc d i).accepts = s.accepts := rfl
@[simp] theorem State.report_writers (s : State) (code lk loc d : Nat) (i : Bool) : (s.report code lk loc d i).writers = s.writers := rfl
@[simp] theorem State.report_cellar (s : State) (code lk loc d : Nat) (i : Bool) : (s.report code lk loc d i).cellar = s.cellar := rfl
@[simp] theorem State.report_coh (s : State) (code lk loc d : Nat) (i : Bool) : (s.report code lk loc d i).coh = s.coh := rfl
@[simp] theorem State.report_trellis (s : State) (code lk loc d : Nat) (i : Bool) : (s.report code lk loc d i).trellis = s.trellis := rfl
@[simp] theorem State.report_hbm (s : State) (code lk loc d : Nat) (i : Bool) : (s.report code lk loc d i).hbm = s.hbm := rfl
@[simp] theorem State.report_sau (s : State) (code lk loc d : Nat) (i : Bool) : (s.report code lk loc d i).sau = s.sau := rfl
@[simp] theorem State.report_seq (s : State) (code lk loc d : Nat) (i : Bool) : (s.report code lk loc d i).seq = s.seq := rfl
@[simp] theorem State.report_host (s : State) (code lk loc d : Nat) (i : Bool) : (s.report code lk loc d i).host = s.host := rfl
@[simp] theorem State.report_span (s : State) (code lk loc d : Nat) (i : Bool) : (s.report code lk loc d i).span = s.span := rfl
@[simp] theorem State.report_parts (s : State) (code lk loc d : Nat) (i : Bool) : (s.report code lk loc d i).parts = s.parts := rfl
@[simp] theorem State.report_power (s : State) (code lk loc d : Nat) (i : Bool) : (s.report code lk loc d i).power = s.power := rfl
@[simp] theorem State.report_bring (s : State) (code lk loc d : Nat) (i : Bool) : (s.report code lk loc d i).bring = s.bring := rfl
@[simp] theorem State.report_sec (s : State) (code lk loc d : Nat) (i : Bool) : (s.report code lk loc d i).sec = s.sec := rfl
@[simp] theorem State.report_dict (s : State) (code lk loc d : Nat) (i : Bool) : (s.report code lk loc d i).dict = s.dict := rfl
@[simp] theorem State.report_time (s : State) (code lk loc d : Nat) (i : Bool) : (s.report code lk loc d i).time = s.time := rfl
@[simp] theorem State.report_freeCtr (s : State) (code lk loc d : Nat) (i : Bool) : (s.report code lk loc d i).freeCtr = s.freeCtr := rfl

@[simp] theorem State.addReq_pending (s : State) (r : Req) : (s.addReq r).pending = s.pending := rfl
@[simp] theorem State.addReq_mem (s : State) (r : Req) : (s.addReq r).mem = s.mem := rfl
@[simp] theorem State.addReq_cores (s : State) (r : Req) : (s.addReq r).cores = s.cores := rfl
@[simp] theorem State.addReq_accepts (s : State) (r : Req) : (s.addReq r).accepts = s.accepts := rfl
@[simp] theorem State.addReq_writers (s : State) (r : Req) : (s.addReq r).writers = s.writers := rfl
@[simp] theorem State.addReq_cellar (s : State) (r : Req) : (s.addReq r).cellar = s.cellar := rfl
@[simp] theorem State.addReq_coh (s : State) (r : Req) : (s.addReq r).coh = s.coh := rfl
@[simp] theorem State.addReq_trellis (s : State) (r : Req) : (s.addReq r).trellis = s.trellis := rfl
@[simp] theorem State.addReq_hbm (s : State) (r : Req) : (s.addReq r).hbm = s.hbm := rfl
@[simp] theorem State.addReq_sau (s : State) (r : Req) : (s.addReq r).sau = s.sau := rfl
@[simp] theorem State.addReq_seq (s : State) (r : Req) : (s.addReq r).seq = s.seq := rfl
@[simp] theorem State.addReq_host (s : State) (r : Req) : (s.addReq r).host = s.host := rfl
@[simp] theorem State.addReq_span (s : State) (r : Req) : (s.addReq r).span = s.span := rfl
@[simp] theorem State.addReq_parts (s : State) (r : Req) : (s.addReq r).parts = s.parts := rfl
@[simp] theorem State.addReq_faults (s : State) (r : Req) : (s.addReq r).faults = s.faults := rfl
@[simp] theorem State.addReq_power (s : State) (r : Req) : (s.addReq r).power = s.power := rfl
@[simp] theorem State.addReq_bring (s : State) (r : Req) : (s.addReq r).bring = s.bring := rfl
@[simp] theorem State.addReq_sec (s : State) (r : Req) : (s.addReq r).sec = s.sec := rfl
@[simp] theorem State.addReq_dict (s : State) (r : Req) : (s.addReq r).dict = s.dict := rfl
@[simp] theorem State.addReq_time (s : State) (r : Req) : (s.addReq r).time = s.time := rfl
@[simp] theorem State.addReq_freeCtr (s : State) (r : Req) : (s.addReq r).freeCtr = s.freeCtr := rfl

@[simp] theorem State.setReq_pending (s : State) (t : Nat) (f : Req → Req) : (s.setReq t f).pending = s.pending := rfl
@[simp] theorem State.setReq_mem (s : State) (t : Nat) (f : Req → Req) : (s.setReq t f).mem = s.mem := rfl
@[simp] theorem State.setReq_cores (s : State) (t : Nat) (f : Req → Req) : (s.setReq t f).cores = s.cores := rfl
@[simp] theorem State.setReq_nextTag (s : State) (t : Nat) (f : Req → Req) : (s.setReq t f).nextTag = s.nextTag := rfl
@[simp] theorem State.setReq_accepts (s : State) (t : Nat) (f : Req → Req) : (s.setReq t f).accepts = s.accepts := rfl
@[simp] theorem State.setReq_writers (s : State) (t : Nat) (f : Req → Req) : (s.setReq t f).writers = s.writers := rfl
@[simp] theorem State.setReq_cellar (s : State) (t : Nat) (f : Req → Req) : (s.setReq t f).cellar = s.cellar := rfl
@[simp] theorem State.setReq_coh (s : State) (t : Nat) (f : Req → Req) : (s.setReq t f).coh = s.coh := rfl
@[simp] theorem State.setReq_trellis (s : State) (t : Nat) (f : Req → Req) : (s.setReq t f).trellis = s.trellis := rfl
@[simp] theorem State.setReq_hbm (s : State) (t : Nat) (f : Req → Req) : (s.setReq t f).hbm = s.hbm := rfl
@[simp] theorem State.setReq_sau (s : State) (t : Nat) (f : Req → Req) : (s.setReq t f).sau = s.sau := rfl
@[simp] theorem State.setReq_seq (s : State) (t : Nat) (f : Req → Req) : (s.setReq t f).seq = s.seq := rfl
@[simp] theorem State.setReq_host (s : State) (t : Nat) (f : Req → Req) : (s.setReq t f).host = s.host := rfl
@[simp] theorem State.setReq_span (s : State) (t : Nat) (f : Req → Req) : (s.setReq t f).span = s.span := rfl
@[simp] theorem State.setReq_parts (s : State) (t : Nat) (f : Req → Req) : (s.setReq t f).parts = s.parts := rfl
@[simp] theorem State.setReq_faults (s : State) (t : Nat) (f : Req → Req) : (s.setReq t f).faults = s.faults := rfl
@[simp] theorem State.setReq_power (s : State) (t : Nat) (f : Req → Req) : (s.setReq t f).power = s.power := rfl
@[simp] theorem State.setReq_bring (s : State) (t : Nat) (f : Req → Req) : (s.setReq t f).bring = s.bring := rfl
@[simp] theorem State.setReq_sec (s : State) (t : Nat) (f : Req → Req) : (s.setReq t f).sec = s.sec := rfl
@[simp] theorem State.setReq_dict (s : State) (t : Nat) (f : Req → Req) : (s.setReq t f).dict = s.dict := rfl
@[simp] theorem State.setReq_time (s : State) (t : Nat) (f : Req → Req) : (s.setReq t f).time = s.time := rfl
@[simp] theorem State.setReq_freeCtr (s : State) (t : Nat) (f : Req → Req) : (s.setReq t f).freeCtr = s.freeCtr := rfl

@[simp] theorem State.dropReq_pending (s : State) (t : Nat) : (s.dropReq t).pending = s.pending := rfl
@[simp] theorem State.dropReq_mem (s : State) (t : Nat) : (s.dropReq t).mem = s.mem := rfl
@[simp] theorem State.dropReq_cores (s : State) (t : Nat) : (s.dropReq t).cores = s.cores := rfl
@[simp] theorem State.dropReq_nextTag (s : State) (t : Nat) : (s.dropReq t).nextTag = s.nextTag := rfl
@[simp] theorem State.dropReq_accepts (s : State) (t : Nat) : (s.dropReq t).accepts = s.accepts := rfl
@[simp] theorem State.dropReq_writers (s : State) (t : Nat) : (s.dropReq t).writers = s.writers := rfl
@[simp] theorem State.dropReq_cellar (s : State) (t : Nat) : (s.dropReq t).cellar = s.cellar := rfl
@[simp] theorem State.dropReq_coh (s : State) (t : Nat) : (s.dropReq t).coh = s.coh := rfl
@[simp] theorem State.dropReq_trellis (s : State) (t : Nat) : (s.dropReq t).trellis = s.trellis := rfl
@[simp] theorem State.dropReq_hbm (s : State) (t : Nat) : (s.dropReq t).hbm = s.hbm := rfl
@[simp] theorem State.dropReq_sau (s : State) (t : Nat) : (s.dropReq t).sau = s.sau := rfl
@[simp] theorem State.dropReq_seq (s : State) (t : Nat) : (s.dropReq t).seq = s.seq := rfl
@[simp] theorem State.dropReq_host (s : State) (t : Nat) : (s.dropReq t).host = s.host := rfl
@[simp] theorem State.dropReq_span (s : State) (t : Nat) : (s.dropReq t).span = s.span := rfl
@[simp] theorem State.dropReq_parts (s : State) (t : Nat) : (s.dropReq t).parts = s.parts := rfl
@[simp] theorem State.dropReq_faults (s : State) (t : Nat) : (s.dropReq t).faults = s.faults := rfl
@[simp] theorem State.dropReq_power (s : State) (t : Nat) : (s.dropReq t).power = s.power := rfl
@[simp] theorem State.dropReq_bring (s : State) (t : Nat) : (s.dropReq t).bring = s.bring := rfl
@[simp] theorem State.dropReq_sec (s : State) (t : Nat) : (s.dropReq t).sec = s.sec := rfl
@[simp] theorem State.dropReq_dict (s : State) (t : Nat) : (s.dropReq t).dict = s.dict := rfl
@[simp] theorem State.dropReq_time (s : State) (t : Nat) : (s.dropReq t).time = s.time := rfl
@[simp] theorem State.dropReq_freeCtr (s : State) (t : Nat) : (s.dropReq t).freeCtr = s.freeCtr := rfl

@[simp] theorem State.sendAb_pending (s : State) (m : AbMsg) : (s.sendAb m).pending = s.pending := rfl
@[simp] theorem State.sendAb_mem (s : State) (m : AbMsg) : (s.sendAb m).mem = s.mem := rfl
@[simp] theorem State.sendAb_cores (s : State) (m : AbMsg) : (s.sendAb m).cores = s.cores := rfl
@[simp] theorem State.sendAb_reqs (s : State) (m : AbMsg) : (s.sendAb m).reqs = s.reqs := rfl
@[simp] theorem State.sendAb_nextTag (s : State) (m : AbMsg) : (s.sendAb m).nextTag = s.nextTag := rfl
@[simp] theorem State.sendAb_accepts (s : State) (m : AbMsg) : (s.sendAb m).accepts = s.accepts := rfl
@[simp] theorem State.sendAb_writers (s : State) (m : AbMsg) : (s.sendAb m).writers = s.writers := rfl
@[simp] theorem State.sendAb_cellar (s : State) (m : AbMsg) : (s.sendAb m).cellar = s.cellar := rfl
@[simp] theorem State.sendAb_trellis (s : State) (m : AbMsg) : (s.sendAb m).trellis = s.trellis := rfl
@[simp] theorem State.sendAb_hbm (s : State) (m : AbMsg) : (s.sendAb m).hbm = s.hbm := rfl
@[simp] theorem State.sendAb_sau (s : State) (m : AbMsg) : (s.sendAb m).sau = s.sau := rfl
@[simp] theorem State.sendAb_seq (s : State) (m : AbMsg) : (s.sendAb m).seq = s.seq := rfl
@[simp] theorem State.sendAb_host (s : State) (m : AbMsg) : (s.sendAb m).host = s.host := rfl
@[simp] theorem State.sendAb_span (s : State) (m : AbMsg) : (s.sendAb m).span = s.span := rfl
@[simp] theorem State.sendAb_parts (s : State) (m : AbMsg) : (s.sendAb m).parts = s.parts := rfl
@[simp] theorem State.sendAb_faults (s : State) (m : AbMsg) : (s.sendAb m).faults = s.faults := rfl
@[simp] theorem State.sendAb_power (s : State) (m : AbMsg) : (s.sendAb m).power = s.power := rfl
@[simp] theorem State.sendAb_bring (s : State) (m : AbMsg) : (s.sendAb m).bring = s.bring := rfl
@[simp] theorem State.sendAb_sec (s : State) (m : AbMsg) : (s.sendAb m).sec = s.sec := rfl
@[simp] theorem State.sendAb_dict (s : State) (m : AbMsg) : (s.sendAb m).dict = s.dict := rfl
@[simp] theorem State.sendAb_time (s : State) (m : AbMsg) : (s.sendAb m).time = s.time := rfl
@[simp] theorem State.sendAb_freeCtr (s : State) (m : AbMsg) : (s.sendAb m).freeCtr = s.freeCtr := rfl

@[simp] theorem State.stepped_pending (s : State) (c : Nat) : (s.stepped c).pending = s.pending := by unfold State.stepped whenever; split <;> rfl
@[simp] theorem State.stepped_mem (s : State) (c : Nat) : (s.stepped c).mem = s.mem := by unfold State.stepped whenever; split <;> rfl
@[simp] theorem State.stepped_cores (s : State) (c : Nat) : (s.stepped c).cores = s.cores := by unfold State.stepped whenever; split <;> rfl
@[simp] theorem State.stepped_reqs (s : State) (c : Nat) : (s.stepped c).reqs = s.reqs := by unfold State.stepped whenever; split <;> rfl
@[simp] theorem State.stepped_nextTag (s : State) (c : Nat) : (s.stepped c).nextTag = s.nextTag := by unfold State.stepped whenever; split <;> rfl
@[simp] theorem State.stepped_accepts (s : State) (c : Nat) : (s.stepped c).accepts = s.accepts := by unfold State.stepped whenever; split <;> rfl
@[simp] theorem State.stepped_writers (s : State) (c : Nat) : (s.stepped c).writers = s.writers := by unfold State.stepped whenever; split <;> rfl
@[simp] theorem State.stepped_cellar (s : State) (c : Nat) : (s.stepped c).cellar = s.cellar := by unfold State.stepped whenever; split <;> rfl
@[simp] theorem State.stepped_coh (s : State) (c : Nat) : (s.stepped c).coh = s.coh := by unfold State.stepped whenever; split <;> rfl
@[simp] theorem State.stepped_trellis (s : State) (c : Nat) : (s.stepped c).trellis = s.trellis := by unfold State.stepped whenever; split <;> rfl
@[simp] theorem State.stepped_hbm (s : State) (c : Nat) : (s.stepped c).hbm = s.hbm := by unfold State.stepped whenever; split <;> rfl
@[simp] theorem State.stepped_sau (s : State) (c : Nat) : (s.stepped c).sau = s.sau := by unfold State.stepped whenever; split <;> rfl
@[simp] theorem State.stepped_seq (s : State) (c : Nat) : (s.stepped c).seq = s.seq := by unfold State.stepped whenever; split <;> rfl
@[simp] theorem State.stepped_host (s : State) (c : Nat) : (s.stepped c).host = s.host := by unfold State.stepped whenever; split <;> rfl
@[simp] theorem State.stepped_span (s : State) (c : Nat) : (s.stepped c).span = s.span := by unfold State.stepped whenever; split <;> rfl
@[simp] theorem State.stepped_parts (s : State) (c : Nat) : (s.stepped c).parts = s.parts := by unfold State.stepped whenever; split <;> rfl
@[simp] theorem State.stepped_faults (s : State) (c : Nat) : (s.stepped c).faults = s.faults := by unfold State.stepped whenever; split <;> rfl
@[simp] theorem State.stepped_power (s : State) (c : Nat) : (s.stepped c).power = s.power := by unfold State.stepped whenever; split <;> rfl
@[simp] theorem State.stepped_bring (s : State) (c : Nat) : (s.stepped c).bring = s.bring := by unfold State.stepped whenever; split <;> rfl
@[simp] theorem State.stepped_dict (s : State) (c : Nat) : (s.stepped c).dict = s.dict := by unfold State.stepped whenever; split <;> rfl
@[simp] theorem State.stepped_time (s : State) (c : Nat) : (s.stepped c).time = s.time := by unfold State.stepped whenever; split <;> rfl
@[simp] theorem State.stepped_freeCtr (s : State) (c : Nat) : (s.stepped c).freeCtr = s.freeCtr := by unfold State.stepped whenever; split <;> rfl

@[simp] theorem State.notice_pending (s : State) (n : Notice) : (s.notice n).pending = s.pending := by unfold State.notice whenever; split <;> rfl
@[simp] theorem State.notice_mem (s : State) (n : Notice) : (s.notice n).mem = s.mem := by unfold State.notice whenever; split <;> rfl
@[simp] theorem State.notice_cores (s : State) (n : Notice) : (s.notice n).cores = s.cores := by unfold State.notice whenever; split <;> rfl
@[simp] theorem State.notice_reqs (s : State) (n : Notice) : (s.notice n).reqs = s.reqs := by unfold State.notice whenever; split <;> rfl
@[simp] theorem State.notice_nextTag (s : State) (n : Notice) : (s.notice n).nextTag = s.nextTag := by unfold State.notice whenever; split <;> rfl
@[simp] theorem State.notice_accepts (s : State) (n : Notice) : (s.notice n).accepts = s.accepts := by unfold State.notice whenever; split <;> rfl
@[simp] theorem State.notice_writers (s : State) (n : Notice) : (s.notice n).writers = s.writers := by unfold State.notice whenever; split <;> rfl
@[simp] theorem State.notice_cellar (s : State) (n : Notice) : (s.notice n).cellar = s.cellar := by unfold State.notice whenever; split <;> rfl
@[simp] theorem State.notice_coh (s : State) (n : Notice) : (s.notice n).coh = s.coh := by unfold State.notice whenever; split <;> rfl
@[simp] theorem State.notice_trellis (s : State) (n : Notice) : (s.notice n).trellis = s.trellis := by unfold State.notice whenever; split <;> rfl
@[simp] theorem State.notice_hbm (s : State) (n : Notice) : (s.notice n).hbm = s.hbm := by unfold State.notice whenever; split <;> rfl
@[simp] theorem State.notice_sau (s : State) (n : Notice) : (s.notice n).sau = s.sau := by unfold State.notice whenever; split <;> rfl
@[simp] theorem State.notice_seq (s : State) (n : Notice) : (s.notice n).seq = s.seq := by unfold State.notice whenever; split <;> rfl
@[simp] theorem State.notice_span (s : State) (n : Notice) : (s.notice n).span = s.span := by unfold State.notice whenever; split <;> rfl
@[simp] theorem State.notice_parts (s : State) (n : Notice) : (s.notice n).parts = s.parts := by unfold State.notice whenever; split <;> rfl
@[simp] theorem State.notice_faults (s : State) (n : Notice) : (s.notice n).faults = s.faults := by unfold State.notice whenever; split <;> rfl
@[simp] theorem State.notice_power (s : State) (n : Notice) : (s.notice n).power = s.power := by unfold State.notice whenever; split <;> rfl
@[simp] theorem State.notice_bring (s : State) (n : Notice) : (s.notice n).bring = s.bring := by unfold State.notice whenever; split <;> rfl
@[simp] theorem State.notice_sec (s : State) (n : Notice) : (s.notice n).sec = s.sec := by unfold State.notice whenever; split <;> rfl
@[simp] theorem State.notice_dict (s : State) (n : Notice) : (s.notice n).dict = s.dict := by unfold State.notice whenever; split <;> rfl
@[simp] theorem State.notice_time (s : State) (n : Notice) : (s.notice n).time = s.time := by unfold State.notice whenever; split <;> rfl
@[simp] theorem State.notice_freeCtr (s : State) (n : Notice) : (s.notice n).freeCtr = s.freeCtr := by unfold State.notice whenever; split <;> rfl

/-! ### Cores -/

@[simp] theorem State.setCore_core_same (s : State) (c : Nat) (k : Core) : (s.setCore c k).core c = k := get_put_same _ _ _ _
@[simp] theorem State.setCore_core_other {s : State} {c d : Nat} {k : Core} (h : d ≠ c) : (s.setCore c k).core d = s.core d :=
  get_put_other h
@[simp] theorem State.onCoreState_core_same (s : State) (c : Nat) (f : Core → Core) : (s.onCoreState c f).core c = f (s.core c) :=
  State.setCore_core_same _ _ _
@[simp] theorem State.onCoreState_core_other {s : State} {c d : Nat} {f : Core → Core} (h : d ≠ c) :
    (s.onCoreState c f).core d = s.core d := State.setCore_core_other h
@[simp] theorem State.stepped_core (s : State) (c d : Nat) : (s.stepped c).core d = s.core d := by
  unfold State.core; rw [State.stepped_cores]
@[simp] theorem State.dropReq_core (s : State) (t c : Nat) : (s.dropReq t).core c = s.core c := rfl
@[simp] theorem State.addReq_core (s : State) (r : Req) (c : Nat) : (s.addReq r).core c = s.core c := rfl
@[simp] theorem State.setReq_core (s : State) (t : Nat) (f : Req → Req) (c : Nat) : (s.setReq t f).core c = s.core c := rfl

/-- Nothing is left of a single step of `c`; those of other cores stay. -/
theorem State.stepped_sec (s : State) (c : Nat) :
    (s.stepped c).sec = { s.sec with single := s.sec.single.filter fun (x : Nat) => x != c } := by
  unfold State.stepped whenever
  split
  · rfl
  · rename_i h
    have : s.sec.single.filter (fun (x : Nat) => x != c) = s.sec.single := by
      refine List.filter_eq_self.mpr fun x hx => ?_
      have : x ≠ c := fun e => h (by simpa [e] using hx)
      simpa using this
    rw [this]

/-! ### Dictionary values and fields that commands add to -/

@[simp] theorem State.setOd_od_same (s : State) (i j v : Nat) : (s.setOd i j v).od i j = v := by
  simp [State.setOd, State.od]
theorem State.setOd_od_other {s : State} {i j v i' j' : Nat} (h : odKey i' j' ≠ odKey i j) : (s.setOd i j v).od i' j' = s.od i' j' := by
  simp [State.setOd, State.od, h]
@[simp] theorem State.bump_od_same (s : State) (i j n : Nat) : (s.bump i j n).od i j = (s.od i j + n) % 2 ^ 64 :=
  State.setOd_od_same _ _ _ _
@[simp] theorem State.sendAb_out (s : State) (m : AbMsg) : (s.sendAb m).coh.out = s.coh.out ++ [m] := rfl
@[simp] theorem State.sendReport_reports (s : State) (r : Report) :
    (s.sendReport r).faults.reports = s.faults.reports ++ [{ r with time := s.time }] := rfl
@[simp] theorem State.addReq_reqs (s : State) (r : Req) :
    (s.addReq r).reqs = s.reqs ++ [{ r with tag := s.nextTag, born := s.od 0x6000 2 }] := rfl
@[simp] theorem State.drew_freeCtr (s : State) : s.drew.freeCtr = s.freeCtr + 1 := rfl

/-! ### Scalar registers -/

@[simp] theorem Core.reg_zero (k : Core) : k.reg 0 = 0 := rfl
/-- A register that is written reads the value; s0 reads zero. -/
theorem Core.setReg_reg_same (k : Core) (r : Reg) (v : Word) : (k.setReg r v).reg r = if r = 0 then 0 else v := by
  unfold Core.setReg Core.reg
  split <;> simp
/-- Writing one register leaves every other. -/
theorem Core.setReg_reg_other {k : Core} {r q : Reg} {v : Word} (h : q ≠ r) : (k.setReg r v).reg q = k.reg q := by
  unfold Core.setReg
  split
  · rfl
  · unfold Core.reg
    have : q.toNat ≠ r.toNat := fun e => h (BitVec.eq_of_toNat_eq e)
    simp [this]
/-- Writing a register changes no other field of the core. -/
theorem Core.setReg_eq (k : Core) (r : Reg) (v : Word) : k.setReg r v = { k with regs := (k.setReg r v).regs } := by
  unfold Core.setReg; split <;> rfl
@[simp] theorem Core.setReg_pc (k : Core) (r : Reg) (v : Word) : (k.setReg r v).pc = k.pc := by
  unfold Core.setReg; split <;> rfl
@[simp] theorem Core.next_reg (k : Core) (n : Nat) (r : Reg) : (k.next n).reg r = k.reg r := rfl
@[simp] theorem Core.next_pc (k : Core) (n : Nat) : (k.next n).pc = k.pc + BitVec.ofNat 64 n := rfl
@[simp] theorem Core.touchCode_reg (k : Core) (n : Nat) (r : Reg) : (k.touchCode n).reg r = k.reg r := rfl
@[simp] theorem Core.touchCode_pc (k : Core) (n : Nat) : (k.touchCode n).pc = k.pc := rfl

/-! ### The control core -/

/-- The draw that decides racing accesses changes no other piece of the state. -/
theorem State.fresh_eq (s : State) (c : Nat) : s.fresh c = { s with cores := (s.fresh c).cores, freeCtr := (s.fresh c).freeCtr } := by
  unfold State.fresh whenever; split <;> rfl
theorem State.fresh_core (s : State) (c : Nat) : (s.fresh c).core c = { s.core c with rdraw := ((s.fresh c).core c).rdraw } := by
  unfold State.fresh whenever
  split
  · have h : ((s.onCoreState c fun k => { k with rdraw := s.freeCtr }).drew).core c = { s.core c with rdraw := s.freeCtr } :=
      State.onCoreState_core_same s c fun k => { k with rdraw := s.freeCtr }
    rw [h]
  · rfl
theorem State.fresh_core_other {s : State} {c d : Nat} (h : d ≠ c) : (s.fresh c).core d = s.core d := by
  unfold State.fresh whenever
  split
  · exact State.onCoreState_core_other (s := s) (f := fun k => { k with rdraw := s.freeCtr }) h
  · rfl
/-- In a core whose accesses do not race, nothing is drawn. -/
theorem State.fresh_settled {s : State} {c : Nat} (h : (s.core c).contended = false) : s.fresh c = s := by
  unfold State.fresh whenever; simp [h]

/-- The state in which the control core of `c` begins an instruction of `len` bytes that it has fetched. -/
def State.begun (s : State) (c len : Nat) : State :=
  ((s.stepped c).fresh c).onCoreState c fun k => (k.touchCode (s.core c).pc.toNat).touchCode ((s.core c).pc.toNat + len - 4)

/-- An instruction that can be fetched and that waits for nothing has its effect. -/
theorem State.ctl_go {s : State} {c len : Nat} {rs : List Reg} {eff : State → State} (h : s.ctlReady c rs = true)
    (hf : s.fetched c len = true) : s.ctl c len rs eff = eff (s.begun c len) := by
  unfold State.fetched at hf
  simp only [Bool.and_eq_true] at hf
  obtain ⟨⟨h1, h2⟩, h3⟩ := hf
  unfold State.ctl State.begun
  simp [h, h1, h2, h3]

theorem State.begun_core_same (s : State) (c len : Nat) : (s.begun c len).core c =
    ({ s.core c with rdraw := (((s.stepped c).fresh c).core c).rdraw }.touchCode (s.core c).pc.toNat).touchCode
      ((s.core c).pc.toNat + len - 4) := by
  unfold State.begun
  rw [State.onCoreState_core_same, State.fresh_core, State.stepped_core]
@[simp] theorem State.begun_core_other {s : State} {c d len : Nat} (h : d ≠ c) : (s.begun c len).core d = s.core d := by
  unfold State.begun
  rw [State.onCoreState_core_other h, State.fresh_core_other h, State.stepped_core]
/-- Beside its core and its single-step mark the beginning of an instruction changes only the count of draws. -/
theorem State.begun_eq (s : State) (c len : Nat) : s.begun c len = { s with
    cores := (s.begun c len).cores, freeCtr := (s.begun c len).freeCtr
    sec := { s.sec with single := (s.begun c len).sec.single } } := by
  unfold State.begun State.stepped whenever
  split <;> (rw [State.fresh_eq]; rfl)
theorem State.begun_single (s : State) (c len : Nat) : (s.begun c len).sec.single = (s.stepped c).sec.single := by
  unfold State.begun
  rw [State.fresh_eq]; rfl

/-- An instruction whose whole effect is on its core, where it has its effect. -/
theorem State.ctlCore_go {s : State} {c len : Nat} {rs : List Reg} {f : Core → Core} (h : s.ctlReady c rs = true)
    (hf : s.fetched c len = true) : s.ctlCore c len rs f = (s.begun c len).onCoreState c fun k => (f k).next len :=
  State.ctl_go h hf

/-- A core asked for a code line runs on with the same line. -/
theorem Core.touchCode_hasCode (k : Core) (a b : Nat) (h : k.hasCode a = true) : (k.touchCode a).hasCode b = k.hasCode b := by
  unfold Core.touchCode Core.hasCode upd at *
  by_cases hs : b / 128 % 16 = a / 128 % 16
  · rw [hs] at *
    simp only [get_put_same, List.contains_cons]
    by_cases e : b / 128 = a / 128
    · simp only [e, beq_self_eq_true, Bool.true_or]
      exact h.symm
    · have : ∀ l : List Nat, (l.filter (· != a / 128)).contains (b / 128) = l.contains (b / 128) := by
        intro l
        rw [Bool.eq_iff_iff]
        simp [e]
      rw [this]
      simp [e]
  · simp only [get_put_other hs]

end Sys2Proof.Machine
end

