-- ==== Sys2Proof/Laws/Control.lean ====
section
/-!
SUPPORT. Laws/Control.lean: what an instruction of the control core does where it can issue: once for all register steps.
-/

namespace Sys2Proof.Machine

variable {s : State} {c : Nat}

/-- The control core of `c` begins an instruction: beside its core only its single-step mark and the count of draws change. -/
theorem State.begun_onlyCore (s : State) (c len : Nat) (f : Core → Core) : OnlyCore c s ((s.begun c len).onCoreState c f) where
  others d h := by simp [h]
  single d := by
    show d ∈ (s.begun c len).sec.single ↔ _
    rw [State.begun_single]
    simp [State.stepped_sec]
  rest := by
    have h := State.begun_eq s c len
    generalize s.begun c len = u at *
    unfold State.onCoreState State.setCore
    rw [h]

/-- A fetched instruction's lines stay in the instruction cache as they are used. -/
theorem State.begun_hasCode {len : Nat} (h : s.fetched c len = true) (a : Nat) :
    ((s.begun c len).core c).hasCode a = (s.core c).hasCode a := by
  unfold State.fetched at h
  simp only [Bool.and_eq_true] at h
  rw [State.begun_core_same]
  have h1 : Core.hasCode { s.core c with rdraw := (((s.stepped c).fresh c).core c).rdraw } (s.core c).pc.toNat = true := h.1.2
  have h2 : Core.hasCode (({ s.core c with rdraw := (((s.stepped c).fresh c).core c).rdraw } : Core).touchCode (s.core c).pc.toNat)
      ((s.core c).pc.toNat + len - 4) = true := by
    rw [Core.touchCode_hasCode _ _ _ h1]; exact h.2
  rw [Core.touchCode_hasCode _ _ a h2, Core.touchCode_hasCode _ _ a h1]
  rfl

/-- Writing a register and setting the program counter is a register step. -/
theorem State.begun_regStep {len : Nat} (h : s.fetched c len = true) (rd : Reg) (v pc : Word) :
    RegStep c rd v pc s ((s.begun c len).onCoreState c fun k => { k.setReg rd v with pc := pc }) where
  toOnlyCore := State.begun_onlyCore s c len _
  dest := by
    simp only [State.onCoreState_core_same]
    exact Core.setReg_reg_same _ _ _
  regs r hr := by
    simp only [State.onCoreState_core_same]
    refine (Core.setReg_reg_other hr).trans ?_
    rw [State.begun_core_same]; rfl
  pcIs := by simp
  code a := by
    simp only [State.onCoreState_core_same]
    rw [← State.begun_hasCode h a]
    unfold Core.setReg Core.hasCode; split <;> rfl
  core := by
    simp only [State.onCoreState_core_same, State.begun_core_same]
    unfold Core.setReg; split <;> rfl

/-- An instruction that writes one register and goes on. -/
theorem State.ctlCore_regStep {rs : List Reg} {len : Nat} (h : s.ctlGo c len rs) (rd : Reg) (f : Core → Word) (v : Word)
    (hf : f ((s.begun c len).core c) = v) :
    ∃ t, onCore c (s.ctlCore c len rs fun k => k.setReg rd (f k)) = .next t ∧
      RegStep c rd v ((s.core c).pc + BitVec.ofNat 64 len) s t := by
  obtain ⟨hc, hr, hfe⟩ := h
  refine ⟨_, onCore_next hc, ?_⟩
  rw [State.ctlCore_go hr hfe]
  have := State.begun_regStep hfe rd v ((s.core c).pc + BitVec.ofNat 64 len)
  convert this using 1
  unfold State.onCoreState
  congr 1
  simp only [hf]
  rw [State.begun_core_same]
  unfold Core.next Core.setReg
  split <;> rfl

/-- A core that has begun an instruction has the registers it had. -/
@[simp] theorem State.begun_reg (s : State) (c len : Nat) (r : Reg) : ((s.begun c len).core c).reg r = (s.core c).reg r := by
  rw [State.begun_core_same]; rfl

/-- An instruction with two register operands. -/
theorem State.alu_regStep {rd rs1 rs2 : Reg} (h : s.ctlGo c 4 [rd, rs1, rs2]) (f : Word → Word → Word) :
    ∃ t, onCore c (s.alu c rd rs1 rs2 f) = .next t ∧
      RegStep c rd (f ((s.core c).reg rs1) ((s.core c).reg rs2)) ((s.core c).pc + 4) s t :=
  State.ctlCore_regStep h rd (fun k => f (k.reg rs1) (k.reg rs2)) _ (by simp)

/-- An instruction with an immediate operand. -/
theorem State.aluImm_regStep {rd rs1 : Reg} {imm : BitVec 13} (h : s.ctlGo c 4 [rd, rs1]) (f : Word → Word → Word) :
    ∃ t, onCore c (s.aluImm c rd rs1 imm f) = .next t ∧
      RegStep c rd (f ((s.core c).reg rs1) (imm13 imm)) ((s.core c).pc + 4) s t :=
  State.ctlCore_regStep h rd (fun k => f (k.reg rs1) (imm13 imm)) _ (by simp)

end Sys2Proof.Machine
end

