-- ==== Sys2Proof/Laws/CoreFault.lean ====
section
/-!
SUPPORT. Laws/CoreFault.lean: what a fault that ends the kernel of a core does (R108).
-/

namespace Sys2Proof.Machine

variable {s : State} {c : Nat}

theorem State.discardLoads_tags (s : State) (c : Nat) : (s.discardLoads c).reqs.map (·.tag) = s.reqs.map (·.tag) := by
  unfold State.discardLoads
  simp only [List.map_map]
  refine List.map_congr_left fun r _ => ?_
  simp only [Function.comp]
  split <;> (try split) <;> rfl

/-- Discarding the loads of a core leaves the requests of its DMA engine. -/
theorem State.discardLoads_dmaOut (s : State) (c : Nat) : (s.discardLoads c).dmaOut c = s.dmaOut c := by
  unfold State.dmaOut State.discardLoads
  simp only
  induction s.reqs with
  | nil => rfl
  | cons r l ih =>
    simp only [List.map_cons, List.filter_cons, ih]
    cases h : r.agent <;> simp only [h, Agent.isDma] <;> (try (split <;> simp_all [Agent.isDma]))

/-- The core of a kernel that has met a fault: stopped, and DONE once its DMA engine is quiet. -/
theorem State.coreFault_core (h : (s.core c).run = true) (h2 : (s.core c).stopping = false) (code d : Nat) (i : Bool) :
    (s.coreFault c code d i).core c =
      if s.dmaOut c = [] then ((s.core c).stop code).finish else (s.core c).stop code := by
  unfold State.coreFault State.finishIfQuiet whenever
  have hd : ((s.onCoreState c (·.stop code)).discardLoads c).dmaOut c = s.dmaOut c := State.discardLoads_dmaOut _ c
  have hc : ((s.onCoreState c (·.stop code)).discardLoads c).core c = (s.core c).stop code :=
    State.onCoreState_core_same s c (·.stop code)
  have hs : ((s.core c).stop code).stopping = true := rfl
  simp only [h, h2, Bool.not_false, Bool.and_self, if_true, hd, hc, hs]
  by_cases hq : s.dmaOut c = []
  · simp only [hq, List.isEmpty_nil, Bool.and_self, if_true]
    exact (State.onCoreState_core_same _ c Core.finish).trans (by rw [hc])
  · have : (s.dmaOut c).isEmpty = false := by simpa using hq
    simp only [hq, this, Bool.and_false, Bool.false_eq_true, if_false]
    exact hc

theorem State.coreFault_other (s : State) {c d : Nat} (hd : d ≠ c) (code x : Nat) (i : Bool) : (s.coreFault c code x i).core d = s.core d := by
  have h1 : ((s.onCoreState c (·.stop code)).discardLoads c).core d = s.core d := State.onCoreState_core_other (f := (·.stop code)) hd
  unfold State.coreFault State.finishIfQuiet whenever
  split
  · split
    · exact (State.onCoreState_core_other (f := Core.finish) hd).trans h1
    · exact h1
  · rfl

theorem State.coreFault_reqs (s : State) (c code x : Nat) (i : Bool) : (s.coreFault c code x i).reqs.map (·.tag) = s.reqs.map (·.tag) := by
  unfold State.coreFault State.finishIfQuiet whenever
  split
  · split <;> exact State.discardLoads_tags _ _
  · rfl

theorem State.coreFault_rest (s : State) (c code x : Nat) (i : Bool) :
    s.coreFault c code x i = { s with cores := (s.coreFault c code x i).cores, reqs := (s.coreFault c code x i).reqs, faults := (s.coreFault c code x i).faults } := by
  unfold State.coreFault State.finishIfQuiet whenever
  split
  · split <;> rfl
  · rfl

theorem State.coreFault_report (h : (s.core c).run = true) (h2 : (s.core c).stopping = false) (code x : Nat) (i : Bool) :
    (s.coreFault c code x i).faults = { s.faults with reports := s.faults.reports ++ [{ Report.reset with
      code := code, ctx := (s.core c).ctx, part := (s.core c).part, lockind := 1, loc := s.coreLoc c, detail := x, inj := i,
      model := (s.ctx (s.core c).ctx).kind == 1, time := s.time }] } := by
  unfold State.coreFault State.finishIfQuiet whenever
  simp only [h, h2, Bool.not_false, Bool.and_self, if_true]
  split <;> rfl

/-- What a step of a core and a fault that follows it change between them. -/
theorem State.rest_trans {s u w : State} {a c : List (Nat × Core)} {b : List Req} {f : Faults} {n : Nat} {x : List Nat}
    (hu : u = { s with cores := c, freeCtr := n, sec := { s.sec with single := x } })
    (hw : w = { u with cores := a, reqs := b, faults := f }) : w = { s with
      cores := w.cores, reqs := w.reqs, faults := w.faults, freeCtr := w.freeCtr, sec := { s.sec with single := w.sec.single } } := by
  subst hu; subst hw; rfl

/-- What a core is after its kernel has been stopped, whether or not it has reached DONE at once. -/
theorem Core.stopped_fields {ks w : Core} {d : Nat} {ic : List (Nat × List Nat)} {code : Nat} {q : Prop} [Decidable q]
    (hw : w = if q then (({ ks with rdraw := d, icache := ic } : Core).stop code).finish
      else ({ ks with rdraw := d, icache := ic } : Core).stop code) :
    w.ksFault = BitVec.ofNat 16 code ∧ (w.wait = .none ∧ w.busy = []) ∧ (w.chan0 = [] ∧ w.chan1 = [] ∧ w.items = []) ∧
      w.ksCancel = (ks.ksCancel || ks.items.any fun i => i.kind == .copy && !i.complete) ∧
      (w.issued = ks.issued ∧ w.arrived = ks.arrived) ∧ w.press = { Press.reset with rdone := ks.press.rdone } ∧
      (w.groups = [] ∧ w.summ = []) ∧ (if q then w.ksDone = true ∧ w.run = false
        else w.ksDone = ks.ksDone ∧ w.run = ks.run ∧ w.stopping = true) ∧ w.regs = ks.regs ∧ w.pc = ks.pc ∧ w.ldst = ks.ldst := by
  subst hw
  split
  · exact ⟨rfl, ⟨rfl, rfl⟩, ⟨rfl, rfl, rfl⟩, rfl, ⟨rfl, rfl⟩, rfl, ⟨rfl, rfl⟩, ⟨rfl, rfl⟩, rfl, rfl, rfl⟩
  · exact ⟨rfl, ⟨rfl, rfl⟩, ⟨rfl, rfl, rfl⟩, rfl, ⟨rfl, rfl⟩, rfl, ⟨rfl, rfl⟩, ⟨rfl, rfl, rfl⟩, rfl, rfl, rfl⟩

/-- An instruction that its core has begun ends the kernel by a fault. -/
theorem State.begun_kernelFault {len : Nat} {rs : List Reg} (h : s.ctlGo c len rs) (code x : Nat) (i : Bool) :
    KernelFault c code s ((s.begun c len).coreFault c code x i) := by
  obtain ⟨_, hr, _⟩ := h
  unfold State.ctlReady at hr
  simp only [Bool.and_eq_true, Bool.not_eq_true'] at hr
  have hrun := hr.1.1.1.1.1
  have hstop := hr.1.1.1.1.2
  have he := State.begun_eq s c len
  obtain ⟨d, ic, hcore⟩ : ∃ d ic, (s.begun c len).core c = { s.core c with rdraw := d, icache := ic } :=
    ⟨_, _, State.begun_core_same s c len⟩
  have hoth := fun d hd => @State.begun_core_other s c d len hd
  generalize s.begun c len = u at *
  have h1 : (u.core c).run = true := by rw [hcore]; exact hrun
  have h2 : (u.core c).stopping = false := by rw [hcore]; exact hstop
  have hb : u.dmaOut c = s.dmaOut c := by rw [he]; rfl
  have hf : u.faults = s.faults := by rw [he]
  have hl : u.coreLoc c = s.coreLoc c := by rw [he]; rfl
  have ht : u.time = s.time := by rw [he]
  have hq : u.reqs = s.reqs := by rw [he]
  have hx : (u.core c).ctx = (s.core c).ctx := by rw [hcore]
  have hp : (u.core c).part = (s.core c).part := by rw [hcore]
  have hrep := State.coreFault_report h1 h2 code x i
  rw [hx, hp, hl, ht, hf] at hrep
  have hw := State.coreFault_core h1 h2 code x i
  rw [hb, hcore] at hw
  obtain ⟨a1, a2, a3, a4, a5, a6, a7, a8, a9, a10, a11⟩ := Core.stopped_fields hw
  refine ⟨a1, a2, a3, a4, a5, a6, a7, ?_, ⟨⟨fun r => ?_, a10⟩, a11⟩, ⟨_, hrep, rfl, rfl, rfl, rfl, rfl, rfl⟩, ?_, ?_, ?_⟩
  · rw [hrun] at a8; exact a8
  · unfold Core.reg; rw [a9]
  · rw [State.coreFault_reqs, hq]
  · intro d hd; rw [State.coreFault_other _ hd, hoth d hd]
  · exact State.rest_trans he (State.coreFault_rest u c code x i)

end Sys2Proof.Machine
end

