-- ==== Sys2Proof/Laws/KeepsSet.lean ====
section
/-!
SUPPORT. Laws/KeepsSet.lean: a change of named parts of the state keeps the others.
-/

namespace Sys2Proof.Machine

set_option Elab.async false

theorem keeps_set_cores {m : Nat} {s0 s : State} {x0 : _} (h0 : m.testBit 1 = true) (h : Keeps m s0 s) :
    Keeps m s0 { s with cores := x0 } :=
  ⟨h.pending, h.memOk, h.mem, fun hb => absurd (hb.symm.trans h0) Bool.false_ne_true, h.reqs, h.nextTag, h.accepts, h.writers, h.cellar, h.coh, h.trellis, h.hbm, h.sau, h.seq, h.host, h.span, h.parts, h.faults, h.power, h.bring, h.sec, h.dict, h.time, h.freeCtr⟩
theorem keeps_set_cores_iff {m : Nat} {s0 s : State} {x0 : _} (h0 : m.testBit 1 = true) :
    Keeps m s0 { s with cores := x0 } ↔ Keeps m s0 s :=
  ⟨fun h => ⟨h.pending, h.memOk, h.mem, fun hb => absurd (hb.symm.trans h0) Bool.false_ne_true, h.reqs, h.nextTag, h.accepts, h.writers, h.cellar, h.coh, h.trellis, h.hbm, h.sau, h.seq, h.host, h.span, h.parts, h.faults, h.power, h.bring, h.sec, h.dict, h.time, h.freeCtr⟩, keeps_set_cores h0⟩
theorem keeps_set_reqs {m : Nat} {s0 s : State} {x0 : _} (h0 : m.testBit 2 = true) (h : Keeps m s0 s) :
    Keeps m s0 { s with reqs := x0 } :=
  ⟨h.pending, h.memOk, h.mem, h.cores, fun hb => absurd (hb.symm.trans h0) Bool.false_ne_true, h.nextTag, h.accepts, h.writers, h.cellar, h.coh, h.trellis, h.hbm, h.sau, h.seq, h.host, h.span, h.parts, h.faults, h.power, h.bring, h.sec, h.dict, h.time, h.freeCtr⟩
theorem keeps_set_reqs_iff {m : Nat} {s0 s : State} {x0 : _} (h0 : m.testBit 2 = true) :
    Keeps m s0 { s with reqs := x0 } ↔ Keeps m s0 s :=
  ⟨fun h => ⟨h.pending, h.memOk, h.mem, h.cores, fun hb => absurd (hb.symm.trans h0) Bool.false_ne_true, h.nextTag, h.accepts, h.writers, h.cellar, h.coh, h.trellis, h.hbm, h.sau, h.seq, h.host, h.span, h.parts, h.faults, h.power, h.bring, h.sec, h.dict, h.time, h.freeCtr⟩, keeps_set_reqs h0⟩
theorem keeps_set_nextTag {m : Nat} {s0 s : State} {x0 : _} (h0 : m.testBit 3 = true) (h : Keeps m s0 s) :
    Keeps m s0 { s with nextTag := x0 } :=
  ⟨h.pending, h.memOk, h.mem, h.cores, h.reqs, fun hb => absurd (hb.symm.trans h0) Bool.false_ne_true, h.accepts, h.writers, h.cellar, h.coh, h.trellis, h.hbm, h.sau, h.seq, h.host, h.span, h.parts, h.faults, h.power, h.bring, h.sec, h.dict, h.time, h.freeCtr⟩
theorem keeps_set_nextTag_iff {m : Nat} {s0 s : State} {x0 : _} (h0 : m.testBit 3 = true) :
    Keeps m s0 { s with nextTag := x0 } ↔ Keeps m s0 s :=
  ⟨fun h => ⟨h.pending, h.memOk, h.mem, h.cores, h.reqs, fun hb => absurd (hb.symm.trans h0) Bool.false_ne_true, h.accepts, h.writers, h.cellar, h.coh, h.trellis, h.hbm, h.sau, h.seq, h.host, h.span, h.parts, h.faults, h.power, h.bring, h.sec, h.dict, h.time, h.freeCtr⟩, keeps_set_nextTag h0⟩
theorem keeps_set_accepts {m : Nat} {s0 s : State} {x0 : _} (h0 : m.testBit 4 = true) (h : Keeps m s0 s) :
    Keeps m s0 { s with accepts := x0 } :=
  ⟨h.pending, h.memOk, h.mem, h.cores, h.reqs, h.nextTag, fun hb => absurd (hb.symm.trans h0) Bool.false_ne_true, h.writers, h.cellar, h.coh, h.trellis, h.hbm, h.sau, h.seq, h.host, h.span, h.parts, h.faults, h.power, h.bring, h.sec, h.dict, h.time, h.freeCtr⟩
theorem keeps_set_accepts_iff {m : Nat} {s0 s : State} {x0 : _} (h0 : m.testBit 4 = true) :
    Keeps m s0 { s with accepts := x0 } ↔ Keeps m s0 s :=
  ⟨fun h => ⟨h.pending, h.memOk, h.mem, h.cores, h.reqs, h.nextTag, fun hb => absurd (hb.symm.trans h0) Bool.false_ne_true, h.writers, h.cellar, h.coh, h.trellis, h.hbm, h.sau, h.seq, h.host, h.span, h.parts, h.faults, h.power, h.bring, h.sec, h.dict, h.time, h.freeCtr⟩, keeps_set_accepts h0⟩
theorem keeps_set_writers {m : Nat} {s0 s : State} {x0 : _} (h0 : m.testBit 5 = true) (h : Keeps m s0 s) :
    Keeps m s0 { s with writers := x0 } :=
  ⟨h.pending, h.memOk, h.mem, h.cores, h.reqs, h.nextTag, h.accepts, fun hb => absurd (hb.symm.trans h0) Bool.false_ne_true, h.cellar, h.coh, h.trellis, h.hbm, h.sau, h.seq, h.host, h.span, h.parts, h.faults, h.power, h.bring, h.sec, h.dict, h.time, h.freeCtr⟩
theorem keeps_set_writers_iff {m : Nat} {s0 s : State} {x0 : _} (h0 : m.testBit 5 = true) :
    Keeps m s0 { s with writers := x0 } ↔ Keeps m s0 s :=
  ⟨fun h => ⟨h.pending, h.memOk, h.mem, h.cores, h.reqs, h.nextTag, h.accepts, fun hb => absurd (hb.symm.trans h0) Bool.false_ne_true, h.cellar, h.coh, h.trellis, h.hbm, h.sau, h.seq, h.host, h.span, h.parts, h.faults, h.power, h.bring, h.sec, h.dict, h.time, h.freeCtr⟩, keeps_set_writers h0⟩
theorem keeps_set_cellar {m : Nat} {s0 s : State} {x0 : _} (h0 : m.testBit 6 = true) (h : Keeps m s0 s) :
    Keeps m s0 { s with cellar := x0 } :=
  ⟨h.pending, h.memOk, h.mem, h.cores, h.reqs, h.nextTag, h.accepts, h.writers, fun hb => absurd (hb.symm.trans h0) Bool.false_ne_true, h.coh, h.trellis, h.hbm, h.sau, h.seq, h.host, h.span, h.parts, h.faults, h.power, h.bring, h.sec, h.dict, h.time, h.freeCtr⟩
theorem keeps_set_cellar_iff {m : Nat} {s0 s : State} {x0 : _} (h0 : m.testBit 6 = true) :
    Keeps m s0 { s with cellar := x0 } ↔ Keeps m s0 s :=
  ⟨fun h => ⟨h.pending, h.memOk, h.mem, h.cores, h.reqs, h.nextTag, h.accepts, h.writers, fun hb => absurd (hb.symm.trans h0) Bool.false_ne_true, h.coh, h.trellis, h.hbm, h.sau, h.seq, h.host, h.span, h.parts, h.faults, h.power, h.bring, h.sec, h.dict, h.time, h.freeCtr⟩, keeps_set_cellar h0⟩
theorem keeps_set_coh {m : Nat} {s0 s : State} {x0 : _} (h0 : m.testBit 7 = true) (h : Keeps m s0 s) :
    Keeps m s0 { s with coh := x0 } :=
  ⟨h.pending, h.memOk, h.mem, h.cores, h.reqs, h.nextTag, h.accepts, h.writers, h.cellar, fun hb => absurd (hb.symm.trans h0) Bool.false_ne_true, h.trellis, h.hbm, h.sau, h.seq, h.host, h.span, h.parts, h.faults, h.power, h.bring, h.sec, h.dict, h.time, h.freeCtr⟩
theorem keeps_set_coh_iff {m : Nat} {s0 s : State} {x0 : _} (h0 : m.testBit 7 = true) :
    Keeps m s0 { s with coh := x0 } ↔ Keeps m s0 s :=
  ⟨fun h => ⟨h.pending, h.memOk, h.mem, h.cores, h.reqs, h.nextTag, h.accepts, h.writers, h.cellar, fun hb => absurd (hb.symm.trans h0) Bool.false_ne_true, h.trellis, h.hbm, h.sau, h.seq, h.host, h.span, h.parts, h.faults, h.power, h.bring, h.sec, h.dict, h.time, h.freeCtr⟩, keeps_set_coh h0⟩
theorem keeps_set_trellis {m : Nat} {s0 s : State} {x0 : _} (h0 : m.testBit 8 = true) (h : Keeps m s0 s) :
    Keeps m s0 { s with trellis := x0 } :=
  ⟨h.pending, h.memOk, h.mem, h.cores, h.reqs, h.nextTag, h.accepts, h.writers, h.cellar, h.coh, fun hb => absurd (hb.symm.trans h0) Bool.false_ne_true, h.hbm, h.sau, h.seq, h.host, h.span, h.parts, h.faults, h.power, h.bring, h.sec, h.dict, h.time, h.freeCtr⟩
theorem keeps_set_trellis_iff {m : Nat} {s0 s : State} {x0 : _} (h0 : m.testBit 8 = true) :
    Keeps m s0 { s with trellis := x0 } ↔ Keeps m s0 s :=
  ⟨fun h => ⟨h.pending, h.memOk, h.mem, h.cores, h.reqs, h.nextTag, h.accepts, h.writers, h.cellar, h.coh, fun hb => absurd (hb.symm.trans h0) Bool.false_ne_true, h.hbm, h.sau, h.seq, h.host, h.span, h.parts, h.faults, h.power, h.bring, h.sec, h.dict, h.time, h.freeCtr⟩, keeps_set_trellis h0⟩
theorem keeps_set_hbm {m : Nat} {s0 s : State} {x0 : _} (h0 : m.testBit 9 = true) (h : Keeps m s0 s) :
    Keeps m s0 { s with hbm := x0 } :=
  ⟨h.pending, h.memOk, h.mem, h.cores, h.reqs, h.nextTag, h.accepts, h.writers, h.cellar, h.coh, h.trellis, fun hb => absurd (hb.symm.trans h0) Bool.false_ne_true, h.sau, h.seq, h.host, h.span, h.parts, h.faults, h.power, h.bring, h.sec, h.dict, h.time, h.freeCtr⟩
theorem keeps_set_hbm_iff {m : Nat} {s0 s : State} {x0 : _} (h0 : m.testBit 9 = true) :
    Keeps m s0 { s with hbm := x0 } ↔ Keeps m s0 s :=
  ⟨fun h => ⟨h.pending, h.memOk, h.mem, h.cores, h.reqs, h.nextTag, h.accepts, h.writers, h.cellar, h.coh, h.trellis, fun hb => absurd (hb.symm.trans h0) Bool.false_ne_true, h.sau, h.seq, h.host, h.span, h.parts, h.faults, h.power, h.bring, h.sec, h.dict, h.time, h.freeCtr⟩, keeps_set_hbm h0⟩
theorem keeps_set_sau {m : Nat} {s0 s : State} {x0 : _} (h0 : m.testBit 10 = true) (h : Keeps m s0 s) :
    Keeps m s0 { s with sau := x0 } :=
  ⟨h.pending, h.memOk, h.mem, h.cores, h.reqs, h.nextTag, h.accepts, h.writers, h.cellar, h.coh, h.trellis, h.hbm, fun hb => absurd (hb.symm.trans h0) Bool.false_ne_true, h.seq, h.host, h.span, h.parts, h.faults, h.power, h.bring, h.sec, h.dict, h.time, h.freeCtr⟩
theorem keeps_set_sau_iff {m : Nat} {s0 s : State} {x0 : _} (h0 : m.testBit 10 = true) :
    Keeps m s0 { s with sau := x0 } ↔ Keeps m s0 s :=
  ⟨fun h => ⟨h.pending, h.memOk, h.mem, h.cores, h.reqs, h.nextTag, h.accepts, h.writers, h.cellar, h.coh, h.trellis, h.hbm, fun hb => absurd (hb.symm.trans h0) Bool.false_ne_true, h.seq, h.host, h.span, h.parts, h.faults, h.power, h.bring, h.sec, h.dict, h.time, h.freeCtr⟩, keeps_set_sau h0⟩
theorem keeps_set_seq {m : Nat} {s0 s : State} {x0 : _} (h0 : m.testBit 11 = true) (h : Keeps m s0 s) :
    Keeps m s0 { s with seq := x0 } :=
  ⟨h.pending, h.memOk, h.mem, h.cores, h.reqs, h.nextTag, h.accepts, h.writers, h.cellar, h.coh, h.trellis, h.hbm, h.sau, fun hb => absurd (hb.symm.trans h0) Bool.false_ne_true, h.host, h.span, h.parts, h.faults, h.power, h.bring, h.sec, h.dict, h.time, h.freeCtr⟩
theorem keeps_set_seq_iff {m : Nat} {s0 s : State} {x0 : _} (h0 : m.testBit 11 = true) :
    Keeps m s0 { s with seq := x0 } ↔ Keeps m s0 s :=
  ⟨fun h => ⟨h.pending, h.memOk, h.mem, h.cores, h.reqs, h.nextTag, h.accepts, h.writers, h.cellar, h.coh, h.trellis, h.hbm, h.sau, fun hb => absurd (hb.symm.trans h0) Bool.false_ne_true, h.host, h.span, h.parts, h.faults, h.power, h.bring, h.sec, h.dict, h.time, h.freeCtr⟩, keeps_set_seq h0⟩
theorem keeps_set_host {m : Nat} {s0 s : State} {x0 : _} (h0 : m.testBit 12 = true) (h : Keeps m s0 s) :
    Keeps m s0 { s with host := x0 } :=
  ⟨h.pending, h.memOk, h.mem, h.cores, h.reqs, h.nextTag, h.accepts, h.writers, h.cellar, h.coh, h.trellis, h.hbm, h.sau, h.seq, fun hb => absurd (hb.symm.trans h0) Bool.false_ne_true, h.span, h.parts, h.faults, h.power, h.bring, h.sec, h.dict, h.time, h.freeCtr⟩
theorem keeps_set_host_iff {m : Nat} {s0 s : State} {x0 : _} (h0 : m.testBit 12 = true) :
    Keeps m s0 { s with host := x0 } ↔ Keeps m s0 s :=
  ⟨fun h => ⟨h.pending, h.memOk, h.mem, h.cores, h.reqs, h.nextTag, h.accepts, h.writers, h.cellar, h.coh, h.trellis, h.hbm, h.sau, h.seq, fun hb => absurd (hb.symm.trans h0) Bool.false_ne_true, h.span, h.parts, h.faults, h.power, h.bring, h.sec, h.dict, h.time, h.freeCtr⟩, keeps_set_host h0⟩
theorem keeps_set_span {m : Nat} {s0 s : State} {x0 : _} (h0 : m.testBit 13 = true) (h : Keeps m s0 s) :
    Keeps m s0 { s with span := x0 } :=
  ⟨h.pending, h.memOk, h.mem, h.cores, h.reqs, h.nextTag, h.accepts, h.writers, h.cellar, h.coh, h.trellis, h.hbm, h.sau, h.seq, h.host, fun hb => absurd (hb.symm.trans h0) Bool.false_ne_true, h.parts, h.faults, h.power, h.bring, h.sec, h.dict, h.time, h.freeCtr⟩
theorem keeps_set_span_iff {m : Nat} {s0 s : State} {x0 : _} (h0 : m.testBit 13 = true) :
    Keeps m s0 { s with span := x0 } ↔ Keeps m s0 s :=
  ⟨fun h => ⟨h.pending, h.memOk, h.mem, h.cores, h.reqs, h.nextTag, h.accepts, h.writers, h.cellar, h.coh, h.trellis, h.hbm, h.sau, h.seq, h.host, fun hb => absurd (hb.symm.trans h0) Bool.false_ne_true, h.parts, h.faults, h.power, h.bring, h.sec, h.dict, h.time, h.freeCtr⟩, keeps_set_span h0⟩
theorem keeps_set_parts {m : Nat} {s0 s : State} {x0 : _} (h0 : m.testBit 14 = true) (h : Keeps m s0 s) :
    Keeps m s0 { s with parts := x0 } :=
  ⟨h.pending, h.memOk, h.mem, h.cores, h.reqs, h.nextTag, h.accepts, h.writers, h.cellar, h.coh, h.trellis, h.hbm, h.sau, h.seq, h.host, h.span, fun hb => absurd (hb.symm.trans h0) Bool.false_ne_true, h.faults, h.power, h.bring, h.sec, h.dict, h.time, h.freeCtr⟩
theorem keeps_set_parts_iff {m : Nat} {s0 s : State} {x0 : _} (h0 : m.testBit 14 = true) :
    Keeps m s0 { s with parts := x0 } ↔ Keeps m s0 s :=
  ⟨fun h => ⟨h.pending, h.memOk, h.mem, h.cores, h.reqs, h.nextTag, h.accepts, h.writers, h.cellar, h.coh, h.trellis, h.hbm, h.sau, h.seq, h.host, h.span, fun hb => absurd (hb.symm.trans h0) Bool.false_ne_true, h.faults, h.power, h.bring, h.sec, h.dict, h.time, h.freeCtr⟩, keeps_set_parts h0⟩
theorem keeps_set_faults {m : Nat} {s0 s : State} {x0 : _} (h0 : m.testBit 15 = true) (h : Keeps m s0 s) :
    Keeps m s0 { s with faults := x0 } :=
  ⟨h.pending, h.memOk, h.mem, h.cores, h.reqs, h.nextTag, h.accepts, h.writers, h.cellar, h.coh, h.trellis, h.hbm, h.sau, h.seq, h.host, h.span, h.parts, fun hb => absurd (hb.symm.trans h0) Bool.false_ne_true, h.power, h.bring, h.sec, h.dict, h.time, h.freeCtr⟩
theorem keeps_set_faults_iff {m : Nat} {s0 s : State} {x0 : _} (h0 : m.testBit 15 = true) :
    Keeps m s0 { s with faults := x0 } ↔ Keeps m s0 s :=
  ⟨fun h => ⟨h.pending, h.memOk, h.mem, h.cores, h.reqs, h.nextTag, h.accepts, h.writers, h.cellar, h.coh, h.trellis, h.hbm, h.sau, h.seq, h.host, h.span, h.parts, fun hb => absurd (hb.symm.trans h0) Bool.false_ne_true, h.power, h.bring, h.sec, h.dict, h.time, h.freeCtr⟩, keeps_set_faults h0⟩
theorem keeps_set_power {m : Nat} {s0 s : State} {x0 : _} (h0 : m.testBit 16 = true) (h : Keeps m s0 s) :
    Keeps m s0 { s with power := x0 } :=
  ⟨h.pending, h.memOk, h.mem, h.cores, h.reqs, h.nextTag, h.accepts, h.writers, h.cellar, h.coh, h.trellis, h.hbm, h.sau, h.seq, h.host, h.span, h.parts, h.faults, fun hb => absurd (hb.symm.trans h0) Bool.false_ne_true, h.bring, h.sec, h.dict, h.time, h.freeCtr⟩
theorem keeps_set_power_iff {m : Nat} {s0 s : State} {x0 : _} (h0 : m.testBit 16 = true) :
    Keeps m s0 { s with power := x0 } ↔ Keeps m s0 s :=
  ⟨fun h => ⟨h.pending, h.memOk, h.mem, h.cores, h.reqs, h.nextTag, h.accepts, h.writers, h.cellar, h.coh, h.trellis, h.hbm, h.sau, h.seq, h.host, h.span, h.parts, h.faults, fun hb => absurd (hb.symm.trans h0) Bool.false_ne_true, h.bring, h.sec, h.dict, h.time, h.freeCtr⟩, keeps_set_power h0⟩
theorem keeps_set_bring {m : Nat} {s0 s : State} {x0 : _} (h0 : m.testBit 17 = true) (h : Keeps m s0 s) :
    Keeps m s0 { s with bring := x0 } :=
  ⟨h.pending, h.memOk, h.mem, h.cores, h.reqs, h.nextTag, h.accepts, h.writers, h.cellar, h.coh, h.trellis, h.hbm, h.sau, h.seq, h.host, h.span, h.parts, h.faults, h.power, fun hb => absurd (hb.symm.trans h0) Bool.false_ne_true, h.sec, h.dict, h.time, h.freeCtr⟩
theorem keeps_set_bring_iff {m : Nat} {s0 s : State} {x0 : _} (h0 : m.testBit 17 = true) :
    Keeps m s0 { s with bring := x0 } ↔ Keeps m s0 s :=
  ⟨fun h => ⟨h.pending, h.memOk, h.mem, h.cores, h.reqs, h.nextTag, h.accepts, h.writers, h.cellar, h.coh, h.trellis, h.hbm, h.sau, h.seq, h.host, h.span, h.parts, h.faults, h.power, fun hb => absurd (hb.symm.trans h0) Bool.false_ne_true, h.sec, h.dict, h.time, h.freeCtr⟩, keeps_set_bring h0⟩
theorem keeps_set_sec {m : Nat} {s0 s : State} {x0 : _} (h0 : m.testBit 18 = true) (h : Keeps m s0 s) :
    Keeps m s0 { s with sec := x0 } :=
  ⟨h.pending, h.memOk, h.mem, h.cores, h.reqs, h.nextTag, h.accepts, h.writers, h.cellar, h.coh, h.trellis, h.hbm, h.sau, h.seq, h.host, h.span, h.parts, h.faults, h.power, h.bring, fun hb => absurd (hb.symm.trans h0) Bool.false_ne_true, h.dict, h.time, h.freeCtr⟩
theorem keeps_set_sec_iff {m : Nat} {s0 s : State} {x0 : _} (h0 : m.testBit 18 = true) :
    Keeps m s0 { s with sec := x0 } ↔ Keeps m s0 s :=
  ⟨fun h => ⟨h.pending, h.memOk, h.mem, h.cores, h.reqs, h.nextTag, h.accepts, h.writers, h.cellar, h.coh, h.trellis, h.hbm, h.sau, h.seq, h.host, h.span, h.parts, h.faults, h.power, h.bring, fun hb => absurd (hb.symm.trans h0) Bool.false_ne_true, h.dict, h.time, h.freeCtr⟩, keeps_set_sec h0⟩
theorem keeps_set_dict {m : Nat} {s0 s : State} {x0 : _} (h0 : m.testBit 19 = true) (h : Keeps m s0 s) :
    Keeps m s0 { s with dict := x0 } :=
  ⟨h.pending, h.memOk, h.mem, h.cores, h.reqs, h.nextTag, h.accepts, h.writers, h.cellar, h.coh, h.trellis, h.hbm, h.sau, h.seq, h.host, h.span, h.parts, h.faults, h.power, h.bring, h.sec, fun hb => absurd (hb.symm.trans h0) Bool.false_ne_true, h.time, h.freeCtr⟩
theorem keeps_set_dict_iff {m : Nat} {s0 s : State} {x0 : _} (h0 : m.testBit 19 = true) :
    Keeps m s0 { s with dict := x0 } ↔ Keeps m s0 s :=
  ⟨fun h => ⟨h.pending, h.memOk, h.mem, h.cores, h.reqs, h.nextTag, h.accepts, h.writers, h.cellar, h.coh, h.trellis, h.hbm, h.sau, h.seq, h.host, h.span, h.parts, h.faults, h.power, h.bring, h.sec, fun hb => absurd (hb.symm.trans h0) Bool.false_ne_true, h.time, h.freeCtr⟩, keeps_set_dict h0⟩
theorem keeps_set_time {m : Nat} {s0 s : State} {x0 : _} (h0 : m.testBit 20 = true) (h : Keeps m s0 s) :
    Keeps m s0 { s with time := x0 } :=
  ⟨h.pending, h.memOk, h.mem, h.cores, h.reqs, h.nextTag, h.accepts, h.writers, h.cellar, h.coh, h.trellis, h.hbm, h.sau, h.seq, h.host, h.span, h.parts, h.faults, h.power, h.bring, h.sec, h.dict, fun hb => absurd (hb.symm.trans h0) Bool.false_ne_true, h.freeCtr⟩
theorem keeps_set_time_iff {m : Nat} {s0 s : State} {x0 : _} (h0 : m.testBit 20 = true) :
    Keeps m s0 { s with time := x0 } ↔ Keeps m s0 s :=
  ⟨fun h => ⟨h.pending, h.memOk, h.mem, h.cores, h.reqs, h.nextTag, h.accepts, h.writers, h.cellar, h.coh, h.trellis, h.hbm, h.sau, h.seq, h.host, h.span, h.parts, h.faults, h.power, h.bring, h.sec, h.dict, fun hb => absurd (hb.symm.trans h0) Bool.false_ne_true, h.freeCtr⟩, keeps_set_time h0⟩
theorem keeps_set_freeCtr {m : Nat} {s0 s : State} {x0 : _} (h0 : m.testBit 21 = true) (h : Keeps m s0 s) :
    Keeps m s0 { s with freeCtr := x0 } :=
  ⟨h.pending, h.memOk, h.mem, h.cores, h.reqs, h.nextTag, h.accepts, h.writers, h.cellar, h.coh, h.trellis, h.hbm, h.sau, h.seq, h.host, h.span, h.parts, h.faults, h.power, h.bring, h.sec, h.dict, h.time, fun hb => absurd (hb.symm.trans h0) Bool.false_ne_true⟩
theorem keeps_set_freeCtr_iff {m : Nat} {s0 s : State} {x0 : _} (h0 : m.testBit 21 = true) :
    Keeps m s0 { s with freeCtr := x0 } ↔ Keeps m s0 s :=
  ⟨fun h => ⟨h.pending, h.memOk, h.mem, h.cores, h.reqs, h.nextTag, h.accepts, h.writers, h.cellar, h.coh, h.trellis, h.hbm, h.sau, h.seq, h.host, h.span, h.parts, h.faults, h.power, h.bring, h.sec, h.dict, h.time, fun hb => absurd (hb.symm.trans h0) Bool.false_ne_true⟩, keeps_set_freeCtr h0⟩
theorem keeps_set_cores_host {m : Nat} {s0 s : State} {x0 : _} {x1 : _} (h0 : m.testBit 1 = true) (h1 : m.testBit 12 = true) (h : Keeps m s0 s) :
    Keeps m s0 { s with cores := x0, host := x1 } :=
  ⟨h.pending, h.memOk, h.mem, fun hb => absurd (hb.symm.trans h0) Bool.false_ne_true, h.reqs, h.nextTag, h.accepts, h.writers, h.cellar, h.coh, h.trellis, h.hbm, h.sau, h.seq, fun hb => absurd (hb.symm.trans h1) Bool.false_ne_true, h.span, h.parts, h.faults, h.power, h.bring, h.sec, h.dict, h.time, h.freeCtr⟩
theorem keeps_set_cores_host_iff {m : Nat} {s0 s : State} {x0 : _} {x1 : _} (h0 : m.testBit 1 = true) (h1 : m.testBit 12 = true) :
    Keeps m s0 { s with cores := x0, host := x1 } ↔ Keeps m s0 s :=
  ⟨fun h => ⟨h.pending, h.memOk, h.mem, fun hb => absurd (hb.symm.trans h0) Bool.false_ne_true, h.reqs, h.nextTag, h.accepts, h.writers, h.cellar, h.coh, h.trellis, h.hbm, h.sau, h.seq, fun hb => absurd (hb.symm.trans h1) Bool.false_ne_true, h.span, h.parts, h.faults, h.power, h.bring, h.sec, h.dict, h.time, h.freeCtr⟩, keeps_set_cores_host h0 h1⟩
theorem keeps_set_cores_faults {m : Nat} {s0 s : State} {x0 : _} {x1 : _} (h0 : m.testBit 1 = true) (h1 : m.testBit 15 = true) (h : Keeps m s0 s) :
    Keeps m s0 { s with cores := x0, faults := x1 } :=
  ⟨h.pending, h.memOk, h.mem, fun hb => absurd (hb.symm.trans h0) Bool.false_ne_true, h.reqs, h.nextTag, h.accepts, h.writers, h.cellar, h.coh, h.trellis, h.hbm, h.sau, h.seq, h.host, h.span, h.parts, fun hb => absurd (hb.symm.trans h1) Bool.false_ne_true, h.power, h.bring, h.sec, h.dict, h.time, h.freeCtr⟩
theorem keeps_set_cores_faults_iff {m : Nat} {s0 s : State} {x0 : _} {x1 : _} (h0 : m.testBit 1 = true) (h1 : m.testBit 15 = true) :
    Keeps m s0 { s with cores := x0, faults := x1 } ↔ Keeps m s0 s :=
  ⟨fun h => ⟨h.pending, h.memOk, h.mem, fun hb => absurd (hb.symm.trans h0) Bool.false_ne_true, h.reqs, h.nextTag, h.accepts, h.writers, h.cellar, h.coh, h.trellis, h.hbm, h.sau, h.seq, h.host, h.span, h.parts, fun hb => absurd (hb.symm.trans h1) Bool.false_ne_true, h.power, h.bring, h.sec, h.dict, h.time, h.freeCtr⟩, keeps_set_cores_faults h0 h1⟩
theorem keeps_set_reqs_nextTag {m : Nat} {s0 s : State} {x0 : _} {x1 : _} (h0 : m.testBit 2 = true) (h1 : m.testBit 3 = true) (h : Keeps m s0 s) :
    Keeps m s0 { s with reqs := x0, nextTag := x1 } :=
  ⟨h.pending, h.memOk, h.mem, h.cores, fun hb => absurd (hb.symm.trans h0) Bool.false_ne_true, fun hb => absurd (hb.symm.trans h1) Bool.false_ne_true, h.accepts, h.writers, h.cellar, h.coh, h.trellis, h.hbm, h.sau, h.seq, h.host, h.span, h.parts, h.faults, h.power, h.bring, h.sec, h.dict, h.time, h.freeCtr⟩
theorem keeps_set_reqs_nextTag_iff {m : Nat} {s0 s : State} {x0 : _} {x1 : _} (h0 : m.testBit 2 = true) (h1 : m.testBit 3 = true) :
    Keeps m s0 { s with reqs := x0, nextTag := x1 } ↔ Keeps m s0 s :=
  ⟨fun h => ⟨h.pending, h.memOk, h.mem, h.cores, fun hb => absurd (hb.symm.trans h0) Bool.false_ne_true, fun hb => absurd (hb.symm.trans h1) Bool.false_ne_true, h.accepts, h.writers, h.cellar, h.coh, h.trellis, h.hbm, h.sau, h.seq, h.host, h.span, h.parts, h.faults, h.power, h.bring, h.sec, h.dict, h.time, h.freeCtr⟩, keeps_set_reqs_nextTag h0 h1⟩
theorem keeps_set_reqs_cellar {m : Nat} {s0 s : State} {x0 : _} {x1 : _} (h0 : m.testBit 2 = true) (h1 : m.testBit 6 = true) (h : Keeps m s0 s) :
    Keeps m s0 { s with reqs := x0, cellar := x1 } :=
  ⟨h.pending, h.memOk, h.mem, h.cores, fun hb => absurd (hb.symm.trans h0) Bool.false_ne_true, h.nextTag, h.accepts, h.writers, fun hb => absurd (hb.symm.trans h1) Bool.false_ne_true, h.coh, h.trellis, h.hbm, h.sau, h.seq, h.host, h.span, h.parts, h.faults, h.power, h.bring, h.sec, h.dict, h.time, h.freeCtr⟩
theorem keeps_set_reqs_cellar_iff {m : Nat} {s0 s : State} {x0 : _} {x1 : _} (h0 : m.testBit 2 = true) (h1 : m.testBit 6 = true) :
    Keeps m s0 { s with reqs := x0, cellar := x1 } ↔ Keeps m s0 s :=
  ⟨fun h => ⟨h.pending, h.memOk, h.mem, h.cores, fun hb => absurd (hb.symm.trans h0) Bool.false_ne_true, h.nextTag, h.accepts, h.writers, fun hb => absurd (hb.symm.trans h1) Bool.false_ne_true, h.coh, h.trellis, h.hbm, h.sau, h.seq, h.host, h.span, h.parts, h.faults, h.power, h.bring, h.sec, h.dict, h.time, h.freeCtr⟩, keeps_set_reqs_cellar h0 h1⟩
theorem keeps_set_reqs_coh {m : Nat} {s0 s : State} {x0 : _} {x1 : _} (h0 : m.testBit 2 = true) (h1 : m.testBit 7 = true) (h : Keeps m s0 s) :
    Keeps m s0 { s with reqs := x0, coh := x1 } :=
  ⟨h.pending, h.memOk, h.mem, h.cores, fun hb => absurd (hb.symm.trans h0) Bool.false_ne_true, h.nextTag, h.accepts, h.writers, h.cellar, fun hb => absurd (hb.symm.trans h1) Bool.false_ne_true, h.trellis, h.hbm, h.sau, h.seq, h.host, h.span, h.parts, h.faults, h.power, h.bring, h.sec, h.dict, h.time, h.freeCtr⟩
theorem keeps_set_reqs_coh_iff {m : Nat} {s0 s : State} {x0 : _} {x1 : _} (h0 : m.testBit 2 = true) (h1 : m.testBit 7 = true) :
    Keeps m s0 { s with reqs := x0, coh := x1 } ↔ Keeps m s0 s :=
  ⟨fun h => ⟨h.pending, h.memOk, h.mem, h.cores, fun hb => absurd (hb.symm.trans h0) Bool.false_ne_true, h.nextTag, h.accepts, h.writers, h.cellar, fun hb => absurd (hb.symm.trans h1) Bool.false_ne_true, h.trellis, h.hbm, h.sau, h.seq, h.host, h.span, h.parts, h.faults, h.power, h.bring, h.sec, h.dict, h.time, h.freeCtr⟩, keeps_set_reqs_coh h0 h1⟩
theorem keeps_set_reqs_hbm {m : Nat} {s0 s : State} {x0 : _} {x1 : _} (h0 : m.testBit 2 = true) (h1 : m.testBit 9 = true) (h : Keeps m s0 s) :
    Keeps m s0 { s with reqs := x0, hbm := x1 } :=
  ⟨h.pending, h.memOk, h.mem, h.cores, fun hb => absurd (hb.symm.trans h0) Bool.false_ne_true, h.nextTag, h.accepts, h.writers, h.cellar, h.coh, h.trellis, fun hb => absurd (hb.symm.trans h1) Bool.false_ne_true, h.sau, h.seq, h.host, h.span, h.parts, h.faults, h.power, h.bring, h.sec, h.dict, h.time, h.freeCtr⟩
theorem keeps_set_reqs_hbm_iff {m : Nat} {s0 s : State} {x0 : _} {x1 : _} (h0 : m.testBit 2 = true) (h1 : m.testBit 9 = true) :
    Keeps m s0 { s with reqs := x0, hbm := x1 } ↔ Keeps m s0 s :=
  ⟨fun h => ⟨h.pending, h.memOk, h.mem, h.cores, fun hb => absurd (hb.symm.trans h0) Bool.false_ne_true, h.nextTag, h.accepts, h.writers, h.cellar, h.coh, h.trellis, fun hb => absurd (hb.symm.trans h1) Bool.false_ne_true, h.sau, h.seq, h.host, h.span, h.parts, h.faults, h.power, h.bring, h.sec, h.dict, h.time, h.freeCtr⟩, keeps_set_reqs_hbm h0 h1⟩
theorem keeps_set_nextTag_trellis {m : Nat} {s0 s : State} {x0 : _} {x1 : _} (h0 : m.testBit 3 = true) (h1 : m.testBit 8 = true) (h : Keeps m s0 s) :
    Keeps m s0 { s with nextTag := x0, trellis := x1 } :=
  ⟨h.pending, h.memOk, h.mem, h.cores, h.reqs, fun hb => absurd (hb.symm.trans h0) Bool.false_ne_true, h.accepts, h.writers, h.cellar, h.coh, fun hb => absurd (hb.symm.trans h1) Bool.false_ne_true, h.hbm, h.sau, h.seq, h.host, h.span, h.parts, h.faults, h.power, h.bring, h.sec, h.dict, h.time, h.freeCtr⟩
theorem keeps_set_nextTag_trellis_iff {m : Nat} {s0 s : State} {x0 : _} {x1 : _} (h0 : m.testBit 3 = true) (h1 : m.testBit 8 = true) :
    Keeps m s0 { s with nextTag := x0, trellis := x1 } ↔ Keeps m s0 s :=
  ⟨fun h => ⟨h.pending, h.memOk, h.mem, h.cores, h.reqs, fun hb => absurd (hb.symm.trans h0) Bool.false_ne_true, h.accepts, h.writers, h.cellar, h.coh, fun hb => absurd (hb.symm.trans h1) Bool.false_ne_true, h.hbm, h.sau, h.seq, h.host, h.span, h.parts, h.faults, h.power, h.bring, h.sec, h.dict, h.time, h.freeCtr⟩, keeps_set_nextTag_trellis h0 h1⟩
theorem keeps_set_nextTag_sau {m : Nat} {s0 s : State} {x0 : _} {x1 : _} (h0 : m.testBit 3 = true) (h1 : m.testBit 10 = true) (h : Keeps m s0 s) :
    Keeps m s0 { s with nextTag := x0, sau := x1 } :=
  ⟨h.pending, h.memOk, h.mem, h.cores, h.reqs, fun hb => absurd (hb.symm.trans h0) Bool.false_ne_true, h.accepts, h.writers, h.cellar, h.coh, h.trellis, h.hbm, fun hb => absurd (hb.symm.trans h1) Bool.false_ne_true, h.seq, h.host, h.span, h.parts, h.faults, h.power, h.bring, h.sec, h.dict, h.time, h.freeCtr⟩
theorem keeps_set_nextTag_sau_iff {m : Nat} {s0 s : State} {x0 : _} {x1 : _} (h0 : m.testBit 3 = true) (h1 : m.testBit 10 = true) :
    Keeps m s0 { s with nextTag := x0, sau := x1 } ↔ Keeps m s0 s :=
  ⟨fun h => ⟨h.pending, h.memOk, h.mem, h.cores, h.reqs, fun hb => absurd (hb.symm.trans h0) Bool.false_ne_true, h.accepts, h.writers, h.cellar, h.coh, h.trellis, h.hbm, fun hb => absurd (hb.symm.trans h1) Bool.false_ne_true, h.seq, h.host, h.span, h.parts, h.faults, h.power, h.bring, h.sec, h.dict, h.time, h.freeCtr⟩, keeps_set_nextTag_sau h0 h1⟩
theorem keeps_set_cellar_coh {m : Nat} {s0 s : State} {x0 : _} {x1 : _} (h0 : m.testBit 6 = true) (h1 : m.testBit 7 = true) (h : Keeps m s0 s) :
    Keeps m s0 { s with cellar := x0, coh := x1 } :=
  ⟨h.pending, h.memOk, h.mem, h.cores, h.reqs, h.nextTag, h.accepts, h.writers, fun hb => absurd (hb.symm.trans h0) Bool.false_ne_true, fun hb => absurd (hb.symm.trans h1) Bool.false_ne_true, h.trellis, h.hbm, h.sau, h.seq, h.host, h.span, h.parts, h.faults, h.power, h.bring, h.sec, h.dict, h.time, h.freeCtr⟩
theorem keeps_set_cellar_coh_iff {m : Nat} {s0 s : State} {x0 : _} {x1 : _} (h0 : m.testBit 6 = true) (h1 : m.testBit 7 = true) :
    Keeps m s0 { s with cellar := x0, coh := x1 } ↔ Keeps m s0 s :=
  ⟨fun h => ⟨h.pending, h.memOk, h.mem, h.cores, h.reqs, h.nextTag, h.accepts, h.writers, fun hb => absurd (hb.symm.trans h0) Bool.false_ne_true, fun hb => absurd (hb.symm.trans h1) Bool.false_ne_true, h.trellis, h.hbm, h.sau, h.seq, h.host, h.span, h.parts, h.faults, h.power, h.bring, h.sec, h.dict, h.time, h.freeCtr⟩, keeps_set_cellar_coh h0 h1⟩
theorem keeps_set_cellar_trellis {m : Nat} {s0 s : State} {x0 : _} {x1 : _} (h0 : m.testBit 6 = true) (h1 : m.testBit 8 = true) (h : Keeps m s0 s) :
    Keeps m s0 { s with cellar := x0, trellis := x1 } :=
  ⟨h.pending, h.memOk, h.mem, h.cores, h.reqs, h.nextTag, h.accepts, h.writers, fun hb => absurd (hb.symm.trans h0) Bool.false_ne_true, h.coh, fun hb => absurd (hb.symm.trans h1) Bool.false_ne_true, h.hbm, h.sau, h.seq, h.host, h.span, h.parts, h.faults, h.power, h.bring, h.sec, h.dict, h.time, h.freeCtr⟩
theorem keeps_set_cellar_trellis_iff {m : Nat} {s0 s : State} {x0 : _} {x1 : _} (h0 : m.testBit 6 = true) (h1 : m.testBit 8 = true) :
    Keeps m s0 { s with cellar := x0, trellis := x1 } ↔ Keeps m s0 s :=
  ⟨fun h => ⟨h.pending, h.memOk, h.mem, h.cores, h.reqs, h.nextTag, h.accepts, h.writers, fun hb => absurd (hb.symm.trans h0) Bool.false_ne_true, h.coh, fun hb => absurd (hb.symm.trans h1) Bool.false_ne_true, h.hbm, h.sau, h.seq, h.host, h.span, h.parts, h.faults, h.power, h.bring, h.sec, h.dict, h.time, h.freeCtr⟩, keeps_set_cellar_trellis h0 h1⟩
theorem keeps_set_cellar_hbm {m : Nat} {s0 s : State} {x0 : _} {x1 : _} (h0 : m.testBit 6 = true) (h1 : m.testBit 9 = true) (h : Keeps m s0 s) :
    Keeps m s0 { s with cellar := x0, hbm := x1 } :=
  ⟨h.pending, h.memOk, h.mem, h.cores, h.reqs, h.nextTag, h.accepts, h.writers, fun hb => absurd (hb.symm.trans h0) Bool.false_ne_true, h.coh, h.trellis, fun hb => absurd (hb.symm.trans h1) Bool.false_ne_true, h.sau, h.seq, h.host, h.span, h.parts, h.faults, h.power, h.bring, h.sec, h.dict, h.time, h.freeCtr⟩
theorem keeps_set_cellar_hbm_iff {m : Nat} {s0 s : State} {x0 : _} {x1 : _} (h0 : m.testBit 6 = true) (h1 : m.testBit 9 = true) :
    Keeps m s0 { s with cellar := x0, hbm := x1 } ↔ Keeps m s0 s :=
  ⟨fun h => ⟨h.pending, h.memOk, h.mem, h.cores, h.reqs, h.nextTag, h.accepts, h.writers, fun hb => absurd (hb.symm.trans h0) Bool.false_ne_true, h.coh, h.trellis, fun hb => absurd (hb.symm.trans h1) Bool.false_ne_true, h.sau, h.seq, h.host, h.span, h.parts, h.faults, h.power, h.bring, h.sec, h.dict, h.time, h.freeCtr⟩, keeps_set_cellar_hbm h0 h1⟩
theorem keeps_set_cellar_seq {m : Nat} {s0 s : State} {x0 : _} {x1 : _} (h0 : m.testBit 6 = true) (h1 : m.testBit 11 = true) (h : Keeps m s0 s) :
    Keeps m s0 { s with cellar := x0, seq := x1 } :=
  ⟨h.pending, h.memOk, h.mem, h.cores, h.reqs, h.nextTag, h.accepts, h.writers, fun hb => absurd (hb.symm.trans h0) Bool.false_ne_true, h.coh, h.trellis, h.hbm, h.sau, fun hb => absurd (hb.symm.trans h1) Bool.false_ne_true, h.host, h.span, h.parts, h.faults, h.power, h.bring, h.sec, h.dict, h.time, h.freeCtr⟩
theorem keeps_set_cellar_seq_iff {m : Nat} {s0 s : State} {x0 : _} {x1 : _} (h0 : m.testBit 6 = true) (h1 : m.testBit 11 = true) :
    Keeps m s0 { s with cellar := x0, seq := x1 } ↔ Keeps m s0 s :=
  ⟨fun h => ⟨h.pending, h.memOk, h.mem, h.cores, h.reqs, h.nextTag, h.accepts, h.writers, fun hb => absurd (hb.symm.trans h0) Bool.false_ne_true, h.coh, h.trellis, h.hbm, h.sau, fun hb => absurd (hb.symm.trans h1) Bool.false_ne_true, h.host, h.span, h.parts, h.faults, h.power, h.bring, h.sec, h.dict, h.time, h.freeCtr⟩, keeps_set_cellar_seq h0 h1⟩
theorem keeps_set_cellar_span {m : Nat} {s0 s : State} {x0 : _} {x1 : _} (h0 : m.testBit 6 = true) (h1 : m.testBit 13 = true) (h : Keeps m s0 s) :
    Keeps m s0 { s with cellar := x0, span := x1 } :=
  ⟨h.pending, h.memOk, h.mem, h.cores, h.reqs, h.nextTag, h.accepts, h.writers, fun hb => absurd (hb.symm.trans h0) Bool.false_ne_true, h.coh, h.trellis, h.hbm, h.sau, h.seq, h.host, fun hb => absurd (hb.symm.trans h1) Bool.false_ne_true, h.parts, h.faults, h.power, h.bring, h.sec, h.dict, h.time, h.freeCtr⟩
theorem keeps_set_cellar_span_iff {m : Nat} {s0 s : State} {x0 : _} {x1 : _} (h0 : m.testBit 6 = true) (h1 : m.testBit 13 = true) :
    Keeps m s0 { s with cellar := x0, span := x1 } ↔ Keeps m s0 s :=
  ⟨fun h => ⟨h.pending, h.memOk, h.mem, h.cores, h.reqs, h.nextTag, h.accepts, h.writers, fun hb => absurd (hb.symm.trans h0) Bool.false_ne_true, h.coh, h.trellis, h.hbm, h.sau, h.seq, h.host, fun hb => absurd (hb.symm.trans h1) Bool.false_ne_true, h.parts, h.faults, h.power, h.bring, h.sec, h.dict, h.time, h.freeCtr⟩, keeps_set_cellar_span h0 h1⟩
theorem keeps_set_coh_seq {m : Nat} {s0 s : State} {x0 : _} {x1 : _} (h0 : m.testBit 7 = true) (h1 : m.testBit 11 = true) (h : Keeps m s0 s) :
    Keeps m s0 { s with coh := x0, seq := x1 } :=
  ⟨h.pending, h.memOk, h.mem, h.cores, h.reqs, h.nextTag, h.accepts, h.writers, h.cellar, fun hb => absurd (hb.symm.trans h0) Bool.false_ne_true, h.trellis, h.hbm, h.sau, fun hb => absurd (hb.symm.trans h1) Bool.false_ne_true, h.host, h.span, h.parts, h.faults, h.power, h.bring, h.sec, h.dict, h.time, h.freeCtr⟩
theorem keeps_set_coh_seq_iff {m : Nat} {s0 s : State} {x0 : _} {x1 : _} (h0 : m.testBit 7 = true) (h1 : m.testBit 11 = true) :
    Keeps m s0 { s with coh := x0, seq := x1 } ↔ Keeps m s0 s :=
  ⟨fun h => ⟨h.pending, h.memOk, h.mem, h.cores, h.reqs, h.nextTag, h.accepts, h.writers, h.cellar, fun hb => absurd (hb.symm.trans h0) Bool.false_ne_true, h.trellis, h.hbm, h.sau, fun hb => absurd (hb.symm.trans h1) Bool.false_ne_true, h.host, h.span, h.parts, h.faults, h.power, h.bring, h.sec, h.dict, h.time, h.freeCtr⟩, keeps_set_coh_seq h0 h1⟩
theorem keeps_set_trellis_faults {m : Nat} {s0 s : State} {x0 : _} {x1 : _} (h0 : m.testBit 8 = true) (h1 : m.testBit 15 = true) (h : Keeps m s0 s) :
    Keeps m s0 { s with trellis := x0, faults := x1 } :=
  ⟨h.pending, h.memOk, h.mem, h.cores, h.reqs, h.nextTag, h.accepts, h.writers, h.cellar, h.coh, fun hb => absurd (hb.symm.trans h0) Bool.false_ne_true, h.hbm, h.sau, h.seq, h.host, h.span, h.parts, fun hb => absurd (hb.symm.trans h1) Bool.false_ne_true, h.power, h.bring, h.sec, h.dict, h.time, h.freeCtr⟩
theorem keeps_set_trellis_faults_iff {m : Nat} {s0 s : State} {x0 : _} {x1 : _} (h0 : m.testBit 8 = true) (h1 : m.testBit 15 = true) :
    Keeps m s0 { s with trellis := x0, faults := x1 } ↔ Keeps m s0 s :=
  ⟨fun h => ⟨h.pending, h.memOk, h.mem, h.cores, h.reqs, h.nextTag, h.accepts, h.writers, h.cellar, h.coh, fun hb => absurd (hb.symm.trans h0) Bool.false_ne_true, h.hbm, h.sau, h.seq, h.host, h.span, h.parts, fun hb => absurd (hb.symm.trans h1) Bool.false_ne_true, h.power, h.bring, h.sec, h.dict, h.time, h.freeCtr⟩, keeps_set_trellis_faults h0 h1⟩
theorem keeps_set_trellis_bring {m : Nat} {s0 s : State} {x0 : _} {x1 : _} (h0 : m.testBit 8 = true) (h1 : m.testBit 17 = true) (h : Keeps m s0 s) :
    Keeps m s0 { s with trellis := x0, bring := x1 } :=
  ⟨h.pending, h.memOk, h.mem, h.cores, h.reqs, h.nextTag, h.accepts, h.writers, h.cellar, h.coh, fun hb => absurd (hb.symm.trans h0) Bool.false_ne_true, h.hbm, h.sau, h.seq, h.host, h.span, h.parts, h.faults, h.power, fun hb => absurd (hb.symm.trans h1) Bool.false_ne_true, h.sec, h.dict, h.time, h.freeCtr⟩
theorem keeps_set_trellis_bring_iff {m : Nat} {s0 s : State} {x0 : _} {x1 : _} (h0 : m.testBit 8 = true) (h1 : m.testBit 17 = true) :
    Keeps m s0 { s with trellis := x0, bring := x1 } ↔ Keeps m s0 s :=
  ⟨fun h => ⟨h.pending, h.memOk, h.mem, h.cores, h.reqs, h.nextTag, h.accepts, h.writers, h.cellar, h.coh, fun hb => absurd (hb.symm.trans h0) Bool.false_ne_true, h.hbm, h.sau, h.seq, h.host, h.span, h.parts, h.faults, h.power, fun hb => absurd (hb.symm.trans h1) Bool.false_ne_true, h.sec, h.dict, h.time, h.freeCtr⟩, keeps_set_trellis_bring h0 h1⟩
theorem keeps_set_trellis_freeCtr {m : Nat} {s0 s : State} {x0 : _} {x1 : _} (h0 : m.testBit 8 = true) (h1 : m.testBit 21 = true) (h : Keeps m s0 s) :
    Keeps m s0 { s with trellis := x0, freeCtr := x1 } :=
  ⟨h.pending, h.memOk, h.mem, h.cores, h.reqs, h.nextTag, h.accepts, h.writers, h.cellar, h.coh, fun hb => absurd (hb.symm.trans h0) Bool.false_ne_true, h.hbm, h.sau, h.seq, h.host, h.span, h.parts, h.faults, h.power, h.bring, h.sec, h.dict, h.time, fun hb => absurd (hb.symm.trans h1) Bool.false_ne_true⟩
theorem keeps_set_trellis_freeCtr_iff {m : Nat} {s0 s : State} {x0 : _} {x1 : _} (h0 : m.testBit 8 = true) (h1 : m.testBit 21 = true) :
    Keeps m s0 { s with trellis := x0, freeCtr := x1 } ↔ Keeps m s0 s :=
  ⟨fun h => ⟨h.pending, h.memOk, h.mem, h.cores, h.reqs, h.nextTag, h.accepts, h.writers, h.cellar, h.coh, fun hb => absurd (hb.symm.trans h0) Bool.false_ne_true, h.hbm, h.sau, h.seq, h.host, h.span, h.parts, h.faults, h.power, h.bring, h.sec, h.dict, h.time, fun hb => absurd (hb.symm.trans h1) Bool.false_ne_true⟩, keeps_set_trellis_freeCtr h0 h1⟩
theorem keeps_set_hbm_sec {m : Nat} {s0 s : State} {x0 : _} {x1 : _} (h0 : m.testBit 9 = true) (h1 : m.testBit 18 = true) (h : Keeps m s0 s) :
    Keeps m s0 { s with hbm := x0, sec := x1 } :=
  ⟨h.pending, h.memOk, h.mem, h.cores, h.reqs, h.nextTag, h.accepts, h.writers, h.cellar, h.coh, h.trellis, fun hb => absurd (hb.symm.trans h0) Bool.false_ne_true, h.sau, h.seq, h.host, h.span, h.parts, h.faults, h.power, h.bring, fun hb => absurd (hb.symm.trans h1) Bool.false_ne_true, h.dict, h.time, h.freeCtr⟩
theorem keeps_set_hbm_sec_iff {m : Nat} {s0 s : State} {x0 : _} {x1 : _} (h0 : m.testBit 9 = true) (h1 : m.testBit 18 = true) :
    Keeps m s0 { s with hbm := x0, sec := x1 } ↔ Keeps m s0 s :=
  ⟨fun h => ⟨h.pending, h.memOk, h.mem, h.cores, h.reqs, h.nextTag, h.accepts, h.writers, h.cellar, h.coh, h.trellis, fun hb => absurd (hb.symm.trans h0) Bool.false_ne_true, h.sau, h.seq, h.host, h.span, h.parts, h.faults, h.power, h.bring, fun hb => absurd (hb.symm.trans h1) Bool.false_ne_true, h.dict, h.time, h.freeCtr⟩, keeps_set_hbm_sec h0 h1⟩
theorem keeps_set_seq_host {m : Nat} {s0 s : State} {x0 : _} {x1 : _} (h0 : m.testBit 11 = true) (h1 : m.testBit 12 = true) (h : Keeps m s0 s) :
    Keeps m s0 { s with seq := x0, host := x1 } :=
  ⟨h.pending, h.memOk, h.mem, h.cores, h.reqs, h.nextTag, h.accepts, h.writers, h.cellar, h.coh, h.trellis, h.hbm, h.sau, fun hb => absurd (hb.symm.trans h0) Bool.false_ne_true, fun hb => absurd (hb.symm.trans h1) Bool.false_ne_true, h.span, h.parts, h.faults, h.power, h.bring, h.sec, h.dict, h.time, h.freeCtr⟩
theorem keeps_set_seq_host_iff {m : Nat} {s0 s : State} {x0 : _} {x1 : _} (h0 : m.testBit 11 = true) (h1 : m.testBit 12 = true) :
    Keeps m s0 { s with seq := x0, host := x1 } ↔ Keeps m s0 s :=
  ⟨fun h => ⟨h.pending, h.memOk, h.mem, h.cores, h.reqs, h.nextTag, h.accepts, h.writers, h.cellar, h.coh, h.trellis, h.hbm, h.sau, fun hb => absurd (hb.symm.trans h0) Bool.false_ne_true, fun hb => absurd (hb.symm.trans h1) Bool.false_ne_true, h.span, h.parts, h.faults, h.power, h.bring, h.sec, h.dict, h.time, h.freeCtr⟩, keeps_set_seq_host h0 h1⟩
theorem keeps_set_seq_span {m : Nat} {s0 s : State} {x0 : _} {x1 : _} (h0 : m.testBit 11 = true) (h1 : m.testBit 13 = true) (h : Keeps m s0 s) :
    Keeps m s0 { s with seq := x0, span := x1 } :=
  ⟨h.pending, h.memOk, h.mem, h.cores, h.reqs, h.nextTag, h.accepts, h.writers, h.cellar, h.coh, h.trellis, h.hbm, h.sau, fun hb => absurd (hb.symm.trans h0) Bool.false_ne_true, h.host, fun hb => absurd (hb.symm.trans h1) Bool.false_ne_true, h.parts, h.faults, h.power, h.bring, h.sec, h.dict, h.time, h.freeCtr⟩
theorem keeps_set_seq_span_iff {m : Nat} {s0 s : State} {x0 : _} {x1 : _} (h0 : m.testBit 11 = true) (h1 : m.testBit 13 = true) :
    Keeps m s0 { s with seq := x0, span := x1 } ↔ Keeps m s0 s :=
  ⟨fun h => ⟨h.pending, h.memOk, h.mem, h.cores, h.reqs, h.nextTag, h.accepts, h.writers, h.cellar, h.coh, h.trellis, h.hbm, h.sau, fun hb => absurd (hb.symm.trans h0) Bool.false_ne_true, h.host, fun hb => absurd (hb.symm.trans h1) Bool.false_ne_true, h.parts, h.faults, h.power, h.bring, h.sec, h.dict, h.time, h.freeCtr⟩, keeps_set_seq_span h0 h1⟩
theorem keeps_set_seq_faults {m : Nat} {s0 s : State} {x0 : _} {x1 : _} (h0 : m.testBit 11 = true) (h1 : m.testBit 15 = true) (h : Keeps m s0 s) :
    Keeps m s0 { s with seq := x0, faults := x1 } :=
  ⟨h.pending, h.memOk, h.mem, h.cores, h.reqs, h.nextTag, h.accepts, h.writers, h.cellar, h.coh, h.trellis, h.hbm, h.sau, fun hb => absurd (hb.symm.trans h0) Bool.false_ne_true, h.host, h.span, h.parts, fun hb => absurd (hb.symm.trans h1) Bool.false_ne_true, h.power, h.bring, h.sec, h.dict, h.time, h.freeCtr⟩
theorem keeps_set_seq_faults_iff {m : Nat} {s0 s : State} {x0 : _} {x1 : _} (h0 : m.testBit 11 = true) (h1 : m.testBit 15 = true) :
    Keeps m s0 { s with seq := x0, faults := x1 } ↔ Keeps m s0 s :=
  ⟨fun h => ⟨h.pending, h.memOk, h.mem, h.cores, h.reqs, h.nextTag, h.accepts, h.writers, h.cellar, h.coh, h.trellis, h.hbm, h.sau, fun hb => absurd (hb.symm.trans h0) Bool.false_ne_true, h.host, h.span, h.parts, fun hb => absurd (hb.symm.trans h1) Bool.false_ne_true, h.power, h.bring, h.sec, h.dict, h.time, h.freeCtr⟩, keeps_set_seq_faults h0 h1⟩
theorem keeps_set_seq_power {m : Nat} {s0 s : State} {x0 : _} {x1 : _} (h0 : m.testBit 11 = true) (h1 : m.testBit 16 = true) (h : Keeps m s0 s) :
    Keeps m s0 { s with seq := x0, power := x1 } :=
  ⟨h.pending, h.memOk, h.mem, h.cores, h.reqs, h.nextTag, h.accepts, h.writers, h.cellar, h.coh, h.trellis, h.hbm, h.sau, fun hb => absurd (hb.symm.trans h0) Bool.false_ne_true, h.host, h.span, h.parts, h.faults, fun hb => absurd (hb.symm.trans h1) Bool.false_ne_true, h.bring, h.sec, h.dict, h.time, h.freeCtr⟩
theorem keeps_set_seq_power_iff {m : Nat} {s0 s : State} {x0 : _} {x1 : _} (h0 : m.testBit 11 = true) (h1 : m.testBit 16 = true) :
    Keeps m s0 { s with seq := x0, power := x1 } ↔ Keeps m s0 s :=
  ⟨fun h => ⟨h.pending, h.memOk, h.mem, h.cores, h.reqs, h.nextTag, h.accepts, h.writers, h.cellar, h.coh, h.trellis, h.hbm, h.sau, fun hb => absurd (hb.symm.trans h0) Bool.false_ne_true, h.host, h.span, h.parts, h.faults, fun hb => absurd (hb.symm.trans h1) Bool.false_ne_true, h.bring, h.sec, h.dict, h.time, h.freeCtr⟩, keeps_set_seq_power h0 h1⟩
theorem keeps_set_host_span {m : Nat} {s0 s : State} {x0 : _} {x1 : _} (h0 : m.testBit 12 = true) (h1 : m.testBit 13 = true) (h : Keeps m s0 s) :
    Keeps m s0 { s with host := x0, span := x1 } :=
  ⟨h.pending, h.memOk, h.mem, h.cores, h.reqs, h.nextTag, h.accepts, h.writers, h.cellar, h.coh, h.trellis, h.hbm, h.sau, h.seq, fun hb => absurd (hb.symm.trans h0) Bool.false_ne_true, fun hb => absurd (hb.symm.trans h1) Bool.false_ne_true, h.parts, h.faults, h.power, h.bring, h.sec, h.dict, h.time, h.freeCtr⟩
theorem keeps_set_host_span_iff {m : Nat} {s0 s : State} {x0 : _} {x1 : _} (h0 : m.testBit 12 = true) (h1 : m.testBit 13 = true) :
    Keeps m s0 { s with host := x0, span := x1 } ↔ Keeps m s0 s :=
  ⟨fun h => ⟨h.pending, h.memOk, h.mem, h.cores, h.reqs, h.nextTag, h.accepts, h.writers, h.cellar, h.coh, h.trellis, h.hbm, h.sau, h.seq, fun hb => absurd (hb.symm.trans h0) Bool.false_ne_true, fun hb => absurd (hb.symm.trans h1) Bool.false_ne_true, h.parts, h.faults, h.power, h.bring, h.sec, h.dict, h.time, h.freeCtr⟩, keeps_set_host_span h0 h1⟩
theorem keeps_set_host_parts {m : Nat} {s0 s : State} {x0 : _} {x1 : _} (h0 : m.testBit 12 = true) (h1 : m.testBit 14 = true) (h : Keeps m s0 s) :
    Keeps m s0 { s with host := x0, parts := x1 } :=
  ⟨h.pending, h.memOk, h.mem, h.cores, h.reqs, h.nextTag, h.accepts, h.writers, h.cellar, h.coh, h.trellis, h.hbm, h.sau, h.seq, fun hb => absurd (hb.symm.trans h0) Bool.false_ne_true, h.span, fun hb => absurd (hb.symm.trans h1) Bool.false_ne_true, h.faults, h.power, h.bring, h.sec, h.dict, h.time, h.freeCtr⟩
theorem keeps_set_host_parts_iff {m : Nat} {s0 s : State} {x0 : _} {x1 : _} (h0 : m.testBit 12 = true) (h1 : m.testBit 14 = true) :
    Keeps m s0 { s with host := x0, parts := x1 } ↔ Keeps m s0 s :=
  ⟨fun h => ⟨h.pending, h.memOk, h.mem, h.cores, h.reqs, h.nextTag, h.accepts, h.writers, h.cellar, h.coh, h.trellis, h.hbm, h.sau, h.seq, fun hb => absurd (hb.symm.trans h0) Bool.false_ne_true, h.span, fun hb => absurd (hb.symm.trans h1) Bool.false_ne_true, h.faults, h.power, h.bring, h.sec, h.dict, h.time, h.freeCtr⟩, keeps_set_host_parts h0 h1⟩
theorem keeps_set_span_power {m : Nat} {s0 s : State} {x0 : _} {x1 : _} (h0 : m.testBit 13 = true) (h1 : m.testBit 16 = true) (h : Keeps m s0 s) :
    Keeps m s0 { s with span := x0, power := x1 } :=
  ⟨h.pending, h.memOk, h.mem, h.cores, h.reqs, h.nextTag, h.accepts, h.writers, h.cellar, h.coh, h.trellis, h.hbm, h.sau, h.seq, h.host, fun hb => absurd (hb.symm.trans h0) Bool.false_ne_true, h.parts, h.faults, fun hb => absurd (hb.symm.trans h1) Bool.false_ne_true, h.bring, h.sec, h.dict, h.time, h.freeCtr⟩
theorem keeps_set_span_power_iff {m : Nat} {s0 s : State} {x0 : _} {x1 : _} (h0 : m.testBit 13 = true) (h1 : m.testBit 16 = true) :
    Keeps m s0 { s with span := x0, power := x1 } ↔ Keeps m s0 s :=
  ⟨fun h => ⟨h.pending, h.memOk, h.mem, h.cores, h.reqs, h.nextTag, h.accepts, h.writers, h.cellar, h.coh, h.trellis, h.hbm, h.sau, h.seq, h.host, fun hb => absurd (hb.symm.trans h0) Bool.false_ne_true, h.parts, h.faults, fun hb => absurd (hb.symm.trans h1) Bool.false_ne_true, h.bring, h.sec, h.dict, h.time, h.freeCtr⟩, keeps_set_span_power h0 h1⟩
theorem keeps_set_faults_bring {m : Nat} {s0 s : State} {x0 : _} {x1 : _} (h0 : m.testBit 15 = true) (h1 : m.testBit 17 = true) (h : Keeps m s0 s) :
    Keeps m s0 { s with faults := x0, bring := x1 } :=
  ⟨h.pending, h.memOk, h.mem, h.cores, h.reqs, h.nextTag, h.accepts, h.writers, h.cellar, h.coh, h.trellis, h.hbm, h.sau, h.seq, h.host, h.span, h.parts, fun hb => absurd (hb.symm.trans h0) Bool.false_ne_true, h.power, fun hb => absurd (hb.symm.trans h1) Bool.false_ne_true, h.sec, h.dict, h.time, h.freeCtr⟩
theorem keeps_set_faults_bring_iff {m : Nat} {s0 s : State} {x0 : _} {x1 : _} (h0 : m.testBit 15 = true) (h1 : m.testBit 17 = true) :
    Keeps m s0 { s with faults := x0, bring := x1 } ↔ Keeps m s0 s :=
  ⟨fun h => ⟨h.pending, h.memOk, h.mem, h.cores, h.reqs, h.nextTag, h.accepts, h.writers, h.cellar, h.coh, h.trellis, h.hbm, h.sau, h.seq, h.host, h.span, h.parts, fun hb => absurd (hb.symm.trans h0) Bool.false_ne_true, h.power, fun hb => absurd (hb.symm.trans h1) Bool.false_ne_true, h.sec, h.dict, h.time, h.freeCtr⟩, keeps_set_faults_bring h0 h1⟩
theorem keeps_set_faults_sec {m : Nat} {s0 s : State} {x0 : _} {x1 : _} (h0 : m.testBit 15 = true) (h1 : m.testBit 18 = true) (h : Keeps m s0 s) :
    Keeps m s0 { s with faults := x0, sec := x1 } :=
  ⟨h.pending, h.memOk, h.mem, h.cores, h.reqs, h.nextTag, h.accepts, h.writers, h.cellar, h.coh, h.trellis, h.hbm, h.sau, h.seq, h.host, h.span, h.parts, fun hb => absurd (hb.symm.trans h0) Bool.false_ne_true, h.power, h.bring, fun hb => absurd (hb.symm.trans h1) Bool.false_ne_true, h.dict, h.time, h.freeCtr⟩
theorem keeps_set_faults_sec_iff {m : Nat} {s0 s : State} {x0 : _} {x1 : _} (h0 : m.testBit 15 = true) (h1 : m.testBit 18 = true) :
    Keeps m s0 { s with faults := x0, sec := x1 } ↔ Keeps m s0 s :=
  ⟨fun h => ⟨h.pending, h.memOk, h.mem, h.cores, h.reqs, h.nextTag, h.accepts, h.writers, h.cellar, h.coh, h.trellis, h.hbm, h.sau, h.seq, h.host, h.span, h.parts, fun hb => absurd (hb.symm.trans h0) Bool.false_ne_true, h.power, h.bring, fun hb => absurd (hb.symm.trans h1) Bool.false_ne_true, h.dict, h.time, h.freeCtr⟩, keeps_set_faults_sec h0 h1⟩
theorem keeps_set_power_bring {m : Nat} {s0 s : State} {x0 : _} {x1 : _} (h0 : m.testBit 16 = true) (h1 : m.testBit 17 = true) (h : Keeps m s0 s) :
    Keeps m s0 { s with power := x0, bring := x1 } :=
  ⟨h.pending, h.memOk, h.mem, h.cores, h.reqs, h.nextTag, h.accepts, h.writers, h.cellar, h.coh, h.trellis, h.hbm, h.sau, h.seq, h.host, h.span, h.parts, h.faults, fun hb => absurd (hb.symm.trans h0) Bool.false_ne_true, fun hb => absurd (hb.symm.trans h1) Bool.false_ne_true, h.sec, h.dict, h.time, h.freeCtr⟩
theorem keeps_set_power_bring_iff {m : Nat} {s0 s : State} {x0 : _} {x1 : _} (h0 : m.testBit 16 = true) (h1 : m.testBit 17 = true) :
    Keeps m s0 { s with power := x0, bring := x1 } ↔ Keeps m s0 s :=
  ⟨fun h => ⟨h.pending, h.memOk, h.mem, h.cores, h.reqs, h.nextTag, h.accepts, h.writers, h.cellar, h.coh, h.trellis, h.hbm, h.sau, h.seq, h.host, h.span, h.parts, h.faults, fun hb => absurd (hb.symm.trans h0) Bool.false_ne_true, fun hb => absurd (hb.symm.trans h1) Bool.false_ne_true, h.sec, h.dict, h.time, h.freeCtr⟩, keeps_set_power_bring h0 h1⟩
theorem keeps_set_power_dict {m : Nat} {s0 s : State} {x0 : _} {x1 : _} (h0 : m.testBit 16 = true) (h1 : m.testBit 19 = true) (h : Keeps m s0 s) :
    Keeps m s0 { s with power := x0, dict := x1 } :=
  ⟨h.pending, h.memOk, h.mem, h.cores, h.reqs, h.nextTag, h.accepts, h.writers, h.cellar, h.coh, h.trellis, h.hbm, h.sau, h.seq, h.host, h.span, h.parts, h.faults, fun hb => absurd (hb.symm.trans h0) Bool.false_ne_true, h.bring, h.sec, fun hb => absurd (hb.symm.trans h1) Bool.false_ne_true, h.time, h.freeCtr⟩
theorem keeps_set_power_dict_iff {m : Nat} {s0 s : State} {x0 : _} {x1 : _} (h0 : m.testBit 16 = true) (h1 : m.testBit 19 = true) :
    Keeps m s0 { s with power := x0, dict := x1 } ↔ Keeps m s0 s :=
  ⟨fun h => ⟨h.pending, h.memOk, h.mem, h.cores, h.reqs, h.nextTag, h.accepts, h.writers, h.cellar, h.coh, h.trellis, h.hbm, h.sau, h.seq, h.host, h.span, h.parts, h.faults, fun hb => absurd (hb.symm.trans h0) Bool.false_ne_true, h.bring, h.sec, fun hb => absurd (hb.symm.trans h1) Bool.false_ne_true, h.time, h.freeCtr⟩, keeps_set_power_dict h0 h1⟩
theorem keeps_set_bring_sec {m : Nat} {s0 s : State} {x0 : _} {x1 : _} (h0 : m.testBit 17 = true) (h1 : m.testBit 18 = true) (h : Keeps m s0 s) :
    Keeps m s0 { s with bring := x0, sec := x1 } :=
  ⟨h.pending, h.memOk, h.mem, h.cores, h.reqs, h.nextTag, h.accepts, h.writers, h.cellar, h.coh, h.trellis, h.hbm, h.sau, h.seq, h.host, h.span, h.parts, h.faults, h.power, fun hb => absurd (hb.symm.trans h0) Bool.false_ne_true, fun hb => absurd (hb.symm.trans h1) Bool.false_ne_true, h.dict, h.time, h.freeCtr⟩
theorem keeps_set_bring_sec_iff {m : Nat} {s0 s : State} {x0 : _} {x1 : _} (h0 : m.testBit 17 = true) (h1 : m.testBit 18 = true) :
    Keeps m s0 { s with bring := x0, sec := x1 } ↔ Keeps m s0 s :=
  ⟨fun h => ⟨h.pending, h.memOk, h.mem, h.cores, h.reqs, h.nextTag, h.accepts, h.writers, h.cellar, h.coh, h.trellis, h.hbm, h.sau, h.seq, h.host, h.span, h.parts, h.faults, h.power, fun hb => absurd (hb.symm.trans h0) Bool.false_ne_true, fun hb => absurd (hb.symm.trans h1) Bool.false_ne_true, h.dict, h.time, h.freeCtr⟩, keeps_set_bring_sec h0 h1⟩
theorem keeps_set_bring_dict {m : Nat} {s0 s : State} {x0 : _} {x1 : _} (h0 : m.testBit 17 = true) (h1 : m.testBit 19 = true) (h : Keeps m s0 s) :
    Keeps m s0 { s with bring := x0, dict := x1 } :=
  ⟨h.pending, h.memOk, h.mem, h.cores, h.reqs, h.nextTag, h.accepts, h.writers, h.cellar, h.coh, h.trellis, h.hbm, h.sau, h.seq, h.host, h.span, h.parts, h.faults, h.power, fun hb => absurd (hb.symm.trans h0) Bool.false_ne_true, h.sec, fun hb => absurd (hb.symm.trans h1) Bool.false_ne_true, h.time, h.freeCtr⟩
theorem keeps_set_bring_dict_iff {m : Nat} {s0 s : State} {x0 : _} {x1 : _} (h0 : m.testBit 17 = true) (h1 : m.testBit 19 = true) :
    Keeps m s0 { s with bring := x0, dict := x1 } ↔ Keeps m s0 s :=
  ⟨fun h => ⟨h.pending, h.memOk, h.mem, h.cores, h.reqs, h.nextTag, h.accepts, h.writers, h.cellar, h.coh, h.trellis, h.hbm, h.sau, h.seq, h.host, h.span, h.parts, h.faults, h.power, fun hb => absurd (hb.symm.trans h0) Bool.false_ne_true, h.sec, fun hb => absurd (hb.symm.trans h1) Bool.false_ne_true, h.time, h.freeCtr⟩, keeps_set_bring_dict h0 h1⟩
theorem keeps_set_time_freeCtr {m : Nat} {s0 s : State} {x0 : _} {x1 : _} (h0 : m.testBit 20 = true) (h1 : m.testBit 21 = true) (h : Keeps m s0 s) :
    Keeps m s0 { s with time := x0, freeCtr := x1 } :=
  ⟨h.pending, h.memOk, h.mem, h.cores, h.reqs, h.nextTag, h.accepts, h.writers, h.cellar, h.coh, h.trellis, h.hbm, h.sau, h.seq, h.host, h.span, h.parts, h.faults, h.power, h.bring, h.sec, h.dict, fun hb => absurd (hb.symm.trans h0) Bool.false_ne_true, fun hb => absurd (hb.symm.trans h1) Bool.false_ne_true⟩
theorem keeps_set_time_freeCtr_iff {m : Nat} {s0 s : State} {x0 : _} {x1 : _} (h0 : m.testBit 20 = true) (h1 : m.testBit 21 = true) :
    Keeps m s0 { s with time := x0, freeCtr := x1 } ↔ Keeps m s0 s :=
  ⟨fun h => ⟨h.pending, h.memOk, h.mem, h.cores, h.reqs, h.nextTag, h.accepts, h.writers, h.cellar, h.coh, h.trellis, h.hbm, h.sau, h.seq, h.host, h.span, h.parts, h.faults, h.power, h.bring, h.sec, h.dict, fun hb => absurd (hb.symm.trans h0) Bool.false_ne_true, fun hb => absurd (hb.symm.trans h1) Bool.false_ne_true⟩, keeps_set_time_freeCtr h0 h1⟩
theorem keeps_set_cores_reqs_sau {m : Nat} {s0 s : State} {x0 : _} {x1 : _} {x2 : _} (h0 : m.testBit 1 = true) (h1 : m.testBit 2 = true) (h2 : m.testBit 10 = true) (h : Keeps m s0 s) :
    Keeps m s0 { s with cores := x0, reqs := x1, sau := x2 } :=
  ⟨h.pending, h.memOk, h.mem, fun hb => absurd (hb.symm.trans h0) Bool.false_ne_true, fun hb => absurd (hb.symm.trans h1) Bool.false_ne_true, h.nextTag, h.accepts, h.writers, h.cellar, h.coh, h.trellis, h.hbm, fun hb => absurd (hb.symm.trans h2) Bool.false_ne_true, h.seq, h.host, h.span, h.parts, h.faults, h.power, h.bring, h.sec, h.dict, h.time, h.freeCtr⟩
theorem keeps_set_cores_reqs_sau_iff {m : Nat} {s0 s : State} {x0 : _} {x1 : _} {x2 : _} (h0 : m.testBit 1 = true) (h1 : m.testBit 2 = true) (h2 : m.testBit 10 = true) :
    Keeps m s0 { s with cores := x0, reqs := x1, sau := x2 } ↔ Keeps m s0 s :=
  ⟨fun h => ⟨h.pending, h.memOk, h.mem, fun hb => absurd (hb.symm.trans h0) Bool.false_ne_true, fun hb => absurd (hb.symm.trans h1) Bool.false_ne_true, h.nextTag, h.accepts, h.writers, h.cellar, h.coh, h.trellis, h.hbm, fun hb => absurd (hb.symm.trans h2) Bool.false_ne_true, h.seq, h.host, h.span, h.parts, h.faults, h.power, h.bring, h.sec, h.dict, h.time, h.freeCtr⟩, keeps_set_cores_reqs_sau h0 h1 h2⟩
theorem keeps_set_reqs_coh_seq {m : Nat} {s0 s : State} {x0 : _} {x1 : _} {x2 : _} (h0 : m.testBit 2 = true) (h1 : m.testBit 7 = true) (h2 : m.testBit 11 = true) (h : Keeps m s0 s) :
    Keeps m s0 { s with reqs := x0, coh := x1, seq := x2 } :=
  ⟨h.pending, h.memOk, h.mem, h.cores, fun hb => absurd (hb.symm.trans h0) Bool.false_ne_true, h.nextTag, h.accepts, h.writers, h.cellar, fun hb => absurd (hb.symm.trans h1) Bool.false_ne_true, h.trellis, h.hbm, h.sau, fun hb => absurd (hb.symm.trans h2) Bool.false_ne_true, h.host, h.span, h.parts, h.faults, h.power, h.bring, h.sec, h.dict, h.time, h.freeCtr⟩
theorem keeps_set_reqs_coh_seq_iff {m : Nat} {s0 s : State} {x0 : _} {x1 : _} {x2 : _} (h0 : m.testBit 2 = true) (h1 : m.testBit 7 = true) (h2 : m.testBit 11 = true) :
    Keeps m s0 { s with reqs := x0, coh := x1, seq := x2 } ↔ Keeps m s0 s :=
  ⟨fun h => ⟨h.pending, h.memOk, h.mem, h.cores, fun hb => absurd (hb.symm.trans h0) Bool.false_ne_true, h.nextTag, h.accepts, h.writers, h.cellar, fun hb => absurd (hb.symm.trans h1) Bool.false_ne_true, h.trellis, h.hbm, h.sau, fun hb => absurd (hb.symm.trans h2) Bool.false_ne_true, h.host, h.span, h.parts, h.faults, h.power, h.bring, h.sec, h.dict, h.time, h.freeCtr⟩, keeps_set_reqs_coh_seq h0 h1 h2⟩
theorem keeps_set_reqs_trellis_sau {m : Nat} {s0 s : State} {x0 : _} {x1 : _} {x2 : _} (h0 : m.testBit 2 = true) (h1 : m.testBit 8 = true) (h2 : m.testBit 10 = true) (h : Keeps m s0 s) :
    Keeps m s0 { s with reqs := x0, trellis := x1, sau := x2 } :=
  ⟨h.pending, h.memOk, h.mem, h.cores, fun hb => absurd (hb.symm.trans h0) Bool.false_ne_true, h.nextTag, h.accepts, h.writers, h.cellar, h.coh, fun hb => absurd (hb.symm.trans h1) Bool.false_ne_true, h.hbm, fun hb => absurd (hb.symm.trans h2) Bool.false_ne_true, h.seq, h.host, h.span, h.parts, h.faults, h.power, h.bring, h.sec, h.dict, h.time, h.freeCtr⟩
theorem keeps_set_reqs_trellis_sau_iff {m : Nat} {s0 s : State} {x0 : _} {x1 : _} {x2 : _} (h0 : m.testBit 2 = true) (h1 : m.testBit 8 = true) (h2 : m.testBit 10 = true) :
    Keeps m s0 { s with reqs := x0, trellis := x1, sau := x2 } ↔ Keeps m s0 s :=
  ⟨fun h => ⟨h.pending, h.memOk, h.mem, h.cores, fun hb => absurd (hb.symm.trans h0) Bool.false_ne_true, h.nextTag, h.accepts, h.writers, h.cellar, h.coh, fun hb => absurd (hb.symm.trans h1) Bool.false_ne_true, h.hbm, fun hb => absurd (hb.symm.trans h2) Bool.false_ne_true, h.seq, h.host, h.span, h.parts, h.faults, h.power, h.bring, h.sec, h.dict, h.time, h.freeCtr⟩, keeps_set_reqs_trellis_sau h0 h1 h2⟩
theorem keeps_set_cellar_coh_seq {m : Nat} {s0 s : State} {x0 : _} {x1 : _} {x2 : _} (h0 : m.testBit 6 = true) (h1 : m.testBit 7 = true) (h2 : m.testBit 11 = true) (h : Keeps m s0 s) :
    Keeps m s0 { s with cellar := x0, coh := x1, seq := x2 } :=
  ⟨h.pending, h.memOk, h.mem, h.cores, h.reqs, h.nextTag, h.accepts, h.writers, fun hb => absurd (hb.symm.trans h0) Bool.false_ne_true, fun hb => absurd (hb.symm.trans h1) Bool.false_ne_true, h.trellis, h.hbm, h.sau, fun hb => absurd (hb.symm.trans h2) Bool.false_ne_true, h.host, h.span, h.parts, h.faults, h.power, h.bring, h.sec, h.dict, h.time, h.freeCtr⟩
theorem keeps_set_cellar_coh_seq_iff {m : Nat} {s0 s : State} {x0 : _} {x1 : _} {x2 : _} (h0 : m.testBit 6 = true) (h1 : m.testBit 7 = true) (h2 : m.testBit 11 = true) :
    Keeps m s0 { s with cellar := x0, coh := x1, seq := x2 } ↔ Keeps m s0 s :=
  ⟨fun h => ⟨h.pending, h.memOk, h.mem, h.cores, h.reqs, h.nextTag, h.accepts, h.writers, fun hb => absurd (hb.symm.trans h0) Bool.false_ne_true, fun hb => absurd (hb.symm.trans h1) Bool.false_ne_true, h.trellis, h.hbm, h.sau, fun hb => absurd (hb.symm.trans h2) Bool.false_ne_true, h.host, h.span, h.parts, h.faults, h.power, h.bring, h.sec, h.dict, h.time, h.freeCtr⟩, keeps_set_cellar_coh_seq h0 h1 h2⟩
theorem keeps_set_cellar_trellis_span {m : Nat} {s0 s : State} {x0 : _} {x1 : _} {x2 : _} (h0 : m.testBit 6 = true) (h1 : m.testBit 8 = true) (h2 : m.testBit 13 = true) (h : Keeps m s0 s) :
    Keeps m s0 { s with cellar := x0, trellis := x1, span := x2 } :=
  ⟨h.pending, h.memOk, h.mem, h.cores, h.reqs, h.nextTag, h.accepts, h.writers, fun hb => absurd (hb.symm.trans h0) Bool.false_ne_true, h.coh, fun hb => absurd (hb.symm.trans h1) Bool.false_ne_true, h.hbm, h.sau, h.seq, h.host, fun hb => absurd (hb.symm.trans h2) Bool.false_ne_true, h.parts, h.faults, h.power, h.bring, h.sec, h.dict, h.time, h.freeCtr⟩
theorem keeps_set_cellar_trellis_span_iff {m : Nat} {s0 s : State} {x0 : _} {x1 : _} {x2 : _} (h0 : m.testBit 6 = true) (h1 : m.testBit 8 = true) (h2 : m.testBit 13 = true) :
    Keeps m s0 { s with cellar := x0, trellis := x1, span := x2 } ↔ Keeps m s0 s :=
  ⟨fun h => ⟨h.pending, h.memOk, h.mem, h.cores, h.reqs, h.nextTag, h.accepts, h.writers, fun hb => absurd (hb.symm.trans h0) Bool.false_ne_true, h.coh, fun hb => absurd (hb.symm.trans h1) Bool.false_ne_true, h.hbm, h.sau, h.seq, h.host, fun hb => absurd (hb.symm.trans h2) Bool.false_ne_true, h.parts, h.faults, h.power, h.bring, h.sec, h.dict, h.time, h.freeCtr⟩, keeps_set_cellar_trellis_span h0 h1 h2⟩
theorem keeps_set_cellar_hbm_span {m : Nat} {s0 s : State} {x0 : _} {x1 : _} {x2 : _} (h0 : m.testBit 6 = true) (h1 : m.testBit 9 = true) (h2 : m.testBit 13 = true) (h : Keeps m s0 s) :
    Keeps m s0 { s with cellar := x0, hbm := x1, span := x2 } :=
  ⟨h.pending, h.memOk, h.mem, h.cores, h.reqs, h.nextTag, h.accepts, h.writers, fun hb => absurd (hb.symm.trans h0) Bool.false_ne_true, h.coh, h.trellis, fun hb => absurd (hb.symm.trans h1) Bool.false_ne_true, h.sau, h.seq, h.host, fun hb => absurd (hb.symm.trans h2) Bool.false_ne_true, h.parts, h.faults, h.power, h.bring, h.sec, h.dict, h.time, h.freeCtr⟩
theorem keeps_set_cellar_hbm_span_iff {m : Nat} {s0 s : State} {x0 : _} {x1 : _} {x2 : _} (h0 : m.testBit 6 = true) (h1 : m.testBit 9 = true) (h2 : m.testBit 13 = true) :
    Keeps m s0 { s with cellar := x0, hbm := x1, span := x2 } ↔ Keeps m s0 s :=
  ⟨fun h => ⟨h.pending, h.memOk, h.mem, h.cores, h.reqs, h.nextTag, h.accepts, h.writers, fun hb => absurd (hb.symm.trans h0) Bool.false_ne_true, h.coh, h.trellis, fun hb => absurd (hb.symm.trans h1) Bool.false_ne_true, h.sau, h.seq, h.host, fun hb => absurd (hb.symm.trans h2) Bool.false_ne_true, h.parts, h.faults, h.power, h.bring, h.sec, h.dict, h.time, h.freeCtr⟩, keeps_set_cellar_hbm_span h0 h1 h2⟩
theorem keeps_set_cellar_seq_host {m : Nat} {s0 s : State} {x0 : _} {x1 : _} {x2 : _} (h0 : m.testBit 6 = true) (h1 : m.testBit 11 = true) (h2 : m.testBit 12 = true) (h : Keeps m s0 s) :
    Keeps m s0 { s with cellar := x0, seq := x1, host := x2 } :=
  ⟨h.pending, h.memOk, h.mem, h.cores, h.reqs, h.nextTag, h.accepts, h.writers, fun hb => absurd (hb.symm.trans h0) Bool.false_ne_true, h.coh, h.trellis, h.hbm, h.sau, fun hb => absurd (hb.symm.trans h1) Bool.false_ne_true, fun hb => absurd (hb.symm.trans h2) Bool.false_ne_true, h.span, h.parts, h.faults, h.power, h.bring, h.sec, h.dict, h.time, h.freeCtr⟩
theorem keeps_set_cellar_seq_host_iff {m : Nat} {s0 s : State} {x0 : _} {x1 : _} {x2 : _} (h0 : m.testBit 6 = true) (h1 : m.testBit 11 = true) (h2 : m.testBit 12 = true) :
    Keeps m s0 { s with cellar := x0, seq := x1, host := x2 } ↔ Keeps m s0 s :=
  ⟨fun h => ⟨h.pending, h.memOk, h.mem, h.cores, h.reqs, h.nextTag, h.accepts, h.writers, fun hb => absurd (hb.symm.trans h0) Bool.false_ne_true, h.coh, h.trellis, h.hbm, h.sau, fun hb => absurd (hb.symm.trans h1) Bool.false_ne_true, fun hb => absurd (hb.symm.trans h2) Bool.false_ne_true, h.span, h.parts, h.faults, h.power, h.bring, h.sec, h.dict, h.time, h.freeCtr⟩, keeps_set_cellar_seq_host h0 h1 h2⟩
theorem keeps_set_trellis_seq_faults {m : Nat} {s0 s : State} {x0 : _} {x1 : _} {x2 : _} (h0 : m.testBit 8 = true) (h1 : m.testBit 11 = true) (h2 : m.testBit 15 = true) (h : Keeps m s0 s) :
    Keeps m s0 { s with trellis := x0, seq := x1, faults := x2 } :=
  ⟨h.pending, h.memOk, h.mem, h.cores, h.reqs, h.nextTag, h.accepts, h.writers, h.cellar, h.coh, fun hb => absurd (hb.symm.trans h0) Bool.false_ne_true, h.hbm, h.sau, fun hb => absurd (hb.symm.trans h1) Bool.false_ne_true, h.host, h.span, h.parts, fun hb => absurd (hb.symm.trans h2) Bool.false_ne_true, h.power, h.bring, h.sec, h.dict, h.time, h.freeCtr⟩
theorem keeps_set_trellis_seq_faults_iff {m : Nat} {s0 s : State} {x0 : _} {x1 : _} {x2 : _} (h0 : m.testBit 8 = true) (h1 : m.testBit 11 = true) (h2 : m.testBit 15 = true) :
    Keeps m s0 { s with trellis := x0, seq := x1, faults := x2 } ↔ Keeps m s0 s :=
  ⟨fun h => ⟨h.pending, h.memOk, h.mem, h.cores, h.reqs, h.nextTag, h.accepts, h.writers, h.cellar, h.coh, fun hb => absurd (hb.symm.trans h0) Bool.false_ne_true, h.hbm, h.sau, fun hb => absurd (hb.symm.trans h1) Bool.false_ne_true, h.host, h.span, h.parts, fun hb => absurd (hb.symm.trans h2) Bool.false_ne_true, h.power, h.bring, h.sec, h.dict, h.time, h.freeCtr⟩, keeps_set_trellis_seq_faults h0 h1 h2⟩
theorem keeps_set_hbm_seq_power {m : Nat} {s0 s : State} {x0 : _} {x1 : _} {x2 : _} (h0 : m.testBit 9 = true) (h1 : m.testBit 11 = true) (h2 : m.testBit 16 = true) (h : Keeps m s0 s) :
    Keeps m s0 { s with hbm := x0, seq := x1, power := x2 } :=
  ⟨h.pending, h.memOk, h.mem, h.cores, h.reqs, h.nextTag, h.accepts, h.writers, h.cellar, h.coh, h.trellis, fun hb => absurd (hb.symm.trans h0) Bool.false_ne_true, h.sau, fun hb => absurd (hb.symm.trans h1) Bool.false_ne_true, h.host, h.span, h.parts, h.faults, fun hb => absurd (hb.symm.trans h2) Bool.false_ne_true, h.bring, h.sec, h.dict, h.time, h.freeCtr⟩
theorem keeps_set_hbm_seq_power_iff {m : Nat} {s0 s : State} {x0 : _} {x1 : _} {x2 : _} (h0 : m.testBit 9 = true) (h1 : m.testBit 11 = true) (h2 : m.testBit 16 = true) :
    Keeps m s0 { s with hbm := x0, seq := x1, power := x2 } ↔ Keeps m s0 s :=
  ⟨fun h => ⟨h.pending, h.memOk, h.mem, h.cores, h.reqs, h.nextTag, h.accepts, h.writers, h.cellar, h.coh, h.trellis, fun hb => absurd (hb.symm.trans h0) Bool.false_ne_true, h.sau, fun hb => absurd (hb.symm.trans h1) Bool.false_ne_true, h.host, h.span, h.parts, h.faults, fun hb => absurd (hb.symm.trans h2) Bool.false_ne_true, h.bring, h.sec, h.dict, h.time, h.freeCtr⟩, keeps_set_hbm_seq_power h0 h1 h2⟩
theorem keeps_set_span_faults_power {m : Nat} {s0 s : State} {x0 : _} {x1 : _} {x2 : _} (h0 : m.testBit 13 = true) (h1 : m.testBit 15 = true) (h2 : m.testBit 16 = true) (h : Keeps m s0 s) :
    Keeps m s0 { s with span := x0, faults := x1, power := x2 } :=
  ⟨h.pending, h.memOk, h.mem, h.cores, h.reqs, h.nextTag, h.accepts, h.writers, h.cellar, h.coh, h.trellis, h.hbm, h.sau, h.seq, h.host, fun hb => absurd (hb.symm.trans h0) Bool.false_ne_true, h.parts, fun hb => absurd (hb.symm.trans h1) Bool.false_ne_true, fun hb => absurd (hb.symm.trans h2) Bool.false_ne_true, h.bring, h.sec, h.dict, h.time, h.freeCtr⟩
theorem keeps_set_span_faults_power_iff {m : Nat} {s0 s : State} {x0 : _} {x1 : _} {x2 : _} (h0 : m.testBit 13 = true) (h1 : m.testBit 15 = true) (h2 : m.testBit 16 = true) :
    Keeps m s0 { s with span := x0, faults := x1, power := x2 } ↔ Keeps m s0 s :=
  ⟨fun h => ⟨h.pending, h.memOk, h.mem, h.cores, h.reqs, h.nextTag, h.accepts, h.writers, h.cellar, h.coh, h.trellis, h.hbm, h.sau, h.seq, h.host, fun hb => absurd (hb.symm.trans h0) Bool.false_ne_true, h.parts, fun hb => absurd (hb.symm.trans h1) Bool.false_ne_true, fun hb => absurd (hb.symm.trans h2) Bool.false_ne_true, h.bring, h.sec, h.dict, h.time, h.freeCtr⟩, keeps_set_span_faults_power h0 h1 h2⟩
theorem keeps_set_faults_power_bring {m : Nat} {s0 s : State} {x0 : _} {x1 : _} {x2 : _} (h0 : m.testBit 15 = true) (h1 : m.testBit 16 = true) (h2 : m.testBit 17 = true) (h : Keeps m s0 s) :
    Keeps m s0 { s with faults := x0, power := x1, bring := x2 } :=
  ⟨h.pending, h.memOk, h.mem, h.cores, h.reqs, h.nextTag, h.accepts, h.writers, h.cellar, h.coh, h.trellis, h.hbm, h.sau, h.seq, h.host, h.span, h.parts, fun hb => absurd (hb.symm.trans h0) Bool.false_ne_true, fun hb => absurd (hb.symm.trans h1) Bool.false_ne_true, fun hb => absurd (hb.symm.trans h2) Bool.false_ne_true, h.sec, h.dict, h.time, h.freeCtr⟩
theorem keeps_set_faults_power_bring_iff {m : Nat} {s0 s : State} {x0 : _} {x1 : _} {x2 : _} (h0 : m.testBit 15 = true) (h1 : m.testBit 16 = true) (h2 : m.testBit 17 = true) :
    Keeps m s0 { s with faults := x0, power := x1, bring := x2 } ↔ Keeps m s0 s :=
  ⟨fun h => ⟨h.pending, h.memOk, h.mem, h.cores, h.reqs, h.nextTag, h.accepts, h.writers, h.cellar, h.coh, h.trellis, h.hbm, h.sau, h.seq, h.host, h.span, h.parts, fun hb => absurd (hb.symm.trans h0) Bool.false_ne_true, fun hb => absurd (hb.symm.trans h1) Bool.false_ne_true, fun hb => absurd (hb.symm.trans h2) Bool.false_ne_true, h.sec, h.dict, h.time, h.freeCtr⟩, keeps_set_faults_power_bring h0 h1 h2⟩
theorem keeps_set_reqs_cellar_coh_seq {m : Nat} {s0 s : State} {x0 : _} {x1 : _} {x2 : _} {x3 : _} (h0 : m.testBit 2 = true) (h1 : m.testBit 6 = true) (h2 : m.testBit 7 = true) (h3 : m.testBit 11 = true) (h : Keeps m s0 s) :
    Keeps m s0 { s with reqs := x0, cellar := x1, coh := x2, seq := x3 } :=
  ⟨h.pending, h.memOk, h.mem, h.cores, fun hb => absurd (hb.symm.trans h0) Bool.false_ne_true, h.nextTag, h.accepts, h.writers, fun hb => absurd (hb.symm.trans h1) Bool.false_ne_true, fun hb => absurd (hb.symm.trans h2) Bool.false_ne_true, h.trellis, h.hbm, h.sau, fun hb => absurd (hb.symm.trans h3) Bool.false_ne_true, h.host, h.span, h.parts, h.faults, h.power, h.bring, h.sec, h.dict, h.time, h.freeCtr⟩
theorem keeps_set_reqs_cellar_coh_seq_iff {m : Nat} {s0 s : State} {x0 : _} {x1 : _} {x2 : _} {x3 : _} (h0 : m.testBit 2 = true) (h1 : m.testBit 6 = true) (h2 : m.testBit 7 = true) (h3 : m.testBit 11 = true) :
    Keeps m s0 { s with reqs := x0, cellar := x1, coh := x2, seq := x3 } ↔ Keeps m s0 s :=
  ⟨fun h => ⟨h.pending, h.memOk, h.mem, h.cores, fun hb => absurd (hb.symm.trans h0) Bool.false_ne_true, h.nextTag, h.accepts, h.writers, fun hb => absurd (hb.symm.trans h1) Bool.false_ne_true, fun hb => absurd (hb.symm.trans h2) Bool.false_ne_true, h.trellis, h.hbm, h.sau, fun hb => absurd (hb.symm.trans h3) Bool.false_ne_true, h.host, h.span, h.parts, h.faults, h.power, h.bring, h.sec, h.dict, h.time, h.freeCtr⟩, keeps_set_reqs_cellar_coh_seq h0 h1 h2 h3⟩
theorem keeps_set_reqs_trellis_sau_freeCtr {m : Nat} {s0 s : State} {x0 : _} {x1 : _} {x2 : _} {x3 : _} (h0 : m.testBit 2 = true) (h1 : m.testBit 8 = true) (h2 : m.testBit 10 = true) (h3 : m.testBit 21 = true) (h : Keeps m s0 s) :
    Keeps m s0 { s with reqs := x0, trellis := x1, sau := x2, freeCtr := x3 } :=
  ⟨h.pending, h.memOk, h.mem, h.cores, fun hb => absurd (hb.symm.trans h0) Bool.false_ne_true, h.nextTag, h.accepts, h.writers, h.cellar, h.coh, fun hb => absurd (hb.symm.trans h1) Bool.false_ne_true, h.hbm, fun hb => absurd (hb.symm.trans h2) Bool.false_ne_true, h.seq, h.host, h.span, h.parts, h.faults, h.power, h.bring, h.sec, h.dict, h.time, fun hb => absurd (hb.symm.trans h3) Bool.false_ne_true⟩
theorem keeps_set_reqs_trellis_sau_freeCtr_iff {m : Nat} {s0 s : State} {x0 : _} {x1 : _} {x2 : _} {x3 : _} (h0 : m.testBit 2 = true) (h1 : m.testBit 8 = true) (h2 : m.testBit 10 = true) (h3 : m.testBit 21 = true) :
    Keeps m s0 { s with reqs := x0, trellis := x1, sau := x2, freeCtr := x3 } ↔ Keeps m s0 s :=
  ⟨fun h => ⟨h.pending, h.memOk, h.mem, h.cores, fun hb => absurd (hb.symm.trans h0) Bool.false_ne_true, h.nextTag, h.accepts, h.writers, h.cellar, h.coh, fun hb => absurd (hb.symm.trans h1) Bool.false_ne_true, h.hbm, fun hb => absurd (hb.symm.trans h2) Bool.false_ne_true, h.seq, h.host, h.span, h.parts, h.faults, h.power, h.bring, h.sec, h.dict, h.time, fun hb => absurd (hb.symm.trans h3) Bool.false_ne_true⟩, keeps_set_reqs_trellis_sau_freeCtr h0 h1 h2 h3⟩
theorem keeps_set_trellis_seq_faults_bring {m : Nat} {s0 s : State} {x0 : _} {x1 : _} {x2 : _} {x3 : _} (h0 : m.testBit 8 = true) (h1 : m.testBit 11 = true) (h2 : m.testBit 15 = true) (h3 : m.testBit 17 = true) (h : Keeps m s0 s) :
    Keeps m s0 { s with trellis := x0, seq := x1, faults := x2, bring := x3 } :=
  ⟨h.pending, h.memOk, h.mem, h.cores, h.reqs, h.nextTag, h.accepts, h.writers, h.cellar, h.coh, fun hb => absurd (hb.symm.trans h0) Bool.false_ne_true, h.hbm, h.sau, fun hb => absurd (hb.symm.trans h1) Bool.false_ne_true, h.host, h.span, h.parts, fun hb => absurd (hb.symm.trans h2) Bool.false_ne_true, h.power, fun hb => absurd (hb.symm.trans h3) Bool.false_ne_true, h.sec, h.dict, h.time, h.freeCtr⟩
theorem keeps_set_trellis_seq_faults_bring_iff {m : Nat} {s0 s : State} {x0 : _} {x1 : _} {x2 : _} {x3 : _} (h0 : m.testBit 8 = true) (h1 : m.testBit 11 = true) (h2 : m.testBit 15 = true) (h3 : m.testBit 17 = true) :
    Keeps m s0 { s with trellis := x0, seq := x1, faults := x2, bring := x3 } ↔ Keeps m s0 s :=
  ⟨fun h => ⟨h.pending, h.memOk, h.mem, h.cores, h.reqs, h.nextTag, h.accepts, h.writers, h.cellar, h.coh, fun hb => absurd (hb.symm.trans h0) Bool.false_ne_true, h.hbm, h.sau, fun hb => absurd (hb.symm.trans h1) Bool.false_ne_true, h.host, h.span, h.parts, fun hb => absurd (hb.symm.trans h2) Bool.false_ne_true, h.power, fun hb => absurd (hb.symm.trans h3) Bool.false_ne_true, h.sec, h.dict, h.time, h.freeCtr⟩, keeps_set_trellis_seq_faults_bring h0 h1 h2 h3⟩
theorem keeps_set_cores_reqs_hbm_span_faults {m : Nat} {s0 s : State} {x0 : _} {x1 : _} {x2 : _} {x3 : _} {x4 : _} (h0 : m.testBit 1 = true) (h1 : m.testBit 2 = true) (h2 : m.testBit 9 = true) (h3 : m.testBit 13 = true) (h4 : m.testBit 15 = true) (h : Keeps m s0 s) :
    Keeps m s0 { s with cores := x0, reqs := x1, hbm := x2, span := x3, faults := x4 } :=
  ⟨h.pending, h.memOk, h.mem, fun hb => absurd (hb.symm.trans h0) Bool.false_ne_true, fun hb => absurd (hb.symm.trans h1) Bool.false_ne_true, h.nextTag, h.accepts, h.writers, h.cellar, h.coh, h.trellis, fun hb => absurd (hb.symm.trans h2) Bool.false_ne_true, h.sau, h.seq, h.host, fun hb => absurd (hb.symm.trans h3) Bool.false_ne_true, h.parts, fun hb => absurd (hb.symm.trans h4) Bool.false_ne_true, h.power, h.bring, h.sec, h.dict, h.time, h.freeCtr⟩
theorem keeps_set_cores_reqs_hbm_span_faults_iff {m : Nat} {s0 s : State} {x0 : _} {x1 : _} {x2 : _} {x3 : _} {x4 : _} (h0 : m.testBit 1 = true) (h1 : m.testBit 2 = true) (h2 : m.testBit 9 = true) (h3 : m.testBit 13 = true) (h4 : m.testBit 15 = true) :
    Keeps m s0 { s with cores := x0, reqs := x1, hbm := x2, span := x3, faults := x4 } ↔ Keeps m s0 s :=
  ⟨fun h => ⟨h.pending, h.memOk, h.mem, fun hb => absurd (hb.symm.trans h0) Bool.false_ne_true, fun hb => absurd (hb.symm.trans h1) Bool.false_ne_true, h.nextTag, h.accepts, h.writers, h.cellar, h.coh, h.trellis, fun hb => absurd (hb.symm.trans h2) Bool.false_ne_true, h.sau, h.seq, h.host, fun hb => absurd (hb.symm.trans h3) Bool.false_ne_true, h.parts, fun hb => absurd (hb.symm.trans h4) Bool.false_ne_true, h.power, h.bring, h.sec, h.dict, h.time, h.freeCtr⟩, keeps_set_cores_reqs_hbm_span_faults h0 h1 h2 h3 h4⟩

end Sys2Proof.Machine
end

