-- ==== Sys2Proof/Laws/KeepsOps.lean ====
section
/-!
SUPPORT. Laws/KeepsOps.lean: what the operations of Machine/Ops.lean may change.
-/

namespace Sys2Proof.Machine

set_option Elab.async false
set_option linter.all false

theorem State.setCore_keeps {fpm : Nat} {z : State} (s : State) (c : Nat) (k : Core) (hfp : 2 ||| fpm = fpm)
    (hk : Keeps fpm z s) : Keeps fpm z (State.setCore s c k) := by
  refine Keeps.step ?_ hfp hk
  unfold State.setCore
  repeat' first
    | with_reducible assumption
    | decide
    | with_reducible exact Keeps.refl _ _
    | with_reducible apply keeps_whenever
    | with_reducible apply keeps_foldl
    | with_reducible apply KeepsE.ok
    | with_reducible exact KeepsE.error
    | with_reducible apply KeepsO.some
    | with_reducible exact KeepsO.none
    | with_reducible apply KeepsO.bind
    | with_reducible apply KeepsQ.some
    | with_reducible exact KeepsQ.none
    | with_reducible apply KeepsQ.map
    | with_reducible apply KeepsO.map
    | with_reducible apply KeepsO.getD
    | with_reducible apply KeepsP.fst
    | with_reducible apply keeps_ite
    | simp only [keeps_set_cores_iff (m := 2) rfl]
    | split
    | dsimp only
    | (intro _; intros)
    | (refine KeepsO.get ?_ (by assumption))
    | (refine KeepsE.get ?_ (by assumption))
    | (refine KeepsR.get ?_ (by assumption))
    | (refine KeepsP.get ?_ (by assumption))
    | (refine KeepsQ.get ?_ (by assumption))

theorem State.onCoreState_keeps {fpm : Nat} {z : State} (s : State) (c : Nat) (f : Core → Core) (hfp : 2 ||| fpm = fpm)
    (hk : Keeps fpm z s) : Keeps fpm z (State.onCoreState s c f) := by
  refine Keeps.step ?_ hfp hk
  unfold State.onCoreState
  repeat' first
    | with_reducible assumption
    | decide
    | with_reducible exact Keeps.refl _ _
    | with_reducible apply State.setCore_keeps
    | with_reducible apply keeps_whenever
    | with_reducible apply keeps_foldl
    | with_reducible apply KeepsE.ok
    | with_reducible exact KeepsE.error
    | with_reducible apply KeepsO.some
    | with_reducible exact KeepsO.none
    | with_reducible apply KeepsO.bind
    | with_reducible apply KeepsQ.some
    | with_reducible exact KeepsQ.none
    | with_reducible apply KeepsQ.map
    | with_reducible apply KeepsO.map
    | with_reducible apply KeepsO.getD
    | with_reducible apply KeepsP.fst
    | with_reducible apply keeps_ite
    | split
    | dsimp only
    | (intro _; intros)
    | (refine KeepsO.get ?_ (by assumption))
    | (refine KeepsE.get ?_ (by assumption))
    | (refine KeepsR.get ?_ (by assumption))
    | (refine KeepsP.get ?_ (by assumption))
    | (refine KeepsQ.get ?_ (by assumption))

theorem State.drew_keeps {fpm : Nat} {z : State} (s : State) (hfp : 2097152 ||| fpm = fpm)
    (hk : Keeps fpm z s) : Keeps fpm z (State.drew s) := by
  refine Keeps.step ?_ hfp hk
  unfold State.drew
  repeat' first
    | with_reducible assumption
    | decide
    | with_reducible exact Keeps.refl _ _
    | with_reducible apply keeps_whenever
    | with_reducible apply keeps_foldl
    | with_reducible apply KeepsE.ok
    | with_reducible exact KeepsE.error
    | with_reducible apply KeepsO.some
    | with_reducible exact KeepsO.none
    | with_reducible apply KeepsO.bind
    | with_reducible apply KeepsQ.some
    | with_reducible exact KeepsQ.none
    | with_reducible apply KeepsQ.map
    | with_reducible apply KeepsO.map
    | with_reducible apply KeepsO.getD
    | with_reducible apply KeepsP.fst
    | with_reducible apply keeps_ite
    | simp only [keeps_set_freeCtr_iff (m := 2097152) rfl]
    | split
    | dsimp only
    | (intro _; intros)
    | (refine KeepsO.get ?_ (by assumption))
    | (refine KeepsE.get ?_ (by assumption))
    | (refine KeepsR.get ?_ (by assumption))
    | (refine KeepsP.get ?_ (by assumption))
    | (refine KeepsQ.get ?_ (by assumption))

theorem State.tick_keeps {fpm : Nat} {z : State} (s : State) (hfp : 3145728 ||| fpm = fpm)
    (hk : Keeps fpm z s) : Keeps fpm z (State.tick s) := by
  refine Keeps.step ?_ hfp hk
  unfold State.tick
  repeat' first
    | with_reducible assumption
    | decide
    | with_reducible exact Keeps.refl _ _
    | with_reducible apply keeps_whenever
    | with_reducible apply keeps_foldl
    | with_reducible apply KeepsE.ok
    | with_reducible exact KeepsE.error
    | with_reducible apply KeepsO.some
    | with_reducible exact KeepsO.none
    | with_reducible apply KeepsO.bind
    | with_reducible apply KeepsQ.some
    | with_reducible exact KeepsQ.none
    | with_reducible apply KeepsQ.map
    | with_reducible apply KeepsO.map
    | with_reducible apply KeepsO.getD
    | with_reducible apply KeepsP.fst
    | with_reducible apply keeps_ite
    | simp only [keeps_set_time_freeCtr_iff (m := 3145728) rfl rfl]
    | split
    | dsimp only
    | (intro _; intros)
    | (refine KeepsO.get ?_ (by assumption))
    | (refine KeepsE.get ?_ (by assumption))
    | (refine KeepsR.get ?_ (by assumption))
    | (refine KeepsP.get ?_ (by assumption))
    | (refine KeepsQ.get ?_ (by assumption))

theorem State.setOd_keeps {fpm : Nat} {z : State} (s : State) (idx sub v : Nat) (hfp : 524288 ||| fpm = fpm)
    (hk : Keeps fpm z s) : Keeps fpm z (State.setOd s idx sub v) := by
  refine Keeps.step ?_ hfp hk
  unfold State.setOd
  repeat' first
    | with_reducible assumption
    | decide
    | with_reducible exact Keeps.refl _ _
    | with_reducible apply keeps_whenever
    | with_reducible apply keeps_foldl
    | with_reducible apply KeepsE.ok
    | with_reducible exact KeepsE.error
    | with_reducible apply KeepsO.some
    | with_reducible exact KeepsO.none
    | with_reducible apply KeepsO.bind
    | with_reducible apply KeepsQ.some
    | with_reducible exact KeepsQ.none
    | with_reducible apply KeepsQ.map
    | with_reducible apply KeepsO.map
    | with_reducible apply KeepsO.getD
    | with_reducible apply KeepsP.fst
    | with_reducible apply keeps_ite
    | simp only [keeps_set_dict_iff (m := 524288) rfl]
    | split
    | dsimp only
    | (intro _; intros)
    | (refine KeepsO.get ?_ (by assumption))
    | (refine KeepsE.get ?_ (by assumption))
    | (refine KeepsR.get ?_ (by assumption))
    | (refine KeepsP.get ?_ (by assumption))
    | (refine KeepsQ.get ?_ (by assumption))

theorem State.bump_keeps {fpm : Nat} {z : State} (s : State) (idx sub n : Nat) (hfp : 524288 ||| fpm = fpm)
    (hk : Keeps fpm z s) : Keeps fpm z (State.bump s idx sub n) := by
  refine Keeps.step ?_ hfp hk
  unfold State.bump
  repeat' first
    | with_reducible assumption
    | decide
    | with_reducible exact Keeps.refl _ _
    | with_reducible apply State.setOd_keeps
    | with_reducible apply keeps_whenever
    | with_reducible apply keeps_foldl
    | with_reducible apply KeepsE.ok
    | with_reducible exact KeepsE.error
    | with_reducible apply KeepsO.some
    | with_reducible exact KeepsO.none
    | with_reducible apply KeepsO.bind
    | with_reducible apply KeepsQ.some
    | with_reducible exact KeepsQ.none
    | with_reducible apply KeepsQ.map
    | with_reducible apply KeepsO.map
    | with_reducible apply KeepsO.getD
    | with_reducible apply KeepsP.fst
    | with_reducible apply keeps_ite
    | split
    | dsimp only
    | (intro _; intros)
    | (refine KeepsO.get ?_ (by assumption))
    | (refine KeepsE.get ?_ (by assumption))
    | (refine KeepsR.get ?_ (by assumption))
    | (refine KeepsP.get ?_ (by assumption))
    | (refine KeepsQ.get ?_ (by assumption))

theorem State.bumpLane_keeps {fpm : Nat} {z : State} (s : State) (idx sub i n : Nat) (hfp : 524288 ||| fpm = fpm)
    (hk : Keeps fpm z s) : Keeps fpm z (State.bumpLane s idx sub i n) := by
  refine Keeps.step ?_ hfp hk
  unfold State.bumpLane
  repeat' first
    | with_reducible assumption
    | decide
    | with_reducible exact Keeps.refl _ _
    | with_reducible apply State.setOd_keeps
    | with_reducible apply keeps_whenever
    | with_reducible apply keeps_foldl
    | with_reducible apply KeepsE.ok
    | with_reducible exact KeepsE.error
    | with_reducible apply KeepsO.some
    | with_reducible exact KeepsO.none
    | with_reducible apply KeepsO.bind
    | with_reducible apply KeepsQ.some
    | with_reducible exact KeepsQ.none
    | with_reducible apply KeepsQ.map
    | with_reducible apply KeepsO.map
    | with_reducible apply KeepsO.getD
    | with_reducible apply KeepsP.fst
    | with_reducible apply keeps_ite
    | split
    | dsimp only
    | (intro _; intros)
    | (refine KeepsO.get ?_ (by assumption))
    | (refine KeepsE.get ?_ (by assumption))
    | (refine KeepsR.get ?_ (by assumption))
    | (refine KeepsP.get ?_ (by assumption))
    | (refine KeepsQ.get ?_ (by assumption))

theorem State.sticky_keeps {fpm : Nat} {z : State} (s : State) (idx sub b : Nat) (hfp : 524288 ||| fpm = fpm)
    (hk : Keeps fpm z s) : Keeps fpm z (State.sticky s idx sub b) := by
  refine Keeps.step ?_ hfp hk
  unfold State.sticky
  repeat' first
    | with_reducible assumption
    | decide
    | with_reducible exact Keeps.refl _ _
    | with_reducible apply State.setOd_keeps
    | with_reducible apply keeps_whenever
    | with_reducible apply keeps_foldl
    | with_reducible apply KeepsE.ok
    | with_reducible exact KeepsE.error
    | with_reducible apply KeepsO.some
    | with_reducible exact KeepsO.none
    | with_reducible apply KeepsO.bind
    | with_reducible apply KeepsQ.some
    | with_reducible exact KeepsQ.none
    | with_reducible apply KeepsQ.map
    | with_reducible apply KeepsO.map
    | with_reducible apply KeepsO.getD
    | with_reducible apply KeepsP.fst
    | with_reducible apply keeps_ite
    | split
    | dsimp only
    | (intro _; intros)
    | (refine KeepsO.get ?_ (by assumption))
    | (refine KeepsE.get ?_ (by assumption))
    | (refine KeepsR.get ?_ (by assumption))
    | (refine KeepsP.get ?_ (by assumption))
    | (refine KeepsQ.get ?_ (by assumption))

theorem State.sendReport_keeps {fpm : Nat} {z : State} (s : State) (r : Report) (hfp : 32768 ||| fpm = fpm)
    (hk : Keeps fpm z s) : Keeps fpm z (State.sendReport s r) := by
  refine Keeps.step ?_ hfp hk
  unfold State.sendReport
  repeat' first
    | with_reducible assumption
    | decide
    | with_reducible exact Keeps.refl _ _
    | with_reducible apply keeps_whenever
    | with_reducible apply keeps_foldl
    | with_reducible apply KeepsE.ok
    | with_reducible exact KeepsE.error
    | with_reducible apply KeepsO.some
    | with_reducible exact KeepsO.none
    | with_reducible apply KeepsO.bind
    | with_reducible apply KeepsQ.some
    | with_reducible exact KeepsQ.none
    | with_reducible apply KeepsQ.map
    | with_reducible apply KeepsO.map
    | with_reducible apply KeepsO.getD
    | with_reducible apply KeepsP.fst
    | with_reducible apply keeps_ite
    | simp only [keeps_set_faults_iff (m := 32768) rfl]
    | split
    | dsimp only
    | (intro _; intros)
    | (refine KeepsO.get ?_ (by assumption))
    | (refine KeepsE.get ?_ (by assumption))
    | (refine KeepsR.get ?_ (by assumption))
    | (refine KeepsP.get ?_ (by assumption))
    | (refine KeepsQ.get ?_ (by assumption))

theorem State.void_keeps {fpm : Nat} {z : State} (s : State) (b : Nat) (hfp : 526336 ||| fpm = fpm)
    (hk : Keeps fpm z s) : Keeps fpm z (State.void s b) := by
  refine Keeps.step ?_ hfp hk
  unfold State.void
  repeat' first
    | with_reducible assumption
    | decide
    | with_reducible exact Keeps.refl _ _
    | with_reducible apply State.sticky_keeps
    | with_reducible apply keeps_whenever
    | with_reducible apply keeps_foldl
    | with_reducible apply KeepsE.ok
    | with_reducible exact KeepsE.error
    | with_reducible apply KeepsO.some
    | with_reducible exact KeepsO.none
    | with_reducible apply KeepsO.bind
    | with_reducible apply KeepsQ.some
    | with_reducible exact KeepsQ.none
    | with_reducible apply KeepsQ.map
    | with_reducible apply KeepsO.map
    | with_reducible apply KeepsO.getD
    | with_reducible apply KeepsP.fst
    | with_reducible apply keeps_ite
    | simp only [keeps_set_seq_iff (m := 526336) rfl]
    | split
    | dsimp only
    | (intro _; intros)
    | (refine KeepsO.get ?_ (by assumption))
    | (refine KeepsE.get ?_ (by assumption))
    | (refine KeepsR.get ?_ (by assumption))
    | (refine KeepsP.get ?_ (by assumption))
    | (refine KeepsQ.get ?_ (by assumption))

theorem State.report_keeps {fpm : Nat} {z : State} (s : State) (code lockind loc : Nat) (detail : Nat) (inj : Bool) (hfp : 32768 ||| fpm = fpm)
    (hk : Keeps fpm z s) : Keeps fpm z (State.report s code lockind loc detail inj) := by
  refine Keeps.step ?_ hfp hk
  unfold State.report
  repeat' first
    | with_reducible assumption
    | decide
    | with_reducible exact Keeps.refl _ _
    | with_reducible apply State.sendReport_keeps
    | with_reducible apply keeps_whenever
    | with_reducible apply keeps_foldl
    | with_reducible apply KeepsE.ok
    | with_reducible exact KeepsE.error
    | with_reducible apply KeepsO.some
    | with_reducible exact KeepsO.none
    | with_reducible apply KeepsO.bind
    | with_reducible apply KeepsQ.some
    | with_reducible exact KeepsQ.none
    | with_reducible apply KeepsQ.map
    | with_reducible apply KeepsO.map
    | with_reducible apply KeepsO.getD
    | with_reducible apply KeepsP.fst
    | with_reducible apply keeps_ite
    | split
    | dsimp only
    | (intro _; intros)
    | (refine KeepsO.get ?_ (by assumption))
    | (refine KeepsE.get ?_ (by assumption))
    | (refine KeepsR.get ?_ (by assumption))
    | (refine KeepsP.get ?_ (by assumption))
    | (refine KeepsQ.get ?_ (by assumption))

theorem State.reportCtx_keeps {fpm : Nat} {z : State} (s : State) (code ctx part lockind loc : Nat) (detail : Nat) (inj : Bool) (hfp : 32768 ||| fpm = fpm)
    (hk : Keeps fpm z s) : Keeps fpm z (State.reportCtx s code ctx part lockind loc detail inj) := by
  refine Keeps.step ?_ hfp hk
  unfold State.reportCtx
  repeat' first
    | with_reducible assumption
    | decide
    | with_reducible exact Keeps.refl _ _
    | with_reducible apply State.sendReport_keeps
    | with_reducible apply keeps_whenever
    | with_reducible apply keeps_foldl
    | with_reducible apply KeepsE.ok
    | with_reducible exact KeepsE.error
    | with_reducible apply KeepsO.some
    | with_reducible exact KeepsO.none
    | with_reducible apply KeepsO.bind
    | with_reducible apply KeepsQ.some
    | with_reducible exact KeepsQ.none
    | with_reducible apply KeepsQ.map
    | with_reducible apply KeepsO.map
    | with_reducible apply KeepsO.getD
    | with_reducible apply KeepsP.fst
    | with_reducible apply keeps_ite
    | split
    | dsimp only
    | (intro _; intros)
    | (refine KeepsO.get ?_ (by assumption))
    | (refine KeepsE.get ?_ (by assumption))
    | (refine KeepsR.get ?_ (by assumption))
    | (refine KeepsP.get ?_ (by assumption))
    | (refine KeepsQ.get ?_ (by assumption))

theorem State.addReq_keeps {fpm : Nat} {z : State} (s : State) (r : Req) (hfp : 12 ||| fpm = fpm)
    (hk : Keeps fpm z s) : Keeps fpm z (State.addReq s r) := by
  refine Keeps.step ?_ hfp hk
  unfold State.addReq
  repeat' first
    | with_reducible assumption
    | decide
    | with_reducible exact Keeps.refl _ _
    | with_reducible apply keeps_whenever
    | with_reducible apply keeps_foldl
    | with_reducible apply KeepsE.ok
    | with_reducible exact KeepsE.error
    | with_reducible apply KeepsO.some
    | with_reducible exact KeepsO.none
    | with_reducible apply KeepsO.bind
    | with_reducible apply KeepsQ.some
    | with_reducible exact KeepsQ.none
    | with_reducible apply KeepsQ.map
    | with_reducible apply KeepsO.map
    | with_reducible apply KeepsO.getD
    | with_reducible apply KeepsP.fst
    | with_reducible apply keeps_ite
    | simp only [keeps_set_reqs_nextTag_iff (m := 12) rfl rfl]
    | split
    | dsimp only
    | (intro _; intros)
    | (refine KeepsO.get ?_ (by assumption))
    | (refine KeepsE.get ?_ (by assumption))
    | (refine KeepsR.get ?_ (by assumption))
    | (refine KeepsP.get ?_ (by assumption))
    | (refine KeepsQ.get ?_ (by assumption))

theorem State.setReq_keeps {fpm : Nat} {z : State} (s : State) (tag : Nat) (f : Req → Req) (hfp : 4 ||| fpm = fpm)
    (hk : Keeps fpm z s) : Keeps fpm z (State.setReq s tag f) := by
  refine Keeps.step ?_ hfp hk
  unfold State.setReq
  repeat' first
    | with_reducible assumption
    | decide
    | with_reducible exact Keeps.refl _ _
    | with_reducible apply keeps_whenever
    | with_reducible apply keeps_foldl
    | with_reducible apply KeepsE.ok
    | with_reducible exact KeepsE.error
    | with_reducible apply KeepsO.some
    | with_reducible exact KeepsO.none
    | with_reducible apply KeepsO.bind
    | with_reducible apply KeepsQ.some
    | with_reducible exact KeepsQ.none
    | with_reducible apply KeepsQ.map
    | with_reducible apply KeepsO.map
    | with_reducible apply KeepsO.getD
    | with_reducible apply KeepsP.fst
    | with_reducible apply keeps_ite
    | simp only [keeps_set_reqs_iff (m := 4) rfl]
    | split
    | dsimp only
    | (intro _; intros)
    | (refine KeepsO.get ?_ (by assumption))
    | (refine KeepsE.get ?_ (by assumption))
    | (refine KeepsR.get ?_ (by assumption))
    | (refine KeepsP.get ?_ (by assumption))
    | (refine KeepsQ.get ?_ (by assumption))

theorem State.dropReq_keeps {fpm : Nat} {z : State} (s : State) (tag : Nat) (hfp : 4 ||| fpm = fpm)
    (hk : Keeps fpm z s) : Keeps fpm z (State.dropReq s tag) := by
  refine Keeps.step ?_ hfp hk
  unfold State.dropReq
  repeat' first
    | with_reducible assumption
    | decide
    | with_reducible exact Keeps.refl _ _
    | with_reducible apply keeps_whenever
    | with_reducible apply keeps_foldl
    | with_reducible apply KeepsE.ok
    | with_reducible exact KeepsE.error
    | with_reducible apply KeepsO.some
    | with_reducible exact KeepsO.none
    | with_reducible apply KeepsO.bind
    | with_reducible apply KeepsQ.some
    | with_reducible exact KeepsQ.none
    | with_reducible apply KeepsQ.map
    | with_reducible apply KeepsO.map
    | with_reducible apply KeepsO.getD
    | with_reducible apply KeepsP.fst
    | with_reducible apply keeps_ite
    | simp only [keeps_set_reqs_iff (m := 4) rfl]
    | split
    | dsimp only
    | (intro _; intros)
    | (refine KeepsO.get ?_ (by assumption))
    | (refine KeepsE.get ?_ (by assumption))
    | (refine KeepsR.get ?_ (by assumption))
    | (refine KeepsP.get ?_ (by assumption))
    | (refine KeepsQ.get ?_ (by assumption))

theorem State.finishIfQuiet_keeps {fpm : Nat} {z : State} (s : State) (c : Nat) (hfp : 2 ||| fpm = fpm)
    (hk : Keeps fpm z s) : Keeps fpm z (State.finishIfQuiet s c) := by
  refine Keeps.step ?_ hfp hk
  unfold State.finishIfQuiet
  repeat' first
    | with_reducible assumption
    | decide
    | with_reducible exact Keeps.refl _ _
    | with_reducible apply State.onCoreState_keeps
    | with_reducible apply keeps_whenever
    | with_reducible apply keeps_foldl
    | with_reducible apply KeepsE.ok
    | with_reducible exact KeepsE.error
    | with_reducible apply KeepsO.some
    | with_reducible exact KeepsO.none
    | with_reducible apply KeepsO.bind
    | with_reducible apply KeepsQ.some
    | with_reducible exact KeepsQ.none
    | with_reducible apply KeepsQ.map
    | with_reducible apply KeepsO.map
    | with_reducible apply KeepsO.getD
    | with_reducible apply KeepsP.fst
    | with_reducible apply keeps_ite
    | split
    | dsimp only
    | (intro _; intros)
    | (refine KeepsO.get ?_ (by assumption))
    | (refine KeepsE.get ?_ (by assumption))
    | (refine KeepsR.get ?_ (by assumption))
    | (refine KeepsP.get ?_ (by assumption))
    | (refine KeepsQ.get ?_ (by assumption))

theorem State.discardLoads_keeps {fpm : Nat} {z : State} (s : State) (c : Nat) (hfp : 4 ||| fpm = fpm)
    (hk : Keeps fpm z s) : Keeps fpm z (State.discardLoads s c) := by
  refine Keeps.step ?_ hfp hk
  unfold State.discardLoads
  repeat' first
    | with_reducible assumption
    | decide
    | with_reducible exact Keeps.refl _ _
    | with_reducible apply keeps_whenever
    | with_reducible apply keeps_foldl
    | with_reducible apply KeepsE.ok
    | with_reducible exact KeepsE.error
    | with_reducible apply KeepsO.some
    | with_reducible exact KeepsO.none
    | with_reducible apply KeepsO.bind
    | with_reducible apply KeepsQ.some
    | with_reducible exact KeepsQ.none
    | with_reducible apply KeepsQ.map
    | with_reducible apply KeepsO.map
    | with_reducible apply KeepsO.getD
    | with_reducible apply KeepsP.fst
    | with_reducible apply keeps_ite
    | simp only [keeps_set_reqs_iff (m := 4) rfl]
    | split
    | dsimp only
    | (intro _; intros)
    | (refine KeepsO.get ?_ (by assumption))
    | (refine KeepsE.get ?_ (by assumption))
    | (refine KeepsR.get ?_ (by assumption))
    | (refine KeepsP.get ?_ (by assumption))
    | (refine KeepsQ.get ?_ (by assumption))

theorem State.coreFault_keeps {fpm : Nat} {z : State} (s : State) (c code : Nat) (detail : Nat) (inj : Bool) (hfp : 32774 ||| fpm = fpm)
    (hk : Keeps fpm z s) : Keeps fpm z (State.coreFault s c code detail inj) := by
  refine Keeps.step ?_ hfp hk
  unfold State.coreFault
  repeat' first
    | with_reducible assumption
    | decide
    | with_reducible exact Keeps.refl _ _
    | with_reducible apply State.finishIfQuiet_keeps
    | with_reducible apply State.discardLoads_keeps
    | with_reducible apply State.onCoreState_keeps
    | with_reducible apply State.reportCtx_keeps
    | with_reducible apply keeps_whenever
    | with_reducible apply keeps_foldl
    | with_reducible apply KeepsE.ok
    | with_reducible exact KeepsE.error
    | with_reducible apply KeepsO.some
    | with_reducible exact KeepsO.none
    | with_reducible apply KeepsO.bind
    | with_reducible apply KeepsQ.some
    | with_reducible exact KeepsQ.none
    | with_reducible apply KeepsQ.map
    | with_reducible apply KeepsO.map
    | with_reducible apply KeepsO.getD
    | with_reducible apply KeepsP.fst
    | with_reducible apply keeps_ite
    | split
    | dsimp only
    | (intro _; intros)
    | (refine KeepsO.get ?_ (by assumption))
    | (refine KeepsE.get ?_ (by assumption))
    | (refine KeepsR.get ?_ (by assumption))
    | (refine KeepsP.get ?_ (by assumption))
    | (refine KeepsQ.get ?_ (by assumption))

theorem State.poke_keeps {fpm : Nat} {z : State} (s : State) (sa : Nat) (d : List Byte) (hfp : 1 ||| fpm = fpm)
    (hk : Keeps fpm z s) : Keeps fpm z (s.poke sa d) := by
  refine Keeps.step ?_ hfp hk
  exact ⟨rfl, fun h => Mem.wf_writeN _ _ h, fun hb => absurd (hb.symm.trans (rfl : Nat.testBit _ _ = true)) Bool.false_ne_true, fun _ => rfl, fun _ => rfl, fun _ => rfl, fun _ => rfl, fun _ => rfl, fun _ => rfl, fun _ => rfl, fun _ => rfl, fun _ => rfl, fun _ => rfl, fun _ => rfl, fun _ => rfl, fun _ => rfl, fun _ => rfl, fun _ => rfl, fun _ => rfl, fun _ => rfl, fun _ => rfl, fun _ => rfl, fun _ => rfl, fun _ => rfl⟩

theorem State.zeroMem_keeps {fpm : Nat} {z : State} (s : State) (sa n : Nat) (hfp : 513 ||| fpm = fpm)
    (hk : Keeps fpm z s) : Keeps fpm z (s.zeroMem sa n) := by
  refine Keeps.step ?_ hfp hk
  exact ⟨rfl, fun h => Mem.wf_filter _ h, fun hb => absurd (hb.symm.trans (rfl : Nat.testBit _ _ = true)) Bool.false_ne_true, fun _ => rfl, fun _ => rfl, fun _ => rfl, fun _ => rfl, fun _ => rfl, fun _ => rfl, fun _ => rfl, fun _ => rfl, fun hb => absurd (hb.symm.trans (rfl : Nat.testBit _ _ = true)) Bool.false_ne_true, fun _ => rfl, fun _ => rfl, fun _ => rfl, fun _ => rfl, fun _ => rfl, fun _ => rfl, fun _ => rfl, fun _ => rfl, fun _ => rfl, fun _ => rfl, fun _ => rfl, fun _ => rfl⟩

theorem State.deny_keeps {fpm : Nat} {z : State} (s : State) (c : Nat) (r : Req) (code : Nat) (hfp : 32782 ||| fpm = fpm)
    (hk : Keeps fpm z s) : Keeps fpm z (State.deny s c r code) := by
  refine Keeps.step ?_ hfp hk
  unfold State.deny
  repeat' first
    | with_reducible assumption
    | decide
    | with_reducible exact Keeps.refl _ _
    | with_reducible apply State.coreFault_keeps
    | with_reducible apply State.addReq_keeps
    | with_reducible apply keeps_whenever
    | with_reducible apply keeps_foldl
    | with_reducible apply KeepsE.ok
    | with_reducible exact KeepsE.error
    | with_reducible apply KeepsO.some
    | with_reducible exact KeepsO.none
    | with_reducible apply KeepsO.bind
    | with_reducible apply KeepsQ.some
    | with_reducible exact KeepsQ.none
    | with_reducible apply KeepsQ.map
    | with_reducible apply KeepsO.map
    | with_reducible apply KeepsO.getD
    | with_reducible apply KeepsP.fst
    | with_reducible apply keeps_ite
    | split
    | dsimp only
    | (intro _; intros)
    | (refine KeepsO.get ?_ (by assumption))
    | (refine KeepsE.get ?_ (by assumption))
    | (refine KeepsR.get ?_ (by assumption))
    | (refine KeepsP.get ?_ (by assumption))
    | (refine KeepsQ.get ?_ (by assumption))

theorem State.issue_keeps {fpm : Nat} {z : State} (s : State) (c : Nat) (r : Req) (hfp : 32782 ||| fpm = fpm)
    (hk : Keeps fpm z s) : Keeps fpm z (State.issue s c r) := by
  refine Keeps.step ?_ hfp hk
  unfold State.issue
  repeat' first
    | with_reducible assumption
    | decide
    | with_reducible exact Keeps.refl _ _
    | with_reducible apply State.addReq_keeps
    | with_reducible apply State.deny_keeps
    | with_reducible apply keeps_whenever
    | with_reducible apply keeps_foldl
    | with_reducible apply KeepsE.ok
    | with_reducible exact KeepsE.error
    | with_reducible apply KeepsO.some
    | with_reducible exact KeepsO.none
    | with_reducible apply KeepsO.bind
    | with_reducible apply KeepsQ.some
    | with_reducible exact KeepsQ.none
    | with_reducible apply KeepsQ.map
    | with_reducible apply KeepsO.map
    | with_reducible apply KeepsO.getD
    | with_reducible apply KeepsP.fst
    | with_reducible apply keeps_ite
    | split
    | dsimp only
    | (intro _; intros)
    | (refine KeepsO.get ?_ (by assumption))
    | (refine KeepsE.get ?_ (by assumption))
    | (refine KeepsR.get ?_ (by assumption))
    | (refine KeepsP.get ?_ (by assumption))
    | (refine KeepsQ.get ?_ (by assumption))

theorem State.fresh_keeps {fpm : Nat} {z : State} (s : State) (c : Nat) (hfp : 2097154 ||| fpm = fpm)
    (hk : Keeps fpm z s) : Keeps fpm z (State.fresh s c) := by
  refine Keeps.step ?_ hfp hk
  unfold State.fresh
  repeat' first
    | with_reducible assumption
    | decide
    | with_reducible exact Keeps.refl _ _
    | with_reducible apply State.onCoreState_keeps
    | with_reducible apply State.drew_keeps
    | with_reducible apply keeps_whenever
    | with_reducible apply keeps_foldl
    | with_reducible apply KeepsE.ok
    | with_reducible exact KeepsE.error
    | with_reducible apply KeepsO.some
    | with_reducible exact KeepsO.none
    | with_reducible apply KeepsO.bind
    | with_reducible apply KeepsQ.some
    | with_reducible exact KeepsQ.none
    | with_reducible apply KeepsQ.map
    | with_reducible apply KeepsO.map
    | with_reducible apply KeepsO.getD
    | with_reducible apply KeepsP.fst
    | with_reducible apply keeps_ite
    | split
    | dsimp only
    | (intro _; intros)
    | (refine KeepsO.get ?_ (by assumption))
    | (refine KeepsE.get ?_ (by assumption))
    | (refine KeepsR.get ?_ (by assumption))
    | (refine KeepsP.get ?_ (by assumption))
    | (refine KeepsQ.get ?_ (by assumption))

theorem State.memCe_keeps {fpm : Nat} {z : State} (s : State) (c : Nat) (hfp : 32768 ||| fpm = fpm)
    (hk : Keeps fpm z s) : Keeps fpm z (State.memCe s c) := by
  refine Keeps.step ?_ hfp hk
  unfold State.memCe
  repeat' first
    | with_reducible assumption
    | decide
    | with_reducible exact Keeps.refl _ _
    | with_reducible apply State.reportCtx_keeps
    | with_reducible apply keeps_whenever
    | with_reducible apply keeps_foldl
    | with_reducible apply KeepsE.ok
    | with_reducible exact KeepsE.error
    | with_reducible apply KeepsO.some
    | with_reducible exact KeepsO.none
    | with_reducible apply KeepsO.bind
    | with_reducible apply KeepsQ.some
    | with_reducible exact KeepsQ.none
    | with_reducible apply KeepsQ.map
    | with_reducible apply KeepsO.map
    | with_reducible apply KeepsO.getD
    | with_reducible apply KeepsP.fst
    | with_reducible apply keeps_ite
    | split
    | dsimp only
    | (intro _; intros)
    | (refine KeepsO.get ?_ (by assumption))
    | (refine KeepsE.get ?_ (by assumption))
    | (refine KeepsR.get ?_ (by assumption))
    | (refine KeepsP.get ?_ (by assumption))
    | (refine KeepsQ.get ?_ (by assumption))

theorem State.checkedAll_keeps {fpm : Nat} {z : State} (s : State) (c : Nat) (l : List (Nat × Nat)) (t : State → State) (hft : ∀ v0, Keeps fpm z v0 → Keeps fpm z (t v0))
    (hfp : 32774 ||| fpm = fpm) (hk : Keeps fpm z s) : Keeps fpm z (State.checkedAll s c l t) := by
  unfold State.checkedAll
  repeat' first
    | with_reducible assumption
    | exact Keeps.sub hfp rfl
    | exact Keeps.bit hfp rfl
    | with_reducible apply hft
    | with_reducible exact Keeps.refl _ _
    | with_reducible apply State.coreFault_keeps
    | with_reducible apply State.memCe_keeps
    | with_reducible apply keeps_whenever
    | with_reducible apply keeps_foldl
    | with_reducible apply KeepsE.ok
    | with_reducible exact KeepsE.error
    | with_reducible apply KeepsO.some
    | with_reducible exact KeepsO.none
    | with_reducible apply KeepsO.bind
    | with_reducible apply KeepsQ.some
    | with_reducible exact KeepsQ.none
    | with_reducible apply KeepsQ.map
    | with_reducible apply KeepsO.map
    | with_reducible apply KeepsO.getD
    | with_reducible apply KeepsP.fst
    | with_reducible apply keeps_ite
    | split
    | dsimp only
    | (intro _; intros)
    | (refine KeepsO.get ?_ (by assumption))
    | (refine KeepsE.get ?_ (by assumption))
    | (refine KeepsR.get ?_ (by assumption))
    | (refine KeepsP.get ?_ (by assumption))
    | (refine KeepsQ.get ?_ (by assumption))

theorem State.checked_keeps {fpm : Nat} {z : State} (s : State) (c a n : Nat) (t : State → State) (hft : ∀ v0, Keeps fpm z v0 → Keeps fpm z (t v0))
    (hfp : 32774 ||| fpm = fpm) (hk : Keeps fpm z s) : Keeps fpm z (State.checked s c a n t) := by
  unfold State.checked
  repeat' first
    | with_reducible assumption
    | exact Keeps.sub hfp rfl
    | exact Keeps.bit hfp rfl
    | with_reducible apply hft
    | with_reducible exact Keeps.refl _ _
    | with_reducible apply State.checkedAll_keeps
    | with_reducible apply keeps_whenever
    | with_reducible apply keeps_foldl
    | with_reducible apply KeepsE.ok
    | with_reducible exact KeepsE.error
    | with_reducible apply KeepsO.some
    | with_reducible exact KeepsO.none
    | with_reducible apply KeepsO.bind
    | with_reducible apply KeepsQ.some
    | with_reducible exact KeepsQ.none
    | with_reducible apply KeepsQ.map
    | with_reducible apply KeepsO.map
    | with_reducible apply KeepsO.getD
    | with_reducible apply KeepsP.fst
    | with_reducible apply keeps_ite
    | split
    | dsimp only
    | (intro _; intros)
    | (refine KeepsO.get ?_ (by assumption))
    | (refine KeepsE.get ?_ (by assumption))
    | (refine KeepsR.get ?_ (by assumption))
    | (refine KeepsP.get ?_ (by assumption))
    | (refine KeepsQ.get ?_ (by assumption))

theorem State.sendAb_keeps {fpm : Nat} {z : State} (s : State) (m : AbMsg) (hfp : 128 ||| fpm = fpm)
    (hk : Keeps fpm z s) : Keeps fpm z (State.sendAb s m) := by
  refine Keeps.step ?_ hfp hk
  unfold State.sendAb
  repeat' first
    | with_reducible assumption
    | decide
    | with_reducible exact Keeps.refl _ _
    | with_reducible apply keeps_whenever
    | with_reducible apply keeps_foldl
    | with_reducible apply KeepsE.ok
    | with_reducible exact KeepsE.error
    | with_reducible apply KeepsO.some
    | with_reducible exact KeepsO.none
    | with_reducible apply KeepsO.bind
    | with_reducible apply KeepsQ.some
    | with_reducible exact KeepsQ.none
    | with_reducible apply KeepsQ.map
    | with_reducible apply KeepsO.map
    | with_reducible apply KeepsO.getD
    | with_reducible apply KeepsP.fst
    | with_reducible apply keeps_ite
    | simp only [keeps_set_coh_iff (m := 128) rfl]
    | split
    | dsimp only
    | (intro _; intros)
    | (refine KeepsO.get ?_ (by assumption))
    | (refine KeepsE.get ?_ (by assumption))
    | (refine KeepsR.get ?_ (by assumption))
    | (refine KeepsP.get ?_ (by assumption))
    | (refine KeepsQ.get ?_ (by assumption))

theorem State.notice_keeps {fpm : Nat} {z : State} (s : State) (n : Notice) (hfp : 4096 ||| fpm = fpm)
    (hk : Keeps fpm z s) : Keeps fpm z (State.notice s n) := by
  refine Keeps.step ?_ hfp hk
  unfold State.notice
  repeat' first
    | with_reducible assumption
    | decide
    | with_reducible exact Keeps.refl _ _
    | with_reducible apply keeps_whenever
    | with_reducible apply keeps_foldl
    | with_reducible apply KeepsE.ok
    | with_reducible exact KeepsE.error
    | with_reducible apply KeepsO.some
    | with_reducible exact KeepsO.none
    | with_reducible apply KeepsO.bind
    | with_reducible apply KeepsQ.some
    | with_reducible exact KeepsQ.none
    | with_reducible apply KeepsQ.map
    | with_reducible apply KeepsO.map
    | with_reducible apply KeepsO.getD
    | with_reducible apply KeepsP.fst
    | with_reducible apply keeps_ite
    | simp only [keeps_set_host_iff (m := 4096) rfl]
    | split
    | dsimp only
    | (intro _; intros)
    | (refine KeepsO.get ?_ (by assumption))
    | (refine KeepsE.get ?_ (by assumption))
    | (refine KeepsR.get ?_ (by assumption))
    | (refine KeepsP.get ?_ (by assumption))
    | (refine KeepsQ.get ?_ (by assumption))

end Sys2Proof.Machine
end

