-- ==== Sys2Proof/Laws/KeepsOperands.lean ====
section
/-!
SUPPORT. Laws/KeepsOperands.lean: what the operations of Machine/Operands.lean may change.
-/

namespace Sys2Proof.Machine

set_option Elab.async false
set_option linter.all false

theorem State.askCode_keeps {fpm : Nat} {z : State} (s : State) (c pc : Nat) (vec : Bool) (hfp : 14 ||| fpm = fpm)
    (hk : Keeps fpm z s) : Keeps fpm z (State.askCode s c pc vec) := by
  refine Keeps.step ?_ hfp hk
  unfold State.askCode
  repeat' first
    | with_reducible assumption
    | decide
    | with_reducible exact Keeps.refl _ _
    | with_reducible apply State.onCoreState_keeps
    | with_reducible apply State.addReq_keeps
    | with_reducible apply keeps_whenever
    | with_reducible apply keeps_foldl
    | with_reducible apply KeepsE.ok
    | with_reducible exact KeepsE.error
    | with_reducible apply KeepsO.some
    | with_reducible exact KeepsO.none
    | with_reducible apply KeepsO.bind
    | with_reducible apply KeepsQ.some
    | with_reducible exact KeepsQ.none
    | with_reducible apply KeepsQ.map
    | with_reducible apply KeepsO.map
    | with_reducible apply KeepsO.getD
    | with_reducible apply KeepsP.fst
    | with_reducible apply keeps_ite
    | split
    | dsimp only
    | (intro _; intros)
    | (refine KeepsO.get ?_ (by assumption))
    | (refine KeepsE.get ?_ (by assumption))
    | (refine KeepsR.get ?_ (by assumption))
    | (refine KeepsP.get ?_ (by assumption))
    | (refine KeepsQ.get ?_ (by assumption))

theorem State.stepped_keeps {fpm : Nat} {z : State} (s : State) (c : Nat) (hfp : 262144 ||| fpm = fpm)
    (hk : Keeps fpm z s) : Keeps fpm z (State.stepped s c) := by
  refine Keeps.step ?_ hfp hk
  unfold State.stepped
  repeat' first
    | with_reducible assumption
    | decide
    | with_reducible exact Keeps.refl _ _
    | with_reducible apply keeps_whenever
    | with_reducible apply keeps_foldl
    | with_reducible apply KeepsE.ok
    | with_reducible exact KeepsE.error
    | with_reducible apply KeepsO.some
    | with_reducible exact KeepsO.none
    | with_reducible apply KeepsO.bind
    | with_reducible apply KeepsQ.some
    | with_reducible exact KeepsQ.none
    | with_reducible apply KeepsQ.map
    | with_reducible apply KeepsO.map
    | with_reducible apply KeepsO.getD
    | with_reducible apply KeepsP.fst
    | with_reducible apply keeps_ite
    | simp only [keeps_set_sec_iff (m := 262144) rfl]
    | split
    | dsimp only
    | (intro _; intros)
    | (refine KeepsO.get ?_ (by assumption))
    | (refine KeepsE.get ?_ (by assumption))
    | (refine KeepsR.get ?_ (by assumption))
    | (refine KeepsP.get ?_ (by assumption))
    | (refine KeepsQ.get ?_ (by assumption))

theorem State.ctl_keeps {fpm : Nat} {z : State} (s : State) (c len : Nat) (rs : List Reg) (eff : State → State) (hfeff : ∀ v0, Keeps fpm z v0 → Keeps fpm z (eff v0))
    (hfp : 2392078 ||| fpm = fpm) (hk : Keeps fpm z s) : Keeps fpm z (State.ctl s c len rs eff) := by
  unfold State.ctl
  repeat' first
    | with_reducible assumption
    | exact Keeps.sub hfp rfl
    | exact Keeps.bit hfp rfl
    | with_reducible apply hfeff
    | with_reducible exact Keeps.refl _ _
    | with_reducible apply State.onCoreState_keeps
    | with_reducible apply State.coreFault_keeps
    | with_reducible apply State.stepped_keeps
    | with_reducible apply State.askCode_keeps
    | with_reducible apply State.fresh_keeps
    | with_reducible apply keeps_whenever
    | with_reducible apply keeps_foldl
    | with_reducible apply KeepsE.ok
    | with_reducible exact KeepsE.error
    | with_reducible apply KeepsO.some
    | with_reducible exact KeepsO.none
    | with_reducible apply KeepsO.bind
    | with_reducible apply KeepsQ.some
    | with_reducible exact KeepsQ.none
    | with_reducible apply KeepsQ.map
    | with_reducible apply KeepsO.map
    | with_reducible apply KeepsO.getD
    | with_reducible apply KeepsP.fst
    | with_reducible apply keeps_ite
    | split
    | dsimp only
    | (intro _; intros)
    | (refine KeepsO.get ?_ (by assumption))
    | (refine KeepsE.get ?_ (by assumption))
    | (refine KeepsR.get ?_ (by assumption))
    | (refine KeepsP.get ?_ (by assumption))
    | (refine KeepsQ.get ?_ (by assumption))

theorem State.ctlCore_keeps {fpm : Nat} {z : State} (s : State) (c len : Nat) (rs : List Reg) (f : Core → Core) (hfp : 2392078 ||| fpm = fpm)
    (hk : Keeps fpm z s) : Keeps fpm z (State.ctlCore s c len rs f) := by
  refine Keeps.step ?_ hfp hk
  unfold State.ctlCore
  repeat' first
    | with_reducible assumption
    | decide
    | with_reducible exact Keeps.refl _ _
    | with_reducible apply State.onCoreState_keeps
    | with_reducible apply State.ctl_keeps
    | with_reducible apply keeps_whenever
    | with_reducible apply keeps_foldl
    | with_reducible apply KeepsE.ok
    | with_reducible exact KeepsE.error
    | with_reducible apply KeepsO.some
    | with_reducible exact KeepsO.none
    | with_reducible apply KeepsO.bind
    | with_reducible apply KeepsQ.some
    | with_reducible exact KeepsQ.none
    | with_reducible apply KeepsQ.map
    | with_reducible apply KeepsO.map
    | with_reducible apply KeepsO.getD
    | with_reducible apply KeepsP.fst
    | with_reducible apply keeps_ite
    | split
    | dsimp only
    | (intro _; intros)
    | (refine KeepsO.get ?_ (by assumption))
    | (refine KeepsE.get ?_ (by assumption))
    | (refine KeepsR.get ?_ (by assumption))
    | (refine KeepsP.get ?_ (by assumption))
    | (refine KeepsQ.get ?_ (by assumption))

theorem State.alu_keeps {fpm : Nat} {z : State} (s : State) (c : Nat) (rd rs1 rs2 : Reg) (f : Word → Word → Word) (hfp : 2392078 ||| fpm = fpm)
    (hk : Keeps fpm z s) : Keeps fpm z (State.alu s c rd rs1 rs2 f) := by
  refine Keeps.step ?_ hfp hk
  unfold State.alu
  repeat' first
    | with_reducible assumption
    | decide
    | with_reducible exact Keeps.refl _ _
    | with_reducible apply State.ctlCore_keeps
    | with_reducible apply keeps_whenever
    | with_reducible apply keeps_foldl
    | with_reducible apply KeepsE.ok
    | with_reducible exact KeepsE.error
    | with_reducible apply KeepsO.some
    | with_reducible exact KeepsO.none
    | with_reducible apply KeepsO.bind
    | with_reducible apply KeepsQ.some
    | with_reducible exact KeepsQ.none
    | with_reducible apply KeepsQ.map
    | with_reducible apply KeepsO.map
    | with_reducible apply KeepsO.getD
    | with_reducible apply KeepsP.fst
    | with_reducible apply keeps_ite
    | split
    | dsimp only
    | (intro _; intros)
    | (refine KeepsO.get ?_ (by assumption))
    | (refine KeepsE.get ?_ (by assumption))
    | (refine KeepsR.get ?_ (by assumption))
    | (refine KeepsP.get ?_ (by assumption))
    | (refine KeepsQ.get ?_ (by assumption))

theorem State.aluImm_keeps {fpm : Nat} {z : State} (s : State) (c : Nat) (rd rs1 : Reg) (imm : BitVec 13) (f : Word → Word → Word) (hfp : 2392078 ||| fpm = fpm)
    (hk : Keeps fpm z s) : Keeps fpm z (State.aluImm s c rd rs1 imm f) := by
  refine Keeps.step ?_ hfp hk
  unfold State.aluImm
  repeat' first
    | with_reducible assumption
    | decide
    | with_reducible exact Keeps.refl _ _
    | with_reducible apply State.ctlCore_keeps
    | with_reducible apply keeps_whenever
    | with_reducible apply keeps_foldl
    | with_reducible apply KeepsE.ok
    | with_reducible exact KeepsE.error
    | with_reducible apply KeepsO.some
    | with_reducible exact KeepsO.none
    | with_reducible apply KeepsO.bind
    | with_reducible apply KeepsQ.some
    | with_reducible exact KeepsQ.none
    | with_reducible apply KeepsQ.map
    | with_reducible apply KeepsO.map
    | with_reducible apply KeepsO.getD
    | with_reducible apply KeepsP.fst
    | with_reducible apply keeps_ite
    | split
    | dsimp only
    | (intro _; intros)
    | (refine KeepsO.get ?_ (by assumption))
    | (refine KeepsE.get ?_ (by assumption))
    | (refine KeepsR.get ?_ (by assumption))
    | (refine KeepsP.get ?_ (by assumption))
    | (refine KeepsQ.get ?_ (by assumption))

theorem State.passTime_keeps {fpm : Nat} {z : State} (s : State) (c off : Nat) (hfp : 3145730 ||| fpm = fpm)
    (hk : Keeps fpm z s) : Keeps fpm z (State.passTime s c off) := by
  refine Keeps.step ?_ hfp hk
  unfold State.passTime
  repeat' first
    | with_reducible assumption
    | decide
    | with_reducible exact Keeps.refl _ _
    | with_reducible apply State.onCoreState_keeps
    | with_reducible apply State.tick_keeps
    | with_reducible apply State.drew_keeps
    | with_reducible apply keeps_whenever
    | with_reducible apply keeps_foldl
    | with_reducible apply KeepsE.ok
    | with_reducible exact KeepsE.error
    | with_reducible apply KeepsO.some
    | with_reducible exact KeepsO.none
    | with_reducible apply KeepsO.bind
    | with_reducible apply KeepsQ.some
    | with_reducible exact KeepsQ.none
    | with_reducible apply KeepsQ.map
    | with_reducible apply KeepsO.map
    | with_reducible apply KeepsO.getD
    | with_reducible apply KeepsP.fst
    | with_reducible apply keeps_ite
    | split
    | dsimp only
    | (intro _; intros)
    | (refine KeepsO.get ?_ (by assumption))
    | (refine KeepsE.get ?_ (by assumption))
    | (refine KeepsR.get ?_ (by assumption))
    | (refine KeepsP.get ?_ (by assumption))
    | (refine KeepsQ.get ?_ (by assumption))

theorem State.ldl_keeps {fpm : Nat} {z : State} (s : State) (c : Nat) (rd rs1 : Reg) (imm : BitVec 13) (n : Nat) (hfp : 3440654 ||| fpm = fpm)
    (hk : Keeps fpm z s) : Keeps fpm z (State.ldl s c rd rs1 imm n) := by
  refine Keeps.step ?_ hfp hk
  unfold State.ldl
  repeat' first
    | with_reducible assumption
    | decide
    | with_reducible exact Keeps.refl _ _
    | with_reducible apply State.onCoreState_keeps
    | with_reducible apply State.coreFault_keeps
    | with_reducible apply State.passTime_keeps
    | with_reducible apply State.checked_keeps
    | with_reducible apply State.ctl_keeps
    | with_reducible apply keeps_whenever
    | with_reducible apply keeps_foldl
    | with_reducible apply KeepsE.ok
    | with_reducible exact KeepsE.error
    | with_reducible apply KeepsO.some
    | with_reducible exact KeepsO.none
    | with_reducible apply KeepsO.bind
    | with_reducible apply KeepsQ.some
    | with_reducible exact KeepsQ.none
    | with_reducible apply KeepsQ.map
    | with_reducible apply KeepsO.map
    | with_reducible apply KeepsO.getD
    | with_reducible apply KeepsP.fst
    | with_reducible apply keeps_ite
    | split
    | dsimp only
    | (intro _; intros)
    | (refine KeepsO.get ?_ (by assumption))
    | (refine KeepsE.get ?_ (by assumption))
    | (refine KeepsR.get ?_ (by assumption))
    | (refine KeepsP.get ?_ (by assumption))
    | (refine KeepsQ.get ?_ (by assumption))

theorem State.stl_keeps {fpm : Nat} {z : State} (s : State) (c : Nat) (rs2 rs1 : Reg) (imm : BitVec 13) (n : Nat) (hfp : 2392078 ||| fpm = fpm)
    (hk : Keeps fpm z s) : Keeps fpm z (State.stl s c rs2 rs1 imm n) := by
  refine Keeps.step ?_ hfp hk
  unfold State.stl
  repeat' first
    | with_reducible assumption
    | decide
    | with_reducible exact Keeps.refl _ _
    | with_reducible apply State.onCoreState_keeps
    | with_reducible apply State.coreFault_keeps
    | with_reducible apply State.ctl_keeps
    | with_reducible apply keeps_whenever
    | with_reducible apply keeps_foldl
    | with_reducible apply KeepsE.ok
    | with_reducible exact KeepsE.error
    | with_reducible apply KeepsO.some
    | with_reducible exact KeepsO.none
    | with_reducible apply KeepsO.bind
    | with_reducible apply KeepsQ.some
    | with_reducible exact KeepsQ.none
    | with_reducible apply KeepsQ.map
    | with_reducible apply KeepsO.map
    | with_reducible apply KeepsO.getD
    | with_reducible apply KeepsP.fst
    | with_reducible apply keeps_ite
    | split
    | dsimp only
    | (intro _; intros)
    | (refine KeepsO.get ?_ (by assumption))
    | (refine KeepsE.get ?_ (by assumption))
    | (refine KeepsR.get ?_ (by assumption))
    | (refine KeepsP.get ?_ (by assumption))
    | (refine KeepsQ.get ?_ (by assumption))

theorem State.rinval_keeps {fpm : Nat} {z : State} (s : State) (c : Nat) (hfp : 6 ||| fpm = fpm)
    (hk : Keeps fpm z s) : Keeps fpm z (State.rinval s c) := by
  refine Keeps.step ?_ hfp hk
  unfold State.rinval
  repeat' first
    | with_reducible assumption
    | decide
    | with_reducible exact Keeps.refl _ _
    | with_reducible apply State.onCoreState_keeps
    | with_reducible apply keeps_whenever
    | with_reducible apply keeps_foldl
    | with_reducible apply KeepsE.ok
    | with_reducible exact KeepsE.error
    | with_reducible apply KeepsO.some
    | with_reducible exact KeepsO.none
    | with_reducible apply KeepsO.bind
    | with_reducible apply KeepsQ.some
    | with_reducible exact KeepsQ.none
    | with_reducible apply KeepsQ.map
    | with_reducible apply KeepsO.map
    | with_reducible apply KeepsO.getD
    | with_reducible apply KeepsP.fst
    | with_reducible apply keeps_ite
    | simp only [keeps_set_reqs_iff (m := 6) rfl]
    | split
    | dsimp only
    | (intro _; intros)
    | (refine KeepsO.get ?_ (by assumption))
    | (refine KeepsE.get ?_ (by assumption))
    | (refine KeepsR.get ?_ (by assumption))
    | (refine KeepsP.get ?_ (by assumption))
    | (refine KeepsQ.get ?_ (by assumption))

theorem State.rstore_keeps {fpm : Nat} {z : State} (s : State) (c a : Nat) (d : List Byte) (hfp : 6 ||| fpm = fpm)
    (hk : Keeps fpm z s) : Keeps fpm z (State.rstore s c a d) := by
  refine Keeps.step ?_ hfp hk
  unfold State.rstore
  repeat' first
    | with_reducible assumption
    | decide
    | with_reducible exact Keeps.refl _ _
    | with_reducible apply State.onCoreState_keeps
    | with_reducible apply keeps_whenever
    | with_reducible apply keeps_foldl
    | with_reducible apply KeepsE.ok
    | with_reducible exact KeepsE.error
    | with_reducible apply KeepsO.some
    | with_reducible exact KeepsO.none
    | with_reducible apply KeepsO.bind
    | with_reducible apply KeepsQ.some
    | with_reducible exact KeepsQ.none
    | with_reducible apply KeepsQ.map
    | with_reducible apply KeepsO.map
    | with_reducible apply KeepsO.getD
    | with_reducible apply KeepsP.fst
    | with_reducible apply keeps_ite
    | simp only [keeps_set_reqs_iff (m := 6) rfl]
    | split
    | dsimp only
    | (intro _; intros)
    | (refine KeepsO.get ?_ (by assumption))
    | (refine KeepsE.get ?_ (by assumption))
    | (refine KeepsR.get ?_ (by assumption))
    | (refine KeepsP.get ?_ (by assumption))
    | (refine KeepsQ.get ?_ (by assumption))

theorem State.seen_keeps {fpm : Nat} {z : State} (s : State) (own : Req → Bool) (p : Party) (hand sc : Nat) (hfp : 4 ||| fpm = fpm)
    (hk : Keeps fpm z s) : Keeps fpm z (State.seen s own p hand sc) := by
  refine Keeps.step ?_ hfp hk
  unfold State.seen
  repeat' first
    | with_reducible assumption
    | decide
    | with_reducible exact Keeps.refl _ _
    | with_reducible apply keeps_whenever
    | with_reducible apply keeps_foldl
    | with_reducible apply KeepsE.ok
    | with_reducible exact KeepsE.error
    | with_reducible apply KeepsO.some
    | with_reducible exact KeepsO.none
    | with_reducible apply KeepsO.bind
    | with_reducible apply KeepsQ.some
    | with_reducible exact KeepsQ.none
    | with_reducible apply KeepsQ.map
    | with_reducible apply KeepsO.map
    | with_reducible apply KeepsO.getD
    | with_reducible apply KeepsP.fst
    | with_reducible apply keeps_ite
    | simp only [keeps_set_reqs_iff (m := 4) rfl]
    | split
    | dsimp only
    | (intro _; intros)
    | (refine KeepsO.get ?_ (by assumption))
    | (refine KeepsE.get ?_ (by assumption))
    | (refine KeepsR.get ?_ (by assumption))
    | (refine KeepsP.get ?_ (by assumption))
    | (refine KeepsQ.get ?_ (by assumption))

theorem State.acquired_keeps {fpm : Nat} {z : State} (s : State) (c : Nat) (r : Req) (l : List (Nat × Nat)) (hfp : 6 ||| fpm = fpm)
    (hk : Keeps fpm z s) : Keeps fpm z (State.acquired s c r l) := by
  refine Keeps.step ?_ hfp hk
  unfold State.acquired
  repeat' first
    | with_reducible assumption
    | decide
    | with_reducible exact Keeps.refl _ _
    | with_reducible apply State.rinval_keeps
    | with_reducible apply keeps_whenever
    | with_reducible apply keeps_foldl
    | with_reducible apply KeepsE.ok
    | with_reducible exact KeepsE.error
    | with_reducible apply KeepsO.some
    | with_reducible exact KeepsO.none
    | with_reducible apply KeepsO.bind
    | with_reducible apply KeepsQ.some
    | with_reducible exact KeepsQ.none
    | with_reducible apply KeepsQ.map
    | with_reducible apply KeepsO.map
    | with_reducible apply KeepsO.getD
    | with_reducible apply KeepsP.fst
    | with_reducible apply keeps_ite
    | split
    | dsimp only
    | (intro _; intros)
    | (refine KeepsO.get ?_ (by assumption))
    | (refine KeepsE.get ?_ (by assumption))
    | (refine KeepsR.get ?_ (by assumption))
    | (refine KeepsP.get ?_ (by assumption))
    | (refine KeepsQ.get ?_ (by assumption))

theorem State.seenFences_keeps {fpm : Nat} {z : State} (s : State) (own : Req → Bool) (p : Party) (hand : Nat) (fences : List (Nat × Nat)) (hfp : 4 ||| fpm = fpm)
    (hk : Keeps fpm z s) : Keeps fpm z (State.seenFences s own p hand fences) := by
  refine Keeps.step ?_ hfp hk
  unfold State.seenFences
  repeat' first
    | with_reducible assumption
    | decide
    | with_reducible exact Keeps.refl _ _
    | with_reducible apply State.seen_keeps
    | with_reducible apply keeps_whenever
    | with_reducible apply keeps_foldl
    | with_reducible apply KeepsE.ok
    | with_reducible exact KeepsE.error
    | with_reducible apply KeepsO.some
    | with_reducible exact KeepsO.none
    | with_reducible apply KeepsO.bind
    | with_reducible apply KeepsQ.some
    | with_reducible exact KeepsQ.none
    | with_reducible apply KeepsQ.map
    | with_reducible apply KeepsO.map
    | with_reducible apply KeepsO.getD
    | with_reducible apply KeepsP.fst
    | with_reducible apply keeps_ite
    | split
    | dsimp only
    | (intro _; intros)
    | (refine KeepsO.get ?_ (by assumption))
    | (refine KeepsE.get ?_ (by assumption))
    | (refine KeepsR.get ?_ (by assumption))
    | (refine KeepsP.get ?_ (by assumption))
    | (refine KeepsQ.get ?_ (by assumption))

theorem State.regStore_keeps {fpm : Nat} {z : State} (s : State) (c va n : Nat) (v : Word) (hfp : 2 ||| fpm = fpm)
    (hk : Keeps fpm z s) : KeepsO fpm z (State.regStore s c va n v) := by
  refine KeepsO.step ?_ hfp hk
  unfold State.regStore
  repeat' first
    | with_reducible assumption
    | decide
    | with_reducible exact Keeps.refl _ _
    | with_reducible apply State.onCoreState_keeps
    | with_reducible apply keeps_whenever
    | with_reducible apply keeps_foldl
    | with_reducible apply KeepsE.ok
    | with_reducible exact KeepsE.error
    | with_reducible apply KeepsO.some
    | with_reducible exact KeepsO.none
    | with_reducible apply KeepsO.bind
    | with_reducible apply KeepsQ.some
    | with_reducible exact KeepsQ.none
    | with_reducible apply KeepsQ.map
    | with_reducible apply KeepsO.map
    | with_reducible apply KeepsO.getD
    | with_reducible apply KeepsP.fst
    | with_reducible apply keeps_ite
    | split
    | dsimp only
    | (intro _; intros)
    | (refine KeepsO.get ?_ (by assumption))
    | (refine KeepsE.get ?_ (by assumption))
    | (refine KeepsR.get ?_ (by assumption))
    | (refine KeepsP.get ?_ (by assumption))
    | (refine KeepsQ.get ?_ (by assumption))

theorem State.ldg_keeps {fpm : Nat} {z : State} (s : State) (c : Nat) (rd : Reg) (a : Word) (n : Nat) (cached : Bool) (acquire : Option Nat) (hfp : 32782 ||| fpm = fpm)
    (hk : Keeps fpm z s) : Keeps fpm z (State.ldg s c rd a n cached acquire) := by
  refine Keeps.step ?_ hfp hk
  unfold State.ldg
  repeat' first
    | with_reducible assumption
    | decide
    | with_reducible exact Keeps.refl _ _
    | with_reducible apply State.onCoreState_keeps
    | with_reducible apply State.coreFault_keeps
    | with_reducible apply State.memCe_keeps
    | with_reducible apply State.issue_keeps
    | with_reducible apply keeps_whenever
    | with_reducible apply keeps_foldl
    | with_reducible apply KeepsE.ok
    | with_reducible exact KeepsE.error
    | with_reducible apply KeepsO.some
    | with_reducible exact KeepsO.none
    | with_reducible apply KeepsO.bind
    | with_reducible apply KeepsQ.some
    | with_reducible exact KeepsQ.none
    | with_reducible apply KeepsQ.map
    | with_reducible apply KeepsO.map
    | with_reducible apply KeepsO.getD
    | with_reducible apply KeepsP.fst
    | with_reducible apply keeps_ite
    | split
    | dsimp only
    | (intro _; intros)
    | (refine KeepsO.get ?_ (by assumption))
    | (refine KeepsE.get ?_ (by assumption))
    | (refine KeepsR.get ?_ (by assumption))
    | (refine KeepsP.get ?_ (by assumption))
    | (refine KeepsQ.get ?_ (by assumption))

theorem State.stg_keeps {fpm : Nat} {z : State} (s : State) (c : Nat) (a : Word) (n : Nat) (v : Word) (rel : Option Nat) (hfp : 32782 ||| fpm = fpm)
    (hk : Keeps fpm z s) : Keeps fpm z (State.stg s c a n v rel) := by
  refine Keeps.step ?_ hfp hk
  unfold State.stg
  repeat' first
    | with_reducible assumption
    | decide
    | with_reducible exact Keeps.refl _ _
    | with_reducible apply State.onCoreState_keeps
    | with_reducible apply State.seenFences_keeps
    | with_reducible apply State.coreFault_keeps
    | with_reducible apply State.regStore_keeps
    | with_reducible apply State.rstore_keeps
    | with_reducible apply State.issue_keeps
    | with_reducible apply State.seen_keeps
    | with_reducible apply keeps_whenever
    | with_reducible apply keeps_foldl
    | with_reducible apply KeepsE.ok
    | with_reducible exact KeepsE.error
    | with_reducible apply KeepsO.some
    | with_reducible exact KeepsO.none
    | with_reducible apply KeepsO.bind
    | with_reducible apply KeepsQ.some
    | with_reducible exact KeepsQ.none
    | with_reducible apply KeepsQ.map
    | with_reducible apply KeepsO.map
    | with_reducible apply KeepsO.getD
    | with_reducible apply KeepsP.fst
    | with_reducible apply keeps_ite
    | split
    | dsimp only
    | (intro _; intros)
    | (refine KeepsO.get ?_ (by assumption))
    | (refine KeepsE.get ?_ (by assumption))
    | (refine KeepsR.get ?_ (by assumption))
    | (refine KeepsP.get ?_ (by assumption))
    | (refine KeepsQ.get ?_ (by assumption))

end Sys2Proof.Machine
end

