-- ==== Sys2Proof/Laws/KeepsPressUnit.lean ====
section
/-!
SUPPORT. Laws/KeepsPressUnit.lean: what the operations of Machine/PressUnit.lean may change.
-/

namespace Sys2Proof.Machine

set_option Elab.async false
set_option linter.all false

theorem execTis_keeps (c : Nat) (rs1 : Reg) (s : State) : KeepsR 2392078 s (execTis c rs1 s) := by
  unfold execTis
  repeat' first
    | with_reducible assumption
    | decide
    | with_reducible exact Keeps.refl _ _
    | with_reducible apply State.onCoreState_keeps
    | with_reducible apply State.coreFault_keeps
    | with_reducible apply State.ctl_keeps
    | with_reducible apply keeps_whenever
    | with_reducible apply keeps_foldl
    | with_reducible apply KeepsR.next
    | with_reducible apply KeepsR.onCore
    | with_reducible apply KeepsR.onPart
    | with_reducible exact KeepsR.fault
    | with_reducible apply KeepsE.ok
    | with_reducible exact KeepsE.error
    | with_reducible apply KeepsO.some
    | with_reducible exact KeepsO.none
    | with_reducible apply KeepsO.bind
    | with_reducible apply KeepsQ.some
    | with_reducible exact KeepsQ.none
    | with_reducible apply KeepsQ.map
    | with_reducible apply KeepsO.map
    | with_reducible apply KeepsO.getD
    | with_reducible apply KeepsP.fst
    | with_reducible apply keeps_ite
    | split
    | dsimp only
    | (intro _; intros)
    | (refine KeepsO.get ?_ (by assumption))
    | (refine KeepsE.get ?_ (by assumption))
    | (refine KeepsR.get ?_ (by assumption))
    | (refine KeepsP.get ?_ (by assumption))
    | (refine KeepsQ.get ?_ (by assumption))

theorem execPressCommandStart_keeps (c : Nat) (s : State) : KeepsR 32774 s (execPressCommandStart c s) := by
  unfold execPressCommandStart
  repeat' first
    | with_reducible assumption
    | decide
    | with_reducible exact Keeps.refl _ _
    | with_reducible apply State.onCoreState_keeps
    | with_reducible apply State.coreFault_keeps
    | with_reducible apply keeps_whenever
    | with_reducible apply keeps_foldl
    | with_reducible apply KeepsR.next
    | with_reducible apply KeepsR.onCore
    | with_reducible apply KeepsR.onPart
    | with_reducible exact KeepsR.fault
    | with_reducible apply KeepsE.ok
    | with_reducible exact KeepsE.error
    | with_reducible apply KeepsO.some
    | with_reducible exact KeepsO.none
    | with_reducible apply KeepsO.bind
    | with_reducible apply KeepsQ.some
    | with_reducible exact KeepsQ.none
    | with_reducible apply KeepsQ.map
    | with_reducible apply KeepsO.map
    | with_reducible apply KeepsO.getD
    | with_reducible apply KeepsP.fst
    | with_reducible apply keeps_ite
    | split
    | dsimp only
    | (intro _; intros)
    | (refine KeepsO.get ?_ (by assumption))
    | (refine KeepsE.get ?_ (by assumption))
    | (refine KeepsR.get ?_ (by assumption))
    | (refine KeepsP.get ?_ (by assumption))
    | (refine KeepsQ.get ?_ (by assumption))

theorem execPressReadDone_keeps (c : Nat) (s : State) : KeepsR 2129926 s (execPressReadDone c s) := by
  unfold execPressReadDone
  repeat' first
    | with_reducible assumption
    | decide
    | with_reducible exact Keeps.refl _ _
    | with_reducible apply State.onCoreState_keeps
    | with_reducible apply State.checkedAll_keeps
    | with_reducible apply State.drew_keeps
    | with_reducible apply keeps_whenever
    | with_reducible apply keeps_foldl
    | with_reducible apply KeepsR.next
    | with_reducible apply KeepsR.onCore
    | with_reducible apply KeepsR.onPart
    | with_reducible exact KeepsR.fault
    | with_reducible apply KeepsE.ok
    | with_reducible exact KeepsE.error
    | with_reducible apply KeepsO.some
    | with_reducible exact KeepsO.none
    | with_reducible apply KeepsO.bind
    | with_reducible apply KeepsQ.some
    | with_reducible exact KeepsQ.none
    | with_reducible apply KeepsQ.map
    | with_reducible apply KeepsO.map
    | with_reducible apply KeepsO.getD
    | with_reducible apply KeepsP.fst
    | with_reducible apply keeps_ite
    | split
    | dsimp only
    | (intro _; intros)
    | (refine KeepsO.get ?_ (by assumption))
    | (refine KeepsE.get ?_ (by assumption))
    | (refine KeepsR.get ?_ (by assumption))
    | (refine KeepsP.get ?_ (by assumption))
    | (refine KeepsQ.get ?_ (by assumption))

theorem execPressLastProduct_keeps (c : Nat) (s : State) : KeepsR 2 s (execPressLastProduct c s) := by
  unfold execPressLastProduct
  repeat' first
    | with_reducible assumption
    | decide
    | with_reducible exact Keeps.refl _ _
    | with_reducible apply State.onCoreState_keeps
    | with_reducible apply keeps_whenever
    | with_reducible apply keeps_foldl
    | with_reducible apply KeepsR.next
    | with_reducible apply KeepsR.onCore
    | with_reducible apply KeepsR.onPart
    | with_reducible exact KeepsR.fault
    | with_reducible apply KeepsE.ok
    | with_reducible exact KeepsE.error
    | with_reducible apply KeepsO.some
    | with_reducible exact KeepsO.none
    | with_reducible apply KeepsO.bind
    | with_reducible apply KeepsQ.some
    | with_reducible exact KeepsQ.none
    | with_reducible apply KeepsQ.map
    | with_reducible apply KeepsO.map
    | with_reducible apply KeepsO.getD
    | with_reducible apply KeepsP.fst
    | with_reducible apply keeps_ite
    | split
    | dsimp only
    | (intro _; intros)
    | (refine KeepsO.get ?_ (by assumption))
    | (refine KeepsE.get ?_ (by assumption))
    | (refine KeepsR.get ?_ (by assumption))
    | (refine KeepsP.get ?_ (by assumption))
    | (refine KeepsQ.get ?_ (by assumption))

theorem execPressDrainComplete_keeps (c : Nat) (s : State) : KeepsR 2 s (execPressDrainComplete c s) := by
  unfold execPressDrainComplete
  repeat' first
    | with_reducible assumption
    | decide
    | with_reducible exact Keeps.refl _ _
    | with_reducible apply State.onCoreState_keeps
    | with_reducible apply keeps_whenever
    | with_reducible apply keeps_foldl
    | with_reducible apply KeepsR.next
    | with_reducible apply KeepsR.onCore
    | with_reducible apply KeepsR.onPart
    | with_reducible exact KeepsR.fault
    | with_reducible apply KeepsE.ok
    | with_reducible exact KeepsE.error
    | with_reducible apply KeepsO.some
    | with_reducible exact KeepsO.none
    | with_reducible apply KeepsO.bind
    | with_reducible apply KeepsQ.some
    | with_reducible exact KeepsQ.none
    | with_reducible apply KeepsQ.map
    | with_reducible apply KeepsO.map
    | with_reducible apply KeepsO.getD
    | with_reducible apply KeepsP.fst
    | with_reducible apply keeps_ite
    | split
    | dsimp only
    | (intro _; intros)
    | (refine KeepsO.get ?_ (by assumption))
    | (refine KeepsE.get ?_ (by assumption))
    | (refine KeepsR.get ?_ (by assumption))
    | (refine KeepsP.get ?_ (by assumption))
    | (refine KeepsQ.get ?_ (by assumption))

theorem execPwait_keeps (c : Nat) (rs1 : Reg) (imm : BitVec 13) (s : State) : KeepsR 2392078 s (execPwait c rs1 imm s) := by
  unfold execPwait
  repeat' first
    | with_reducible assumption
    | decide
    | with_reducible exact Keeps.refl _ _
    | with_reducible apply State.coreFault_keeps
    | with_reducible apply State.setCore_keeps
    | with_reducible apply State.ctl_keeps
    | with_reducible apply keeps_whenever
    | with_reducible apply keeps_foldl
    | with_reducible apply KeepsR.next
    | with_reducible apply KeepsR.onCore
    | with_reducible apply KeepsR.onPart
    | with_reducible exact KeepsR.fault
    | with_reducible apply KeepsE.ok
    | with_reducible exact KeepsE.error
    | with_reducible apply KeepsO.some
    | with_reducible exact KeepsO.none
    | with_reducible apply KeepsO.bind
    | with_reducible apply KeepsQ.some
    | with_reducible exact KeepsQ.none
    | with_reducible apply KeepsQ.map
    | with_reducible apply KeepsO.map
    | with_reducible apply KeepsO.getD
    | with_reducible apply KeepsP.fst
    | with_reducible apply keeps_ite
    | split
    | dsimp only
    | (intro _; intros)
    | (refine KeepsO.get ?_ (by assumption))
    | (refine KeepsE.get ?_ (by assumption))
    | (refine KeepsR.get ?_ (by assumption))
    | (refine KeepsP.get ?_ (by assumption))
    | (refine KeepsQ.get ?_ (by assumption))

theorem execPwaitReturn_keeps (c : Nat) (s : State) : KeepsR 2 s (execPwaitReturn c s) := by
  unfold execPwaitReturn
  repeat' first
    | with_reducible assumption
    | decide
    | with_reducible exact Keeps.refl _ _
    | with_reducible apply State.onCoreState_keeps
    | with_reducible apply keeps_whenever
    | with_reducible apply keeps_foldl
    | with_reducible apply KeepsR.next
    | with_reducible apply KeepsR.onCore
    | with_reducible apply KeepsR.onPart
    | with_reducible exact KeepsR.fault
    | with_reducible apply KeepsE.ok
    | with_reducible exact KeepsE.error
    | with_reducible apply KeepsO.some
    | with_reducible exact KeepsO.none
    | with_reducible apply KeepsO.bind
    | with_reducible apply KeepsQ.some
    | with_reducible exact KeepsQ.none
    | with_reducible apply KeepsQ.map
    | with_reducible apply KeepsO.map
    | with_reducible apply KeepsO.getD
    | with_reducible apply KeepsP.fst
    | with_reducible apply keeps_ite
    | split
    | dsimp only
    | (intro _; intros)
    | (refine KeepsO.get ?_ (by assumption))
    | (refine KeepsE.get ?_ (by assumption))
    | (refine KeepsR.get ?_ (by assumption))
    | (refine KeepsP.get ?_ (by assumption))
    | (refine KeepsQ.get ?_ (by assumption))

end Sys2Proof.Machine
end

