-- ==== Sys2Proof/Laws/KeepsDma.lean ====
section
/-!
SUPPORT. Laws/KeepsDma.lean: what the operations of Machine/Dma.lean may change.
-/

namespace Sys2Proof.Machine

set_option Elab.async false
set_option linter.all false

theorem execCpy_keeps (c : Nat) (rd rs1 : Reg) (s : State) : KeepsR 2392078 s (execCpy c rd rs1 s) := by
  unfold execCpy
  repeat' first
    | with_reducible assumption
    | decide
    | with_reducible exact Keeps.refl _ _
    | with_reducible apply State.coreFault_keeps
    | with_reducible apply State.setCore_keeps
    | with_reducible apply State.ctl_keeps
    | with_reducible apply keeps_whenever
    | with_reducible apply keeps_foldl
    | with_reducible apply KeepsR.next
    | with_reducible apply KeepsR.onCore
    | with_reducible apply KeepsR.onPart
    | with_reducible exact KeepsR.fault
    | with_reducible apply KeepsE.ok
    | with_reducible exact KeepsE.error
    | with_reducible apply KeepsO.some
    | with_reducible exact KeepsO.none
    | with_reducible apply KeepsO.bind
    | with_reducible apply KeepsQ.some
    | with_reducible exact KeepsQ.none
    | with_reducible apply KeepsQ.map
    | with_reducible apply KeepsO.map
    | with_reducible apply KeepsO.getD
    | with_reducible apply KeepsP.fst
    | with_reducible apply keeps_ite
    | simp only [keeps_set_nextTag_iff (m := 2392078) rfl]
    | split
    | dsimp only
    | (intro _; intros)
    | (refine KeepsO.get ?_ (by assumption))
    | (refine KeepsE.get ?_ (by assumption))
    | (refine KeepsR.get ?_ (by assumption))
    | (refine KeepsP.get ?_ (by assumption))
    | (refine KeepsQ.get ?_ (by assumption))

theorem State.dmaIssue_keeps {fpm : Nat} {z : State} (s : State) (c : Nat) (r : Req) (hfp : 32782 ||| fpm = fpm)
    (hk : Keeps fpm z s) : Keeps fpm z (State.dmaIssue s c r) := by
  refine Keeps.step ?_ hfp hk
  unfold State.dmaIssue
  repeat' first
    | with_reducible assumption
    | decide
    | with_reducible exact Keeps.refl _ _
    | with_reducible apply State.issue_keeps
    | with_reducible apply State.deny_keeps
    | with_reducible apply keeps_whenever
    | with_reducible apply keeps_foldl
    | with_reducible apply KeepsE.ok
    | with_reducible exact KeepsE.error
    | with_reducible apply KeepsO.some
    | with_reducible exact KeepsO.none
    | with_reducible apply KeepsO.bind
    | with_reducible apply KeepsQ.some
    | with_reducible exact KeepsQ.none
    | with_reducible apply KeepsQ.map
    | with_reducible apply KeepsO.map
    | with_reducible apply KeepsO.getD
    | with_reducible apply KeepsP.fst
    | with_reducible apply keeps_ite
    | split
    | dsimp only
    | (intro _; intros)
    | (refine KeepsO.get ?_ (by assumption))
    | (refine KeepsE.get ?_ (by assumption))
    | (refine KeepsR.get ?_ (by assumption))
    | (refine KeepsP.get ?_ (by assumption))
    | (refine KeepsQ.get ?_ (by assumption))

theorem execDmaRequest_keeps (c ch : Nat) (s : State) : KeepsR 2129934 s (execDmaRequest c ch s) := by
  unfold execDmaRequest
  repeat' first
    | with_reducible assumption
    | decide
    | with_reducible exact Keeps.refl _ _
    | with_reducible apply State.onCoreState_keeps
    | with_reducible apply State.dmaIssue_keeps
    | with_reducible apply State.checked_keeps
    | with_reducible apply State.fresh_keeps
    | with_reducible apply keeps_whenever
    | with_reducible apply keeps_foldl
    | with_reducible apply KeepsR.next
    | with_reducible apply KeepsR.onCore
    | with_reducible apply KeepsR.onPart
    | with_reducible exact KeepsR.fault
    | with_reducible apply KeepsE.ok
    | with_reducible exact KeepsE.error
    | with_reducible apply KeepsO.some
    | with_reducible exact KeepsO.none
    | with_reducible apply KeepsO.bind
    | with_reducible apply KeepsQ.some
    | with_reducible exact KeepsQ.none
    | with_reducible apply KeepsQ.map
    | with_reducible apply KeepsO.map
    | with_reducible apply keepsP_foldl
    | with_reducible apply keepsP_ite
    | with_reducible apply KeepsO.getD
    | with_reducible apply KeepsP.fst
    | with_reducible apply keeps_ite
    | split
    | with_reducible apply KeepsP.mk
    | dsimp only
    | (intro _; intros)
    | (refine KeepsO.get ?_ (by assumption))
    | (refine KeepsE.get ?_ (by assumption))
    | (refine KeepsR.get ?_ (by assumption))
    | (refine KeepsP.get ?_ (by assumption))
    | (refine KeepsQ.get ?_ (by assumption))

theorem State.dmaBack_keeps {fpm : Nat} {z : State} (s : State) (c : Nat) (r : Req) (f : Core → Core) (hfp : 2129926 ||| fpm = fpm)
    (hk : Keeps fpm z s) : Keeps fpm z (State.dmaBack s c r f) := by
  refine Keeps.step ?_ hfp hk
  unfold State.dmaBack
  repeat' first
    | with_reducible assumption
    | decide
    | with_reducible exact Keeps.refl _ _
    | with_reducible apply State.finishIfQuiet_keeps
    | with_reducible apply State.onCoreState_keeps
    | with_reducible apply State.coreFault_keeps
    | with_reducible apply State.dropReq_keeps
    | with_reducible apply State.fresh_keeps
    | with_reducible apply keeps_whenever
    | with_reducible apply keeps_foldl
    | with_reducible apply KeepsE.ok
    | with_reducible exact KeepsE.error
    | with_reducible apply KeepsO.some
    | with_reducible exact KeepsO.none
    | with_reducible apply KeepsO.bind
    | with_reducible apply KeepsQ.some
    | with_reducible exact KeepsQ.none
    | with_reducible apply KeepsQ.map
    | with_reducible apply KeepsO.map
    | with_reducible apply KeepsO.getD
    | with_reducible apply KeepsP.fst
    | with_reducible apply keeps_ite
    | split
    | dsimp only
    | (intro _; intros)
    | (refine KeepsO.get ?_ (by assumption))
    | (refine KeepsE.get ?_ (by assumption))
    | (refine KeepsR.get ?_ (by assumption))
    | (refine KeepsP.get ?_ (by assumption))
    | (refine KeepsQ.get ?_ (by assumption))

theorem execDmaResponse_keeps (tag : Nat) (s : State) : KeepsR 2129926 s (execDmaResponse tag s) := by
  unfold execDmaResponse
  repeat' first
    | with_reducible assumption
    | decide
    | with_reducible exact Keeps.refl _ _
    | with_reducible apply State.dmaBack_keeps
    | with_reducible apply keeps_whenever
    | with_reducible apply keeps_foldl
    | with_reducible apply KeepsR.next
    | with_reducible apply KeepsR.onCore
    | with_reducible apply KeepsR.onPart
    | with_reducible exact KeepsR.fault
    | with_reducible apply KeepsE.ok
    | with_reducible exact KeepsE.error
    | with_reducible apply KeepsO.some
    | with_reducible exact KeepsO.none
    | with_reducible apply KeepsO.bind
    | with_reducible apply KeepsQ.some
    | with_reducible exact KeepsQ.none
    | with_reducible apply KeepsQ.map
    | with_reducible apply KeepsO.map
    | with_reducible apply KeepsO.getD
    | with_reducible apply KeepsP.fst
    | with_reducible apply keeps_ite
    | split
    | dsimp only
    | (intro _; intros)
    | (refine KeepsO.get ?_ (by assumption))
    | (refine KeepsE.get ?_ (by assumption))
    | (refine KeepsR.get ?_ (by assumption))
    | (refine KeepsP.get ?_ (by assumption))
    | (refine KeepsQ.get ?_ (by assumption))

theorem execAwaitArr_keeps (c k : Nat) (rs1 : Reg) (imm : BitVec 13) (s : State) : KeepsR 2392078 s (execAwaitArr c k rs1 imm s) := by
  unfold execAwaitArr
  repeat' first
    | with_reducible assumption
    | decide
    | with_reducible exact Keeps.refl _ _
    | with_reducible apply State.coreFault_keeps
    | with_reducible apply State.setCore_keeps
    | with_reducible apply State.ctl_keeps
    | with_reducible apply keeps_whenever
    | with_reducible apply keeps_foldl
    | with_reducible apply KeepsR.next
    | with_reducible apply KeepsR.onCore
    | with_reducible apply KeepsR.onPart
    | with_reducible exact KeepsR.fault
    | with_reducible apply KeepsE.ok
    | with_reducible exact KeepsE.error
    | with_reducible apply KeepsO.some
    | with_reducible exact KeepsO.none
    | with_reducible apply KeepsO.bind
    | with_reducible apply KeepsQ.some
    | with_reducible exact KeepsQ.none
    | with_reducible apply KeepsQ.map
    | with_reducible apply KeepsO.map
    | with_reducible apply KeepsO.getD
    | with_reducible apply KeepsP.fst
    | with_reducible apply keeps_ite
    | split
    | dsimp only
    | (intro _; intros)
    | (refine KeepsO.get ?_ (by assumption))
    | (refine KeepsE.get ?_ (by assumption))
    | (refine KeepsR.get ?_ (by assumption))
    | (refine KeepsP.get ?_ (by assumption))
    | (refine KeepsQ.get ?_ (by assumption))

theorem execAwaitReturn_keeps (c : Nat) (s : State) : KeepsR 2 s (execAwaitReturn c s) := by
  unfold execAwaitReturn
  repeat' first
    | with_reducible assumption
    | decide
    | with_reducible exact Keeps.refl _ _
    | with_reducible apply State.onCoreState_keeps
    | with_reducible apply keeps_whenever
    | with_reducible apply keeps_foldl
    | with_reducible apply KeepsR.next
    | with_reducible apply KeepsR.onCore
    | with_reducible apply KeepsR.onPart
    | with_reducible exact KeepsR.fault
    | with_reducible apply KeepsE.ok
    | with_reducible exact KeepsE.error
    | with_reducible apply KeepsO.some
    | with_reducible exact KeepsO.none
    | with_reducible apply KeepsO.bind
    | with_reducible apply KeepsQ.some
    | with_reducible exact KeepsQ.none
    | with_reducible apply KeepsQ.map
    | with_reducible apply KeepsO.map
    | with_reducible apply KeepsO.getD
    | with_reducible apply KeepsP.fst
    | with_reducible apply keeps_ite
    | split
    | dsimp only
    | (intro _; intros)
    | (refine KeepsO.get ?_ (by assumption))
    | (refine KeepsE.get ?_ (by assumption))
    | (refine KeepsR.get ?_ (by assumption))
    | (refine KeepsP.get ?_ (by assumption))
    | (refine KeepsQ.get ?_ (by assumption))

end Sys2Proof.Machine
end

