-- ==== Sys2Proof/Laws/KeepsVector.lean ====
section
/-!
SUPPORT. Laws/KeepsVector.lean: what the operations of Machine/Vector.lean may change.
-/

namespace Sys2Proof.Machine

set_option Elab.async false
set_option linter.all false

theorem State.barrier_keeps {fpm : Nat} {z : State} (s : State) (c g b : Nat) (hfp : 2 ||| fpm = fpm)
    (hk : Keeps fpm z s) : Keeps fpm z (State.barrier s c g b) := by
  refine Keeps.step ?_ hfp hk
  unfold State.barrier
  repeat' first
    | with_reducible assumption
    | decide
    | with_reducible exact Keeps.refl _ _
    | with_reducible apply State.onCoreState_keeps
    | with_reducible apply keeps_whenever
    | with_reducible apply keeps_foldl
    | with_reducible apply KeepsE.ok
    | with_reducible exact KeepsE.error
    | with_reducible apply KeepsO.some
    | with_reducible exact KeepsO.none
    | with_reducible apply KeepsO.bind
    | with_reducible apply KeepsQ.some
    | with_reducible exact KeepsQ.none
    | with_reducible apply KeepsQ.map
    | with_reducible apply KeepsO.map
    | with_reducible apply KeepsO.getD
    | with_reducible apply KeepsP.fst
    | with_reducible apply keeps_ite
    | split
    | dsimp only
    | (intro _; intros)
    | (refine KeepsO.get ?_ (by assumption))
    | (refine KeepsE.get ?_ (by assumption))
    | (refine KeepsR.get ?_ (by assumption))
    | (refine KeepsP.get ?_ (by assumption))
    | (refine KeepsQ.get ?_ (by assumption))

theorem State.reap_keeps {fpm : Nat} {z : State} (s : State) (c g : Nat) (hfp : 2 ||| fpm = fpm)
    (hk : Keeps fpm z s) : Keeps fpm z (State.reap s c g) := by
  refine Keeps.step ?_ hfp hk
  unfold State.reap
  repeat' first
    | with_reducible assumption
    | decide
    | with_reducible exact Keeps.refl _ _
    | with_reducible apply State.onCoreState_keeps
    | with_reducible apply keeps_whenever
    | with_reducible apply keeps_foldl
    | with_reducible apply KeepsE.ok
    | with_reducible exact KeepsE.error
    | with_reducible apply KeepsO.some
    | with_reducible exact KeepsO.none
    | with_reducible apply KeepsO.bind
    | with_reducible apply KeepsQ.some
    | with_reducible exact KeepsQ.none
    | with_reducible apply KeepsQ.map
    | with_reducible apply KeepsO.map
    | with_reducible apply KeepsO.getD
    | with_reducible apply KeepsP.fst
    | with_reducible apply keeps_ite
    | split
    | dsimp only
    | (intro _; intros)
    | (refine KeepsO.get ?_ (by assumption))
    | (refine KeepsE.get ?_ (by assumption))
    | (refine KeepsR.get ?_ (by assumption))
    | (refine KeepsP.get ?_ (by assumption))
    | (refine KeepsQ.get ?_ (by assumption))

theorem State.settle_keeps {fpm : Nat} {z : State} (s : State) (c g : Nat) (hfp : 2 ||| fpm = fpm)
    (hk : Keeps fpm z s) : Keeps fpm z (State.settle s c g) := by
  refine Keeps.step ?_ hfp hk
  unfold State.settle
  repeat' first
    | with_reducible assumption
    | decide
    | with_reducible exact Keeps.refl _ _
    | with_reducible apply State.barrier_keeps
    | with_reducible apply State.reap_keeps
    | with_reducible apply keeps_whenever
    | with_reducible apply keeps_foldl
    | with_reducible apply KeepsE.ok
    | with_reducible exact KeepsE.error
    | with_reducible apply KeepsO.some
    | with_reducible exact KeepsO.none
    | with_reducible apply KeepsO.bind
    | with_reducible apply KeepsQ.some
    | with_reducible exact KeepsQ.none
    | with_reducible apply KeepsQ.map
    | with_reducible apply KeepsO.map
    | with_reducible apply KeepsO.getD
    | with_reducible apply KeepsP.fst
    | with_reducible apply keeps_ite
    | split
    | dsimp only
    | (intro _; intros)
    | (refine KeepsO.get ?_ (by assumption))
    | (refine KeepsE.get ?_ (by assumption))
    | (refine KeepsR.get ?_ (by assumption))
    | (refine KeepsP.get ?_ (by assumption))
    | (refine KeepsQ.get ?_ (by assumption))

theorem State.passBy_keeps {fpm : Nat} {z : State} (s : State) (v : VInstr) (u : VUse) (hfp : 2 ||| fpm = fpm)
    (hk : Keeps fpm z s) : Keeps fpm z (State.passBy s v u) := by
  refine Keeps.step ?_ hfp hk
  unfold State.passBy
  repeat' first
    | with_reducible assumption
    | decide
    | with_reducible exact Keeps.refl _ _
    | with_reducible apply State.onCoreState_keeps
    | with_reducible apply keeps_whenever
    | with_reducible apply keeps_foldl
    | with_reducible apply KeepsE.ok
    | with_reducible exact KeepsE.error
    | with_reducible apply KeepsO.some
    | with_reducible exact KeepsO.none
    | with_reducible apply KeepsO.bind
    | with_reducible apply KeepsQ.some
    | with_reducible exact KeepsQ.none
    | with_reducible apply KeepsQ.map
    | with_reducible apply KeepsO.map
    | with_reducible apply KeepsO.getD
    | with_reducible apply KeepsP.fst
    | with_reducible apply keeps_ite
    | split
    | dsimp only
    | (intro _; intros)
    | (refine KeepsO.get ?_ (by assumption))
    | (refine KeepsE.get ?_ (by assumption))
    | (refine KeepsR.get ?_ (by assumption))
    | (refine KeepsP.get ?_ (by assumption))
    | (refine KeepsQ.get ?_ (by assumption))

theorem State.vec_keeps {fpm : Nat} {z : State} (s : State) (v : VInstr) (u : VUse) (ready : Nat → Bool) (check : Core → Nat → Nat) (locals : Core → Nat → List (Nat × Nat)) (eff : State → List Nat → State) (hfeff : ∀ v0 v1, Keeps fpm z v0 → Keeps fpm z (eff v0 v1))
    (hfp : 2392078 ||| fpm = fpm) (hk : Keeps fpm z s) : Keeps fpm z (State.vec s v u ready check locals eff) := by
  unfold State.vec
  repeat' first
    | with_reducible assumption
    | exact Keeps.sub hfp rfl
    | exact Keeps.bit hfp rfl
    | with_reducible apply hfeff
    | with_reducible exact Keeps.refl _ _
    | with_reducible apply State.onCoreState_keeps
    | with_reducible apply State.checkedAll_keeps
    | with_reducible apply State.coreFault_keeps
    | with_reducible apply State.stepped_keeps
    | with_reducible apply State.askCode_keeps
    | with_reducible apply State.passBy_keeps
    | with_reducible apply State.fresh_keeps
    | with_reducible apply keeps_whenever
    | with_reducible apply keeps_foldl
    | with_reducible apply KeepsE.ok
    | with_reducible exact KeepsE.error
    | with_reducible apply KeepsO.some
    | with_reducible exact KeepsO.none
    | with_reducible apply KeepsO.bind
    | with_reducible apply KeepsQ.some
    | with_reducible exact KeepsQ.none
    | with_reducible apply KeepsQ.map
    | with_reducible apply KeepsO.map
    | with_reducible apply KeepsO.getD
    | with_reducible apply KeepsP.fst
    | with_reducible apply keeps_ite
    | split
    | dsimp only
    | (intro _; intros)
    | (refine KeepsO.get ?_ (by assumption))
    | (refine KeepsE.get ?_ (by assumption))
    | (refine KeepsR.get ?_ (by assumption))
    | (refine KeepsP.get ?_ (by assumption))
    | (refine KeepsQ.get ?_ (by assumption))

theorem State.vlanes_keeps {fpm : Nat} {z : State} (s : State) (v : VInstr) (u : VUse) (f : Core → Nat → Core) (hfp : 2392078 ||| fpm = fpm)
    (hk : Keeps fpm z s) : Keeps fpm z (State.vlanes s v u f) := by
  refine Keeps.step ?_ hfp hk
  unfold State.vlanes
  repeat' first
    | with_reducible assumption
    | decide
    | with_reducible exact Keeps.refl _ _
    | with_reducible apply State.onCoreState_keeps
    | with_reducible apply State.vec_keeps
    | with_reducible apply keeps_whenever
    | with_reducible apply keeps_foldl
    | with_reducible apply KeepsE.ok
    | with_reducible exact KeepsE.error
    | with_reducible apply KeepsO.some
    | with_reducible exact KeepsO.none
    | with_reducible apply KeepsO.bind
    | with_reducible apply KeepsQ.some
    | with_reducible exact KeepsQ.none
    | with_reducible apply KeepsQ.map
    | with_reducible apply KeepsO.map
    | with_reducible apply KeepsO.getD
    | with_reducible apply KeepsP.fst
    | with_reducible apply keeps_ite
    | split
    | dsimp only
    | (intro _; intros)
    | (refine KeepsO.get ?_ (by assumption))
    | (refine KeepsE.get ?_ (by assumption))
    | (refine KeepsR.get ?_ (by assumption))
    | (refine KeepsP.get ?_ (by assumption))
    | (refine KeepsQ.get ?_ (by assumption))

theorem State.vbin_keeps {fpm : Nat} {z : State} (s : State) (v : VInstr) (fp : Bool) (f : BitVec 32 → BitVec 32 → BitVec 32) (hfp : 2392078 ||| fpm = fpm)
    (hk : Keeps fpm z s) : Keeps fpm z (State.vbin s v fp f) := by
  refine Keeps.step ?_ hfp hk
  unfold State.vbin
  repeat' first
    | with_reducible assumption
    | decide
    | with_reducible exact Keeps.refl _ _
    | with_reducible apply State.vlanes_keeps
    | with_reducible apply keeps_whenever
    | with_reducible apply keeps_foldl
    | with_reducible apply KeepsE.ok
    | with_reducible exact KeepsE.error
    | with_reducible apply KeepsO.some
    | with_reducible exact KeepsO.none
    | with_reducible apply KeepsO.bind
    | with_reducible apply KeepsQ.some
    | with_reducible exact KeepsQ.none
    | with_reducible apply KeepsQ.map
    | with_reducible apply KeepsO.map
    | with_reducible apply KeepsO.getD
    | with_reducible apply KeepsP.fst
    | with_reducible apply keeps_ite
    | split
    | dsimp only
    | (intro _; intros)
    | (refine KeepsO.get ?_ (by assumption))
    | (refine KeepsE.get ?_ (by assumption))
    | (refine KeepsR.get ?_ (by assumption))
    | (refine KeepsP.get ?_ (by assumption))
    | (refine KeepsQ.get ?_ (by assumption))

theorem State.vun_keeps {fpm : Nat} {z : State} (s : State) (v : VInstr) (fp : Bool) (imm : BitVec 20) (f : BitVec 32 → BitVec 32) (occ : Nat) (hfp : 2392078 ||| fpm = fpm)
    (hk : Keeps fpm z s) : Keeps fpm z (State.vun s v fp imm f occ) := by
  refine Keeps.step ?_ hfp hk
  unfold State.vun
  repeat' first
    | with_reducible assumption
    | decide
    | with_reducible exact Keeps.refl _ _
    | with_reducible apply State.vlanes_keeps
    | with_reducible apply keeps_whenever
    | with_reducible apply keeps_foldl
    | with_reducible apply KeepsE.ok
    | with_reducible exact KeepsE.error
    | with_reducible apply KeepsO.some
    | with_reducible exact KeepsO.none
    | with_reducible apply KeepsO.bind
    | with_reducible apply KeepsQ.some
    | with_reducible exact KeepsQ.none
    | with_reducible apply KeepsQ.map
    | with_reducible apply KeepsO.map
    | with_reducible apply KeepsO.getD
    | with_reducible apply KeepsP.fst
    | with_reducible apply keeps_ite
    | split
    | dsimp only
    | (intro _; intros)
    | (refine KeepsO.get ?_ (by assumption))
    | (refine KeepsE.get ?_ (by assumption))
    | (refine KeepsR.get ?_ (by assumption))
    | (refine KeepsP.get ?_ (by assumption))
    | (refine KeepsQ.get ?_ (by assumption))

theorem State.vcmp_keeps {fpm : Nat} {z : State} (s : State) (v : VInstr) (fp : Bool) (imm : BitVec 20) (bad : Bool) (f : BitVec 32 → BitVec 32 → Bool) (hfp : 2392078 ||| fpm = fpm)
    (hk : Keeps fpm z s) : Keeps fpm z (State.vcmp s v fp imm bad f) := by
  refine Keeps.step ?_ hfp hk
  unfold State.vcmp
  repeat' first
    | with_reducible assumption
    | decide
    | with_reducible exact Keeps.refl _ _
    | with_reducible apply State.vlanes_keeps
    | with_reducible apply keeps_whenever
    | with_reducible apply keeps_foldl
    | with_reducible apply KeepsE.ok
    | with_reducible exact KeepsE.error
    | with_reducible apply KeepsO.some
    | with_reducible exact KeepsO.none
    | with_reducible apply KeepsO.bind
    | with_reducible apply KeepsQ.some
    | with_reducible exact KeepsQ.none
    | with_reducible apply KeepsQ.map
    | with_reducible apply KeepsO.map
    | with_reducible apply KeepsO.getD
    | with_reducible apply KeepsP.fst
    | with_reducible apply keeps_ite
    | split
    | dsimp only
    | (intro _; intros)
    | (refine KeepsO.get ?_ (by assumption))
    | (refine KeepsE.get ?_ (by assumption))
    | (refine KeepsR.get ?_ (by assumption))
    | (refine KeepsP.get ?_ (by assumption))
    | (refine KeepsQ.get ?_ (by assumption))

theorem execFadd_keeps (v : VInstr) (s : State) : KeepsR 2392078 s (execFadd v s) := by
  unfold execFadd
  repeat' first
    | with_reducible assumption
    | decide
    | with_reducible exact Keeps.refl _ _
    | with_reducible apply State.vbin_keeps
    | with_reducible apply keeps_whenever
    | with_reducible apply keeps_foldl
    | with_reducible apply KeepsR.next
    | with_reducible apply KeepsR.onCore
    | with_reducible apply KeepsR.onPart
    | with_reducible exact KeepsR.fault
    | with_reducible apply KeepsE.ok
    | with_reducible exact KeepsE.error
    | with_reducible apply KeepsO.some
    | with_reducible exact KeepsO.none
    | with_reducible apply KeepsO.bind
    | with_reducible apply KeepsQ.some
    | with_reducible exact KeepsQ.none
    | with_reducible apply KeepsQ.map
    | with_reducible apply KeepsO.map
    | with_reducible apply KeepsO.getD
    | with_reducible apply KeepsP.fst
    | with_reducible apply keeps_ite
    | split
    | dsimp only
    | (intro _; intros)
    | (refine KeepsO.get ?_ (by assumption))
    | (refine KeepsE.get ?_ (by assumption))
    | (refine KeepsR.get ?_ (by assumption))
    | (refine KeepsP.get ?_ (by assumption))
    | (refine KeepsQ.get ?_ (by assumption))

theorem execFsub_keeps (v : VInstr) (s : State) : KeepsR 2392078 s (execFsub v s) := by
  unfold execFsub
  repeat' first
    | with_reducible assumption
    | decide
    | with_reducible exact Keeps.refl _ _
    | with_reducible apply State.vbin_keeps
    | with_reducible apply keeps_whenever
    | with_reducible apply keeps_foldl
    | with_reducible apply KeepsR.next
    | with_reducible apply KeepsR.onCore
    | with_reducible apply KeepsR.onPart
    | with_reducible exact KeepsR.fault
    | with_reducible apply KeepsE.ok
    | with_reducible exact KeepsE.error
    | with_reducible apply KeepsO.some
    | with_reducible exact KeepsO.none
    | with_reducible apply KeepsO.bind
    | with_reducible apply KeepsQ.some
    | with_reducible exact KeepsQ.none
    | with_reducible apply KeepsQ.map
    | with_reducible apply KeepsO.map
    | with_reducible apply KeepsO.getD
    | with_reducible apply KeepsP.fst
    | with_reducible apply keeps_ite
    | split
    | dsimp only
    | (intro _; intros)
    | (refine KeepsO.get ?_ (by assumption))
    | (refine KeepsE.get ?_ (by assumption))
    | (refine KeepsR.get ?_ (by assumption))
    | (refine KeepsP.get ?_ (by assumption))
    | (refine KeepsQ.get ?_ (by assumption))

theorem execFmul_keeps (v : VInstr) (s : State) : KeepsR 2392078 s (execFmul v s) := by
  unfold execFmul
  repeat' first
    | with_reducible assumption
    | decide
    | with_reducible exact Keeps.refl _ _
    | with_reducible apply State.vbin_keeps
    | with_reducible apply keeps_whenever
    | with_reducible apply keeps_foldl
    | with_reducible apply KeepsR.next
    | with_reducible apply KeepsR.onCore
    | with_reducible apply KeepsR.onPart
    | with_reducible exact KeepsR.fault
    | with_reducible apply KeepsE.ok
    | with_reducible exact KeepsE.error
    | with_reducible apply KeepsO.some
    | with_reducible exact KeepsO.none
    | with_reducible apply KeepsO.bind
    | with_reducible apply KeepsQ.some
    | with_reducible exact KeepsQ.none
    | with_reducible apply KeepsQ.map
    | with_reducible apply KeepsO.map
    | with_reducible apply KeepsO.getD
    | with_reducible apply KeepsP.fst
    | with_reducible apply keeps_ite
    | split
    | dsimp only
    | (intro _; intros)
    | (refine KeepsO.get ?_ (by assumption))
    | (refine KeepsE.get ?_ (by assumption))
    | (refine KeepsR.get ?_ (by assumption))
    | (refine KeepsP.get ?_ (by assumption))
    | (refine KeepsQ.get ?_ (by assumption))

theorem execFfma_keeps (v : VInstr) (s : State) : KeepsR 2392078 s (execFfma v s) := by
  unfold execFfma
  repeat' first
    | with_reducible assumption
    | decide
    | with_reducible exact Keeps.refl _ _
    | with_reducible apply State.vlanes_keeps
    | with_reducible apply keeps_whenever
    | with_reducible apply keeps_foldl
    | with_reducible apply KeepsR.next
    | with_reducible apply KeepsR.onCore
    | with_reducible apply KeepsR.onPart
    | with_reducible exact KeepsR.fault
    | with_reducible apply KeepsE.ok
    | with_reducible exact KeepsE.error
    | with_reducible apply KeepsO.some
    | with_reducible exact KeepsO.none
    | with_reducible apply KeepsO.bind
    | with_reducible apply KeepsQ.some
    | with_reducible exact KeepsQ.none
    | with_reducible apply KeepsQ.map
    | with_reducible apply KeepsO.map
    | with_reducible apply KeepsO.getD
    | with_reducible apply KeepsP.fst
    | with_reducible apply keeps_ite
    | split
    | dsimp only
    | (intro _; intros)
    | (refine KeepsO.get ?_ (by assumption))
    | (refine KeepsE.get ?_ (by assumption))
    | (refine KeepsR.get ?_ (by assumption))
    | (refine KeepsP.get ?_ (by assumption))
    | (refine KeepsQ.get ?_ (by assumption))

theorem execFmin_keeps (v : VInstr) (s : State) : KeepsR 2392078 s (execFmin v s) := by
  unfold execFmin
  repeat' first
    | with_reducible assumption
    | decide
    | with_reducible exact Keeps.refl _ _
    | with_reducible apply State.vbin_keeps
    | with_reducible apply keeps_whenever
    | with_reducible apply keeps_foldl
    | with_reducible apply KeepsR.next
    | with_reducible apply KeepsR.onCore
    | with_reducible apply KeepsR.onPart
    | with_reducible exact KeepsR.fault
    | with_reducible apply KeepsE.ok
    | with_reducible exact KeepsE.error
    | with_reducible apply KeepsO.some
    | with_reducible exact KeepsO.none
    | with_reducible apply KeepsO.bind
    | with_reducible apply KeepsQ.some
    | with_reducible exact KeepsQ.none
    | with_reducible apply KeepsQ.map
    | with_reducible apply KeepsO.map
    | with_reducible apply KeepsO.getD
    | with_reducible apply KeepsP.fst
    | with_reducible apply keeps_ite
    | split
    | dsimp only
    | (intro _; intros)
    | (refine KeepsO.get ?_ (by assumption))
    | (refine KeepsE.get ?_ (by assumption))
    | (refine KeepsR.get ?_ (by assumption))
    | (refine KeepsP.get ?_ (by assumption))
    | (refine KeepsQ.get ?_ (by assumption))

theorem execFmax_keeps (v : VInstr) (s : State) : KeepsR 2392078 s (execFmax v s) := by
  unfold execFmax
  repeat' first
    | with_reducible assumption
    | decide
    | with_reducible exact Keeps.refl _ _
    | with_reducible apply State.vbin_keeps
    | with_reducible apply keeps_whenever
    | with_reducible apply keeps_foldl
    | with_reducible apply KeepsR.next
    | with_reducible apply KeepsR.onCore
    | with_reducible apply KeepsR.onPart
    | with_reducible exact KeepsR.fault
    | with_reducible apply KeepsE.ok
    | with_reducible exact KeepsE.error
    | with_reducible apply KeepsO.some
    | with_reducible exact KeepsO.none
    | with_reducible apply KeepsO.bind
    | with_reducible apply KeepsQ.some
    | with_reducible exact KeepsQ.none
    | with_reducible apply KeepsQ.map
    | with_reducible apply KeepsO.map
    | with_reducible apply KeepsO.getD
    | with_reducible apply KeepsP.fst
    | with_reducible apply keeps_ite
    | split
    | dsimp only
    | (intro _; intros)
    | (refine KeepsO.get ?_ (by assumption))
    | (refine KeepsE.get ?_ (by assumption))
    | (refine KeepsR.get ?_ (by assumption))
    | (refine KeepsP.get ?_ (by assumption))
    | (refine KeepsQ.get ?_ (by assumption))

theorem execFcmp_keeps (v : VInstr) (s : State) : KeepsR 2392078 s (execFcmp v s) := by
  unfold execFcmp
  repeat' first
    | with_reducible assumption
    | decide
    | with_reducible exact Keeps.refl _ _
    | with_reducible apply State.vcmp_keeps
    | with_reducible apply keeps_whenever
    | with_reducible apply keeps_foldl
    | with_reducible apply KeepsR.next
    | with_reducible apply KeepsR.onCore
    | with_reducible apply KeepsR.onPart
    | with_reducible exact KeepsR.fault
    | with_reducible apply KeepsE.ok
    | with_reducible exact KeepsE.error
    | with_reducible apply KeepsO.some
    | with_reducible exact KeepsO.none
    | with_reducible apply KeepsO.bind
    | with_reducible apply KeepsQ.some
    | with_reducible exact KeepsQ.none
    | with_reducible apply KeepsQ.map
    | with_reducible apply KeepsO.map
    | with_reducible apply KeepsO.getD
    | with_reducible apply KeepsP.fst
    | with_reducible apply keeps_ite
    | split
    | dsimp only
    | (intro _; intros)
    | (refine KeepsO.get ?_ (by assumption))
    | (refine KeepsE.get ?_ (by assumption))
    | (refine KeepsR.get ?_ (by assumption))
    | (refine KeepsP.get ?_ (by assumption))
    | (refine KeepsQ.get ?_ (by assumption))

theorem execVecSel_keeps (v : VInstr) (s : State) : KeepsR 2392078 s (execVecSel v s) := by
  unfold execVecSel
  repeat' first
    | with_reducible assumption
    | decide
    | with_reducible exact Keeps.refl _ _
    | with_reducible apply State.vlanes_keeps
    | with_reducible apply keeps_whenever
    | with_reducible apply keeps_foldl
    | with_reducible apply KeepsR.next
    | with_reducible apply KeepsR.onCore
    | with_reducible apply KeepsR.onPart
    | with_reducible exact KeepsR.fault
    | with_reducible apply KeepsE.ok
    | with_reducible exact KeepsE.error
    | with_reducible apply KeepsO.some
    | with_reducible exact KeepsO.none
    | with_reducible apply KeepsO.bind
    | with_reducible apply KeepsQ.some
    | with_reducible exact KeepsQ.none
    | with_reducible apply KeepsQ.map
    | with_reducible apply KeepsO.map
    | with_reducible apply KeepsO.getD
    | with_reducible apply KeepsP.fst
    | with_reducible apply keeps_ite
    | split
    | dsimp only
    | (intro _; intros)
    | (refine KeepsO.get ?_ (by assumption))
    | (refine KeepsE.get ?_ (by assumption))
    | (refine KeepsR.get ?_ (by assumption))
    | (refine KeepsP.get ?_ (by assumption))
    | (refine KeepsQ.get ?_ (by assumption))

theorem execFexp2_keeps (v : VInstr) (s : State) : KeepsR 2392078 s (execFexp2 v s) := by
  unfold execFexp2
  repeat' first
    | with_reducible assumption
    | decide
    | with_reducible exact Keeps.refl _ _
    | with_reducible apply State.vun_keeps
    | with_reducible apply keeps_whenever
    | with_reducible apply keeps_foldl
    | with_reducible apply KeepsR.next
    | with_reducible apply KeepsR.onCore
    | with_reducible apply KeepsR.onPart
    | with_reducible exact KeepsR.fault
    | with_reducible apply KeepsE.ok
    | with_reducible exact KeepsE.error
    | with_reducible apply KeepsO.some
    | with_reducible exact KeepsO.none
    | with_reducible apply KeepsO.bind
    | with_reducible apply KeepsQ.some
    | with_reducible exact KeepsQ.none
    | with_reducible apply KeepsQ.map
    | with_reducible apply KeepsO.map
    | with_reducible apply KeepsO.getD
    | with_reducible apply KeepsP.fst
    | with_reducible apply keeps_ite
    | split
    | dsimp only
    | (intro _; intros)
    | (refine KeepsO.get ?_ (by assumption))
    | (refine KeepsE.get ?_ (by assumption))
    | (refine KeepsR.get ?_ (by assumption))
    | (refine KeepsP.get ?_ (by assumption))
    | (refine KeepsQ.get ?_ (by assumption))

theorem execFrcp_keeps (v : VInstr) (s : State) : KeepsR 2392078 s (execFrcp v s) := by
  unfold execFrcp
  repeat' first
    | with_reducible assumption
    | decide
    | with_reducible exact Keeps.refl _ _
    | with_reducible apply State.vun_keeps
    | with_reducible apply keeps_whenever
    | with_reducible apply keeps_foldl
    | with_reducible apply KeepsR.next
    | with_reducible apply KeepsR.onCore
    | with_reducible apply KeepsR.onPart
    | with_reducible exact KeepsR.fault
    | with_reducible apply KeepsE.ok
    | with_reducible exact KeepsE.error
    | with_reducible apply KeepsO.some
    | with_reducible exact KeepsO.none
    | with_reducible apply KeepsO.bind
    | with_reducible apply KeepsQ.some
    | with_reducible exact KeepsQ.none
    | with_reducible apply KeepsQ.map
    | with_reducible apply KeepsO.map
    | with_reducible apply KeepsO.getD
    | with_reducible apply KeepsP.fst
    | with_reducible apply keeps_ite
    | split
    | dsimp only
    | (intro _; intros)
    | (refine KeepsO.get ?_ (by assumption))
    | (refine KeepsE.get ?_ (by assumption))
    | (refine KeepsR.get ?_ (by assumption))
    | (refine KeepsP.get ?_ (by assumption))
    | (refine KeepsQ.get ?_ (by assumption))

theorem execFrsqrt_keeps (v : VInstr) (s : State) : KeepsR 2392078 s (execFrsqrt v s) := by
  unfold execFrsqrt
  repeat' first
    | with_reducible assumption
    | decide
    | with_reducible exact Keeps.refl _ _
    | with_reducible apply State.vun_keeps
    | with_reducible apply keeps_whenever
    | with_reducible apply keeps_foldl
    | with_reducible apply KeepsR.next
    | with_reducible apply KeepsR.onCore
    | with_reducible apply KeepsR.onPart
    | with_reducible exact KeepsR.fault
    | with_reducible apply KeepsE.ok
    | with_reducible exact KeepsE.error
    | with_reducible apply KeepsO.some
    | with_reducible exact KeepsO.none
    | with_reducible apply KeepsO.bind
    | with_reducible apply KeepsQ.some
    | with_reducible exact KeepsQ.none
    | with_reducible apply KeepsQ.map
    | with_reducible apply KeepsO.map
    | with_reducible apply KeepsO.getD
    | with_reducible apply KeepsP.fst
    | with_reducible apply keeps_ite
    | split
    | dsimp only
    | (intro _; intros)
    | (refine KeepsO.get ?_ (by assumption))
    | (refine KeepsE.get ?_ (by assumption))
    | (refine KeepsR.get ?_ (by assumption))
    | (refine KeepsP.get ?_ (by assumption))
    | (refine KeepsQ.get ?_ (by assumption))

theorem execIadd_keeps (v : VInstr) (s : State) : KeepsR 2392078 s (execIadd v s) := by
  unfold execIadd
  repeat' first
    | with_reducible assumption
    | decide
    | with_reducible exact Keeps.refl _ _
    | with_reducible apply State.vbin_keeps
    | with_reducible apply keeps_whenever
    | with_reducible apply keeps_foldl
    | with_reducible apply KeepsR.next
    | with_reducible apply KeepsR.onCore
    | with_reducible apply KeepsR.onPart
    | with_reducible exact KeepsR.fault
    | with_reducible apply KeepsE.ok
    | with_reducible exact KeepsE.error
    | with_reducible apply KeepsO.some
    | with_reducible exact KeepsO.none
    | with_reducible apply KeepsO.bind
    | with_reducible apply KeepsQ.some
    | with_reducible exact KeepsQ.none
    | with_reducible apply KeepsQ.map
    | with_reducible apply KeepsO.map
    | with_reducible apply KeepsO.getD
    | with_reducible apply KeepsP.fst
    | with_reducible apply keeps_ite
    | split
    | dsimp only
    | (intro _; intros)
    | (refine KeepsO.get ?_ (by assumption))
    | (refine KeepsE.get ?_ (by assumption))
    | (refine KeepsR.get ?_ (by assumption))
    | (refine KeepsP.get ?_ (by assumption))
    | (refine KeepsQ.get ?_ (by assumption))

theorem execIsub_keeps (v : VInstr) (s : State) : KeepsR 2392078 s (execIsub v s) := by
  unfold execIsub
  repeat' first
    | with_reducible assumption
    | decide
    | with_reducible exact Keeps.refl _ _
    | with_reducible apply State.vbin_keeps
    | with_reducible apply keeps_whenever
    | with_reducible apply keeps_foldl
    | with_reducible apply KeepsR.next
    | with_reducible apply KeepsR.onCore
    | with_reducible apply KeepsR.onPart
    | with_reducible exact KeepsR.fault
    | with_reducible apply KeepsE.ok
    | with_reducible exact KeepsE.error
    | with_reducible apply KeepsO.some
    | with_reducible exact KeepsO.none
    | with_reducible apply KeepsO.bind
    | with_reducible apply KeepsQ.some
    | with_reducible exact KeepsQ.none
    | with_reducible apply KeepsQ.map
    | with_reducible apply KeepsO.map
    | with_reducible apply KeepsO.getD
    | with_reducible apply KeepsP.fst
    | with_reducible apply keeps_ite
    | split
    | dsimp only
    | (intro _; intros)
    | (refine KeepsO.get ?_ (by assumption))
    | (refine KeepsE.get ?_ (by assumption))
    | (refine KeepsR.get ?_ (by assumption))
    | (refine KeepsP.get ?_ (by assumption))
    | (refine KeepsQ.get ?_ (by assumption))

theorem execImul_keeps (v : VInstr) (s : State) : KeepsR 2392078 s (execImul v s) := by
  unfold execImul
  repeat' first
    | with_reducible assumption
    | decide
    | with_reducible exact Keeps.refl _ _
    | with_reducible apply State.vbin_keeps
    | with_reducible apply keeps_whenever
    | with_reducible apply keeps_foldl
    | with_reducible apply KeepsR.next
    | with_reducible apply KeepsR.onCore
    | with_reducible apply KeepsR.onPart
    | with_reducible exact KeepsR.fault
    | with_reducible apply KeepsE.ok
    | with_reducible exact KeepsE.error
    | with_reducible apply KeepsO.some
    | with_reducible exact KeepsO.none
    | with_reducible apply KeepsO.bind
    | with_reducible apply KeepsQ.some
    | with_reducible exact KeepsQ.none
    | with_reducible apply KeepsQ.map
    | with_reducible apply KeepsO.map
    | with_reducible apply KeepsO.getD
    | with_reducible apply KeepsP.fst
    | with_reducible apply keeps_ite
    | split
    | dsimp only
    | (intro _; intros)
    | (refine KeepsO.get ?_ (by assumption))
    | (refine KeepsE.get ?_ (by assumption))
    | (refine KeepsR.get ?_ (by assumption))
    | (refine KeepsP.get ?_ (by assumption))
    | (refine KeepsQ.get ?_ (by assumption))

theorem execVecAnd_keeps (v : VInstr) (s : State) : KeepsR 2392078 s (execVecAnd v s) := by
  unfold execVecAnd
  repeat' first
    | with_reducible assumption
    | decide
    | with_reducible exact Keeps.refl _ _
    | with_reducible apply State.vbin_keeps
    | with_reducible apply keeps_whenever
    | with_reducible apply keeps_foldl
    | with_reducible apply KeepsR.next
    | with_reducible apply KeepsR.onCore
    | with_reducible apply KeepsR.onPart
    | with_reducible exact KeepsR.fault
    | with_reducible apply KeepsE.ok
    | with_reducible exact KeepsE.error
    | with_reducible apply KeepsO.some
    | with_reducible exact KeepsO.none
    | with_reducible apply KeepsO.bind
    | with_reducible apply KeepsQ.some
    | with_reducible exact KeepsQ.none
    | with_reducible apply KeepsQ.map
    | with_reducible apply KeepsO.map
    | with_reducible apply KeepsO.getD
    | with_reducible apply KeepsP.fst
    | with_reducible apply keeps_ite
    | split
    | dsimp only
    | (intro _; intros)
    | (refine KeepsO.get ?_ (by assumption))
    | (refine KeepsE.get ?_ (by assumption))
    | (refine KeepsR.get ?_ (by assumption))
    | (refine KeepsP.get ?_ (by assumption))
    | (refine KeepsQ.get ?_ (by assumption))

theorem execVecOr_keeps (v : VInstr) (s : State) : KeepsR 2392078 s (execVecOr v s) := by
  unfold execVecOr
  repeat' first
    | with_reducible assumption
    | decide
    | with_reducible exact Keeps.refl _ _
    | with_reducible apply State.vbin_keeps
    | with_reducible apply keeps_whenever
    | with_reducible apply keeps_foldl
    | with_reducible apply KeepsR.next
    | with_reducible apply KeepsR.onCore
    | with_reducible apply KeepsR.onPart
    | with_reducible exact KeepsR.fault
    | with_reducible apply KeepsE.ok
    | with_reducible exact KeepsE.error
    | with_reducible apply KeepsO.some
    | with_reducible exact KeepsO.none
    | with_reducible apply KeepsO.bind
    | with_reducible apply KeepsQ.some
    | with_reducible exact KeepsQ.none
    | with_reducible apply KeepsQ.map
    | with_reducible apply KeepsO.map
    | with_reducible apply KeepsO.getD
    | with_reducible apply KeepsP.fst
    | with_reducible apply keeps_ite
    | split
    | dsimp only
    | (intro _; intros)
    | (refine KeepsO.get ?_ (by assumption))
    | (refine KeepsE.get ?_ (by assumption))
    | (refine KeepsR.get ?_ (by assumption))
    | (refine KeepsP.get ?_ (by assumption))
    | (refine KeepsQ.get ?_ (by assumption))

theorem execVecXor_keeps (v : VInstr) (s : State) : KeepsR 2392078 s (execVecXor v s) := by
  unfold execVecXor
  repeat' first
    | with_reducible assumption
    | decide
    | with_reducible exact Keeps.refl _ _
    | with_reducible apply State.vbin_keeps
    | with_reducible apply keeps_whenever
    | with_reducible apply keeps_foldl
    | with_reducible apply KeepsR.next
    | with_reducible apply KeepsR.onCore
    | with_reducible apply KeepsR.onPart
    | with_reducible exact KeepsR.fault
    | with_reducible apply KeepsE.ok
    | with_reducible exact KeepsE.error
    | with_reducible apply KeepsO.some
    | with_reducible exact KeepsO.none
    | with_reducible apply KeepsO.bind
    | with_reducible apply KeepsQ.some
    | with_reducible exact KeepsQ.none
    | with_reducible apply KeepsQ.map
    | with_reducible apply KeepsO.map
    | with_reducible apply KeepsO.getD
    | with_reducible apply KeepsP.fst
    | with_reducible apply keeps_ite
    | split
    | dsimp only
    | (intro _; intros)
    | (refine KeepsO.get ?_ (by assumption))
    | (refine KeepsE.get ?_ (by assumption))
    | (refine KeepsR.get ?_ (by assumption))
    | (refine KeepsP.get ?_ (by assumption))
    | (refine KeepsQ.get ?_ (by assumption))

theorem execVecShl_keeps (v : VInstr) (s : State) : KeepsR 2392078 s (execVecShl v s) := by
  unfold execVecShl
  repeat' first
    | with_reducible assumption
    | decide
    | with_reducible exact Keeps.refl _ _
    | with_reducible apply State.vbin_keeps
    | with_reducible apply keeps_whenever
    | with_reducible apply keeps_foldl
    | with_reducible apply KeepsR.next
    | with_reducible apply KeepsR.onCore
    | with_reducible apply KeepsR.onPart
    | with_reducible exact KeepsR.fault
    | with_reducible apply KeepsE.ok
    | with_reducible exact KeepsE.error
    | with_reducible apply KeepsO.some
    | with_reducible exact KeepsO.none
    | with_reducible apply KeepsO.bind
    | with_reducible apply KeepsQ.some
    | with_reducible exact KeepsQ.none
    | with_reducible apply KeepsQ.map
    | with_reducible apply KeepsO.map
    | with_reducible apply KeepsO.getD
    | with_reducible apply KeepsP.fst
    | with_reducible apply keeps_ite
    | split
    | dsimp only
    | (intro _; intros)
    | (refine KeepsO.get ?_ (by assumption))
    | (refine KeepsE.get ?_ (by assumption))
    | (refine KeepsR.get ?_ (by assumption))
    | (refine KeepsP.get ?_ (by assumption))
    | (refine KeepsQ.get ?_ (by assumption))

theorem execVecShr_keeps (v : VInstr) (s : State) : KeepsR 2392078 s (execVecShr v s) := by
  unfold execVecShr
  repeat' first
    | with_reducible assumption
    | decide
    | with_reducible exact Keeps.refl _ _
    | with_reducible apply State.vbin_keeps
    | with_reducible apply keeps_whenever
    | with_reducible apply keeps_foldl
    | with_reducible apply KeepsR.next
    | with_reducible apply KeepsR.onCore
    | with_reducible apply KeepsR.onPart
    | with_reducible exact KeepsR.fault
    | with_reducible apply KeepsE.ok
    | with_reducible exact KeepsE.error
    | with_reducible apply KeepsO.some
    | with_reducible exact KeepsO.none
    | with_reducible apply KeepsO.bind
    | with_reducible apply KeepsQ.some
    | with_reducible exact KeepsQ.none
    | with_reducible apply KeepsQ.map
    | with_reducible apply KeepsO.map
    | with_reducible apply KeepsO.getD
    | with_reducible apply KeepsP.fst
    | with_reducible apply keeps_ite
    | split
    | dsimp only
    | (intro _; intros)
    | (refine KeepsO.get ?_ (by assumption))
    | (refine KeepsE.get ?_ (by assumption))
    | (refine KeepsR.get ?_ (by assumption))
    | (refine KeepsP.get ?_ (by assumption))
    | (refine KeepsQ.get ?_ (by assumption))

theorem execVecSar_keeps (v : VInstr) (s : State) : KeepsR 2392078 s (execVecSar v s) := by
  unfold execVecSar
  repeat' first
    | with_reducible assumption
    | decide
    | with_reducible exact Keeps.refl _ _
    | with_reducible apply State.vbin_keeps
    | with_reducible apply keeps_whenever
    | with_reducible apply keeps_foldl
    | with_reducible apply KeepsR.next
    | with_reducible apply KeepsR.onCore
    | with_reducible apply KeepsR.onPart
    | with_reducible exact KeepsR.fault
    | with_reducible apply KeepsE.ok
    | with_reducible exact KeepsE.error
    | with_reducible apply KeepsO.some
    | with_reducible exact KeepsO.none
    | with_reducible apply KeepsO.bind
    | with_reducible apply KeepsQ.some
    | with_reducible exact KeepsQ.none
    | with_reducible apply KeepsQ.map
    | with_reducible apply KeepsO.map
    | with_reducible apply KeepsO.getD
    | with_reducible apply KeepsP.fst
    | with_reducible apply keeps_ite
    | split
    | dsimp only
    | (intro _; intros)
    | (refine KeepsO.get ?_ (by assumption))
    | (refine KeepsE.get ?_ (by assumption))
    | (refine KeepsR.get ?_ (by assumption))
    | (refine KeepsP.get ?_ (by assumption))
    | (refine KeepsQ.get ?_ (by assumption))

theorem execImin_keeps (v : VInstr) (s : State) : KeepsR 2392078 s (execImin v s) := by
  unfold execImin
  repeat' first
    | with_reducible assumption
    | decide
    | with_reducible exact Keeps.refl _ _
    | with_reducible apply State.vbin_keeps
    | with_reducible apply keeps_whenever
    | with_reducible apply keeps_foldl
    | with_reducible apply KeepsR.next
    | with_reducible apply KeepsR.onCore
    | with_reducible apply KeepsR.onPart
    | with_reducible exact KeepsR.fault
    | with_reducible apply KeepsE.ok
    | with_reducible exact KeepsE.error
    | with_reducible apply KeepsO.some
    | with_reducible exact KeepsO.none
    | with_reducible apply KeepsO.bind
    | with_reducible apply KeepsQ.some
    | with_reducible exact KeepsQ.none
    | with_reducible apply KeepsQ.map
    | with_reducible apply KeepsO.map
    | with_reducible apply KeepsO.getD
    | with_reducible apply KeepsP.fst
    | with_reducible apply keeps_ite
    | split
    | dsimp only
    | (intro _; intros)
    | (refine KeepsO.get ?_ (by assumption))
    | (refine KeepsE.get ?_ (by assumption))
    | (refine KeepsR.get ?_ (by assumption))
    | (refine KeepsP.get ?_ (by assumption))
    | (refine KeepsQ.get ?_ (by assumption))

theorem execImax_keeps (v : VInstr) (s : State) : KeepsR 2392078 s (execImax v s) := by
  unfold execImax
  repeat' first
    | with_reducible assumption
    | decide
    | with_reducible exact Keeps.refl _ _
    | with_reducible apply State.vbin_keeps
    | with_reducible apply keeps_whenever
    | with_reducible apply keeps_foldl
    | with_reducible apply KeepsR.next
    | with_reducible apply KeepsR.onCore
    | with_reducible apply KeepsR.onPart
    | with_reducible exact KeepsR.fault
    | with_reducible apply KeepsE.ok
    | with_reducible exact KeepsE.error
    | with_reducible apply KeepsO.some
    | with_reducible exact KeepsO.none
    | with_reducible apply KeepsO.bind
    | with_reducible apply KeepsQ.some
    | with_reducible exact KeepsQ.none
    | with_reducible apply KeepsQ.map
    | with_reducible apply KeepsO.map
    | with_reducible apply KeepsO.getD
    | with_reducible apply KeepsP.fst
    | with_reducible apply keeps_ite
    | split
    | dsimp only
    | (intro _; intros)
    | (refine KeepsO.get ?_ (by assumption))
    | (refine KeepsE.get ?_ (by assumption))
    | (refine KeepsR.get ?_ (by assumption))
    | (refine KeepsP.get ?_ (by assumption))
    | (refine KeepsQ.get ?_ (by assumption))

theorem execIcmp_keeps (v : VInstr) (s : State) : KeepsR 2392078 s (execIcmp v s) := by
  unfold execIcmp
  repeat' first
    | with_reducible assumption
    | decide
    | with_reducible exact Keeps.refl _ _
    | with_reducible apply State.vcmp_keeps
    | with_reducible apply keeps_whenever
    | with_reducible apply keeps_foldl
    | with_reducible apply KeepsR.next
    | with_reducible apply KeepsR.onCore
    | with_reducible apply KeepsR.onPart
    | with_reducible exact KeepsR.fault
    | with_reducible apply KeepsE.ok
    | with_reducible exact KeepsE.error
    | with_reducible apply KeepsO.some
    | with_reducible exact KeepsO.none
    | with_reducible apply KeepsO.bind
    | with_reducible apply KeepsQ.some
    | with_reducible exact KeepsQ.none
    | with_reducible apply KeepsQ.map
    | with_reducible apply KeepsO.map
    | with_reducible apply KeepsO.getD
    | with_reducible apply KeepsP.fst
    | with_reducible apply keeps_ite
    | split
    | dsimp only
    | (intro _; intros)
    | (refine KeepsO.get ?_ (by assumption))
    | (refine KeepsE.get ?_ (by assumption))
    | (refine KeepsR.get ?_ (by assumption))
    | (refine KeepsP.get ?_ (by assumption))
    | (refine KeepsQ.get ?_ (by assumption))

theorem execCvtF32I32_keeps (v : VInstr) (s : State) : KeepsR 2392078 s (execCvtF32I32 v s) := by
  unfold execCvtF32I32
  repeat' first
    | with_reducible assumption
    | decide
    | with_reducible exact Keeps.refl _ _
    | with_reducible apply State.vun_keeps
    | with_reducible apply keeps_whenever
    | with_reducible apply keeps_foldl
    | with_reducible apply KeepsR.next
    | with_reducible apply KeepsR.onCore
    | with_reducible apply KeepsR.onPart
    | with_reducible exact KeepsR.fault
    | with_reducible apply KeepsE.ok
    | with_reducible exact KeepsE.error
    | with_reducible apply KeepsO.some
    | with_reducible exact KeepsO.none
    | with_reducible apply KeepsO.bind
    | with_reducible apply KeepsQ.some
    | with_reducible exact KeepsQ.none
    | with_reducible apply KeepsQ.map
    | with_reducible apply KeepsO.map
    | with_reducible apply KeepsO.getD
    | with_reducible apply KeepsP.fst
    | with_reducible apply keeps_ite
    | split
    | dsimp only
    | (intro _; intros)
    | (refine KeepsO.get ?_ (by assumption))
    | (refine KeepsE.get ?_ (by assumption))
    | (refine KeepsR.get ?_ (by assumption))
    | (refine KeepsP.get ?_ (by assumption))
    | (refine KeepsQ.get ?_ (by assumption))

theorem execCvtI32F32_keeps (v : VInstr) (s : State) : KeepsR 2392078 s (execCvtI32F32 v s) := by
  unfold execCvtI32F32
  repeat' first
    | with_reducible assumption
    | decide
    | with_reducible exact Keeps.refl _ _
    | with_reducible apply State.vun_keeps
    | with_reducible apply keeps_whenever
    | with_reducible apply keeps_foldl
    | with_reducible apply KeepsR.next
    | with_reducible apply KeepsR.onCore
    | with_reducible apply KeepsR.onPart
    | with_reducible exact KeepsR.fault
    | with_reducible apply KeepsE.ok
    | with_reducible exact KeepsE.error
    | with_reducible apply KeepsO.some
    | with_reducible exact KeepsO.none
    | with_reducible apply KeepsO.bind
    | with_reducible apply KeepsQ.some
    | with_reducible exact KeepsQ.none
    | with_reducible apply KeepsQ.map
    | with_reducible apply KeepsO.map
    | with_reducible apply KeepsO.getD
    | with_reducible apply KeepsP.fst
    | with_reducible apply keeps_ite
    | split
    | dsimp only
    | (intro _; intros)
    | (refine KeepsO.get ?_ (by assumption))
    | (refine KeepsE.get ?_ (by assumption))
    | (refine KeepsR.get ?_ (by assumption))
    | (refine KeepsP.get ?_ (by assumption))
    | (refine KeepsQ.get ?_ (by assumption))

theorem execCvtBf16F32_keeps (v : VInstr) (s : State) : KeepsR 2392078 s (execCvtBf16F32 v s) := by
  unfold execCvtBf16F32
  repeat' first
    | with_reducible assumption
    | decide
    | with_reducible exact Keeps.refl _ _
    | with_reducible apply State.vun_keeps
    | with_reducible apply keeps_whenever
    | with_reducible apply keeps_foldl
    | with_reducible apply KeepsR.next
    | with_reducible apply KeepsR.onCore
    | with_reducible apply KeepsR.onPart
    | with_reducible exact KeepsR.fault
    | with_reducible apply KeepsE.ok
    | with_reducible exact KeepsE.error
    | with_reducible apply KeepsO.some
    | with_reducible exact KeepsO.none
    | with_reducible apply KeepsO.bind
    | with_reducible apply KeepsQ.some
    | with_reducible exact KeepsQ.none
    | with_reducible apply KeepsQ.map
    | with_reducible apply KeepsO.map
    | with_reducible apply KeepsO.getD
    | with_reducible apply KeepsP.fst
    | with_reducible apply keeps_ite
    | split
    | dsimp only
    | (intro _; intros)
    | (refine KeepsO.get ?_ (by assumption))
    | (refine KeepsE.get ?_ (by assumption))
    | (refine KeepsR.get ?_ (by assumption))
    | (refine KeepsP.get ?_ (by assumption))
    | (refine KeepsQ.get ?_ (by assumption))

theorem execCvtF32Bf16_keeps (v : VInstr) (s : State) : KeepsR 2392078 s (execCvtF32Bf16 v s) := by
  unfold execCvtF32Bf16
  repeat' first
    | with_reducible assumption
    | decide
    | with_reducible exact Keeps.refl _ _
    | with_reducible apply State.vun_keeps
    | with_reducible apply keeps_whenever
    | with_reducible apply keeps_foldl
    | with_reducible apply KeepsR.next
    | with_reducible apply KeepsR.onCore
    | with_reducible apply KeepsR.onPart
    | with_reducible exact KeepsR.fault
    | with_reducible apply KeepsE.ok
    | with_reducible exact KeepsE.error
    | with_reducible apply KeepsO.some
    | with_reducible exact KeepsO.none
    | with_reducible apply KeepsO.bind
    | with_reducible apply KeepsQ.some
    | with_reducible exact KeepsQ.none
    | with_reducible apply KeepsQ.map
    | with_reducible apply KeepsO.map
    | with_reducible apply KeepsO.getD
    | with_reducible apply KeepsP.fst
    | with_reducible apply keeps_ite
    | split
    | dsimp only
    | (intro _; intros)
    | (refine KeepsO.get ?_ (by assumption))
    | (refine KeepsE.get ?_ (by assumption))
    | (refine KeepsR.get ?_ (by assumption))
    | (refine KeepsP.get ?_ (by assumption))
    | (refine KeepsQ.get ?_ (by assumption))

theorem execSadd_keeps (v : VInstr) (s : State) : KeepsR 2392078 s (execSadd v s) := by
  unfold execSadd
  repeat' first
    | with_reducible assumption
    | decide
    | with_reducible exact Keeps.refl _ _
    | with_reducible apply State.vlanes_keeps
    | with_reducible apply keeps_whenever
    | with_reducible apply keeps_foldl
    | with_reducible apply KeepsR.next
    | with_reducible apply KeepsR.onCore
    | with_reducible apply KeepsR.onPart
    | with_reducible exact KeepsR.fault
    | with_reducible apply KeepsE.ok
    | with_reducible exact KeepsE.error
    | with_reducible apply KeepsO.some
    | with_reducible exact KeepsO.none
    | with_reducible apply KeepsO.bind
    | with_reducible apply KeepsQ.some
    | with_reducible exact KeepsQ.none
    | with_reducible apply KeepsQ.map
    | with_reducible apply KeepsO.map
    | with_reducible apply KeepsO.getD
    | with_reducible apply KeepsP.fst
    | with_reducible apply keeps_ite
    | split
    | dsimp only
    | (intro _; intros)
    | (refine KeepsO.get ?_ (by assumption))
    | (refine KeepsE.get ?_ (by assumption))
    | (refine KeepsR.get ?_ (by assumption))
    | (refine KeepsP.get ?_ (by assumption))
    | (refine KeepsQ.get ?_ (by assumption))

theorem execSaddw_keeps (v : VInstr) (s : State) : KeepsR 2392078 s (execSaddw v s) := by
  unfold execSaddw
  repeat' first
    | with_reducible assumption
    | decide
    | with_reducible exact Keeps.refl _ _
    | with_reducible apply State.vlanes_keeps
    | with_reducible apply keeps_whenever
    | with_reducible apply keeps_foldl
    | with_reducible apply KeepsR.next
    | with_reducible apply KeepsR.onCore
    | with_reducible apply KeepsR.onPart
    | with_reducible exact KeepsR.fault
    | with_reducible apply KeepsE.ok
    | with_reducible exact KeepsE.error
    | with_reducible apply KeepsO.some
    | with_reducible exact KeepsO.none
    | with_reducible apply KeepsO.bind
    | with_reducible apply KeepsQ.some
    | with_reducible exact KeepsQ.none
    | with_reducible apply KeepsQ.map
    | with_reducible apply KeepsO.map
    | with_reducible apply KeepsO.getD
    | with_reducible apply KeepsP.fst
    | with_reducible apply keeps_ite
    | split
    | dsimp only
    | (intro _; intros)
    | (refine KeepsO.get ?_ (by assumption))
    | (refine KeepsE.get ?_ (by assumption))
    | (refine KeepsR.get ?_ (by assumption))
    | (refine KeepsP.get ?_ (by assumption))
    | (refine KeepsQ.get ?_ (by assumption))

theorem execScvt_keeps (v : VInstr) (s : State) : KeepsR 2392078 s (execScvt v s) := by
  unfold execScvt
  repeat' first
    | with_reducible assumption
    | decide
    | with_reducible exact Keeps.refl _ _
    | with_reducible apply State.vlanes_keeps
    | with_reducible apply keeps_whenever
    | with_reducible apply keeps_foldl
    | with_reducible apply KeepsR.next
    | with_reducible apply KeepsR.onCore
    | with_reducible apply KeepsR.onPart
    | with_reducible exact KeepsR.fault
    | with_reducible apply KeepsE.ok
    | with_reducible exact KeepsE.error
    | with_reducible apply KeepsO.some
    | with_reducible exact KeepsO.none
    | with_reducible apply KeepsO.bind
    | with_reducible apply KeepsQ.some
    | with_reducible exact KeepsQ.none
    | with_reducible apply KeepsQ.map
    | with_reducible apply KeepsO.map
    | with_reducible apply KeepsO.getD
    | with_reducible apply KeepsP.fst
    | with_reducible apply keeps_ite
    | split
    | dsimp only
    | (intro _; intros)
    | (refine KeepsO.get ?_ (by assumption))
    | (refine KeepsE.get ?_ (by assumption))
    | (refine KeepsR.get ?_ (by assumption))
    | (refine KeepsP.get ?_ (by assumption))
    | (refine KeepsQ.get ?_ (by assumption))

theorem execSclr_keeps (v : VInstr) (s : State) : KeepsR 2392078 s (execSclr v s) := by
  unfold execSclr
  repeat' first
    | with_reducible assumption
    | decide
    | with_reducible exact Keeps.refl _ _
    | with_reducible apply State.vlanes_keeps
    | with_reducible apply keeps_whenever
    | with_reducible apply keeps_foldl
    | with_reducible apply KeepsR.next
    | with_reducible apply KeepsR.onCore
    | with_reducible apply KeepsR.onPart
    | with_reducible exact KeepsR.fault
    | with_reducible apply KeepsE.ok
    | with_reducible exact KeepsE.error
    | with_reducible apply KeepsO.some
    | with_reducible exact KeepsO.none
    | with_reducible apply KeepsO.bind
    | with_reducible apply KeepsQ.some
    | with_reducible exact KeepsQ.none
    | with_reducible apply KeepsQ.map
    | with_reducible apply KeepsO.map
    | with_reducible apply KeepsO.getD
    | with_reducible apply KeepsP.fst
    | with_reducible apply keeps_ite
    | split
    | dsimp only
    | (intro _; intros)
    | (refine KeepsO.get ?_ (by assumption))
    | (refine KeepsE.get ?_ (by assumption))
    | (refine KeepsR.get ?_ (by assumption))
    | (refine KeepsP.get ?_ (by assumption))
    | (refine KeepsQ.get ?_ (by assumption))

theorem execMxcvt_keeps (v : VInstr) (s : State) : KeepsR 2392078 s (execMxcvt v s) := by
  unfold execMxcvt
  repeat' first
    | with_reducible assumption
    | decide
    | with_reducible exact Keeps.refl _ _
    | with_reducible apply State.onCoreState_keeps
    | with_reducible apply State.vec_keeps
    | with_reducible apply keeps_whenever
    | with_reducible apply keeps_foldl
    | with_reducible apply KeepsR.next
    | with_reducible apply KeepsR.onCore
    | with_reducible apply KeepsR.onPart
    | with_reducible exact KeepsR.fault
    | with_reducible apply KeepsE.ok
    | with_reducible exact KeepsE.error
    | with_reducible apply KeepsO.some
    | with_reducible exact KeepsO.none
    | with_reducible apply KeepsO.bind
    | with_reducible apply KeepsQ.some
    | with_reducible exact KeepsQ.none
    | with_reducible apply KeepsQ.map
    | with_reducible apply KeepsO.map
    | with_reducible apply KeepsO.getD
    | with_reducible apply KeepsP.fst
    | with_reducible apply keeps_ite
    | split
    | dsimp only
    | (intro _; intros)
    | (refine KeepsO.get ?_ (by assumption))
    | (refine KeepsE.get ?_ (by assumption))
    | (refine KeepsR.get ?_ (by assumption))
    | (refine KeepsP.get ?_ (by assumption))
    | (refine KeepsQ.get ?_ (by assumption))

theorem execMxld_keeps (v : VInstr) (s : State) : KeepsR 2392078 s (execMxld v s) := by
  unfold execMxld
  repeat' first
    | with_reducible assumption
    | decide
    | with_reducible exact Keeps.refl _ _
    | with_reducible apply State.onCoreState_keeps
    | with_reducible apply State.vec_keeps
    | with_reducible apply keeps_whenever
    | with_reducible apply keeps_foldl
    | with_reducible apply KeepsR.next
    | with_reducible apply KeepsR.onCore
    | with_reducible apply KeepsR.onPart
    | with_reducible exact KeepsR.fault
    | with_reducible apply KeepsE.ok
    | with_reducible exact KeepsE.error
    | with_reducible apply KeepsO.some
    | with_reducible exact KeepsO.none
    | with_reducible apply KeepsO.bind
    | with_reducible apply KeepsQ.some
    | with_reducible exact KeepsQ.none
    | with_reducible apply KeepsQ.map
    | with_reducible apply KeepsO.map
    | with_reducible apply KeepsO.getD
    | with_reducible apply KeepsP.fst
    | with_reducible apply keeps_ite
    | split
    | dsimp only
    | (intro _; intros)
    | (refine KeepsO.get ?_ (by assumption))
    | (refine KeepsE.get ?_ (by assumption))
    | (refine KeepsR.get ?_ (by assumption))
    | (refine KeepsP.get ?_ (by assumption))
    | (refine KeepsQ.get ?_ (by assumption))

theorem execVld_keeps (v : VInstr) (s : State) : KeepsR 2392078 s (execVld v s) := by
  unfold execVld
  repeat' first
    | with_reducible assumption
    | decide
    | with_reducible exact Keeps.refl _ _
    | with_reducible apply State.onCoreState_keeps
    | with_reducible apply State.vec_keeps
    | with_reducible apply keeps_whenever
    | with_reducible apply keeps_foldl
    | with_reducible apply KeepsR.next
    | with_reducible apply KeepsR.onCore
    | with_reducible apply KeepsR.onPart
    | with_reducible exact KeepsR.fault
    | with_reducible apply KeepsE.ok
    | with_reducible exact KeepsE.error
    | with_reducible apply KeepsO.some
    | with_reducible exact KeepsO.none
    | with_reducible apply KeepsO.bind
    | with_reducible apply KeepsQ.some
    | with_reducible exact KeepsQ.none
    | with_reducible apply KeepsQ.map
    | with_reducible apply KeepsO.map
    | with_reducible apply KeepsO.getD
    | with_reducible apply KeepsP.fst
    | with_reducible apply keeps_ite
    | split
    | dsimp only
    | (intro _; intros)
    | (refine KeepsO.get ?_ (by assumption))
    | (refine KeepsE.get ?_ (by assumption))
    | (refine KeepsR.get ?_ (by assumption))
    | (refine KeepsP.get ?_ (by assumption))
    | (refine KeepsQ.get ?_ (by assumption))

theorem execVst_keeps (v : VInstr) (s : State) : KeepsR 2392078 s (execVst v s) := by
  unfold execVst
  repeat' first
    | with_reducible assumption
    | decide
    | with_reducible exact Keeps.refl _ _
    | with_reducible apply State.onCoreState_keeps
    | with_reducible apply State.vec_keeps
    | with_reducible apply keeps_whenever
    | with_reducible apply keeps_foldl
    | with_reducible apply KeepsR.next
    | with_reducible apply KeepsR.onCore
    | with_reducible apply KeepsR.onPart
    | with_reducible exact KeepsR.fault
    | with_reducible apply KeepsE.ok
    | with_reducible exact KeepsE.error
    | with_reducible apply KeepsO.some
    | with_reducible exact KeepsO.none
    | with_reducible apply KeepsO.bind
    | with_reducible apply KeepsQ.some
    | with_reducible exact KeepsQ.none
    | with_reducible apply KeepsQ.map
    | with_reducible apply KeepsO.map
    | with_reducible apply KeepsO.getD
    | with_reducible apply KeepsP.fst
    | with_reducible apply keeps_ite
    | split
    | dsimp only
    | (intro _; intros)
    | (refine KeepsO.get ?_ (by assumption))
    | (refine KeepsE.get ?_ (by assumption))
    | (refine KeepsR.get ?_ (by assumption))
    | (refine KeepsP.get ?_ (by assumption))
    | (refine KeepsQ.get ?_ (by assumption))

theorem execVlatom_keeps (v : VInstr) (s : State) : KeepsR 2392078 s (execVlatom v s) := by
  unfold execVlatom
  repeat' first
    | with_reducible assumption
    | decide
    | with_reducible exact Keeps.refl _ _
    | with_reducible apply State.onCoreState_keeps
    | with_reducible apply State.vec_keeps
    | with_reducible apply keeps_whenever
    | with_reducible apply keeps_foldl
    | with_reducible apply KeepsR.next
    | with_reducible apply KeepsR.onCore
    | with_reducible apply KeepsR.onPart
    | with_reducible exact KeepsR.fault
    | with_reducible apply KeepsE.ok
    | with_reducible exact KeepsE.error
    | with_reducible apply KeepsO.some
    | with_reducible exact KeepsO.none
    | with_reducible apply KeepsO.bind
    | with_reducible apply KeepsQ.some
    | with_reducible exact KeepsQ.none
    | with_reducible apply KeepsQ.map
    | with_reducible apply KeepsO.map
    | with_reducible apply KeepsO.getD
    | with_reducible apply KeepsP.fst
    | with_reducible apply keeps_ite
    | split
    | dsimp only
    | (intro _; intros)
    | (refine KeepsO.get ?_ (by assumption))
    | (refine KeepsE.get ?_ (by assumption))
    | (refine KeepsR.get ?_ (by assumption))
    | (refine KeepsP.get ?_ (by assumption))
    | (refine KeepsQ.get ?_ (by assumption))

theorem State.vwait_keeps {fpm : Nat} {z : State} (s : State) (v : VInstr) (hfp : 2392078 ||| fpm = fpm)
    (hk : Keeps fpm z s) : Keeps fpm z (State.vwait s v) := by
  refine Keeps.step ?_ hfp hk
  unfold State.vwait
  repeat' first
    | with_reducible assumption
    | decide
    | with_reducible exact Keeps.refl _ _
    | with_reducible apply State.vec_keeps
    | with_reducible apply keeps_whenever
    | with_reducible apply keeps_foldl
    | with_reducible apply KeepsE.ok
    | with_reducible exact KeepsE.error
    | with_reducible apply KeepsO.some
    | with_reducible exact KeepsO.none
    | with_reducible apply KeepsO.bind
    | with_reducible apply KeepsQ.some
    | with_reducible exact KeepsQ.none
    | with_reducible apply KeepsQ.map
    | with_reducible apply KeepsO.map
    | with_reducible apply KeepsO.getD
    | with_reducible apply KeepsP.fst
    | with_reducible apply keeps_ite
    | split
    | dsimp only
    | (intro _; intros)
    | (refine KeepsO.get ?_ (by assumption))
    | (refine KeepsE.get ?_ (by assumption))
    | (refine KeepsR.get ?_ (by assumption))
    | (refine KeepsP.get ?_ (by assumption))
    | (refine KeepsQ.get ?_ (by assumption))

theorem execVtld_keeps (v : VInstr) (s : State) : KeepsR 2392078 s (execVtld v s) := by
  unfold execVtld
  repeat' first
    | with_reducible assumption
    | decide
    | with_reducible exact Keeps.refl _ _
    | with_reducible apply State.vlanes_keeps
    | with_reducible apply State.vwait_keeps
    | with_reducible apply keeps_whenever
    | with_reducible apply keeps_foldl
    | with_reducible apply KeepsR.next
    | with_reducible apply KeepsR.onCore
    | with_reducible apply KeepsR.onPart
    | with_reducible exact KeepsR.fault
    | with_reducible apply KeepsE.ok
    | with_reducible exact KeepsE.error
    | with_reducible apply KeepsO.some
    | with_reducible exact KeepsO.none
    | with_reducible apply KeepsO.bind
    | with_reducible apply KeepsQ.some
    | with_reducible exact KeepsQ.none
    | with_reducible apply KeepsQ.map
    | with_reducible apply KeepsO.map
    | with_reducible apply KeepsO.getD
    | with_reducible apply KeepsP.fst
    | with_reducible apply keeps_ite
    | split
    | dsimp only
    | (intro _; intros)
    | (refine KeepsO.get ?_ (by assumption))
    | (refine KeepsE.get ?_ (by assumption))
    | (refine KeepsR.get ?_ (by assumption))
    | (refine KeepsP.get ?_ (by assumption))
    | (refine KeepsQ.get ?_ (by assumption))

theorem execVthdr_keeps (v : VInstr) (s : State) : KeepsR 2392078 s (execVthdr v s) := by
  unfold execVthdr
  repeat' first
    | with_reducible assumption
    | decide
    | with_reducible exact Keeps.refl _ _
    | with_reducible apply State.vlanes_keeps
    | with_reducible apply State.vwait_keeps
    | with_reducible apply keeps_whenever
    | with_reducible apply keeps_foldl
    | with_reducible apply KeepsR.next
    | with_reducible apply KeepsR.onCore
    | with_reducible apply KeepsR.onPart
    | with_reducible exact KeepsR.fault
    | with_reducible apply KeepsE.ok
    | with_reducible exact KeepsE.error
    | with_reducible apply KeepsO.some
    | with_reducible exact KeepsO.none
    | with_reducible apply KeepsO.bind
    | with_reducible apply KeepsQ.some
    | with_reducible exact KeepsQ.none
    | with_reducible apply KeepsQ.map
    | with_reducible apply KeepsO.map
    | with_reducible apply KeepsO.getD
    | with_reducible apply KeepsP.fst
    | with_reducible apply keeps_ite
    | split
    | dsimp only
    | (intro _; intros)
    | (refine KeepsO.get ?_ (by assumption))
    | (refine KeepsE.get ?_ (by assumption))
    | (refine KeepsR.get ?_ (by assumption))
    | (refine KeepsP.get ?_ (by assumption))
    | (refine KeepsQ.get ?_ (by assumption))

theorem execVtrel_keeps (v : VInstr) (s : State) : KeepsR 2392078 s (execVtrel v s) := by
  unfold execVtrel
  repeat' first
    | with_reducible assumption
    | decide
    | with_reducible exact Keeps.refl _ _
    | with_reducible apply State.onCoreState_keeps
    | with_reducible apply State.vec_keeps
    | with_reducible apply keeps_whenever
    | with_reducible apply keeps_foldl
    | with_reducible apply KeepsR.next
    | with_reducible apply KeepsR.onCore
    | with_reducible apply KeepsR.onPart
    | with_reducible exact KeepsR.fault
    | with_reducible apply KeepsE.ok
    | with_reducible exact KeepsE.error
    | with_reducible apply KeepsO.some
    | with_reducible exact KeepsO.none
    | with_reducible apply KeepsO.bind
    | with_reducible apply KeepsQ.some
    | with_reducible exact KeepsQ.none
    | with_reducible apply KeepsQ.map
    | with_reducible apply KeepsO.map
    | with_reducible apply KeepsO.getD
    | with_reducible apply KeepsP.fst
    | with_reducible apply keeps_ite
    | split
    | dsimp only
    | (intro _; intros)
    | (refine KeepsO.get ?_ (by assumption))
    | (refine KeepsE.get ?_ (by assumption))
    | (refine KeepsR.get ?_ (by assumption))
    | (refine KeepsP.get ?_ (by assumption))
    | (refine KeepsQ.get ?_ (by assumption))

theorem execVbr_keeps (v : VInstr) (s : State) : KeepsR 2392078 s (execVbr v s) := by
  unfold execVbr
  repeat' first
    | with_reducible assumption
    | decide
    | with_reducible exact Keeps.refl _ _
    | with_reducible apply State.onCoreState_keeps
    | with_reducible apply State.vec_keeps
    | with_reducible apply keeps_whenever
    | with_reducible apply keeps_foldl
    | with_reducible apply KeepsR.next
    | with_reducible apply KeepsR.onCore
    | with_reducible apply KeepsR.onPart
    | with_reducible exact KeepsR.fault
    | with_reducible apply KeepsE.ok
    | with_reducible exact KeepsE.error
    | with_reducible apply KeepsO.some
    | with_reducible exact KeepsO.none
    | with_reducible apply KeepsO.bind
    | with_reducible apply KeepsQ.some
    | with_reducible exact KeepsQ.none
    | with_reducible apply KeepsQ.map
    | with_reducible apply KeepsO.map
    | with_reducible apply KeepsO.getD
    | with_reducible apply KeepsP.fst
    | with_reducible apply keeps_ite
    | split
    | dsimp only
    | (intro _; intros)
    | (refine KeepsO.get ?_ (by assumption))
    | (refine KeepsE.get ?_ (by assumption))
    | (refine KeepsR.get ?_ (by assumption))
    | (refine KeepsP.get ?_ (by assumption))
    | (refine KeepsQ.get ?_ (by assumption))

theorem execVbar_keeps (v : VInstr) (s : State) : KeepsR 2392078 s (execVbar v s) := by
  unfold execVbar
  repeat' first
    | with_reducible assumption
    | decide
    | with_reducible exact Keeps.refl _ _
    | with_reducible apply State.onCoreState_keeps
    | with_reducible apply State.settle_keeps
    | with_reducible apply State.vec_keeps
    | with_reducible apply keeps_whenever
    | with_reducible apply keeps_foldl
    | with_reducible apply KeepsR.next
    | with_reducible apply KeepsR.onCore
    | with_reducible apply KeepsR.onPart
    | with_reducible exact KeepsR.fault
    | with_reducible apply KeepsE.ok
    | with_reducible exact KeepsE.error
    | with_reducible apply KeepsO.some
    | with_reducible exact KeepsO.none
    | with_reducible apply KeepsO.bind
    | with_reducible apply KeepsQ.some
    | with_reducible exact KeepsQ.none
    | with_reducible apply KeepsQ.map
    | with_reducible apply KeepsO.map
    | with_reducible apply KeepsO.getD
    | with_reducible apply KeepsP.fst
    | with_reducible apply keeps_ite
    | split
    | dsimp only
    | (intro _; intros)
    | (refine KeepsO.get ?_ (by assumption))
    | (refine KeepsE.get ?_ (by assumption))
    | (refine KeepsR.get ?_ (by assumption))
    | (refine KeepsP.get ?_ (by assumption))
    | (refine KeepsQ.get ?_ (by assumption))

theorem execVeBarrier_keeps (c g bar : Nat) (s : State) : KeepsR 32774 s (execVeBarrier c g bar s) := by
  unfold execVeBarrier
  repeat' first
    | with_reducible assumption
    | decide
    | with_reducible exact Keeps.refl _ _
    | with_reducible apply State.coreFault_keeps
    | with_reducible apply keeps_whenever
    | with_reducible apply keeps_foldl
    | with_reducible apply KeepsR.next
    | with_reducible apply KeepsR.onCore
    | with_reducible apply KeepsR.onPart
    | with_reducible exact KeepsR.fault
    | with_reducible apply KeepsE.ok
    | with_reducible exact KeepsE.error
    | with_reducible apply KeepsO.some
    | with_reducible exact KeepsO.none
    | with_reducible apply KeepsO.bind
    | with_reducible apply KeepsQ.some
    | with_reducible exact KeepsQ.none
    | with_reducible apply KeepsQ.map
    | with_reducible apply KeepsO.map
    | with_reducible apply KeepsO.getD
    | with_reducible apply KeepsP.fst
    | with_reducible apply keeps_ite
    | split
    | dsimp only
    | (intro _; intros)
    | (refine KeepsO.get ?_ (by assumption))
    | (refine KeepsE.get ?_ (by assumption))
    | (refine KeepsR.get ?_ (by assumption))
    | (refine KeepsP.get ?_ (by assumption))
    | (refine KeepsQ.get ?_ (by assumption))

theorem execVexit_keeps (v : VInstr) (s : State) : KeepsR 2392078 s (execVexit v s) := by
  unfold execVexit
  repeat' first
    | with_reducible assumption
    | decide
    | with_reducible exact Keeps.refl _ _
    | with_reducible apply State.onCoreState_keeps
    | with_reducible apply State.settle_keeps
    | with_reducible apply State.vec_keeps
    | with_reducible apply keeps_whenever
    | with_reducible apply keeps_foldl
    | with_reducible apply KeepsR.next
    | with_reducible apply KeepsR.onCore
    | with_reducible apply KeepsR.onPart
    | with_reducible exact KeepsR.fault
    | with_reducible apply KeepsE.ok
    | with_reducible exact KeepsE.error
    | with_reducible apply KeepsO.some
    | with_reducible exact KeepsO.none
    | with_reducible apply KeepsO.bind
    | with_reducible apply KeepsQ.some
    | with_reducible exact KeepsQ.none
    | with_reducible apply KeepsQ.map
    | with_reducible apply KeepsO.map
    | with_reducible apply KeepsO.getD
    | with_reducible apply KeepsP.fst
    | with_reducible apply keeps_ite
    | split
    | dsimp only
    | (intro _; intros)
    | (refine KeepsO.get ?_ (by assumption))
    | (refine KeepsE.get ?_ (by assumption))
    | (refine KeepsR.get ?_ (by assumption))
    | (refine KeepsP.get ?_ (by assumption))
    | (refine KeepsQ.get ?_ (by assumption))

theorem execVsum_keeps (v : VInstr) (s : State) : KeepsR 2392078 s (execVsum v s) := by
  unfold execVsum
  repeat' first
    | with_reducible assumption
    | decide
    | with_reducible exact Keeps.refl _ _
    | with_reducible apply State.onCoreState_keeps
    | with_reducible apply State.vec_keeps
    | with_reducible apply keeps_whenever
    | with_reducible apply keeps_foldl
    | with_reducible apply KeepsR.next
    | with_reducible apply KeepsR.onCore
    | with_reducible apply KeepsR.onPart
    | with_reducible exact KeepsR.fault
    | with_reducible apply KeepsE.ok
    | with_reducible exact KeepsE.error
    | with_reducible apply KeepsO.some
    | with_reducible exact KeepsO.none
    | with_reducible apply KeepsO.bind
    | with_reducible apply KeepsQ.some
    | with_reducible exact KeepsQ.none
    | with_reducible apply KeepsQ.map
    | with_reducible apply KeepsO.map
    | with_reducible apply KeepsO.getD
    | with_reducible apply KeepsP.fst
    | with_reducible apply keeps_ite
    | split
    | dsimp only
    | (intro _; intros)
    | (refine KeepsO.get ?_ (by assumption))
    | (refine KeepsE.get ?_ (by assumption))
    | (refine KeepsR.get ?_ (by assumption))
    | (refine KeepsP.get ?_ (by assumption))
    | (refine KeepsQ.get ?_ (by assumption))

theorem execVawait_keeps (v : VInstr) (s : State) : KeepsR 2392078 s (execVawait v s) := by
  unfold execVawait
  repeat' first
    | with_reducible assumption
    | decide
    | with_reducible exact Keeps.refl _ _
    | with_reducible apply State.onCoreState_keeps
    | with_reducible apply State.vec_keeps
    | with_reducible apply keeps_whenever
    | with_reducible apply keeps_foldl
    | with_reducible apply KeepsR.next
    | with_reducible apply KeepsR.onCore
    | with_reducible apply KeepsR.onPart
    | with_reducible exact KeepsR.fault
    | with_reducible apply KeepsE.ok
    | with_reducible exact KeepsE.error
    | with_reducible apply KeepsO.some
    | with_reducible exact KeepsO.none
    | with_reducible apply KeepsO.bind
    | with_reducible apply KeepsQ.some
    | with_reducible exact KeepsQ.none
    | with_reducible apply KeepsQ.map
    | with_reducible apply KeepsO.map
    | with_reducible apply KeepsO.getD
    | with_reducible apply KeepsP.fst
    | with_reducible apply keeps_ite
    | split
    | dsimp only
    | (intro _; intros)
    | (refine KeepsO.get ?_ (by assumption))
    | (refine KeepsE.get ?_ (by assumption))
    | (refine KeepsR.get ?_ (by assumption))
    | (refine KeepsP.get ?_ (by assumption))
    | (refine KeepsQ.get ?_ (by assumption))

theorem execVawaitReturn_keeps (c g : Nat) (s : State) : KeepsR 2 s (execVawaitReturn c g s) := by
  unfold execVawaitReturn
  repeat' first
    | with_reducible assumption
    | decide
    | with_reducible exact Keeps.refl _ _
    | with_reducible apply State.onCoreState_keeps
    | with_reducible apply keeps_whenever
    | with_reducible apply keeps_foldl
    | with_reducible apply KeepsR.next
    | with_reducible apply KeepsR.onCore
    | with_reducible apply KeepsR.onPart
    | with_reducible exact KeepsR.fault
    | with_reducible apply KeepsE.ok
    | with_reducible exact KeepsE.error
    | with_reducible apply KeepsO.some
    | with_reducible exact KeepsO.none
    | with_reducible apply KeepsO.bind
    | with_reducible apply KeepsQ.some
    | with_reducible exact KeepsQ.none
    | with_reducible apply KeepsQ.map
    | with_reducible apply KeepsO.map
    | with_reducible apply KeepsO.getD
    | with_reducible apply KeepsP.fst
    | with_reducible apply keeps_ite
    | split
    | dsimp only
    | (intro _; intros)
    | (refine KeepsO.get ?_ (by assumption))
    | (refine KeepsE.get ?_ (by assumption))
    | (refine KeepsR.get ?_ (by assumption))
    | (refine KeepsP.get ?_ (by assumption))
    | (refine KeepsQ.get ?_ (by assumption))

theorem execVeIllegal_keeps (v : VInstr) (s : State) : KeepsR 2392078 s (execVeIllegal v s) := by
  unfold execVeIllegal
  repeat' first
    | with_reducible assumption
    | decide
    | with_reducible exact Keeps.refl _ _
    | with_reducible apply State.vec_keeps
    | with_reducible apply keeps_whenever
    | with_reducible apply keeps_foldl
    | with_reducible apply KeepsR.next
    | with_reducible apply KeepsR.onCore
    | with_reducible apply KeepsR.onPart
    | with_reducible exact KeepsR.fault
    | with_reducible apply KeepsE.ok
    | with_reducible exact KeepsE.error
    | with_reducible apply KeepsO.some
    | with_reducible exact KeepsO.none
    | with_reducible apply KeepsO.bind
    | with_reducible apply KeepsQ.some
    | with_reducible exact KeepsQ.none
    | with_reducible apply KeepsQ.map
    | with_reducible apply KeepsO.map
    | with_reducible apply KeepsO.getD
    | with_reducible apply KeepsP.fst
    | with_reducible apply keeps_ite
    | split
    | dsimp only
    | (intro _; intros)
    | (refine KeepsO.get ?_ (by assumption))
    | (refine KeepsE.get ?_ (by assumption))
    | (refine KeepsR.get ?_ (by assumption))
    | (refine KeepsP.get ?_ (by assumption))
    | (refine KeepsQ.get ?_ (by assumption))

theorem execVgo_keeps (c : Nat) (rd rs1 rs2 : Reg) (s : State) : KeepsR 2392078 s (execVgo c rd rs1 rs2 s) := by
  unfold execVgo
  repeat' first
    | with_reducible assumption
    | decide
    | with_reducible exact Keeps.refl _ _
    | with_reducible apply State.coreFault_keeps
    | with_reducible apply State.setCore_keeps
    | with_reducible apply State.ctl_keeps
    | with_reducible apply keeps_whenever
    | with_reducible apply keeps_foldl
    | with_reducible apply KeepsR.next
    | with_reducible apply KeepsR.onCore
    | with_reducible apply KeepsR.onPart
    | with_reducible exact KeepsR.fault
    | with_reducible apply KeepsE.ok
    | with_reducible exact KeepsE.error
    | with_reducible apply KeepsO.some
    | with_reducible exact KeepsO.none
    | with_reducible apply KeepsO.bind
    | with_reducible apply KeepsQ.some
    | with_reducible exact KeepsQ.none
    | with_reducible apply KeepsQ.map
    | with_reducible apply KeepsO.map
    | with_reducible apply KeepsO.getD
    | with_reducible apply KeepsP.fst
    | with_reducible apply keeps_ite
    | split
    | dsimp only
    | (intro _; intros)
    | (refine KeepsO.get ?_ (by assumption))
    | (refine KeepsE.get ?_ (by assumption))
    | (refine KeepsR.get ?_ (by assumption))
    | (refine KeepsP.get ?_ (by assumption))
    | (refine KeepsQ.get ?_ (by assumption))

theorem execVjoin_keeps (c : Nat) (rs1 : Reg) (s : State) : KeepsR 2392078 s (execVjoin c rs1 s) := by
  unfold execVjoin
  repeat' first
    | with_reducible assumption
    | decide
    | with_reducible exact Keeps.refl _ _
    | with_reducible apply State.onCoreState_keeps
    | with_reducible apply State.ctl_keeps
    | with_reducible apply keeps_whenever
    | with_reducible apply keeps_foldl
    | with_reducible apply KeepsR.next
    | with_reducible apply KeepsR.onCore
    | with_reducible apply KeepsR.onPart
    | with_reducible exact KeepsR.fault
    | with_reducible apply KeepsE.ok
    | with_reducible exact KeepsE.error
    | with_reducible apply KeepsO.some
    | with_reducible exact KeepsO.none
    | with_reducible apply KeepsO.bind
    | with_reducible apply KeepsQ.some
    | with_reducible exact KeepsQ.none
    | with_reducible apply KeepsQ.map
    | with_reducible apply KeepsO.map
    | with_reducible apply KeepsO.getD
    | with_reducible apply KeepsP.fst
    | with_reducible apply keeps_ite
    | split
    | dsimp only
    | (intro _; intros)
    | (refine KeepsO.get ?_ (by assumption))
    | (refine KeepsE.get ?_ (by assumption))
    | (refine KeepsR.get ?_ (by assumption))
    | (refine KeepsP.get ?_ (by assumption))
    | (refine KeepsQ.get ?_ (by assumption))

theorem execVjoinReturn_keeps (c : Nat) (s : State) : KeepsR 2 s (execVjoinReturn c s) := by
  unfold execVjoinReturn
  repeat' first
    | with_reducible assumption
    | decide
    | with_reducible exact Keeps.refl _ _
    | with_reducible apply State.onCoreState_keeps
    | with_reducible apply keeps_whenever
    | with_reducible apply keeps_foldl
    | with_reducible apply KeepsR.next
    | with_reducible apply KeepsR.onCore
    | with_reducible apply KeepsR.onPart
    | with_reducible exact KeepsR.fault
    | with_reducible apply KeepsE.ok
    | with_reducible exact KeepsE.error
    | with_reducible apply KeepsO.some
    | with_reducible exact KeepsO.none
    | with_reducible apply KeepsO.bind
    | with_reducible apply KeepsQ.some
    | with_reducible exact KeepsQ.none
    | with_reducible apply KeepsQ.map
    | with_reducible apply KeepsO.map
    | with_reducible apply KeepsO.getD
    | with_reducible apply KeepsP.fst
    | with_reducible apply keeps_ite
    | split
    | dsimp only
    | (intro _; intros)
    | (refine KeepsO.get ?_ (by assumption))
    | (refine KeepsE.get ?_ (by assumption))
    | (refine KeepsR.get ?_ (by assumption))
    | (refine KeepsP.get ?_ (by assumption))
    | (refine KeepsQ.get ?_ (by assumption))

theorem execVbc_keeps (c k : Nat) (rs1 : Reg) (s : State) : KeepsR 2392078 s (execVbc c k rs1 s) := by
  unfold execVbc
  repeat' first
    | with_reducible assumption
    | decide
    | with_reducible exact Keeps.refl _ _
    | with_reducible apply State.ctlCore_keeps
    | with_reducible apply keeps_whenever
    | with_reducible apply keeps_foldl
    | with_reducible apply KeepsR.next
    | with_reducible apply KeepsR.onCore
    | with_reducible apply KeepsR.onPart
    | with_reducible exact KeepsR.fault
    | with_reducible apply KeepsE.ok
    | with_reducible exact KeepsE.error
    | with_reducible apply KeepsO.some
    | with_reducible exact KeepsO.none
    | with_reducible apply KeepsO.bind
    | with_reducible apply KeepsQ.some
    | with_reducible exact KeepsQ.none
    | with_reducible apply KeepsQ.map
    | with_reducible apply KeepsO.map
    | with_reducible apply KeepsO.getD
    | with_reducible apply KeepsP.fst
    | with_reducible apply keeps_ite
    | split
    | dsimp only
    | (intro _; intros)
    | (refine KeepsO.get ?_ (by assumption))
    | (refine KeepsE.get ?_ (by assumption))
    | (refine KeepsR.get ?_ (by assumption))
    | (refine KeepsP.get ?_ (by assumption))
    | (refine KeepsQ.get ?_ (by assumption))

theorem execSrd_keeps (c : Nat) (rd : Reg) (k : Nat) (s : State) : KeepsR 2392078 s (execSrd c rd k s) := by
  unfold execSrd
  repeat' first
    | with_reducible assumption
    | decide
    | with_reducible exact Keeps.refl _ _
    | with_reducible apply State.onCoreState_keeps
    | with_reducible apply State.coreFault_keeps
    | with_reducible apply State.ctl_keeps
    | with_reducible apply keeps_whenever
    | with_reducible apply keeps_foldl
    | with_reducible apply KeepsR.next
    | with_reducible apply KeepsR.onCore
    | with_reducible apply KeepsR.onPart
    | with_reducible exact KeepsR.fault
    | with_reducible apply KeepsE.ok
    | with_reducible exact KeepsE.error
    | with_reducible apply KeepsO.some
    | with_reducible exact KeepsO.none
    | with_reducible apply KeepsO.bind
    | with_reducible apply KeepsQ.some
    | with_reducible exact KeepsQ.none
    | with_reducible apply KeepsQ.map
    | with_reducible apply KeepsO.map
    | with_reducible apply KeepsO.getD
    | with_reducible apply KeepsP.fst
    | with_reducible apply keeps_ite
    | split
    | dsimp only
    | (intro _; intros)
    | (refine KeepsO.get ?_ (by assumption))
    | (refine KeepsE.get ?_ (by assumption))
    | (refine KeepsR.get ?_ (by assumption))
    | (refine KeepsP.get ?_ (by assumption))
    | (refine KeepsQ.get ?_ (by assumption))

theorem execSrdReturn_keeps (c : Nat) (s : State) : KeepsR 32774 s (execSrdReturn c s) := by
  unfold execSrdReturn
  repeat' first
    | with_reducible assumption
    | decide
    | with_reducible exact Keeps.refl _ _
    | with_reducible apply State.onCoreState_keeps
    | with_reducible apply State.coreFault_keeps
    | with_reducible apply keeps_whenever
    | with_reducible apply keeps_foldl
    | with_reducible apply KeepsR.next
    | with_reducible apply KeepsR.onCore
    | with_reducible apply KeepsR.onPart
    | with_reducible exact KeepsR.fault
    | with_reducible apply KeepsE.ok
    | with_reducible exact KeepsE.error
    | with_reducible apply KeepsO.some
    | with_reducible exact KeepsO.none
    | with_reducible apply KeepsO.bind
    | with_reducible apply KeepsQ.some
    | with_reducible exact KeepsQ.none
    | with_reducible apply KeepsQ.map
    | with_reducible apply KeepsO.map
    | with_reducible apply KeepsO.getD
    | with_reducible apply KeepsP.fst
    | with_reducible apply keeps_ite
    | split
    | dsimp only
    | (intro _; intros)
    | (refine KeepsO.get ?_ (by assumption))
    | (refine KeepsE.get ?_ (by assumption))
    | (refine KeepsR.get ?_ (by assumption))
    | (refine KeepsP.get ?_ (by assumption))
    | (refine KeepsQ.get ?_ (by assumption))

theorem execSstat_keeps (c : Nat) (rd : Reg) (s : State) : KeepsR 2392078 s (execSstat c rd s) := by
  unfold execSstat
  repeat' first
    | with_reducible assumption
    | decide
    | with_reducible exact Keeps.refl _ _
    | with_reducible apply State.ctlCore_keeps
    | with_reducible apply keeps_whenever
    | with_reducible apply keeps_foldl
    | with_reducible apply KeepsR.next
    | with_reducible apply KeepsR.onCore
    | with_reducible apply KeepsR.onPart
    | with_reducible exact KeepsR.fault
    | with_reducible apply KeepsE.ok
    | with_reducible exact KeepsE.error
    | with_reducible apply KeepsO.some
    | with_reducible exact KeepsO.none
    | with_reducible apply KeepsO.bind
    | with_reducible apply KeepsQ.some
    | with_reducible exact KeepsQ.none
    | with_reducible apply KeepsQ.map
    | with_reducible apply KeepsO.map
    | with_reducible apply KeepsO.getD
    | with_reducible apply KeepsP.fst
    | with_reducible apply keeps_ite
    | split
    | dsimp only
    | (intro _; intros)
    | (refine KeepsO.get ?_ (by assumption))
    | (refine KeepsE.get ?_ (by assumption))
    | (refine KeepsR.get ?_ (by assumption))
    | (refine KeepsP.get ?_ (by assumption))
    | (refine KeepsQ.get ?_ (by assumption))

end Sys2Proof.Machine
end

