-- ==== Sys2Proof/Laws/KeepsCellarHome.lean ====
section
/-!
SUPPORT. Laws/KeepsCellarHome.lean: what the operations of Machine/CellarHome.lean may change.
-/

namespace Sys2Proof.Machine

set_option Elab.async false
set_option linter.all false

/-- What looking for a way may change. -/
def KeepsRoom (m : Nat) (s : State) (r : Room) : Prop := (∀ t, r = .ok t → Keeps m s t) ∧ ∀ t, r = .wait t → Keeps m s t
theorem KeepsRoom.ok {m : Nat} {s t : State} {r : Room} (h : KeepsRoom m s r) (e : r = .ok t) : Keeps m s t := h.1 t e
theorem KeepsRoom.wait {m : Nat} {s t : State} {r : Room} (h : KeepsRoom m s r) (e : r = .wait t) : Keeps m s t := h.2 t e

theorem State.tally_keeps {fpm : Nat} {z : State} (s : State) (m k : Nat) (hfp : 524288 ||| fpm = fpm)
    (hk : Keeps fpm z s) : Keeps fpm z (State.tally s m k) := by
  refine Keeps.step ?_ hfp hk
  unfold State.tally
  repeat' first
    | with_reducible assumption
    | decide
    | with_reducible exact Keeps.refl _ _
    | with_reducible apply State.bump_keeps
    | with_reducible apply keeps_whenever
    | with_reducible apply keeps_foldl
    | with_reducible apply KeepsE.ok
    | with_reducible exact KeepsE.error
    | with_reducible apply KeepsO.some
    | with_reducible exact KeepsO.none
    | with_reducible apply KeepsO.bind
    | with_reducible apply KeepsQ.some
    | with_reducible exact KeepsQ.none
    | with_reducible apply KeepsQ.map
    | with_reducible apply KeepsO.map
    | with_reducible apply KeepsO.getD
    | with_reducible apply KeepsP.fst
    | with_reducible apply keeps_ite
    | split
    | dsimp only
    | (intro _; intros)
    | (refine KeepsO.get ?_ (by assumption))
    | (refine KeepsE.get ?_ (by assumption))
    | (refine KeepsR.get ?_ (by assumption))
    | (refine KeepsP.get ?_ (by assumption))
    | (refine KeepsQ.get ?_ (by assumption))

theorem State.dirtied_keeps {fpm : Nat} {z : State} (s : State) (pa : Nat) (hfp : 16384 ||| fpm = fpm)
    (hk : Keeps fpm z s) : Keeps fpm z (State.dirtied s pa) := by
  refine Keeps.step ?_ hfp hk
  unfold State.dirtied
  repeat' first
    | with_reducible assumption
    | decide
    | with_reducible exact Keeps.refl _ _
    | with_reducible apply keeps_whenever
    | with_reducible apply keeps_foldl
    | with_reducible apply KeepsE.ok
    | with_reducible exact KeepsE.error
    | with_reducible apply KeepsO.some
    | with_reducible exact KeepsO.none
    | with_reducible apply KeepsO.bind
    | with_reducible apply KeepsQ.some
    | with_reducible exact KeepsQ.none
    | with_reducible apply KeepsQ.map
    | with_reducible apply KeepsO.map
    | with_reducible apply KeepsO.getD
    | with_reducible apply KeepsP.fst
    | with_reducible apply keeps_ite
    | simp only [keeps_set_parts_iff (m := 16384) rfl]
    | split
    | dsimp only
    | (intro _; intros)
    | (refine KeepsO.get ?_ (by assumption))
    | (refine KeepsE.get ?_ (by assumption))
    | (refine KeepsR.get ?_ (by assumption))
    | (refine KeepsP.get ?_ (by assumption))
    | (refine KeepsQ.get ?_ (by assumption))

theorem State.pour_keeps {fpm : Nat} {z : State} (s : State) (r : Req) (hfp : 28 ||| fpm = fpm)
    (hk : Keeps fpm z s) : Keeps fpm z (State.pour s r) := by
  refine Keeps.step ?_ hfp hk
  unfold State.pour
  repeat' first
    | with_reducible assumption
    | decide
    | with_reducible exact Keeps.refl _ _
    | with_reducible apply State.addReq_keeps
    | with_reducible apply keeps_whenever
    | with_reducible apply keeps_foldl
    | with_reducible apply KeepsE.ok
    | with_reducible exact KeepsE.error
    | with_reducible apply KeepsO.some
    | with_reducible exact KeepsO.none
    | with_reducible apply KeepsO.bind
    | with_reducible apply KeepsQ.some
    | with_reducible exact KeepsQ.none
    | with_reducible apply KeepsQ.map
    | with_reducible apply KeepsO.map
    | with_reducible apply KeepsO.getD
    | with_reducible apply KeepsP.fst
    | with_reducible apply keeps_ite
    | simp only [keeps_set_accepts_iff (m := 28) rfl]
    | split
    | dsimp only
    | (intro _; intros)
    | (refine KeepsO.get ?_ (by assumption))
    | (refine KeepsE.get ?_ (by assumption))
    | (refine KeepsR.get ?_ (by assumption))
    | (refine KeepsP.get ?_ (by assumption))
    | (refine KeepsQ.get ?_ (by assumption))

theorem State.handOn_keeps {fpm : Nat} {z : State} (s : State) (tag : Nat) (f : Req → Req) (hfp : 20 ||| fpm = fpm)
    (hk : Keeps fpm z s) : Keeps fpm z (State.handOn s tag f) := by
  refine Keeps.step ?_ hfp hk
  unfold State.handOn
  repeat' first
    | with_reducible assumption
    | decide
    | with_reducible exact Keeps.refl _ _
    | with_reducible apply State.setReq_keeps
    | with_reducible apply keeps_whenever
    | with_reducible apply keeps_foldl
    | with_reducible apply KeepsE.ok
    | with_reducible exact KeepsE.error
    | with_reducible apply KeepsO.some
    | with_reducible exact KeepsO.none
    | with_reducible apply KeepsO.bind
    | with_reducible apply KeepsQ.some
    | with_reducible exact KeepsQ.none
    | with_reducible apply KeepsQ.map
    | with_reducible apply KeepsO.map
    | with_reducible apply KeepsO.getD
    | with_reducible apply KeepsP.fst
    | with_reducible apply keeps_ite
    | simp only [keeps_set_accepts_iff (m := 20) rfl]
    | split
    | dsimp only
    | (intro _; intros)
    | (refine KeepsO.get ?_ (by assumption))
    | (refine KeepsE.get ?_ (by assumption))
    | (refine KeepsR.get ?_ (by assumption))
    | (refine KeepsP.get ?_ (by assumption))
    | (refine KeepsQ.get ?_ (by assumption))

theorem State.injected_keeps {fpm : Nat} {z : State} (s : State) (hfp : 557056 ||| fpm = fpm)
    (hk : Keeps fpm z s) : Keeps fpm z (State.injected s) := by
  refine Keeps.step ?_ hfp hk
  unfold State.injected
  repeat' first
    | with_reducible assumption
    | decide
    | with_reducible exact Keeps.refl _ _
    | with_reducible apply State.bump_keeps
    | with_reducible apply keeps_whenever
    | with_reducible apply keeps_foldl
    | with_reducible apply KeepsE.ok
    | with_reducible exact KeepsE.error
    | with_reducible apply KeepsO.some
    | with_reducible exact KeepsO.none
    | with_reducible apply KeepsO.bind
    | with_reducible apply KeepsQ.some
    | with_reducible exact KeepsQ.none
    | with_reducible apply KeepsQ.map
    | with_reducible apply KeepsO.map
    | with_reducible apply KeepsO.getD
    | with_reducible apply KeepsP.fst
    | with_reducible apply keeps_ite
    | simp only [keeps_set_faults_iff (m := 557056) rfl]
    | split
    | dsimp only
    | (intro _; intros)
    | (refine KeepsO.get ?_ (by assumption))
    | (refine KeepsE.get ?_ (by assumption))
    | (refine KeepsR.get ?_ (by assumption))
    | (refine KeepsP.get ?_ (by assumption))
    | (refine KeepsQ.get ?_ (by assumption))

theorem State.injLine_keeps {fpm : Nat} {z : State} (s : State) (l mask : Nat) (hfp : 557120 ||| fpm = fpm)
    (hk : Keeps fpm z s) : Keeps fpm z (State.injLine s l mask) := by
  refine Keeps.step ?_ hfp hk
  unfold State.injLine
  repeat' first
    | with_reducible assumption
    | decide
    | with_reducible exact Keeps.refl _ _
    | with_reducible apply State.injected_keeps
    | with_reducible apply keeps_whenever
    | with_reducible apply keeps_foldl
    | with_reducible apply KeepsE.ok
    | with_reducible exact KeepsE.error
    | with_reducible apply KeepsO.some
    | with_reducible exact KeepsO.none
    | with_reducible apply KeepsO.bind
    | with_reducible apply KeepsQ.some
    | with_reducible exact KeepsQ.none
    | with_reducible apply KeepsQ.map
    | with_reducible apply KeepsO.map
    | with_reducible apply KeepsO.getD
    | with_reducible apply KeepsP.fst
    | with_reducible apply keeps_ite
    | simp only [keeps_set_cellar_iff (m := 557120) rfl]
    | split
    | dsimp only
    | (intro _; intros)
    | (refine KeepsO.get ?_ (by assumption))
    | (refine KeepsE.get ?_ (by assumption))
    | (refine KeepsR.get ?_ (by assumption))
    | (refine KeepsP.get ?_ (by assumption))
    | (refine KeepsQ.get ?_ (by assumption))

theorem State.lineReport_keeps {fpm : Nat} {z : State} (s : State) (code l : Nat) (hfp : 32768 ||| fpm = fpm)
    (hk : Keeps fpm z s) : Keeps fpm z (State.lineReport s code l) := by
  refine Keeps.step ?_ hfp hk
  unfold State.lineReport
  repeat' first
    | with_reducible assumption
    | decide
    | with_reducible exact Keeps.refl _ _
    | with_reducible apply State.report_keeps
    | with_reducible apply keeps_whenever
    | with_reducible apply keeps_foldl
    | with_reducible apply KeepsE.ok
    | with_reducible exact KeepsE.error
    | with_reducible apply KeepsO.some
    | with_reducible exact KeepsO.none
    | with_reducible apply KeepsO.bind
    | with_reducible apply KeepsQ.some
    | with_reducible exact KeepsQ.none
    | with_reducible apply KeepsQ.map
    | with_reducible apply KeepsO.map
    | with_reducible apply KeepsO.getD
    | with_reducible apply KeepsP.fst
    | with_reducible apply keeps_ite
    | split
    | dsimp only
    | (intro _; intros)
    | (refine KeepsO.get ?_ (by assumption))
    | (refine KeepsE.get ?_ (by assumption))
    | (refine KeepsR.get ?_ (by assumption))
    | (refine KeepsP.get ?_ (by assumption))
    | (refine KeepsQ.get ?_ (by assumption))

theorem State.lineCe_keeps {fpm : Nat} {z : State} (s : State) (x : Line) (hfp : 32768 ||| fpm = fpm)
    (hk : Keeps fpm z s) : Keeps fpm z (State.lineCe s x) := by
  refine Keeps.step ?_ hfp hk
  unfold State.lineCe
  repeat' first
    | with_reducible assumption
    | decide
    | with_reducible exact Keeps.refl _ _
    | with_reducible apply State.lineReport_keeps
    | with_reducible apply keeps_whenever
    | with_reducible apply keeps_foldl
    | with_reducible apply KeepsE.ok
    | with_reducible exact KeepsE.error
    | with_reducible apply KeepsO.some
    | with_reducible exact KeepsO.none
    | with_reducible apply KeepsO.bind
    | with_reducible apply KeepsQ.some
    | with_reducible exact KeepsQ.none
    | with_reducible apply KeepsQ.map
    | with_reducible apply KeepsO.map
    | with_reducible apply KeepsO.getD
    | with_reducible apply KeepsP.fst
    | with_reducible apply keeps_ite
    | split
    | dsimp only
    | (intro _; intros)
    | (refine KeepsO.get ?_ (by assumption))
    | (refine KeepsE.get ?_ (by assumption))
    | (refine KeepsR.get ?_ (by assumption))
    | (refine KeepsP.get ?_ (by assumption))
    | (refine KeepsQ.get ?_ (by assumption))

theorem State.decodeLine_keeps {fpm : Nat} {z : State} (s : State) (l : Nat) (hfp : 32832 ||| fpm = fpm)
    (hk : Keeps fpm z s) : Keeps fpm z (State.decodeLine s l) := by
  refine Keeps.step ?_ hfp hk
  unfold State.decodeLine
  repeat' first
    | with_reducible assumption
    | decide
    | with_reducible exact Keeps.refl _ _
    | with_reducible apply State.lineReport_keeps
    | with_reducible apply State.lineCe_keeps
    | with_reducible apply keeps_whenever
    | with_reducible apply keeps_foldl
    | with_reducible apply KeepsE.ok
    | with_reducible exact KeepsE.error
    | with_reducible apply KeepsO.some
    | with_reducible exact KeepsO.none
    | with_reducible apply KeepsO.bind
    | with_reducible apply KeepsQ.some
    | with_reducible exact KeepsQ.none
    | with_reducible apply KeepsQ.map
    | with_reducible apply KeepsO.map
    | with_reducible apply KeepsO.getD
    | with_reducible apply KeepsP.fst
    | with_reducible apply keeps_ite
    | simp only [keeps_set_cellar_iff (m := 32832) rfl]
    | split
    | dsimp only
    | (intro _; intros)
    | (refine KeepsO.get ?_ (by assumption))
    | (refine KeepsE.get ?_ (by assumption))
    | (refine KeepsR.get ?_ (by assumption))
    | (refine KeepsP.get ?_ (by assumption))
    | (refine KeepsQ.get ?_ (by assumption))

theorem State.setTxn_keeps {fpm : Nat} {z : State} (s : State) (l : Nat) (f : Txn → Txn) (hfp : 128 ||| fpm = fpm)
    (hk : Keeps fpm z s) : Keeps fpm z (State.setTxn s l f) := by
  refine Keeps.step ?_ hfp hk
  unfold State.setTxn
  repeat' first
    | with_reducible assumption
    | decide
    | with_reducible exact Keeps.refl _ _
    | with_reducible apply keeps_whenever
    | with_reducible apply keeps_foldl
    | with_reducible apply KeepsE.ok
    | with_reducible exact KeepsE.error
    | with_reducible apply KeepsO.some
    | with_reducible exact KeepsO.none
    | with_reducible apply KeepsO.bind
    | with_reducible apply KeepsQ.some
    | with_reducible exact KeepsQ.none
    | with_reducible apply KeepsQ.map
    | with_reducible apply KeepsO.map
    | with_reducible apply KeepsO.getD
    | with_reducible apply KeepsP.fst
    | with_reducible apply keeps_ite
    | simp only [keeps_set_coh_iff (m := 128) rfl]
    | split
    | dsimp only
    | (intro _; intros)
    | (refine KeepsO.get ?_ (by assumption))
    | (refine KeepsE.get ?_ (by assumption))
    | (refine KeepsR.get ?_ (by assumption))
    | (refine KeepsP.get ?_ (by assumption))
    | (refine KeepsQ.get ?_ (by assumption))

theorem State.openTxn_keeps {fpm : Nat} {z : State} (s : State) (t : Txn) (hfp : 128 ||| fpm = fpm)
    (hk : Keeps fpm z s) : Keeps fpm z (State.openTxn s t) := by
  refine Keeps.step ?_ hfp hk
  unfold State.openTxn
  repeat' first
    | with_reducible assumption
    | decide
    | with_reducible exact Keeps.refl _ _
    | with_reducible apply keeps_whenever
    | with_reducible apply keeps_foldl
    | with_reducible apply KeepsE.ok
    | with_reducible exact KeepsE.error
    | with_reducible apply KeepsO.some
    | with_reducible exact KeepsO.none
    | with_reducible apply KeepsO.bind
    | with_reducible apply KeepsQ.some
    | with_reducible exact KeepsQ.none
    | with_reducible apply KeepsQ.map
    | with_reducible apply KeepsO.map
    | with_reducible apply KeepsO.getD
    | with_reducible apply KeepsP.fst
    | with_reducible apply keeps_ite
    | simp only [keeps_set_coh_iff (m := 128) rfl]
    | split
    | dsimp only
    | (intro _; intros)
    | (refine KeepsO.get ?_ (by assumption))
    | (refine KeepsE.get ?_ (by assumption))
    | (refine KeepsR.get ?_ (by assumption))
    | (refine KeepsP.get ?_ (by assumption))
    | (refine KeepsQ.get ?_ (by assumption))

theorem State.snoop_keeps {fpm : Nat} {z : State} (s : State) (l : Nat) (shr : Bool) (waiter : Option Nat) (backInv : Bool) (room : Option Nat) (hfp : 524416 ||| fpm = fpm)
    (hk : Keeps fpm z s) : Keeps fpm z (State.snoop s l shr waiter backInv room) := by
  refine Keeps.step ?_ hfp hk
  unfold State.snoop
  repeat' first
    | with_reducible assumption
    | decide
    | with_reducible exact Keeps.refl _ _
    | with_reducible apply State.openTxn_keeps
    | with_reducible apply State.sendAb_keeps
    | with_reducible apply State.bump_keeps
    | with_reducible apply keeps_whenever
    | with_reducible apply keeps_foldl
    | with_reducible apply KeepsE.ok
    | with_reducible exact KeepsE.error
    | with_reducible apply KeepsO.some
    | with_reducible exact KeepsO.none
    | with_reducible apply KeepsO.bind
    | with_reducible apply KeepsQ.some
    | with_reducible exact KeepsQ.none
    | with_reducible apply KeepsQ.map
    | with_reducible apply KeepsO.map
    | with_reducible apply KeepsO.getD
    | with_reducible apply KeepsP.fst
    | with_reducible apply keeps_ite
    | split
    | dsimp only
    | (intro _; intros)
    | (refine KeepsO.get ?_ (by assumption))
    | (refine KeepsE.get ?_ (by assumption))
    | (refine KeepsR.get ?_ (by assumption))
    | (refine KeepsP.get ?_ (by assumption))
    | (refine KeepsQ.get ?_ (by assumption))

theorem State.tossLines_keeps {fpm : Nat} {z : State} (s : State) (p : Line → Bool) (hfp : 524480 ||| fpm = fpm)
    (hk : Keeps fpm z s) : Keeps fpm z (State.tossLines s p) := by
  refine Keeps.step ?_ hfp hk
  unfold State.tossLines
  repeat' first
    | with_reducible assumption
    | decide
    | with_reducible exact Keeps.refl _ _
    | with_reducible apply State.setTxn_keeps
    | with_reducible apply State.snoop_keeps
    | with_reducible apply keeps_whenever
    | with_reducible apply keeps_foldl
    | with_reducible apply KeepsE.ok
    | with_reducible exact KeepsE.error
    | with_reducible apply KeepsO.some
    | with_reducible exact KeepsO.none
    | with_reducible apply KeepsO.bind
    | with_reducible apply KeepsQ.some
    | with_reducible exact KeepsQ.none
    | with_reducible apply KeepsQ.map
    | with_reducible apply KeepsO.map
    | with_reducible apply KeepsO.getD
    | with_reducible apply KeepsP.fst
    | with_reducible apply keeps_ite
    | simp only [keeps_set_cellar_coh_iff (m := 524480) rfl rfl]
    | split
    | dsimp only
    | (intro _; intros)
    | (refine KeepsO.get ?_ (by assumption))
    | (refine KeepsE.get ?_ (by assumption))
    | (refine KeepsR.get ?_ (by assumption))
    | (refine KeepsP.get ?_ (by assumption))
    | (refine KeepsQ.get ?_ (by assumption))

theorem State.giveUp_keeps {fpm : Nat} {z : State} (s : State) (l : Nat) (hfp : 128 ||| fpm = fpm)
    (hk : Keeps fpm z s) : Keeps fpm z (State.giveUp s l) := by
  refine Keeps.step ?_ hfp hk
  unfold State.giveUp
  repeat' first
    | with_reducible assumption
    | decide
    | with_reducible exact Keeps.refl _ _
    | with_reducible apply State.sendAb_keeps
    | with_reducible apply keeps_whenever
    | with_reducible apply keeps_foldl
    | with_reducible apply KeepsE.ok
    | with_reducible exact KeepsE.error
    | with_reducible apply KeepsO.some
    | with_reducible exact KeepsO.none
    | with_reducible apply KeepsO.bind
    | with_reducible apply KeepsQ.some
    | with_reducible exact KeepsQ.none
    | with_reducible apply KeepsQ.map
    | with_reducible apply KeepsO.map
    | with_reducible apply KeepsO.getD
    | with_reducible apply KeepsP.fst
    | with_reducible apply keeps_ite
    | simp only [keeps_set_coh_iff (m := 128) rfl]
    | split
    | dsimp only
    | (intro _; intros)
    | (refine KeepsO.get ?_ (by assumption))
    | (refine KeepsE.get ?_ (by assumption))
    | (refine KeepsR.get ?_ (by assumption))
    | (refine KeepsP.get ?_ (by assumption))
    | (refine KeepsQ.get ?_ (by assumption))

theorem State.outgoing_keeps {fpm : Nat} {z : State} (s : State) (l : Nat) (x : Line) (hfp : 32832 ||| fpm = fpm)
    (hk : Keeps fpm z s) : KeepsP fpm z (State.outgoing s l x) := by
  refine KeepsP.step ?_ hfp hk
  unfold State.outgoing
  repeat' first
    | with_reducible assumption
    | decide
    | with_reducible exact Keeps.refl _ _
    | with_reducible apply State.decodeLine_keeps
    | with_reducible apply keeps_whenever
    | with_reducible apply keeps_foldl
    | with_reducible apply KeepsE.ok
    | with_reducible exact KeepsE.error
    | with_reducible apply KeepsO.some
    | with_reducible exact KeepsO.none
    | with_reducible apply KeepsO.bind
    | with_reducible apply KeepsQ.some
    | with_reducible exact KeepsQ.none
    | with_reducible apply KeepsQ.map
    | with_reducible apply KeepsO.map
    | with_reducible apply keepsP_foldl
    | with_reducible apply keepsP_ite
    | with_reducible apply KeepsO.getD
    | with_reducible apply KeepsP.fst
    | with_reducible apply keeps_ite
    | split
    | with_reducible apply KeepsP.mk
    | dsimp only
    | (intro _; intros)
    | (refine KeepsO.get ?_ (by assumption))
    | (refine KeepsE.get ?_ (by assumption))
    | (refine KeepsR.get ?_ (by assumption))
    | (refine KeepsP.get ?_ (by assumption))
    | (refine KeepsQ.get ?_ (by assumption))

theorem State.evict_keeps {fpm : Nat} {z : State} (s : State) (x : Line) (hfp : 557276 ||| fpm = fpm)
    (hk : Keeps fpm z s) : Keeps fpm z (State.evict s x) := by
  refine Keeps.step ?_ hfp hk
  unfold State.evict
  repeat' first
    | with_reducible assumption
    | decide
    | with_reducible exact Keeps.refl _ _
    | with_reducible apply State.outgoing_keeps
    | with_reducible apply State.giveUp_keeps
    | with_reducible apply State.tally_keeps
    | with_reducible apply State.pour_keeps
    | with_reducible apply keeps_whenever
    | with_reducible apply keeps_foldl
    | with_reducible apply KeepsE.ok
    | with_reducible exact KeepsE.error
    | with_reducible apply KeepsO.some
    | with_reducible exact KeepsO.none
    | with_reducible apply KeepsO.bind
    | with_reducible apply KeepsQ.some
    | with_reducible exact KeepsQ.none
    | with_reducible apply KeepsQ.map
    | with_reducible apply KeepsO.map
    | with_reducible apply keepsP_foldl
    | with_reducible apply keepsP_ite
    | with_reducible apply KeepsO.getD
    | with_reducible apply KeepsP.fst
    | with_reducible apply keeps_ite
    | simp only [keeps_set_cellar_iff (m := 557276) rfl]
    | split
    | with_reducible apply KeepsP.mk
    | dsimp only
    | (intro _; intros)
    | (refine KeepsO.get ?_ (by assumption))
    | (refine KeepsE.get ?_ (by assumption))
    | (refine KeepsR.get ?_ (by assumption))
    | (refine KeepsP.get ?_ (by assumption))
    | (refine KeepsQ.get ?_ (by assumption))

theorem State.makeRoom_keeps {fpm : Nat} {z : State} (s : State) (l k : Nat) (hfp : 557276 ||| fpm = fpm)
    (hk : Keeps fpm z s) : KeepsRoom fpm z (s.makeRoom l k) := by
  unfold State.makeRoom
  dsimp only
  split
  · exact ⟨fun _ e => by cases e; exact hk, (fun _ e => nomatch e)⟩
  · split
    · exact ⟨(fun _ e => nomatch e), fun _ e => by cases e; exact hk⟩
    · split
      · exact ⟨(fun _ e => nomatch e), (fun _ e => nomatch e)⟩
      · split
        · exact ⟨fun _ e => by cases e; exact State.evict_keeps _ _ (Keeps.sub hfp (by decide)) hk, (fun _ e => nomatch e)⟩
        · exact ⟨(fun _ e => nomatch e), fun _ e => by
            cases e; exact State.bump_keeps _ _ _ _ (Keeps.sub hfp (by decide)) (State.snoop_keeps _ _ _ _ _ _ (Keeps.sub hfp (by decide)) hk)⟩

theorem State.insertLine_keeps {fpm : Nat} {z : State} (s : State) (x : Line) (hfp : 557120 ||| fpm = fpm)
    (hk : Keeps fpm z s) : Keeps fpm z (State.insertLine s x) := by
  refine Keeps.step ?_ hfp hk
  unfold State.insertLine
  repeat' first
    | with_reducible assumption
    | decide
    | with_reducible exact Keeps.refl _ _
    | with_reducible apply State.injLine_keeps
    | with_reducible apply State.tally_keeps
    | with_reducible apply keeps_whenever
    | with_reducible apply keeps_foldl
    | with_reducible apply KeepsE.ok
    | with_reducible exact KeepsE.error
    | with_reducible apply KeepsO.some
    | with_reducible exact KeepsO.none
    | with_reducible apply KeepsO.bind
    | with_reducible apply KeepsQ.some
    | with_reducible exact KeepsQ.none
    | with_reducible apply KeepsQ.map
    | with_reducible apply KeepsO.map
    | with_reducible apply KeepsO.getD
    | with_reducible apply KeepsP.fst
    | with_reducible apply keeps_ite
    | simp only [keeps_set_cellar_iff (m := 557120) rfl]
    | split
    | dsimp only
    | (intro _; intros)
    | (refine KeepsO.get ?_ (by assumption))
    | (refine KeepsE.get ?_ (by assumption))
    | (refine KeepsR.get ?_ (by assumption))
    | (refine KeepsP.get ?_ (by assumption))
    | (refine KeepsQ.get ?_ (by assumption))

theorem State.touchLine_keeps {fpm : Nat} {z : State} (s : State) (l : Nat) (hfp : 64 ||| fpm = fpm)
    (hk : Keeps fpm z s) : Keeps fpm z (State.touchLine s l) := by
  refine Keeps.step ?_ hfp hk
  unfold State.touchLine
  repeat' first
    | with_reducible assumption
    | decide
    | with_reducible exact Keeps.refl _ _
    | with_reducible apply keeps_whenever
    | with_reducible apply keeps_foldl
    | with_reducible apply KeepsE.ok
    | with_reducible exact KeepsE.error
    | with_reducible apply KeepsO.some
    | with_reducible exact KeepsO.none
    | with_reducible apply KeepsO.bind
    | with_reducible apply KeepsQ.some
    | with_reducible exact KeepsQ.none
    | with_reducible apply KeepsQ.map
    | with_reducible apply KeepsO.map
    | with_reducible apply KeepsO.getD
    | with_reducible apply KeepsP.fst
    | with_reducible apply keeps_ite
    | simp only [keeps_set_cellar_iff (m := 64) rfl]
    | split
    | dsimp only
    | (intro _; intros)
    | (refine KeepsO.get ?_ (by assumption))
    | (refine KeepsE.get ?_ (by assumption))
    | (refine KeepsR.get ?_ (by assumption))
    | (refine KeepsP.get ?_ (by assumption))
    | (refine KeepsQ.get ?_ (by assumption))

theorem State.wrote_keeps {fpm : Nat} {z : State} (s : State) (pa n : Nat) (p : Party) (rsc : Option Nat) (hfp : 32 ||| fpm = fpm)
    (hk : Keeps fpm z s) : Keeps fpm z (State.wrote s pa n p rsc) := by
  refine Keeps.step ?_ hfp hk
  unfold State.wrote
  repeat' first
    | with_reducible assumption
    | decide
    | with_reducible exact Keeps.refl _ _
    | with_reducible apply keeps_whenever
    | with_reducible apply keeps_foldl
    | with_reducible apply KeepsE.ok
    | with_reducible exact KeepsE.error
    | with_reducible apply KeepsO.some
    | with_reducible exact KeepsO.none
    | with_reducible apply KeepsO.bind
    | with_reducible apply KeepsQ.some
    | with_reducible exact KeepsQ.none
    | with_reducible apply KeepsQ.map
    | with_reducible apply KeepsO.map
    | with_reducible apply KeepsO.getD
    | with_reducible apply KeepsP.fst
    | with_reducible apply keeps_ite
    | simp only [keeps_set_writers_iff (m := 32) rfl]
    | split
    | dsimp only
    | (intro _; intros)
    | (refine KeepsO.get ?_ (by assumption))
    | (refine KeepsE.get ?_ (by assumption))
    | (refine KeepsR.get ?_ (by assumption))
    | (refine KeepsP.get ?_ (by assumption))
    | (refine KeepsQ.get ?_ (by assumption))

theorem State.wroteBy_keeps {fpm : Nat} {z : State} (s : State) (r : Req) (hfp : 32 ||| fpm = fpm)
    (hk : Keeps fpm z s) : Keeps fpm z (State.wroteBy s r) := by
  refine Keeps.step ?_ hfp hk
  unfold State.wroteBy
  repeat' first
    | with_reducible assumption
    | decide
    | with_reducible exact Keeps.refl _ _
    | with_reducible apply State.wrote_keeps
    | with_reducible apply keeps_whenever
    | with_reducible apply keeps_foldl
    | with_reducible apply KeepsE.ok
    | with_reducible exact KeepsE.error
    | with_reducible apply KeepsO.some
    | with_reducible exact KeepsO.none
    | with_reducible apply KeepsO.bind
    | with_reducible apply KeepsQ.some
    | with_reducible exact KeepsQ.none
    | with_reducible apply KeepsQ.map
    | with_reducible apply KeepsO.map
    | with_reducible apply KeepsO.getD
    | with_reducible apply KeepsP.fst
    | with_reducible apply keeps_ite
    | split
    | dsimp only
    | (intro _; intros)
    | (refine KeepsO.get ?_ (by assumption))
    | (refine KeepsE.get ?_ (by assumption))
    | (refine KeepsR.get ?_ (by assumption))
    | (refine KeepsP.get ?_ (by assumption))
    | (refine KeepsQ.get ?_ (by assumption))

theorem State.acquireRead_keeps {fpm : Nat} {z : State} (s : State) (r : Req) (hfp : 4 ||| fpm = fpm)
    (hk : Keeps fpm z s) : Keeps fpm z (State.acquireRead s r) := by
  refine Keeps.step ?_ hfp hk
  unfold State.acquireRead
  repeat' first
    | with_reducible assumption
    | decide
    | with_reducible exact Keeps.refl _ _
    | with_reducible apply keeps_whenever
    | with_reducible apply keeps_foldl
    | with_reducible apply KeepsE.ok
    | with_reducible exact KeepsE.error
    | with_reducible apply KeepsO.some
    | with_reducible exact KeepsO.none
    | with_reducible apply KeepsO.bind
    | with_reducible apply KeepsQ.some
    | with_reducible exact KeepsQ.none
    | with_reducible apply KeepsQ.map
    | with_reducible apply KeepsO.map
    | with_reducible apply KeepsO.getD
    | with_reducible apply KeepsP.fst
    | with_reducible apply keeps_ite
    | simp only [keeps_set_reqs_iff (m := 4) rfl]
    | split
    | dsimp only
    | (intro _; intros)
    | (refine KeepsO.get ?_ (by assumption))
    | (refine KeepsE.get ?_ (by assumption))
    | (refine KeepsR.get ?_ (by assumption))
    | (refine KeepsP.get ?_ (by assumption))
    | (refine KeepsQ.get ?_ (by assumption))

theorem State.answer_keeps {fpm : Nat} {z : State} (s : State) (tag : Nat) (f : Req → Req) (hfp : 32902 ||| fpm = fpm)
    (hk : Keeps fpm z s) : Keeps fpm z (State.answer s tag f) := by
  refine Keeps.step ?_ hfp hk
  unfold State.answer
  repeat' first
    | with_reducible assumption
    | decide
    | with_reducible exact Keeps.refl _ _
    | with_reducible apply State.acquireRead_keeps
    | with_reducible apply State.coreFault_keeps
    | with_reducible apply State.dropReq_keeps
    | with_reducible apply State.setReq_keeps
    | with_reducible apply State.sendAb_keeps
    | with_reducible apply keeps_whenever
    | with_reducible apply keeps_foldl
    | with_reducible apply KeepsE.ok
    | with_reducible exact KeepsE.error
    | with_reducible apply KeepsO.some
    | with_reducible exact KeepsO.none
    | with_reducible apply KeepsO.bind
    | with_reducible apply KeepsQ.some
    | with_reducible exact KeepsQ.none
    | with_reducible apply KeepsQ.map
    | with_reducible apply KeepsO.map
    | with_reducible apply KeepsO.getD
    | with_reducible apply KeepsP.fst
    | with_reducible apply keeps_ite
    | split
    | dsimp only
    | (intro _; intros)
    | (refine KeepsO.get ?_ (by assumption))
    | (refine KeepsE.get ?_ (by assumption))
    | (refine KeepsR.get ?_ (by assumption))
    | (refine KeepsP.get ?_ (by assumption))
    | (refine KeepsQ.get ?_ (by assumption))

theorem State.serveRead_keeps {fpm : Nat} {z : State} (s : State) (r : Req) (d : List Byte) (poison : Bool) (alloc : Bool) (hfp : 32966 ||| fpm = fpm)
    (hk : Keeps fpm z s) : Keeps fpm z (State.serveRead s r d poison alloc) := by
  refine Keeps.step ?_ hfp hk
  unfold State.serveRead
  repeat' first
    | with_reducible assumption
    | decide
    | with_reducible exact Keeps.refl _ _
    | with_reducible apply State.dropReq_keeps
    | with_reducible apply State.openTxn_keeps
    | with_reducible apply State.sendAb_keeps
    | with_reducible apply State.answer_keeps
    | with_reducible apply keeps_whenever
    | with_reducible apply keeps_foldl
    | with_reducible apply KeepsE.ok
    | with_reducible exact KeepsE.error
    | with_reducible apply KeepsO.some
    | with_reducible exact KeepsO.none
    | with_reducible apply KeepsO.bind
    | with_reducible apply KeepsQ.some
    | with_reducible exact KeepsQ.none
    | with_reducible apply KeepsQ.map
    | with_reducible apply KeepsO.map
    | with_reducible apply KeepsO.getD
    | with_reducible apply KeepsP.fst
    | with_reducible apply keeps_ite
    | simp only [keeps_set_cellar_iff (m := 32966) rfl]
    | split
    | dsimp only
    | (intro _; intros)
    | (refine KeepsO.get ?_ (by assumption))
    | (refine KeepsE.get ?_ (by assumption))
    | (refine KeepsR.get ?_ (by assumption))
    | (refine KeepsP.get ?_ (by assumption))
    | (refine KeepsQ.get ?_ (by assumption))

theorem State.serveWrite_keeps {fpm : Nat} {z : State} (s : State) (r : Req) (x : Line) (hfp : 573686 ||| fpm = fpm)
    (hk : Keeps fpm z s) : Keeps fpm z (State.serveWrite s r x) := by
  refine Keeps.step ?_ hfp hk
  unfold State.serveWrite
  repeat' first
    | with_reducible assumption
    | decide
    | with_reducible exact Keeps.refl _ _
    | with_reducible apply State.dirtied_keeps
    | with_reducible apply State.injLine_keeps
    | with_reducible apply State.wroteBy_keeps
    | with_reducible apply State.handOn_keeps
    | with_reducible apply State.answer_keeps
    | with_reducible apply keeps_whenever
    | with_reducible apply keeps_foldl
    | with_reducible apply KeepsE.ok
    | with_reducible exact KeepsE.error
    | with_reducible apply KeepsO.some
    | with_reducible exact KeepsO.none
    | with_reducible apply KeepsO.bind
    | with_reducible apply KeepsQ.some
    | with_reducible exact KeepsQ.none
    | with_reducible apply KeepsQ.map
    | with_reducible apply KeepsO.map
    | with_reducible apply keepsP_foldl
    | with_reducible apply keepsP_ite
    | with_reducible apply KeepsO.getD
    | with_reducible apply KeepsP.fst
    | with_reducible apply keeps_ite
    | simp only [keeps_set_cellar_iff (m := 573686) rfl]
    | split
    | with_reducible apply KeepsP.mk
    | dsimp only
    | (intro _; intros)
    | (refine KeepsO.get ?_ (by assumption))
    | (refine KeepsE.get ?_ (by assumption))
    | (refine KeepsR.get ?_ (by assumption))
    | (refine KeepsP.get ?_ (by assumption))
    | (refine KeepsQ.get ?_ (by assumption))

theorem State.serveAtomic_keeps {fpm : Nat} {z : State} (s : State) (r : Req) (x : Line) (hfp : 573694 ||| fpm = fpm)
    (hk : Keeps fpm z s) : Keeps fpm z (State.serveAtomic s r x) := by
  refine Keeps.step ?_ hfp hk
  unfold State.serveAtomic
  repeat' first
    | with_reducible assumption
    | decide
    | with_reducible exact Keeps.refl _ _
    | with_reducible apply State.dirtied_keeps
    | with_reducible apply State.injLine_keeps
    | with_reducible apply State.wroteBy_keeps
    | with_reducible apply State.answer_keeps
    | with_reducible apply State.pour_keeps
    | with_reducible apply keeps_whenever
    | with_reducible apply keeps_foldl
    | with_reducible apply KeepsE.ok
    | with_reducible exact KeepsE.error
    | with_reducible apply KeepsO.some
    | with_reducible exact KeepsO.none
    | with_reducible apply KeepsO.bind
    | with_reducible apply KeepsQ.some
    | with_reducible exact KeepsQ.none
    | with_reducible apply KeepsQ.map
    | with_reducible apply KeepsO.map
    | with_reducible apply keepsP_foldl
    | with_reducible apply keepsP_ite
    | with_reducible apply KeepsO.getD
    | with_reducible apply KeepsP.fst
    | with_reducible apply keeps_ite
    | simp only [keeps_set_cellar_iff (m := 573694) rfl]
    | split
    | with_reducible apply KeepsP.mk
    | dsimp only
    | (intro _; intros)
    | (refine KeepsO.get ?_ (by assumption))
    | (refine KeepsE.get ?_ (by assumption))
    | (refine KeepsR.get ?_ (by assumption))
    | (refine KeepsP.get ?_ (by assumption))
    | (refine KeepsQ.get ?_ (by assumption))

theorem State.perform_keeps {fpm : Nat} {z : State} (s : State) (r : Req) (x : Line) (hfp : 573694 ||| fpm = fpm)
    (hk : Keeps fpm z s) : Keeps fpm z (State.perform s r x) := by
  refine Keeps.step ?_ hfp hk
  unfold State.perform
  repeat' first
    | with_reducible assumption
    | decide
    | with_reducible exact Keeps.refl _ _
    | with_reducible apply State.serveAtomic_keeps
    | with_reducible apply State.serveWrite_keeps
    | with_reducible apply State.serveRead_keeps
    | with_reducible apply keeps_whenever
    | with_reducible apply keeps_foldl
    | with_reducible apply KeepsE.ok
    | with_reducible exact KeepsE.error
    | with_reducible apply KeepsO.some
    | with_reducible exact KeepsO.none
    | with_reducible apply KeepsO.bind
    | with_reducible apply KeepsQ.some
    | with_reducible exact KeepsQ.none
    | with_reducible apply KeepsQ.map
    | with_reducible apply KeepsO.map
    | with_reducible apply KeepsO.getD
    | with_reducible apply KeepsP.fst
    | with_reducible apply keeps_ite
    | split
    | dsimp only
    | (intro _; intros)
    | (refine KeepsO.get ?_ (by assumption))
    | (refine KeepsE.get ?_ (by assumption))
    | (refine KeepsR.get ?_ (by assumption))
    | (refine KeepsP.get ?_ (by assumption))
    | (refine KeepsQ.get ?_ (by assumption))

theorem State.bypass_keeps {fpm : Nat} {z : State} (s : State) (r : Req) (hfp : 573694 ||| fpm = fpm)
    (hk : Keeps fpm z s) : Keeps fpm z (State.bypass s r) := by
  refine Keeps.step ?_ hfp hk
  unfold State.bypass
  repeat' first
    | with_reducible assumption
    | decide
    | with_reducible exact Keeps.refl _ _
    | with_reducible apply State.serveRead_keeps
    | with_reducible apply State.dirtied_keeps
    | with_reducible apply State.wroteBy_keeps
    | with_reducible apply State.giveUp_keeps
    | with_reducible apply State.handOn_keeps
    | with_reducible apply State.answer_keeps
    | with_reducible apply State.tally_keeps
    | with_reducible apply State.pour_keeps
    | with_reducible apply keeps_whenever
    | with_reducible apply keeps_foldl
    | with_reducible apply KeepsE.ok
    | with_reducible exact KeepsE.error
    | with_reducible apply KeepsO.some
    | with_reducible exact KeepsO.none
    | with_reducible apply KeepsO.bind
    | with_reducible apply KeepsQ.some
    | with_reducible exact KeepsQ.none
    | with_reducible apply KeepsQ.map
    | with_reducible apply KeepsO.map
    | with_reducible apply KeepsO.getD
    | with_reducible apply KeepsP.fst
    | with_reducible apply keeps_ite
    | split
    | dsimp only
    | (intro _; intros)
    | (refine KeepsO.get ?_ (by assumption))
    | (refine KeepsE.get ?_ (by assumption))
    | (refine KeepsR.get ?_ (by assumption))
    | (refine KeepsP.get ?_ (by assumption))
    | (refine KeepsQ.get ?_ (by assumption))

theorem State.absorb_keeps {fpm : Nat} {z : State} (s : State) (l : Nat) (d : List Byte) (poison : Bool) (hfp : 16476 ||| fpm = fpm)
    (hk : Keeps fpm z s) : Keeps fpm z (State.absorb s l d poison) := by
  refine Keeps.step ?_ hfp hk
  unfold State.absorb
  repeat' first
    | with_reducible assumption
    | decide
    | with_reducible exact Keeps.refl _ _
    | with_reducible apply State.dirtied_keeps
    | with_reducible apply State.pour_keeps
    | with_reducible apply keeps_whenever
    | with_reducible apply keeps_foldl
    | with_reducible apply KeepsE.ok
    | with_reducible exact KeepsE.error
    | with_reducible apply KeepsO.some
    | with_reducible exact KeepsO.none
    | with_reducible apply KeepsO.bind
    | with_reducible apply KeepsQ.some
    | with_reducible exact KeepsQ.none
    | with_reducible apply KeepsQ.map
    | with_reducible apply KeepsO.map
    | with_reducible apply KeepsO.getD
    | with_reducible apply KeepsP.fst
    | with_reducible apply keeps_ite
    | simp only [keeps_set_cellar_iff (m := 16476) rfl]
    | split
    | dsimp only
    | (intro _; intros)
    | (refine KeepsO.get ?_ (by assumption))
    | (refine KeepsE.get ?_ (by assumption))
    | (refine KeepsR.get ?_ (by assumption))
    | (refine KeepsP.get ?_ (by assumption))
    | (refine KeepsQ.get ?_ (by assumption))

theorem State.stray_keeps {fpm : Nat} {z : State} (s : State) (l : Nat) (hfp : 557056 ||| fpm = fpm)
    (hk : Keeps fpm z s) : Keeps fpm z (State.stray s l) := by
  refine Keeps.step ?_ hfp hk
  unfold State.stray
  repeat' first
    | with_reducible assumption
    | decide
    | with_reducible exact Keeps.refl _ _
    | with_reducible apply State.report_keeps
    | with_reducible apply State.sticky_keeps
    | with_reducible apply State.bump_keeps
    | with_reducible apply keeps_whenever
    | with_reducible apply keeps_foldl
    | with_reducible apply KeepsE.ok
    | with_reducible exact KeepsE.error
    | with_reducible apply KeepsO.some
    | with_reducible exact KeepsO.none
    | with_reducible apply KeepsO.bind
    | with_reducible apply KeepsQ.some
    | with_reducible exact KeepsQ.none
    | with_reducible apply KeepsQ.map
    | with_reducible apply KeepsO.map
    | with_reducible apply KeepsO.getD
    | with_reducible apply KeepsP.fst
    | with_reducible apply keeps_ite
    | split
    | dsimp only
    | (intro _; intros)
    | (refine KeepsO.get ?_ (by assumption))
    | (refine KeepsE.get ?_ (by assumption))
    | (refine KeepsR.get ?_ (by assumption))
    | (refine KeepsP.get ?_ (by assumption))
    | (refine KeepsQ.get ?_ (by assumption))

theorem State.takeEvict_keeps {fpm : Nat} {z : State} (s : State) (m : AbMsg) (hfp : 573660 ||| fpm = fpm)
    (hk : Keeps fpm z s) : Keeps fpm z (State.takeEvict s m) := by
  refine Keeps.step ?_ hfp hk
  unfold State.takeEvict
  repeat' first
    | with_reducible assumption
    | decide
    | with_reducible exact Keeps.refl _ _
    | with_reducible apply State.absorb_keeps
    | with_reducible apply State.sendAb_keeps
    | with_reducible apply State.stray_keeps
    | with_reducible apply keeps_whenever
    | with_reducible apply keeps_foldl
    | with_reducible apply KeepsE.ok
    | with_reducible exact KeepsE.error
    | with_reducible apply KeepsO.some
    | with_reducible exact KeepsO.none
    | with_reducible apply KeepsO.bind
    | with_reducible apply KeepsQ.some
    | with_reducible exact KeepsQ.none
    | with_reducible apply KeepsQ.map
    | with_reducible apply KeepsO.map
    | with_reducible apply KeepsO.getD
    | with_reducible apply KeepsP.fst
    | with_reducible apply keeps_ite
    | simp only [keeps_set_cellar_iff (m := 573660) rfl]
    | simp only [keeps_set_cellar_coh_iff (m := 573660) rfl rfl]
    | simp only [keeps_set_coh_iff (m := 573660) rfl]
    | split
    | dsimp only
    | (intro _; intros)
    | (refine KeepsO.get ?_ (by assumption))
    | (refine KeepsE.get ?_ (by assumption))
    | (refine KeepsR.get ?_ (by assumption))
    | (refine KeepsP.get ?_ (by assumption))
    | (refine KeepsQ.get ?_ (by assumption))

theorem State.dropDead_keeps {fpm : Nat} {z : State} (s : State) (l : Nat) (hfp : 524352 ||| fpm = fpm)
    (hk : Keeps fpm z s) : Keeps fpm z (State.dropDead s l) := by
  refine Keeps.step ?_ hfp hk
  unfold State.dropDead
  repeat' first
    | with_reducible assumption
    | decide
    | with_reducible exact Keeps.refl _ _
    | with_reducible apply State.tally_keeps
    | with_reducible apply keeps_whenever
    | with_reducible apply keeps_foldl
    | with_reducible apply KeepsE.ok
    | with_reducible exact KeepsE.error
    | with_reducible apply KeepsO.some
    | with_reducible exact KeepsO.none
    | with_reducible apply KeepsO.bind
    | with_reducible apply KeepsQ.some
    | with_reducible exact KeepsQ.none
    | with_reducible apply KeepsQ.map
    | with_reducible apply KeepsO.map
    | with_reducible apply KeepsO.getD
    | with_reducible apply KeepsP.fst
    | with_reducible apply keeps_ite
    | simp only [keeps_set_cellar_iff (m := 524352) rfl]
    | split
    | dsimp only
    | (intro _; intros)
    | (refine KeepsO.get ?_ (by assumption))
    | (refine KeepsE.get ?_ (by assumption))
    | (refine KeepsR.get ?_ (by assumption))
    | (refine KeepsP.get ?_ (by assumption))
    | (refine KeepsQ.get ?_ (by assumption))

theorem State.closeTxn_keeps {fpm : Nat} {z : State} (s : State) (l : Nat) (hfp : 573660 ||| fpm = fpm)
    (hk : Keeps fpm z s) : Keeps fpm z (State.closeTxn s l) := by
  refine Keeps.step ?_ hfp hk
  unfold State.closeTxn
  repeat' first
    | with_reducible assumption
    | decide
    | with_reducible exact Keeps.refl _ _
    | with_reducible apply State.takeEvict_keeps
    | with_reducible apply State.dropDead_keeps
    | with_reducible apply State.sendAb_keeps
    | with_reducible apply keeps_whenever
    | with_reducible apply keeps_foldl
    | with_reducible apply KeepsE.ok
    | with_reducible exact KeepsE.error
    | with_reducible apply KeepsO.some
    | with_reducible exact KeepsO.none
    | with_reducible apply KeepsO.bind
    | with_reducible apply KeepsQ.some
    | with_reducible exact KeepsQ.none
    | with_reducible apply KeepsQ.map
    | with_reducible apply KeepsO.map
    | with_reducible apply KeepsO.getD
    | with_reducible apply KeepsP.fst
    | with_reducible apply keeps_ite
    | simp only [keeps_set_coh_iff (m := 573660) rfl]
    | split
    | dsimp only
    | (intro _; intros)
    | (refine KeepsO.get ?_ (by assumption))
    | (refine KeepsE.get ?_ (by assumption))
    | (refine KeepsR.get ?_ (by assumption))
    | (refine KeepsP.get ?_ (by assumption))
    | (refine KeepsQ.get ?_ (by assumption))

theorem State.lookup_keeps {fpm : Nat} {z : State} (s : State) (r : Req) (hit : Bool) (hfp : 524288 ||| fpm = fpm)
    (hk : Keeps fpm z s) : Keeps fpm z (State.lookup s r hit) := by
  refine Keeps.step ?_ hfp hk
  unfold State.lookup
  repeat' first
    | with_reducible assumption
    | decide
    | with_reducible exact Keeps.refl _ _
    | with_reducible apply State.tally_keeps
    | with_reducible apply keeps_whenever
    | with_reducible apply keeps_foldl
    | with_reducible apply KeepsE.ok
    | with_reducible exact KeepsE.error
    | with_reducible apply KeepsO.some
    | with_reducible exact KeepsO.none
    | with_reducible apply KeepsO.bind
    | with_reducible apply KeepsQ.some
    | with_reducible exact KeepsQ.none
    | with_reducible apply KeepsQ.map
    | with_reducible apply KeepsO.map
    | with_reducible apply KeepsO.getD
    | with_reducible apply KeepsP.fst
    | with_reducible apply keeps_ite
    | split
    | dsimp only
    | (intro _; intros)
    | (refine KeepsO.get ?_ (by assumption))
    | (refine KeepsE.get ?_ (by assumption))
    | (refine KeepsR.get ?_ (by assumption))
    | (refine KeepsP.get ?_ (by assumption))
    | (refine KeepsQ.get ?_ (by assumption))

theorem State.serveHbm_keeps {fpm : Nat} {z : State} (s : State) (r : Req) (hfp : 573694 ||| fpm = fpm)
    (hk : Keeps fpm z s) : Keeps fpm z (State.serveHbm s r) := by
  refine Keeps.step ?_ hfp hk
  unfold State.serveHbm
  repeat' first
    | with_reducible assumption
    | decide
    | with_reducible exact Keeps.refl _ _
    | with_reducible apply State.decodeLine_keeps
    | with_reducible apply State.touchLine_keeps
    | with_reducible apply State.closeTxn_keeps
    | with_reducible apply State.dirtied_keeps
    | with_reducible apply State.perform_keeps
    | with_reducible apply State.wroteBy_keeps
    | with_reducible apply State.lookup_keeps
    | with_reducible apply State.handOn_keeps
    | with_reducible apply State.snoop_keeps
    | with_reducible apply keeps_whenever
    | with_reducible apply keeps_foldl
    | with_reducible apply KeepsE.ok
    | with_reducible exact KeepsE.error
    | with_reducible apply KeepsO.some
    | with_reducible exact KeepsO.none
    | with_reducible apply KeepsO.bind
    | with_reducible apply KeepsQ.some
    | with_reducible exact KeepsQ.none
    | with_reducible apply KeepsQ.map
    | with_reducible apply KeepsO.map
    | with_reducible apply KeepsO.getD
    | with_reducible apply KeepsP.fst
    | with_reducible apply keeps_ite
    | split
    | dsimp only
    | (intro _; intros)
    | (refine KeepsO.get ?_ (by assumption))
    | (refine KeepsE.get ?_ (by assumption))
    | (refine KeepsR.get ?_ (by assumption))
    | (refine KeepsP.get ?_ (by assumption))
    | (refine KeepsQ.get ?_ (by assumption))

theorem State.pumpAtomic_keeps {fpm : Nat} {z : State} (s : State) (r : Req) (hfp : 132 ||| fpm = fpm)
    (hk : Keeps fpm z s) : Keeps fpm z (State.pumpAtomic s r) := by
  refine Keeps.step ?_ hfp hk
  unfold State.pumpAtomic
  repeat' first
    | with_reducible assumption
    | decide
    | with_reducible exact Keeps.refl _ _
    | with_reducible apply State.setReq_keeps
    | with_reducible apply State.sendAb_keeps
    | with_reducible apply keeps_whenever
    | with_reducible apply keeps_foldl
    | with_reducible apply KeepsE.ok
    | with_reducible exact KeepsE.error
    | with_reducible apply KeepsO.some
    | with_reducible exact KeepsO.none
    | with_reducible apply KeepsO.bind
    | with_reducible apply KeepsQ.some
    | with_reducible exact KeepsQ.none
    | with_reducible apply KeepsQ.map
    | with_reducible apply KeepsO.map
    | with_reducible apply KeepsO.getD
    | with_reducible apply KeepsP.fst
    | with_reducible apply keeps_ite
    | split
    | dsimp only
    | (intro _; intros)
    | (refine KeepsO.get ?_ (by assumption))
    | (refine KeepsE.get ?_ (by assumption))
    | (refine KeepsR.get ?_ (by assumption))
    | (refine KeepsP.get ?_ (by assumption))
    | (refine KeepsQ.get ?_ (by assumption))

theorem State.serveComp_keeps {fpm : Nat} {z : State} (s : State) (r : Req) (hfp : 557254 ||| fpm = fpm)
    (hk : Keeps fpm z s) : Keeps fpm z (State.serveComp s r) := by
  refine Keeps.step ?_ hfp hk
  unfold State.serveComp
  repeat' first
    | with_reducible assumption
    | decide
    | with_reducible exact Keeps.refl _ _
    | with_reducible apply State.pumpAtomic_keeps
    | with_reducible apply State.decodeLine_keeps
    | with_reducible apply State.serveRead_keeps
    | with_reducible apply State.touchLine_keeps
    | with_reducible apply State.lookup_keeps
    | with_reducible apply State.setReq_keeps
    | with_reducible apply State.sendAb_keeps
    | with_reducible apply State.answer_keeps
    | with_reducible apply keeps_whenever
    | with_reducible apply keeps_foldl
    | with_reducible apply KeepsE.ok
    | with_reducible exact KeepsE.error
    | with_reducible apply KeepsO.some
    | with_reducible exact KeepsO.none
    | with_reducible apply KeepsO.bind
    | with_reducible apply KeepsQ.some
    | with_reducible exact KeepsQ.none
    | with_reducible apply KeepsQ.map
    | with_reducible apply KeepsO.map
    | with_reducible apply KeepsO.getD
    | with_reducible apply KeepsP.fst
    | with_reducible apply keeps_ite
    | simp only [keeps_set_cellar_iff (m := 557254) rfl]
    | split
    | dsimp only
    | (intro _; intros)
    | (refine KeepsO.get ?_ (by assumption))
    | (refine KeepsE.get ?_ (by assumption))
    | (refine KeepsR.get ?_ (by assumption))
    | (refine KeepsP.get ?_ (by assumption))
    | (refine KeepsQ.get ?_ (by assumption))

theorem State.serve_keeps {fpm : Nat} {z : State} (s : State) (tag : Nat) (kinds : List ReqKind) (hfp : 573694 ||| fpm = fpm)
    (hk : Keeps fpm z s) : Keeps fpm z (State.serve s tag kinds) := by
  refine Keeps.step ?_ hfp hk
  unfold State.serve
  repeat' first
    | with_reducible assumption
    | decide
    | with_reducible exact Keeps.refl _ _
    | with_reducible apply State.serveComp_keeps
    | with_reducible apply State.serveHbm_keeps
    | with_reducible apply State.setReq_keeps
    | with_reducible apply keeps_whenever
    | with_reducible apply keeps_foldl
    | with_reducible apply KeepsE.ok
    | with_reducible exact KeepsE.error
    | with_reducible apply KeepsO.some
    | with_reducible exact KeepsO.none
    | with_reducible apply KeepsO.bind
    | with_reducible apply KeepsQ.some
    | with_reducible exact KeepsQ.none
    | with_reducible apply KeepsQ.map
    | with_reducible apply KeepsO.map
    | with_reducible apply KeepsO.getD
    | with_reducible apply KeepsP.fst
    | with_reducible apply keeps_ite
    | simp only [keeps_set_accepts_iff (m := 573694) rfl]
    | split
    | dsimp only
    | (intro _; intros)
    | (refine KeepsO.get ?_ (by assumption))
    | (refine KeepsE.get ?_ (by assumption))
    | (refine KeepsR.get ?_ (by assumption))
    | (refine KeepsP.get ?_ (by assumption))
    | (refine KeepsQ.get ?_ (by assumption))

theorem execCaskRead_keeps (tag : Nat) (s : State) : KeepsR 573694 s (execCaskRead tag s) := by
  unfold execCaskRead
  repeat' first
    | with_reducible assumption
    | decide
    | with_reducible exact Keeps.refl _ _
    | with_reducible apply State.serve_keeps
    | with_reducible apply keeps_whenever
    | with_reducible apply keeps_foldl
    | with_reducible apply KeepsR.next
    | with_reducible apply KeepsR.onCore
    | with_reducible apply KeepsR.onPart
    | with_reducible exact KeepsR.fault
    | with_reducible apply KeepsE.ok
    | with_reducible exact KeepsE.error
    | with_reducible apply KeepsO.some
    | with_reducible exact KeepsO.none
    | with_reducible apply KeepsO.bind
    | with_reducible apply KeepsQ.some
    | with_reducible exact KeepsQ.none
    | with_reducible apply KeepsQ.map
    | with_reducible apply KeepsO.map
    | with_reducible apply KeepsO.getD
    | with_reducible apply KeepsP.fst
    | with_reducible apply keeps_ite
    | split
    | dsimp only
    | (intro _; intros)
    | (refine KeepsO.get ?_ (by assumption))
    | (refine KeepsE.get ?_ (by assumption))
    | (refine KeepsR.get ?_ (by assumption))
    | (refine KeepsP.get ?_ (by assumption))
    | (refine KeepsQ.get ?_ (by assumption))

theorem execCaskWrite_keeps (tag : Nat) (s : State) : KeepsR 573694 s (execCaskWrite tag s) := by
  unfold execCaskWrite
  repeat' first
    | with_reducible assumption
    | decide
    | with_reducible exact Keeps.refl _ _
    | with_reducible apply State.serve_keeps
    | with_reducible apply keeps_whenever
    | with_reducible apply keeps_foldl
    | with_reducible apply KeepsR.next
    | with_reducible apply KeepsR.onCore
    | with_reducible apply KeepsR.onPart
    | with_reducible exact KeepsR.fault
    | with_reducible apply KeepsE.ok
    | with_reducible exact KeepsE.error
    | with_reducible apply KeepsO.some
    | with_reducible exact KeepsO.none
    | with_reducible apply KeepsO.bind
    | with_reducible apply KeepsQ.some
    | with_reducible exact KeepsQ.none
    | with_reducible apply KeepsQ.map
    | with_reducible apply KeepsO.map
    | with_reducible apply KeepsO.getD
    | with_reducible apply KeepsP.fst
    | with_reducible apply keeps_ite
    | split
    | dsimp only
    | (intro _; intros)
    | (refine KeepsO.get ?_ (by assumption))
    | (refine KeepsE.get ?_ (by assumption))
    | (refine KeepsR.get ?_ (by assumption))
    | (refine KeepsP.get ?_ (by assumption))
    | (refine KeepsQ.get ?_ (by assumption))

theorem execCaskAtomic_keeps (tag : Nat) (s : State) : KeepsR 573694 s (execCaskAtomic tag s) := by
  unfold execCaskAtomic
  repeat' first
    | with_reducible assumption
    | decide
    | with_reducible exact Keeps.refl _ _
    | with_reducible apply State.serve_keeps
    | with_reducible apply keeps_whenever
    | with_reducible apply keeps_foldl
    | with_reducible apply KeepsR.next
    | with_reducible apply KeepsR.onCore
    | with_reducible apply KeepsR.onPart
    | with_reducible exact KeepsR.fault
    | with_reducible apply KeepsE.ok
    | with_reducible exact KeepsE.error
    | with_reducible apply KeepsO.some
    | with_reducible exact KeepsO.none
    | with_reducible apply KeepsO.bind
    | with_reducible apply KeepsQ.some
    | with_reducible exact KeepsQ.none
    | with_reducible apply KeepsQ.map
    | with_reducible apply KeepsO.map
    | with_reducible apply KeepsO.getD
    | with_reducible apply KeepsP.fst
    | with_reducible apply keeps_ite
    | split
    | dsimp only
    | (intro _; intros)
    | (refine KeepsO.get ?_ (by assumption))
    | (refine KeepsE.get ?_ (by assumption))
    | (refine KeepsR.get ?_ (by assumption))
    | (refine KeepsP.get ?_ (by assumption))
    | (refine KeepsQ.get ?_ (by assumption))

theorem execBackingFill_keeps (tag : Nat) (s : State) : KeepsR 573694 s (execBackingFill tag s) := by
  unfold execBackingFill
  repeat' first
    | with_reducible assumption
    | decide
    | with_reducible exact Keeps.refl _ _
    | with_reducible apply State.insertLine_keeps
    | with_reducible apply State.serveRead_keeps
    | with_reducible apply State.makeRoom_keeps
    | with_reducible apply State.perform_keeps
    | with_reducible apply State.bypass_keeps
    | with_reducible apply keeps_whenever
    | with_reducible apply keeps_foldl
    | with_reducible apply KeepsR.next
    | with_reducible apply KeepsR.onCore
    | with_reducible apply KeepsR.onPart
    | with_reducible exact KeepsR.fault
    | with_reducible apply KeepsE.ok
    | with_reducible exact KeepsE.error
    | with_reducible apply KeepsO.some
    | with_reducible exact KeepsO.none
    | with_reducible apply KeepsO.bind
    | with_reducible apply KeepsQ.some
    | with_reducible exact KeepsQ.none
    | with_reducible apply KeepsQ.map
    | with_reducible apply KeepsO.map
    | with_reducible apply KeepsO.getD
    | with_reducible apply KeepsP.fst
    | with_reducible apply keeps_ite
    | (refine KeepsRoom.ok ?_ (by assumption))
    | (refine KeepsRoom.wait ?_ (by assumption))
    | apply State.makeRoom_keeps
    | apply layLine_keeps
    | split
    | dsimp only
    | (intro _; intros)
    | (refine KeepsO.get ?_ (by assumption))
    | (refine KeepsE.get ?_ (by assumption))
    | (refine KeepsR.get ?_ (by assumption))
    | (refine KeepsP.get ?_ (by assumption))
    | (refine KeepsQ.get ?_ (by assumption))

theorem execBackingWriteAck_keeps (tag : Nat) (s : State) : KeepsR 32902 s (execBackingWriteAck tag s) := by
  unfold execBackingWriteAck
  repeat' first
    | with_reducible assumption
    | decide
    | with_reducible exact Keeps.refl _ _
    | with_reducible apply State.answer_keeps
    | with_reducible apply keeps_whenever
    | with_reducible apply keeps_foldl
    | with_reducible apply KeepsR.next
    | with_reducible apply KeepsR.onCore
    | with_reducible apply KeepsR.onPart
    | with_reducible exact KeepsR.fault
    | with_reducible apply KeepsE.ok
    | with_reducible exact KeepsE.error
    | with_reducible apply KeepsO.some
    | with_reducible exact KeepsO.none
    | with_reducible apply KeepsO.bind
    | with_reducible apply KeepsQ.some
    | with_reducible exact KeepsQ.none
    | with_reducible apply KeepsQ.map
    | with_reducible apply KeepsO.map
    | with_reducible apply KeepsO.getD
    | with_reducible apply KeepsP.fst
    | with_reducible apply keeps_ite
    | split
    | dsimp only
    | (intro _; intros)
    | (refine KeepsO.get ?_ (by assumption))
    | (refine KeepsE.get ?_ (by assumption))
    | (refine KeepsR.get ?_ (by assumption))
    | (refine KeepsP.get ?_ (by assumption))
    | (refine KeepsQ.get ?_ (by assumption))

theorem State.asked_keeps {fpm : Nat} {z : State} (s : State) (l : Nat) (hfp : 524416 ||| fpm = fpm)
    (hk : Keeps fpm z s) : Keeps fpm z (State.asked s l) := by
  refine Keeps.step ?_ hfp hk
  unfold State.asked
  repeat' first
    | with_reducible assumption
    | decide
    | with_reducible exact Keeps.refl _ _
    | with_reducible apply State.snoop_keeps
    | with_reducible apply keeps_whenever
    | with_reducible apply keeps_foldl
    | with_reducible apply KeepsE.ok
    | with_reducible exact KeepsE.error
    | with_reducible apply KeepsO.some
    | with_reducible exact KeepsO.none
    | with_reducible apply KeepsO.bind
    | with_reducible apply KeepsQ.some
    | with_reducible exact KeepsQ.none
    | with_reducible apply KeepsQ.map
    | with_reducible apply KeepsO.map
    | with_reducible apply KeepsO.getD
    | with_reducible apply KeepsP.fst
    | with_reducible apply keeps_ite
    | split
    | dsimp only
    | (intro _; intros)
    | (refine KeepsO.get ?_ (by assumption))
    | (refine KeepsE.get ?_ (by assumption))
    | (refine KeepsR.get ?_ (by assumption))
    | (refine KeepsP.get ?_ (by assumption))
    | (refine KeepsQ.get ?_ (by assumption))

theorem execCommitList_keeps (pos : Nat) (s : State) : KeepsR 573660 s (execCommitList pos s) := by
  unfold execCommitList
  repeat' first
    | with_reducible assumption
    | decide
    | with_reducible exact Keeps.refl _ _
    | with_reducible apply State.decodeLine_keeps
    | with_reducible apply State.dirtied_keeps
    | with_reducible apply State.asked_keeps
    | with_reducible apply State.pour_keeps
    | with_reducible apply keeps_whenever
    | with_reducible apply keeps_foldl
    | with_reducible apply KeepsR.next
    | with_reducible apply KeepsR.onCore
    | with_reducible apply KeepsR.onPart
    | with_reducible exact KeepsR.fault
    | with_reducible apply KeepsE.ok
    | with_reducible exact KeepsE.error
    | with_reducible apply KeepsO.some
    | with_reducible exact KeepsO.none
    | with_reducible apply KeepsO.bind
    | with_reducible apply KeepsQ.some
    | with_reducible exact KeepsQ.none
    | with_reducible apply KeepsQ.map
    | with_reducible apply KeepsO.map
    | with_reducible apply KeepsO.getD
    | with_reducible apply KeepsP.fst
    | with_reducible apply keeps_ite
    | simp only [keeps_set_cellar_iff (m := 573660) rfl]
    | split
    | dsimp only
    | (intro _; intros)
    | (refine KeepsO.get ?_ (by assumption))
    | (refine KeepsE.get ?_ (by assumption))
    | (refine KeepsR.get ?_ (by assumption))
    | (refine KeepsP.get ?_ (by assumption))
    | (refine KeepsQ.get ?_ (by assumption))

theorem execCaskCommitComplete_keeps (pos : Nat) (s : State) : KeepsR 64 s (execCaskCommitComplete pos s) := by
  unfold execCaskCommitComplete
  repeat' first
    | with_reducible assumption
    | decide
    | with_reducible exact Keeps.refl _ _
    | with_reducible apply keeps_whenever
    | with_reducible apply keeps_foldl
    | with_reducible apply KeepsR.next
    | with_reducible apply KeepsR.onCore
    | with_reducible apply KeepsR.onPart
    | with_reducible exact KeepsR.fault
    | with_reducible apply KeepsE.ok
    | with_reducible exact KeepsE.error
    | with_reducible apply KeepsO.some
    | with_reducible exact KeepsO.none
    | with_reducible apply KeepsO.bind
    | with_reducible apply KeepsQ.some
    | with_reducible exact KeepsQ.none
    | with_reducible apply KeepsQ.map
    | with_reducible apply KeepsO.map
    | with_reducible apply KeepsO.getD
    | with_reducible apply KeepsP.fst
    | with_reducible apply keeps_ite
    | simp only [keeps_set_cellar_iff (m := 64) rfl]
    | split
    | dsimp only
    | (intro _; intros)
    | (refine KeepsO.get ?_ (by assumption))
    | (refine KeepsE.get ?_ (by assumption))
    | (refine KeepsR.get ?_ (by assumption))
    | (refine KeepsP.get ?_ (by assumption))
    | (refine KeepsQ.get ?_ (by assumption))

theorem execThrashWindow_keeps (s : State) : KeepsR 559168 s (execThrashWindow s) := by
  unfold execThrashWindow
  repeat' first
    | with_reducible assumption
    | decide
    | with_reducible exact Keeps.refl _ _
    | with_reducible apply State.sticky_keeps
    | with_reducible apply State.report_keeps
    | with_reducible apply State.setOd_keeps
    | with_reducible apply State.void_keeps
    | with_reducible apply keeps_whenever
    | with_reducible apply keeps_foldl
    | with_reducible apply KeepsR.next
    | with_reducible apply KeepsR.onCore
    | with_reducible apply KeepsR.onPart
    | with_reducible exact KeepsR.fault
    | with_reducible apply KeepsE.ok
    | with_reducible exact KeepsE.error
    | with_reducible apply KeepsO.some
    | with_reducible exact KeepsO.none
    | with_reducible apply KeepsO.bind
    | with_reducible apply KeepsQ.some
    | with_reducible exact KeepsQ.none
    | with_reducible apply KeepsQ.map
    | with_reducible apply KeepsO.map
    | with_reducible apply KeepsO.getD
    | with_reducible apply KeepsP.fst
    | with_reducible apply keeps_ite
    | simp only [keeps_set_cellar_iff (m := 559168) rfl]
    | split
    | dsimp only
    | (intro _; intros)
    | (refine KeepsO.get ?_ (by assumption))
    | (refine KeepsE.get ?_ (by assumption))
    | (refine KeepsR.get ?_ (by assumption))
    | (refine KeepsP.get ?_ (by assumption))
    | (refine KeepsQ.get ?_ (by assumption))

theorem State.sendFlush_keeps {fpm : Nat} {z : State} (s : State) (ents : List Nat) (hfp : 524416 ||| fpm = fpm)
    (hk : Keeps fpm z s) : Keeps fpm z (State.sendFlush s ents) := by
  refine Keeps.step ?_ hfp hk
  unfold State.sendFlush
  repeat' first
    | with_reducible assumption
    | decide
    | with_reducible exact Keeps.refl _ _
    | with_reducible apply State.sticky_keeps
    | with_reducible apply State.sendAb_keeps
    | with_reducible apply keeps_whenever
    | with_reducible apply keeps_foldl
    | with_reducible apply KeepsE.ok
    | with_reducible exact KeepsE.error
    | with_reducible apply KeepsO.some
    | with_reducible exact KeepsO.none
    | with_reducible apply KeepsO.bind
    | with_reducible apply KeepsQ.some
    | with_reducible exact KeepsQ.none
    | with_reducible apply KeepsQ.map
    | with_reducible apply KeepsO.map
    | with_reducible apply KeepsO.getD
    | with_reducible apply KeepsP.fst
    | with_reducible apply keeps_ite
    | simp only [keeps_set_coh_iff (m := 524416) rfl]
    | split
    | dsimp only
    | (intro _; intros)
    | (refine KeepsO.get ?_ (by assumption))
    | (refine KeepsE.get ?_ (by assumption))
    | (refine KeepsR.get ?_ (by assumption))
    | (refine KeepsP.get ?_ (by assumption))
    | (refine KeepsQ.get ?_ (by assumption))

theorem State.rehome_keeps {fpm : Nat} {z : State} (s : State) (lost : List Nat) (hfp : 132 ||| fpm = fpm)
    (hk : Keeps fpm z s) : Keeps fpm z (State.rehome s lost) := by
  refine Keeps.step ?_ hfp hk
  unfold State.rehome
  repeat' first
    | with_reducible assumption
    | decide
    | with_reducible exact Keeps.refl _ _
    | with_reducible apply keeps_whenever
    | with_reducible apply keeps_foldl
    | with_reducible apply KeepsE.ok
    | with_reducible exact KeepsE.error
    | with_reducible apply KeepsO.some
    | with_reducible exact KeepsO.none
    | with_reducible apply KeepsO.bind
    | with_reducible apply KeepsQ.some
    | with_reducible exact KeepsQ.none
    | with_reducible apply KeepsQ.map
    | with_reducible apply KeepsO.map
    | with_reducible apply KeepsO.getD
    | with_reducible apply KeepsP.fst
    | with_reducible apply keeps_ite
    | simp only [keeps_set_reqs_coh_iff (m := 132) rfl rfl]
    | split
    | dsimp only
    | (intro _; intros)
    | (refine KeepsO.get ?_ (by assumption))
    | (refine KeepsE.get ?_ (by assumption))
    | (refine KeepsR.get ?_ (by assumption))
    | (refine KeepsP.get ?_ (by assumption))
    | (refine KeepsQ.get ?_ (by assumption))

theorem State.keepCopies_keeps {fpm : Nat} {z : State} (s : State) (hfp : 128 ||| fpm = fpm)
    (hk : Keeps fpm z s) : Keeps fpm z (State.keepCopies s) := by
  refine Keeps.step ?_ hfp hk
  unfold State.keepCopies
  repeat' first
    | with_reducible assumption
    | decide
    | with_reducible exact Keeps.refl _ _
    | with_reducible apply keeps_whenever
    | with_reducible apply keeps_foldl
    | with_reducible apply KeepsE.ok
    | with_reducible exact KeepsE.error
    | with_reducible apply KeepsO.some
    | with_reducible exact KeepsO.none
    | with_reducible apply KeepsO.bind
    | with_reducible apply KeepsQ.some
    | with_reducible exact KeepsQ.none
    | with_reducible apply KeepsQ.map
    | with_reducible apply KeepsO.map
    | with_reducible apply KeepsO.getD
    | with_reducible apply KeepsP.fst
    | with_reducible apply keeps_ite
    | simp only [keeps_set_coh_iff (m := 128) rfl]
    | split
    | dsimp only
    | (intro _; intros)
    | (refine KeepsO.get ?_ (by assumption))
    | (refine KeepsE.get ?_ (by assumption))
    | (refine KeepsR.get ?_ (by assumption))
    | (refine KeepsP.get ?_ (by assumption))
    | (refine KeepsQ.get ?_ (by assumption))

theorem State.fold_keeps {fpm : Nat} {z : State} (s : State) (lost : List Nat) (hfp : 559300 ||| fpm = fpm)
    (hk : Keeps fpm z s) : Keeps fpm z (State.fold s lost) := by
  refine Keeps.step ?_ hfp hk
  unfold State.fold
  repeat' first
    | with_reducible assumption
    | decide
    | with_reducible exact Keeps.refl _ _
    | with_reducible apply State.keepCopies_keeps
    | with_reducible apply State.sendFlush_keeps
    | with_reducible apply State.rehome_keeps
    | with_reducible apply State.report_keeps
    | with_reducible apply State.sticky_keeps
    | with_reducible apply State.void_keeps
    | with_reducible apply keeps_whenever
    | with_reducible apply keeps_foldl
    | with_reducible apply KeepsE.ok
    | with_reducible exact KeepsE.error
    | with_reducible apply KeepsO.some
    | with_reducible exact KeepsO.none
    | with_reducible apply KeepsO.bind
    | with_reducible apply KeepsQ.some
    | with_reducible exact KeepsQ.none
    | with_reducible apply KeepsQ.map
    | with_reducible apply KeepsO.map
    | with_reducible apply KeepsO.getD
    | with_reducible apply KeepsP.fst
    | with_reducible apply keeps_ite
    | simp only [keeps_set_cellar_iff (m := 559300) rfl]
    | split
    | dsimp only
    | (intro _; intros)
    | (refine KeepsO.get ?_ (by assumption))
    | (refine KeepsE.get ?_ (by assumption))
    | (refine KeepsR.get ?_ (by assumption))
    | (refine KeepsP.get ?_ (by assumption))
    | (refine KeepsQ.get ?_ (by assumption))

theorem layLine_keeps {fpm : Nat} {z : State} (r : State × Bool) (l : Nat) (hfp : 557276 ||| fpm = fpm)
    (hk : KeepsP fpm z r) : KeepsP fpm z (layLine r l) := by
  unfold layLine
  dsimp only
  split
  · exact hk
  · have h := State.makeRoom_keeps r.1 l 0 (Keeps.sub hfp (by decide)) hk
    split
    · rename_i e
      exact State.insertLine_keeps _ _ (Keeps.sub hfp (by decide)) (h.1 _ e)
    · rename_i e
      exact h.2 _ e
    · exact hk

theorem State.relay_keeps {fpm : Nat} {z : State} (s : State) (hfp : 557276 ||| fpm = fpm)
    (hk : Keeps fpm z s) : Keeps fpm z s.relay := by
  have h : KeepsP fpm z (s.cellar.reserve.foldl layLine (s, true)) :=
    keepsP_foldl layLine (fun u x hu => layLine_keeps u x (Keeps.sub hfp (by decide)) hu) _ hk
  exact keeps_set_coh (Keeps.bit hfp (by decide)) (keeps_set_cellar (Keeps.bit hfp (by decide)) h)

theorem execReserveRelaid_keeps (s : State) : KeepsR 557276 s (execReserveRelaid s) := by
  unfold execReserveRelaid
  repeat' first
    | with_reducible assumption
    | decide
    | with_reducible exact Keeps.refl _ _
    | with_reducible apply State.relay_keeps
    | with_reducible apply keeps_whenever
    | with_reducible apply keeps_foldl
    | with_reducible apply KeepsR.next
    | with_reducible apply KeepsR.onCore
    | with_reducible apply KeepsR.onPart
    | with_reducible exact KeepsR.fault
    | with_reducible apply KeepsE.ok
    | with_reducible exact KeepsE.error
    | with_reducible apply KeepsO.some
    | with_reducible exact KeepsO.none
    | with_reducible apply KeepsO.bind
    | with_reducible apply KeepsQ.some
    | with_reducible exact KeepsQ.none
    | with_reducible apply KeepsQ.map
    | with_reducible apply KeepsO.map
    | with_reducible apply KeepsO.getD
    | with_reducible apply KeepsP.fst
    | with_reducible apply keeps_ite
    | split
    | dsimp only
    | (intro _; intros)
    | (refine KeepsO.get ?_ (by assumption))
    | (refine KeepsE.get ?_ (by assumption))
    | (refine KeepsR.get ?_ (by assumption))
    | (refine KeepsP.get ?_ (by assumption))
    | (refine KeepsQ.get ?_ (by assumption))

theorem State.unfoldCellar_keeps {fpm : Nat} {z : State} (s : State) (dead : List Nat) (hfp : 557276 ||| fpm = fpm)
    (hk : Keeps fpm z s) : Keeps fpm z (State.unfoldCellar s dead) := by
  refine Keeps.step ?_ hfp hk
  unfold State.unfoldCellar
  repeat' first
    | with_reducible assumption
    | decide
    | with_reducible exact Keeps.refl _ _
    | with_reducible apply State.keepCopies_keeps
    | with_reducible apply State.decodeLine_keeps
    | with_reducible apply State.sendFlush_keeps
    | with_reducible apply State.giveUp_keeps
    | with_reducible apply State.pour_keeps
    | with_reducible apply keeps_whenever
    | with_reducible apply keeps_foldl
    | with_reducible apply KeepsE.ok
    | with_reducible exact KeepsE.error
    | with_reducible apply KeepsO.some
    | with_reducible exact KeepsO.none
    | with_reducible apply KeepsO.bind
    | with_reducible apply KeepsQ.some
    | with_reducible exact KeepsQ.none
    | with_reducible apply KeepsQ.map
    | with_reducible apply KeepsO.map
    | with_reducible apply KeepsO.getD
    | with_reducible apply KeepsP.fst
    | with_reducible apply keeps_ite
    | simp only [keeps_set_cellar_iff (m := 557276) rfl]
    | split
    | dsimp only
    | (intro _; intros)
    | (refine KeepsO.get ?_ (by assumption))
    | (refine KeepsE.get ?_ (by assumption))
    | (refine KeepsR.get ?_ (by assumption))
    | (refine KeepsP.get ?_ (by assumption))
    | (refine KeepsQ.get ?_ (by assumption))

theorem State.dropMarked_keeps {fpm : Nat} {z : State} (s : State) (hfp : 524480 ||| fpm = fpm)
    (hk : Keeps fpm z s) : Keeps fpm z (State.dropMarked s) := by
  refine Keeps.step ?_ hfp hk
  unfold State.dropMarked
  repeat' first
    | with_reducible assumption
    | decide
    | with_reducible exact Keeps.refl _ _
    | with_reducible apply State.tally_keeps
    | with_reducible apply State.snoop_keeps
    | with_reducible apply keeps_whenever
    | with_reducible apply keeps_foldl
    | with_reducible apply KeepsE.ok
    | with_reducible exact KeepsE.error
    | with_reducible apply KeepsO.some
    | with_reducible exact KeepsO.none
    | with_reducible apply KeepsO.bind
    | with_reducible apply KeepsQ.some
    | with_reducible exact KeepsQ.none
    | with_reducible apply KeepsQ.map
    | with_reducible apply KeepsO.map
    | with_reducible apply KeepsO.getD
    | with_reducible apply KeepsP.fst
    | with_reducible apply keeps_ite
    | simp only [keeps_set_cellar_iff (m := 524480) rfl]
    | split
    | dsimp only
    | (intro _; intros)
    | (refine KeepsO.get ?_ (by assumption))
    | (refine KeepsE.get ?_ (by assumption))
    | (refine KeepsR.get ?_ (by assumption))
    | (refine KeepsP.get ?_ (by assumption))
    | (refine KeepsQ.get ?_ (by assumption))

theorem State.scrubSet_keeps {fpm : Nat} {z : State} (s : State) (pos set : Nat) (hfp : 557276 ||| fpm = fpm)
    (hk : Keeps fpm z s) : Keeps fpm z (State.scrubSet s pos set) := by
  refine Keeps.step ?_ hfp hk
  unfold State.scrubSet
  repeat' first
    | with_reducible assumption
    | decide
    | with_reducible exact Keeps.refl _ _
    | with_reducible apply State.decodeLine_keeps
    | with_reducible apply layLine_keeps
    | with_reducible apply keeps_whenever
    | with_reducible apply keeps_foldl
    | with_reducible apply KeepsE.ok
    | with_reducible exact KeepsE.error
    | with_reducible apply KeepsO.some
    | with_reducible exact KeepsO.none
    | with_reducible apply KeepsO.bind
    | with_reducible apply KeepsQ.some
    | with_reducible exact KeepsQ.none
    | with_reducible apply KeepsQ.map
    | with_reducible apply KeepsO.map
    | with_reducible apply KeepsO.getD
    | with_reducible apply KeepsP.fst
    | with_reducible apply keeps_ite
    | with_reducible apply KeepsP.mk
    | apply layLine_keeps
    | split
    | dsimp only
    | (intro _; intros)
    | (refine KeepsO.get ?_ (by assumption))
    | (refine KeepsE.get ?_ (by assumption))
    | (refine KeepsR.get ?_ (by assumption))
    | (refine KeepsP.get ?_ (by assumption))
    | (refine KeepsQ.get ?_ (by assumption))

end Sys2Proof.Machine
end

