-- ==== Sys2Proof/Laws/KeepsDictBase.lean ====
section
/-!
SUPPORT. Laws/KeepsDictBase.lean: what the operations of Machine/DictBase.lean may change.
-/

namespace Sys2Proof.Machine

set_option Elab.async false
set_option linter.all false

theorem State.recorded_keeps {fpm : Nat} {z : State} (s : State) (hfp : 131072 ||| fpm = fpm)
    (hk : Keeps fpm z s) : Keeps fpm z (State.recorded s) := by
  refine Keeps.step ?_ hfp hk
  unfold State.recorded
  repeat' first
    | with_reducible assumption
    | decide
    | with_reducible exact Keeps.refl _ _
    | with_reducible apply keeps_whenever
    | with_reducible apply keeps_foldl
    | with_reducible apply KeepsE.ok
    | with_reducible exact KeepsE.error
    | with_reducible apply KeepsO.some
    | with_reducible exact KeepsO.none
    | with_reducible apply KeepsO.bind
    | with_reducible apply KeepsQ.some
    | with_reducible exact KeepsQ.none
    | with_reducible apply KeepsQ.map
    | with_reducible apply KeepsO.map
    | with_reducible apply KeepsO.getD
    | with_reducible apply KeepsP.fst
    | with_reducible apply keeps_ite
    | simp only [keeps_set_bring_iff (m := 131072) rfl]
    | split
    | dsimp only
    | (intro _; intros)
    | (refine KeepsO.get ?_ (by assumption))
    | (refine KeepsE.get ?_ (by assumption))
    | (refine KeepsR.get ?_ (by assumption))
    | (refine KeepsP.get ?_ (by assumption))
    | (refine KeepsQ.get ?_ (by assumption))

theorem State.setLevel_keeps {fpm : Nat} {z : State} (s : State) (p : Path) (n : Nat) (hfp : 524288 ||| fpm = fpm)
    (hk : Keeps fpm z s) : Keeps fpm z (State.setLevel s p n) := by
  refine Keeps.step ?_ hfp hk
  unfold State.setLevel
  repeat' first
    | with_reducible assumption
    | decide
    | with_reducible exact Keeps.refl _ _
    | with_reducible apply keeps_whenever
    | with_reducible apply keeps_foldl
    | with_reducible apply KeepsE.ok
    | with_reducible exact KeepsE.error
    | with_reducible apply KeepsO.some
    | with_reducible exact KeepsO.none
    | with_reducible apply KeepsO.bind
    | with_reducible apply KeepsQ.some
    | with_reducible exact KeepsQ.none
    | with_reducible apply KeepsQ.map
    | with_reducible apply KeepsO.map
    | with_reducible apply KeepsO.getD
    | with_reducible apply KeepsP.fst
    | with_reducible apply keeps_ite
    | simp only [keeps_set_dict_iff (m := 524288) rfl]
    | split
    | dsimp only
    | (intro _; intros)
    | (refine KeepsO.get ?_ (by assumption))
    | (refine KeepsE.get ?_ (by assumption))
    | (refine KeepsR.get ?_ (by assumption))
    | (refine KeepsP.get ?_ (by assumption))
    | (refine KeepsQ.get ?_ (by assumption))

theorem State.setXfer_keeps {fpm : Nat} {z : State} (s : State) (p : Path) (x : Option Xfer) (hfp : 524288 ||| fpm = fpm)
    (hk : Keeps fpm z s) : Keeps fpm z (State.setXfer s p x) := by
  refine Keeps.step ?_ hfp hk
  unfold State.setXfer
  repeat' first
    | with_reducible assumption
    | decide
    | with_reducible exact Keeps.refl _ _
    | with_reducible apply keeps_whenever
    | with_reducible apply keeps_foldl
    | with_reducible apply KeepsE.ok
    | with_reducible exact KeepsE.error
    | with_reducible apply KeepsO.some
    | with_reducible exact KeepsO.none
    | with_reducible apply KeepsO.bind
    | with_reducible apply KeepsQ.some
    | with_reducible exact KeepsQ.none
    | with_reducible apply KeepsQ.map
    | with_reducible apply KeepsO.map
    | with_reducible apply KeepsO.getD
    | with_reducible apply KeepsP.fst
    | with_reducible apply keeps_ite
    | simp only [keeps_set_dict_iff (m := 524288) rfl]
    | split
    | dsimp only
    | (intro _; intros)
    | (refine KeepsO.get ?_ (by assumption))
    | (refine KeepsE.get ?_ (by assumption))
    | (refine KeepsR.get ?_ (by assumption))
    | (refine KeepsP.get ?_ (by assumption))
    | (refine KeepsQ.get ?_ (by assumption))

theorem State.dtpCount_keeps {fpm : Nat} {z : State} (s : State) (i : Nat) (hfp : 524288 ||| fpm = fpm)
    (hk : Keeps fpm z s) : Keeps fpm z (State.dtpCount s i) := by
  refine Keeps.step ?_ hfp hk
  unfold State.dtpCount
  repeat' first
    | with_reducible assumption
    | decide
    | with_reducible exact Keeps.refl _ _
    | with_reducible apply State.bumpLane_keeps
    | with_reducible apply keeps_whenever
    | with_reducible apply keeps_foldl
    | with_reducible apply KeepsE.ok
    | with_reducible exact KeepsE.error
    | with_reducible apply KeepsO.some
    | with_reducible exact KeepsO.none
    | with_reducible apply KeepsO.bind
    | with_reducible apply KeepsQ.some
    | with_reducible exact KeepsQ.none
    | with_reducible apply KeepsQ.map
    | with_reducible apply KeepsO.map
    | with_reducible apply KeepsO.getD
    | with_reducible apply KeepsP.fst
    | with_reducible apply keeps_ite
    | split
    | dsimp only
    | (intro _; intros)
    | (refine KeepsO.get ?_ (by assumption))
    | (refine KeepsE.get ?_ (by assumption))
    | (refine KeepsR.get ?_ (by assumption))
    | (refine KeepsP.get ?_ (by assumption))
    | (refine KeepsQ.get ?_ (by assumption))

theorem State.reply_keeps {fpm : Nat} {z : State} (s : State) (p : Path) (cmd tid idx sub : Nat) (data : List Byte) (hfp : 524288 ||| fpm = fpm)
    (hk : Keeps fpm z s) : Keeps fpm z (State.reply s p cmd tid idx sub data) := by
  refine Keeps.step ?_ hfp hk
  unfold State.reply
  repeat' first
    | with_reducible assumption
    | decide
    | with_reducible exact Keeps.refl _ _
    | with_reducible apply keeps_whenever
    | with_reducible apply keeps_foldl
    | with_reducible apply KeepsE.ok
    | with_reducible exact KeepsE.error
    | with_reducible apply KeepsO.some
    | with_reducible exact KeepsO.none
    | with_reducible apply KeepsO.bind
    | with_reducible apply KeepsQ.some
    | with_reducible exact KeepsQ.none
    | with_reducible apply KeepsQ.map
    | with_reducible apply KeepsO.map
    | with_reducible apply KeepsO.getD
    | with_reducible apply KeepsP.fst
    | with_reducible apply keeps_ite
    | simp only [keeps_set_dict_iff (m := 524288) rfl]
    | split
    | dsimp only
    | (intro _; intros)
    | (refine KeepsO.get ?_ (by assumption))
    | (refine KeepsE.get ?_ (by assumption))
    | (refine KeepsR.get ?_ (by assumption))
    | (refine KeepsP.get ?_ (by assumption))
    | (refine KeepsQ.get ?_ (by assumption))

theorem State.abortReq_keeps {fpm : Nat} {z : State} (s : State) (p : Path) (tid idx sub code : Nat) (hfp : 524288 ||| fpm = fpm)
    (hk : Keeps fpm z s) : Keeps fpm z (State.abortReq s p tid idx sub code) := by
  refine Keeps.step ?_ hfp hk
  unfold State.abortReq
  repeat' first
    | with_reducible assumption
    | decide
    | with_reducible exact Keeps.refl _ _
    | with_reducible apply State.dtpCount_keeps
    | with_reducible apply State.reply_keeps
    | with_reducible apply keeps_whenever
    | with_reducible apply keeps_foldl
    | with_reducible apply KeepsE.ok
    | with_reducible exact KeepsE.error
    | with_reducible apply KeepsO.some
    | with_reducible exact KeepsO.none
    | with_reducible apply KeepsO.bind
    | with_reducible apply KeepsQ.some
    | with_reducible exact KeepsQ.none
    | with_reducible apply KeepsQ.map
    | with_reducible apply KeepsO.map
    | with_reducible apply KeepsO.getD
    | with_reducible apply KeepsP.fst
    | with_reducible apply keeps_ite
    | split
    | dsimp only
    | (intro _; intros)
    | (refine KeepsO.get ?_ (by assumption))
    | (refine KeepsE.get ?_ (by assumption))
    | (refine KeepsR.get ?_ (by assumption))
    | (refine KeepsP.get ?_ (by assumption))
    | (refine KeepsQ.get ?_ (by assumption))

theorem State.finishWrite_keeps {fpm : Nat} {z : State} (s : State) (p : Path) (tid idx sub : Nat) (a : Act) (hfp : 524288 ||| fpm = fpm)
    (hk : Keeps fpm z s) (ha : KeepsE fpm z a) : Keeps fpm z (s.finishWrite p tid idx sub a) := by
  unfold State.finishWrite
  cases a with
  | ok t => exact State.dtpCount_keeps _ _ hfp (State.reply_keeps _ _ _ _ _ _ _ hfp (ha t rfl))
  | error e => exact State.abortReq_keeps _ _ _ _ _ _ hfp hk

theorem State.request_keeps {fpm : Nat} {z : State} (s : State) (p : Path) (tid idx sub lvl : Nat) (f : State → Act) (hff : ∀ v0, Keeps fpm z v0 → KeepsE fpm z (f v0))
    (hfp : 524288 ||| fpm = fpm) (hk : Keeps fpm z s) : Keeps fpm z (State.request s p tid idx sub lvl f) := by
  unfold State.request
  repeat' first
    | with_reducible assumption
    | exact Keeps.sub hfp rfl
    | exact Keeps.bit hfp rfl
    | with_reducible apply hff
    | with_reducible exact Keeps.refl _ _
    | with_reducible apply State.finishWrite_keeps
    | with_reducible apply State.abortReq_keeps
    | with_reducible apply keeps_whenever
    | with_reducible apply keeps_foldl
    | with_reducible apply KeepsE.ok
    | with_reducible exact KeepsE.error
    | with_reducible apply KeepsO.some
    | with_reducible exact KeepsO.none
    | with_reducible apply KeepsO.bind
    | with_reducible apply KeepsQ.some
    | with_reducible exact KeepsQ.none
    | with_reducible apply KeepsQ.map
    | with_reducible apply KeepsO.map
    | with_reducible apply KeepsO.getD
    | with_reducible apply KeepsP.fst
    | with_reducible apply keeps_ite
    | split
    | dsimp only
    | (intro _; intros)
    | (refine KeepsO.get ?_ (by assumption))
    | (refine KeepsE.get ?_ (by assumption))
    | (refine KeepsR.get ?_ (by assumption))
    | (refine KeepsP.get ?_ (by assumption))
    | (refine KeepsQ.get ?_ (by assumption))

theorem guardAct_keeps {fpm : Nat} {z : State} {b : Bool} {code : Nat} {a : Act} (ha : KeepsE fpm z a) :
    KeepsE fpm z (guardAct b code a) := by
  unfold guardAct; split
  · exact ha
  · exact KeepsE.error

theorem State.stage_keeps {fpm : Nat} {z : State} (s : State) (p : Path) (c k v : Nat) (hfp : 524288 ||| fpm = fpm)
    (hk : Keeps fpm z s) : Keeps fpm z (State.stage s p c k v) := by
  refine Keeps.step ?_ hfp hk
  unfold State.stage
  repeat' first
    | with_reducible assumption
    | decide
    | with_reducible exact Keeps.refl _ _
    | with_reducible apply keeps_whenever
    | with_reducible apply keeps_foldl
    | with_reducible apply KeepsE.ok
    | with_reducible exact KeepsE.error
    | with_reducible apply KeepsO.some
    | with_reducible exact KeepsO.none
    | with_reducible apply KeepsO.bind
    | with_reducible apply KeepsQ.some
    | with_reducible exact KeepsQ.none
    | with_reducible apply KeepsQ.map
    | with_reducible apply KeepsO.map
    | with_reducible apply KeepsO.getD
    | with_reducible apply KeepsP.fst
    | with_reducible apply keeps_ite
    | simp only [keeps_set_dict_iff (m := 524288) rfl]
    | split
    | dsimp only
    | (intro _; intros)
    | (refine KeepsO.get ?_ (by assumption))
    | (refine KeepsE.get ?_ (by assumption))
    | (refine KeepsR.get ?_ (by assumption))
    | (refine KeepsP.get ?_ (by assumption))
    | (refine KeepsQ.get ?_ (by assumption))

theorem State.clearGroup_keeps {fpm : Nat} {z : State} (s : State) (c : Nat) (hfp : 524288 ||| fpm = fpm)
    (hk : Keeps fpm z s) : Keeps fpm z (State.clearGroup s c) := by
  refine Keeps.step ?_ hfp hk
  unfold State.clearGroup
  repeat' first
    | with_reducible assumption
    | decide
    | with_reducible exact Keeps.refl _ _
    | with_reducible apply keeps_whenever
    | with_reducible apply keeps_foldl
    | with_reducible apply KeepsE.ok
    | with_reducible exact KeepsE.error
    | with_reducible apply KeepsO.some
    | with_reducible exact KeepsO.none
    | with_reducible apply KeepsO.bind
    | with_reducible apply KeepsQ.some
    | with_reducible exact KeepsQ.none
    | with_reducible apply KeepsQ.map
    | with_reducible apply KeepsO.map
    | with_reducible apply KeepsO.getD
    | with_reducible apply KeepsP.fst
    | with_reducible apply keeps_ite
    | simp only [keeps_set_dict_iff (m := 524288) rfl]
    | split
    | dsimp only
    | (intro _; intros)
    | (refine KeepsO.get ?_ (by assumption))
    | (refine KeepsE.get ?_ (by assumption))
    | (refine KeepsR.get ?_ (by assumption))
    | (refine KeepsP.get ?_ (by assumption))
    | (refine KeepsQ.get ?_ (by assumption))

theorem State.commitVals_keeps {fpm : Nat} {z : State} (s : State) (c : Nat) (hfp : 524288 ||| fpm = fpm)
    (hk : Keeps fpm z s) : Keeps fpm z (State.commitVals s c) := by
  refine Keeps.step ?_ hfp hk
  unfold State.commitVals
  repeat' first
    | with_reducible assumption
    | decide
    | with_reducible exact Keeps.refl _ _
    | with_reducible apply State.clearGroup_keeps
    | with_reducible apply State.setOd_keeps
    | with_reducible apply keeps_whenever
    | with_reducible apply keeps_foldl
    | with_reducible apply KeepsE.ok
    | with_reducible exact KeepsE.error
    | with_reducible apply KeepsO.some
    | with_reducible exact KeepsO.none
    | with_reducible apply KeepsO.bind
    | with_reducible apply KeepsQ.some
    | with_reducible exact KeepsQ.none
    | with_reducible apply KeepsQ.map
    | with_reducible apply KeepsO.map
    | with_reducible apply KeepsO.getD
    | with_reducible apply KeepsP.fst
    | with_reducible apply keeps_ite
    | split
    | dsimp only
    | (intro _; intros)
    | (refine KeepsO.get ?_ (by assumption))
    | (refine KeepsE.get ?_ (by assumption))
    | (refine KeepsR.get ?_ (by assumption))
    | (refine KeepsP.get ?_ (by assumption))
    | (refine KeepsQ.get ?_ (by assumption))

theorem State.dropXfer_keeps {fpm : Nat} {z : State} (s : State) (p : Path) (hfp : 557056 ||| fpm = fpm)
    (hk : Keeps fpm z s) : Keeps fpm z (State.dropXfer s p) := by
  refine Keeps.step ?_ hfp hk
  unfold State.dropXfer
  repeat' first
    | with_reducible assumption
    | decide
    | with_reducible exact Keeps.refl _ _
    | with_reducible apply State.setXfer_keeps
    | with_reducible apply State.report_keeps
    | with_reducible apply State.sticky_keeps
    | with_reducible apply keeps_whenever
    | with_reducible apply keeps_foldl
    | with_reducible apply KeepsE.ok
    | with_reducible exact KeepsE.error
    | with_reducible apply KeepsO.some
    | with_reducible exact KeepsO.none
    | with_reducible apply KeepsO.bind
    | with_reducible apply KeepsQ.some
    | with_reducible exact KeepsQ.none
    | with_reducible apply KeepsQ.map
    | with_reducible apply KeepsO.map
    | with_reducible apply KeepsO.getD
    | with_reducible apply KeepsP.fst
    | with_reducible apply keeps_ite
    | split
    | dsimp only
    | (intro _; intros)
    | (refine KeepsO.get ?_ (by assumption))
    | (refine KeepsE.get ?_ (by assumption))
    | (refine KeepsR.get ?_ (by assumption))
    | (refine KeepsP.get ?_ (by assumption))
    | (refine KeepsQ.get ?_ (by assumption))

theorem State.resetPath_keeps {fpm : Nat} {z : State} (s : State) (p : Path) (hfp : 557056 ||| fpm = fpm)
    (hk : Keeps fpm z s) : Keeps fpm z (State.resetPath s p) := by
  refine Keeps.step ?_ hfp hk
  unfold State.resetPath
  repeat' first
    | with_reducible assumption
    | decide
    | with_reducible exact Keeps.refl _ _
    | with_reducible apply State.clearGroup_keeps
    | with_reducible apply State.setLevel_keeps
    | with_reducible apply State.dropXfer_keeps
    | with_reducible apply keeps_whenever
    | with_reducible apply keeps_foldl
    | with_reducible apply KeepsE.ok
    | with_reducible exact KeepsE.error
    | with_reducible apply KeepsO.some
    | with_reducible exact KeepsO.none
    | with_reducible apply KeepsO.bind
    | with_reducible apply KeepsQ.some
    | with_reducible exact KeepsQ.none
    | with_reducible apply KeepsQ.map
    | with_reducible apply KeepsO.map
    | with_reducible apply KeepsO.getD
    | with_reducible apply KeepsP.fst
    | with_reducible apply keeps_ite
    | split
    | dsimp only
    | (intro _; intros)
    | (refine KeepsO.get ?_ (by assumption))
    | (refine KeepsE.get ?_ (by assumption))
    | (refine KeepsR.get ?_ (by assumption))
    | (refine KeepsP.get ?_ (by assumption))
    | (refine KeepsQ.get ?_ (by assumption))

end Sys2Proof.Machine
end

