-- ==== Sys2Proof/Laws/KeepsStackAttention.lean ====
section
/-!
SUPPORT. Laws/KeepsStackAttention.lean: what the operations of Machine/StackAttention.lean may change.
-/

namespace Sys2Proof.Machine

set_option Elab.async false
set_option linter.all false

theorem execAsend_keeps (c : Nat) (rd rs1 : Reg) (s : State) : KeepsR 2393102 s (execAsend c rd rs1 s) := by
  unfold execAsend
  repeat' first
    | with_reducible assumption
    | decide
    | with_reducible exact Keeps.refl _ _
    | with_reducible apply State.coreFault_keeps
    | with_reducible apply State.setCore_keeps
    | with_reducible apply State.ctl_keeps
    | with_reducible apply keeps_whenever
    | with_reducible apply keeps_foldl
    | with_reducible apply KeepsR.next
    | with_reducible apply KeepsR.onCore
    | with_reducible apply KeepsR.onPart
    | with_reducible exact KeepsR.fault
    | with_reducible apply KeepsE.ok
    | with_reducible exact KeepsE.error
    | with_reducible apply KeepsO.some
    | with_reducible exact KeepsO.none
    | with_reducible apply KeepsO.bind
    | with_reducible apply KeepsQ.some
    | with_reducible exact KeepsQ.none
    | with_reducible apply KeepsQ.map
    | with_reducible apply KeepsO.map
    | with_reducible apply KeepsO.getD
    | with_reducible apply KeepsP.fst
    | with_reducible apply keeps_ite
    | simp only [keeps_set_nextTag_sau_iff (m := 2393102) rfl rfl]
    | split
    | dsimp only
    | (intro _; intros)
    | (refine KeepsO.get ?_ (by assumption))
    | (refine KeepsE.get ?_ (by assumption))
    | (refine KeepsR.get ?_ (by assumption))
    | (refine KeepsP.get ?_ (by assumption))
    | (refine KeepsQ.get ?_ (by assumption))

theorem execAstat_keeps (c : Nat) (rd : Reg) (s : State) : KeepsR 2392078 s (execAstat c rd s) := by
  unfold execAstat
  repeat' first
    | with_reducible assumption
    | decide
    | with_reducible exact Keeps.refl _ _
    | with_reducible apply State.ctlCore_keeps
    | with_reducible apply keeps_whenever
    | with_reducible apply keeps_foldl
    | with_reducible apply KeepsR.next
    | with_reducible apply KeepsR.onCore
    | with_reducible apply KeepsR.onPart
    | with_reducible exact KeepsR.fault
    | with_reducible apply KeepsE.ok
    | with_reducible exact KeepsE.error
    | with_reducible apply KeepsO.some
    | with_reducible exact KeepsO.none
    | with_reducible apply KeepsO.bind
    | with_reducible apply KeepsQ.some
    | with_reducible exact KeepsQ.none
    | with_reducible apply KeepsQ.map
    | with_reducible apply KeepsO.map
    | with_reducible apply KeepsO.getD
    | with_reducible apply KeepsP.fst
    | with_reducible apply keeps_ite
    | split
    | dsimp only
    | (intro _; intros)
    | (refine KeepsO.get ?_ (by assumption))
    | (refine KeepsE.get ?_ (by assumption))
    | (refine KeepsR.get ?_ (by assumption))
    | (refine KeepsP.get ?_ (by assumption))
    | (refine KeepsQ.get ?_ (by assumption))

theorem State.setSau_keeps {fpm : Nat} {z : State} (s : State) (tag : Nat) (f : SauReq → SauReq) (hfp : 1024 ||| fpm = fpm)
    (hk : Keeps fpm z s) : Keeps fpm z (State.setSau s tag f) := by
  refine Keeps.step ?_ hfp hk
  unfold State.setSau
  repeat' first
    | with_reducible assumption
    | decide
    | with_reducible exact Keeps.refl _ _
    | with_reducible apply keeps_whenever
    | with_reducible apply keeps_foldl
    | with_reducible apply KeepsE.ok
    | with_reducible exact KeepsE.error
    | with_reducible apply KeepsO.some
    | with_reducible exact KeepsO.none
    | with_reducible apply KeepsO.bind
    | with_reducible apply KeepsQ.some
    | with_reducible exact KeepsQ.none
    | with_reducible apply KeepsQ.map
    | with_reducible apply KeepsO.map
    | with_reducible apply KeepsO.getD
    | with_reducible apply KeepsP.fst
    | with_reducible apply keeps_ite
    | simp only [keeps_set_sau_iff (m := 1024) rfl]
    | split
    | dsimp only
    | (intro _; intros)
    | (refine KeepsO.get ?_ (by assumption))
    | (refine KeepsE.get ?_ (by assumption))
    | (refine KeepsR.get ?_ (by assumption))
    | (refine KeepsP.get ?_ (by assumption))
    | (refine KeepsQ.get ?_ (by assumption))

theorem State.dropSau_keeps {fpm : Nat} {z : State} (s : State) (tag : Nat) (hfp : 1024 ||| fpm = fpm)
    (hk : Keeps fpm z s) : Keeps fpm z (State.dropSau s tag) := by
  refine Keeps.step ?_ hfp hk
  unfold State.dropSau
  repeat' first
    | with_reducible assumption
    | decide
    | with_reducible exact Keeps.refl _ _
    | with_reducible apply keeps_whenever
    | with_reducible apply keeps_foldl
    | with_reducible apply KeepsE.ok
    | with_reducible exact KeepsE.error
    | with_reducible apply KeepsO.some
    | with_reducible exact KeepsO.none
    | with_reducible apply KeepsO.bind
    | with_reducible apply KeepsQ.some
    | with_reducible exact KeepsQ.none
    | with_reducible apply KeepsQ.map
    | with_reducible apply KeepsO.map
    | with_reducible apply KeepsO.getD
    | with_reducible apply KeepsP.fst
    | with_reducible apply keeps_ite
    | simp only [keeps_set_sau_iff (m := 1024) rfl]
    | split
    | dsimp only
    | (intro _; intros)
    | (refine KeepsO.get ?_ (by assumption))
    | (refine KeepsE.get ?_ (by assumption))
    | (refine KeepsR.get ?_ (by assumption))
    | (refine KeepsP.get ?_ (by assumption))
    | (refine KeepsQ.get ?_ (by assumption))

theorem execSauRequest_keeps (tag : Nat) (s : State) : KeepsR 2130950 s (execSauRequest tag s) := by
  unfold execSauRequest
  repeat' first
    | with_reducible assumption
    | decide
    | with_reducible exact Keeps.refl _ _
    | with_reducible apply State.checkedAll_keeps
    | with_reducible apply State.dropSau_keeps
    | with_reducible apply State.fresh_keeps
    | with_reducible apply keeps_whenever
    | with_reducible apply keeps_foldl
    | with_reducible apply KeepsR.next
    | with_reducible apply KeepsR.onCore
    | with_reducible apply KeepsR.onPart
    | with_reducible exact KeepsR.fault
    | with_reducible apply KeepsE.ok
    | with_reducible exact KeepsE.error
    | with_reducible apply KeepsO.some
    | with_reducible exact KeepsO.none
    | with_reducible apply KeepsO.bind
    | with_reducible apply KeepsQ.some
    | with_reducible exact KeepsQ.none
    | with_reducible apply KeepsQ.map
    | with_reducible apply KeepsO.map
    | with_reducible apply KeepsO.getD
    | with_reducible apply KeepsP.fst
    | with_reducible apply keeps_ite
    | simp only [keeps_set_sau_iff (m := 2130950) rfl]
    | split
    | dsimp only
    | (intro _; intros)
    | (refine KeepsO.get ?_ (by assumption))
    | (refine KeepsE.get ?_ (by assumption))
    | (refine KeepsR.get ?_ (by assumption))
    | (refine KeepsP.get ?_ (by assumption))
    | (refine KeepsQ.get ?_ (by assumption))

theorem State.scanRange_keeps {fpm : Nat} {z : State} (r : State × Bool) (a n : Nat) (hfp : 688640 ||| fpm = fpm)
    (hk : KeepsP fpm z r) : KeepsP fpm z (State.scanRange r a n) := by
  unfold State.scanRange
  refine keepsP_foldl _ (fun u i hu => ?_) _ hk
  have hl : ∀ (b : Bool) (n : Nat), Keeps fpm z (if b then u.1.linkRetry n else u.1) := fun b n => by
    split
    · exact State.linkRetry_keeps _ _ (Keeps.sub hfp (by decide)) hu
    · exact hu
  have hb := fun b n m => State.readBlock_keeps _ m (Keeps.sub hfp (by decide)) (hl b n)
  split
  · exact hu
  · dsimp only
    refine keepsP_ite ?_ ?_
    · exact State.report_keeps _ _ _ _ _ _ (Keeps.sub hfp (by decide))
        (State.sticky_keeps _ _ _ _ (Keeps.sub hfp (by decide)) (State.bump_keeps _ _ _ _ (Keeps.sub hfp (by decide)) (hb _ _ _)))
    · exact hb _ _ _

theorem State.peeked_keeps {fpm : Nat} {z : State} (s : State) (hfp : 2097152 ||| fpm = fpm)
    (hk : Keeps fpm z s) : Keeps fpm z (State.peeked s) := by
  refine Keeps.step ?_ hfp hk
  unfold State.peeked
  repeat' first
    | with_reducible assumption
    | decide
    | with_reducible exact Keeps.refl _ _
    | with_reducible apply State.drew_keeps
    | with_reducible apply keeps_whenever
    | with_reducible apply keeps_foldl
    | with_reducible apply KeepsE.ok
    | with_reducible exact KeepsE.error
    | with_reducible apply KeepsO.some
    | with_reducible exact KeepsO.none
    | with_reducible apply KeepsO.bind
    | with_reducible apply KeepsQ.some
    | with_reducible exact KeepsQ.none
    | with_reducible apply KeepsQ.map
    | with_reducible apply KeepsO.map
    | with_reducible apply KeepsO.getD
    | with_reducible apply KeepsP.fst
    | with_reducible apply keeps_ite
    | split
    | dsimp only
    | (intro _; intros)
    | (refine KeepsO.get ?_ (by assumption))
    | (refine KeepsE.get ?_ (by assumption))
    | (refine KeepsR.get ?_ (by assumption))
    | (refine KeepsP.get ?_ (by assumption))
    | (refine KeepsQ.get ?_ (by assumption))

theorem State.readDigests_keeps {fpm : Nat} {z : State} (s : State) (r : SauReq) (hfp : 2785792 ||| fpm = fpm)
    (hk : Keeps fpm z s) : KeepsP fpm z (s.readDigests r) := by
  unfold State.readDigests
  refine keepsP_foldl _ (fun u e hu => ?_) _ hk
  dsimp only
  have hs := fun a n => State.scanRange_keeps (u.1, false) a n (Keeps.sub hfp (by decide)) hu
  split
  · exact hu
  · split
    · exact State.bump_keeps _ _ _ _ (Keeps.sub hfp (by decide)) (hs _ _)
    · exact State.peeked_keeps _ (Keeps.sub hfp (by decide)) (State.bump_keeps _ _ _ _ (Keeps.sub hfp (by decide)) (hs _ _))

theorem execSauBoundsDone_keeps (tag : Nat) (s : State) : KeepsR 2786816 s (execSauBoundsDone tag s) := by
  unfold execSauBoundsDone
  repeat' first
    | with_reducible assumption
    | decide
    | with_reducible exact Keeps.refl _ _
    | with_reducible apply State.readDigests_keeps
    | with_reducible apply State.setSau_keeps
    | with_reducible apply State.bump_keeps
    | with_reducible apply keeps_whenever
    | with_reducible apply keeps_foldl
    | with_reducible apply KeepsR.next
    | with_reducible apply KeepsR.onCore
    | with_reducible apply KeepsR.onPart
    | with_reducible exact KeepsR.fault
    | with_reducible apply KeepsE.ok
    | with_reducible exact KeepsE.error
    | with_reducible apply KeepsO.some
    | with_reducible exact KeepsO.none
    | with_reducible apply KeepsO.bind
    | with_reducible apply KeepsQ.some
    | with_reducible exact KeepsQ.none
    | with_reducible apply KeepsQ.map
    | with_reducible apply KeepsO.map
    | with_reducible apply KeepsO.getD
    | with_reducible apply KeepsP.fst
    | with_reducible apply keeps_ite
    | exact KeepsP.fst (State.readDigests_keeps _ _ (by decide) (by assumption))
    | with_reducible apply State.readDigests_keeps
    | (refine keepsP_foldl _ (fun u y hu => State.scanRange_keeps _ _ _ (by decide) hu) _ ?_)
    | with_reducible apply KeepsP.mk
    | split
    | dsimp only
    | (intro _; intros)
    | (refine KeepsO.get ?_ (by assumption))
    | (refine KeepsE.get ?_ (by assumption))
    | (refine KeepsR.get ?_ (by assumption))
    | (refine KeepsP.get ?_ (by assumption))
    | (refine KeepsQ.get ?_ (by assumption))

theorem State.scanEntry_keeps {fpm : Nat} {z : State} (s : State) (r : SauReq) (j : Nat) (hfp : 2786816 ||| fpm = fpm)
    (hk : Keeps fpm z s) : Keeps fpm z (State.scanEntry s r j) := by
  refine Keeps.step ?_ hfp hk
  unfold State.scanEntry
  repeat' first
    | with_reducible assumption
    | decide
    | with_reducible exact Keeps.refl _ _
    | with_reducible apply State.scanRange_keeps
    | with_reducible apply State.peeked_keeps
    | with_reducible apply State.setSau_keeps
    | with_reducible apply State.bump_keeps
    | with_reducible apply keeps_whenever
    | with_reducible apply keeps_foldl
    | with_reducible apply KeepsE.ok
    | with_reducible exact KeepsE.error
    | with_reducible apply KeepsO.some
    | with_reducible exact KeepsO.none
    | with_reducible apply KeepsO.bind
    | with_reducible apply KeepsQ.some
    | with_reducible exact KeepsQ.none
    | with_reducible apply KeepsQ.map
    | with_reducible apply KeepsO.map
    | with_reducible apply KeepsO.getD
    | with_reducible apply KeepsP.fst
    | with_reducible apply keeps_ite
    | exact KeepsP.fst (State.readDigests_keeps _ _ (by decide) (by assumption))
    | with_reducible apply State.readDigests_keeps
    | (refine keepsP_foldl _ (fun u y hu => State.scanRange_keeps _ _ _ (by decide) hu) _ ?_)
    | with_reducible apply KeepsP.mk
    | split
    | dsimp only
    | (intro _; intros)
    | (refine KeepsO.get ?_ (by assumption))
    | (refine KeepsE.get ?_ (by assumption))
    | (refine KeepsR.get ?_ (by assumption))
    | (refine KeepsP.get ?_ (by assumption))
    | (refine KeepsQ.get ?_ (by assumption))

theorem execSauBarrelFinish_keeps (tag j : Nat) (s : State) : KeepsR 2786816 s (execSauBarrelFinish tag j s) := by
  unfold execSauBarrelFinish
  repeat' first
    | with_reducible assumption
    | decide
    | with_reducible exact Keeps.refl _ _
    | with_reducible apply State.scanEntry_keeps
    | with_reducible apply keeps_whenever
    | with_reducible apply keeps_foldl
    | with_reducible apply KeepsR.next
    | with_reducible apply KeepsR.onCore
    | with_reducible apply KeepsR.onPart
    | with_reducible exact KeepsR.fault
    | with_reducible apply KeepsE.ok
    | with_reducible exact KeepsE.error
    | with_reducible apply KeepsO.some
    | with_reducible exact KeepsO.none
    | with_reducible apply KeepsO.bind
    | with_reducible apply KeepsQ.some
    | with_reducible exact KeepsQ.none
    | with_reducible apply KeepsQ.map
    | with_reducible apply KeepsO.map
    | with_reducible apply KeepsO.getD
    | with_reducible apply KeepsP.fst
    | with_reducible apply keeps_ite
    | split
    | dsimp only
    | (intro _; intros)
    | (refine KeepsO.get ?_ (by assumption))
    | (refine KeepsE.get ?_ (by assumption))
    | (refine KeepsR.get ?_ (by assumption))
    | (refine KeepsP.get ?_ (by assumption))
    | (refine KeepsQ.get ?_ (by assumption))

theorem execSauResponseArrival_keeps (tag : Nat) (s : State) : KeepsR 2657286 s (execSauResponseArrival tag s) := by
  unfold execSauResponseArrival
  repeat' first
    | with_reducible assumption
    | decide
    | with_reducible exact Keeps.refl _ _
    | with_reducible apply State.onCoreState_keeps
    | with_reducible apply State.coreFault_keeps
    | with_reducible apply State.dropSau_keeps
    | with_reducible apply State.sticky_keeps
    | with_reducible apply State.fresh_keeps
    | with_reducible apply State.bump_keeps
    | with_reducible apply keeps_whenever
    | with_reducible apply keeps_foldl
    | with_reducible apply KeepsR.next
    | with_reducible apply KeepsR.onCore
    | with_reducible apply KeepsR.onPart
    | with_reducible exact KeepsR.fault
    | with_reducible apply KeepsE.ok
    | with_reducible exact KeepsE.error
    | with_reducible apply KeepsO.some
    | with_reducible exact KeepsO.none
    | with_reducible apply KeepsO.bind
    | with_reducible apply KeepsQ.some
    | with_reducible exact KeepsQ.none
    | with_reducible apply KeepsQ.map
    | with_reducible apply KeepsO.map
    | with_reducible apply KeepsO.getD
    | with_reducible apply KeepsP.fst
    | with_reducible apply keeps_ite
    | simp only [keeps_set_seq_iff (m := 2657286) rfl]
    | split
    | dsimp only
    | (intro _; intros)
    | (refine KeepsO.get ?_ (by assumption))
    | (refine KeepsE.get ?_ (by assumption))
    | (refine KeepsR.get ?_ (by assumption))
    | (refine KeepsP.get ?_ (by assumption))
    | (refine KeepsQ.get ?_ (by assumption))

theorem State.sauCheck_keeps {fpm : Nat} {z : State} (s : State) (stack : Nat) (ok : Bool) (hfp : 559616 ||| fpm = fpm)
    (hk : Keeps fpm z s) : Keeps fpm z (State.sauCheck s stack ok) := by
  refine Keeps.step ?_ hfp hk
  unfold State.sauCheck
  repeat' first
    | with_reducible assumption
    | decide
    | with_reducible exact Keeps.refl _ _
    | with_reducible apply State.onStack_keeps
    | with_reducible apply State.sticky_keeps
    | with_reducible apply State.report_keeps
    | with_reducible apply State.void_keeps
    | with_reducible apply keeps_whenever
    | with_reducible apply keeps_foldl
    | with_reducible apply KeepsE.ok
    | with_reducible exact KeepsE.error
    | with_reducible apply KeepsO.some
    | with_reducible exact KeepsO.none
    | with_reducible apply KeepsO.bind
    | with_reducible apply KeepsQ.some
    | with_reducible exact KeepsQ.none
    | with_reducible apply KeepsQ.map
    | with_reducible apply KeepsO.map
    | with_reducible apply KeepsO.getD
    | with_reducible apply KeepsP.fst
    | with_reducible apply keeps_ite
    | split
    | dsimp only
    | (intro _; intros)
    | (refine KeepsO.get ?_ (by assumption))
    | (refine KeepsE.get ?_ (by assumption))
    | (refine KeepsR.get ?_ (by assumption))
    | (refine KeepsP.get ?_ (by assumption))
    | (refine KeepsQ.get ?_ (by assumption))

end Sys2Proof.Machine
end

