-- ==== Sys2Proof/Laws/KeepsPlanLoad.lean ====
section
/-!
SUPPORT. Laws/KeepsPlanLoad.lean: what the operations of Machine/PlanLoad.lean may change.
-/

namespace Sys2Proof.Machine

set_option Elab.async false
set_option linter.all false

theorem State.moveSlots_keeps {fpm : Nat} {z : State} (s t : State) (hfp : 513 ||| fpm = fpm)
    (hk : Keeps fpm z s) (ht : Keeps fpm z t) : Keeps fpm z (State.moveSlots s t) := by
  unfold State.moveSlots
  dsimp only
  refine keeps_ite ht ?_
  refine keeps_foldl _ (fun u x hu => State.poke_keeps _ _ _ (Keeps.sub hfp (by decide)) hu) _ ?_
  refine Keeps.step (a := 513) ?_ hfp ht
  exact ⟨rfl, fun _ => Mem.wf_nil, fun hb => absurd (hb.symm.trans (rfl : Nat.testBit _ _ = true)) Bool.false_ne_true, fun _ => rfl, fun _ => rfl, fun _ => rfl, fun _ => rfl, fun _ => rfl, fun _ => rfl, fun _ => rfl, fun _ => rfl, fun hb => absurd (hb.symm.trans (rfl : Nat.testBit _ _ = true)) Bool.false_ne_true, fun _ => rfl, fun _ => rfl, fun _ => rfl, fun _ => rfl, fun _ => rfl, fun _ => rfl, fun _ => rfl, fun _ => rfl, fun _ => rfl, fun _ => rfl, fun _ => rfl, fun _ => rfl⟩

theorem State.newAreas_keeps {fpm : Nat} {z : State} (s : State) (wbase wlen : Nat) (hfp : 8769 ||| fpm = fpm)
    (hk : Keeps fpm z s) : Keeps fpm z (State.newAreas s wbase wlen) := by
  refine Keeps.step ?_ hfp hk
  unfold State.newAreas
  repeat' first
    | with_reducible assumption
    | decide
    | with_reducible exact Keeps.refl _ _
    | with_reducible apply State.moveSlots_keeps
    | with_reducible apply keeps_whenever
    | with_reducible apply keeps_foldl
    | with_reducible apply KeepsE.ok
    | with_reducible exact KeepsE.error
    | with_reducible apply KeepsO.some
    | with_reducible exact KeepsO.none
    | with_reducible apply KeepsO.bind
    | with_reducible apply KeepsQ.some
    | with_reducible exact KeepsQ.none
    | with_reducible apply KeepsQ.map
    | with_reducible apply KeepsO.map
    | with_reducible apply KeepsO.getD
    | with_reducible apply KeepsP.fst
    | with_reducible apply keeps_ite
    | simp only [keeps_set_cellar_hbm_span_iff (m := 8769) rfl rfl rfl]
    | split
    | dsimp only
    | (intro _; intros)
    | (refine KeepsO.get ?_ (by assumption))
    | (refine KeepsE.get ?_ (by assumption))
    | (refine KeepsR.get ?_ (by assumption))
    | (refine KeepsP.get ?_ (by assumption))
    | (refine KeepsQ.get ?_ (by assumption))

theorem State.writeStripe_keeps {fpm : Nat} {z : State} (s : State) (d : List Byte) (i : Nat) (hfp : 1 ||| fpm = fpm)
    (hk : Keeps fpm z s) : Keeps fpm z (State.writeStripe s d i) := by
  refine Keeps.step ?_ hfp hk
  unfold State.writeStripe
  repeat' first
    | with_reducible assumption
    | decide
    | with_reducible exact Keeps.refl _ _
    | with_reducible apply State.poke_keeps
    | with_reducible apply keeps_whenever
    | with_reducible apply keeps_foldl
    | with_reducible apply KeepsE.ok
    | with_reducible exact KeepsE.error
    | with_reducible apply KeepsO.some
    | with_reducible exact KeepsO.none
    | with_reducible apply KeepsO.bind
    | with_reducible apply KeepsQ.some
    | with_reducible exact KeepsQ.none
    | with_reducible apply KeepsQ.map
    | with_reducible apply KeepsO.map
    | with_reducible apply KeepsO.getD
    | with_reducible apply KeepsP.fst
    | with_reducible apply keeps_ite
    | split
    | dsimp only
    | (intro _; intros)
    | (refine KeepsO.get ?_ (by assumption))
    | (refine KeepsE.get ?_ (by assumption))
    | (refine KeepsR.get ?_ (by assumption))
    | (refine KeepsP.get ?_ (by assumption))
    | (refine KeepsQ.get ?_ (by assumption))

theorem State.writeWeights_keeps {fpm : Nat} {z : State} (s : State) (d : List Byte) (hfp : 513 ||| fpm = fpm)
    (hk : Keeps fpm z s) : Keeps fpm z (State.writeWeights s d) := by
  refine Keeps.step ?_ hfp hk
  unfold State.writeWeights
  repeat' first
    | with_reducible assumption
    | decide
    | with_reducible exact Keeps.refl _ _
    | with_reducible apply State.writeStripe_keeps
    | with_reducible apply State.cleanStore_keeps
    | with_reducible apply State.zeroMem_keeps
    | with_reducible apply keeps_whenever
    | with_reducible apply keeps_foldl
    | with_reducible apply KeepsE.ok
    | with_reducible exact KeepsE.error
    | with_reducible apply KeepsO.some
    | with_reducible exact KeepsO.none
    | with_reducible apply KeepsO.bind
    | with_reducible apply KeepsQ.some
    | with_reducible exact KeepsQ.none
    | with_reducible apply KeepsQ.map
    | with_reducible apply KeepsO.map
    | with_reducible apply KeepsO.getD
    | with_reducible apply KeepsP.fst
    | with_reducible apply keeps_ite
    | split
    | dsimp only
    | (intro _; intros)
    | (refine KeepsO.get ?_ (by assumption))
    | (refine KeepsE.get ?_ (by assumption))
    | (refine KeepsR.get ?_ (by assumption))
    | (refine KeepsP.get ?_ (by assumption))
    | (refine KeepsQ.get ?_ (by assumption))

theorem State.clearRegion_keeps {fpm : Nat} {z : State} (s : State) (hfp : 524480 ||| fpm = fpm)
    (hk : Keeps fpm z s) : Keeps fpm z (State.clearRegion s) := by
  refine Keeps.step ?_ hfp hk
  unfold State.clearRegion
  repeat' first
    | with_reducible assumption
    | decide
    | with_reducible exact Keeps.refl _ _
    | with_reducible apply State.tossLines_keeps
    | with_reducible apply keeps_whenever
    | with_reducible apply keeps_foldl
    | with_reducible apply KeepsE.ok
    | with_reducible exact KeepsE.error
    | with_reducible apply KeepsO.some
    | with_reducible exact KeepsO.none
    | with_reducible apply KeepsO.bind
    | with_reducible apply KeepsQ.some
    | with_reducible exact KeepsQ.none
    | with_reducible apply KeepsQ.map
    | with_reducible apply KeepsO.map
    | with_reducible apply KeepsO.getD
    | with_reducible apply KeepsP.fst
    | with_reducible apply keeps_ite
    | split
    | dsimp only
    | (intro _; intros)
    | (refine KeepsO.get ?_ (by assumption))
    | (refine KeepsE.get ?_ (by assumption))
    | (refine KeepsR.get ?_ (by assumption))
    | (refine KeepsP.get ?_ (by assumption))
    | (refine KeepsQ.get ?_ (by assumption))

theorem State.layWeights_keeps {fpm : Nat} {z : State} (s : State) (d : List Byte) (hfp : 557789 ||| fpm = fpm)
    (hk : Keeps fpm z s) : Keeps fpm z (State.layWeights s d) := by
  refine Keeps.step ?_ hfp hk
  unfold State.layWeights
  repeat' first
    | with_reducible assumption
    | decide
    | with_reducible exact Keeps.refl _ _
    | with_reducible apply State.writeWeights_keeps
    | with_reducible apply State.clearRegion_keeps
    | with_reducible apply State.relay_keeps
    | with_reducible apply keeps_whenever
    | with_reducible apply keeps_foldl
    | with_reducible apply KeepsE.ok
    | with_reducible exact KeepsE.error
    | with_reducible apply KeepsO.some
    | with_reducible exact KeepsO.none
    | with_reducible apply KeepsO.bind
    | with_reducible apply KeepsQ.some
    | with_reducible exact KeepsQ.none
    | with_reducible apply KeepsQ.map
    | with_reducible apply KeepsO.map
    | with_reducible apply KeepsO.getD
    | with_reducible apply KeepsP.fst
    | with_reducible apply keeps_ite
    | simp only [keeps_set_cellar_iff (m := 557789) rfl]
    | split
    | dsimp only
    | (intro _; intros)
    | (refine KeepsO.get ?_ (by assumption))
    | (refine KeepsE.get ?_ (by assumption))
    | (refine KeepsR.get ?_ (by assumption))
    | (refine KeepsP.get ?_ (by assumption))
    | (refine KeepsQ.get ?_ (by assumption))

theorem State.setMeas6_keeps {fpm : Nat} {z : State} (s : State) (d : List Byte) (hfp : 262144 ||| fpm = fpm)
    (hk : Keeps fpm z s) : Keeps fpm z (State.setMeas6 s d) := by
  refine Keeps.step ?_ hfp hk
  unfold State.setMeas6
  repeat' first
    | with_reducible assumption
    | decide
    | with_reducible exact Keeps.refl _ _
    | with_reducible apply keeps_whenever
    | with_reducible apply keeps_foldl
    | with_reducible apply KeepsE.ok
    | with_reducible exact KeepsE.error
    | with_reducible apply KeepsO.some
    | with_reducible exact KeepsO.none
    | with_reducible apply KeepsO.bind
    | with_reducible apply KeepsQ.some
    | with_reducible exact KeepsQ.none
    | with_reducible apply KeepsQ.map
    | with_reducible apply KeepsO.map
    | with_reducible apply KeepsO.getD
    | with_reducible apply KeepsP.fst
    | with_reducible apply keeps_ite
    | simp only [keeps_set_sec_iff (m := 262144) rfl]
    | split
    | dsimp only
    | (intro _; intros)
    | (refine KeepsO.get ?_ (by assumption))
    | (refine KeepsE.get ?_ (by assumption))
    | (refine KeepsR.get ?_ (by assumption))
    | (refine KeepsP.get ?_ (by assumption))
    | (refine KeepsQ.get ?_ (by assumption))

theorem State.installPlan_keeps {fpm : Nat} {z : State} (s : State) (p : Plan) (weights : List Byte) (drops : List Nat) (hfp : 2929373 ||| fpm = fpm)
    (hk : Keeps fpm z s) : Keeps fpm z (State.installPlan s p weights drops) := by
  refine Keeps.step ?_ hfp hk
  unfold State.installPlan
  repeat' first
    | with_reducible assumption
    | decide
    | with_reducible exact Keeps.refl _ _
    | with_reducible apply State.compareDigests_keeps
    | with_reducible apply State.floodDigest_keeps
    | with_reducible apply State.layWeights_keeps
    | with_reducible apply State.partShort_keeps
    | with_reducible apply State.setMeas6_keeps
    | with_reducible apply State.drew_keeps
    | with_reducible apply keeps_whenever
    | with_reducible apply keeps_foldl
    | with_reducible apply KeepsE.ok
    | with_reducible exact KeepsE.error
    | with_reducible apply KeepsO.some
    | with_reducible exact KeepsO.none
    | with_reducible apply KeepsO.bind
    | with_reducible apply KeepsQ.some
    | with_reducible exact KeepsQ.none
    | with_reducible apply KeepsQ.map
    | with_reducible apply KeepsO.map
    | with_reducible apply KeepsO.getD
    | with_reducible apply KeepsP.fst
    | with_reducible apply keeps_ite
    | simp only [keeps_set_host_iff (m := 2929373) rfl]
    | split
    | dsimp only
    | (intro _; intros)
    | (refine KeepsO.get ?_ (by assumption))
    | (refine KeepsE.get ?_ (by assumption))
    | (refine KeepsR.get ?_ (by assumption))
    | (refine KeepsP.get ?_ (by assumption))
    | (refine KeepsQ.get ?_ (by assumption))

theorem State.loadPlan_keeps {fpm : Nat} {z : State} (s : State) (d : List Byte) (p : Plan) (hfp : 2929373 ||| fpm = fpm)
    (hk : Keeps fpm z s) : KeepsE fpm z (State.loadPlan s d p) := by
  rw [State.loadPlan]
  split
  · exact KeepsE.error
  · split
    · exact KeepsE.error
    · extract_lets t blocks dir
      have ht : Keeps fpm z t := State.newAreas_keeps _ _ _ (Keeps.sub hfp (by decide)) hk
      split
      · exact KeepsE.error
      · split
        · exact KeepsE.ok (State.installPlan_keeps _ _ _ _ (Keeps.sub hfp (by decide)) ht)
        · exact KeepsE.error

theorem execPlanLoad_keeps (q : Nat) (image : List Byte) (s : State) : KeepsR 2929373 s (execPlanLoad q image s) := by
  unfold execPlanLoad
  repeat' first
    | with_reducible assumption
    | decide
    | with_reducible exact Keeps.refl _ _
    | with_reducible apply State.loadPlan_keeps
    | with_reducible apply State.complete_keeps
    | with_reducible apply State.onHead_keeps
    | with_reducible apply keeps_whenever
    | with_reducible apply keeps_foldl
    | with_reducible apply KeepsR.next
    | with_reducible apply KeepsR.onCore
    | with_reducible apply KeepsR.onPart
    | with_reducible exact KeepsR.fault
    | with_reducible apply KeepsE.ok
    | with_reducible exact KeepsE.error
    | with_reducible apply KeepsO.some
    | with_reducible exact KeepsO.none
    | with_reducible apply KeepsO.bind
    | with_reducible apply KeepsQ.some
    | with_reducible exact KeepsQ.none
    | with_reducible apply KeepsQ.map
    | with_reducible apply KeepsO.map
    | with_reducible apply KeepsO.getD
    | with_reducible apply KeepsP.fst
    | with_reducible apply keeps_ite
    | split
    | dsimp only
    | (intro _; intros)
    | (refine KeepsO.get ?_ (by assumption))
    | (refine KeepsE.get ?_ (by assumption))
    | (refine KeepsR.get ?_ (by assumption))
    | (refine KeepsP.get ?_ (by assumption))
    | (refine KeepsQ.get ?_ (by assumption))

theorem execPlanUnload_keeps (q : Nat) (s : State) : KeepsR 801485 s (execPlanUnload q s) := by
  unfold execPlanUnload
  repeat' first
    | with_reducible assumption
    | decide
    | with_reducible exact Keeps.refl _ _
    | with_reducible apply State.clearRegion_keeps
    | with_reducible apply State.setMeas6_keeps
    | with_reducible apply State.complete_keeps
    | with_reducible apply State.onHead_keeps
    | with_reducible apply keeps_whenever
    | with_reducible apply keeps_foldl
    | with_reducible apply KeepsR.next
    | with_reducible apply KeepsR.onCore
    | with_reducible apply KeepsR.onPart
    | with_reducible exact KeepsR.fault
    | with_reducible apply KeepsE.ok
    | with_reducible exact KeepsE.error
    | with_reducible apply KeepsO.some
    | with_reducible exact KeepsO.none
    | with_reducible apply KeepsO.bind
    | with_reducible apply KeepsQ.some
    | with_reducible exact KeepsQ.none
    | with_reducible apply KeepsQ.map
    | with_reducible apply KeepsO.map
    | with_reducible apply KeepsO.getD
    | with_reducible apply KeepsP.fst
    | with_reducible apply keeps_ite
    | simp only [keeps_set_cellar_seq_host_iff (m := 801485) rfl rfl rfl]
    | split
    | dsimp only
    | (intro _; intros)
    | (refine KeepsO.get ?_ (by assumption))
    | (refine KeepsE.get ?_ (by assumption))
    | (refine KeepsR.get ?_ (by assumption))
    | (refine KeepsP.get ?_ (by assumption))
    | (refine KeepsQ.get ?_ (by assumption))

end Sys2Proof.Machine
end

