-- ==== Sys2Proof/Laws/PerInstr.lean ====
section
/-!
SUPPORT. Laws/PerInstr.lean: per command: a well-formed command answers a next state, in every state.
-/

namespace Sys2Proof.Laws.Answers

open Sys2Proof Sys2Proof.Machine

set_option Elab.async false

/-- A well-formed command never stops: it answers a next state. -/
def Statement (i : Instr) : Prop := i.wf = true → ∀ s : State, ∃ t, exec i s = .next t

theorem registerWrite x0 x1 x2 : Statement (.registerWrite x0 x1 x2) :=
  fun _ _ => ⟨_, rfl⟩
theorem stickyClear x0 x1 x2 : Statement (.stickyClear x0 x1 x2) :=
  fun _ _ => ⟨_, rfl⟩
theorem planLoad x0 x1 : Statement (.planLoad x0 x1) :=
  fun _ _ => ⟨_, rfl⟩
theorem planUnload x0 : Statement (.planUnload x0) :=
  fun _ _ => ⟨_, rfl⟩
theorem add x0 x1 x2 x3 : Statement (.add x0 x1 x2 x3) :=
  fun h _ => ⟨_, onPart_next (of_decide_eq_true h)⟩
theorem sub x0 x1 x2 x3 : Statement (.sub x0 x1 x2 x3) :=
  fun h _ => ⟨_, onPart_next (of_decide_eq_true h)⟩
theorem andr x0 x1 x2 x3 : Statement (.andr x0 x1 x2 x3) :=
  fun h _ => ⟨_, onPart_next (of_decide_eq_true h)⟩
theorem orr x0 x1 x2 x3 : Statement (.orr x0 x1 x2 x3) :=
  fun h _ => ⟨_, onPart_next (of_decide_eq_true h)⟩
theorem xorr x0 x1 x2 x3 : Statement (.xorr x0 x1 x2 x3) :=
  fun h _ => ⟨_, onPart_next (of_decide_eq_true h)⟩
theorem shl x0 x1 x2 x3 : Statement (.shl x0 x1 x2 x3) :=
  fun h _ => ⟨_, onPart_next (of_decide_eq_true h)⟩
theorem shr x0 x1 x2 x3 : Statement (.shr x0 x1 x2 x3) :=
  fun h _ => ⟨_, onPart_next (of_decide_eq_true h)⟩
theorem sar x0 x1 x2 x3 : Statement (.sar x0 x1 x2 x3) :=
  fun h _ => ⟨_, onPart_next (of_decide_eq_true h)⟩
theorem slt x0 x1 x2 x3 : Statement (.slt x0 x1 x2 x3) :=
  fun h _ => ⟨_, onPart_next (of_decide_eq_true h)⟩
theorem sltu x0 x1 x2 x3 : Statement (.sltu x0 x1 x2 x3) :=
  fun h _ => ⟨_, onPart_next (of_decide_eq_true h)⟩
theorem seq x0 x1 x2 x3 : Statement (.seq x0 x1 x2 x3) :=
  fun h _ => ⟨_, onPart_next (of_decide_eq_true h)⟩
theorem minS x0 x1 x2 x3 : Statement (.minS x0 x1 x2 x3) :=
  fun h _ => ⟨_, onPart_next (of_decide_eq_true h)⟩
theorem maxS x0 x1 x2 x3 : Statement (.maxS x0 x1 x2 x3) :=
  fun h _ => ⟨_, onPart_next (of_decide_eq_true h)⟩
theorem minu x0 x1 x2 x3 : Statement (.minu x0 x1 x2 x3) :=
  fun h _ => ⟨_, onPart_next (of_decide_eq_true h)⟩
theorem maxu x0 x1 x2 x3 : Statement (.maxu x0 x1 x2 x3) :=
  fun h _ => ⟨_, onPart_next (of_decide_eq_true h)⟩
theorem sel x0 x1 x2 x3 : Statement (.sel x0 x1 x2 x3) :=
  fun h _ => ⟨_, onPart_next (of_decide_eq_true h)⟩
theorem mul x0 x1 x2 x3 : Statement (.mul x0 x1 x2 x3) :=
  fun h _ => ⟨_, onPart_next (of_decide_eq_true h)⟩
theorem mulh x0 x1 x2 x3 : Statement (.mulh x0 x1 x2 x3) :=
  fun h _ => ⟨_, onPart_next (of_decide_eq_true h)⟩
theorem mulhu x0 x1 x2 x3 : Statement (.mulhu x0 x1 x2 x3) :=
  fun h _ => ⟨_, onPart_next (of_decide_eq_true h)⟩
theorem div x0 x1 x2 x3 : Statement (.div x0 x1 x2 x3) :=
  fun h _ => ⟨_, onPart_next (of_decide_eq_true h)⟩
theorem divu x0 x1 x2 x3 : Statement (.divu x0 x1 x2 x3) :=
  fun h _ => ⟨_, onPart_next (of_decide_eq_true h)⟩
theorem rem x0 x1 x2 x3 : Statement (.rem x0 x1 x2 x3) :=
  fun h _ => ⟨_, onPart_next (of_decide_eq_true h)⟩
theorem remu x0 x1 x2 x3 : Statement (.remu x0 x1 x2 x3) :=
  fun h _ => ⟨_, onPart_next (of_decide_eq_true h)⟩
theorem sext8 x0 x1 x2 : Statement (.sext8 x0 x1 x2) :=
  fun h _ => ⟨_, onPart_next (of_decide_eq_true h)⟩
theorem sext16 x0 x1 x2 : Statement (.sext16 x0 x1 x2) :=
  fun h _ => ⟨_, onPart_next (of_decide_eq_true h)⟩
theorem sext32 x0 x1 x2 : Statement (.sext32 x0 x1 x2) :=
  fun h _ => ⟨_, onPart_next (of_decide_eq_true h)⟩
theorem zext32 x0 x1 x2 : Statement (.zext32 x0 x1 x2) :=
  fun h _ => ⟨_, onPart_next (of_decide_eq_true h)⟩
theorem addi x0 x1 x2 x3 : Statement (.addi x0 x1 x2 x3) :=
  fun h _ => ⟨_, onPart_next (of_decide_eq_true h)⟩
theorem andi x0 x1 x2 x3 : Statement (.andi x0 x1 x2 x3) :=
  fun h _ => ⟨_, onPart_next (of_decide_eq_true h)⟩
theorem ori x0 x1 x2 x3 : Statement (.ori x0 x1 x2 x3) :=
  fun h _ => ⟨_, onPart_next (of_decide_eq_true h)⟩
theorem xori x0 x1 x2 x3 : Statement (.xori x0 x1 x2 x3) :=
  fun h _ => ⟨_, onPart_next (of_decide_eq_true h)⟩
theorem shli x0 x1 x2 x3 : Statement (.shli x0 x1 x2 x3) :=
  fun h _ => ⟨_, onPart_next (of_decide_eq_true h)⟩
theorem shri x0 x1 x2 x3 : Statement (.shri x0 x1 x2 x3) :=
  fun h _ => ⟨_, onPart_next (of_decide_eq_true h)⟩
theorem sari x0 x1 x2 x3 : Statement (.sari x0 x1 x2 x3) :=
  fun h _ => ⟨_, onPart_next (of_decide_eq_true h)⟩
theorem slti x0 x1 x2 x3 : Statement (.slti x0 x1 x2 x3) :=
  fun h _ => ⟨_, onPart_next (of_decide_eq_true h)⟩
theorem sltiu x0 x1 x2 x3 : Statement (.sltiu x0 x1 x2 x3) :=
  fun h _ => ⟨_, onPart_next (of_decide_eq_true h)⟩
theorem seqi x0 x1 x2 x3 : Statement (.seqi x0 x1 x2 x3) :=
  fun h _ => ⟨_, onPart_next (of_decide_eq_true h)⟩
theorem li x0 x1 x2 : Statement (.li x0 x1 x2) :=
  fun h _ => ⟨_, onPart_next (of_decide_eq_true h)⟩
theorem liu x0 x1 x2 : Statement (.liu x0 x1 x2) :=
  fun h _ => ⟨_, onPart_next (of_decide_eq_true h)⟩
theorem lih x0 x1 x2 : Statement (.lih x0 x1 x2) :=
  fun h _ => ⟨_, onPart_next (of_decide_eq_true h)⟩
theorem addli x0 x1 x2 : Statement (.addli x0 x1 x2) :=
  fun h _ => ⟨_, onPart_next (of_decide_eq_true h)⟩
theorem jal x0 x1 x2 : Statement (.jal x0 x1 x2) :=
  fun h _ => ⟨_, onPart_next (of_decide_eq_true h)⟩
theorem beq x0 x1 x2 x3 : Statement (.beq x0 x1 x2 x3) :=
  fun h _ => ⟨_, onPart_next (of_decide_eq_true h)⟩
theorem bne x0 x1 x2 x3 : Statement (.bne x0 x1 x2 x3) :=
  fun h _ => ⟨_, onPart_next (of_decide_eq_true h)⟩
theorem blt x0 x1 x2 x3 : Statement (.blt x0 x1 x2 x3) :=
  fun h _ => ⟨_, onPart_next (of_decide_eq_true h)⟩
theorem bge x0 x1 x2 x3 : Statement (.bge x0 x1 x2 x3) :=
  fun h _ => ⟨_, onPart_next (of_decide_eq_true h)⟩
theorem bltu x0 x1 x2 x3 : Statement (.bltu x0 x1 x2 x3) :=
  fun h _ => ⟨_, onPart_next (of_decide_eq_true h)⟩
theorem bgeu x0 x1 x2 x3 : Statement (.bgeu x0 x1 x2 x3) :=
  fun h _ => ⟨_, onPart_next (of_decide_eq_true h)⟩
theorem jr x0 x1 x2 x3 : Statement (.jr x0 x1 x2 x3) :=
  fun h _ => ⟨_, onPart_next (of_decide_eq_true h)⟩
theorem ldl8 x0 x1 x2 x3 : Statement (.ldl8 x0 x1 x2 x3) :=
  fun h _ => ⟨_, onPart_next (of_decide_eq_true h)⟩
theorem ldl16 x0 x1 x2 x3 : Statement (.ldl16 x0 x1 x2 x3) :=
  fun h _ => ⟨_, onPart_next (of_decide_eq_true h)⟩
theorem ldl32 x0 x1 x2 x3 : Statement (.ldl32 x0 x1 x2 x3) :=
  fun h _ => ⟨_, onPart_next (of_decide_eq_true h)⟩
theorem ldl64 x0 x1 x2 x3 : Statement (.ldl64 x0 x1 x2 x3) :=
  fun h _ => ⟨_, onPart_next (of_decide_eq_true h)⟩
theorem stl8 x0 x1 x2 x3 : Statement (.stl8 x0 x1 x2 x3) :=
  fun h _ => ⟨_, onPart_next (of_decide_eq_true h)⟩
theorem stl16 x0 x1 x2 x3 : Statement (.stl16 x0 x1 x2 x3) :=
  fun h _ => ⟨_, onPart_next (of_decide_eq_true h)⟩
theorem stl32 x0 x1 x2 x3 : Statement (.stl32 x0 x1 x2 x3) :=
  fun h _ => ⟨_, onPart_next (of_decide_eq_true h)⟩
theorem stl64 x0 x1 x2 x3 : Statement (.stl64 x0 x1 x2 x3) :=
  fun h _ => ⟨_, onPart_next (of_decide_eq_true h)⟩
theorem ldg x0 x1 x2 x3 : Statement (.ldg x0 x1 x2 x3) :=
  fun h _ => ⟨_, onPart_next (of_decide_eq_true h)⟩
theorem ldgu x0 x1 x2 x3 : Statement (.ldgu x0 x1 x2 x3) :=
  fun h _ => ⟨_, onPart_next (of_decide_eq_true h)⟩
theorem stg x0 x1 x2 x3 : Statement (.stg x0 x1 x2 x3) :=
  fun h _ => ⟨_, onPart_next (of_decide_eq_true h)⟩
theorem globalLoadResult x0 : Statement (.globalLoadResult x0) :=
  fun _ _ => ⟨_, rfl⟩
theorem icacheFill x0 : Statement (.icacheFill x0) :=
  fun h _ => ⟨_, onPart_next (of_decide_eq_true h)⟩
theorem tis x0 x1 : Statement (.tis x0 x1) :=
  fun h _ => ⟨_, onPart_next (of_decide_eq_true h)⟩
theorem pressCommandStart x0 : Statement (.pressCommandStart x0) :=
  fun h _ => ⟨_, onPart_next (of_decide_eq_true h)⟩
theorem pressReadDone x0 : Statement (.pressReadDone x0) :=
  fun h _ => ⟨_, onPart_next (of_decide_eq_true h)⟩
theorem pressLastProduct x0 : Statement (.pressLastProduct x0) :=
  fun h _ => ⟨_, onPart_next (of_decide_eq_true h)⟩
theorem pressDrainComplete x0 : Statement (.pressDrainComplete x0) :=
  fun h _ => ⟨_, onPart_next (of_decide_eq_true h)⟩
theorem cpy x0 x1 x2 : Statement (.cpy x0 x1 x2) :=
  fun h _ => ⟨_, onPart_next (of_decide_eq_true h)⟩
theorem dmaRequest x0 x1 : Statement (.dmaRequest x0 x1) :=
  fun h _ => ⟨_, onPart_next (of_decide_eq_true h)⟩
theorem dmaResponse x0 : Statement (.dmaResponse x0) :=
  fun _ _ => ⟨_, rfl⟩
theorem awaitArr x0 x1 x2 x3 : Statement (.awaitArr x0 x1 x2 x3) :=
  fun h _ => ⟨_, onPart_next (of_decide_eq_true h)⟩
theorem awaitReturn x0 : Statement (.awaitReturn x0) :=
  fun h _ => ⟨_, onPart_next (of_decide_eq_true h)⟩
theorem pwait x0 x1 x2 : Statement (.pwait x0 x1 x2) :=
  fun h _ => ⟨_, onPart_next (of_decide_eq_true h)⟩
theorem pwaitReturn x0 : Statement (.pwaitReturn x0) :=
  fun h _ => ⟨_, onPart_next (of_decide_eq_true h)⟩
theorem rcinv x0 : Statement (.rcinv x0) :=
  fun h _ => ⟨_, onPart_next (of_decide_eq_true h)⟩
theorem kend x0 : Statement (.kend x0) :=
  fun h _ => ⟨_, onPart_next (of_decide_eq_true h)⟩
theorem kendDone x0 : Statement (.kendDone x0) :=
  fun h _ => ⟨_, onPart_next (of_decide_eq_true h)⟩
theorem kernelStart x0 : Statement (.kernelStart x0) :=
  fun h _ => ⟨_, onPart_next (of_decide_eq_true h)⟩
theorem ccWatchdog x0 : Statement (.ccWatchdog x0) :=
  fun h _ => ⟨_, onPart_next (of_decide_eq_true h)⟩
theorem vgo x0 x1 x2 x3 : Statement (.vgo x0 x1 x2 x3) :=
  fun h _ => ⟨_, onPart_next (of_decide_eq_true h)⟩
theorem vjoin x0 x1 : Statement (.vjoin x0 x1) :=
  fun h _ => ⟨_, onPart_next (of_decide_eq_true h)⟩
theorem vjoinReturn x0 : Statement (.vjoinReturn x0) :=
  fun h _ => ⟨_, onPart_next (of_decide_eq_true h)⟩
theorem vbc x0 x1 x2 : Statement (.vbc x0 x1 x2) :=
  fun h _ => ⟨_, onPart_next (of_decide_eq_true h)⟩
theorem srd x0 x1 x2 : Statement (.srd x0 x1 x2) :=
  fun h _ => ⟨_, onPart_next (of_decide_eq_true h)⟩
theorem srdReturn x0 : Statement (.srdReturn x0) :=
  fun h _ => ⟨_, onPart_next (of_decide_eq_true h)⟩
theorem sstat x0 x1 : Statement (.sstat x0 x1) :=
  fun h _ => ⟨_, onPart_next (of_decide_eq_true h)⟩
theorem fadd x0 : Statement (.fadd x0) :=
  fun h _ => ⟨_, onPart_next ((of_decide_eq_true h).1)⟩
theorem fsub x0 : Statement (.fsub x0) :=
  fun h _ => ⟨_, onPart_next ((of_decide_eq_true h).1)⟩
theorem fmul x0 : Statement (.fmul x0) :=
  fun h _ => ⟨_, onPart_next ((of_decide_eq_true h).1)⟩
theorem ffma x0 : Statement (.ffma x0) :=
  fun h _ => ⟨_, onPart_next ((of_decide_eq_true h).1)⟩
theorem fmin x0 : Statement (.fmin x0) :=
  fun h _ => ⟨_, onPart_next ((of_decide_eq_true h).1)⟩
theorem fmax x0 : Statement (.fmax x0) :=
  fun h _ => ⟨_, onPart_next ((of_decide_eq_true h).1)⟩
theorem fcmp x0 : Statement (.fcmp x0) :=
  fun h _ => ⟨_, onPart_next ((of_decide_eq_true h).1)⟩
theorem vecSel x0 : Statement (.vecSel x0) :=
  fun h _ => ⟨_, onPart_next ((of_decide_eq_true h).1)⟩
theorem fexp2 x0 : Statement (.fexp2 x0) :=
  fun h _ => ⟨_, onPart_next ((of_decide_eq_true h).1)⟩
theorem frcp x0 : Statement (.frcp x0) :=
  fun h _ => ⟨_, onPart_next ((of_decide_eq_true h).1)⟩
theorem frsqrt x0 : Statement (.frsqrt x0) :=
  fun h _ => ⟨_, onPart_next ((of_decide_eq_true h).1)⟩
theorem iadd x0 : Statement (.iadd x0) :=
  fun h _ => ⟨_, onPart_next ((of_decide_eq_true h).1)⟩
theorem isub x0 : Statement (.isub x0) :=
  fun h _ => ⟨_, onPart_next ((of_decide_eq_true h).1)⟩
theorem imul x0 : Statement (.imul x0) :=
  fun h _ => ⟨_, onPart_next ((of_decide_eq_true h).1)⟩
theorem vecAnd x0 : Statement (.vecAnd x0) :=
  fun h _ => ⟨_, onPart_next ((of_decide_eq_true h).1)⟩
theorem vecOr x0 : Statement (.vecOr x0) :=
  fun h _ => ⟨_, onPart_next ((of_decide_eq_true h).1)⟩
theorem vecXor x0 : Statement (.vecXor x0) :=
  fun h _ => ⟨_, onPart_next ((of_decide_eq_true h).1)⟩
theorem vecShl x0 : Statement (.vecShl x0) :=
  fun h _ => ⟨_, onPart_next ((of_decide_eq_true h).1)⟩
theorem vecShr x0 : Statement (.vecShr x0) :=
  fun h _ => ⟨_, onPart_next ((of_decide_eq_true h).1)⟩
theorem vecSar x0 : Statement (.vecSar x0) :=
  fun h _ => ⟨_, onPart_next ((of_decide_eq_true h).1)⟩
theorem imin x0 : Statement (.imin x0) :=
  fun h _ => ⟨_, onPart_next ((of_decide_eq_true h).1)⟩
theorem imax x0 : Statement (.imax x0) :=
  fun h _ => ⟨_, onPart_next ((of_decide_eq_true h).1)⟩
theorem icmp x0 : Statement (.icmp x0) :=
  fun h _ => ⟨_, onPart_next ((of_decide_eq_true h).1)⟩
theorem cvtF32I32 x0 : Statement (.cvtF32I32 x0) :=
  fun h _ => ⟨_, onPart_next ((of_decide_eq_true h).1)⟩
theorem cvtI32F32 x0 : Statement (.cvtI32F32 x0) :=
  fun h _ => ⟨_, onPart_next ((of_decide_eq_true h).1)⟩
theorem cvtBf16F32 x0 : Statement (.cvtBf16F32 x0) :=
  fun h _ => ⟨_, onPart_next ((of_decide_eq_true h).1)⟩
theorem cvtF32Bf16 x0 : Statement (.cvtF32Bf16 x0) :=
  fun h _ => ⟨_, onPart_next ((of_decide_eq_true h).1)⟩
theorem mxcvt x0 : Statement (.mxcvt x0) :=
  fun h _ => ⟨_, onPart_next ((of_decide_eq_true h).1)⟩
theorem mxld x0 : Statement (.mxld x0) :=
  fun h _ => ⟨_, onPart_next ((of_decide_eq_true h).1)⟩
theorem sadd x0 : Statement (.sadd x0) :=
  fun h _ => ⟨_, onPart_next ((of_decide_eq_true h).1)⟩
theorem saddw x0 : Statement (.saddw x0) :=
  fun h _ => ⟨_, onPart_next ((of_decide_eq_true h).1)⟩
theorem scvt x0 : Statement (.scvt x0) :=
  fun h _ => ⟨_, onPart_next ((of_decide_eq_true h).1)⟩
theorem sclr x0 : Statement (.sclr x0) :=
  fun h _ => ⟨_, onPart_next ((of_decide_eq_true h).1)⟩
theorem vld x0 : Statement (.vld x0) :=
  fun h _ => ⟨_, onPart_next ((of_decide_eq_true h).1)⟩
theorem vst x0 : Statement (.vst x0) :=
  fun h _ => ⟨_, onPart_next ((of_decide_eq_true h).1)⟩
theorem vgld x0 : Statement (.vgld x0) :=
  fun h _ => ⟨_, onPart_next ((of_decide_eq_true h).1)⟩
theorem vgldReturn x0 : Statement (.vgldReturn x0) :=
  fun _ _ => ⟨_, rfl⟩
theorem vgst x0 : Statement (.vgst x0) :=
  fun h _ => ⟨_, onPart_next ((of_decide_eq_true h).1)⟩
theorem vectorStoreResponse x0 : Statement (.vectorStoreResponse x0) :=
  fun _ _ => ⟨_, rfl⟩
theorem vatom x0 : Statement (.vatom x0) :=
  fun h _ => ⟨_, onPart_next ((of_decide_eq_true h).1)⟩
theorem vatomReturn x0 : Statement (.vatomReturn x0) :=
  fun _ _ => ⟨_, rfl⟩
theorem vlatom x0 : Statement (.vlatom x0) :=
  fun h _ => ⟨_, onPart_next ((of_decide_eq_true h).1)⟩
theorem vtld x0 : Statement (.vtld x0) :=
  fun h _ => ⟨_, onPart_next ((of_decide_eq_true h).1)⟩
theorem vthdr x0 : Statement (.vthdr x0) :=
  fun h _ => ⟨_, onPart_next ((of_decide_eq_true h).1)⟩
theorem vtrel x0 : Statement (.vtrel x0) :=
  fun h _ => ⟨_, onPart_next ((of_decide_eq_true h).1)⟩
theorem vbr x0 : Statement (.vbr x0) :=
  fun h _ => ⟨_, onPart_next ((of_decide_eq_true h).1)⟩
theorem vbar x0 : Statement (.vbar x0) :=
  fun h _ => ⟨_, onPart_next ((of_decide_eq_true h).1)⟩
theorem veBarrier x0 x1 x2 : Statement (.veBarrier x0 x1 x2) :=
  fun h _ => ⟨_, onPart_next (of_decide_eq_true h)⟩
theorem vexit x0 : Statement (.vexit x0) :=
  fun h _ => ⟨_, onPart_next ((of_decide_eq_true h).1)⟩
theorem vsum x0 : Statement (.vsum x0) :=
  fun h _ => ⟨_, onPart_next ((of_decide_eq_true h).1)⟩
theorem vawait x0 : Statement (.vawait x0) :=
  fun h _ => ⟨_, onPart_next ((of_decide_eq_true h).1)⟩
theorem vawaitReturn x0 x1 : Statement (.vawaitReturn x0 x1) :=
  fun h _ => ⟨_, onPart_next (of_decide_eq_true h)⟩
theorem vfence x0 : Statement (.vfence x0) :=
  fun h _ => ⟨_, onPart_next ((of_decide_eq_true h).1)⟩
theorem fence x0 x1 x2 : Statement (.fence x0 x1 x2) :=
  fun h _ => ⟨_, onPart_next (of_decide_eq_true h)⟩
theorem ldacq x0 x1 x2 x3 x4 : Statement (.ldacq x0 x1 x2 x3 x4) :=
  fun h _ => ⟨_, onPart_next (of_decide_eq_true h)⟩
theorem strel x0 x1 x2 x3 x4 : Statement (.strel x0 x1 x2 x3 x4) :=
  fun h _ => ⟨_, onPart_next (of_decide_eq_true h)⟩
theorem aaddW x0 x1 x2 x3 x4 x5 : Statement (.aaddW x0 x1 x2 x3 x4 x5) :=
  fun h _ => ⟨_, onPart_next (of_decide_eq_true h)⟩
theorem aaddD x0 x1 x2 x3 x4 x5 : Statement (.aaddD x0 x1 x2 x3 x4 x5) :=
  fun h _ => ⟨_, onPart_next (of_decide_eq_true h)⟩
theorem afaddW x0 x1 x2 x3 x4 x5 : Statement (.afaddW x0 x1 x2 x3 x4 x5) :=
  fun h _ => ⟨_, onPart_next (of_decide_eq_true h)⟩
theorem aandD x0 x1 x2 x3 x4 x5 : Statement (.aandD x0 x1 x2 x3 x4 x5) :=
  fun h _ => ⟨_, onPart_next (of_decide_eq_true h)⟩
theorem aorD x0 x1 x2 x3 x4 x5 : Statement (.aorD x0 x1 x2 x3 x4 x5) :=
  fun h _ => ⟨_, onPart_next (of_decide_eq_true h)⟩
theorem axorD x0 x1 x2 x3 x4 x5 : Statement (.axorD x0 x1 x2 x3 x4 x5) :=
  fun h _ => ⟨_, onPart_next (of_decide_eq_true h)⟩
theorem asminD x0 x1 x2 x3 x4 x5 : Statement (.asminD x0 x1 x2 x3 x4 x5) :=
  fun h _ => ⟨_, onPart_next (of_decide_eq_true h)⟩
theorem asmaxD x0 x1 x2 x3 x4 x5 : Statement (.asmaxD x0 x1 x2 x3 x4 x5) :=
  fun h _ => ⟨_, onPart_next (of_decide_eq_true h)⟩
theorem auminD x0 x1 x2 x3 x4 x5 : Statement (.auminD x0 x1 x2 x3 x4 x5) :=
  fun h _ => ⟨_, onPart_next (of_decide_eq_true h)⟩
theorem aumaxD x0 x1 x2 x3 x4 x5 : Statement (.aumaxD x0 x1 x2 x3 x4 x5) :=
  fun h _ => ⟨_, onPart_next (of_decide_eq_true h)⟩
theorem axchgW x0 x1 x2 x3 x4 x5 : Statement (.axchgW x0 x1 x2 x3 x4 x5) :=
  fun h _ => ⟨_, onPart_next (of_decide_eq_true h)⟩
theorem axchgD x0 x1 x2 x3 x4 x5 : Statement (.axchgD x0 x1 x2 x3 x4 x5) :=
  fun h _ => ⟨_, onPart_next (of_decide_eq_true h)⟩
theorem acasW x0 x1 x2 x3 x4 x5 : Statement (.acasW x0 x1 x2 x3 x4 x5) :=
  fun h _ => ⟨_, onPart_next (of_decide_eq_true h)⟩
theorem acasD x0 x1 x2 x3 x4 x5 : Statement (.acasD x0 x1 x2 x3 x4 x5) :=
  fun h _ => ⟨_, onPart_next (of_decide_eq_true h)⟩
theorem caskRead x0 : Statement (.caskRead x0) :=
  fun _ _ => ⟨_, rfl⟩
theorem caskWrite x0 : Statement (.caskWrite x0) :=
  fun _ _ => ⟨_, rfl⟩
theorem caskAtomic x0 : Statement (.caskAtomic x0) :=
  fun _ _ => ⟨_, rfl⟩
theorem backingFill x0 : Statement (.backingFill x0) :=
  fun _ _ => ⟨_, rfl⟩
theorem backingWriteAck x0 : Statement (.backingWriteAck x0) :=
  fun _ _ => ⟨_, rfl⟩
theorem commitList x0 : Statement (.commitList x0) :=
  fun h _ => ⟨_, onPart_next (of_decide_eq_true h)⟩
theorem caskCommitComplete x0 : Statement (.caskCommitComplete x0) :=
  fun h _ => ⟨_, onPart_next (of_decide_eq_true h)⟩
theorem redContributionHome x0 : Statement (.redContributionHome x0) :=
  fun _ _ => ⟨_, rfl⟩
theorem thrashWindow : Statement (.thrashWindow) :=
  fun _ _ => ⟨_, rfl⟩
theorem reserveRelaid : Statement (.reserveRelaid) :=
  fun _ _ => ⟨_, rfl⟩
theorem unfold : Statement (.unfold) :=
  fun _ _ => ⟨_, rfl⟩
theorem rdShared x0 : Statement (.rdShared x0) :=
  fun _ _ => ⟨_, rfl⟩
theorem rdOwn x0 : Statement (.rdOwn x0) :=
  fun _ _ => ⟨_, rfl⟩
theorem rdOwnNoData x0 : Statement (.rdOwnNoData x0) :=
  fun _ _ => ⟨_, rfl⟩
theorem rdCur x0 : Statement (.rdCur x0) :=
  fun _ _ => ⟨_, rfl⟩
theorem wrLine x0 x1 : Statement (.wrLine x0 x1) :=
  fun _ _ => ⟨_, rfl⟩
theorem wrStash x0 x1 x2 : Statement (.wrStash x0 x1 x2) :=
  fun _ _ => ⟨_, rfl⟩
theorem wrPart x0 x1 x2 : Statement (.wrPart x0 x1 x2) :=
  fun _ _ => ⟨_, rfl⟩
theorem atomicReq x0 x1 x2 x3 x4 : Statement (.atomicReq x0 x1 x2 x3 x4) :=
  fun _ _ => ⟨_, rfl⟩
theorem evictDirty x0 x1 : Statement (.evictDirty x0 x1) :=
  fun _ _ => ⟨_, rfl⟩
theorem evictClean x0 : Statement (.evictClean x0) :=
  fun _ _ => ⟨_, rfl⟩
theorem snpRspI x0 : Statement (.snpRspI x0) :=
  fun _ _ => ⟨_, rfl⟩
theorem snpRspS x0 : Statement (.snpRspS x0) :=
  fun _ _ => ⟨_, rfl⟩
theorem snpRspIData x0 x1 : Statement (.snpRspIData x0 x1) :=
  fun _ _ => ⟨_, rfl⟩
theorem snpRspSData x0 x1 : Statement (.snpRspSData x0 x1) :=
  fun _ _ => ⟨_, rfl⟩
theorem snpRspIWbPend x0 : Statement (.snpRspIWbPend x0) :=
  fun _ _ => ⟨_, rfl⟩
theorem snpFlushDone x0 : Statement (.snpFlushDone x0) :=
  fun _ _ => ⟨_, rfl⟩
theorem cmpAck x0 : Statement (.cmpAck x0) :=
  fun _ _ => ⟨_, rfl⟩
theorem snoop x0 x1 : Statement (.snoop x0 x1) :=
  fun _ _ => ⟨_, rfl⟩
theorem cmpS x0 x1 : Statement (.cmpS x0 x1) :=
  fun _ _ => ⟨_, rfl⟩
theorem cmpE x0 x1 : Statement (.cmpE x0 x1) :=
  fun _ _ => ⟨_, rfl⟩
theorem cmpI x0 x1 : Statement (.cmpI x0 x1) :=
  fun _ _ => ⟨_, rfl⟩
theorem cmp x0 x1 : Statement (.cmp x0 x1) :=
  fun _ _ => ⟨_, rfl⟩
theorem cmpErr x0 x1 : Statement (.cmpErr x0 x1) :=
  fun _ _ => ⟨_, rfl⟩
theorem homeTimeout x0 : Statement (.homeTimeout x0) :=
  fun _ _ => ⟨_, rfl⟩
theorem cohHomeTimeout x0 : Statement (.cohHomeTimeout x0) :=
  fun _ _ => ⟨_, rfl⟩
theorem cohFlushTimeout : Statement (.cohFlushTimeout) :=
  fun _ _ => ⟨_, rfl⟩
theorem trellisPacket x0 x1 x2 : Statement (.trellisPacket x0 x1 x2) :=
  fun h _ => ⟨_, onPart_next (by have h : x0 < 92 ∧ x1 < 64 := of_decide_eq_true h; omega)⟩
theorem rsend x0 x1 : Statement (.rsend x0 x1) :=
  fun h _ => ⟨_, onPart_next (of_decide_eq_true h)⟩
theorem rrecv x0 x1 x2 : Statement (.rrecv x0 x1 x2) :=
  fun h _ => ⟨_, onPart_next (of_decide_eq_true h)⟩
theorem rstat x0 x1 : Statement (.rstat x0 x1) :=
  fun h _ => ⟨_, onPart_next (of_decide_eq_true h)⟩
theorem rsendLineAccept x0 : Statement (.rsendLineAccept x0) :=
  fun h _ => ⟨_, onPart_next (of_decide_eq_true h)⟩
theorem redCombine x0 : Statement (.redCombine x0) :=
  fun _ _ => ⟨_, rfl⟩
theorem redFlush x0 x1 x2 x3 : Statement (.redFlush x0 x1 x2 x3) :=
  fun _ _ => ⟨_, rfl⟩
theorem redSubscription x0 : Statement (.redSubscription x0) :=
  fun _ _ => ⟨_, rfl⟩
theorem redResultArrival x0 : Statement (.redResultArrival x0) :=
  fun _ _ => ⟨_, rfl⟩
theorem treeHeaderRead x0 x1 : Statement (.treeHeaderRead x0 x1) :=
  fun _ _ => ⟨_, rfl⟩
theorem redWriteback x0 x1 : Statement (.redWriteback x0 x1) :=
  fun _ _ => ⟨_, rfl⟩
theorem routeChange : Statement (.routeChange) :=
  fun _ _ => ⟨_, rfl⟩
theorem e2eResend : Statement (.e2eResend) :=
  fun _ _ => ⟨_, rfl⟩
theorem trLost x0 : Statement (.trLost x0) :=
  fun _ _ => ⟨_, rfl⟩
theorem trRouterDead x0 x1 : Statement (.trRouterDead x0 x1) :=
  fun h _ => ⟨_, onPart_next (by have h : x0 < 92 ∧ x1 < 64 := of_decide_eq_true h; omega)⟩
theorem d2dCrcFail x0 x1 x2 : Statement (.d2dCrcFail x0 x1 x2) :=
  fun h _ => ⟨_, onPart_next (of_decide_eq_true h)⟩
theorem dclkLoss x0 : Statement (.dclkLoss x0) :=
  fun h _ => ⟨_, onPart_next (of_decide_eq_true h)⟩
theorem hbmRead x0 : Statement (.hbmRead x0) :=
  fun _ _ => ⟨_, rfl⟩
theorem hbmWrite x0 : Statement (.hbmWrite x0) :=
  fun _ _ => ⟨_, rfl⟩
theorem parityUpdate x0 : Statement (.parityUpdate x0) :=
  fun _ _ => ⟨_, rfl⟩
theorem hbmForced x0 : Statement (.hbmForced x0) :=
  fun h _ => ⟨_, onPart_next (of_decide_eq_true h)⟩
theorem hclkLoss x0 : Statement (.hclkLoss x0) :=
  fun h _ => ⟨_, onPart_next (of_decide_eq_true h)⟩
theorem stackResume x0 x1 : Statement (.stackResume x0 x1) :=
  fun h _ => ⟨_, onPart_next (of_decide_eq_true h)⟩
theorem thermalReport x0 x1 x2 : Statement (.thermalReport x0 x1 x2) :=
  fun h _ => ⟨_, onPart_next (of_decide_eq_true h)⟩
theorem stackHoldExpiry x0 : Statement (.stackHoldExpiry x0) :=
  fun h _ => ⟨_, onPart_next (of_decide_eq_true h)⟩
theorem loopback x0 x1 x2 x3 : Statement (.loopback x0 x1 x2 x3) :=
  fun _ _ => ⟨_, rfl⟩
theorem asend x0 x1 x2 : Statement (.asend x0 x1 x2) :=
  fun h _ => ⟨_, onPart_next (of_decide_eq_true h)⟩
theorem astat x0 x1 : Statement (.astat x0 x1) :=
  fun h _ => ⟨_, onPart_next (of_decide_eq_true h)⟩
theorem sauRequest x0 : Statement (.sauRequest x0) :=
  fun _ _ => ⟨_, rfl⟩
theorem sauBoundsDone x0 : Statement (.sauBoundsDone x0) :=
  fun _ _ => ⟨_, rfl⟩
theorem sauBarrelFinish x0 x1 : Statement (.sauBarrelFinish x0 x1) :=
  fun _ _ => ⟨_, rfl⟩
theorem sauResponseArrival x0 : Statement (.sauResponseArrival x0) :=
  fun _ _ => ⟨_, rfl⟩
theorem commandFetch x0 x1 : Statement (.commandFetch x0 x1) :=
  fun _ _ => ⟨_, rfl⟩
theorem submit x0 : Statement (.submit x0) :=
  fun _ _ => ⟨_, rfl⟩
theorem admission x0 : Statement (.admission x0) :=
  fun _ _ => ⟨_, rfl⟩
theorem append x0 : Statement (.append x0) :=
  fun _ _ => ⟨_, rfl⟩
theorem draft x0 x1 : Statement (.draft x0 x1) :=
  fun _ _ => ⟨_, rfl⟩
theorem park x0 : Statement (.park x0) :=
  fun _ _ => ⟨_, rfl⟩
theorem spill x0 : Statement (.spill x0) :=
  fun _ _ => ⟨_, rfl⟩
theorem spillDone x0 : Statement (.spillDone x0) :=
  fun _ _ => ⟨_, rfl⟩
theorem resume x0 : Statement (.resume x0) :=
  fun _ _ => ⟨_, rfl⟩
theorem resumeDone x0 x1 : Statement (.resumeDone x0 x1) :=
  fun _ _ => ⟨_, rfl⟩
theorem cancel x0 : Statement (.cancel x0) :=
  fun _ _ => ⟨_, rfl⟩
theorem exportSeq x0 : Statement (.exportSeq x0) :=
  fun _ _ => ⟨_, rfl⟩
theorem importSeq x0 : Statement (.importSeq x0) :=
  fun _ _ => ⟨_, rfl⟩
theorem gather : Statement (.gather) :=
  fun _ _ => ⟨_, rfl⟩
theorem broadcast : Statement (.broadcast) :=
  fun _ _ => ⟨_, rfl⟩
theorem completionRecord x0 : Statement (.completionRecord x0) :=
  fun h _ => ⟨_, onPart_next (of_decide_eq_true h)⟩
theorem commitComplete : Statement (.commitComplete) :=
  fun _ _ => ⟨_, rfl⟩
theorem commitPoint x0 : Statement (.commitPoint x0) :=
  fun _ _ => ⟨_, rfl⟩
theorem seqTakeover : Statement (.seqTakeover) :=
  fun _ _ => ⟨_, rfl⟩
theorem barrelMove x0 x1 x2 : Statement (.barrelMove x0 x1 x2) :=
  fun _ _ => ⟨_, rfl⟩
theorem helloFrame x0 : Statement (.helloFrame x0) :=
  fun h _ => ⟨_, onPart_next (of_decide_eq_true h)⟩
theorem linkFrame x0 : Statement (.linkFrame x0) :=
  fun h _ => ⟨_, onPart_next (of_decide_eq_true h)⟩
theorem spanCrcFail x0 : Statement (.spanCrcFail x0) :=
  fun h _ => ⟨_, onPart_next (of_decide_eq_true h)⟩
theorem spanWrite x0 : Statement (.spanWrite x0) :=
  fun h _ => ⟨_, onPart_next (of_decide_eq_true h)⟩
theorem sealFrame x0 : Statement (.sealFrame x0) :=
  fun h _ => ⟨_, onPart_next (of_decide_eq_true h)⟩
theorem ackFrame x0 : Statement (.ackFrame x0) :=
  fun h _ => ⟨_, onPart_next (of_decide_eq_true h)⟩
theorem redFrame x0 : Statement (.redFrame x0) :=
  fun h _ => ⟨_, onPart_next (of_decide_eq_true h)⟩
theorem ringLine x0 x1 : Statement (.ringLine x0 x1) :=
  fun _ _ => ⟨_, rfl⟩
theorem rackFrame x0 : Statement (.rackFrame x0) :=
  fun h _ => ⟨_, onPart_next (of_decide_eq_true h)⟩
theorem rackOpen x0 : Statement (.rackOpen x0) :=
  fun h s => by
    show ∃ t, execRackOpen x0 s = .next t
    unfold execRackOpen State.onRackctl
    split <;> exact ⟨_, onPart_next (of_decide_eq_true h)⟩
theorem rackGrant x0 : Statement (.rackGrant x0) :=
  fun h s => by
    show ∃ t, execRackGrant x0 s = .next t
    unfold execRackGrant State.onRackctl
    split <;> exact ⟨_, onPart_next (of_decide_eq_true h)⟩
theorem rackMap x0 : Statement (.rackMap x0) :=
  fun h s => by
    show ∃ t, execRackMap x0 s = .next t
    unfold execRackMap State.onRackctl
    split <;> exact ⟨_, onPart_next (of_decide_eq_true h)⟩
theorem rackClose x0 : Statement (.rackClose x0) :=
  fun h s => by
    show ∃ t, execRackClose x0 s = .next t
    unfold execRackClose State.onRackctl
    split <;> exact ⟨_, onPart_next (of_decide_eq_true h)⟩
theorem rackFetch x0 : Statement (.rackFetch x0) :=
  fun h s => by
    show ∃ t, execRackFetch x0 s = .next t
    unfold execRackFetch State.onRackctl
    split <;> exact ⟨_, onPart_next (of_decide_eq_true h)⟩
theorem xferFrame x0 : Statement (.xferFrame x0) :=
  fun h _ => ⟨_, onPart_next (of_decide_eq_true h)⟩
theorem freqFrame x0 : Statement (.freqFrame x0) :=
  fun h _ => ⟨_, onPart_next (of_decide_eq_true h)⟩
theorem timeFrame x0 : Statement (.timeFrame x0) :=
  fun h _ => ⟨_, onPart_next (of_decide_eq_true h)⟩
theorem joinDigest x0 : Statement (.joinDigest x0) :=
  fun h s => by
    show ∃ t, execJoinDigest x0 s = .next t
    unfold execJoinDigest State.onJoin
    split <;> exact ⟨_, onPart_next (of_decide_eq_true h)⟩
theorem memberLost x0 : Statement (.memberLost x0) :=
  fun h s => by
    show ∃ t, execMemberLost x0 s = .next t
    unfold execMemberLost State.onJoin
    split <;> exact ⟨_, onPart_next (of_decide_eq_true h)⟩
theorem memberJoined x0 : Statement (.memberJoined x0) :=
  fun h s => by
    show ∃ t, execMemberJoined x0 s = .next t
    unfold execMemberJoined State.onJoin
    split <;> exact ⟨_, onPart_next (of_decide_eq_true h)⟩
theorem stepFrame x0 : Statement (.stepFrame x0) :=
  fun h _ => ⟨_, onPart_next (of_decide_eq_true h)⟩
theorem helloTimer x0 : Statement (.helloTimer x0) :=
  fun h _ => ⟨_, onPart_next (of_decide_eq_true h)⟩
theorem linkIdleTimer x0 : Statement (.linkIdleTimer x0) :=
  fun h _ => ⟨_, onPart_next (of_decide_eq_true h)⟩
theorem portSilence x0 : Statement (.portSilence x0) :=
  fun h _ => ⟨_, onPart_next (of_decide_eq_true h)⟩
theorem streamResend x0 : Statement (.streamResend x0) :=
  fun _ _ => ⟨_, rfl⟩
theorem ackTimer x0 : Statement (.ackTimer x0) :=
  fun _ _ => ⟨_, rfl⟩
theorem laneLockLoss x0 x1 : Statement (.laneLockLoss x0 x1) :=
  fun h _ => ⟨_, onPart_next (of_decide_eq_true h)⟩
theorem fecWindow x0 x1 x2 x3 : Statement (.fecWindow x0 x1 x2 x3) :=
  fun h _ => ⟨_, onPart_next (of_decide_eq_true h)⟩
theorem portEnable x0 x1 : Statement (.portEnable x0 x1) :=
  fun h _ => ⟨_, onPart_next (of_decide_eq_true h)⟩
theorem portRetry x0 x1 : Statement (.portRetry x0 x1) :=
  fun h _ => ⟨_, onPart_next (of_decide_eq_true h)⟩
theorem spanRequestSubmit x0 x1 : Statement (.spanRequestSubmit x0 x1) :=
  fun h _ => ⟨_, onPart_next (of_decide_eq_true h)⟩
theorem helloTimeout x0 : Statement (.helloTimeout x0) :=
  fun _ _ => ⟨_, rfl⟩
theorem jobHoldEnd : Statement (.jobHoldEnd) :=
  fun _ _ => ⟨_, rfl⟩
theorem timeTimer x0 : Statement (.timeTimer x0) :=
  fun h _ => ⟨_, onPart_next (of_decide_eq_true h)⟩
theorem tsyncEdge : Statement (.tsyncEdge) :=
  fun _ _ => ⟨_, rfl⟩
theorem rackTimeout x0 : Statement (.rackTimeout x0) :=
  fun _ _ => ⟨_, rfl⟩
theorem boundNs x0 x1 x2 : Statement (.boundNs x0 x1 x2) :=
  fun _ _ => ⟨_, rfl⟩
theorem flit x0 x1 x2 x3 x4 x5 : Statement (.flit x0 x1 x2 x3 x4 x5) :=
  fun _ _ => ⟨_, rfl⟩
theorem flitSilence : Statement (.flitSilence) :=
  fun _ _ => ⟨_, rfl⟩
theorem linkUp x0 x1 : Statement (.linkUp x0 x1) :=
  fun _ _ => ⟨_, rfl⟩
theorem abiusDown : Statement (.abiusDown) :=
  fun _ _ => ⟨_, rfl⟩
theorem regRd x0 : Statement (.regRd x0) :=
  fun _ _ => ⟨_, rfl⟩
theorem regWr x0 x1 : Statement (.regWr x0 x1) :=
  fun _ _ => ⟨_, rfl⟩
theorem cmdTail x0 x1 : Statement (.cmdTail x0 x1) :=
  fun _ _ => ⟨_, rfl⟩
theorem cplHead x0 x1 : Statement (.cplHead x0 x1) :=
  fun _ _ => ⟨_, rfl⟩
theorem noticePost : Statement (.noticePost) :=
  fun _ _ => ⟨_, rfl⟩
theorem tableReadReturn x0 : Statement (.tableReadReturn x0) :=
  fun _ _ => ⟨_, rfl⟩
theorem fenceSignal x0 : Statement (.fenceSignal x0) :=
  fun _ _ => ⟨_, rfl⟩
theorem fenceWait x0 : Statement (.fenceWait x0) :=
  fun _ _ => ⟨_, rfl⟩
theorem ctxCreate x0 : Statement (.ctxCreate x0) :=
  fun _ _ => ⟨_, rfl⟩
theorem ctxDestroy x0 : Statement (.ctxDestroy x0) :=
  fun _ _ => ⟨_, rfl⟩
theorem processGone x0 : Statement (.processGone x0) :=
  fun _ _ => ⟨_, rfl⟩
theorem queueCreate x0 : Statement (.queueCreate x0) :=
  fun _ _ => ⟨_, rfl⟩
theorem queueDestroy x0 : Statement (.queueDestroy x0) :=
  fun _ _ => ⟨_, rfl⟩
theorem fenceCreate x0 : Statement (.fenceCreate x0) :=
  fun _ _ => ⟨_, rfl⟩
theorem fenceShareGrant x0 : Statement (.fenceShareGrant x0) :=
  fun _ _ => ⟨_, rfl⟩
theorem fenceShareRelease x0 : Statement (.fenceShareRelease x0) :=
  fun _ _ => ⟨_, rfl⟩
theorem memRegister x0 : Statement (.memRegister x0) :=
  fun _ _ => ⟨_, rfl⟩
theorem memHold x0 : Statement (.memHold x0) :=
  fun _ _ => ⟨_, rfl⟩
theorem memRelease x0 : Statement (.memRelease x0) :=
  fun _ _ => ⟨_, rfl⟩
theorem memBind x0 : Statement (.memBind x0) :=
  fun _ _ => ⟨_, rfl⟩
theorem memUnbind x0 : Statement (.memUnbind x0) :=
  fun _ _ => ⟨_, rfl⟩
theorem invalidate x0 : Statement (.invalidate x0) :=
  fun _ _ => ⟨_, rfl⟩
theorem queryCapabilities x0 : Statement (.queryCapabilities x0) :=
  fun _ _ => ⟨_, rfl⟩
theorem queryUtilisation x0 : Statement (.queryUtilisation x0) :=
  fun _ _ => ⟨_, rfl⟩
theorem queryHandle x0 : Statement (.queryHandle x0) :=
  fun _ _ => ⟨_, rfl⟩
theorem queryModule x0 : Statement (.queryModule x0) :=
  fun _ _ => ⟨_, rfl⟩
theorem queue0Create x0 x1 : Statement (.queue0Create x0 x1) :=
  fun _ _ => ⟨_, rfl⟩
theorem partCreate x0 x1 : Statement (.partCreate x0 x1) :=
  fun _ _ => ⟨_, rfl⟩
theorem partDestroy x0 x1 : Statement (.partDestroy x0 x1) :=
  fun _ _ => ⟨_, rfl⟩
theorem partReset x0 x1 x2 : Statement (.partReset x0 x1 x2) :=
  fun _ _ => ⟨_, rfl⟩
theorem migLog x0 x1 : Statement (.migLog x0 x1) :=
  fun _ _ => ⟨_, rfl⟩
theorem migPass x0 x1 : Statement (.migPass x0 x1) :=
  fun _ _ => ⟨_, rfl⟩
theorem migFreeze x0 x1 : Statement (.migFreeze x0 x1) :=
  fun _ _ => ⟨_, rfl⟩
theorem migFinal x0 x1 : Statement (.migFinal x0 x1) :=
  fun _ _ => ⟨_, rfl⟩
theorem migPassEnd : Statement (.migPassEnd) :=
  fun _ _ => ⟨_, rfl⟩
theorem migThaw x0 x1 : Statement (.migThaw x0 x1) :=
  fun _ _ => ⟨_, rfl⟩
theorem migRestore x0 x1 x2 x3 : Statement (.migRestore x0 x1 x2 x3) :=
  fun _ _ => ⟨_, rfl⟩
theorem migAbort x0 x1 : Statement (.migAbort x0 x1) :=
  fun _ _ => ⟨_, rfl⟩
theorem faultReport : Statement (.faultReport) :=
  fun _ _ => ⟨_, rfl⟩
theorem reportResend : Statement (.reportResend) :=
  fun _ _ => ⟨_, rfl⟩
theorem escalationTimeout x0 : Statement (.escalationTimeout x0) :=
  fun _ _ => ⟨_, rfl⟩
theorem faultAck x0 x1 x2 : Statement (.faultAck x0 x1 x2) :=
  fun _ _ => ⟨_, rfl⟩
theorem safeEnter x0 x1 : Statement (.safeEnter x0 x1) :=
  fun _ _ => ⟨_, rfl⟩
theorem safeExit x0 x1 : Statement (.safeExit x0 x1) :=
  fun _ _ => ⟨_, rfl⟩
theorem safeStateExit : Statement (.safeStateExit) :=
  fun _ _ => ⟨_, rfl⟩
theorem admitResume x0 x1 : Statement (.admitResume x0 x1) :=
  fun _ _ => ⟨_, rfl⟩
theorem admitFresh x0 x1 : Statement (.admitFresh x0 x1) :=
  fun _ _ => ⟨_, rfl⟩
theorem clearRecoveryCounter x0 x1 : Statement (.clearRecoveryCounter x0 x1) :=
  fun _ _ => ⟨_, rfl⟩
theorem clearReplacementFlag x0 x1 : Statement (.clearReplacementFlag x0 x1) :=
  fun _ _ => ⟨_, rfl⟩
theorem clearLatched x0 x1 : Statement (.clearLatched x0 x1) :=
  fun _ _ => ⟨_, rfl⟩
theorem fcVote x0 : Statement (.fcVote x0) :=
  fun h _ => ⟨_, onPart_next (of_decide_eq_true h)⟩
theorem fcLatch : Statement (.fcLatch) :=
  fun _ _ => ⟨_, rfl⟩
theorem injExpiry : Statement (.injExpiry) :=
  fun _ _ => ⟨_, rfl⟩
theorem weightReload x0 : Statement (.weightReload x0) :=
  fun _ _ => ⟨_, rfl⟩
theorem dieLockstep x0 : Statement (.dieLockstep x0) :=
  fun h _ => ⟨_, onPart_next (of_decide_eq_true h)⟩
theorem dieHung x0 : Statement (.dieHung x0) :=
  fun h _ => ⟨_, onPart_next (of_decide_eq_true h)⟩
theorem dieReady x0 : Statement (.dieReady x0) :=
  fun h _ => ⟨_, onPart_next (of_decide_eq_true h)⟩
theorem dieLost x0 : Statement (.dieLost x0) :=
  fun h _ => ⟨_, onPart_next (of_decide_eq_true h)⟩
theorem ioDieLost x0 : Statement (.ioDieLost x0) :=
  fun h _ => ⟨_, onPart_next (of_decide_eq_true h)⟩
theorem feedReversed x0 : Statement (.feedReversed x0) :=
  fun h _ => ⟨_, onPart_next (of_decide_eq_true h)⟩
theorem feedLost x0 : Statement (.feedLost x0) :=
  fun h _ => ⟨_, onPart_next (of_decide_eq_true h)⟩
theorem regulatorsOff : Statement (.regulatorsOff) :=
  fun _ _ => ⟨_, rfl⟩
theorem feedLow x0 : Statement (.feedLow x0) :=
  fun h _ => ⟨_, onPart_next (of_decide_eq_true h)⟩
theorem feedOvervolt x0 : Statement (.feedOvervolt x0) :=
  fun h _ => ⟨_, onPart_next (of_decide_eq_true h)⟩
theorem feedReturn x0 : Statement (.feedReturn x0) :=
  fun h _ => ⟨_, onPart_next (of_decide_eq_true h)⟩
theorem feedTripped x0 : Statement (.feedTripped x0) :=
  fun h _ => ⟨_, onPart_next (of_decide_eq_true h)⟩
theorem fuseReclose x0 : Statement (.fuseReclose x0) :=
  fun h _ => ⟨_, onPart_next (of_decide_eq_true h)⟩
theorem regPhaseLost x0 x1 : Statement (.regPhaseLost x0 x1) :=
  fun h _ => ⟨_, onPart_next (of_decide_eq_true h)⟩
theorem tilePhaseLost x0 x1 : Statement (.tilePhaseLost x0 x1) :=
  fun h _ => ⟨_, onPart_next (of_decide_eq_true h)⟩
theorem refclkHoldover : Statement (.refclkHoldover) :=
  fun _ _ => ⟨_, rfl⟩
theorem refclkLost : Statement (.refclkLost) :=
  fun _ _ => ⟨_, rfl⟩
theorem refclkReturn : Statement (.refclkReturn) :=
  fun _ _ => ⟨_, rfl⟩
theorem droopStretch x0 x1 : Statement (.droopStretch x0 x1) :=
  fun h _ => ⟨_, onPart_next (of_decide_eq_true h)⟩
theorem stretchThrottle x0 : Statement (.stretchThrottle x0) :=
  fun h _ => ⟨_, onPart_next (of_decide_eq_true h)⟩
theorem currentThrottle x0 : Statement (.currentThrottle x0) :=
  fun _ _ => ⟨_, rfl⟩
theorem tempThrottle x0 x1 : Statement (.tempThrottle x0 x1) :=
  fun h _ => ⟨_, onPart_next (of_decide_eq_true h)⟩
theorem dieOvertemp x0 x1 : Statement (.dieOvertemp x0 x1) :=
  fun h _ => ⟨_, onPart_next (of_decide_eq_true h)⟩
theorem throttleDecay x0 : Statement (.throttleDecay x0) :=
  fun h _ => ⟨_, onPart_next (of_decide_eq_true h)⟩
theorem throttleLong x0 : Statement (.throttleLong x0) :=
  fun h _ => ⟨_, onPart_next (of_decide_eq_true h)⟩
theorem powerCap x0 x1 x2 : Statement (.powerCap x0 x1 x2) :=
  fun _ _ => ⟨_, rfl⟩
theorem capTaken : Statement (.capTaken) :=
  fun _ _ => ⟨_, rfl⟩
theorem quietSlotEnd : Statement (.quietSlotEnd) :=
  fun _ _ => ⟨_, rfl⟩
theorem backgroundPiece x0 : Statement (.backgroundPiece x0) :=
  fun _ _ => ⟨_, rfl⟩
theorem telemetryTick : Statement (.telemetryTick) :=
  fun _ _ => ⟨_, rfl⟩
theorem bgBehind : Statement (.bgBehind) :=
  fun _ _ => ⟨_, rfl⟩
theorem pwrEnAssert x0 : Statement (.pwrEnAssert x0) :=
  fun _ _ => ⟨_, rfl⟩
theorem pwrEnDeassert : Statement (.pwrEnDeassert) :=
  fun _ _ => ⟨_, rfl⟩
theorem bringUpRow x0 : Statement (.bringUpRow x0) :=
  fun _ _ => ⟨_, rfl⟩
theorem bringTimeout : Statement (.bringTimeout) :=
  fun _ _ => ⟨_, rfl⟩
theorem dieTest x0 x1 x2 : Statement (.dieTest x0 x1 x2) :=
  fun _ _ => ⟨_, rfl⟩
theorem svnCommit x0 x1 : Statement (.svnCommit x0 x1) :=
  fun _ _ => ⟨_, rfl⟩
theorem fwImage x0 x1 x2 : Statement (.fwImage x0 x1 x2) :=
  fun _ _ => ⟨_, rfl⟩
theorem fwUpdate x0 x1 : Statement (.fwUpdate x0 x1) :=
  fun _ _ => ⟨_, rfl⟩
theorem fwHandover x0 : Statement (.fwHandover x0) :=
  fun _ _ => ⟨_, rfl⟩
theorem epochAdvance x0 x1 : Statement (.epochAdvance x0 x1) :=
  fun _ _ => ⟨_, rfl⟩
theorem certInstall x0 x1 x2 : Statement (.certInstall x0 x1 x2) :=
  fun _ _ => ⟨_, rfl⟩
theorem getVersion x0 x1 : Statement (.getVersion x0 x1) :=
  fun _ _ => ⟨_, rfl⟩
theorem getCapabilities x0 x1 : Statement (.getCapabilities x0 x1) :=
  fun _ _ => ⟨_, rfl⟩
theorem negotiateAlgorithms x0 x1 : Statement (.negotiateAlgorithms x0 x1) :=
  fun _ _ => ⟨_, rfl⟩
theorem getDigests x0 x1 : Statement (.getDigests x0 x1) :=
  fun _ _ => ⟨_, rfl⟩
theorem getCertificate x0 x1 : Statement (.getCertificate x0 x1) :=
  fun _ _ => ⟨_, rfl⟩
theorem challenge x0 x1 : Statement (.challenge x0 x1) :=
  fun _ _ => ⟨_, rfl⟩
theorem getMeasurements x0 x1 : Statement (.getMeasurements x0 x1) :=
  fun _ _ => ⟨_, rfl⟩
theorem spdmUnsupported x0 x1 : Statement (.spdmUnsupported x0 x1) :=
  fun _ _ => ⟨_, rfl⟩
theorem tamper : Statement (.tamper) :=
  fun _ _ => ⟨_, rfl⟩
theorem voltageGlitch : Statement (.voltageGlitch) :=
  fun _ _ => ⟨_, rfl⟩
theorem clockGlitch : Statement (.clockGlitch) :=
  fun _ _ => ⟨_, rfl⟩
theorem cold : Statement (.cold) :=
  fun _ _ => ⟨_, rfl⟩
theorem alarmClear x0 x1 : Statement (.alarmClear x0 x1) :=
  fun _ _ => ⟨_, rfl⟩
theorem debugToken x0 x1 x2 : Statement (.debugToken x0 x1 x2) :=
  fun _ _ => ⟨_, rfl⟩
theorem dtpRead x0 x1 x2 x3 : Statement (.dtpRead x0 x1 x2 x3) :=
  fun _ _ => ⟨_, rfl⟩
theorem dtpWrite x0 x1 x2 x3 x4 : Statement (.dtpWrite x0 x1 x2 x3 x4) :=
  fun _ _ => ⟨_, rfl⟩
theorem groupCommit x0 x1 x2 x3 : Statement (.groupCommit x0 x1 x2 x3) :=
  fun _ _ => ⟨_, rfl⟩
theorem groupDiscard x0 x1 x2 x3 : Statement (.groupDiscard x0 x1 x2 x3) :=
  fun _ _ => ⟨_, rfl⟩
theorem stagingTimeout x0 x1 : Statement (.stagingTimeout x0 x1) :=
  fun _ _ => ⟨_, rfl⟩
theorem dtpWriteInit x0 x1 x2 x3 x4 : Statement (.dtpWriteInit x0 x1 x2 x3 x4) :=
  fun _ _ => ⟨_, rfl⟩
theorem dtpReadCommitted x0 x1 x2 x3 : Statement (.dtpReadCommitted x0 x1 x2 x3) :=
  fun _ _ => ⟨_, rfl⟩
theorem dtpInfo x0 x1 x2 x3 : Statement (.dtpInfo x0 x1 x2 x3) :=
  fun _ _ => ⟨_, rfl⟩
theorem dtpSegment x0 x1 x2 : Statement (.dtpSegment x0 x1 x2) :=
  fun _ _ => ⟨_, rfl⟩
theorem dtpAck x0 x1 : Statement (.dtpAck x0 x1) :=
  fun _ _ => ⟨_, rfl⟩
theorem dtpAbort x0 x1 x2 : Statement (.dtpAbort x0 x1 x2) :=
  fun _ _ => ⟨_, rfl⟩
theorem dtpTransferTimeout x0 : Statement (.dtpTransferTimeout x0) :=
  fun _ _ => ⟨_, rfl⟩
theorem dtpLevel x0 x1 x2 : Statement (.dtpLevel x0 x1 x2) :=
  fun _ _ => ⟨_, rfl⟩
theorem levelGrant x0 x1 x2 : Statement (.levelGrant x0 x1 x2) :=
  fun _ _ => ⟨_, rfl⟩
theorem pathIdleTimeout x0 : Statement (.pathIdleTimeout x0) :=
  fun _ _ => ⟨_, rfl⟩
theorem heartbeat : Statement (.heartbeat) :=
  fun _ _ => ⟨_, rfl⟩
theorem dtpBusOff x0 : Statement (.dtpBusOff x0) :=
  fun _ _ => ⟨_, rfl⟩
theorem dtpAddrClash : Statement (.dtpAddrClash) :=
  fun _ _ => ⟨_, rfl⟩
theorem evictAck x0 : Statement (.evictAck x0) :=
  fun _ _ => ⟨_, rfl⟩
theorem ccIllegal x0 : Statement (.ccIllegal x0) :=
  fun h _ => ⟨_, onPart_next (of_decide_eq_true h)⟩
theorem veIllegal x0 : Statement (.veIllegal x0) :=
  fun h _ => ⟨_, onPart_next ((of_decide_eq_true h).1)⟩
theorem frameForward x0 x1 : Statement (.frameForward x0 x1) :=
  fun h _ => ⟨_, onPart_next (of_decide_eq_true h)⟩
theorem reservedFrameType x0 : Statement (.reservedFrameType x0) :=
  fun h _ => ⟨_, onPart_next (of_decide_eq_true h)⟩
theorem abCmd x0 x1 x2 x3 : Statement (.abCmd x0 x1 x2 x3) :=
  fun _ _ => ⟨_, rfl⟩
theorem debugAccess x0 : Statement (.debugAccess x0) :=
  fun _ _ => ⟨_, rfl⟩
theorem alarmSourceInactive x0 : Statement (.alarmSourceInactive x0) :=
  fun h _ => ⟨_, onPart_next (of_decide_eq_true h)⟩
theorem canErrorFrame x0 : Statement (.canErrorFrame x0) :=
  fun _ _ => ⟨_, rfl⟩
theorem flashWriteComplete x0 x1 : Statement (.flashWriteComplete x0 x1) :=
  fun _ _ => ⟨_, rfl⟩
theorem requestReturn : Statement (.requestReturn) :=
  fun _ _ => ⟨_, rfl⟩

end Sys2Proof.Laws.Answers
end

section
/-!
PROOFS. Solera words (R32 to R39): the fields of a packed word, addition as an addition modulo 2^184, terms as single
roundings, and the sums of both.
-/

namespace Sys2Proof.Machine

/-! ### The fields of a packed word (R32) -/

/-- The three flags of a word, in their places. -/
def Solera.flagBits (n v x : Bool) : BitVec 192 :=
  BitVec.ofNat 192 (b2n n * 2 ^ 191 + b2n v * 2 ^ 190 + b2n x * 2 ^ 189)

theorem Solera.mk_eq_flagBits_or (n v x : Bool) (i : Int) :
    Solera.mk n v x i = Solera.flagBits n v x ||| (BitVec.ofInt 184 i).setWidth 192 := rfl

/-- The flags stand above VALUE and above the reserved field. -/
theorem Solera.flagBits_low (n v x : Bool) : (Solera.flagBits n v x).setWidth 189 = 0#189 := by
  revert n v x
  decide

theorem Solera.flagBits_n (n v x : Bool) : (Solera.flagBits n v x).getLsbD 191 = n := by
  revert n v x
  decide

theorem Solera.flagBits_v (n v x : Bool) : (Solera.flagBits n v x).getLsbD 190 = v := by
  revert n v x
  decide

theorem Solera.flagBits_x (n v x : Bool) : (Solera.flagBits n v x).getLsbD 189 = x := by
  revert n v x
  decide

theorem Solera.mk_setWidth_value (n v x : Bool) (i : Int) :
    (Solera.mk n v x i).setWidth 184 = BitVec.ofInt 184 i := by
  have hflags : (Solera.flagBits n v x).setWidth 184 = 0#184 := by
    rw [← BitVec.setWidth_setWidth_of_le _ (by decide : 184 ≤ 189), Solera.flagBits_low, BitVec.setWidth_zero]
  rw [Solera.mk_eq_flagBits_or, BitVec.setWidth_or, hflags, BitVec.zero_or,
    BitVec.setWidth_setWidth_of_le _ (by decide), BitVec.setWidth_eq]

theorem Solera.value_mk (n v x : Bool) (i : Int) : (Solera.mk n v x i).value = i.bmod (2 ^ 184) := by
  rw [Solera.value, Solera.mk_setWidth_value, BitVec.toInt_ofInt]

/-- Above VALUE a packed word holds its flags alone. -/
theorem Solera.getLsbD_mk_of_ge (n v x : Bool) (i : Int) {j : Nat} (hj : 184 ≤ j) :
    (Solera.mk n v x i).getLsbD j = (Solera.flagBits n v x).getLsbD j := by
  rw [Solera.mk_eq_flagBits_or, BitVec.getLsbD_or, BitVec.getLsbD_setWidth, BitVec.getLsbD_of_ge _ _ hj, Bool.and_false,
    Bool.or_false]

@[simp] theorem Solera.n_mk (n v x : Bool) (i : Int) : (Solera.mk n v x i).n = n := by
  rw [Solera.n, Solera.getLsbD_mk_of_ge _ _ _ _ (by decide), Solera.flagBits_n]

@[simp] theorem Solera.v_mk (n v x : Bool) (i : Int) : (Solera.mk n v x i).v = v := by
  rw [Solera.v, Solera.getLsbD_mk_of_ge _ _ _ _ (by decide), Solera.flagBits_v]

@[simp] theorem Solera.x_mk (n v x : Bool) (i : Int) : (Solera.mk n v x i).x = x := by
  rw [Solera.x, Solera.getLsbD_mk_of_ge _ _ _ _ (by decide), Solera.flagBits_x]

theorem Solera.mk_reserved (n v x : Bool) (i : Int) : ((Solera.mk n v x i) >>> 184).setWidth 5 = (0 : BitVec 5) := by
  ext j hj
  have hlow : ((Solera.flagBits n v x).setWidth 189).getLsbD (184 + j) = false := by
    rw [Solera.flagBits_low, BitVec.getLsbD_zero]
  rw [BitVec.getLsbD_setWidth, decide_eq_true (by omega), Bool.true_and] at hlow
  rw [BitVec.getElem_setWidth, BitVec.getLsbD_ushiftRight, Solera.getLsbD_mk_of_ge _ _ _ _ (by omega), hlow]
  exact (BitVec.getElem_zero hj).symm

/-- VALUE counts modulo 2^184. -/
theorem Solera.mk_congr (n v x : Bool) {i j : Int} (h : i.bmod (2 ^ 184) = j.bmod (2 ^ 184)) :
    Solera.mk n v x i = Solera.mk n v x j := by
  have hbits : BitVec.ofInt 184 i = BitVec.ofInt 184 j :=
    BitVec.eq_of_toInt_eq (by rw [BitVec.toInt_ofInt, BitVec.toInt_ofInt, h])
  rw [Solera.mk, Solera.mk, hbits]

theorem Solera.value_bmod (w : Solera) : w.value.bmod (2 ^ 184) = w.value :=
  BitVec.toInt_bmod_cancel _

/-- An integer of 184 bits in two's complement is its own remainder. -/
theorem Solera.bmod_of_range {i : Int} (hlo : -2 ^ 183 ≤ i) (hhi : i ≤ 2 ^ 183 - 1) : i.bmod (2 ^ 184) = i :=
  Int.bmod_eq_of_le (by omega) (by omega)

/-! ### The sum of two words (R38) -/

theorem Solera.add_eq_mk (a b : Solera) :
    a.add b = Solera.mk (a.n || b.n) (a.v || b.v) (a.x || b.x) (a.value + b.value) := rfl

@[simp] theorem Solera.n_add (a b : Solera) : (a.add b).n = (a.n || b.n) := Solera.n_mk ..
@[simp] theorem Solera.v_add (a b : Solera) : (a.add b).v = (a.v || b.v) := Solera.v_mk ..
@[simp] theorem Solera.x_add (a b : Solera) : (a.add b).x = (a.x || b.x) := Solera.x_mk ..
theorem Solera.value_add (a b : Solera) : (a.add b).value = (a.value + b.value).bmod (2 ^ 184) :=
  Solera.value_mk ..

theorem Solera.add_reserved (a b : Solera) : ((a.add b) >>> 184).setWidth 5 = (0 : BitVec 5) := Solera.mk_reserved ..

theorem Solera.add_comm (a b : Solera) : a.add b = b.add a := by
  rw [Solera.add_eq_mk, Solera.add_eq_mk, Bool.or_comm a.n, Bool.or_comm a.v, Bool.or_comm a.x, Int.add_comm]

theorem Solera.add_assoc (a b c : Solera) : (a.add b).add c = a.add (b.add c) := by
  have hvalue : ((a.add b).value + c.value).bmod (2 ^ 184) = (a.value + (b.add c).value).bmod (2 ^ 184) := by
    rw [Solera.value_add, Solera.value_add, Int.bmod_add_bmod, Int.add_bmod_bmod, Int.add_assoc]
  rw [Solera.add_eq_mk (a.add b), Solera.mk_congr _ _ _ hvalue, Solera.add_eq_mk a (b.add c)]
  simp only [Solera.n_add, Solera.v_add, Solera.x_add, Bool.or_assoc]

theorem Solera.add_right_comm (a b c : Solera) : (a.add b).add c = (a.add c).add b := by
  rw [Solera.add_assoc, Solera.add_comm b, ← Solera.add_assoc]

theorem Solera.foldl_add_perm {l l' : List Solera} (h : l.Perm l') (w : Solera) :
    l.foldl Solera.add w = l'.foldl Solera.add w :=
  h.foldl_eq' (fun x _ y _ z => Solera.add_right_comm z x y) w

/-- Settles O15: the sum packs exact fields, and addition modulo 2^184 and the OR of flags commute and associate. -/
theorem soleraAdditionIsOrderFree : Obligations.SoleraAdditionIsOrderFree := by
  refine ⟨fun a b => ⟨?_, ?_, ?_, ?_, ?_⟩, Solera.add_comm, Solera.add_assoc, fun _ _ w h => Solera.foldl_add_perm h w⟩
  · exact Solera.value_add a b
  · exact Solera.n_add a b
  · exact Solera.v_add a b
  · exact Solera.x_add a b
  · exact Solera.add_reserved a b

/-! ### One rounding (R35) -/

@[simp] theorem rneShift_zero (v : Nat) : rneShift v 0 = v := by rw [rneShift, if_pos rfl]

/-- The quotient goes up above one half, and at one half where it is odd. -/
theorem rneShift_succ (v k : Nat) : rneShift v (k + 1) = v / 2 ^ (k + 1) +
    (if 2 ^ k < v % 2 ^ (k + 1) then 1 else if v % 2 ^ (k + 1) = 2 ^ k then v / 2 ^ (k + 1) % 2 else 0) := by
  rw [rneShift, if_neg k.succ_ne_zero, Nat.add_sub_cancel]
  split_ifs <;> rfl

/-- With the quotient raised by `up`, the multiple of p lies above v by up × p less the remainder. -/
theorem quotient_add_mul_sub (v p up : Nat) : ((v / p + up : Nat) : Int) * p - v = up * p - (v % p : Nat) := by
  have hdiv : (v : Int) = (v / p : Nat) * p + (v % p : Nat) := by exact_mod_cast (Nat.div_add_mod' v p).symm
  rw [Nat.cast_add, add_mul]
  omega

/-- How far the rounded multiple of 2^k lies from v: by at most one half of 2^k, and with an even factor by one half. -/
theorem rneShift_error (v k : Nat) : 2 * |(rneShift v k : Int) * 2 ^ k - v| ≤ 2 ^ k ∧
    (2 * |(rneShift v k : Int) * 2 ^ k - v| = 2 ^ k → k ≠ 0 → (rneShift v k : Int) % 2 = 0) := by
  cases k with
  | zero => simp
  | succ k =>
    have hrem : v % 2 ^ (k + 1) < 2 ^ (k + 1) := Nat.mod_lt _ (Nat.two_pow_pos _)
    have hpow : (2 : Int) ^ (k + 1) = (2 ^ (k + 1) : Nat) := by norm_cast
    rw [rneShift_succ, hpow, quotient_add_mul_sub]
    rw [pow_succ] at hrem ⊢
    generalize v / (2 ^ k * 2) = q
    generalize v % (2 ^ k * 2) = r at hrem ⊢
    generalize 2 ^ k = h at hrem ⊢
    simp only [Int.abs_eq_natAbs]
    split_ifs with hup htie
    · omega
    · rcases Nat.mod_two_eq_zero_or_one q with hq | hq <;> rw [hq] <;> omega
    · omega

theorem rneShift_mul_pow_eq_iff (v k : Nat) : rneShift v k * 2 ^ k = v ↔ v % 2 ^ k = 0 := by
  refine ⟨fun h => Nat.mod_eq_zero_of_dvd (Dvd.intro_left _ h), fun h => ?_⟩
  cases k with
  | zero => simp
  | succ k =>
    have hpos : 0 < 2 ^ k := Nat.two_pow_pos k
    rw [rneShift_succ, h, if_neg (Nat.not_lt_zero _), if_neg hpos.ne, Nat.add_zero,
      Nat.div_mul_cancel (Nat.dvd_of_mod_eq_zero h)]

theorem sgn_mul_sub_sgn (neg : Bool) (a b : Nat) (p : Int) : |sgn neg a * p - sgn neg b| = |(a : Int) * p - b| := by
  cases neg with
  | false => rfl
  | true => rw [sgn, if_pos rfl, sgn, if_pos rfl, ← abs_neg, neg_mul, neg_sub_neg, neg_sub]

theorem sgn_emod_two (neg : Bool) (a : Nat) : sgn neg a % 2 = (a : Int) % 2 := by
  cases neg <;> simp [sgn]

theorem nearestInt_of_nonneg (neg : Bool) (m : Nat) {d : Int} (hd : 0 ≤ d) :
    nearestInt neg m d = sgn neg m * 2 ^ d.toNat := if_pos hd

theorem nearestInt_of_neg (neg : Bool) (m : Nat) {d : Int} (hd : d < 0) :
    nearestInt neg m d = sgn neg (rneShift m (-d).toNat) := if_neg (Int.not_le.mpr hd)

/-- The integer nearest to m × 2^d, ties to even; the value is compared as a multiple of 2^(min d 0). -/
theorem nearestInt_error (neg : Bool) (m : Nat) (d : Int) :
    2 * |nearestInt neg m d * 2 ^ (-d).toNat - sgn neg m * 2 ^ d.toNat| ≤ 2 ^ (-d).toNat ∧
    (2 * |nearestInt neg m d * 2 ^ (-d).toNat - sgn neg m * 2 ^ d.toNat| = 2 ^ (-d).toNat → (-d).toNat ≠ 0 →
      nearestInt neg m d % 2 = 0) := by
  rcases Int.lt_or_le d 0 with hd | hd
  · rw [nearestInt_of_neg neg m hd, Int.toNat_of_nonpos hd.le, pow_zero, mul_one, sgn_mul_sub_sgn, sgn_emod_two]
    exact rneShift_error m (-d).toNat
  · rw [nearestInt_of_nonneg neg m hd, Int.toNat_of_nonpos (Int.neg_nonpos_of_nonneg hd)]
    simp

theorem nearestInt_exact_iff (neg : Bool) (m : Nat) (d : Int) :
    nearestInt neg m d * 2 ^ (-d).toNat = sgn neg m * 2 ^ d.toNat ↔ (d < 0 → m % 2 ^ (-d).toNat = 0) := by
  rcases Int.lt_or_le d 0 with hd | hd
  · rw [nearestInt_of_neg neg m hd, Int.toNat_of_nonpos hd.le, pow_zero, mul_one, ← sub_eq_zero, ← abs_eq_zero,
      sgn_mul_sub_sgn, abs_eq_zero, sub_eq_zero, ← rneShift_mul_pow_eq_iff]
    norm_cast
    simp [hd]
  · rw [nearestInt_of_nonneg neg m hd, Int.toNat_of_nonpos (Int.neg_nonpos_of_nonneg hd)]
    simp [hd.not_gt]

/-! ### Terms (R35 to R37) -/

/-- An integer held to the term range (R36). -/
def clampTerm (i : Int) : Int := max (-termMax) (min termMax i)

theorem termMax_eq : termMax = 2 ^ 159 - 1 := rfl

theorem clampTerm_range (i : Int) : -termMax ≤ clampTerm i ∧ clampTerm i ≤ termMax := by
  rw [clampTerm, termMax_eq]
  omega

theorem clampTerm_ne_iff (i : Int) : clampTerm i ≠ i ↔ termMax < |i| := by
  rw [clampTerm, termMax_eq, Int.abs_eq_natAbs]
  omega

theorem clampTerm_bmod (i : Int) : (clampTerm i).bmod (2 ^ 184) = clampTerm i := by
  obtain ⟨hlo, hhi⟩ := clampTerm_range i
  rw [termMax_eq] at hlo hhi
  exact Solera.bmod_of_range (by omega) (by omega)

theorem Solera.term_fin (eb : Int) (neg : Bool) (m : Nat) (e : Int) : Solera.term eb (.fin neg m e) =
    Solera.mk false (clampTerm (nearestInt neg m (e - eb)) != nearestInt neg m (e - eb))
      (decide (e < eb) && m % 2 ^ (eb - e).toNat != 0) (clampTerm (nearestInt neg m (e - eb))) := rfl

@[simp] theorem Solera.n_term_fin (eb : Int) (neg : Bool) (m : Nat) (e : Int) :
    (Solera.term eb (.fin neg m e)).n = false := Solera.n_mk ..

theorem Solera.v_term_fin (eb : Int) (neg : Bool) (m : Nat) (e : Int) :
    (Solera.term eb (.fin neg m e)).v = decide (termMax < |nearestInt neg m (e - eb)|) := by
  rw [Solera.term_fin, Solera.v_mk, Bool.eq_iff_iff, bne_iff_ne, decide_eq_true_iff, clampTerm_ne_iff]

/-- X is set exactly where the rounding discards something. -/
theorem Solera.x_term_fin (eb : Int) (neg : Bool) (m : Nat) (e : Int) : (Solera.term eb (.fin neg m e)).x =
    decide (nearestInt neg m (e - eb) * 2 ^ (eb - e).toNat ≠ sgn neg m * 2 ^ (e - eb).toNat) := by
  have hexact := nearestInt_exact_iff neg m (e - eb)
  rw [neg_sub, sub_neg] at hexact
  rw [Solera.term_fin, Solera.x_mk, Bool.eq_iff_iff, decide_eq_true_iff, ne_eq, hexact]
  simp

theorem Solera.value_term_fin (eb : Int) (neg : Bool) (m : Nat) (e : Int) :
    (Solera.term eb (.fin neg m e)).value = clampTerm (nearestInt neg m (e - eb)) := by
  rw [Solera.term_fin, Solera.value_mk, clampTerm_bmod]

/-- A term that is no number sets N and adds zero (R37). -/
theorem Solera.term_not_finite (eb : Int) {v : FV} (h : v = .nan ∨ ∃ g, v = .inf g) :
    Solera.term eb v = Solera.mk true false false 0 := by
  rcases h with rfl | ⟨g, rfl⟩ <;> rfl

theorem Solera.value_term_range (eb : Int) (v : FV) :
    -termMax ≤ (Solera.term eb v).value ∧ (Solera.term eb v).value ≤ termMax := by
  have hzero : (Solera.mk true false false 0).value = 0 := Solera.value_mk ..
  cases v with
  | nan => rw [Solera.term_not_finite eb (.inl rfl), hzero]; decide
  | inf g => rw [Solera.term_not_finite eb (.inr ⟨g, rfl⟩), hzero]; decide
  | fin neg m e => rw [Solera.value_term_fin]; exact clampTerm_range _

/-! ### Sums of terms (R39) -/

theorem Solera.value_foldl_add (l : List Solera) (w : Solera) :
    (l.foldl Solera.add w).value = (w.value + (l.map Solera.value).sum).bmod (2 ^ 184) := by
  induction l generalizing w with
  | nil => rw [List.foldl_nil, List.map_nil, List.sum_nil, Int.add_zero, Solera.value_bmod]
  | cons a l ih =>
    rw [List.foldl_cons, ih, Solera.value_add, Int.bmod_add_bmod, List.map_cons, List.sum_cons, Int.add_assoc]

theorem Solera.value_sum_terms (eb : Int) (l : List FV) : ((l.map (Solera.term eb)).foldl Solera.add 0).value =
    (l.map fun v => (Solera.term eb v).value).sum.bmod (2 ^ 184) := by
  have hzero : (0 : Solera).value = 0 := rfl
  rw [Solera.value_foldl_add, List.map_map, hzero, Int.zero_add]
  rfl

/-- At most 2^24 terms stay within VALUE. -/
theorem Solera.sum_terms_range (eb : Int) (l : List FV) (hl : l.length ≤ 2 ^ 24) :
    -2 ^ 183 ≤ (l.map fun v => (Solera.term eb v).value).sum ∧
    (l.map fun v => (Solera.term eb v).value).sum ≤ 2 ^ 183 - 1 := by
  have hlo := List.card_nsmul_le_sum (l.map fun v => (Solera.term eb v).value) (-termMax)
    (by simpa using fun v _ => (Solera.value_term_range eb v).1)
  have hhi := List.sum_le_card_nsmul (l.map fun v => (Solera.term eb v).value) termMax
    (by simpa using fun v _ => (Solera.value_term_range eb v).2)
  rw [List.length_map, nsmul_eq_mul, termMax_eq] at hlo hhi
  omega

/-- Settles O16: each term is one rounding held to the term range, and VALUE holds every sum that fits 184 bits. -/
theorem soleraTermsAndSums : Obligations.SoleraTermsAndSums := by
  refine ⟨fun eb neg m e => ?_, fun eb v hv => ?_, fun eb l => ⟨?_, fun hlo hhi => ?_, fun hl => ?_⟩⟩
  · obtain ⟨hhalf, heven⟩ := nearestInt_error neg m (e - eb)
    rw [neg_sub] at hhalf heven
    exact ⟨nearestInt neg m (e - eb), hhalf, heven, Solera.n_term_fin .., Solera.x_term_fin ..,
      Solera.v_term_fin .., Solera.value_term_fin ..⟩
  · have hfinite : v = .nan ∨ ∃ g, v = .inf g := by
      rcases hv with h | h | ⟨g, h, e, rfl | rfl⟩ | ⟨x, rfl⟩
      · exact .inl h
      · exact .inr h
      · exact .inl rfl
      · exact .inl rfl
      · exact .inl rfl
    rw [Solera.term_not_finite eb hfinite]
    exact ⟨Solera.n_mk .., Solera.value_mk ..⟩
  · exact Solera.value_sum_terms eb l
  · rw [Solera.value_sum_terms, Solera.bmod_of_range hlo hhi]
  · obtain ⟨hlo, hhi⟩ := Solera.sum_terms_range eb l hl
    rw [Solera.value_sum_terms, Solera.bmod_of_range hlo hhi]

end Sys2Proof.Machine
end

section
/-!
PROOFS. Arrival counters (R96, R97): each counter's arrived count rises in the issue order of its own items, whatever the old
values of the bytes that its items race for, and DMA_RESPONSE lets it rise so.
-/

namespace Sys2Proof.Machine

/-! ### Counts -/

@[simp] theorem cnt_put_same (m : List (Nat × Nat)) (k v : Nat) : cnt (put m k v) k = v := get_put_same m k v 0
@[simp] theorem cnt_put_other {m : List (Nat × Nat)} {k j v : Nat} (h : j ≠ k) : cnt (put m k v) j = cnt m j := get_put_other h

/-! ### Each counter in issue order (R97) -/

/-- The items of counter `j`, in issue order. -/
def ofCtr (items : List AItem) (j : Nat) : List AItem := items.filter fun x => x.ctr == j

theorem ofCtr_cons_same {x : AItem} {j : Nat} (h : x.ctr = j) (items : List AItem) :
    ofCtr (x :: items) j = x :: ofCtr items j := by simp [ofCtr, h]
theorem ofCtr_cons_other {x : AItem} {j : Nat} (h : x.ctr ≠ j) (items : List AItem) :
    ofCtr (x :: items) j = ofCtr items j := by simp [ofCtr, h]

theorem arrive_cons_rising {x : AItem} {blocked : List Nat} (hx : x.complete = true) (hb : x.ctr ∉ blocked) (items : List AItem)
    (arrived : List (Nat × Nat)) : arrive (x :: items) arrived blocked =
      arrive items (put arrived x.ctr (cnt arrived x.ctr + 1)) blocked := by
  rw [arrive, if_pos (by simp [hx, hb])]

theorem arrive_cons_waiting {x : AItem} {blocked : List Nat} (h : x.complete = true → x.ctr ∈ blocked) (items : List AItem)
    (arrived : List (Nat × Nat)) : arrive (x :: items) arrived blocked =
      (x :: (arrive items arrived (x.ctr :: blocked)).1, (arrive items arrived (x.ctr :: blocked)).2) := by
  rw [arrive, if_neg (by simpa using h)]

/-- A counter with an earlier item still incomplete does not rise, and its items stay. -/
theorem arrive_blocked {j : Nat} (items : List AItem) (arrived : List (Nat × Nat)) (blocked : List Nat) (hj : j ∈ blocked) :
    cnt (arrive items arrived blocked).2 j = cnt arrived j ∧ ofCtr (arrive items arrived blocked).1 j = ofCtr items j := by
  induction items generalizing arrived blocked with
  | nil => exact ⟨rfl, rfl⟩
  | cons x items ih =>
    by_cases hx : x.complete = true ∧ x.ctr ∉ blocked
    · obtain ⟨hcomplete, hfree⟩ := hx
      have hne : j ≠ x.ctr := fun e => hfree (e ▸ hj)
      obtain ⟨hcnt, hitems⟩ := ih (put arrived x.ctr (cnt arrived x.ctr + 1)) blocked hj
      rw [arrive_cons_rising hcomplete hfree, hcnt, hitems, cnt_put_other hne, ofCtr_cons_other hne.symm]
      exact ⟨rfl, rfl⟩
    · obtain ⟨hcnt, hitems⟩ := ih arrived (x.ctr :: blocked) (List.mem_cons_of_mem _ hj)
      rw [arrive_cons_waiting (by simpa using hx)]
      refine ⟨hcnt, ?_⟩
      by_cases e : x.ctr = j
      · rw [ofCtr_cons_same e, ofCtr_cons_same e, hitems]
      · rw [ofCtr_cons_other e, ofCtr_cons_other e, hitems]

/-- A counter that is not blocked rises by the number of its complete items before its first incomplete one, and exactly those
leave the list. -/
theorem arrive_free {j : Nat} (items : List AItem) (arrived : List (Nat × Nat)) (blocked : List Nat) (hj : j ∉ blocked) :
    cnt (arrive items arrived blocked).2 j = cnt arrived j + ((ofCtr items j).takeWhile (·.complete)).length ∧
    ofCtr (arrive items arrived blocked).1 j = (ofCtr items j).drop ((ofCtr items j).takeWhile (·.complete)).length := by
  induction items generalizing arrived blocked with
  | nil => exact ⟨rfl, rfl⟩
  | cons x items ih =>
    by_cases e : x.ctr = j
    · rw [ofCtr_cons_same e]
      cases hx : x.complete with
      | true =>
        obtain ⟨hcnt, hitems⟩ := ih (put arrived x.ctr (cnt arrived x.ctr + 1)) blocked hj
        rw [arrive_cons_rising hx (e ▸ hj), hcnt, hitems, List.takeWhile_cons_of_pos hx, e, cnt_put_same, List.length_cons,
          List.drop_succ_cons]
        exact ⟨Nat.add_right_comm .., rfl⟩
      | false =>
        obtain ⟨hcnt, hitems⟩ := arrive_blocked items arrived (x.ctr :: blocked) (j := j) (by simp [e])
        rw [arrive_cons_waiting (by simp [hx]), List.takeWhile_cons_of_neg (by simp [hx])]
        exact ⟨hcnt, (ofCtr_cons_same e _).trans (congrArg (x :: ·) hitems)⟩
    · rw [ofCtr_cons_other e]
      by_cases hx : x.complete = true ∧ x.ctr ∉ blocked
      · obtain ⟨hcomplete, hfree⟩ := hx
        obtain ⟨hcnt, hitems⟩ := ih (put arrived x.ctr (cnt arrived x.ctr + 1)) blocked hj
        rw [arrive_cons_rising hcomplete hfree, hcnt, hitems, cnt_put_other (Ne.symm e)]
        exact ⟨rfl, rfl⟩
      · obtain ⟨hcnt, hitems⟩ := ih arrived (x.ctr :: blocked) (by simp [hj, Ne.symm e])
        rw [arrive_cons_waiting (by simpa using hx)]
        exact ⟨hcnt, (ofCtr_cons_other e _).trans hitems⟩

/-! ### Items without the old values that they race for (R101) -/

/-- An item without the old values of the bytes that it races for. -/
def AItem.bare (x : AItem) : AItem := { x with olds := [] }

@[simp] theorem AItem.bare_ctr (x : AItem) : x.bare.ctr = x.ctr := rfl

theorem ofCtr_map_bare (items : List AItem) (j : Nat) : ofCtr (items.map AItem.bare) j = (ofCtr items j).map AItem.bare :=
  List.filter_map

/-- Arrivals do not look at old values. -/
theorem arrive_map_bare (items : List AItem) (arrived : List (Nat × Nat)) (blocked : List Nat) :
    arrive (items.map AItem.bare) arrived blocked =
      ((arrive items arrived blocked).1.map AItem.bare, (arrive items arrived blocked).2) := by
  induction items generalizing arrived blocked with
  | nil => rfl
  | cons x items ih =>
    rw [List.map_cons]
    by_cases hx : x.complete = true ∧ x.ctr ∉ blocked
    · obtain ⟨hcomplete, hfree⟩ := hx
      rw [arrive_cons_rising (x := x.bare) hcomplete hfree, arrive_cons_rising hcomplete hfree, AItem.bare_ctr, ih]
    · have hwaits : x.complete = true → x.ctr ∈ blocked := by simpa using hx
      rw [arrive_cons_waiting (x := x.bare) hwaits, arrive_cons_waiting hwaits, AItem.bare_ctr, ih, List.map_cons]

/-! ### A part of an item returns (R96) -/

/-- An item as a part of the item numbered `id` returns. -/
def AItem.partBack (id : Nat) (x : AItem) : AItem :=
  if x.id = id then { x with left := x.left - 1, complete := decide (x.left ≤ 1) } else x

theorem AItem.bare_partBack (id : Nat) (x : AItem) : (x.partBack id).bare = x.bare.partBack id := by
  unfold AItem.partBack AItem.bare
  split <;> rfl

theorem map_bare_partBack (items : List AItem) (id : Nat) :
    (items.map (AItem.partBack id)).map AItem.bare = (items.map AItem.bare).map (AItem.partBack id) := by
  simp [AItem.bare_partBack]

theorem Core.itemBack_items (k : Core) (id : Nat) :
    (k.itemBack id).items = (arrive (k.items.map (AItem.partBack id)) k.arrived []).1 := rfl
theorem Core.itemBack_arrived (k : Core) (id : Nat) :
    (k.itemBack id).arrived = (arrive (k.items.map (AItem.partBack id)) k.arrived []).2 := rfl
@[simp] theorem Core.itemBack_stopping (k : Core) (id : Nat) : (k.itemBack id).stopping = k.stopping := rfl

/-- As a part of an item returns, every counter rises by its complete items before its first incomplete one. -/
theorem Core.itemBack_counter (k : Core) (id j : Nat) :
    let mine := ofCtr (k.items.map (AItem.partBack id)) j
    cnt (k.itemBack id).arrived j = cnt k.arrived j + (mine.takeWhile (·.complete)).length ∧
    ofCtr (k.itemBack id).items j = mine.drop (mine.takeWhile (·.complete)).length := by
  rw [Core.itemBack_items, Core.itemBack_arrived]
  exact arrive_free _ _ [] List.not_mem_nil

/-- The two cores have the same items, old values left aside, and the same arrived counts. -/
structure Core.SameItems (k q : Core) : Prop where
  items : q.items.map AItem.bare = k.items.map AItem.bare
  arrived : q.arrived = k.arrived

theorem Core.SameItems.trans {k q p : Core} (h : k.SameItems q) (g : q.SameItems p) : k.SameItems p :=
  ⟨g.items.trans h.items, g.arrived.trans h.arrived⟩

theorem Core.SameItems.itemBack {k q : Core} (h : k.SameItems q) (id : Nat) : (k.itemBack id).SameItems (q.itemBack id) := by
  have harrive := congrArg₂ (fun l a => arrive (l.map (AItem.partBack id)) a []) h.items h.arrived
  simp only [← map_bare_partBack, arrive_map_bare, Prod.mk.injEq] at harrive
  obtain ⟨hitems, harrived⟩ := harrive
  exact ⟨hitems, harrived⟩

theorem Core.SameItems.map_bare_ofCtr {k q : Core} (h : k.SameItems q) (j : Nat) :
    (ofCtr q.items j).map AItem.bare = (ofCtr k.items j).map AItem.bare := by
  rw [← ofCtr_map_bare, ← ofCtr_map_bare, h.items]

/-! ### An item writes local bytes (R101) -/

/-- Bytes written with their races touch the bytes, the races, and the old values of those in flight. -/
theorem Core.storeN_eq (k : Core) (src no : Nat) (foes : List Race) (clash : List Cell) (a : Nat) (d : List Byte) :
    k.storeN src no foes clash a d = { k with
      ldst := (k.storeN src no foes clash a d).ldst, races := (k.storeN src no foes clash a d).races
      press := (k.storeN src no foes clash a d).press, items := (k.storeN src no foes clash a d).items
      redq := (k.storeN src no foes clash a d).redq } := by
  induction d generalizing k a with
  | nil => rfl
  | cons b d ih => exact ih (k.store1 src no foes (clash.any (·.1 == a)) a b) (a + 1)

theorem Core.store1_items_bare (k : Core) (src no : Nat) (foes : List Race) (clash : Bool) (a : Nat) (b : Byte) :
    (k.store1 src no foes clash a b).items.map AItem.bare = k.items.map AItem.bare := List.map_map

theorem Core.storeN_items_bare (k : Core) (src no : Nat) (foes : List Race) (clash : List Cell) (a : Nat) (d : List Byte) :
    (k.storeN src no foes clash a d).items.map AItem.bare = k.items.map AItem.bare := by
  induction d generalizing k a with
  | nil => rfl
  | cons b d ih => exact (ih _ _).trans (Core.store1_items_bare ..)

/-- Regenerating check bits touches only them and an injection that awaits them. -/
theorem Core.regen_eq (k : Core) (a n : Nat) :
    k.regen a n = { k with ecc := (k.regen a n).ecc, injNext := (k.regen a n).injNext } := by
  unfold Core.regen
  split
  · split <;> rfl
  · rfl

theorem Core.regen_items (k : Core) (a n : Nat) : (k.regen a n).items = k.items := by
  rw [Core.regen_eq]

/-- The local bytes an item writes touch the bytes and check bits, the races, and the old values of those in flight. -/
theorem Core.storeItem_eq (k : Core) (id a : Nat) (d : List Byte) :
    k.storeItem id a d = { k with
      ldst := (k.storeItem id a d).ldst, races := (k.storeItem id a d).races, press := (k.storeItem id a d).press
      items := (k.storeItem id a d).items, redq := (k.storeItem id a d).redq
      ecc := (k.storeItem id a d).ecc, injNext := (k.storeItem id a d).injNext } := by
  unfold Core.storeItem
  split
  · rw [Core.regen_eq, Core.storeN_eq]
  · rw [Core.pokeChecked, Core.regen_eq, Core.poke]

theorem Core.storeItem_stopping (k : Core) (id a : Nat) (d : List Byte) : (k.storeItem id a d).stopping = k.stopping := by
  rw [Core.storeItem_eq]

theorem Core.storeItem_sameItems (k : Core) (id a : Nat) (d : List Byte) : k.SameItems (k.storeItem id a d) where
  items := by
    unfold Core.storeItem
    split
    · rw [Core.regen_items, Core.storeN_items_bare]
    · rw [Core.pokeChecked, Core.regen_items]; rfl
  arrived := by rw [Core.storeItem_eq]

/-! ### A copy request comes back (R96, R107) -/

/-- A kernel that is not stopping is not brought to DONE. -/
theorem State.finishIfQuiet_of_not_stopping {s : State} {c : Nat} (h : (s.core c).stopping = false) : s.finishIfQuiet c = s := by
  simp [State.finishIfQuiet, whenever, h]

/-- A request that comes back whole has its effect on the core, whose racing accesses are decided afresh. -/
theorem State.dmaBack_core {s : State} {c : Nat} {r : Req} {f : Core → Core} (herr : r.err = 0) (hpoison : r.poison = false)
    (hrun : (s.core c).stopping = false) (hf : ∀ k : Core, (f k).stopping = k.stopping) :
    ∃ n, (s.dmaBack c r f).core c = f { s.core c with rdraw := n } := by
  have hcore : (((s.dropReq r.tag).fresh c).onCoreState c f).core c =
      f { s.core c with rdraw := (((s.dropReq r.tag).fresh c).core c).rdraw } := by
    rw [State.onCoreState_core_same]
    exact congrArg f (State.fresh_core ..)
  have hback : s.dmaBack c r f = ((s.dropReq r.tag).fresh c).onCoreState c f := by
    simp only [State.dmaBack, herr, hpoison, ne_eq, not_true_eq_false, if_false, Bool.false_eq_true, if_true]
    exact State.finishIfQuiet_of_not_stopping (by rw [hcore, hf]; exact hrun)
  exact ⟨_, hback ▸ hcore⟩

/-- A part of a copy that returns whole counts for its item, whichever way the copy goes. -/
theorem execDmaResponse_sameItems {s : State} {tag c i : Nat} {r : Req} (hhere : s.here? tag = some r) (hdone : r.stage = .done)
    (hpoison : r.poison = false) (herr : r.err = 0) (hagent : r.agent = .dmaWrite c i ∨ ∃ l, r.agent = .dmaRead c i l)
    (hrun : (s.core c).stopping = false) :
    ∃ t, execDmaResponse tag s = .next t ∧ ((s.core c).itemBack i).SameItems (t.core c) := by
  have hdrawn (n : Nat) : (s.core c).SameItems { s.core c with rdraw := n } := ⟨rfl, rfl⟩
  obtain hwrite | ⟨l, hread⟩ := hagent
  · obtain ⟨n, hcore⟩ := State.dmaBack_core (f := (·.itemBack i)) herr hpoison hrun fun k => k.itemBack_stopping i
    refine ⟨s.dmaBack c r (·.itemBack i), by simp only [execDmaResponse, hhere, hwrite, hdone], ?_⟩
    rw [hcore]
    exact (hdrawn n).itemBack i
  · let d := slice r.data (r.va % 128) r.size
    obtain ⟨n, hcore⟩ := State.dmaBack_core (f := fun k => (k.storeItem i l d).itemBack i) herr hpoison hrun
      fun k => Core.storeItem_stopping k i l d
    refine ⟨s.dmaBack c r fun k => (k.storeItem i l d).itemBack i, by simp only [execDmaResponse, hhere, hread, hdone, d], ?_⟩
    rw [hcore]
    exact ((hdrawn n).trans (Core.storeItem_sameItems _ i l d)).itemBack i

/-- Settles O20: the returned part completes its item, and each counter rises by its complete items before its first incomplete
one. -/
theorem arrivalsInIssueOrder : Obligations.ArrivalsInIssueOrder := by
  intro s tag c i r hhere hdone hpoison herr hagent hrun
  obtain ⟨t, hexec, hsame⟩ := execDmaResponse_sameItems hhere hdone hpoison herr hagent hrun
  refine ⟨t, hexec, fun j => ?_⟩
  obtain ⟨hcnt, hitems⟩ := (s.core c).itemBack_counter i j
  exact ⟨hsame.arrived ▸ hcnt, (hsame.map_bare_ofCtr j).trans (congrArg (List.map AItem.bare) hitems)⟩

end Sys2Proof.Machine
end
